-- ==== Sys2Proof/Word.lean ====
section
/-! DEFINITION. The words of the machine: bytes, 32-bit elements, 64-bit values, 96-lane masks (R10, R14, R18). -/

namespace Sys2Proof

/-- One byte of memory (R10). -/
abbrev Byte := BitVec 8

/-- One 32-bit register element (R16). -/
abbrev W := BitVec 32

/-- One 64-bit value: a register pair, an address, an instruction word (R18, R50). -/
abbrev D := BitVec 64

/-- A mask of the 96 lanes of a wave; bit l is lane l (R14, R21). -/
abbrev Mask := BitVec 96

/-- Number of a vector register (R17). -/
abbrev VR := BitVec 7

/-- Number of a scalar register; a pair or a triple is named by its lowest register (R18, R41). -/
abbrev SR := BitVec 6

/-- Number of a future register (R19). -/
abbrev FR := BitVec 4

end Sys2Proof
end

