-- ==== Sys2Proof/Config.lean ====
section
/-! DEFINITION. What the manual fixes for the part and what it leaves open. An `opaque` constant has no body: nothing in
Lean can evaluate it, so a statement about it holds whatever the device does (log entries 6-11). -/

namespace Sys2Proof

/-- Number of this package in the pod, `WIDX.PKG` (R31). DESIGN CHOICE: the manual gives the number at bring-up and
no value; the model is package 0 (log 2). Unsafe for claims about other packages. -/
def Config.pkg : Nat := 0

/-- Bytes of a die's Hayloft: 384 MiB (R6, R168, R282). -/
def Config.hayBytes : Nat := 384 * 2 ^ 20

/-- Bytes of device memory: 512 GiB (R284). -/
def Config.devBytes : Nat := 2 ^ 39

/-- First byte of the system region (R305). -/
def Config.sysBase : Nat := 2 ^ 39 - 2 ^ 24

/-- Number of the system context among `State.ctxs`; contexts have numbers 0-63 (R305). DESIGN CHOICE (log 21). -/
def Config.sysCtx : Nat := 64

/-- Physical address of a die's fault queue: a ring of 256 entries of 32 bytes, and its barrier object just after it (R303).
DESIGN CHOICE (log 21): the manual places it in the system region and gives no address. Unsafe. -/
def Config.queueKey (die : Nat) : Nat := Config.sysBase + die * 2 ^ 14

/-- Key of a die's queue barrier object (R303). -/
def Config.queueObj (die : Nat) : Nat := Config.queueKey die + 8192

/-- Physical address of a die's fault-service launch record (R305). DESIGN CHOICE (log 21), as above. -/
def Config.serviceRec (die : Nat) : Nat := Config.queueKey die + 8320

/-- Area of a die's fault-service wave in the system region (R305). DESIGN CHOICE (log 21), as above. -/
def Config.serviceArea (die : Nat) : Nat := Config.sysBase + 2 ^ 20 + die * 4096

/-- Entry of the fault-service code in the system region (R305). DESIGN CHOICE (log 21), as above. -/
def Config.serviceEntry : Nat := Config.sysBase + 2 ^ 21

/-- Where the 1 KiB table of format windows lies in the flat physical key space (R285). DESIGN CHOICE: the manual gives
no address for package configuration space; the model puts it just above device memory (log 14). Unsafe. -/
def Config.windowBase : Nat := 2 ^ 39

/-- Key of byte `a` of peer package `p`'s device memory (R297). -/
def Config.peerKey (p a : Nat) : Nat := (p + 1) * 2 ^ 48 + a

/-- Key of byte `a` of host memory (R297). -/
def Config.hostKey (a : Nat) : Nat := 2 ^ 60 + a

/-- Key of byte `off` of die `d`'s Hayloft (R282). -/
def Config.hayKey (d off : Nat) : Nat := 2 ^ 62 + d * 2 ^ 40 + off

/-- Free value: by how many grid steps the FP32 result of a special function differs from the correctly rounded
one, for function number `f` and input bits `x` (R137). It is used only where the bound of R137 allows it. -/
opaque Config.sfOffset : Nat → W → Int

/-- Free value: nanoseconds that pass before the n-th clock reading (R295). -/
opaque Config.elapsedNs : Nat → Nat

/-- Free value: arithmetic cycles that pass before the n-th clock reading (R295). -/
opaque Config.elapsedCyc : Nat → Nat

/-- Free value: fabric cycles that pass before the n-th reading of `HAYREF` (R283). -/
opaque Config.elapsedFab : Nat → Nat

/-- Free value: `PHASE` of a die when the package's count of fabric cycles is 0; arbitrary, and fixed from one reset to the
next (R283). First argument: the bring-up. -/
opaque Config.phaseOffset : Nat → Nat → Nat

/-- Free value: whether a read takes an older copy that the rules allow it (R255, R262). -/
opaque Config.useCopy : Nat → Bool

/-- Free value: a byte that the manual calls unspecified (R196, R203), by occurrence. -/
opaque Config.freeByte : Nat → Byte

/-- Free value: a count that the manual does not state: RESULT or PROG of `BINOPEN`, RESULT of `BINPLAY` (R194). -/
opaque Config.freeResult : Nat → Nat

/-- Free value: the block cipher, AES-256-XTS with an unknown key (R9, R316): for key slot, generation of the key, line
number and 16-byte block of the line, a permutation of the blocks. Decryption is its inverse. -/
opaque Config.cipher : Nat → Nat → Nat → Nat → Equiv.Perm (BitVec 128)

/-- Free value: whether a `CSTORE` block may set VIEW, as R287 has it, or fails for it, as R220 has it. -/
opaque Config.cstoreView : Bool

/-- Free value: the hashes of an attestation report, byte by byte: that of the firmware body by the count of bring-ups, those of
the fuses and of the identity key for the part (count 0) (R354). -/
opaque Config.imageByte : Nat → Nat → Byte

/-- Free value: byte `i` of the signature of the n-th attestation report (R354). -/
opaque Config.signByte : Nat → Nat → Byte

/-- Free value: cycles that a performance counter has counted since its last reading, at the n-th reading (R319). -/
opaque Config.perfCount : Nat → Nat

/-- Free value: whether the scheduler deschedules the wave at the n-th `YIELD` at which it may (R109). -/
opaque Config.deschedules : Nat → Bool

/-- Free value: which entry a full cache, LLC set or TLB evicts, at the n-th eviction (R280, R281, R284, R299). -/
opaque Config.victim : Nat → Nat

/-- Free value: which of the units 1-7 of a lane's draw the second of the two roundings of `VPACK` takes under SR (R75,
R134, R160 name none). -/
opaque Config.packUnit : Nat

/-- Free value: the S20 pattern that an inline constant supplies where a word reads a scale (R56, R135 give none). -/
opaque Config.scaleConst : Nat → W

end Sys2Proof
end

