-- ==== Sys2Proof/Syntax.lean ====
section
/-! DEFINITION. The instruction set as syntax: operands (R53-R61, R166, R144) and one constructor of `Instr` for every
row of spec/opcode_table.json. The table's rows are the part's steps: 218 of them are fetched words, the others are
device and host events, whose arguments say which unit the event happens to and how an open choice falls. -/

namespace Sys2Proof

/-- The lane-view specials (R55), in number order from 0xD0. -/
inductive LaneSpecial
  | lid | zero | ones | lbeat | lsub | glid
  deriving DecidableEq, Repr

/-- What a 9-bit source field names (R53, R54). -/
inductive Src
  | v (n : VR)               -- vector register
  | s (n : SR)               -- scalar register
  | f (n : FR)               -- future register
  | x (n : LaneSpecial)      -- lane-view special
  | k (n : BitVec 4)         -- inline constant 0xE0 + n (R56)
  | l (n : BitVec 3)         -- bypass latch
  deriving DecidableEq, Repr

/-- Rounding modes (R60, R73). -/
inductive Rm
  | rne | rz | ru | rd | sr
  deriving DecidableEq, Repr

/-- Type codes 0-4 of `MOD` (R61). -/
inductive VTy
  | s32 | u32 | f32 | f16 | bf16
  deriving DecidableEq, Repr

/-- All type codes (R61). -/
inductive Ty
  | s32 | u32 | f32 | f16 | bf16 | e4m3 | e5m2 | s16 | u16 | s8 | u8 | l6 | h1 | h2 | h4 | h8
  deriving DecidableEq, Repr

/-- The common modifiers SAT and RM of XM (R60). -/
structure Xm where
  sat : Bool
  rm  : Rm
  deriving DecidableEq, Repr

/-- The second operand of a scalar ALU word: a source field or the immediate I16S (R97). -/
inductive Alu2
  | reg (b : Src)
  | imm (x : BitVec 16)
  deriving DecidableEq, Repr

/-- The third operand of `SADDP` (R98). -/
inductive AddP
  | pair (b : Src) | sext (b : Src) | imm (x : BitVec 16)
  deriving DecidableEq, Repr

/-- `SCMP` and `SCMPP` conditions (R98). -/
inductive SCond
  | eq | ne | slt | sle | ult | ule
  deriving DecidableEq, Repr

/-- `SEXT` modes (R98). -/
inductive ExtMode
  | s8 | u8 | s16 | u16 | s32 | u32
  deriving DecidableEq, Repr

/-- `SMASK` operations with their operands (R100). -/
inductive MaskOp
  | first (d : SR) (a : Src)
  | and (d a b : SR)
  | or (d a b : SR)
  | andn (d a b : SR)
  | cnt (d : SR) (a : SR)
  | low (d : SR) (a : SR)
  deriving DecidableEq, Repr

/-- `WAITC` counters (R108). -/
inductive Ctr
  | vl | sp | st | tr
  deriving DecidableEq, Repr

/-- Launch scopes (R112). -/
inductive LScope
  | die | pkg | pod
  deriving DecidableEq, Repr

/-- Conditions of `VCMP` (R127). -/
inductive VCond
  | eq | ne | lt | le | gt | ge | un
  deriving DecidableEq, Repr

/-- `VSGNJ` variants (R126). -/
inductive SgnVar
  | cp | neg | xor
  deriving DecidableEq, Repr

/-- `VDOT4` element types (R132). -/
inductive Dot4
  | s8 | u8 | s8u8 | e4m3 | e5m2
  deriving DecidableEq, Repr

/-- Destination of `VPACK`: a 16-bit pair, or two bytes at position p (R134). -/
inductive PackTo
  | f16 | bf16 | e4m3 (p : Bool) | e5m2 (p : Bool)
  deriving DecidableEq, Repr

/-- Element that `VUNPK` takes (R134). -/
inductive UnpkFrom
  | f16 (e : Bool) | bf16 (e : Bool) | e4m3 (e : BitVec 2) | e5m2 (e : BitVec 2)
  deriving DecidableEq, Repr

/-- Formats of the block-quantisation words (R135). -/
inductive QTy
  | e4m3 | e5m2 | l6 | h4
  deriving DecidableEq, Repr

/-- H formats (R81). -/
inductive HTy
  | h1 | h2 | h4 | h8
  deriving DecidableEq, Repr

/-- Member set of a cross-lane word (R139). -/
inductive Member
  | all
  | triple (c : SR)
  deriving DecidableEq, Repr

/-- Combining operations (R144). -/
inductive Cop
  | add | max | min | and | or | xor
  deriving DecidableEq, Repr

/-- Butterfly forms (R148). -/
inductive Bfly
  | x
  | lo (b : Src)
  | hi (b : Src)
  deriving DecidableEq, Repr

/-- Votes with a scalar result (R149), and the ballot. -/
inductive VoteOp
  | any | all | uni | ballot
  deriving DecidableEq, Repr

/-- The address immediate I25 of a memory word (R166). -/
inductive I25
  | glob (hay : Bool) (scale : BitVec 2) (col : BitVec 3) (ord : BitVec 2) (scope : BitVec 3) (disp : BitVec 12)
  | spad (scale : BitVec 2) (ord : Bool) (disp : BitVec 20)
  deriving DecidableEq, Repr

/-- Access types of loads (R170). -/
inductive LdTy
  | b32 | u8 | s8 | u16 | s16
  deriving DecidableEq, Repr

/-- Access types of stores (R170). -/
inductive StTy
  | b32 | b8 | b16
  deriving DecidableEq, Repr

/-- 32-bit atomic operations (R173). -/
inductive AOp
  | add | smin | smax | and | or | xor | exch | fadd
  deriving DecidableEq, Repr

/-- 64-bit atomic operations (R173). -/
inductive AOpP
  | add | umin | umax | and | or | xor | exch
  deriving DecidableEq, Repr

/-- Path classes of `XFENCE` (R180). -/
inductive PClass
  | v | c | m | b | s | h
  deriving DecidableEq, Repr

/-- A block operand of an engine, tile or label word: base + DISP, global or in scratchpad (R188, R210, R242). -/
structure Blk where
  bsp  : Bool
  base : Src
  disp : BitVec 12
  deriving DecidableEq, Repr

/-- `CMMAS` patterns (R217). -/
inductive Sparse
  | s24 | s14
  deriving DecidableEq, Repr

/-- One half of a pair word (R52, R64). `B` is a source field or, in the "I" forms, the value IMM4. -/
inductive PairOp
  | vmov | vmovi | vadd | vaddi | vsub | vsubi | vmul | vmuli | vmin | vmax | vand | vor | vxor
  | vshl | vshli | vshr | vshri | vneg | vabs
  | smov | smovi | sadd | saddi | ssub | ssubi | sand | sor | sxor | sshl | sshli | sshr | sshri | smin | smax | pnop
  deriving DecidableEq, Repr

/-- The fields of one half: pair opcode, `MOD`, `NW`, `D` (a register number of R54), `B` and IMM4 (R52). -/
structure Half where
  pop  : PairOp
  ty   : VTy
  nw   : Bool
  d    : BitVec 8
  b    : Option Src
  imm  : BitVec 4
  deriving DecidableEq, Repr

/-- A retry at a port of a link, and whether its flit then passes (R347). -/
structure FlitRetry where
  port   : Nat
  passes : Bool
  deriving DecidableEq, Repr

/-- Where a bit error strikes (R175, R278, R282, R284, R280). -/
inductive ErrSite
  | scratch (gang : Nat) (word : Nat)
  | granule (key : Nat)
  | l1 (byre : Nat) (line : Nat)
  deriving DecidableEq, Repr

/-- A grid message that reaches this package: number `msg` of those under way, or one that another package's root has sent
(R337). -/
inductive GridMsg
  | here (msg : Nat)
  | other (num ctx queue prio : Nat) (bytes : List Byte) (step : W) (lo hi : Nat)
  deriving DecidableEq, Repr

/-- A chunk that reaches this package, likewise (R339). -/
inductive ChunkMsg
  | here (msg : Nat)
  | other (num lo hi : Nat)
  deriving DecidableEq, Repr

/-- An end-of-deal notice that reaches this package, likewise (R343). -/
inductive DealMsg
  | here (msg : Nat)
  | other (num : Nat) (abort cancel : Bool)
  deriving DecidableEq, Repr

/-- A fault report that reaches a dispatcher of this package: one under way, or one that package `pkg` has sent (R345); a
package that declines a grid reports with source 4 (R336). -/
inductive FaultMsg
  | here (msg : Nat)
  | other (num pkg : Nat) (tcause widx : W) (tpc tval : D) (gx gy gz src : Nat)
  deriving DecidableEq, Repr

/-- A cancellation that reaches its root: one under way, one that package `pkg` asks for, or another root's answer to request
`msg` of this package: whether it still held undealt gangs (R346). -/
inductive CancelMsg
  | here (msg : Nat)
  | other (pkg ctx : Nat) (comp : D)
  | answer (msg : Nat) (still : Bool)
  deriving DecidableEq, Repr

/-- What happens next in the hub's bring-up (R351): power-on or a fundamental reset; the firmware image is verified (R354); the
stage now running ends; it fails. -/
inductive BringUp
  | start
  | image (signed : Bool) (version : W)
  | go
  | fail
  deriving DecidableEq, Repr

/-- One constructor per row of spec/opcode_table.json: the words, then the device's own steps, then host, environment and
monitor events. (The order keeps the constructors that the model builds below the runtime's limit on tags.) -/
inductive Instr
  -- word forms without an opcode of their own (03, 06)
  | illegalWord (w : D) (sub : Nat) (field : Nat) (half : Bool)
  | pairWord (h0 h1 : Half)
  | fusedSoftmax (g : BitVec 3) (x m y sum : VR)
  -- scalar words (05)
  | sadd (uns : Bool) (nw : Bool) (d : SR) (a : Src) (b : Alu2)
  | ssub (uns : Bool) (nw : Bool) (d : SR) (a : Src) (b : Alu2)
  | smul (uns : Bool) (nw : Bool) (d : SR) (a : Src) (b : Alu2)
  | smulh (uns : Bool) (nw : Bool) (d : SR) (a : Src) (b : Alu2)
  | sdiv (uns : Bool) (nw : Bool) (d : SR) (a : Src) (b : Alu2)
  | srem (uns : Bool) (nw : Bool) (d : SR) (a : Src) (b : Alu2)
  | smin (uns : Bool) (nw : Bool) (d : SR) (a : Src) (b : Alu2)
  | smax (uns : Bool) (nw : Bool) (d : SR) (a : Src) (b : Alu2)
  | sand (uns : Bool) (nw : Bool) (d : SR) (a : Src) (b : Alu2)
  | sor (uns : Bool) (nw : Bool) (d : SR) (a : Src) (b : Alu2)
  | sxor (uns : Bool) (nw : Bool) (d : SR) (a : Src) (b : Alu2)
  | sandn (uns : Bool) (nw : Bool) (d : SR) (a : Src) (b : Alu2)
  | sshl (uns : Bool) (nw : Bool) (d : SR) (a : Src) (b : Alu2)
  | sshr (uns : Bool) (nw : Bool) (d : SR) (a : Src) (b : Alu2)
  | srot (uns : Bool) (nw : Bool) (d : SR) (a : Src) (b : Alu2)
  | smov (nw : Bool) (d : SR) (a : Src)
  | smovi (nw : Bool) (d : SR) (imm : BitVec 32)
  | smoviP (d : SR) (imm : BitVec 34)
  | scmp (cc : SCond) (nw : Bool) (d : SR) (a b : Src)
  | ssel (nw : Bool) (d : SR) (a b c : Src)
  | sclz (nw : Bool) (d : SR) (a : Src)
  | spopc (nw : Bool) (d : SR) (a : Src)
  | sbfx (zx : Bool) (nw : Bool) (d : SR) (a : Src) (lo wm1 : BitVec 5)
  | sbfi (nw : Bool) (d : SR) (a b : Src) (lo wm1 : BitVec 5)
  | saddp (d : SR) (a : Src) (b : AddP)
  | slea (zx : Bool) (d : SR) (a b : Src) (sh : BitVec 2)
  | sleaPc (d : SR) (off : BitVec 34)
  | sext (m : ExtMode) (nw : Bool) (d : SR) (a : Src)
  | scvt (m : BitVec 2) (nw : Bool) (d : SR) (a : Src) (rm : Rm)
  | sfadd (nw : Bool) (d : SR) (a b : Src) (rm : Rm)
  | sfmul (nw : Bool) (d : SR) (a b : Src) (rm : Rm)
  | smask (nw : Bool) (op : MaskOp)
  | scmpp (cc : SCond) (nw : Bool) (d : SR) (a b : Src)
  -- control words (05)
  | brv (neg : Bool) (a : SR) (join : BitVec 18) (target : BitVec 16)
  | bra (off : BitVec 34)
  | call (d : SR) (off : BitVec 34)
  | callR (d : SR) (a : Src)
  | ret (a : Src)
  | trap (code : BitVec 16)
  | waitc (c : Ctr) (n : BitVec 6)
  | spawn (d : FR) (a : Src)
  | launch (sc : LScope) (d : FR) (a b : Src) (q : BitVec 3)
  | cancel (d : FR) (a : Src)
  | stepadv (a : Src)
  | brx (a : Src)
  -- vector words (06)
  | vadd (t : VTy) (nw : Bool) (d : VR) (a b : Src) (m : Xm)
  | vsub (t : VTy) (nw : Bool) (d : VR) (a b : Src) (m : Xm)
  | vmul (t : VTy) (nw : Bool) (d : VR) (a b : Src) (m : Xm)
  | vmulh (uns : Bool) (nw : Bool) (d : VR) (a b : Src)
  | vmad (uns : Bool) (nw : Bool) (d : VR) (a b c : Src) (sat : Bool)
  | vmin (t : VTy) (nw : Bool) (d : VR) (a b : Src)
  | vmax (t : VTy) (nw : Bool) (d : VR) (a b : Src)
  | vabs (t : VTy) (nw : Bool) (d : VR) (b : Src) (sat : Bool)
  | vneg (t : VTy) (nw : Bool) (d : VR) (b : Src) (sat : Bool)
  | vand (nw : Bool) (d : VR) (a b : Src)
  | vor (nw : Bool) (d : VR) (a b : Src)
  | vxor (nw : Bool) (d : VR) (a b : Src)
  | vandn (nw : Bool) (d : VR) (a b : Src)
  | vshl (uns : Bool) (nw : Bool) (d : VR) (a b : Src)
  | vshr (uns : Bool) (nw : Bool) (d : VR) (a b : Src)
  | vrot (nw : Bool) (d : VR) (a b : Src)
  | vclz (nw : Bool) (d : VR) (b : Src)
  | vpopc (nw : Bool) (d : VR) (b : Src)
  | vbfx (zx : Bool) (nw : Bool) (d : VR) (b : Src) (lo wm1 : BitVec 5)
  | vbfi (nw : Bool) (d : VR) (a b : Src) (lo wm1 : BitVec 5)
  | vsel (nw : Bool) (d : VR) (a b : Src) (c : SR)
  | vcmp (t : VTy) (cc : VCond) (d : SR) (a b : Src)
  | vmov (nw : Bool) (d : VR) (b : Src)
  | vmovi (t : VTy) (nw : Bool) (d : VR) (imm : BitVec 25)
  | vdot4 (e : Dot4) (nw : Bool) (d : VR) (a b c : Src) (m : Xm)
  | vsad (uns : Bool) (nw : Bool) (d : VR) (a b c : Src) (sat : Bool)
  | vavg (uns : Bool) (nw : Bool) (d : VR) (a b : Src)
  | vdiv (uns : Bool) (nw : Bool) (d : VR) (a b : Src)
  | vrem (uns : Bool) (nw : Bool) (d : VR) (a b : Src)
  | vaddc (carry : Bool) (nw : Bool) (d : VR) (a b c : Src)
  | vclmp (t : VTy) (nw : Bool) (d : VR) (a b c : Src)
  | vfma (t : VTy) (nw : Bool) (d : VR) (a b c : Src) (m : Xm)
  | vfms (t : VTy) (nw : Bool) (d : VR) (a b c : Src) (m : Xm)
  | vfnma (t : VTy) (nw : Bool) (d : VR) (a b c : Src) (m : Xm)
  | vfdiv (t : VTy) (nw : Bool) (d : VR) (a b : Src) (m : Xm)
  | vsqrt (t : VTy) (nw : Bool) (d : VR) (b : Src) (rm : Rm)
  | vrint (t : VTy) (nw : Bool) (d : VR) (b : Src) (rm : Rm)
  | vfrac (t : VTy) (nw : Bool) (d : VR) (b : Src) (rm : Rm)
  | vclass (t : Ty) (nw : Bool) (d : VR) (b : Src)
  | vsgnj (t : VTy) (var : SgnVar) (nw : Bool) (d : VR) (a b : Src)
  | vscale (t : VTy) (nw : Bool) (d : VR) (a b : Src) (m : Xm)
  | vexpo (t : VTy) (nw : Bool) (d : VR) (b : Src)
  | vrmax (t : VTy) (nw : Bool) (d : VR) (a : Src) (g : BitVec 3)
  | vrmin (t : VTy) (nw : Bool) (d : VR) (a : Src) (g : BitVec 3)
  | vradd (t : VTy) (nw : Bool) (d : VR) (a : Src) (g : BitVec 3) (m : Xm)
  | vdot2 (t : VTy) (nw : Bool) (d : VR) (a b c : Src) (m : Xm)
  | vlerp (t : VTy) (nw : Bool) (d : VR) (a b c : Src) (m : Xm)
  | vcvt (dt st : Ty) (nw : Bool) (d : VR) (b : Src) (m : Xm)
  | vpack (t : PackTo) (nw : Bool) (d : VR) (a b : Src) (m : Xm)
  | vunpk (t : UnpkFrom) (nw : Bool) (d : VR) (b : Src)
  | vqnt (q : QTy) (nw : Bool) (d : VR) (a b : Src) (m : Xm)
  | vdqnt (q : QTy) (nw : Bool) (d : VR) (a b : Src) (rm : Rm)
  | vplane (h : HTy) (nw : Bool) (d : VR) (b : Src)
  | vunpl (h : HTy) (nw : Bool) (d : VR) (b : Src)
  | vbscl (q : QTy) (nw : Bool) (d : VR) (b : Src)
  | vrcp (t : VTy) (nw : Bool) (d : VR) (b : Src)
  | vrsq (t : VTy) (nw : Bool) (d : VR) (b : Src)
  | vexp2 (t : VTy) (nw : Bool) (d : VR) (b : Src)
  | vlog2 (t : VTy) (nw : Bool) (d : VR) (b : Src)
  | vsin (t : VTy) (nw : Bool) (d : VR) (b : Src)
  | vcos (t : VTy) (nw : Bool) (d : VR) (b : Src)
  | vtanh (t : VTy) (nw : Bool) (d : VR) (b : Src)
  | verf (t : VTy) (nw : Bool) (d : VR) (b : Src)
  -- lane exchange, scan, vote, sampling, XVEC (07)
  | vshfl (beat : Bool) (nw : Bool) (d : VR) (a b : Src) (m : Member)
  | vbcast (nw : Bool) (d : VR) (a b : Src) (g : BitVec 3) (m : Member)
  | vbcastI (nw : Bool) (d : VR) (a : Src) (k : BitVec 8) (g : BitVec 3) (m : Member)
  | vbfly (f : Bfly) (nw : Bool) (d : VR) (a : Src) (j : BitVec 7) (m : Member)
  | vrotl (nw : Bool) (d : VR) (a b : Src) (g : BitVec 3) (m : Member)
  | vvote (op : VoteOp) (d : SR) (a : Src) (m : Member)
  | vscan (t : VTy) (op : Cop) (excl : Bool) (g : BitVec 3) (x : Xm) (nw : Bool) (d : VR) (a : Src) (m : Member)
  | vrdc (t : VTy) (op : Cop) (g : BitVec 3) (x : Xm) (nw : Bool) (d : VR) (a : Src) (m : Member)
  | vcprs (g : BitVec 3) (nw : Bool) (d : VR) (a : Src) (b : SR) (m : Member)
  | xvec (n : VR)
  | vmatch (nw : Bool) (d : VR) (a : Src) (m : Member)
  | rng (flt : Bool) (nw : Bool) (d : VR)
  | vgumb (nw : Bool) (d : VR) (a b : Src)
  | vsmpl (g : BitVec 3) (nw : Bool) (d : VR) (a : Src) (m : Member)
  | vtopk (t : VTy) (g : BitVec 3) (nw : Bool) (d : VR) (a b : Src) (m : Member)
  | vbern (t : VTy) (nw : Bool) (d : VR) (a : Src)
  -- memory words (08)
  | vld (t : LdTy) (d : VR) (a b : Src) (i : I25)
  | vst (t : StTy) (d : VR) (a b : Src) (i : I25)
  | vldp (d : VR) (a b : Src) (i : I25)
  | vstp (d : VR) (a b : Src) (i : I25)
  | sld (t : Option LdTy) (d : SR) (a b : Src) (i : I25)
  | sst (t : Option StTy) (d : SR) (a b : Src) (i : I25)
  | vldu (t : LdTy) (d : VR) (a b : Src) (i : I25)
  | vpref (llc : Bool) (a b : Src) (i : I25)
  | vatom (op : AOp) (d : VR) (a b : Src) (i : I25)
  | vcas (d : VR) (a b : Src) (i : I25)
  | vatomp (op : AOpP) (d : VR) (a b : Src) (i : I25)
  | vcasp (d : VR) (a b : Src) (i : I25)
  | satom (op : AOp) (d : SR) (a b : Src) (i : I25)
  | scas (d : SR) (a b : Src) (i : I25)
  | vapnd (d : VR) (a : Src) (i : I25)
  | vldw (d : VR) (a b : Src) (i : I25)
  | vstw (d : VR) (a b : Src) (i : I25)
  | dld (d : VR) (a b : Src) (i : I25)
  | dadd (d : VR) (a b : Src) (i : I25)
  | daddA (d : VR) (a b : Src) (i : I25)
  | smerge (nw : Bool) (d : VR) (a b : Src)
  | dst (d : VR) (a b : Src) (i : I25)
  | dstamp (nw : Bool) (d : VR) (a : Src) (cls : BitVec 4)
  | fence (scope : BitVec 3) (cols : BitVec 8)
  | xfence (scope : BitVec 3) (f t : PClass)
  | bari (d : SR) (a : Src) (i : I25)
  | bara (d : SR) (a b : Src) (i : I25)
  | barw (a b : Src) (i : I25)
  | bar (a : Src) (i : I25)
  | barq (d : SR) (a : Src) (i : I25)
  | trgput (d : VR) (a : Src) (i : I25)
  | trgget (d : VR) (a : Src) (i : I25)
  | trgtry (d : SR) (a : Src) (i : I25)
  | hpass (a : Src)
  -- futures and engines (09)
  | ftest (d : SR) (a : Src)
  | fwait (d : SR) (a : Src) (i : I25)
  | fcancel (a : Src)
  | fsth (d : FR) (a : Src) (i : I25)
  | copy (d : FR) (dsp : Bool) (ssp : BitVec 2) (a b c : Src) (disp : BitVec 12)
  | copyt (d : FR) (b : Blk)
  | binopen (d : FR) (b : Blk)
  | binapp (lbl : Bool) (d : FR) (a b : Src) (c : Src)
  | binplay (d : FR) (b : Blk)
  | xsect (d : FR) (b : Blk)
  | smergeu (d : FR) (b : Blk)
  | topk (d : FR) (b : Blk)
  | cvtcsr (d : FR) (b : Blk)
  | cvtres (d : FR) (b : Blk)
  | taskput (d : FR) (b : Blk)
  | stsweep (d : FR) (b : Blk)
  | rinv (d : FR) (b : Blk)
  -- Churn and labels (10, 11)
  | cmma (z : Bool) (d : FR) (b : Blk) (acc : BitVec 2)
  | cmmas (p : Sparse) (z : Bool) (d : FR) (b : Blk) (acc : BitVec 2)
  | cstore (d : FR) (b : Blk) (acc : BitVec 2)
  | cload (d : FR) (b : Blk) (acc : BitVec 2)
  | czero (d : FR) (acc : BitVec 2)
  | cmova (add : Bool) (d : FR) (dst src : BitVec 2)
  | cspec (nw : Bool) (d : SR) (v0 : Bool) (b0 : BitVec 2) (v1 : Bool) (b1 : BitVec 2)
  | cresolve (a : Src)
  | relld (d : FR) (b : Blk) (slot : BitVec 2)
  | lblsum (d : FR) (b : Blk) (slot : BitVec 2) (n : Src)
  | draft (nw : Bool) (d : SR) (a b c : Src) (s : BitVec 8)
  | accept (d : FR) (a : Src)
  | crdv (nw : Bool) (d : VR) (b : Src) (acc : BitVec 2)
  | cwrv (d : VR) (b : Src) (acc : BitVec 2)
  | cscale (d : FR) (a b : Src) (acc : BitVec 2) (rm : Rm)
  | cepi (relu : Bool) (d : FR) (a : Src) (acc : BitVec 2)
  | lblld (d : VR) (a b : Src) (i : I25)
  | lblldAdm (d : VR) (b : Blk) (row : Src)
  | lblst (d : VR) (a b : Src) (i : I25)
  | cquery (nw : Bool) (d : SR)
  -- system words (01, 13, 14)
  | mfs (nw : Bool) (d : SR) (x : BitVec 16)
  | mts (x : BitVec 16) (a : Src)
  | hayfill (d : FR) (b : Blk)
  | tlbinv (sc : LScope) (d : FR) (a b c : Src)
  | icinv (pkg : Bool) (d : FR) (a b : Src)
  | clkrdTime (d : SR)
  | clkrdCyc (d : SR)
  | perfrd (d : SR) (b : Src)
  | perfcfg (a b : Src)
  | ctxsave (pkg : Bool) (d : FR) (b : Src)
  | ctxload (pkg : Bool) (d : FR) (b : Src)
  | shtblSet (d : FR) (a : Src)
  | shtblFlush (pkg : Bool) (d : FR)
  | fltresOk (a b : Src)
  | fltresDeny (a b : Src)
  | idlew (d : SR) (a b : Src)
  -- steps that the device takes by itself (08-10, 14-16)
  | engineOpEnd (gang : Nat) (op : Nat)
  | opCancelStop (gang : Nat) (op : Nat) (units : Nat)
  | churnEntryExecute (gang : Nat)
  | churnEntryEnd (gang : Nat)
  | systemOperationEnd (gang op : Nat)
  | loadWriteback (gang wave op : Nat) (lanes : Mask) (stale : Bool)
  | storePerformed (gang wave op : Nat)
  | launchAccept (ctx : Nat) (queue : Nat)
  | chunkDeal (grid : Nat) (die : Nat)
  | gangPlace (grid : Nat) (die : Nat) (byre : Nat)
  | gangRestore (gang : Nat) (byre : Nat)
  | gangComplete (gang : Nat)
  | gridComplete (grid : Nat)
  | preemptSave (gang : Nat) (units : Nat)
  | taskFinish (die : Nat) (task : Nat)
  | siloRefill (gang : Nat) (trough : Nat)
  | faultRequestPost (req : Nat)
  | faultServiceDispatch (die : Nat)
  | rootBroadcast (grid : Nat)
  | gridMessage (msg : GridMsg)
  | podChunkRequest (grid : Nat) (pkg : Nat)
  | podChunk (msg : ChunkMsg)
  | endOfDeal (msg : DealMsg)
  | packageReport (grid : Nat) (pkg : Nat) (doneg cancg errg faults : Nat)
  | groupReport (grid : Nat) (group : Nat)
  | podFaultReport (msg : FaultMsg)
  | podCancelRequest (msg : CancelMsg)
  | idlewDeadline (gang : Nat) (wave : Nat) (slot : Bool)
  | clockRestore (die : Nat)
  | tlbHitCounterWrap (byre : Nat) (entry : Nat)
  -- words without operands (03, 05, 08)
  | join
  | exit
  | eret
  | eretNext
  | yield
  | nop
  | htake
  -- the scheduler's own choices (15)
  | schedulerPreempt (die : Nat) (gang : Nat)
  | stageReassign (gang : Nat) (wave : Nat) (stage : Nat)
  -- bring-up, launch port and host (17)
  | bringUp (what : BringUp) (podMap : List Nat)   -- `podMap` is read by the end of stage 5 only
  | create (cmd : D)
  | startSteward (cmd : D)
  | destroy (cmd : D)
  | attest (cmd : D)
  | hstatWrite (v : W)
  | pcapWrite (v : W)
  | hubRegisterWrite (off : Nat) (v : D)
  | hostRead (addr : Nat) (len : Nat)
  | hostWrite (addr : Nat) (bytes : List Byte)
  -- clock, power and monitors (17)
  | supplySag (die : Nat)
  | supplyRecovery (die : Nat)
  | thermalThrottle (die : Nat)
  | powerCapThrottle
  | thermalShutdown
  | thermalShutdownExit
  | monitorRefresh (n : Nat) (value : BitVec 16)
  | scratchpadScrub (gang : Nat) (word : Nat)
  | patrolScrub (granule : Nat)
  | hayloftRefresh (die : Nat)
  -- Bexyar (16)
  | bexyarFlitRetry (retry : FlitRetry)
  | bexyarPortDown (port : Nat) (unreachable : List Nat)
  | podReportTimeout (grid : Nat) (pkg : Nat)
  -- completion events (08, 10, 14, 17)
  | launchPortCommandEnd
  | launchPortReject (cmd : D)
  | memoryBitError (site : ErrSite) (uncorrectable : Bool)
  | throttleRecovery (die : Nat)
  deriving DecidableEq, Repr

end Sys2Proof
end

