-- ==== Sys2Proof/Machine/State.lean ====
section
/-! DEFINITION. The state of one Aedxaram A4 package as plain data: hub, contexts, grids, gangs, waves, engines, Churns,
dies, memories and caches (R1, R16), and the machine right after reset. Cited per structure. -/

namespace Sys2Proof.Machine

/-- Bytes by address in canonical form: addresses strictly rising, no entry equal to zero, which is what an unlisted
address reads as (R351 stage 5, R278). Keys of the physical memory are those of `Config`. -/
abbrev Memory := List Host.Cell

/-- A place in memory: a key of the flat physical space, or a byte offset of the gang's scratchpad (R167). -/
inductive Loc
  | mem (key : Nat)
  | spad (off : Nat)
  deriving DecidableEq, Repr

/-- A vector register: one element per lane, and the lanes whose element is poisoned (R16, R175). -/
structure VReg where
  lanes : List W
  bad   : Mask
  deriving DecidableEq, Repr

/-- What a bypass latch holds: nothing (untagged), or a register's value under its tag (R20). -/
inductive LatchVal
  | untagged
  | vec (n : VR) (r : VReg)
  | scl (n : SR) (w : W) (bad : Bool)
  deriving DecidableEq, Repr

structure Latch where
  val  : LatchVal
  nw   : Bool
  lost : Bool
  deriving DecidableEq, Repr

/-- The five states of a future register (R19). -/
inductive FState
  | empty | pending | done | failed | cancelled
  deriving DecidableEq, Repr

/-- A future register: state, status word, serial number (R19, R190). -/
structure Future where
  st     : FState
  status : W
  serial : W
  cls    : PClass               -- path class of the operation that it stands for (R255)
  deriving DecidableEq, Repr

/-- Why a split is Blocked (R23): each word that waits says what it waits for. -/
inductive Why
  | future (f : FR)                              -- read of a Pending future (R19)
  | ctr (c : Ctr) (n : Nat)                      -- `WAITC` (R108)
  | room (c : Ctr)                               -- a word that would raise a counter above 63 (R108)
  | dest (ops : List Nat)                        -- outstanding memory words whose registers or bytes it needs (R169)
  | barw (obj : Loc) (gen : W)                   -- `BARW` (R182)
  | halter                                       -- `HTAKE` (R186)
  | fwait (wave : Nat) (f : FR) (serial : W)     -- `FWAIT` (R191)
  | queueFull                                    -- Churn queue of 16 (R209)
  | churnBusy                                    -- `CRDV`, `CWRV`, `LBLLD.adm` (R209, R246)
  | troughEmpty (t : Nat)                        -- `TRGGET` (R185)
  | troughFull (t : Nat)                         -- `TRGPUT` (R185)
  | fence (cols : BitVec 8) (upto : Nat)         -- `FENCE`, `XFENCE` (R180)
  | publish (upto : Nat) (all : Bool)            -- `BARA`: what its arrival releases (R184, R258)
  | arrivals (wide : Bool)                       -- `XFENCE` from V: stores of waves that have arrived at a barrier (R184)
  | lost (va : Nat)                              -- a release whose stores are lost: its trap is still to be taken (R347)
  | idle (d : SR) (deadline : D) (onPost : Bool) -- `IDLEW` (R319)
  | yielded                                      -- `YIELD` (R109)
  | woken (x : W)                                -- an `IDLEW` whose event has come, with its value (R319)
  | service                                      -- the fault-service gang, between its events (R304)
  deriving DecidableEq, Repr

/-- State ST of a PC slot (R23). -/
inductive SlotSt
  | empty
  | ready
  | blocked (why : Why)
  | parked
  | barWait
  | joinWait
  deriving DecidableEq, Repr

/-- A PC slot (R21). -/
structure Slot where
  pc  : D
  act : Mask
  um  : Mask
  rpc : D
  st  : SlotSt
  deriving DecidableEq, Repr

/-- One lane access of a memory word: lane, place, ENC bit of the page where it is this package's memory (R316), virtual
address, data captured at issue and its poison. -/
structure Acc where
  lane : Nat
  loc  : Loc
  enc  : Option Bool
  va   : Nat
  x    : BitVec 128
  y    : D
  bad  : BitVec 4
  deriving DecidableEq, Repr

/-- Where a memory word writes its result. -/
inductive Dst
  | none
  | vec (d : VR) (n : Nat)
  | scl (d : SR) (n : Nat)
  deriving DecidableEq, Repr

/-- What an outstanding memory word does when it is performed (R170, R173, R174, R178). -/
inductive MemKind
  | load (t : LdTy)
  | loadU (t : LdTy)            -- `VLDU`: one access for every lane
  | loadN (words : Nat)         -- 64- and 128-bit loads
  | atom (op : AOp)
  | atomP (op : AOpP)
  | cas
  | casP
  | apnd
  | dld
  | dadd
  | value                       -- a result already fixed at issue (`BARA`, `BARQ`)
  | store (size : Nat)
  | daddA
  | lblst                       -- `LBLST`: 8 bytes, and SVALID of the line cleared
  deriving DecidableEq, Repr

/-- An outstanding memory word of a wave (R108, R169): the slot that issued it, the lanes whose later accesses follow it in
program order (R252), the L1 floor of its loads, and `STEP` and `DCL` as they stood then (R115, R178). -/
structure MemOp where
  id       : Nat
  slot     : Bool
  act      : Mask
  kind     : MemKind
  ctr      : Ctr
  dst      : Dst
  accs     : List Acc
  left     : Mask
  ord      : BitVec 2
  scope    : BitVec 3
  col      : BitVec 3
  floor    : Nat
  step     : W
  dcl      : List W
  accepted : Bool
  deriving DecidableEq, Repr

/-- Lanes that wait on a fault request (R302, R304). -/
structure Park where
  lanes  : Mask
  va     : Nat
  req    : Nat
  denied : Bool
  settled : Bool
  deriving DecidableEq, Repr

/-- Lanes that wait at a gang barrier, with the word and the object, and whether their wave has arrived (R26, R183). The
arrival translates `va` anew: `waits` is the request that it posted, `dropped` says that it cannot be made (R376). -/
structure BarLanes where
  lanes   : Mask
  pc      : D
  obj     : Loc
  va      : Nat
  arrived : Bool
  waits   : Option Nat
  dropped : Bool
  deriving DecidableEq, Repr

/-- What a trap keeps of the trapping split (R309), the handler's lanes, and whether the other slot and `dsp` stack entries
belong to the wave outside the handler. -/
structure TrapSave where
  slot    : Bool
  pc      : D
  act     : Mask
  um      : Mask
  rpc     : D
  lanes   : Mask
  foreign : Bool
  dsp     : Nat
  deriving DecidableEq, Repr

/-- A wave (R14, R16, R18-R32). The divergence stack itself lies in memory at `dsaddr` (R24). -/
structure Wave where
  idx     : Nat
  quad    : Nat
  qslot   : Nat
  vregs   : List VReg
  sregs   : List W
  sbad    : BitVec 64
  futs    : List Future
  latches : List Latch
  slot0   : Slot
  slot1   : Slot
  floors  : List Nat            -- per lane: L1 lines filled before this serial are ignored (R271 note 2)
  exited  : Mask
  dsp     : Nat
  dsaddr  : D
  flags   : BitVec 5
  fpen    : BitVec 5
  mabs    : Bool
  xfault  : Mask
  rngctr  : D
  tcause  : W
  tpc     : D
  tmask   : Mask
  tval    : D
  trap    : Option TrapSave
  ops     : List MemOp
  opSeq   : Nat
  arrSeq  : Nat                 -- memory words before this number precede its last barrier arrival (R184)
  parks   : List Park
  bars    : List BarLanes
  seen    : List (PClass × Nat) -- classes of the operations whose end the wave has observed, with `fills` then (R180)
  views   : List (PClass × Nat) -- per engine class: its commands see every write before this serial (R180, R261)
  pubs    : Nat                 -- its releases at `.die` and wider have published the writes before this serial (R261)
  stage   : Nat                 -- pipeline stage (R330)
  resv    : List Nat            -- troughs on which the wave holds a reservation (R185)
  ended   : Bool
  deriving DecidableEq, Repr

/-- A command of an asynchronous engine or of the system (rows 0xB0, 0xE0, and 0x2A-0x2C). -/
inductive EngKind
  | copy (dsp : Bool) (ssp : Nat) (dst src : Nat) (n : Nat)
  | block (op : Nat) (variant : Nat)                             -- a block-form command, by its `OP` and `MOD`
  | binapp (lbl : Bool) (recs : List (Nat × W × W × D)) (bset : Nat)  -- lane, index, value, label
  | tlbinv (sc : LScope) (va len : Nat) (ctx : Nat)
  | icinv (pkg : Bool) (va len : Nat)
  | ctxsave (pkg : Bool) (ctx : Nat)
  | ctxload (pkg : Bool) (ctx : Nat)
  | shtblSet (a : Nat)
  | shtblFlush (pkg : Bool)
  deriving DecidableEq, Repr

/-- A running engine operation (R189-R195). -/
structure EngOp where
  id     : Nat
  wave   : Nat
  freg   : Option FR
  serial : W
  kind   : EngKind
  blkVa  : Nat                  -- virtual address (or scratchpad offset) of the command block
  bsp    : Bool
  body   : List Byte            -- the block as read at issue (R193)
  bad    : Bool                 -- a granule of the block was poisoned (R193)
  pclass : PClass
  floor  : Nat                  -- it sees every write before this serial (R180, R261)
  priv   : Bool                 -- the issuing wave was privileged
  waits  : List Nat             -- fault requests it is parked on
  page   : Nat                  -- the page at which it parked last (R192, R195)
  denied : List Nat             -- pages of denied requests (R304)
  cancel : Bool
  out    : Option (FState × Nat) -- how its work ended, with its error code; its completion is still to be made (R376)
  pos    : List Nat             -- where the engine stands between two drain points (R206); empty at the start
  prog   : Nat
  res    : Nat
  fl     : BitVec 5
  deriving DecidableEq, Repr

/-- A queued Churn entry (R209). -/
inductive ChKind
  | mma (sparse : Option Sparse) (z : Bool) (acc : Nat)
  | store (acc : Nat)
  | load (acc : Nat)
  | zero (acc : Nat)
  | mova (add : Bool) (dst src : Nat)
  | spec (m0 m1 : Option (BitVec 2)) (opens : Bool)
  | resolve (v : W)
  | scale (acc : Nat) (a b : W) (rm : Rm)
  | epi (acc : Nat) (relu : Bool) (bias : Option Nat)
  | relld (slot : Nat) (va : Nat) (bsp : Bool)
  | lblsum (slot : Nat) (va : Nat) (bsp : Bool) (n : Nat)
  | accept (ok : Bool) (lbase seq n nd : Nat)
  deriving DecidableEq, Repr

/-- How an entry ended, kept until its future leaves Pending (R209, R225). -/
structure ChRes where
  st     : FState
  result : Nat
  errc   : Nat
  prog   : Nat
  flags  : BitVec 5
  crowst : Option (BitVec 64)
  deriving DecidableEq, Repr

structure ChEntry where
  id     : Nat
  wave   : Nat
  freg   : Option FR
  serial : W
  kind   : ChKind
  blkVa  : Nat
  bsp    : Bool
  hasBlk : Bool
  blk    : List Byte            -- the tile block as read at issue (R212)
  bad    : Bool
  priv   : Bool
  floor  : Nat                  -- it sees every write before this serial (R180, R261)
  mrow   : Nat                  -- VCNT as at issue (R31, R216)
  ncol   : Nat
  steps  : Nat                  -- sequencer units completed (R226, R227)
  part   : List (Nat × Int × Int)  -- exact partial sums of an H-format operation (R226): element, numerator, denominator
  pres   : List (BitVec 64)     -- for each row of a multiplication the columns with a product, as decided at its start (R216)
  crow   : BitVec 64            -- the rows without any (R216)
  prog   : Nat
  rcount : Nat                  -- RESULT so far
  fl     : BitVec 5
  waits  : List Nat
  page   : Nat                  -- the page at which it parked last (R192, R215)
  denied : List Nat             -- pages of denied requests (R304)
  cancel : Bool
  res    : Option ChRes
  deriving DecidableEq, Repr

/-- The speculation frame (R224, R225): the shadow maps and the entries held until it resolves. -/
structure Frame where
  m0   : Option (BitVec 2)
  m1   : Option (BitVec 2)
  held : List ChEntry
  deriving DecidableEq, Repr

/-- The draft frame (R248). -/
structure Draft where
  lbase : D
  seq   : W
  nd    : Nat
  s     : Nat
  qs    : List D
  deriving DecidableEq, Repr

/-- A cached line with the serial of its fill (R280, R281, R288). -/
structure CLine where
  byre   : Nat
  key    : Nat
  bytes  : List Byte
  serial : Nat
  deriving DecidableEq, Repr

/-- The Churn of a gang (R207). -/
structure Churn where
  accs    : List (List W)
  saccs   : List (List W)
  queue   : List ChEntry
  frame   : Option Frame
  frameAt : Bool                -- a frame is open as counted at issue (R223, R224)
  rels    : List (Option (List Byte))
  mrow    : Nat
  ncol    : Nat
  crowst  : BitVec 64
  deriving DecidableEq, Repr

/-- A trough of a pipeline gang (R330-R332); its slots stand in order, oldest first, each 16 words with their poison
marks. `stop` marks a stop token. -/
structure Trough where
  toff  : Nat
  slots : Nat
  src   : Nat
  dst   : Nat
  ring  : List (List W × BitVec 16)
  silo  : Nat                   -- SCOUNT: slots in the silo
  shead : Nat                   -- position of its oldest slot in the silo
  stop  : Bool
  deriving DecidableEq, Repr

/-- A pipeline stage: entry and waves at the start (R330). -/
structure Stage where
  entry  : D
  init   : Nat
  halted : Bool
  deriving DecidableEq, Repr

/-- An extent of a task's extent table (R301). -/
structure Extent where
  va   : Nat
  len  : Nat
  key  : Nat
  wr   : Bool
  priv : Bool
  exec : Bool
  enc  : Bool
  peer : Option Nat
  deriving DecidableEq, Repr

/-- Where a gang stands (R311-R314, R324). -/
inductive GangSt
  | running
  | stopping (tell : Option (Nat × Nat))   -- being pre-empted; who counts it: gang and engine operation of a `CTXSAVE`
  | saved (eligible : Bool)
  | ended                                  -- last wave ended; its operations may still run
  | killed                                 -- stopped by an abort or cancellation
  | dropped                                -- saved, and discarded: only its accepted stores are left (R265, R311)
  | gone
  deriving DecidableEq, Repr

/-- A gang (R14-R16, R30, R31). -/
structure Gang where
  id      : Nat
  grid    : Nat
  ctx     : Nat
  n       : Nat
  gx      : Nat
  gy      : Nat
  gz      : Nat
  dx      : Nat
  dy      : Nat
  dz      : Nat
  die     : Nat
  byre    : Nat
  vcount  : Nat
  spadLen : Nat
  churn   : Bool
  priv    : Bool
  depth   : Nat
  prio    : Nat
  queue   : Nat
  lrec    : D
  step    : W
  dcl     : List W
  rngkey  : D
  waves   : List Wave
  spad    : Memory
  spadBad : List Nat
  halter  : Option Nat
  eops    : List EngOp
  nextOp  : Nat
  ch      : Churn
  draft   : Option Draft
  exts    : List Extent
  stages  : List Stage
  troughs : List Trough
  siloBase : Nat
  siloK   : Nat
  st      : GangSt
  err     : Bool
  deriving DecidableEq, Repr

/-- A fault report (R311, R344). -/
structure FaultRep where
  tcause : W
  widx   : W
  tpc    : D
  tval   : D
  gx     : Nat
  gy     : Nat
  gz     : Nat
  src    : Nat
  deriving DecidableEq, Repr

/-- Where a grid came from (R112, R113, R305, R328, R352). -/
inductive GridKind
  | launched
  | child (gang wave : Nat) (f : FR) (serial : W)
  | steward
  | pager (die : Nat)
  | task (die : Nat) (key : Nat)
  deriving DecidableEq, Repr

/-- A chunk of gang indices held by a die, or by a package of a pod-wide grid (R325, R338). -/
structure Chunk where
  unit : Nat
  lo   : Nat
  hi   : Nat
  deriving DecidableEq, Repr

/-- What the root knows of one package of a pod-wide grid (R335-R346): gangs given to it, whether the end-of-deal notice
has reached it, its report, and the faults counted for it so far. -/
structure PodPkg where
  pkg      : Nat
  given    : Nat
  told     : Bool
  reported : Bool
  doneg    : Nat
  errg     : Nat
  faults   : Nat
  deriving DecidableEq, Repr

/-- A grid, from its acceptance (or the wait for it) until it completes (R320-R325, R343-R346). -/
structure Grid where
  id      : Nat
  num     : Nat                 -- number in the pod: root package × 2^64 + serial there (R337)
  ctx     : Nat
  queue   : Nat
  prio    : Nat                 -- priority of its queue at the root (R322, R337)
  scope   : LScope
  die     : Nat
  kind    : GridKind
  priv    : Bool
  depth   : Nat
  recAddr : D
  comp    : Option D
  bytes   : List Byte
  step    : W
  total   : Nat
  next    : Nat                 -- next undealt index
  chunks  : List Chunk
  started : Bool
  doneg   : Nat
  cancg   : Nat
  errg    : Nat
  faults  : Nat
  first   : Option FaultRep
  fmap    : List Nat            -- packages that reported a fault
  relayed : Option FaultRep     -- at a group's dispatcher: the first fault that reached the group (R343)
  stat    : Nat
  abort   : Bool
  cancel  : Bool
  early   : Bool                -- completes at acceptance: STAT 1 or 4
  pkgs    : List PodPkg         -- pod-wide: one per package of the map
  groups  : List Nat            -- pod-wide: groups whose merged report reached the root
  root    : Bool                -- this package is the root
  recPriv : Bool                -- its records are read and written with privilege
  pos     : Nat                 -- records that its queue had accepted before it
  stab    : List Byte           -- the stage table as read at acceptance (R330)
  exts    : List Extent         -- the extent table of a task's grid (R301)
  waits   : List Nat            -- fault requests its completion writes wait on
  denied  : List Nat            -- pages of denied requests (R376)
  deriving DecidableEq, Repr

/-- A `LAUNCH` or `SPAWN` waiting for its queue (R112, R113). -/
structure Pend where
  gang   : Nat
  wave   : Nat
  f      : FR
  serial : W
  recAddr : D
  comp   : Option D
  scope  : LScope
  die    : Nat
  kind   : GridKind
  depth  : Nat
  priv   : Bool
  waits  : List Nat
  denied : Option Nat
  deriving DecidableEq, Repr

/-- A launch queue of a context (R322): accepted grids in order, requests waiting, records accepted so far. -/
structure LQueue where
  grids    : List Nat
  pend     : List Pend
  accepted : Nat
  prio     : Nat
  deriving DecidableEq, Repr

/-- A save image in a context's save area: gang, offset from SAVE + 20 MiB, the bytes as written (R313, R314), and what it
holds of each wave's own area (R352): bytes and poisoned granules. -/
structure SaveImg where
  gang  : Nat
  off   : Nat
  bytes : List Byte
  areas : List (List Byte × List Nat)
  deriving DecidableEq, Repr

/-- A context (R352). -/
structure Ctx where
  id      : Nat
  ptroot  : Nat
  tbase   : D
  save    : Nat
  saveLen : Nat
  images  : List SaveImg
  rngkey  : D
  step    : W
  dcl     : List W
  pghnd   : Nat
  basic   : Bool                -- PRIO is all zero: the basic level (R322, R352)
  queues  : List LQueue
  keyGen  : Nat                 -- which key the slot holds (R316)
  deriving DecidableEq, Repr

/-- Who waits on a fault request (R302-R304, R376). -/
inductive Waiter
  | lanes (gang wave : Nat)
  | bar (gang wave : Nat)
  | silo (gang trough : Nat)
  | op (gang op : Nat)
  | entry (gang entry : Nat)
  | task (die key : Nat)
  | accept (ctx queue : Nat)
  | grid (grid : Nat)
  | message (num : Nat)         -- a grid message whose stage table is not resident (R304, R336)
  deriving DecidableEq, Repr

/-- A fault request of a die's queue (R303). -/
structure FReq where
  id      : Nat
  die     : Nat
  ctx     : Nat
  page    : Nat
  va      : Nat
  kind    : Nat
  acc     : Nat
  req     : Nat
  count   : Nat
  seq     : Nat
  posted  : Bool
  taken   : Bool
  waiters : List Waiter
  deriving DecidableEq, Repr

/-- A task of a die's Stockyard (R205, R328). -/
structure Task where
  key     : Nat                 -- record address: `taskKey`
  ctx     : Nat
  bytes   : List Byte
  count   : Int
  put     : Bool                -- the record has been accepted
  running : Bool
  op      : Option EngOp        -- the command of a copy, bin or stream task
  grid    : Option Nat
  priv    : Bool                -- the putting wave was privileged
  waits   : List Nat            -- fault requests its dispatch waits on (R301)
  denied  : Option Nat
  exts    : List Extent         -- extents found at dispatch (R301)
  fail    : Option (Nat × Nat)  -- subcode and address of a declared range that did not translate
  fin     : Bool                -- it has ended; its successors are still to be counted down
  deriving DecidableEq, Repr

/-- A die: clock, fault queue, fault service and Stockyard (R1, R283, R303, R305, R328, R355). -/
structure Die where
  sag      : Bool
  recover  : Bool
  throttle : Nat
  fseq     : Nat
  busy     : List (Nat × Nat × Nat)  -- paging handlers running: context, grid, request
  tasks    : List Task
  deriving DecidableEq, Repr

/-- The hub registers and launch port (R350, R352, R355). -/
structure Hub where
  stage   : Nat
  thsd    : Bool
  throt   : Bool
  lpbusy  : Bool
  lperr   : Bool
  fail    : Bool
  ready   : Bool
  lparg   : D
  lpcmd   : D
  lpstat  : W
  result  : W                   -- the LPSTAT that the running command will report
  mont    : List (BitVec 16)
  pcap    : BitVec 12
  podMap  : List Nat
  dead    : List Nat            -- packages to which no path remains
  ports   : List Nat            -- ports taken down
  retries : List (Nat × Nat)    -- port and retries in a row
  boots   : Nat                 -- how often bring-up has begun. The MODEL's own
  version : W                   -- version of the running firmware image (R354)
  rollback : W                  -- the fused rollback counter (R354)
  deriving DecidableEq, Repr

/-- A message of the dispatcher tree (R337-R346). -/
inductive Msg
  | grid (dest num ctx queue prio : Nat) (bytes : List Byte) (step : W) (lo hi : Nat) (denied : Bool)
  | chunkReq (num pkg : Nat)
  | chunk (dest num : Nat) (lo hi : Nat)
  | endDeal (dest num : Nat) (abort cancel : Bool)
  | report (num pkg : Nat) (doneg cancg errg faults : Nat) (first : Option FaultRep)
  | group (num group : Nat) (doneg cancg errg faults : Nat) (first : Option FaultRep) (pkgs : List Nat)
  | fault (num pkg : Nat) (rep : FaultRep)
  | cancel (num : Nat) (gang wave : Nat) (f : FR) (serial : W)
  | cancelAt (ctx : Nat) (comp : D) (gang wave : Nat) (f : FR) (serial : W)  -- to a root on another package
  | cancelled (dest ctx : Nat) (comp : D) (result : Nat)                     -- the answer to another package's request
  deriving DecidableEq, Repr

/-- The key under which a line of device memory is held: context, generation of its key; and, while the line has only been
filled, the stored bytes that it was filled from (R316, R349). -/
structure Tag where
  line   : Nat
  ctx    : Nat
  gen    : Nat
  stored : Option (List Byte)
  deriving DecidableEq, Repr

/-- A TLB entry (R298, R299). -/
structure TlbEnt where
  byre : Nat
  ctx  : Nat
  va   : Nat
  size : Nat
  leaf : D
  hits : Nat
  deriving DecidableEq, Repr

/-- A performance counter of a Byre (R319). -/
structure Perf where
  byre  : Nat
  idx   : Nat
  event : Nat
  count : Nat
  deriving DecidableEq, Repr

/-- A line as it stood before the last write by class `cls`, with the writes of other classes since; `serial` is that write's.
A read of another class may still find it while nothing has published the write (R256, R262). -/
structure OldLine where
  line   : Nat
  bytes  : List Byte
  cls    : PClass
  serial : Nat
  deriving DecidableEq, Repr

/-- The split that issues: gang (position in `gangs`), wave and slot. The MODEL's own. -/
structure Cur where
  gang : Nat
  wave : Nat
  slot : Bool
  deriving DecidableEq, Repr

/-- What moves next: an event of the table, or a split that issues its next word; `stale` lets that step's fetch and
translation use cached copies. The MODEL's own. -/
inductive Action
  | event (i : Instr)
  | issue (who : Cur) (stale : Bool)
  deriving DecidableEq, Repr

/-- The machine. -/
structure State where
  hub     : Hub
  ctxs    : List Ctx
  grids   : List Grid
  gangs   : List Gang
  dies    : List Die
  reqs    : List FReq
  msgs    : List Msg
  mem     : Memory
  memBad  : List Nat            -- poisoned 8-byte granules, by key / 8, rising
  tags    : List Tag            -- lines of device memory held in plaintext under a key (R316)
  l1      : List CLine
  icache  : List CLine
  obuf    : List CLine
  olds    : List OldLine
  llc     : List Nat            -- lines of device memory that the LLC slices hold (R1, R284)
  pubs    : List (PClass × Nat) -- per class: what gangs that have left had seen or published at `.die` and wider (R261)
  fills   : Nat                 -- serial of the last line fill or write that leaves an older copy
  tlb     : List TlbEnt
  shbase  : Nat
  perf    : List Perf
  issuers : List (Nat × Cur × Nat) -- last issuer of each quadrant, with the words it has issued in a row (R20, R334)
  cycles  : List (Nat × Nat)    -- per Byre with a reading: its arithmetic cycles since die reset (R295)
  timeNs  : Nat
  fabric  : Nat                 -- fabric cycles of the package's reference (R283)
  hostData : List Byte          -- what the last host read returned
  ids     : Nat                 -- serial for grids, gangs and requests
  lastServed : Nat              -- last (context, queue) pair served by the dispatcher (R323)
  freeCtr : Nat                 -- how many free values have been taken
  stale   : Bool                -- this step may use cached copies
  cur     : Cur
  agenda  : List Action
  deriving DecidableEq, Repr

/-- Why the machine stops. -/
inductive Fault
  /-- Raised by every word's meaning when no resident split is the issuing one. `step` never runs a word so. Safe: it
  only stops a run that no hardware has. -/
  | noSplit
  deriving DecidableEq, Repr

/-- Why an instruction has no meaning. -/
inductive Refusal
  /-- Raised by an arm of `exec` whose instruction has no meaning yet. Safe. -/
  | notModelled (mnemonic : String)
  deriving DecidableEq, Repr

def Hub.reset : Hub where
  stage := 0
  thsd := false
  throt := false
  lpbusy := false
  lperr := false
  fail := false
  ready := false
  lparg := 0
  lpcmd := 0
  lpstat := 0
  result := 0
  mont := List.replicate 64 0
  pcap := 0
  podMap := []
  dead := []
  ports := []
  retries := []
  boots := 0
  version := 0
  rollback := 0

def Die.reset : Die where
  sag := false
  recover := false
  throttle := 0
  fseq := 0
  busy := []
  tasks := []

/-- The machine right after power-on or a fundamental reset, before bring-up (R350, R351): no context, no gang; memory
lists nothing. Fields without a stated reset value are zero (DESIGN CHOICE, logs 1-4). -/
def State.reset : State where
  hub := Hub.reset
  ctxs := []
  grids := []
  gangs := []
  dies := List.replicate 4 Die.reset
  reqs := []
  msgs := []
  mem := []
  memBad := []
  tags := []
  l1 := []
  icache := []
  obuf := []
  olds := []
  llc := []
  pubs := []
  fills := 0
  tlb := []
  shbase := 0
  perf := []
  issuers := []
  cycles := []
  timeNs := 0
  fabric := 0
  hostData := []
  ids := 0
  lastServed := 0
  freeCtr := 0
  stale := false
  cur := ⟨0, 0, false⟩
  agenda := []

end Sys2Proof.Machine
end

