-- ==== Sys2Proof/WellFormed.lean ====
section
/-! DEFINITION. Well-formed instructions: the operand classes of R57 and the limits that each word's description sets.
`Instr.wf` holds of exactly the words' terms that have an encoding; events carry no encoding and no limits. -/

namespace Sys2Proof

/-! ## Operand classes (R57) -/

/-- An even scalar register names a pair (R41). -/
def SR.isPair (n : SR) : Bool := n.toNat % 2 == 0

/-- `s0`-`s57` or `s60` names a 96-bit mask (R41). -/
def SR.isMask (n : SR) : Bool := n.toNat ≤ 57 || n.toNat == 60

/-- Class GV: any source of a vector word. -/
def Src.gv : Src → Bool
  | .f _ => false
  | _ => true

/-- Class GS: any source of a scalar word; only `zero` and `ones` of the specials (R55). -/
def Src.gs : Src → Bool
  | .s _ => true
  | .x .zero => true
  | .x .ones => true
  | .k _ => true
  | .l _ => true
  | _ => false

/-- Class GS of a word that reads a future. -/
def Src.gsf : Src → Bool
  | .f _ => true
  | a => a.gs

/-- Class V as a source. A latch is judged by its tag when it is read (R57). -/
def Src.vc : Src → Bool
  | .v _ => true
  | .l _ => true
  | _ => false

/-- Class V, even. -/
def Src.ve : Src → Bool
  | .v n => n.toNat % 2 == 0
  | .l _ => true
  | _ => false

/-- Class S as a source. -/
def Src.sc : Src → Bool
  | .s _ => true
  | .l _ => true
  | _ => false

/-- Class SP as a source. -/
def Src.sp : Src → Bool
  | .s n => n.isPair
  | .l _ => true
  | _ => false

/-- Class S or `zero`: the base of a scratchpad operand (R167). -/
def Src.sz : Src → Bool
  | .x .zero => true
  | a => a.sc

/-- Class SP or `zero`. -/
def Src.spz : Src → Bool
  | .x .zero => true
  | a => a.sp

/-- Class F as a source. -/
def Src.fc : Src → Bool
  | .f _ => true
  | .l _ => true
  | _ => false

/-- Class MI of a vector word (R167). -/
def Src.mi : Src → Bool
  | .v _ => true
  | .x .lid => true
  | a => a.sz

/-- The source is not an inline constant (R56: none may be read as L6 or an H format). -/
def Src.notK : Src → Bool
  | .k _ => false
  | _ => true

/-- Class MB: the base of a memory operand, by SPACE (R167). -/
def I25.base : I25 → Src → Bool
  | .glob .., a => a.sp
  | .spad .., a => a.sz

/-- Class of a block base, by BSP (R188, R210, R242). -/
def Blk.ok (b : Blk) : Bool := if b.bsp then b.base.sz else b.base.sp

/-- Class of a `COPY` base, by its space: 1 is scratchpad (R196). -/
def Src.copyBase (spad : Bool) (a : Src) : Bool := if spad then a.sz else a.sp

/-- Class of a member operand (R139). -/
def Member.ok : Member → Bool
  | .all => true
  | .triple c => c.isMask

/-! ## Types and modifiers -/

def VTy.isFloat : VTy → Bool
  | .s32 => false
  | .u32 => false
  | _ => true

def Ty.isFloat : Ty → Bool
  | .f32 => true
  | .f16 => true
  | .bf16 => true
  | .e4m3 => true
  | .e5m2 => true
  | _ => false

/-- L6 and the H formats (R77, R81). -/
def Ty.isLH : Ty → Bool
  | .l6 => true
  | .h1 => true
  | .h2 => true
  | .h4 => true
  | .h8 => true
  | _ => false

def Ty.isInt (t : Ty) : Bool := !t.isFloat && !t.isLH

/-- XM of a word that adds or multiplies under type `t`: integer words do not round (R60, R118). -/
def Xm.arith (m : Xm) (t : VTy) : Bool := t.isFloat || m.rm == .rne

/-- The rounding modes without SR. -/
def Rm.noSr (r : Rm) : Bool := r != .sr

/-- A bit field [lo + w - 1 : lo] lies in 32 bits (R98, R123). -/
def fieldFits (lo wm1 : BitVec 5) : Bool := lo.toNat + wm1.toNat + 1 ≤ 32

/-- Segment codes (R129, R144). -/
def segOk (g : BitVec 3) : Bool := g != 7#3

/-- RM and SAT of `VCVT` (R133). -/
def vcvtOk (dt st : Ty) (m : Xm) : Bool :=
  if dt.isFloat then true
  else if dt.isInt && st.isInt then m.rm == .rne
  else m.rm.noSr && !m.sat

/-- ARG and COP of `VSCAN` and `VRDC` (R144, R145, R152). -/
def scanOk (t : VTy) (op : Cop) (x : Xm) : Bool :=
  match op with
  | .add => x.arith t
  | .max => x == ⟨false, .rne⟩
  | .min => x == ⟨false, .rne⟩
  | _ => !t.isFloat && x == ⟨false, .rne⟩

/-! ## The address immediate (R166) -/

/-- What a memory word allows of its I25: the spaces, the ORD values, whether it stores (COL) and whether it is an
atomic (SCOPE always used), and whether it has no index (SCALE zero). -/
structure MemRule where
  global : Bool
  spad   : Bool
  hay    : Bool
  ords   : List Nat
  stores : Bool
  atomic : Bool
  noIdx  : Bool

/-- The rules of R166 for an I25 field. A barrier word, whose ORD is 0, takes the rule of loads and stores: its SCOPE is 0.
DEDUCED (log 78). -/
def I25.ok (r : MemRule) : I25 → Bool
  | .glob hay scale col ord scope _ =>
      (if hay then r.hay && col == 0 && ord == 0 && scope == 0 else r.global)
      && (!r.noIdx || scale == 0)
      && scope.toNat ≤ 5 && r.ords.contains ord.toNat
      && (col == 0 || r.stores || r.atomic)
      && (scope == 0 || ord != 0 || r.atomic)
  | .spad scale ord _ =>
      r.spad && (!r.noIdx || scale == 0) && (!ord || r.ords != [0])

def ruleLoad : MemRule := ⟨true, true, true, [0, 1], false, false, false⟩
def ruleStore : MemRule := ⟨true, true, false, [0, 2], true, false, false⟩
def rulePref : MemRule := ⟨true, false, true, [0], false, false, false⟩
def ruleAtomic : MemRule := ⟨true, true, false, [0, 1, 2, 3], false, true, false⟩
def ruleApnd : MemRule := ⟨true, true, false, [0, 1, 2, 3], false, true, true⟩
def ruleDld : MemRule := ⟨true, true, false, [0, 1], false, false, false⟩
def ruleDadd : MemRule := ⟨true, true, false, [0], true, false, false⟩
def ruleDaddA : MemRule := ⟨true, false, false, [0, 1, 2, 3], false, true, false⟩
def ruleBar : MemRule := ⟨true, true, false, [0], false, false, true⟩
def ruleTrg : MemRule := ⟨false, true, false, [0], false, false, true⟩
def ruleFsth : MemRule := ⟨false, true, false, [0], true, false, true⟩
def ruleLblld : MemRule := ⟨true, true, false, [0, 1], false, false, true⟩
def ruleLblst : MemRule := ⟨true, true, false, [0, 2], true, false, true⟩

/-- A vector memory word: base by SPACE, index of class MI, I25 under its rule. -/
def memV (r : MemRule) (a b : Src) (i : I25) : Bool := i.base a && b.mi && i.ok r

/-- A scalar memory word: the index is scalar or `zero`. -/
def memS (r : MemRule) (a b : Src) (i : I25) : Bool := i.base a && b.sz && i.ok r

/-- A memory word without an index. -/
def mem0 (r : MemRule) (a : Src) (i : I25) : Bool := i.base a && i.ok r

/-! ## Pair words (R62, R64) -/

/-- Shape of a pair opcode: vector or scalar, takes `B` or IMM4, reads `D`. -/
structure PairShape where
  vec    : Bool
  hasB   : Bool
  readsD : Bool

def PairOp.shape : PairOp → PairShape
  | .vmov => ⟨true, true, false⟩
  | .vmovi => ⟨true, false, false⟩
  | .vadd => ⟨true, true, true⟩
  | .vaddi => ⟨true, false, true⟩
  | .vsub => ⟨true, true, true⟩
  | .vsubi => ⟨true, false, true⟩
  | .vmul => ⟨true, true, true⟩
  | .vmuli => ⟨true, false, true⟩
  | .vmin => ⟨true, true, true⟩
  | .vmax => ⟨true, true, true⟩
  | .vand => ⟨true, true, true⟩
  | .vor => ⟨true, true, true⟩
  | .vxor => ⟨true, true, true⟩
  | .vshl => ⟨true, true, true⟩
  | .vshli => ⟨true, false, true⟩
  | .vshr => ⟨true, true, true⟩
  | .vshri => ⟨true, false, true⟩
  | .vneg => ⟨true, true, false⟩
  | .vabs => ⟨true, true, false⟩
  | .smov => ⟨false, true, false⟩
  | .smovi => ⟨false, false, false⟩
  | .sadd => ⟨false, true, true⟩
  | .saddi => ⟨false, false, true⟩
  | .ssub => ⟨false, true, true⟩
  | .ssubi => ⟨false, false, true⟩
  | .sand => ⟨false, true, true⟩
  | .sor => ⟨false, true, true⟩
  | .sxor => ⟨false, true, true⟩
  | .sshl => ⟨false, true, true⟩
  | .sshli => ⟨false, false, true⟩
  | .sshr => ⟨false, true, true⟩
  | .sshri => ⟨false, false, true⟩
  | .smin => ⟨false, true, true⟩
  | .smax => ⟨false, true, true⟩
  | .pnop => ⟨false, false, false⟩

/-- Legal `MOD` codes of a pair opcode (R64). -/
def PairOp.tyOk : PairOp → VTy → Bool
  | .vmovi, _ => true
  | .vadd, _ => true
  | .vaddi, _ => true
  | .vsub, _ => true
  | .vsubi, _ => true
  | .vmul, _ => true
  | .vmuli, _ => true
  | .vmin, _ => true
  | .vmax, _ => true
  | .vshl, t => !t.isFloat
  | .vshli, t => !t.isFloat
  | .vshr, t => !t.isFloat
  | .vshri, t => !t.isFloat
  | .vneg, t => t != .u32
  | .vabs, t => t != .u32
  | .sadd, t => !t.isFloat
  | .saddi, t => !t.isFloat
  | .ssub, t => !t.isFloat
  | .ssubi, t => !t.isFloat
  | .sshl, t => !t.isFloat
  | .sshli, t => !t.isFloat
  | .sshr, t => !t.isFloat
  | .sshri, t => !t.isFloat
  | .smin, t => !t.isFloat
  | .smax, t => !t.isFloat
  | _, t => t == .s32

/-- Class of a half's `D` (R64). -/
def Half.dOk (h : Half) : Bool :=
  if h.pop == .pnop then h.d == 0
  else if h.pop.shape.vec then h.d.toNat < 0x80
  else 0x80 ≤ h.d.toNat && h.d.toNat < 0xC0

/-- Class of a half's `B`: present exactly when the pair opcode takes it. -/
def Half.bOk (h : Half) : Bool :=
  match h.b with
  | some b => h.pop.shape.hasB && (if h.pop.shape.vec then b.gv else b.gs)
  | none => !h.pop.shape.hasB

/-- IMM4 is zero where the pair opcode takes `B` or is `PNOP` (R62 rule 3). -/
def Half.immOk (h : Half) : Bool :=
  !(h.pop.shape.hasB || h.pop == .pnop) || h.imm == 0

/-- `NW` needs a destination (R58). -/
def Half.nwOk (h : Half) : Bool := h.pop != .pnop || !h.nw

def Half.wf (h : Half) : Bool := h.pop.tyOk h.ty && h.nwOk && h.dOk && h.bOk && h.immOk

/-- The vector registers that a half reads from the register file (R62 rule 1). -/
def Half.vreads (h : Half) : List Nat :=
  (if h.pop.shape.vec && h.pop.shape.readsD then [h.d.toNat] else [])
  ++ (match h.b with
      | some (.v n) => [n.toNat]
      | _ => [])

/-- Each bank appears at most once among the distinct registers read (R62 rule 1). -/
def banksOk : List Nat → Bool
  | [] => true
  | r :: rs => rs.all (fun q => q == r || q % 4 != r % 4) && banksOk rs

/-- Rules 1 and 2 of R62. -/
def pairRules (h0 h1 : Half) : Bool :=
  banksOk (h0.vreads ++ h1.vreads)
  && (h0.pop == .pnop || h1.pop == .pnop || h0.d != h1.d)

/-! ## Instructions -/

def Alu2.ok : Alu2 → Bool
  | .reg b => b.gs
  | .imm _ => true

def MaskOp.ok : MaskOp → Bool
  | .first d a => d.isMask && a.gs
  | .and d a b => d.isMask && a.isMask && b.isMask
  | .or d a b => d.isMask && a.isMask && b.isMask
  | .andn d a b => d.isMask && a.isMask && b.isMask
  | .cnt _ a => a.isMask
  | .low _ a => a.isMask

/-- `NW` is legal only with a scalar destination that is no triple (R96). -/
def MaskOp.nwOk : MaskOp → Bool → Bool
  | .cnt .., _ => true
  | .low .., _ => true
  | _, nw => !nw

def ExtMode.wide : ExtMode → Bool
  | .s32 => true
  | .u32 => true
  | _ => false

def VR.even (d : VR) : Bool := d.toNat % 2 == 0

/-- Well-formedness of a word's term; events have no encoding and no limits. -/
def Instr.wf : Instr → Bool
  | .pairWord h0 h1 => h0.wf && h1.wf && pairRules h0 h1
  | .sadd _ _ _ a b => a.gs && b.ok
  | .ssub _ _ _ a b => a.gs && b.ok
  | .smul _ _ _ a b => a.gs && b.ok
  | .smulh _ _ _ a b => a.gs && b.ok
  | .sdiv _ _ _ a b => a.gs && b.ok
  | .srem _ _ _ a b => a.gs && b.ok
  | .smin _ _ _ a b => a.gs && b.ok
  | .smax _ _ _ a b => a.gs && b.ok
  | .sand _ _ _ a b => a.gs && b.ok
  | .sor _ _ _ a b => a.gs && b.ok
  | .sxor _ _ _ a b => a.gs && b.ok
  | .sandn _ _ _ a b => a.gs && b.ok
  | .sshl _ _ _ a b => a.gs && b.ok
  | .sshr _ _ _ a b => a.gs && b.ok
  | .srot _ _ _ a b => a.gs && b.ok
  | .smov _ _ a => a.gsf
  | .smovi .. => true
  | .smoviP d _ => d.isPair
  | .scmp _ _ _ a b => a.gs && b.gs
  | .ssel _ _ a b c => a.gs && b.gs && c.gs
  | .sclz _ _ a => a.gs
  | .spopc _ _ a => a.gs
  | .sbfx _ _ _ a lo wm1 => a.gs && fieldFits lo wm1
  | .sbfi _ _ a b lo wm1 => a.gs && b.gs && fieldFits lo wm1
  | .saddp d a b => d.isPair && a.sp && (match b with | .pair b => b.sp | .sext b => b.gs | .imm _ => true)
  | .slea _ d a b _ => d.isPair && a.sp && b.gs
  | .sleaPc d _ => d.isPair
  | .sext m nw d a => a.gs && (!m.wide || (d.isPair && !nw))
  | .scvt _ _ _ a rm => a.gs && rm.noSr
  | .sfadd _ _ a b _ => a.gs && b.gs
  | .sfmul _ _ a b _ => a.gs && b.gs
  | .smask nw op => op.ok && op.nwOk nw
  | .scmpp _ _ _ a b => a.sp && b.sp
  | .brv _ a _ _ => a.isMask
  | .call d _ => d.isPair
  | .callR d a => d.isPair && a.sp
  | .ret a => a.sp
  | .spawn _ a => a.sp
  | .launch _ _ a b _ => a.sp && b.sp
  | .cancel _ a => a.sp
  | .stepadv a => a.gs
  | .brx a => a.sp
  | .vadd t _ _ a b m => a.gv && b.gv && m.arith t
  | .vsub t _ _ a b m => a.gv && b.gv && m.arith t
  | .vmul t _ _ a b m => a.gv && b.gv && m.arith t
  | .vmulh _ _ _ a b => a.gv && b.gv
  | .vmad _ _ _ a b c _ => a.gv && b.gv && c.gv
  | .vmin _ _ _ a b => a.gv && b.gv
  | .vmax _ _ _ a b => a.gv && b.gv
  | .vabs t _ _ b sat => b.gv && t != .u32 && (!sat || t == .s32)
  | .vneg t _ _ b sat => b.gv && t != .u32 && (!sat || t == .s32)
  | .vand _ _ a b => a.gv && b.gv
  | .vor _ _ a b => a.gv && b.gv
  | .vxor _ _ a b => a.gv && b.gv
  | .vandn _ _ a b => a.gv && b.gv
  | .vshl _ _ _ a b => a.gv && b.gv
  | .vshr _ _ _ a b => a.gv && b.gv
  | .vrot _ _ a b => a.gv && b.gv
  | .vclz _ _ b => b.gv
  | .vpopc _ _ b => b.gv
  | .vbfx _ _ _ b lo wm1 => b.gv && fieldFits lo wm1
  | .vbfi _ _ a b lo wm1 => a.gv && b.gv && fieldFits lo wm1
  | .vsel _ _ a b c => a.gv && b.gv && c.isMask
  | .vcmp t cc d a b => d.isMask && a.gv && b.gv && (cc != .un || t.isFloat)
  | .vmov _ _ b => b.gv
  | .vmovi t _ _ imm => (t != .f16 && t != .bf16) || imm.toNat < 65536
  | .vdot4 e _ _ a b c m => a.gv && b.gv && c.gv && (e == .e4m3 || e == .e5m2 || m.rm == .rne)
  | .vsad _ _ _ a b c _ => a.gv && b.gv && c.gv
  | .vavg _ _ _ a b => a.gv && b.gv
  | .vdiv _ _ _ a b => a.gv && b.gv
  | .vrem _ _ _ a b => a.gv && b.gv
  | .vaddc _ _ _ a b c => a.gv && b.gv && c.gv
  | .vclmp _ _ _ a b c => a.gv && b.gv && c.gv
  | .vfma t _ _ a b c _ => t.isFloat && a.gv && b.gv && c.gv
  | .vfms t _ _ a b c _ => t.isFloat && a.gv && b.gv && c.gv
  | .vfnma t _ _ a b c _ => t.isFloat && a.gv && b.gv && c.gv
  | .vfdiv t _ _ a b _ => t.isFloat && a.gv && b.gv
  | .vsqrt t _ _ b _ => t.isFloat && b.gv
  | .vrint t _ _ b rm => t.isFloat && b.gv && rm.noSr
  | .vfrac t _ _ b _ => t.isFloat && b.gv
  | .vclass t _ _ b => t.isFloat && b.gv
  | .vsgnj t _ _ _ a b => t.isFloat && a.gv && b.gv
  | .vscale t _ _ a b _ => t.isFloat && a.gv && b.gv
  | .vexpo t _ _ b => t.isFloat && b.gv
  | .vrmax t _ _ a g => t.isFloat && a.gv && segOk g
  | .vrmin t _ _ a g => t.isFloat && a.gv && segOk g
  | .vradd t _ _ a g _ => t.isFloat && a.gv && segOk g
  | .vdot2 t _ _ a b c _ => (t == .f16 || t == .bf16) && a.gv && b.gv && c.gv
  | .vlerp t _ _ a b c _ => t.isFloat && a.gv && b.gv && c.gv
  | .vcvt dt st _ _ b m => b.gv && (!st.isLH || b.notK) && vcvtOk dt st m
  | .vpack _ _ _ a b _ => a.gv && b.gv
  | .vunpk _ _ _ b => b.gv
  | .vqnt q _ _ a b m => a.gv && b.gv && (m.rm.noSr || (q != .l6 && q != .h4))
  | .vdqnt q _ _ a b _ => a.gv && b.gv && (a.notK || (q != .l6 && q != .h4))
  | .vplane _ _ _ b => b.gv && b.notK
  | .vunpl _ _ _ b => b.gv && b.notK
  | .vbscl _ _ _ b => b.gv
  | .vrcp t _ _ b => t.isFloat && b.gv
  | .vrsq t _ _ b => t.isFloat && b.gv
  | .vexp2 t _ _ b => t.isFloat && b.gv
  | .vlog2 t _ _ b => t.isFloat && b.gv
  | .vsin t _ _ b => t.isFloat && b.gv
  | .vcos t _ _ b => t.isFloat && b.gv
  | .vtanh t _ _ b => t.isFloat && b.gv
  | .verf t _ _ b => t.isFloat && b.gv
  | .vshfl _ _ _ a b m => a.gv && b.gv && m.ok
  | .vbcast _ _ a b g m => a.gv && b.gv && m.ok && segOk g
  | .vbcastI _ _ a _ g m => a.gv && m.ok && segOk g
  | .vbfly f _ _ a j m =>
      a.gv && (match f with | .x => true | .lo b => b.gv | .hi b => b.gv) && m.ok && j != 0
  | .vrotl _ _ a b g m => a.gv && b.gv && m.ok && segOk g
  | .vvote op d a m => (op != .ballot || d.isMask) && a.gv && m.ok
  | .vscan t op _ g x _ _ a m => a.gv && m.ok && segOk g && scanOk t op x
  | .vrdc t op g x _ _ a m => a.gv && m.ok && segOk g && scanOk t op x
  | .vcprs g _ _ a b m => a.gv && b.isMask && m.ok && segOk g
  | .xvec n => n.even
  | .vmatch _ _ a m => a.gv && m.ok
  | .vgumb _ _ a b => a.gv && b.gv
  | .vsmpl g _ _ a m => a.gv && m.ok && segOk g
  | .vtopk _ g _ _ a b m => a.gv && b.gv && m.ok && segOk g
  | .vbern t _ _ a => t.isFloat && a.gv
  | .vld _ _ a b i => memV ruleLoad a b i
  | .vst _ _ a b i => memV ruleStore a b i
  | .vldp d a b i => d.even && memV ruleLoad a b i
  | .vstp d a b i => d.even && memV ruleStore a b i
  | .sld t d a b i => (t.isSome || d.isPair) && memS ruleLoad a b i
  | .sst t d a b i => (t.isSome || d.isPair) && memS ruleStore a b i
  | .vldu _ _ a b i => memS ruleLoad a b i
  | .vpref _ a b i => memV rulePref a b i
  | .vatom _ _ a b i => memV ruleAtomic a b i
  | .vcas d a b i => d.even && memV ruleAtomic a b i
  | .vatomp _ d a b i => d.even && memV ruleAtomic a b i
  | .vcasp d a b i => d.even && d.toNat ≤ 124 && memV ruleAtomic a b i
  | .satom _ _ a b i => memS ruleAtomic a b i
  | .scas d a b i => d.isPair && memS ruleAtomic a b i
  | .vapnd _ a i => mem0 ruleApnd a i
  | .vldw d a b i => d.toNat ≤ 124 && memV ruleLoad a b i
  | .vstw d a b i => d.toNat ≤ 124 && memV ruleStore a b i
  | .dld _ a b i => memV ruleDld a b i
  | .dadd _ a b i => memV ruleDadd a b i
  | .daddA _ a b i => memV ruleDaddA a b i
  | .smerge _ d a b => d.even && a.ve && b.ve
  | .dst d a b i => d.even && memV ruleStore a b i
  | .dstamp _ d a _ => d.even && a.gv
  | .fence scope _ => scope.toNat ≤ 5
  | .xfence scope _ _ => scope.toNat ≤ 5
  | .bari d a i => d.isPair && mem0 ruleBar a i
  | .bara _ a b i => i.base a && b.gs && i.ok ruleBar
  | .barw a b i => i.base a && b.gs && i.ok ruleBar
  | .bar a i => mem0 ruleBar a i
  | .barq d a i => d.isPair && mem0 ruleBar a i
  | .trgput _ a i => mem0 ruleTrg a i
  | .trgget _ a i => mem0 ruleTrg a i
  | .trgtry _ a i => mem0 ruleTrg a i
  | .hpass a => a.gs
  | .ftest _ a => a.fc
  | .fwait _ a i => mem0 ruleTrg a i
  | .fcancel a => a.fc
  | .fsth _ a i => mem0 ruleFsth a i
  | .copy _ dsp ssp a b c _ => a.copyBase dsp && b.copyBase (ssp == 1) && c.gs && ssp != 3
  | .copyt _ b => b.ok
  | .binopen _ b => b.ok
  | .binapp _ _ a b c => a.sp && b.gv && c.vc
  | .binplay _ b => b.ok
  | .xsect _ b => b.ok
  | .smergeu _ b => b.ok
  | .topk _ b => b.ok
  | .cvtcsr _ b => b.ok
  | .cvtres _ b => b.ok
  | .taskput _ b => b.ok
  | .stsweep _ b => b.ok
  | .rinv _ b => b.ok
  | .cmma _ _ b _ => b.ok
  | .cmmas _ _ _ b _ => b.ok
  | .cstore _ b _ => b.ok
  | .cload _ b _ => b.ok
  | .cspec _ _ v0 b0 v1 b1 => !v0 || !v1 || b0 != b1
  | .cresolve a => a.gsf
  | .relld _ b _ => b.ok
  | .lblsum _ b _ n => b.ok && n.gs
  | .draft _ _ a b c _ => a.sp && b.gs && c.gs
  | .accept _ a => a.gs
  | .crdv _ _ b _ => b.gs
  | .cwrv _ b _ => b.gs
  | .cscale _ a b _ rm => a.gs && b.gs && rm.noSr
  | .cepi _ _ a _ => a.spz
  | .lblld d a b i => d.even && memV ruleLblld a b i
  | .lblldAdm _ b row => b.ok && row.gs
  | .lblst d a b i => d.even && memV ruleLblst a b i
  | .mts _ a => a.sc
  | .hayfill _ b => b.ok
  | .tlbinv _ _ a b c => a.sp && b.gs && c.gs
  | .icinv _ _ a b => a.sp && b.gs
  | .clkrdTime d => d.isPair
  | .clkrdCyc d => d.isPair
  | .perfrd d b => d.isPair && b.gs
  | .perfcfg a b => a.gs && b.gs
  | .ctxsave _ _ b => b.gs
  | .ctxload _ _ b => b.gs
  | .shtblSet _ a => a.sp
  | .fltresOk a b => a.sp && b.gs
  | .fltresDeny a b => a.sp && b.gs
  | .idlew _ a b => a.sp && b.gs
  | _ => true

end Sys2Proof
end

