-- ==== Sys2Proof/Machine/Bits.lean ====
section
/-! DEFINITION. Small shared helpers: bytes and words, 96-lane masks, list updates, pairs and triples, sign extension. -/

namespace Sys2Proof.Machine

/-- The little-endian number of a list of bytes (R10). -/
def leNat (b : List Byte) : Nat := b.foldr (fun x acc => x.toNat + 256 * acc) 0

/-- The first `k` bytes of a number, lowest first. -/
def natLe : Nat → Nat → List Byte
  | 0, _ => []
  | k + 1, n => BitVec.ofNat 8 n :: natLe k (n / 256)

/-- A field of a byte record: `len` bytes from `off`, as a number. -/
def recNat (b : List Byte) (off len : Nat) : Nat := leNat ((b.drop off).take len)

/-- A signed record field of `len` bytes. -/
def recInt (b : List Byte) (off len : Nat) : Int :=
  let n := recNat b off len
  if n < 2 ^ (8 * len - 1) then n else (n : Int) - 2 ^ (8 * len)

/-- A number modulo 2^w as a two's-complement integer. -/
def signed (w n : Nat) : Int :=
  let m := n % 2 ^ w
  if m < 2 ^ (w - 1) then m else (m : Int) - 2 ^ w

/-- An integer modulo 2^w. -/
def wrapNat (w : Nat) (i : Int) : Nat := (i % (2 ^ w : Int)).toNat

def ofInt32 (i : Int) : W := BitVec.ofNat 32 (wrapNat 32 i)

def ofInt64 (i : Int) : D := BitVec.ofNat 64 (wrapNat 64 i)

/-- Clamp to an interval. -/
def clampInt (lo hi x : Int) : Int := if x < lo then lo else if hi < x then hi else x

/-! ## Masks -/

/-- All 96 lanes (R14). -/
def allLanes : Mask := BitVec.allOnes 96

def laneList : List Nat := List.range 96

/-- A mask from a predicate on lanes. -/
def maskOf (p : Nat → Bool) : Mask :=
  laneList.foldr (fun l acc => if p l then acc ||| BitVec.ofNat 96 (2 ^ l) else acc) 0

/-- The lanes of a mask, rising. -/
def lanesOf (m : Mask) : List Nat := laneList.filter fun l => m.getLsbD l

def oneLane (l : Nat) : Mask := BitVec.ofNat 96 (2 ^ l)

def maskCount (m : Mask) : Nat := (lanesOf m).length

/-- The lowest lane of a mask, or 96. -/
def lowLane (m : Mask) : Nat :=
  match lanesOf m with
  | l :: _ => l
  | [] => 96

/-- A mask as three scalar words, lowest first (R41). -/
def maskWord (m : Mask) (i : Nat) : W := m.extractLsb' (32 * i) 32

def maskOfWords (a b c : W) : Mask := BitVec.ofNat 96 (a.toNat + b.toNat * 2 ^ 32 + c.toNat * 2 ^ 64)

/-! ## Lists -/

/-- Replace element `i`. -/
def setAt {α : Type} : List α → Nat → α → List α
  | [], _, _ => []
  | _ :: xs, 0, y => y :: xs
  | x :: xs, i + 1, y => x :: setAt xs i y

/-- Apply a function at element `i`. -/
def modAt {α : Type} : List α → Nat → (α → α) → List α
  | [], _, _ => []
  | x :: xs, 0, f => f x :: xs
  | x :: xs, i + 1, f => x :: modAt xs i f

/-- Position of the first element that satisfies `p`. -/
def findIdx {α : Type} (p : α → Bool) : List α → Option Nat
  | [] => none
  | x :: xs => if p x then some 0 else (findIdx p xs).map (· + 1)

/-- Apply a function to every element that satisfies `p`. -/
def mapIf {α : Type} (p : α → Bool) (f : α → α) (xs : List α) : List α := xs.map fun x => if p x then f x else x

/-- Insert a number into a rising list without repeats. -/
def insertNat (n : Nat) : List Nat → List Nat
  | [] => [n]
  | x :: xs => if n < x then n :: x :: xs else if n == x then x :: xs else x :: insertNat n xs

/-- The first element of the least key, by a key function. -/
def leastBy {α : Type} (f : α → Nat) : List α → Option α
  | [] => none
  | x :: xs =>
    match leastBy f xs with
    | some y => if f y < f x then some y else some x
    | none => some x

/-- Drop the `n`-th element that satisfies `p`. -/
def dropNth {α : Type} (p : α → Bool) : Nat → List α → List α
  | _, [] => []
  | n, x :: xs =>
    if p x then
      match n with
      | 0 => xs
      | k + 1 => x :: dropNth p k xs
    else x :: dropNth p n xs

/-- Make room for one more element that satisfies `p` where `cap` fit: the `v`-th of them, counted around, goes. -/
def makeRoom {α : Type} (p : α → Bool) (cap v : Nat) (xs : List α) : List α :=
  if xs.countP p < cap then xs else dropNth p (v % cap) xs

/-- Cut a list into pieces of `k` (k > 0), with fuel for the number of pieces. -/
def chunksOf {α : Type} (k : Nat) : Nat → List α → List (List α)
  | 0, _ => []
  | f + 1, xs => if xs.isEmpty then [] else xs.take k :: chunksOf k f (xs.drop k)

/-! ## Words -/

def joinPair (lo hi : W) : D := hi ++ lo

def lo32 (x : D) : W := x.extractLsb' 0 32

def hi32 (x : D) : W := x.extractLsb' 32 32

def boolW (b : Bool) : W := if b then 1 else 0

/-- Leading zeros of a word. -/
def clz32 (x : W) : Nat := if x == 0 then 32 else 31 - x.toNat.log2

/-- Set bits of a number below 2^k. -/
def popCount : Nat → Nat → Nat
  | 0, _ => 0
  | k + 1, n => n % 2 + popCount k (n / 2)

/-- Bits [lo + w - 1 : lo] of a word (R98, R123). -/
def bitField (x : W) (lo wm1 : BitVec 5) : Nat := x.toNat / 2 ^ lo.toNat % 2 ^ (wm1.toNat + 1)

/-- A bit field, sign-extended unless `zx`. -/
def extractField (zx : Bool) (x : W) (lo wm1 : BitVec 5) : W :=
  if zx then BitVec.ofNat 32 (bitField x lo wm1) else ofInt32 (signed (wm1.toNat + 1) (bitField x lo wm1))

/-- `x` with bits [lo + w - 1 : lo] replaced by the low bits of `y`. -/
def insertField (x y : W) (lo wm1 : BitVec 5) : W :=
  let m := BitVec.ofNat 32 ((2 ^ (wm1.toNat + 1) - 1) * 2 ^ lo.toNat)
  (x &&& ~~~m) ||| ((y <<< lo.toNat) &&& m)

/-- Quotient rounded toward zero. -/
def tdivInt (a b : Int) : Int := a.tdiv b

/-- Integer square root of `n`, bit by bit from bit `k - 1` (n < 4^k). -/
def isqrt : Nat → Nat → Nat → Nat
  | 0, _, r => r
  | k + 1, n, r => if (r + 2 ^ k) * (r + 2 ^ k) ≤ n then isqrt k n (r + 2 ^ k) else isqrt k n r

end Sys2Proof.Machine
end

