-- ==== Sys2Proof/Machine/Flags.lean ====
section
/-! DEFINITION. The sticky flags and the status word `WSTAT` (R29, R89, R91). -/

namespace Sys2Proof.Machine

/-- Sticky flags in FLAGS order NV, DZ, OF, UF, NX from bit 4 (R89). -/
abbrev Flags := BitVec 5

def flNV : Flags := 16
def flDZ : Flags := 8
def flOF : Flags := 4
def flUF : Flags := 2
def flNX : Flags := 1

def flagIf (b : Bool) (f : Flags) : Flags := if b then f else 0

/-- `WSTAT` as a read by slot `k` sees it (R29). -/
def wstatWord (priv halter : Bool) (w : Wave) (k : Bool) : W :=
  let other := if k then w.slot0.st != .empty else w.slot1.st != .empty
  BitVec.ofNat 32 (halter.toNat * 2 ^ 21 + k.toNat * 2 ^ 20 + other.toNat * 2 ^ 19 + priv.toNat * 2 ^ 18
    + w.dsp % 64 * 2 ^ 12 + w.mabs.toNat * 2 ^ 11 + w.fpen.toNat * 2 ^ 5 + w.flags.toNat)

/-- A write of `WSTAT`: MABS, FPEN and the flags; the other fields are read-only (R29). -/
def wstatWrite (w : Wave) (x : W) : Wave :=
  { w with mabs := x.getLsbD 11, fpen := x.extractLsb' 5 5, flags := x.extractLsb' 0 5 }

/-- A word's flags are added to the sticky ones (R89). -/
def Wave.setFlags (w : Wave) (fl : Flags) : Wave := { w with flags := w.flags ||| fl }

/-- Member absent, sticky (R29, R141). -/
def Wave.setMabs (w : Wave) (b : Bool) : Wave := { w with mabs := w.mabs || b }

/-- Enabled flags among those raised (R91). -/
def fpHot (w : Wave) (fl : Flags) : Flags := fl &&& w.fpen

end Sys2Proof.Machine
end

