-- ==== Sys2Proof/Machine/Float.lean ====
section
/-! DEFINITION. Floating-point formats, exact values and rounding (R70-R76, R89). An exact value is a signed zero, a
nonzero quotient, an infinity or a NaN; arithmetic is exact on these and is narrowed once by `roundFP`. -/

namespace Sys2Proof.Machine

/-- An exact value. In `fin n d`, n is not 0 and d is not 0. -/
inductive Ex
  | nan
  | inf (neg : Bool)
  | zero (neg : Bool)
  | fin (n : Int) (d : Nat)
  deriving DecidableEq, Repr

/-- A floating-point format (R70): fraction bits, bias, sign bit, the magnitude codes of the largest finite value, of
infinity (if any) and of the canonical NaN. -/
structure Fm where
  m      : Nat
  bias   : Nat
  sign   : Nat
  maxMag : Nat
  inf    : Option Nat
  nan    : Nat
  deriving DecidableEq, Repr

def fmF32 : Fm := ⟨23, 127, 2 ^ 31, 0x7F7FFFFF, some 0x7F800000, 0x7FC00000⟩
def fmF16 : Fm := ⟨10, 15, 2 ^ 15, 0x7BFF, some 0x7C00, 0x7E00⟩
def fmBF16 : Fm := ⟨7, 127, 2 ^ 15, 0x7F7F, some 0x7F80, 0x7FC0⟩
def fmE4M3 : Fm := ⟨3, 7, 2 ^ 7, 0x7E, none, 0x7F⟩
def fmE5M2 : Fm := ⟨2, 15, 2 ^ 7, 0x7B, some 0x7C, 0x7E⟩

def Fm.emin (f : Fm) : Int := 1 - (f.bias : Int)

/-- The quotient `n * 2^e`. -/
def exPow2 (n : Int) (e : Int) : Ex :=
  if n == 0 then .zero false
  else if 0 ≤ e then .fin (n * 2 ^ e.toNat) 1 else .fin n (2 ^ (-e).toNat)

/-- The magnitude code of a pattern. -/
def Fm.mag (f : Fm) (x : Nat) : Nat := x % f.sign

def Fm.neg (f : Fm) (x : Nat) : Bool := x / f.sign % 2 == 1

def Fm.isNan (f : Fm) (x : Nat) : Bool :=
  match f.inf with
  | some i => i < f.mag x
  | none => f.maxMag < f.mag x

/-- A NaN whose top fraction bit is 0; E4M3 has none (R72). -/
def Fm.isSnan (f : Fm) (x : Nat) : Bool :=
  f.isNan x && f.inf.isSome && f.mag x / 2 ^ (f.m - 1) % 2 == 0

/-- The value of a pattern (R70). -/
def Fm.val (f : Fm) (x : Nat) : Ex :=
  let a := f.mag x
  let s := f.neg x
  if f.isNan x then .nan
  else if f.inf == some a then .inf s
  else if a == 0 then .zero s
  else
    let e := a / 2 ^ f.m
    let k : Nat := if e == 0 then a else a % 2 ^ f.m + 2 ^ f.m
    exPow2 (if s then -(k : Int) else k) ((if e == 0 then 1 else e : Int) - f.bias - f.m)

def signCode (f : Fm) (s : Bool) : Nat := if s then f.sign else 0

/-- ⌊log₂(n ÷ d)⌋ for positive n, d. -/
def log2Quot (n d : Nat) : Int :=
  let e : Int := (n.log2 : Int) - d.log2
  let le := if 0 ≤ e then d * 2 ^ e.toNat ≤ n else d ≤ n * 2 ^ (-e).toNat
  if le then e else e - 1

/-- n ÷ (d × 2^e) as an unreduced quotient. -/
def scaleQuot (n d : Nat) (e : Int) : Nat × Nat :=
  if 0 ≤ e then (n, d * 2 ^ e.toNat) else (n * 2 ^ (-e).toNat, d)

/-- Whether the magnitude rounds up, for sign `s`, quotient `k`, remainder `r` of `b`, and random `u` (R73, R75). -/
def roundUp (rm : Rm) (s : Bool) (k r b u : Nat) : Bool :=
  match rm with
  | .rne => b < 2 * r || (b == 2 * r && k % 2 == 1)
  | .rz => false
  | .ru => 0 < r && !s
  | .rd => 0 < r && s
  | .sr => 2 ^ 16 ≤ r * 2 ^ 16 / b + u

/-- The result of a finite overflow (R74). -/
def overflow (f : Fm) (rm : Rm) (s sat : Bool) : Nat :=
  let toMax := sat || (match rm with
    | .rne => false
    | .sr => false
    | .rz => true
    | .ru => s
    | .rd => !s)
  if toMax then f.maxMag + signCode f s
  else
    match f.inf with
    | some i => i + signCode f s
    | none => f.nan

/-- `RoundFP` (R73): the pattern and the flags. -/
def roundFP (f : Fm) (rm : Rm) (sat : Bool) (u : Nat) (x : Ex) : Nat × Flags :=
  match x with
  | .nan => (f.nan, 0)
  | .inf s =>
    match f.inf with
    | some i => (i + signCode f s, 0)
    | none => if sat then (f.maxMag + signCode f s, 0) else (f.nan, flNV)
  | .zero s => (signCode f s, 0)
  | .fin n d =>
    let s := n < 0
    let a := n.natAbs
    let e := max (log2Quot a d) f.emin
    let q := scaleQuot a d (e - f.m)
    let k := q.1 / q.2
    let r := q.1 % q.2
    let mag := (e - f.emin).toNat * 2 ^ f.m + k + (if roundUp rm s k r q.2 u then 1 else 0)
    let fl := flagIf (0 < r) flNX ||| flagIf (0 < r && mag < 2 ^ f.m) flUF
    if f.maxMag < mag then (overflow f rm s sat, flOF ||| flNX)
    else (mag + signCode f s, fl)

/-- `RoundFP32` of R12. -/
def roundFP32 (rm : Rm) (u : Nat) (x : Ex) : W × Flags :=
  let r := roundFP fmF32 rm false u x
  (BitVec.ofNat 32 r.1, r.2)

/-! ## Exact arithmetic -/

def Ex.isNan : Ex → Bool
  | .nan => true
  | _ => false

/-- The sign of a number. -/
def Ex.sgn : Ex → Bool
  | .nan => false
  | .inf s => s
  | .zero s => s
  | .fin n _ => n < 0

def Ex.negate : Ex → Ex
  | .nan => .nan
  | .inf s => .inf !s
  | .zero s => .zero !s
  | .fin n d => .fin (-n) d

def Ex.isZero : Ex → Bool
  | .zero _ => true
  | _ => false

def Ex.isInf : Ex → Bool
  | .inf _ => true
  | _ => false

/-- Numerator and denominator of a finite value. -/
def Ex.quot : Ex → Int × Nat
  | .fin n d => (n, d)
  | _ => (0, 1)

/-- A quotient as an exact value; zero takes sign `z`. -/
def exQuot (n : Int) (d : Nat) (z : Bool) : Ex := if n == 0 then .zero z else .fin n d

/-- Product, with NV for 0 × ∞ (R76, R124). -/
def exMul (x y : Ex) : Ex × Flags :=
  if x.isNan || y.isNan then (.nan, 0)
  else if (x.isInf && y.isZero) || (x.isZero && y.isInf) then (.nan, flNV)
  else
    let s := x.sgn != y.sgn
    if x.isInf || y.isInf then (.inf s, 0)
    else if x.isZero || y.isZero then (.zero s, 0)
    else (.fin (x.quot.1 * y.quot.1) (x.quot.2 * y.quot.2), 0)

/-- Sum under a rounding mode, which only decides the sign of an exact zero (R76); NV for ∞ − ∞. -/
def exAdd (rm : Rm) (x y : Ex) : Ex × Flags :=
  if x.isNan || y.isNan then (.nan, 0)
  else
    match x, y with
    | .inf s, .inf t => if s == t then (.inf s, 0) else (.nan, flNV)
    | .inf s, _ => (.inf s, 0)
    | _, .inf t => (.inf t, 0)
    | .zero s, .zero t => (.zero (if s == t then s else rm == .rd), 0)
    | .zero _, y => (y, 0)
    | x, .zero _ => (x, 0)
    | x, y =>
      let p := x.quot
      let q := y.quot
      (exQuot (p.1 * q.2 + q.1 * p.2) (p.2 * q.2) (rm == .rd), 0)

/-- Quotient: NV for 0 ÷ 0 and ∞ ÷ ∞, DZ for a nonzero number by 0 (R124). -/
def exDiv (x y : Ex) : Ex × Flags :=
  if x.isNan || y.isNan then (.nan, 0)
  else if (x.isInf && y.isInf) || (x.isZero && y.isZero) then (.nan, flNV)
  else
    let s := x.sgn != y.sgn
    if x.isInf then (.inf s, 0)
    else if y.isInf || x.isZero then (.zero s, 0)
    else if y.isZero then (.inf s, flDZ)
    else
      let p := x.quot
      let q := y.quot
      (.fin (p.1 * q.2 * (if q.1 < 0 then -1 else 1)) (p.2 * q.1.natAbs), 0)

/-- A quotient that rounds as the square root of n ÷ d does in every format: exact where the root is exact at 2^-320 and
otherwise strictly between two neighbours of that grid. -/
def sqrtQuot (n d : Nat) : Ex :=
  let t := n * 2 ^ 640 / d
  let r := isqrt (t.log2 / 2 + 1) t 0
  if r * r * d == n * 2 ^ 640 then .fin r (2 ^ 320) else .fin (2 * r + 1) (2 ^ 321)

/-- Square root: NV below −0 (R124). -/
def exSqrt (x : Ex) : Ex × Flags :=
  match x with
  | .nan => (.nan, 0)
  | .zero s => (.zero s, 0)
  | .inf s => if s then (.nan, flNV) else (.inf false, 0)
  | .fin n d => if n < 0 then (.nan, flNV) else (sqrtQuot n.natAbs d, 0)

/-- x × 2^k, with k held to ±1000, beyond which every format overflows or underflows alike (R124). -/
def exScale (x : Ex) (k : Int) : Ex :=
  match x with
  | .fin n d =>
    let k := clampInt (-1000) 1000 k
    if 0 ≤ k then .fin (n * 2 ^ k.toNat) d else .fin n (d * 2 ^ (-k).toNat)
  | x => x

/-- Comparison of two numbers: −0 equals +0. Not used on NaNs. -/
def exLt (x y : Ex) : Bool :=
  match x, y with
  | .nan, _ => false
  | _, .nan => false
  | .inf s, .inf t => s && !t
  | .inf s, _ => s
  | _, .inf t => !t
  | x, y => x.quot.1 * y.quot.2 < y.quot.1 * x.quot.2

def exEq (x y : Ex) : Bool :=
  match x, y with
  | .nan, _ => false
  | _, .nan => false
  | x, y => !exLt x y && !exLt y x

/-- Order in which −0 lies below +0 (R125). -/
def exLtZ (x y : Ex) : Bool := exLt x y || (x.isZero && y.isZero && x.sgn && !y.sgn)

/-- ⌊x⌋ of a finite value. -/
def exFloor (x : Ex) : Int := x.quot.1 / (x.quot.2 : Int)

/-- Round a finite value to an integer (R73 on the integer grid; ties to even). -/
def exRint (rm : Rm) (x : Ex) : Int :=
  let n := x.quot.1
  let d := x.quot.2
  let k := n.natAbs / d
  let r := n.natAbs % d
  let a := k + (if roundUp rm (n < 0) k r d 0 then 1 else 0)
  if n < 0 then -(a : Int) else a

/-- Whether a finite value is an integer. -/
def exIsInt (x : Ex) : Bool := x.quot.1.natAbs % x.quot.2 == 0

def exInt (i : Int) : Ex := exQuot i 1 false

end Sys2Proof.Machine
end

