-- ==== Sys2Proof/Machine/Formats.lean ====
section
/-! DEFINITION. The other number formats: L6, the H formats and S20 (R77-R86), reading and writing lane values under a
type code (R117), integer conversion (R99) and conversion between types (R133). -/

namespace Sys2Proof.Machine

/-! ## L6 (R77-R79) -/

/-- The log code q of an L6 pattern, -16 to 15. -/
def l6Code (x : Nat) : Int := signed 5 x

def l6Neg (x : Nat) : Bool := x / 32 % 2 == 1

/-- D(q) × 4096 for exponents raised by 64 quarters: the magnitude 2^⌊q/4⌋ × T[q mod 4] (R77, R78). -/
def l6Mag (q : Int) : Ex :=
  let t := if q % 4 == 0 then 4096 else if q % 4 == 1 then 4871 else if q % 4 == 2 then 5793 else 6889
  exPow2 t (q / 4 - 12)

def signEx (s : Bool) (x : Ex) : Ex := if s then x.negate else x

/-- The value of an L6 pattern. -/
def l6Val (x : Nat) : Ex :=
  if l6Code x == -16 then .zero (l6Neg x) else signEx (l6Neg x) (l6Mag (l6Code x))

/-- The product of two L6 patterns (R78). -/
def l6Mul (x y : Nat) : Ex :=
  let s := l6Neg x != l6Neg y
  if l6Code x == -16 || l6Code y == -16 then .zero s else signEx s (l6Mag (l6Code x + l6Code y))

/-- The magnitude of code index i = q + 16, where index 0 is zero. -/
def l6Idx (i : Nat) : Ex := if i == 0 then .zero false else l6Mag ((i : Int) - 16)

/-- The largest index whose magnitude is at most `a`. -/
def l6Below (a : Ex) : Nat → Nat
  | 0 => 0
  | i + 1 => if !exLt a (l6Idx (i + 1)) then i + 1 else l6Below a i

/-- Twice the distance comparison: whether `a` is nearer the upper neighbour, or tied with the upper code even (R79). -/
def l6Up (rm : Rm) (s : Bool) (a : Ex) (i : Nat) : Bool :=
  match rm with
  | .rz => false
  | .ru => !s
  | .rd => s
  | _ =>
    let lo := (l6Idx i).quot
    let hi := (l6Idx (i + 1)).quot
    let mid : Ex := .fin (lo.1 * hi.2 + hi.1 * lo.2) (2 * lo.2 * hi.2)
    exLt mid a || (exEq mid a && i % 2 == 1)

def l6Pat (s : Bool) (i : Nat) : Nat := (i + 16) % 32 + (if s then 32 else 0)

/-- Conversion into L6 (R79). -/
def toL6 (rm : Rm) (x : Ex) : Nat × Flags :=
  match x with
  | .nan => (0x10, flNV)
  | .inf s => (l6Pat s 31, flNV)
  | .zero s => (l6Pat s 0, 0)
  | .fin n d =>
    let s := n < 0
    let a : Ex := .fin n.natAbs d
    if exLt (l6Idx 31) a then (l6Pat s 31, flOF ||| flNX)
    else
      let i := l6Below a 31
      if exEq (l6Idx i) a then (l6Pat s i, 0)
      else (l6Pat s (if l6Up rm s a i then i + 1 else i), flNX ||| flagIf (exLt a (l6Idx 1)) flUF)

/-! ## H formats (R81-R84) -/

/-- The value k + ½ of an n-bit code (R81). -/
def hVal (n x : Nat) : Ex := .fin (2 * signed n x + 1) 2

/-- The value of an n-bit code of which the top m planes are read (R83). -/
def hPlanes (n m x : Nat) : Ex := .fin ((2 * signed m (x % 2 ^ n / 2 ^ (n - m)) + 1) * 2 ^ (n - m)) 2

/-- Conversion into Hn (R84). -/
def toH (n : Nat) (rm : Rm) (x : Ex) : Nat × Flags :=
  let top : Int := 2 ^ (n - 1) - 1
  let bot : Int := -(2 ^ (n - 1))
  let code (k : Int) : Nat := wrapNat n k
  match x with
  | .nan => (0, flNV)
  | .inf s => (code (if s then bot else top), flNV)
  | .zero s => (code (match rm with
      | .rne => 0
      | .ru => 0
      | .rd => -1
      | _ => if s then -1 else 0), flNX)
  | .fin a d =>
    -- compare 2x with odd integers: x > top + 1/2
    if (2 * top + 1) * d < 2 * a then (code top, flOF ||| flNX)
    else if 2 * a < (2 * bot + 1) * d then (code bot, flOF ||| flNX)
    else
      -- lo = k + 1/2 with k = ⌊x − 1/2⌋
      let k : Int := (2 * a - d) / (2 * (d : Int))
      if (2 * k + 1) * d == 2 * a then (code k, 0)
      else
        -- the midpoint of the neighbours k + 1/2 and k + 3/2 is the integer k + 1
        let up := match rm with
          | .ru => true
          | .rd => false
          | .rz => if k == -1 then decide (0 < a) else decide (k < -1)
          | _ => decide ((k + 1) * d < a) || (decide ((k + 1) * d = a) && decide (k % 2 ≠ 0))
        (code (if up then k + 1 else k), flNX)

/-! ## S20 scales (R85, R86) -/

/-- The value of a scale: zero, NaN or positive. -/
def s20Val (x : Nat) : Ex :=
  let e := x / 4096 % 256
  if e == 0 then .zero false
  else if e == 255 then .nan
  else exPow2 (4096 + x % 4096 : Nat) ((e : Int) - 127 - 12)

/-- The smallest S20 value at least n ÷ d and at least 2^-126 (R135). -/
def toS20 (n d : Nat) : Nat :=
  let e := max (log2Quot n d) (-126)
  let q := scaleQuot n d (e - 12)
  let k := if q.1 % q.2 == 0 then q.1 / q.2 else q.1 / q.2 + 1
  let k := max k 4096
  if k == 8192 then (e + 128).toNat * 4096 else (e + 127).toNat * 4096 + (k - 4096)

/-! ## Lane values (R117) -/

def vtyFm : VTy → Option Fm
  | .f32 => some fmF32
  | .f16 => some fmF16
  | .bf16 => some fmBF16
  | _ => none

/-- The floating format of a float type code; FP32 for the others. -/
def fmOf (t : VTy) : Fm :=
  match t with
  | .f16 => fmF16
  | .bf16 => fmBF16
  | _ => fmF32

def tyFm : Ty → Option Fm
  | .f32 => some fmF32
  | .f16 => some fmF16
  | .bf16 => some fmBF16
  | .e4m3 => some fmE4M3
  | .e5m2 => some fmE5M2
  | _ => none

/-- Bits of a lane value. -/
def tyWidth : Ty → Nat
  | .s32 => 32
  | .u32 => 32
  | .f32 => 32
  | .f16 => 16
  | .bf16 => 16
  | .e4m3 => 8
  | .e5m2 => 8
  | .s16 => 16
  | .u16 => 16
  | .s8 => 8
  | .u8 => 8
  | .l6 => 6
  | .h1 => 1
  | .h2 => 2
  | .h4 => 4
  | .h8 => 8

def hWidth : HTy → Nat
  | .h1 => 1
  | .h2 => 2
  | .h4 => 4
  | .h8 => 8

def tySigned : Ty → Bool
  | .s32 => true
  | .s16 => true
  | .s8 => true
  | _ => false

/-- An integer lane value: 32 bits, signed or unsigned. -/
def inInt (uns : Bool) (x : W) : Int := if uns then x.toNat else x.toInt

/-- A floating lane value: its exact value, and NV if it is a signalling NaN (R72). -/
def inFl (t : VTy) (x : W) : Ex × Flags :=
  let f := fmOf t
  let b := x.toNat % (2 * f.sign)
  (f.val b, flagIf (f.isSnan b) flNV)

def outFl (r : Nat × Flags) : W × Flags := (BitVec.ofNat 32 r.1, r.2)

/-- Round an exact value into a lane of type `t`. -/
def roundLane (t : VTy) (m : Xm) (u : Nat) (x : Ex) : W × Flags := outFl (roundFP (fmOf t) m.rm m.sat u x)

/-- The exact value of lane bits under any type (R117, R133). -/
def inTy (t : Ty) (x : W) : Ex × Flags :=
  match tyFm t with
  | some f =>
    let b := x.toNat % (2 * f.sign)
    (f.val b, flagIf (f.isSnan b) flNV)
  | none =>
    let w := tyWidth t
    let n := x.toNat % 2 ^ w
    match t with
    | .l6 => (l6Val n, 0)
    | .h1 => (hVal 1 n, 0)
    | .h2 => (hVal 2 n, 0)
    | .h4 => (hVal 4 n, 0)
    | .h8 => (hVal 8 n, 0)
    | _ => (exInt (if tySigned t then signed w n else n), 0)

/-- Range of an integer type. -/
def tyMin (t : Ty) : Int := if tySigned t then -(2 ^ (tyWidth t - 1)) else 0
def tyMax (t : Ty) : Int := if tySigned t then 2 ^ (tyWidth t - 1) - 1 else 2 ^ tyWidth t - 1

/-- Round to an integer in [lo, hi]: the nearest end with NV alone outside it, NaN gives 0 with NV (R99). -/
def roundInt (lo hi : Int) (rm : Rm) (x : Ex) : Int × Flags :=
  match x with
  | .nan => (0, flNV)
  | .inf s => (if s then lo else hi, flNV)
  | .zero _ => (0, 0)
  | .fin n d =>
    let k := exRint rm (.fin n d)
    if k < lo then (lo, flNV) else if hi < k then (hi, flNV)
    else (k, flagIf (n.natAbs % d != 0) flNX)

/-- The lane pattern of an integer: sign- or zero-extended to 32 bits (R117). -/
def outInt (t : Ty) (k : Int) : W :=
  let w := tyWidth t
  if tySigned t then ofInt32 (signed w (wrapNat w k)) else BitVec.ofNat 32 (wrapNat w k)

/-- `VCVT` of one lane (R133). -/
def convert (dt st : Ty) (m : Xm) (u : Nat) (b : W) : W × Flags :=
  let x := inTy st b
  match tyFm dt with
  | some f =>
    let r := roundFP f m.rm m.sat u x.1
    (BitVec.ofNat 32 r.1, r.2 ||| x.2)
  | none =>
    let hh (n : Nat) : W × Flags :=
      let r := toH n m.rm x.1
      (BitVec.ofNat 32 r.1, r.2 ||| x.2)
    match dt with
    | .l6 =>
      let r := toL6 m.rm x.1
      (BitVec.ofNat 32 r.1, r.2 ||| x.2)
    | .h1 => hh 1
    | .h2 => hh 2
    | .h4 => hh 4
    | .h8 => hh 8
    | _ =>
      if st.isInt then
        let k := exFloor x.1
        (outInt dt (if m.sat then clampInt (tyMin dt) (tyMax dt) k else k), 0)
      else
        let r := roundInt (tyMin dt) (tyMax dt) m.rm x.1
        (outInt dt r.1, r.2)

/-- Value of inline constant `n` in the integer column; 14 and 15 are the ends of the type (R56). -/
def constInt (n : Nat) (lo hi : Int) : Int :=
  match n with
  | 0 => 1
  | 1 => 2
  | 2 => 3
  | 3 => 4
  | 4 => 8
  | 5 => 16
  | 6 => 32
  | 7 => 64
  | 8 => 127
  | 9 => -1
  | 10 => -2
  | 11 => 255
  | 12 => 24
  | 13 => 31
  | 14 => hi
  | _ => lo

/-- Value of inline constant `n` < 14 in the floating column, as n ÷ 8 (R56). -/
def constEighths (n : Nat) : Int :=
  match n with
  | 0 => 8
  | 1 => 16
  | 2 => 24
  | 3 => 32
  | 4 => 64
  | 5 => 128
  | 6 => 4
  | 7 => 2
  | 8 => 1
  | 9 => -8
  | 10 => -16
  | 11 => 12
  | 12 => -4
  | _ => 2048

/-- Pattern of an inline constant in a floating format (R56). -/
def constFl (f : Fm) (n : Nat) : Nat :=
  if n == 14 then f.maxMag
  else if n == 15 then f.maxMag + f.sign
  else (roundFP f .rne false 0 (.fin (constEighths n) 8)).1

/-- Pattern of an inline constant under a type (R56): integers narrower than 32 bits in two's complement of the type's
width. -/
def constTy (t : Ty) (n : Nat) : W :=
  match tyFm t with
  | some f => BitVec.ofNat 32 (constFl f n)
  | none => BitVec.ofNat 32 (wrapNat (tyWidth t) (constInt n (tyMin t) (tyMax t)))

end Sys2Proof.Machine
end

