-- ==== Sys2Proof/Decode.lean ====
section
/-! DEFINITION. Decoding: from a 64-bit word to an instruction or the first failed check of R67 (form, opcode, `MOD`,
fields in order), with the subcode and FIELD of R68; and the encoder, from the same encoding tables. Checks 5 to 8 of
R67 depend on the state and are made by the meanings. -/

namespace Sys2Proof

/-- The first failed check of a word: subcode (R32), FIELD code and half (R68). -/
structure Reject where
  sub   : Nat
  field : Nat
  half  : Bool
  deriving DecidableEq, Repr

abbrev Dec := Except Reject

/-! ## Fields of a full-form word (R51) -/

structure Raw where
  op  : BitVec 8
  mod : BitVec 3
  nw  : Bool
  d   : BitVec 8
  a   : BitVec 9
  b   : BitVec 9
  c   : BitVec 9
  x   : BitVec 16
  deriving DecidableEq, Repr

def Raw.ofWord (w : D) : Raw where
  op := w.extractLsb' 55 8
  mod := w.extractLsb' 52 3
  nw := w.getLsbD 51
  d := w.extractLsb' 43 8
  a := w.extractLsb' 34 9
  b := w.extractLsb' 25 9
  c := w.extractLsb' 16 9
  x := w.extractLsb' 0 16

def Raw.toWord (r : Raw) : D :=
  BitVec.ofNat 64 (r.op.toNat * 2 ^ 55 + r.mod.toNat * 2 ^ 52 + r.nw.toNat * 2 ^ 51 + r.d.toNat * 2 ^ 43
    + r.a.toNat * 2 ^ 34 + r.b.toNat * 2 ^ 25 + r.c.toNat * 2 ^ 16 + r.x.toNat)

/-! ## Source and destination fields (R53, R54) -/

def LaneSpecial.code : LaneSpecial → Nat
  | .lid => 0
  | .zero => 1
  | .ones => 2
  | .lbeat => 3
  | .lsub => 4
  | .glid => 5

def LaneSpecial.ofCode : Nat → Option LaneSpecial
  | 0 => some .lid
  | 1 => some .zero
  | 2 => some .ones
  | 3 => some .lbeat
  | 4 => some .lsub
  | 5 => some .glid
  | _ => none

def Src.dec (f : BitVec 9) : Option Src :=
  if f.getLsbD 8 then
    if f.extractLsb' 3 5 == 0 then some (.l (f.extractLsb' 0 3)) else none
  else
    let n := f.toNat
    if n < 0x80 then some (.v (f.extractLsb' 0 7))
    else if n < 0xC0 then some (.s (f.extractLsb' 0 6))
    else if n < 0xD0 then some (.f (f.extractLsb' 0 4))
    else if n < 0xE0 then (LaneSpecial.ofCode (n - 0xD0)).map .x
    else if n < 0xF0 then some (.k (f.extractLsb' 0 4))
    else none

def Src.enc : Src → BitVec 9
  | .v n => BitVec.ofNat 9 n.toNat
  | .s n => BitVec.ofNat 9 (0x80 + n.toNat)
  | .f n => BitVec.ofNat 9 (0xC0 + n.toNat)
  | .x n => BitVec.ofNat 9 (0xD0 + n.code)
  | .k n => BitVec.ofNat 9 (0xE0 + n.toNat)
  | .l n => BitVec.ofNat 9 (0x100 + n.toNat)

def VR.enc (d : VR) : BitVec 8 := BitVec.ofNat 8 d.toNat
def SR.enc (d : SR) : BitVec 8 := BitVec.ofNat 8 (0x80 + d.toNat)
def FR.enc (d : FR) : BitVec 8 := BitVec.ofNat 8 (0xC0 + d.toNat)
def SR.enc9 (d : SR) : BitVec 9 := BitVec.ofNat 9 (0x80 + d.toNat)

/-- A field check: subcode 2 at FIELD `f` unless it holds (R67 check 4). -/
def chk (ok : Bool) (f : Nat) : Dec Unit := if ok then .ok () else .error ⟨2, f, false⟩

def badMod {α : Type} : Dec α := .error ⟨1, 4, false⟩

def badOp {α : Type} : Dec α := .error ⟨0, 2, false⟩

/-- `NW` must be 0 (R58). -/
def nw0 (r : Raw) : Dec Unit := chk (!r.nw) 5

def dV (r : Raw) : Dec VR :=
  if r.d.toNat < 0x80 then .ok (r.d.extractLsb' 0 7) else .error ⟨2, 6, false⟩

def dVc (ok : VR → Bool) (r : Raw) : Dec VR :=
  if r.d.toNat < 0x80 && ok (r.d.extractLsb' 0 7) then .ok (r.d.extractLsb' 0 7) else .error ⟨2, 6, false⟩

def isS8 (n : Nat) : Bool := 0x80 ≤ n && n < 0xC0

def dS (r : Raw) : Dec SR :=
  if isS8 r.d.toNat then .ok (r.d.extractLsb' 0 6) else .error ⟨2, 6, false⟩

def dSc (ok : SR → Bool) (r : Raw) : Dec SR :=
  if isS8 r.d.toNat && ok (r.d.extractLsb' 0 6) then .ok (r.d.extractLsb' 0 6) else .error ⟨2, 6, false⟩

def dF (r : Raw) : Dec FR :=
  if 0xC0 ≤ r.d.toNat && r.d.toNat < 0xD0 then .ok (r.d.extractLsb' 0 4) else .error ⟨2, 6, false⟩

def dN (r : Raw) : Dec Unit := chk (r.d == 0) 6
def aN (r : Raw) : Dec Unit := chk (r.a == 0) 7
def bN (r : Raw) : Dec Unit := chk (r.b == 0) 8
def cN (r : Raw) : Dec Unit := chk (r.c == 0) 9
def xN (r : Raw) : Dec Unit := chk (r.x == 0) 10

/-- A source field of a class. -/
def srcF (cls : Src → Bool) (f : BitVec 9) (code : Nat) : Dec Src :=
  match Src.dec f with
  | some s => if cls s then .ok s else .error ⟨2, code, false⟩
  | none => .error ⟨2, code, false⟩

def aF (cls : Src → Bool) (r : Raw) : Dec Src := srcF cls r.a 7
def bF (cls : Src → Bool) (r : Raw) : Dec Src := srcF cls r.b 8
def cF (cls : Src → Bool) (r : Raw) : Dec Src := srcF cls r.c 9

/-- A mask triple in a source field: three registers and never a latch (R100). -/
def maskF (f : BitVec 9) (code : Nat) : Dec SR :=
  if isS8 f.toNat && SR.isMask (f.extractLsb' 0 6) then .ok (f.extractLsb' 0 6) else .error ⟨2, code, false⟩

/-! ## Codes of `MOD` and `X` -/

def VTy.code : VTy → Nat
  | .s32 => 0
  | .u32 => 1
  | .f32 => 2
  | .f16 => 3
  | .bf16 => 4

def VTy.ofCode : Nat → Option VTy
  | 0 => some .s32
  | 1 => some .u32
  | 2 => some .f32
  | 3 => some .f16
  | 4 => some .bf16
  | _ => none

def Ty.code : Ty → Nat
  | .s32 => 0
  | .u32 => 1
  | .f32 => 2
  | .f16 => 3
  | .bf16 => 4
  | .e4m3 => 5
  | .e5m2 => 6
  | .s16 => 7
  | .u16 => 8
  | .s8 => 9
  | .u8 => 10
  | .l6 => 11
  | .h1 => 12
  | .h2 => 13
  | .h4 => 14
  | .h8 => 15

def Ty.ofCode : Nat → Option Ty
  | 0 => some .s32
  | 1 => some .u32
  | 2 => some .f32
  | 3 => some .f16
  | 4 => some .bf16
  | 5 => some .e4m3
  | 6 => some .e5m2
  | 7 => some .s16
  | 8 => some .u16
  | 9 => some .s8
  | 10 => some .u8
  | 11 => some .l6
  | 12 => some .h1
  | 13 => some .h2
  | 14 => some .h4
  | 15 => some .h8
  | _ => none

def Rm.code : Rm → Nat
  | .rne => 0
  | .rz => 1
  | .ru => 2
  | .rd => 3
  | .sr => 4

def Rm.ofCode : Nat → Option Rm
  | 0 => some .rne
  | 1 => some .rz
  | 2 => some .ru
  | 3 => some .rd
  | 4 => some .sr
  | _ => none

/-- `MOD` as a type code that the opcode allows (check 3 of R67). -/
def mTy (ok : VTy → Bool) (r : Raw) : Dec VTy :=
  match VTy.ofCode r.mod.toNat with
  | some t => if ok t then .ok t else badMod
  | none => badMod

/-- `MOD` 0 or 1 as a flag. -/
def m01 (r : Raw) : Dec Bool :=
  if r.mod == 0 then .ok false else if r.mod == 1 then .ok true else badMod

/-- `MOD` must be the value given. -/
def mIs (n : Nat) (r : Raw) : Dec Unit := if r.mod.toNat == n then .ok () else badMod

/-- A code below a bound. -/
def mBelow (n : Nat) (r : Raw) : Dec Nat := if r.mod.toNat < n then .ok r.mod.toNat else badMod

/-- XM: bits [15:8] as `hi`, STYPE zero, SAT and RM (R60). -/
def xmF (hi : Nat) (ok : Xm → Bool) (r : Raw) : Dec Xm :=
  match Rm.ofCode (r.x.toNat % 8) with
  | some rm =>
      let m : Xm := ⟨r.x.getLsbD 3, rm⟩
      if r.x.toNat / 256 == hi && r.x.toNat / 16 % 16 == 0 && ok m then .ok m else .error ⟨2, 10, false⟩
  | none => .error ⟨2, 10, false⟩

def Xm.none : Xm := ⟨false, .rne⟩

/-- RM and SAT of an `X` value with the bits above as `hi`. -/
def Xm.enc (m : Xm) (hi : Nat) : BitVec 16 := BitVec.ofNat 16 (hi * 256 + m.sat.toNat * 8 + m.rm.code)

/-- lo and w - 1 of a bit field, [15:10] zero (R98, R123). -/
def fieldF (r : Raw) : Dec (BitVec 5 × BitVec 5) :=
  let lo := r.x.extractLsb' 0 5
  let wm1 := r.x.extractLsb' 5 5
  if r.x.extractLsb' 10 6 == 0 && fieldFits lo wm1 then .ok (lo, wm1) else .error ⟨2, 10, false⟩

def fieldX (lo wm1 : BitVec 5) : BitVec 16 := BitVec.ofNat 16 (lo.toNat + wm1.toNat * 32)

/-- I34 = `B`:`C`:`X` (R59). -/
def Raw.i34 (r : Raw) : BitVec 34 := BitVec.ofNat 34 (r.b.toNat * 2 ^ 25 + r.c.toNat * 2 ^ 16 + r.x.toNat)

def i34b (i : BitVec 34) : BitVec 9 := i.extractLsb' 25 9
def i34c (i : BitVec 34) : BitVec 9 := i.extractLsb' 16 9
def i34x (i : BitVec 34) : BitVec 16 := i.extractLsb' 0 16

/-- I25 = `C`:`X` as an address immediate (R166); SPACE 3 has no form. -/
def I25.dec (c : BitVec 9) (x : BitVec 16) : Option I25 :=
  let space := c.extractLsb' 7 2
  let scale := c.extractLsb' 5 2
  if space == 1 then
    some (.spad scale (c.getLsbD 4) (BitVec.ofNat 20 (c.toNat % 16 * 65536 + x.toNat)))
  else if space == 3 || x.getLsbD 12 then none
  else some (.glob (space == 2) scale (c.extractLsb' 2 3) (c.extractLsb' 0 2) (x.extractLsb' 13 3) (x.extractLsb' 0 12))

def I25.encC : I25 → BitVec 9
  | .spad scale ord disp => BitVec.ofNat 9 (128 + scale.toNat * 32 + ord.toNat * 16 + disp.toNat / 65536)
  | .glob hay scale col ord _ _ =>
      BitVec.ofNat 9 ((if hay then 256 else 0) + scale.toNat * 32 + col.toNat * 4 + ord.toNat)

def I25.encX : I25 → BitVec 16
  | .spad _ _ disp => BitVec.ofNat 16 disp.toNat
  | .glob _ _ _ _ scope disp => BitVec.ofNat 16 (scope.toNat * 8192 + disp.toNat)

/-- The address immediate under a word's rule; every breach is reported at field `C` (R166). -/
def i25F (rule : MemRule) (r : Raw) : Dec I25 :=
  match I25.dec r.c r.x with
  | some i => if i.ok rule then .ok i else .error ⟨2, 9, false⟩
  | none => .error ⟨2, 9, false⟩

/-- The base of a memory operand: its class follows SPACE (R167). Under the reserved SPACE 3, for which R167 gives the base no
class, it is judged as an SP, so that FIELD 7 comes before FIELD 9. DESIGN CHOICE (log 83). -/
def mbF (r : Raw) : Dec Src := aF (if r.c.extractLsb' 7 2 == 1 then Src.sz else Src.sp) r

/-- A block base (R188, R210, R242): BSP in `X`[15]. -/
def bbF (r : Raw) : Dec Blk := do
  let a ← aF (if r.x.getLsbD 15 then Src.sz else Src.sp) r
  .ok ⟨r.x.getLsbD 15, a, r.x.extractLsb' 0 12⟩

/-- `X` of a block form: [14:13] as a slot or bank where allowed, [12] zero. -/
def blkX (slot : Bool) (r : Raw) : Dec (BitVec 2) :=
  if r.x.getLsbD 12 || (!slot && r.x.extractLsb' 13 2 != 0) then .error ⟨2, 10, false⟩
  else .ok (r.x.extractLsb' 13 2)

def Blk.x (b : Blk) (slot : BitVec 2) : BitVec 16 :=
  BitVec.ofNat 16 (b.bsp.toNat * 32768 + slot.toNat * 8192 + b.disp.toNat)

/-- The member operand (R139): MALL in `X`[15]. -/
def memberF (r : Raw) : Dec Member :=
  if r.x.getLsbD 15 then do cN r; .ok .all
  else do let c ← maskF r.c 9; .ok (.triple c)

def Member.encC : Member → BitVec 9
  | .all => 0
  | .triple c => c.enc9

def Member.mall : Member → Nat
  | .all => 1
  | .triple _ => 0

def Cop.code : Cop → Nat
  | .add => 0
  | .max => 1
  | .min => 2
  | .and => 3
  | .or => 4
  | .xor => 5

def Cop.ofCode : Nat → Option Cop
  | 0 => some .add
  | 1 => some .max
  | 2 => some .min
  | 3 => some .and
  | 4 => some .or
  | 5 => some .xor
  | _ => none

/-- `X` of a cross-lane word (R144) from its parts. -/
def laneX (m : Member) (excl : Bool) (cop g arg : Nat) : BitVec 16 :=
  BitVec.ofNat 16 (m.mall * 32768 + excl.toNat * 16384 + cop * 2048 + g * 256 + arg)

/-- `X` of a cross-lane word that uses G and ARG only where allowed; EXCL and COP zero (R143, R145). -/
def laneXF (useG useArg : Bool) (r : Raw) : Dec (BitVec 3 × BitVec 8) :=
  let g := r.x.extractLsb' 8 3
  let arg := r.x.extractLsb' 0 8
  if r.x.extractLsb' 11 4 == 0 && (if useG then segOk g else g == 0) && (useArg || arg == 0) then .ok (g, arg)
  else .error ⟨2, 10, false⟩

/-- `X` of `VSCAN` and `VRDC` (R144, R145, R152). -/
def scanXF (t : VTy) (scan : Bool) (r : Raw) : Dec (Cop × Bool × BitVec 3 × Xm) :=
  match Cop.ofCode (r.x.extractLsb' 11 3).toNat, Rm.ofCode (r.x.toNat % 8) with
  | some op, some rm =>
      let m : Xm := ⟨r.x.getLsbD 3, rm⟩
      let g := r.x.extractLsb' 8 3
      if (scan || !r.x.getLsbD 14) && segOk g && r.x.extractLsb' 4 4 == 0 && scanOk t op m then
        .ok (op, r.x.getLsbD 14, g, m)
      else .error ⟨2, 10, false⟩
  | _, _ => .error ⟨2, 10, false⟩

/-! ## Field shapes shared by several opcodes -/

/-- The fifteen binary ALU words (R97). -/
def alu (k : Bool → Bool → SR → Src → Alu2 → Instr) (r : Raw) : Dec Instr :=
  if r.mod.getLsbD 1 then badMod
  else if r.mod.getLsbD 2 then do
    let d ← dS r; let a ← aF Src.gs r; bN r; cN r
    .ok (k (r.mod.getLsbD 0) r.nw d a (.imm r.x))
  else do
    let d ← dS r; let a ← aF Src.gs r; let b ← bF Src.gs r; cN r; xN r
    .ok (k (r.mod.getLsbD 0) r.nw d a (.reg b))

/-- Vector destination, sources `A` and `B` of class GV, `C` of class N. -/
def vab (r : Raw) : Dec (VR × Src × Src) := do
  let d ← dV r; let a ← aF Src.gv r; let b ← bF Src.gv r; cN r
  .ok (d, a, b)

/-- Vector destination, source `B` only. -/
def vb (cls : Src → Bool) (r : Raw) : Dec (VR × Src) := do
  let d ← dV r; aN r; let b ← bF cls r; cN r
  .ok (d, b)

/-- Vector destination, three sources of class GV. -/
def vabc (r : Raw) : Dec (VR × Src × Src × Src) := do
  let d ← dV r; let a ← aF Src.gv r; let b ← bF Src.gv r; let c ← cF Src.gv r
  .ok (d, a, b, c)

/-- A floating type code. -/
def mFl (r : Raw) : Dec VTy := mTy VTy.isFloat r

/-- Two vector sources under `MOD` 0-4 with XM. -/
def arith2 (k : VTy → Bool → VR → Src → Src → Xm → Instr) (r : Raw) : Dec Instr := do
  let t ← mTy (fun _ => true) r
  let (d, a, b) ← vab r
  let m ← xmF 0 (·.arith t) r
  .ok (k t r.nw d a b m)

/-- Three vector sources under a floating type with XM. -/
def float3 (k : VTy → Bool → VR → Src → Src → Src → Xm → Instr) (r : Raw) : Dec Instr := do
  let t ← mFl r
  let (d, a, b, c) ← vabc r
  let m ← xmF 0 (fun _ => true) r
  .ok (k t r.nw d a b c m)

/-- Two vector sources, no `MOD`, XM all zero. -/
def bit2 (k : Bool → VR → Src → Src → Instr) (r : Raw) : Dec Instr := do
  mIs 0 r
  let (d, a, b) ← vab r
  xN r
  .ok (k r.nw d a b)

/-- Two vector sources under signed or unsigned, `X` zero. -/
def su2 (k : Bool → Bool → VR → Src → Src → Instr) (r : Raw) : Dec Instr := do
  let u ← m01 r
  let (d, a, b) ← vab r
  xN r
  .ok (k u r.nw d a b)

/-- `VMIN`, `VMAX`: any type, `X` zero. -/
def minmax (k : VTy → Bool → VR → Src → Src → Instr) (r : Raw) : Dec Instr := do
  let t ← mTy (fun _ => true) r
  let (d, a, b) ← vab r
  xN r
  .ok (k t r.nw d a b)

/-- `VABS`, `VNEG`: SAT only for s32. -/
def absneg (k : VTy → Bool → VR → Src → Bool → Instr) (r : Raw) : Dec Instr := do
  let t ← mTy (· != .u32) r
  let (d, b) ← vb Src.gv r
  let m ← xmF 0 (fun m => m.rm == .rne && (!m.sat || t == .s32)) r
  .ok (k t r.nw d b m.sat)

/-- One source under a floating type, RM only. -/
def float1 (ok : Rm → Bool) (k : VTy → Bool → VR → Src → Rm → Instr) (r : Raw) : Dec Instr := do
  let t ← mFl r
  let (d, b) ← vb Src.gv r
  let m ← xmF 0 (fun m => !m.sat && ok m.rm) r
  .ok (k t r.nw d b m.rm)

/-- A special function (R137): one source, `X` zero. -/
def spf (k : VTy → Bool → VR → Src → Instr) (r : Raw) : Dec Instr := do
  let t ← mFl r
  let (d, b) ← vb Src.gv r
  xN r
  .ok (k t r.nw d b)

/-- `VRMAX`, `VRMIN`: the segment code in `X`[10:8]. -/
def seg1 (k : VTy → Bool → VR → Src → BitVec 3 → Instr) (r : Raw) : Dec Instr := do
  let t ← mFl r
  let d ← dV r; let a ← aF Src.gv r; bN r; cN r
  let g := r.x.extractLsb' 8 3
  chk (r.x.extractLsb' 11 5 == 0 && segOk g && r.x.extractLsb' 0 8 == 0) 10
  .ok (k t r.nw d a g)

/-- A vector memory word: vector register in `D`, base, vector index, I25. -/
def memVF (rule : MemRule) (dOk : VR → Bool) (k : VR → Src → Src → I25 → Instr) (r : Raw) : Dec Instr := do
  nw0 r
  let d ← dVc dOk r; let a ← mbF r; let b ← bF Src.mi r; let i ← i25F rule r
  .ok (k d a b i)

/-- A memory word without an index. -/
def mem0F {α : Type} (rule : MemRule) (dd : Raw → Dec α) (k : α → Src → I25 → Instr) (r : Raw) : Dec Instr := do
  nw0 r
  let d ← dd r; let a ← mbF r; bN r; let i ← i25F rule r
  .ok (k d a i)

/-- An engine word in block form (R188). -/
def blkF (k : FR → Blk → Instr) (r : Raw) : Dec Instr := do
  nw0 r
  let d ← dF r; let b ← bbF r; bN r; cN r; let _ ← blkX false r
  .ok (k d b)

/-- A tile-form or relation word: block with a bank or slot (R210, R242). -/
def tileF (k : FR → Blk → BitVec 2 → Instr) (r : Raw) : Dec Instr := do
  nw0 r
  let d ← dF r; let b ← bbF r; bN r; cN r; let s ← blkX true r
  .ok (k d b s)

/-- A control word with no operands. -/
def bare (i : Instr) (r : Raw) : Dec Instr := do
  nw0 r; dN r; aN r; bN r; cN r; xN r
  .ok i

/-- A control word with a target pair in `A`. -/
def target (k : Src → Instr) (r : Raw) : Dec Instr := do
  mIs 0 r; nw0 r; dN r; let a ← aF Src.sp r; bN r; cN r; xN r
  .ok (k a)

/-! ## The opcode rows (R65) -/

/-- Rows 0x00 and 0x01, scalar words (R97, R98, R100). -/
def row0 (lo : Nat) (r : Raw) : Dec Instr :=
  match lo with
  | 0 => alu Instr.sadd r
  | 1 => alu Instr.ssub r
  | 2 => alu Instr.smul r
  | 3 => alu Instr.smulh r
  | 4 => alu Instr.sdiv r
  | 5 => alu Instr.srem r
  | 6 => alu Instr.smin r
  | 7 => alu Instr.smax r
  | 8 => alu Instr.sand r
  | 9 => alu Instr.sor r
  | 10 => alu Instr.sxor r
  | 11 => alu Instr.sandn r
  | 12 => alu Instr.sshl r
  | 13 => alu Instr.sshr r
  | 14 => alu Instr.srot r
  | _ => do
    mIs 0 r
    let d ← dS r; let a ← aF Src.gsf r; bN r; cN r; xN r
    .ok (.smov r.nw d a)

def SCond.code : SCond → Nat
  | .eq => 0
  | .ne => 1
  | .slt => 2
  | .sle => 3
  | .ult => 4
  | .ule => 5

def scondM (r : Raw) : Dec SCond :=
  match r.mod.toNat with
  | 0 => .ok .eq
  | 1 => .ok .ne
  | 2 => .ok .slt
  | 3 => .ok .sle
  | 4 => .ok .ult
  | 5 => .ok .ule
  | _ => badMod

def ExtMode.code : ExtMode → Nat
  | .s8 => 0
  | .u8 => 1
  | .s16 => 2
  | .u16 => 3
  | .s32 => 4
  | .u32 => 5

def extM (r : Raw) : Dec ExtMode :=
  match r.mod.toNat with
  | 0 => .ok .s8
  | 1 => .ok .u8
  | 2 => .ok .s16
  | 3 => .ok .u16
  | 4 => .ok .s32
  | 5 => .ok .u32
  | _ => badMod

/-- Scalar destination and two scalar sources. -/
def sab (cls : Src → Bool) (r : Raw) : Dec (SR × Src × Src) := do
  let d ← dS r; let a ← aF cls r; let b ← bF cls r; cN r
  .ok (d, a, b)

/-- Scalar destination and one scalar source, `X` zero. -/
def s1 (k : Bool → SR → Src → Instr) (r : Raw) : Dec Instr := do
  mIs 0 r
  let d ← dS r; let a ← aF Src.gs r; bN r; cN r; xN r
  .ok (k r.nw d a)

def maskWord (r : Raw) : Dec Instr :=
  match r.mod.toNat with
  | 0 => do
    nw0 r; let d ← dSc SR.isMask r; let a ← aF Src.gs r; bN r; cN r; xN r
    .ok (.smask r.nw (.first d a))
  | 1 => do
    nw0 r; let d ← dSc SR.isMask r; let a ← maskF r.a 7; let b ← maskF r.b 8; cN r; xN r
    .ok (.smask r.nw (.and d a b))
  | 2 => do
    nw0 r; let d ← dSc SR.isMask r; let a ← maskF r.a 7; let b ← maskF r.b 8; cN r; xN r
    .ok (.smask r.nw (.or d a b))
  | 3 => do
    nw0 r; let d ← dSc SR.isMask r; let a ← maskF r.a 7; let b ← maskF r.b 8; cN r; xN r
    .ok (.smask r.nw (.andn d a b))
  | 4 => do
    let d ← dS r; let a ← maskF r.a 7; bN r; cN r; xN r
    .ok (.smask r.nw (.cnt d a))
  | 5 => do
    let d ← dS r; let a ← maskF r.a 7; bN r; cN r; xN r
    .ok (.smask r.nw (.low d a))
  | _ => badMod

def row1 (lo : Nat) (r : Raw) : Dec Instr :=
  match lo with
  | 0 =>
    match r.mod.toNat with
    | 0 => do
      let d ← dS r; aN r; chk (r.b.toNat < 128) 8
      .ok (.smovi r.nw d (r.i34.extractLsb' 0 32))
    | 1 => do
      nw0 r; let d ← dSc SR.isPair r; aN r
      .ok (.smoviP d r.i34)
    | _ => badMod
  | 1 => do
    let cc ← scondM r
    let (d, a, b) ← sab Src.gs r
    xN r
    .ok (.scmp cc r.nw d a b)
  | 2 => do
    mIs 0 r
    let d ← dS r; let a ← aF Src.gs r; let b ← bF Src.gs r; let c ← cF Src.gs r; xN r
    .ok (.ssel r.nw d a b c)
  | 3 => s1 Instr.sclz r
  | 4 => s1 Instr.spopc r
  | 5 => do
    let z ← m01 r
    let d ← dS r; let a ← aF Src.gs r; bN r; cN r; let (l, w) ← fieldF r
    .ok (.sbfx z r.nw d a l w)
  | 6 => do
    mIs 0 r
    let (d, a, b) ← sab Src.gs r
    let (l, w) ← fieldF r
    .ok (.sbfi r.nw d a b l w)
  | 7 =>
    match r.mod.toNat with
    | 0 => do
      nw0 r; let d ← dSc SR.isPair r; let a ← aF Src.sp r; let b ← bF Src.sp r; cN r; xN r
      .ok (.saddp d a (.pair b))
    | 1 => do
      nw0 r; let d ← dSc SR.isPair r; let a ← aF Src.sp r; let b ← bF Src.gs r; cN r; xN r
      .ok (.saddp d a (.sext b))
    | 4 => do
      nw0 r; let d ← dSc SR.isPair r; let a ← aF Src.sp r; bN r; cN r
      .ok (.saddp d a (.imm r.x))
    | _ => badMod
  | 8 =>
    match r.mod.toNat with
    | 2 => do
      nw0 r; let d ← dSc SR.isPair r; aN r
      .ok (.sleaPc d r.i34)
    | _ => do
      let z ← m01 r
      nw0 r; let d ← dSc SR.isPair r; let a ← aF Src.sp r; let b ← bF Src.gs r; cN r; chk (r.x.toNat < 4) 10
      .ok (.slea z d a b (r.x.extractLsb' 0 2))
  | 9 => do
    let m ← extM r
    chk (!m.wide || !r.nw) 5
    let d ← dSc (fun d => !m.wide || d.isPair) r; let a ← aF Src.gs r; bN r; cN r; xN r
    .ok (.sext m r.nw d a)
  | 10 => do
    let _ ← mBelow 4 r
    let d ← dS r; let a ← aF Src.gs r; bN r; cN r; let m ← xmF 0 (fun m => !m.sat && m.rm.noSr) r
    .ok (.scvt (r.mod.extractLsb' 0 2) r.nw d a m.rm)
  | 11 => do
    mIs 2 r
    let (d, a, b) ← sab Src.gs r
    let m ← xmF 0 (fun m => !m.sat) r
    .ok (.sfadd r.nw d a b m.rm)
  | 12 => do
    mIs 2 r
    let (d, a, b) ← sab Src.gs r
    let m ← xmF 0 (fun m => !m.sat) r
    .ok (.sfmul r.nw d a b m.rm)
  | 13 => maskWord r
  | 14 => do
    let cc ← scondM r
    let (d, a, b) ← sab Src.sp r
    xN r
    .ok (.scmpp cc r.nw d a b)
  | _ => badOp

def lscopeM (base : Nat) (n : Nat) : Option LScope :=
  if n == base then some .die
  else if n == base + 1 then some .pkg
  else if n == base + 2 then some .pod
  else none

def LScope.code : LScope → Nat
  | .die => 0
  | .pkg => 1
  | .pod => 2

/-- Row 0x20, control words (R101). -/
def row2 (lo : Nat) (r : Raw) : Dec Instr :=
  match lo with
  | 0 => do
    let n ← m01 r
    nw0 r; dN r; let a ← maskF r.a 7
    .ok (.brv n a (BitVec.ofNat 18 (r.b.toNat * 512 + r.c.toNat)) r.x)
  | 1 => do mIs 0 r; nw0 r; dN r; aN r; .ok (.bra r.i34)
  | 2 => do mIs 0 r; bare .join r
  | 3 =>
    match r.mod.toNat with
    | 0 => do nw0 r; let d ← dSc SR.isPair r; aN r; .ok (.call d r.i34)
    | 1 => do
      nw0 r; let d ← dSc SR.isPair r; let a ← aF Src.sp r; bN r; cN r; xN r
      .ok (.callR d a)
    | _ => badMod
  | 4 => target Instr.ret r
  | 5 => do mIs 0 r; bare .exit r
  | 6 => do mIs 0 r; nw0 r; dN r; aN r; bN r; cN r; .ok (.trap r.x)
  | 7 => do
    let n ← m01 r
    bare (if n then .eretNext else .eret) r
  | 8 =>
    let go (c : Ctr) : Dec Instr := do
      nw0 r; dN r; aN r; bN r; cN r; chk (r.x.toNat < 64) 10
      .ok (.waitc c (r.x.extractLsb' 0 6))
    match r.mod.toNat with
    | 0 => go .vl
    | 1 => go .sp
    | 2 => go .st
    | 3 => go .tr
    | _ => badMod
  | 9 => do mIs 0 r; bare .yield r
  | 10 => do
    mIs 0 r; nw0 r; let d ← dF r; let a ← aF Src.sp r; bN r; cN r; xN r
    .ok (.spawn d a)
  | 11 =>
    match lscopeM 0 r.mod.toNat with
    | some sc => do
      nw0 r; let d ← dF r; let a ← aF Src.sp r; let b ← bF Src.sp r; cN r; chk (r.x.toNat < 8) 10
      .ok (.launch sc d a b (r.x.extractLsb' 0 3))
    | none => badMod
  | 12 => do
    mIs 0 r; nw0 r; let d ← dF r; let a ← aF Src.sp r; bN r; cN r; xN r
    .ok (.cancel d a)
  | 13 => do
    mIs 0 r; nw0 r; dN r; let a ← aF Src.gs r; bN r; cN r; xN r
    .ok (.stepadv a)
  | 14 => target Instr.brx r
  | _ => do mIs 0 r; bare .nop r

/-- Row 0x30 (R121, R124). -/
def row3 (lo : Nat) (r : Raw) : Dec Instr :=
  match lo with
  | 0 => arith2 Instr.vadd r
  | 1 => arith2 Instr.vsub r
  | 2 => arith2 Instr.vmul r
  | 3 => su2 Instr.vmulh r
  | 4 => do
    let u ← m01 r
    let (d, a, b, c) ← vabc r
    let m ← xmF 0 (fun m => m.rm == .rne) r
    .ok (.vmad u r.nw d a b c m.sat)
  | 5 => minmax Instr.vmin r
  | 6 => minmax Instr.vmax r
  | 7 => absneg Instr.vabs r
  | 8 => absneg Instr.vneg r
  | 9 => bit2 Instr.vand r
  | 10 => bit2 Instr.vor r
  | 11 => bit2 Instr.vxor r
  | 12 => bit2 Instr.vandn r
  | 13 => su2 Instr.vshl r
  | 14 => su2 Instr.vshr r
  | _ => bit2 Instr.vrot r

def VCond.code : VCond → Nat
  | .eq => 0
  | .ne => 1
  | .lt => 2
  | .le => 3
  | .gt => 4
  | .ge => 5
  | .un => 6

def VCond.ofCode : Nat → Option VCond
  | 0 => some .eq
  | 1 => some .ne
  | 2 => some .lt
  | 3 => some .le
  | 4 => some .gt
  | 5 => some .ge
  | 6 => some .un
  | _ => none

def Dot4.code : Dot4 → Nat
  | .s8 => 0
  | .u8 => 1
  | .s8u8 => 2
  | .e4m3 => 3
  | .e5m2 => 4

def Dot4.ofCode : Nat → Option Dot4
  | 0 => some .s8
  | 1 => some .u8
  | 2 => some .s8u8
  | 3 => some .e4m3
  | 4 => some .e5m2
  | _ => none

def Dot4.isFloat : Dot4 → Bool
  | .e4m3 => true
  | .e5m2 => true
  | _ => false

/-- Row 0x40 (R121-R123, R127, R128, R132). -/
def row4 (lo : Nat) (r : Raw) : Dec Instr :=
  match lo with
  | 0 => do mIs 0 r; let (d, b) ← vb Src.gv r; xN r; .ok (.vclz r.nw d b)
  | 1 => do mIs 0 r; let (d, b) ← vb Src.gv r; xN r; .ok (.vpopc r.nw d b)
  | 2 => do
    let z ← m01 r
    let (d, b) ← vb Src.gv r
    let (l, w) ← fieldF r
    .ok (.vbfx z r.nw d b l w)
  | 3 => do
    mIs 0 r
    let (d, a, b) ← vab r
    let (l, w) ← fieldF r
    .ok (.vbfi r.nw d a b l w)
  | 4 => do
    mIs 0 r
    let d ← dV r; let a ← aF Src.gv r; let b ← bF Src.gv r; let c ← maskF r.c 9; xN r
    .ok (.vsel r.nw d a b c)
  | 5 => do
    let t ← mTy (fun _ => true) r
    nw0 r; let d ← dSc SR.isMask r; let a ← aF Src.gv r; let b ← bF Src.gv r; cN r
    match VCond.ofCode (r.x.extractLsb' 8 3).toNat with
    | some cc => do
      chk (r.x.extractLsb' 11 5 == 0 && r.x.extractLsb' 0 8 == 0 && (cc != .un || t.isFloat)) 10
      .ok (.vcmp t cc d a b)
    | none => .error ⟨2, 10, false⟩
  | 6 => do mIs 0 r; let (d, b) ← vb Src.gv r; xN r; .ok (.vmov r.nw d b)
  | 7 => do
    let t ← mTy (fun _ => true) r
    let d ← dV r; aN r; bN r; chk ((t != .f16 && t != .bf16) || r.c == 0) 9
    .ok (.vmovi t r.nw d (BitVec.ofNat 25 (r.c.toNat * 65536 + r.x.toNat)))
  | 8 =>
    match Dot4.ofCode r.mod.toNat with
    | some e => do
      let (d, a, b, c) ← vabc r
      let m ← xmF 0 (fun m => e.isFloat || m.rm == .rne) r
      .ok (.vdot4 e r.nw d a b c m)
    | none => badMod
  | 9 => do
    let u ← m01 r
    let (d, a, b, c) ← vabc r
    let m ← xmF 0 (fun m => m.rm == .rne) r
    .ok (.vsad u r.nw d a b c m.sat)
  | 10 => su2 Instr.vavg r
  | 11 => su2 Instr.vdiv r
  | 12 => su2 Instr.vrem r
  | 13 => do
    let c ← m01 r
    let (d, x, y, z) ← vabc r
    xN r
    .ok (.vaddc c r.nw d x y z)
  | 14 => do
    let t ← mTy (fun _ => true) r
    let (d, a, b, c) ← vabc r
    xN r
    .ok (.vclmp t r.nw d a b c)
  | _ => badOp

def SgnVar.code : SgnVar → Nat
  | .cp => 0
  | .neg => 1
  | .xor => 2

/-- A float type code of `VCLASS`. -/
def mClass (r : Raw) : Dec Ty :=
  match Ty.ofCode r.mod.toNat with
  | some t => if t.isFloat then .ok t else badMod
  | none => badMod

/-- Row 0x50 (R124, R126, R129, R132). -/
def row5 (lo : Nat) (r : Raw) : Dec Instr :=
  match lo with
  | 0 => float3 Instr.vfma r
  | 1 => float3 Instr.vfms r
  | 2 => float3 Instr.vfnma r
  | 3 => do
    let t ← mFl r
    let (d, a, b) ← vab r
    let m ← xmF 0 (fun _ => true) r
    .ok (.vfdiv t r.nw d a b m)
  | 4 => float1 (fun _ => true) Instr.vsqrt r
  | 5 => float1 Rm.noSr Instr.vrint r
  | 6 => float1 (fun _ => true) Instr.vfrac r
  | 7 => do
    let t ← mClass r
    let (d, b) ← vb Src.gv r
    xN r
    .ok (.vclass t r.nw d b)
  | 8 => do
    let t ← mFl r
    let (d, a, b) ← vab r
    match r.x.toNat with
    | 0 => .ok (.vsgnj t .cp r.nw d a b)
    | 256 => .ok (.vsgnj t .neg r.nw d a b)
    | 512 => .ok (.vsgnj t .xor r.nw d a b)
    | _ => .error ⟨2, 10, false⟩
  | 9 => do
    let t ← mFl r
    let (d, a, b) ← vab r
    let m ← xmF 0 (fun _ => true) r
    .ok (.vscale t r.nw d a b m)
  | 10 => spf Instr.vexpo r
  | 11 => seg1 Instr.vrmax r
  | 12 => seg1 Instr.vrmin r
  | 13 => do
    let t ← mFl r
    let d ← dV r; let a ← aF Src.gv r; bN r; cN r
    let g := r.x.extractLsb' 8 3
    let m ← xmF (r.x.extractLsb' 8 3).toNat (fun _ => segOk g) r
    .ok (.vradd t r.nw d a g m)
  | 14 => do
    let t ← mTy (fun t => t == .f16 || t == .bf16) r
    let (d, a, b, c) ← vabc r
    let m ← xmF 0 (fun _ => true) r
    .ok (.vdot2 t r.nw d a b c m)
  | _ => float3 Instr.vlerp r

def QTy.code : QTy → Nat
  | .e4m3 => 5
  | .e5m2 => 6
  | .l6 => 11
  | .h4 => 14

def QTy.ofCode : Nat → Option QTy
  | 5 => some .e4m3
  | 6 => some .e5m2
  | 11 => some .l6
  | 14 => some .h4
  | _ => none

def HTy.code : HTy → Nat
  | .h1 => 12
  | .h2 => 13
  | .h4 => 14
  | .h8 => 15

def HTy.ofCode : Nat → Option HTy
  | 12 => some .h1
  | 13 => some .h2
  | 14 => some .h4
  | 15 => some .h8
  | _ => none

/-- Format code in `X`[11:8] for a block-quantisation word. -/
def qX (r : Raw) : Option QTy := QTy.ofCode (r.x.extractLsb' 8 4).toNat

def QTy.isLH : QTy → Bool
  | .l6 => true
  | .h4 => true
  | _ => false

/-- A constant is no source of an L6 or H value (R56); an unknown format in `X` is reported at `X`. -/
def qCls (r : Raw) : Src → Bool := fun s =>
  s.gv && (s.notK || !(match qX r with | some q => q.isLH | none => false))

/-- The source class of `VCVT` by STYPE. -/
def cvtCls (r : Raw) : Src → Bool := fun s =>
  s.gv && (s.notK || !(match Ty.ofCode (r.x.extractLsb' 4 4).toNat with | some t => t.isLH | none => false))

/-- `VPLANE`, `VUNPL`: the H format in `X`[11:8], the rest of `X` zero. An inline constant in `B` is rejected in both words,
as a source of an H format (R56), though `VUNPL` reads planes there. DEDUCED (log 79). -/
def planeF (k : HTy → Bool → VR → Src → Instr) (r : Raw) : Dec Instr := do
  mIs 0 r
  let (d, b) ← vb (fun s => s.gv && s.notK) r
  match HTy.ofCode (r.x.extractLsb' 8 4).toNat with
  | some h => do
    chk (r.x.extractLsb' 12 4 == 0 && r.x.extractLsb' 0 8 == 0) 10
    .ok (k h r.nw d b)
  | none => .error ⟨2, 10, false⟩

/-- Row 0x60 (R133-R137). -/
def row6 (lo : Nat) (r : Raw) : Dec Instr :=
  match lo with
  | 0 => do
    mIs 0 r
    let (d, b) ← vb (cvtCls r) r
    match Ty.ofCode (r.x.extractLsb' 8 4).toNat, Ty.ofCode (r.x.extractLsb' 4 4).toNat, Rm.ofCode (r.x.toNat % 8) with
    | some dt, some st, some rm => do
      let m : Xm := ⟨r.x.getLsbD 3, rm⟩
      chk (r.x.extractLsb' 12 4 == 0 && vcvtOk dt st m) 10
      .ok (.vcvt dt st r.nw d b m)
    | _, _, _ => .error ⟨2, 10, false⟩
  | 1 =>
    let p := r.x.getLsbD 8
    match r.mod.toNat with
    | 3 => do let (d, a, b) ← vab r; let m ← xmF 0 (fun _ => true) r; .ok (.vpack .f16 r.nw d a b m)
    | 4 => do let (d, a, b) ← vab r; let m ← xmF 0 (fun _ => true) r; .ok (.vpack .bf16 r.nw d a b m)
    | 5 => do let (d, a, b) ← vab r; let m ← xmF p.toNat (fun _ => true) r; .ok (.vpack (.e4m3 p) r.nw d a b m)
    | 6 => do let (d, a, b) ← vab r; let m ← xmF p.toNat (fun _ => true) r; .ok (.vpack (.e5m2 p) r.nw d a b m)
    | _ => badMod
  | 2 =>
    let e := r.x.extractLsb' 8 2
    match r.mod.toNat with
    | 3 => do
      let (d, b) ← vb Src.gv r
      chk (r.x.extractLsb' 9 7 == 0 && r.x.extractLsb' 0 8 == 0) 10
      .ok (.vunpk (.f16 (r.x.getLsbD 8)) r.nw d b)
    | 4 => do
      let (d, b) ← vb Src.gv r
      chk (r.x.extractLsb' 9 7 == 0 && r.x.extractLsb' 0 8 == 0) 10
      .ok (.vunpk (.bf16 (r.x.getLsbD 8)) r.nw d b)
    | 5 => do
      let (d, b) ← vb Src.gv r
      chk (r.x.extractLsb' 10 6 == 0 && r.x.extractLsb' 0 8 == 0) 10
      .ok (.vunpk (.e4m3 e) r.nw d b)
    | 6 => do
      let (d, b) ← vb Src.gv r
      chk (r.x.extractLsb' 10 6 == 0 && r.x.extractLsb' 0 8 == 0) 10
      .ok (.vunpk (.e5m2 e) r.nw d b)
    | _ => badMod
  | 3 => do
    mIs 0 r
    let (d, a, b) ← vab r
    match qX r with
    | some q => do
      let m ← xmF q.code (fun m => m.rm.noSr || !q.isLH) r
      .ok (.vqnt q r.nw d a b m)
    | none => .error ⟨2, 10, false⟩
  | 4 => do
    mIs 0 r
    let d ← dV r; let a ← aF (qCls r) r; let b ← bF Src.gv r; cN r
    match qX r with
    | some q => do
      let m ← xmF q.code (fun m => !m.sat) r
      .ok (.vdqnt q r.nw d a b m.rm)
    | none => .error ⟨2, 10, false⟩
  | 5 => planeF Instr.vplane r
  | 6 => planeF Instr.vunpl r
  | 7 => do
    mIs 0 r
    let (d, b) ← vb Src.gv r
    match qX r with
    | some q => do
      chk (r.x.extractLsb' 12 4 == 0 && r.x.extractLsb' 0 8 == 0) 10
      .ok (.vbscl q r.nw d b)
    | none => .error ⟨2, 10, false⟩
  | 8 => spf Instr.vrcp r
  | 9 => spf Instr.vrsq r
  | 10 => spf Instr.vexp2 r
  | 11 => spf Instr.vlog2 r
  | 12 => spf Instr.vsin r
  | 13 => spf Instr.vcos r
  | 14 => spf Instr.vtanh r
  | _ => spf Instr.verf r

/-- Row 0x70 (R145). -/
def row7 (lo : Nat) (r : Raw) : Dec Instr :=
  match lo with
  | 0 => do
    let bt ← m01 r
    let d ← dV r; let a ← aF Src.gv r; let b ← bF Src.gv r; let m ← memberF r; let _ ← laneXF false false r
    .ok (.vshfl bt r.nw d a b m)
  | 1 =>
    match r.mod.toNat with
    | 0 => do
      let d ← dV r; let a ← aF Src.gv r; let b ← bF Src.gv r; let m ← memberF r; let (g, _) ← laneXF true false r
      .ok (.vbcast r.nw d a b g m)
    | 1 => do
      let d ← dV r; let a ← aF Src.gv r; bN r; let m ← memberF r; let (g, k) ← laneXF true true r
      .ok (.vbcastI r.nw d a k g m)
    | _ => badMod
  | 2 =>
    let j := r.x.extractLsb' 0 7
    let jOk := !r.x.getLsbD 7 && j != 0
    match r.mod.toNat with
    | 0 => do
      let d ← dV r; let a ← aF Src.gv r; bN r; let m ← memberF r; let _ ← laneXF false true r; chk jOk 10
      .ok (.vbfly .x r.nw d a j m)
    | 1 => do
      let d ← dV r; let a ← aF Src.gv r; let b ← bF Src.gv r; let m ← memberF r; let _ ← laneXF false true r
      chk jOk 10
      .ok (.vbfly (.lo b) r.nw d a j m)
    | 2 => do
      let d ← dV r; let a ← aF Src.gv r; let b ← bF Src.gv r; let m ← memberF r; let _ ← laneXF false true r
      chk jOk 10
      .ok (.vbfly (.hi b) r.nw d a j m)
    | _ => badMod
  | 3 => do
    mIs 0 r
    let d ← dV r; let a ← aF Src.gv r; let b ← bF Src.gv r; let m ← memberF r; let (g, _) ← laneXF true false r
    .ok (.vrotl r.nw d a b g m)
  | 4 =>
    let go (op : VoteOp) : Dec Instr := do
      nw0 r
      let d ← dSc (fun d => op != .ballot || d.isMask) r; let a ← aF Src.gv r; bN r; let m ← memberF r
      let _ ← laneXF false false r
      .ok (.vvote op d a m)
    match r.mod.toNat with
    | 0 => go .any
    | 1 => go .all
    | 2 => go .uni
    | 3 => go .ballot
    | _ => badMod
  | 5 => do
    let t ← mTy (fun _ => true) r
    let d ← dV r; let a ← aF Src.gv r; bN r; let m ← memberF r; let (op, e, g, x) ← scanXF t true r
    .ok (.vscan t op e g x r.nw d a m)
  | 6 => do
    let t ← mTy (fun _ => true) r
    let d ← dV r; let a ← aF Src.gv r; bN r; let m ← memberF r; let (op, _, g, x) ← scanXF t false r
    .ok (.vrdc t op g x r.nw d a m)
  | 7 => do
    mIs 0 r
    let d ← dV r; let a ← aF Src.gv r; let b ← maskF r.b 8; let m ← memberF r; let (g, _) ← laneXF true false r
    .ok (.vcprs g r.nw d a b m)
  | 8 => do
    mIs 0 r; nw0 r; dN r
    match Src.dec r.a with
    | some (.v n) => do
      chk n.even 7; bN r; cN r; xN r
      .ok (.xvec n)
    | _ => .error ⟨2, 7, false⟩
  | 9 => do
    mIs 0 r
    let d ← dV r; let a ← aF Src.gv r; bN r; let m ← memberF r; let _ ← laneXF false false r
    .ok (.vmatch r.nw d a m)
  | 10 =>
    let go (f : Bool) : Dec Instr := do
      let d ← dV r; aN r; bN r; cN r; xN r
      .ok (.rng f r.nw d)
    match r.mod.toNat with
    | 0 => go false
    | 2 => go true
    | _ => badMod
  | 11 => do mIs 2 r; let (d, a, b) ← vab r; xN r; .ok (.vgumb r.nw d a b)
  | 12 => do
    mIs 2 r
    let d ← dV r; let a ← aF Src.gv r; bN r; let m ← memberF r; let (g, _) ← laneXF true false r
    .ok (.vsmpl g r.nw d a m)
  | 13 => do
    let t ← mTy (fun _ => true) r
    let d ← dV r; let a ← aF Src.gv r; let b ← bF Src.gv r; let m ← memberF r; let (g, _) ← laneXF true false r
    .ok (.vtopk t g r.nw d a b m)
  | 14 => do
    let t ← mFl r
    let d ← dV r; let a ← aF Src.gv r; bN r; cN r; xN r
    .ok (.vbern t r.nw d a)
  | _ => badOp

def LdTy.code : LdTy → Nat
  | .b32 => 0
  | .u8 => 1
  | .s8 => 2
  | .u16 => 3
  | .s16 => 4

def ldM (r : Raw) : Dec LdTy :=
  match r.mod.toNat with
  | 0 => .ok .b32
  | 1 => .ok .u8
  | 2 => .ok .s8
  | 3 => .ok .u16
  | 4 => .ok .s16
  | _ => badMod

def StTy.code : StTy → Nat
  | .b32 => 0
  | .b8 => 1
  | .b16 => 2

def stM (r : Raw) : Dec StTy :=
  match r.mod.toNat with
  | 0 => .ok .b32
  | 1 => .ok .b8
  | 2 => .ok .b16
  | _ => badMod

def AOp.code : AOp → Nat
  | .add => 0
  | .smin => 1
  | .smax => 2
  | .and => 3
  | .or => 4
  | .xor => 5
  | .exch => 6
  | .fadd => 7

def aopM (r : Raw) : AOp :=
  match r.mod.toNat with
  | 0 => .add
  | 1 => .smin
  | 2 => .smax
  | 3 => .and
  | 4 => .or
  | 5 => .xor
  | 6 => .exch
  | _ => .fadd

def AOpP.code : AOpP → Nat
  | .add => 0
  | .umin => 1
  | .umax => 2
  | .and => 3
  | .or => 4
  | .xor => 5
  | .exch => 6

def aoppM (r : Raw) : Dec AOpP :=
  match r.mod.toNat with
  | 0 => .ok .add
  | 1 => .ok .umin
  | 2 => .ok .umax
  | 3 => .ok .and
  | 4 => .ok .or
  | 5 => .ok .xor
  | 6 => .ok .exch
  | _ => badMod

def anyV : VR → Bool := fun _ => true
def quadV : VR → Bool := fun d => d.toNat ≤ 124

/-- A scalar memory word: `D` of a class, scalar index. -/
def memSF (rule : MemRule) (dOk : SR → Bool) (k : SR → Src → Src → I25 → Instr) (r : Raw) : Dec Instr := do
  nw0 r
  let d ← dSc dOk r; let a ← mbF r; let b ← bF Src.sz r; let i ← i25F rule r
  .ok (k d a b i)

/-- Row 0x80 (R170, R173). -/
def row8 (lo : Nat) (r : Raw) : Dec Instr :=
  match lo with
  | 0 => do let t ← ldM r; memVF ruleLoad anyV (Instr.vld t) r
  | 1 => do let t ← stM r; memVF ruleStore anyV (Instr.vst t) r
  | 2 => do mIs 0 r; memVF ruleLoad VR.even Instr.vldp r
  | 3 => do mIs 0 r; memVF ruleStore VR.even Instr.vstp r
  | 4 =>
    if r.mod == 5 then memSF ruleLoad SR.isPair (Instr.sld none) r
    else do let t ← ldM r; memSF ruleLoad (fun _ => true) (Instr.sld (some t)) r
  | 5 =>
    if r.mod == 3 then memSF ruleStore SR.isPair (Instr.sst none) r
    else do let t ← stM r; memSF ruleStore (fun _ => true) (Instr.sst (some t)) r
  | 6 => do
    let t ← ldM r
    nw0 r
    let d ← dV r; let a ← mbF r; let b ← bF Src.sz r; let i ← i25F ruleLoad r
    .ok (.vldu t d a b i)
  | 7 => do
    let l ← m01 r
    nw0 r; dN r
    let a ← mbF r; let b ← bF Src.mi r; let i ← i25F rulePref r
    .ok (.vpref l a b i)
  | 8 => memVF ruleAtomic anyV (Instr.vatom (aopM r)) r
  | 9 => do mIs 0 r; memVF ruleAtomic VR.even Instr.vcas r
  | 10 => do let op ← aoppM r; memVF ruleAtomic VR.even (Instr.vatomp op) r
  | 11 => do mIs 0 r; memVF ruleAtomic (fun d => VR.even d && quadV d) Instr.vcasp r
  | 12 => memSF ruleAtomic (fun _ => true) (Instr.satom (aopM r)) r
  | 13 => do mIs 0 r; memSF ruleAtomic SR.isPair Instr.scas r
  | 14 => do mIs 0 r; mem0F ruleApnd dV Instr.vapnd r
  | _ => do mIs 0 r; memVF ruleLoad quadV Instr.vldw r

/-- Row 0x90 (R177). -/
def row9 (lo : Nat) (r : Raw) : Dec Instr :=
  match lo with
  | 0 => do mIs 0 r; memVF ruleStore quadV Instr.vstw r
  | 1 => do mIs 0 r; memVF ruleDld anyV Instr.dld r
  | 2 =>
    match r.mod.toNat with
    | 0 => memVF ruleDadd anyV Instr.dadd r
    | 1 => memVF ruleDaddA anyV Instr.daddA r
    | _ => badMod
  | 3 => do
    mIs 0 r
    let d ← dVc VR.even r; let a ← aF Src.ve r; let b ← bF Src.ve r; cN r; xN r
    .ok (.smerge r.nw d a b)
  | 4 => do mIs 0 r; memVF ruleStore VR.even Instr.dst r
  | 5 => do
    mIs 0 r
    let d ← dVc VR.even r; let a ← aF Src.gv r; bN r; cN r; chk (r.x.toNat < 16) 10
    .ok (.dstamp r.nw d a (r.x.extractLsb' 0 4))
  | _ => badOp

def PClass.code : PClass → Nat
  | .v => 0
  | .c => 1
  | .m => 2
  | .b => 3
  | .s => 4
  | .h => 5

def PClass.ofCode : Nat → Option PClass
  | 0 => some .v
  | 1 => some .c
  | 2 => some .m
  | 3 => some .b
  | 4 => some .s
  | 5 => some .h
  | _ => none

/-- Row 0xA0 (R180, R182, R185, R186). -/
def rowA (lo : Nat) (r : Raw) : Dec Instr :=
  match lo with
  | 0 => do
    let _ ← mBelow 6 r
    nw0 r; dN r; aN r; bN r; cN r; chk (r.x.toNat < 256) 10
    .ok (.fence r.mod (r.x.extractLsb' 0 8))
  | 1 => do
    let _ ← mBelow 6 r
    nw0 r; dN r; aN r; bN r; cN r
    match PClass.ofCode (r.x.extractLsb' 0 3).toNat, PClass.ofCode (r.x.extractLsb' 3 3).toNat with
    | some f, some t => do
      chk (r.x.extractLsb' 6 10 == 0) 10
      .ok (.xfence r.mod f t)
    | _, _ => .error ⟨2, 10, false⟩
  | 2 => do mIs 0 r; mem0F ruleBar (dSc SR.isPair) Instr.bari r
  | 3 => do
    mIs 0 r; nw0 r
    let d ← dS r; let a ← mbF r; let b ← bF Src.gs r; let i ← i25F ruleBar r
    .ok (.bara d a b i)
  | 4 => do
    mIs 0 r; nw0 r; dN r
    let a ← mbF r; let b ← bF Src.gs r; let i ← i25F ruleBar r
    .ok (.barw a b i)
  | 5 => do mIs 0 r; mem0F ruleBar dN (fun _ => Instr.bar) r
  | 6 => do mIs 0 r; mem0F ruleBar (dSc SR.isPair) Instr.barq r
  | 7 => do mIs 0 r; mem0F ruleTrg dV Instr.trgput r
  | 8 => do mIs 0 r; mem0F ruleTrg dV Instr.trgget r
  | 9 => do mIs 0 r; mem0F ruleTrg dS Instr.trgtry r
  | 10 => do mIs 0 r; bare .htake r
  | 11 => do
    mIs 0 r; nw0 r; dN r; let a ← aF Src.gs r; bN r; cN r; xN r
    .ok (.hpass a)
  | _ => badOp

/-- Row 0xB0 (R188, R196). -/
def rowB (lo : Nat) (r : Raw) : Dec Instr :=
  match lo with
  | 0 => do
    mIs 0 r; nw0 r; let d ← dS r; let a ← aF Src.fc r; bN r; cN r; xN r
    .ok (.ftest d a)
  | 1 => do mIs 0 r; mem0F ruleTrg dS Instr.fwait r
  | 2 => do
    mIs 0 r; nw0 r; dN r; let a ← aF Src.fc r; bN r; cN r; xN r
    .ok (.fcancel a)
  | 3 => do mIs 0 r; mem0F ruleFsth dF Instr.fsth r
  | 4 => do
    mIs 0 r; nw0 r
    let dsp := r.x.extractLsb' 14 2
    let ssp := r.x.extractLsb' 12 2
    let d ← dF r
    let a ← aF (Src.copyBase (dsp == 1)) r
    let b ← bF (Src.copyBase (ssp == 1)) r
    let c ← cF Src.gs r
    chk (dsp.toNat < 2 && ssp != 3) 10
    .ok (.copy d (dsp == 1) ssp a b c (r.x.extractLsb' 0 12))
  | 5 => do mIs 0 r; blkF Instr.copyt r
  | 6 => do mIs 0 r; blkF Instr.binopen r
  | 7 => do
    let l ← m01 r
    nw0 r; let d ← dF r; let a ← aF Src.sp r; let b ← bF Src.gv r; let c ← cF Src.vc r; xN r
    .ok (.binapp l d a b c)
  | 8 => do mIs 0 r; blkF Instr.binplay r
  | 9 => do mIs 0 r; blkF Instr.xsect r
  | 10 => do mIs 0 r; blkF Instr.smergeu r
  | 11 => do mIs 0 r; blkF Instr.topk r
  | 12 => do
    let v ← m01 r
    blkF (if v then Instr.cvtres else Instr.cvtcsr) r
  | 13 => do mIs 0 r; blkF Instr.taskput r
  | 14 => do mIs 0 r; blkF Instr.stsweep r
  | _ => do mIs 0 r; blkF Instr.rinv r

/-- `X` with only a bank in [14:13] (R210). -/
def accX (r : Raw) : Dec (BitVec 2) :=
  if r.x.getLsbD 15 || r.x.extractLsb' 0 13 != 0 then .error ⟨2, 10, false⟩ else .ok (r.x.extractLsb' 13 2)

/-- Row 0xC0 (R210, R242). -/
def rowC (lo : Nat) (r : Raw) : Dec Instr :=
  match lo with
  | 0 => do let z ← m01 r; tileF (Instr.cmma z) r
  | 1 => do
    let _ ← mBelow 4 r
    tileF (Instr.cmmas (if r.mod.getLsbD 1 then .s14 else .s24) (r.mod.getLsbD 0)) r
  | 2 => do mIs 0 r; tileF Instr.cstore r
  | 3 => do mIs 0 r; tileF Instr.cload r
  | 4 => do
    mIs 0 r; nw0 r; let d ← dF r; aN r; bN r; cN r; let acc ← accX r
    .ok (.czero d acc)
  | 5 => do
    let add ← m01 r
    nw0 r; let d ← dF r; aN r; bN r; cN r; chk (!r.x.getLsbD 15 && r.x.extractLsb' 0 11 == 0) 10
    .ok (.cmova add d (r.x.extractLsb' 13 2) (r.x.extractLsb' 11 2))
  | 6 => do
    mIs 0 r
    let d ← dS r; aN r; bN r; cN r
    let v0 := r.x.getLsbD 0
    let b0 := r.x.extractLsb' 1 2
    let v1 := r.x.getLsbD 3
    let b1 := r.x.extractLsb' 4 2
    chk (r.x.extractLsb' 6 10 == 0 && (!v0 || !v1 || b0 != b1)) 10
    .ok (.cspec r.nw d v0 b0 v1 b1)
  | 7 => do
    mIs 0 r; nw0 r; dN r; let a ← aF Src.gsf r; bN r; cN r; xN r
    .ok (.cresolve a)
  | 8 => do mIs 0 r; tileF Instr.relld r
  | 9 => do
    mIs 0 r; nw0 r
    let d ← dF r; let b ← bbF r; let n ← bF Src.gs r; cN r; let s ← blkX true r
    .ok (.lblsum d b s n)
  | 10 => do
    mIs 0 r
    let d ← dS r; let a ← aF Src.sp r; let b ← bF Src.gs r; let c ← cF Src.gs r; chk (r.x.toNat < 256) 10
    .ok (.draft r.nw d a b c (r.x.extractLsb' 0 8))
  | 11 => do
    mIs 0 r; nw0 r; let d ← dF r; let a ← aF Src.gs r; bN r; cN r; xN r
    .ok (.accept d a)
  | 12 => do
    mIs 0 r
    let d ← dV r; aN r; let b ← bF Src.gs r; cN r; let acc ← accX r
    .ok (.crdv r.nw d b acc)
  | 13 => do
    mIs 0 r; nw0 r
    let d ← dV r; aN r; let b ← bF Src.gs r; cN r; let acc ← accX r
    .ok (.cwrv d b acc)
  | 14 => do
    mIs 0 r; nw0 r
    let d ← dF r; let a ← aF Src.gs r; let b ← bF Src.gs r; cN r
    match Rm.ofCode (r.x.extractLsb' 0 3).toNat with
    | some rm => do
      chk (!r.x.getLsbD 15 && r.x.extractLsb' 3 10 == 0 && rm.noSr) 10
      .ok (.cscale d a b (r.x.extractLsb' 13 2) rm)
    | none => .error ⟨2, 10, false⟩
  | _ => do
    let relu ← m01 r
    nw0 r; let d ← dF r; let a ← aF Src.spz r; bN r; cN r; let acc ← accX r
    .ok (.cepi relu d a acc)

/-- Row 0xD0 (R210, R242). -/
def rowD (lo : Nat) (r : Raw) : Dec Instr :=
  match lo with
  | 0 =>
    match r.mod.toNat with
    | 0 => memVF ruleLblld VR.even Instr.lblld r
    | 1 => do
      nw0 r; let d ← dV r; let b ← bbF r; let row ← bF Src.gs r; cN r; let _ ← blkX false r
      .ok (.lblldAdm d b row)
    | _ => badMod
  | 1 => do mIs 0 r; memVF ruleLblst VR.even Instr.lblst r
  | 2 => do
    mIs 0 r; let d ← dS r; aN r; bN r; cN r; xN r
    .ok (.cquery r.nw d)
  | _ => badOp

/-- Row 0xE0 (R33, R292, R317). -/
def rowE (lo : Nat) (r : Raw) : Dec Instr :=
  match lo with
  | 0 => do
    mIs 0 r; let d ← dS r; aN r; bN r; cN r
    .ok (.mfs r.nw d r.x)
  | 1 => do
    mIs 0 r; nw0 r; dN r; let a ← aF Src.sc r; bN r; cN r
    .ok (.mts r.x a)
  | 2 => do mIs 0 r; blkF Instr.hayfill r
  | 3 =>
    match lscopeM 0 r.mod.toNat with
    | some sc => do
      nw0 r; let d ← dF r; let a ← aF Src.sp r; let b ← bF Src.gs r; let c ← cF Src.gs r; xN r
      .ok (.tlbinv sc d a b c)
    | none => badMod
  | 4 => do
    let p ← m01 r
    nw0 r; let d ← dF r; let a ← aF Src.sp r; let b ← bF Src.gs r; cN r; xN r
    .ok (.icinv p d a b)
  | 5 => do
    let c ← m01 r
    nw0 r; let d ← dSc SR.isPair r; aN r; bN r; cN r; xN r
    .ok (if c then .clkrdCyc d else .clkrdTime d)
  | 6 => do
    mIs 0 r; nw0 r; let d ← dSc SR.isPair r; aN r; let b ← bF Src.gs r; cN r; xN r
    .ok (.perfrd d b)
  | 7 => do
    mIs 0 r; nw0 r; dN r; let a ← aF Src.gs r; let b ← bF Src.gs r; cN r; xN r
    .ok (.perfcfg a b)
  | 8 => do
    let p ← m01 r
    nw0 r; let d ← dF r; aN r; let b ← bF Src.gs r; cN r; xN r
    .ok (.ctxsave p d b)
  | 9 => do
    let p ← m01 r
    nw0 r; let d ← dF r; aN r; let b ← bF Src.gs r; cN r; xN r
    .ok (.ctxload p d b)
  | 10 =>
    match r.mod.toNat with
    | 0 => do
      nw0 r; let d ← dF r; let a ← aF Src.sp r; bN r; cN r; xN r
      .ok (.shtblSet d a)
    | 1 => do nw0 r; let d ← dF r; aN r; bN r; cN r; xN r; .ok (.shtblFlush false d)
    | 2 => do nw0 r; let d ← dF r; aN r; bN r; cN r; xN r; .ok (.shtblFlush true d)
    | _ => badMod
  | 11 => do
    let deny ← m01 r
    nw0 r; dN r; let a ← aF Src.sp r; let b ← bF Src.gs r; cN r; xN r
    .ok (if deny then .fltresDeny a b else .fltresOk a b)
  | 12 => do
    mIs 0 r; nw0 r; let d ← dS r; let a ← aF Src.sp r; let b ← bF Src.gs r; cN r; xN r
    .ok (.idlew d a b)
  | _ => badOp

/-- A full-form word by its fields (R65, R67). -/
def decodeRaw (r : Raw) : Dec Instr :=
  let lo := r.op.toNat % 16
  match r.op.toNat / 16 with
  | 0 => row0 lo r
  | 1 => row1 lo r
  | 2 => row2 lo r
  | 3 => row3 lo r
  | 4 => row4 lo r
  | 5 => row5 lo r
  | 6 => row6 lo r
  | 7 => row7 lo r
  | 8 => row8 lo r
  | 9 => row9 lo r
  | 10 => rowA lo r
  | 11 => rowB lo r
  | 12 => rowC lo r
  | 13 => rowD lo r
  | 14 => rowE lo r
  | _ => badOp

/-! ## Pair words (R52, R62-R64) -/

def PairOp.code : PairOp → Nat
  | .vmov => 0x01
  | .vmovi => 0x02
  | .vadd => 0x03
  | .vaddi => 0x04
  | .vsub => 0x05
  | .vsubi => 0x06
  | .vmul => 0x07
  | .vmuli => 0x08
  | .vmin => 0x09
  | .vmax => 0x0A
  | .vand => 0x0B
  | .vor => 0x0C
  | .vxor => 0x0D
  | .vshl => 0x0E
  | .vshli => 0x0F
  | .vshr => 0x10
  | .vshri => 0x11
  | .vneg => 0x12
  | .vabs => 0x13
  | .smov => 0x20
  | .smovi => 0x21
  | .sadd => 0x22
  | .saddi => 0x23
  | .ssub => 0x24
  | .ssubi => 0x25
  | .sand => 0x26
  | .sor => 0x27
  | .sxor => 0x28
  | .sshl => 0x29
  | .sshli => 0x2A
  | .sshr => 0x2B
  | .sshri => 0x2C
  | .smin => 0x2D
  | .smax => 0x2E
  | .pnop => 0x3F

def PairOp.ofCode : Nat → Option PairOp
  | 0x01 => some .vmov
  | 0x02 => some .vmovi
  | 0x03 => some .vadd
  | 0x04 => some .vaddi
  | 0x05 => some .vsub
  | 0x06 => some .vsubi
  | 0x07 => some .vmul
  | 0x08 => some .vmuli
  | 0x09 => some .vmin
  | 0x0A => some .vmax
  | 0x0B => some .vand
  | 0x0C => some .vor
  | 0x0D => some .vxor
  | 0x0E => some .vshl
  | 0x0F => some .vshli
  | 0x10 => some .vshr
  | 0x11 => some .vshri
  | 0x12 => some .vneg
  | 0x13 => some .vabs
  | 0x20 => some .smov
  | 0x21 => some .smovi
  | 0x22 => some .sadd
  | 0x23 => some .saddi
  | 0x24 => some .ssub
  | 0x25 => some .ssubi
  | 0x26 => some .sand
  | 0x27 => some .sor
  | 0x28 => some .sxor
  | 0x29 => some .sshl
  | 0x2A => some .sshli
  | 0x2B => some .sshr
  | 0x2C => some .sshri
  | 0x2D => some .smin
  | 0x2E => some .smax
  | 0x3F => some .pnop
  | _ => none

/-- Check 2 on a half: `POP` is assigned. -/
def halfPop (h : BitVec 31) (k : Bool) : Dec PairOp :=
  match PairOp.ofCode (h.extractLsb' 25 6).toNat with
  | some p => .ok p
  | none => .error ⟨0, 3, k⟩

/-- Check 3 on a half: `MOD` is legal. -/
def halfTy (p : PairOp) (h : BitVec 31) (k : Bool) : Dec VTy :=
  match VTy.ofCode (h.extractLsb' 22 3).toNat with
  | some t => if p.tyOk t then .ok t else .error ⟨1, 4, k⟩
  | none => .error ⟨1, 4, k⟩

def chkH (ok : Bool) (f : Nat) (k : Bool) : Dec Unit := if ok then .ok () else .error ⟨2, f, k⟩

/-- Check 4 on a half, in the order `NW`, `D`, `B`. An unused `B` has class N and fails here, at FIELD 8; an unused IMM4
has no class and is left to the pair rules. DEDUCED (log 15). -/
def halfFields (p : PairOp) (t : VTy) (h : BitVec 31) (k : Bool) : Dec Half := do
  let nw := h.getLsbD 21
  let d := h.extractLsb' 13 8
  let f := h.extractLsb' 4 9
  let imm := h.extractLsb' 0 4
  chkH (p != .pnop || !nw) 5 k
  let dOk := if p == .pnop then d == 0 else if p.shape.vec then d.toNat < 0x80 else isS8 d.toNat
  chkH dOk 6 k
  if p.shape.hasB then
    match Src.dec f with
    | some b => do
      chkH (if p.shape.vec then b.gv else b.gs) 8 k
      .ok ⟨p, t, nw, d, some b, imm⟩
    | none => .error ⟨2, 8, k⟩
  else do
    chkH (f == 0) 8 k
    .ok ⟨p, t, nw, d, none, imm⟩

def pairHalf0 (w : D) : BitVec 31 := w.extractLsb' 31 31
def pairHalf1 (w : D) : BitVec 31 := w.extractLsb' 0 31

/-- A pair word: each check on half 0 and then on half 1 (R67), then the rules of R62, reported with FIELD 12. -/
def decodePair (w : D) : Dec Instr := do
  let p0 ← halfPop (pairHalf0 w) false
  let p1 ← halfPop (pairHalf1 w) true
  let t0 ← halfTy p0 (pairHalf0 w) false
  let t1 ← halfTy p1 (pairHalf1 w) true
  let h0 ← halfFields p0 t0 (pairHalf0 w) false
  let h1 ← halfFields p1 t1 (pairHalf1 w) true
  chkH (pairRules h0 h1) 12 false
  chkH h0.immOk 12 false
  chkH h1.immOk 12 true
  .ok (.pairWord h0 h1)

/-! ## The decoder (R50, R67 checks 1 to 4) -/

def decodeWord (w : D) : Dec Instr :=
  if !w.getLsbD 63 then decodeRaw (Raw.ofWord w)
  else if !w.getLsbD 62 then decodePair w
  else .error ⟨2, 1, false⟩

/-- The little-endian word of eight bytes (R10). -/
def wordOfBytes (b : List Byte) : D :=
  BitVec.ofNat 64 (b.foldr (fun x acc => x.toNat + 256 * acc) 0)

/-- The bytes of a word, lowest address first. -/
def bytesOfWord (w : D) : List Byte := (List.range 8).map fun i => w.extractLsb' (8 * i) 8

/-- Decode the first eight bytes; `none` where there are fewer. -/
def decodeBytes (b : List Byte) : Option (Dec Instr × List Byte) :=
  if b.length < 8 then none else some (decodeWord (wordOfBytes (b.take 8)), b.drop 8)

/-- The instruction of a table word (host interface): the word is laid out as stored and decoded. -/
def decodeTableWord (nbits w : Nat) : Option Instr :=
  match decodeBytes (bytesOfWord (BitVec.ofNat 64 (w % 2 ^ nbits))) with
  | some (.ok i, _) => some i
  | _ => none

/-! ## The encoder, from the same encoding tables -/

/-- A full-form word from its fields. -/
def mk (op mod : Nat) (nw : Bool) (d : BitVec 8) (a b c : BitVec 9) (x : BitVec 16) : Raw :=
  ⟨BitVec.ofNat 8 op, BitVec.ofNat 3 mod, nw, d, a, b, c, x⟩

def encAlu (op : Nat) (uns nw : Bool) (d : SR) (a : Src) (b : Alu2) : Raw :=
  match b with
  | .reg b => mk op uns.toNat nw d.enc a.enc b.enc 0 0
  | .imm x => mk op (4 + uns.toNat) nw d.enc a.enc 0 0 x

def encMaskOp (nw : Bool) : MaskOp → Raw
  | .first d a => mk 0x1D 0 nw d.enc a.enc 0 0 0
  | .and d a b => mk 0x1D 1 nw d.enc a.enc9 b.enc9 0 0
  | .or d a b => mk 0x1D 2 nw d.enc a.enc9 b.enc9 0 0
  | .andn d a b => mk 0x1D 3 nw d.enc a.enc9 b.enc9 0 0
  | .cnt d a => mk 0x1D 4 nw d.enc a.enc9 0 0 0
  | .low d a => mk 0x1D 5 nw d.enc a.enc9 0 0 0

def encMem (op mod : Nat) (d : BitVec 8) (a b : Src) (i : I25) : Raw := mk op mod false d a.enc b.enc i.encC i.encX
def encMem0 (op mod : Nat) (d : BitVec 8) (a : Src) (i : I25) : Raw := mk op mod false d a.enc 0 i.encC i.encX
def encBlk (op mod : Nat) (d : FR) (b : Blk) (slot : BitVec 2) : Raw := mk op mod false d.enc b.base.enc 0 0 (b.x slot)
def encAcc (acc : BitVec 2) (rest : Nat) : BitVec 16 := BitVec.ofNat 16 (acc.toNat * 8192 + rest)
/-- The fields of a full-form word; `none` for events and pair words. -/
def fieldsOf : Instr → Option Raw
  | .sadd u nw d a b => some (encAlu 0x00 u nw d a b)
  | .ssub u nw d a b => some (encAlu 0x01 u nw d a b)
  | .smul u nw d a b => some (encAlu 0x02 u nw d a b)
  | .smulh u nw d a b => some (encAlu 0x03 u nw d a b)
  | .sdiv u nw d a b => some (encAlu 0x04 u nw d a b)
  | .srem u nw d a b => some (encAlu 0x05 u nw d a b)
  | .smin u nw d a b => some (encAlu 0x06 u nw d a b)
  | .smax u nw d a b => some (encAlu 0x07 u nw d a b)
  | .sand u nw d a b => some (encAlu 0x08 u nw d a b)
  | .sor u nw d a b => some (encAlu 0x09 u nw d a b)
  | .sxor u nw d a b => some (encAlu 0x0A u nw d a b)
  | .sandn u nw d a b => some (encAlu 0x0B u nw d a b)
  | .sshl u nw d a b => some (encAlu 0x0C u nw d a b)
  | .sshr u nw d a b => some (encAlu 0x0D u nw d a b)
  | .srot u nw d a b => some (encAlu 0x0E u nw d a b)
  | .smov nw d a => some (mk 0x0F 0 nw d.enc a.enc 0 0 0)
  | .smovi nw d imm =>
      some (mk 0x10 0 nw d.enc 0 (BitVec.ofNat 9 (imm.toNat / 2 ^ 25)) (imm.extractLsb' 16 9) (imm.extractLsb' 0 16))
  | .smoviP d imm => some (mk 0x10 1 false d.enc 0 (i34b imm) (i34c imm) (i34x imm))
  | .scmp cc nw d a b => some (mk 0x11 cc.code nw d.enc a.enc b.enc 0 0)
  | .ssel nw d a b c => some (mk 0x12 0 nw d.enc a.enc b.enc c.enc 0)
  | .sclz nw d a => some (mk 0x13 0 nw d.enc a.enc 0 0 0)
  | .spopc nw d a => some (mk 0x14 0 nw d.enc a.enc 0 0 0)
  | .sbfx z nw d a lo wm1 => some (mk 0x15 z.toNat nw d.enc a.enc 0 0 (fieldX lo wm1))
  | .sbfi nw d a b lo wm1 => some (mk 0x16 0 nw d.enc a.enc b.enc 0 (fieldX lo wm1))
  | .saddp d a (.pair b) => some (mk 0x17 0 false d.enc a.enc b.enc 0 0)
  | .saddp d a (.sext b) => some (mk 0x17 1 false d.enc a.enc b.enc 0 0)
  | .saddp d a (.imm x) => some (mk 0x17 4 false d.enc a.enc 0 0 x)
  | .slea z d a b sh => some (mk 0x18 z.toNat false d.enc a.enc b.enc 0 (BitVec.ofNat 16 sh.toNat))
  | .sleaPc d off => some (mk 0x18 2 false d.enc 0 (i34b off) (i34c off) (i34x off))
  | .sext m nw d a => some (mk 0x19 m.code nw d.enc a.enc 0 0 0)
  | .scvt m nw d a rm => some (mk 0x1A m.toNat nw d.enc a.enc 0 0 (BitVec.ofNat 16 rm.code))
  | .sfadd nw d a b rm => some (mk 0x1B 2 nw d.enc a.enc b.enc 0 (BitVec.ofNat 16 rm.code))
  | .sfmul nw d a b rm => some (mk 0x1C 2 nw d.enc a.enc b.enc 0 (BitVec.ofNat 16 rm.code))
  | .smask nw op => some (encMaskOp nw op)
  | .scmpp cc nw d a b => some (mk 0x1E cc.code nw d.enc a.enc b.enc 0 0)
  | .brv n a j t =>
      some (mk 0x20 n.toNat false 0 a.enc9 (BitVec.ofNat 9 (j.toNat / 512)) (BitVec.ofNat 9 (j.toNat % 512)) t)
  | .bra off => some (mk 0x21 0 false 0 0 (i34b off) (i34c off) (i34x off))
  | .join => some (mk 0x22 0 false 0 0 0 0 0)
  | .call d off => some (mk 0x23 0 false d.enc 0 (i34b off) (i34c off) (i34x off))
  | .callR d a => some (mk 0x23 1 false d.enc a.enc 0 0 0)
  | .ret a => some (mk 0x24 0 false 0 a.enc 0 0 0)
  | .exit => some (mk 0x25 0 false 0 0 0 0 0)
  | .trap code => some (mk 0x26 0 false 0 0 0 0 code)
  | .eret => some (mk 0x27 0 false 0 0 0 0 0)
  | .eretNext => some (mk 0x27 1 false 0 0 0 0 0)
  | .waitc c n =>
      some (mk 0x28 (match c with | .vl => 0 | .sp => 1 | .st => 2 | .tr => 3) false 0 0 0 0 (BitVec.ofNat 16 n.toNat))
  | .yield => some (mk 0x29 0 false 0 0 0 0 0)
  | .spawn d a => some (mk 0x2A 0 false d.enc a.enc 0 0 0)
  | .launch sc d a b q => some (mk 0x2B sc.code false d.enc a.enc b.enc 0 (BitVec.ofNat 16 q.toNat))
  | .cancel d a => some (mk 0x2C 0 false d.enc a.enc 0 0 0)
  | .stepadv a => some (mk 0x2D 0 false 0 a.enc 0 0 0)
  | .brx a => some (mk 0x2E 0 false 0 a.enc 0 0 0)
  | .nop => some (mk 0x2F 0 false 0 0 0 0 0)
  | .vadd t nw d a b m => some (mk 0x30 t.code nw d.enc a.enc b.enc 0 (m.enc 0))
  | .vsub t nw d a b m => some (mk 0x31 t.code nw d.enc a.enc b.enc 0 (m.enc 0))
  | .vmul t nw d a b m => some (mk 0x32 t.code nw d.enc a.enc b.enc 0 (m.enc 0))
  | .vmulh u nw d a b => some (mk 0x33 u.toNat nw d.enc a.enc b.enc 0 0)
  | .vmad u nw d a b c sat => some (mk 0x34 u.toNat nw d.enc a.enc b.enc c.enc (Xm.enc ⟨sat, .rne⟩ 0))
  | .vmin t nw d a b => some (mk 0x35 t.code nw d.enc a.enc b.enc 0 0)
  | .vmax t nw d a b => some (mk 0x36 t.code nw d.enc a.enc b.enc 0 0)
  | .vabs t nw d b sat => some (mk 0x37 t.code nw d.enc 0 b.enc 0 (Xm.enc ⟨sat, .rne⟩ 0))
  | .vneg t nw d b sat => some (mk 0x38 t.code nw d.enc 0 b.enc 0 (Xm.enc ⟨sat, .rne⟩ 0))
  | .vand nw d a b => some (mk 0x39 0 nw d.enc a.enc b.enc 0 0)
  | .vor nw d a b => some (mk 0x3A 0 nw d.enc a.enc b.enc 0 0)
  | .vxor nw d a b => some (mk 0x3B 0 nw d.enc a.enc b.enc 0 0)
  | .vandn nw d a b => some (mk 0x3C 0 nw d.enc a.enc b.enc 0 0)
  | .vshl u nw d a b => some (mk 0x3D u.toNat nw d.enc a.enc b.enc 0 0)
  | .vshr u nw d a b => some (mk 0x3E u.toNat nw d.enc a.enc b.enc 0 0)
  | .vrot nw d a b => some (mk 0x3F 0 nw d.enc a.enc b.enc 0 0)
  | .vclz nw d b => some (mk 0x40 0 nw d.enc 0 b.enc 0 0)
  | .vpopc nw d b => some (mk 0x41 0 nw d.enc 0 b.enc 0 0)
  | .vbfx z nw d b lo wm1 => some (mk 0x42 z.toNat nw d.enc 0 b.enc 0 (fieldX lo wm1))
  | .vbfi nw d a b lo wm1 => some (mk 0x43 0 nw d.enc a.enc b.enc 0 (fieldX lo wm1))
  | .vsel nw d a b c => some (mk 0x44 0 nw d.enc a.enc b.enc c.enc9 0)
  | .vcmp t cc d a b => some (mk 0x45 t.code false d.enc a.enc b.enc 0 (BitVec.ofNat 16 (cc.code * 256)))
  | .vmov nw d b => some (mk 0x46 0 nw d.enc 0 b.enc 0 0)
  | .vmovi t nw d imm =>
      some (mk 0x47 t.code nw d.enc 0 0 (BitVec.ofNat 9 (imm.toNat / 65536)) (imm.extractLsb' 0 16))
  | .vdot4 e nw d a b c m => some (mk 0x48 e.code nw d.enc a.enc b.enc c.enc (m.enc 0))
  | .vsad u nw d a b c sat => some (mk 0x49 u.toNat nw d.enc a.enc b.enc c.enc (Xm.enc ⟨sat, .rne⟩ 0))
  | .vavg u nw d a b => some (mk 0x4A u.toNat nw d.enc a.enc b.enc 0 0)
  | .vdiv u nw d a b => some (mk 0x4B u.toNat nw d.enc a.enc b.enc 0 0)
  | .vrem u nw d a b => some (mk 0x4C u.toNat nw d.enc a.enc b.enc 0 0)
  | .vaddc c nw d x y z => some (mk 0x4D c.toNat nw d.enc x.enc y.enc z.enc 0)
  | .vclmp t nw d a b c => some (mk 0x4E t.code nw d.enc a.enc b.enc c.enc 0)
  | .vfma t nw d a b c m => some (mk 0x50 t.code nw d.enc a.enc b.enc c.enc (m.enc 0))
  | .vfms t nw d a b c m => some (mk 0x51 t.code nw d.enc a.enc b.enc c.enc (m.enc 0))
  | .vfnma t nw d a b c m => some (mk 0x52 t.code nw d.enc a.enc b.enc c.enc (m.enc 0))
  | .vfdiv t nw d a b m => some (mk 0x53 t.code nw d.enc a.enc b.enc 0 (m.enc 0))
  | .vsqrt t nw d b rm => some (mk 0x54 t.code nw d.enc 0 b.enc 0 (BitVec.ofNat 16 rm.code))
  | .vrint t nw d b rm => some (mk 0x55 t.code nw d.enc 0 b.enc 0 (BitVec.ofNat 16 rm.code))
  | .vfrac t nw d b rm => some (mk 0x56 t.code nw d.enc 0 b.enc 0 (BitVec.ofNat 16 rm.code))
  | .vclass t nw d b => some (mk 0x57 t.code nw d.enc 0 b.enc 0 0)
  | .vsgnj t v nw d a b => some (mk 0x58 t.code nw d.enc a.enc b.enc 0 (BitVec.ofNat 16 (v.code * 256)))
  | .vscale t nw d a b m => some (mk 0x59 t.code nw d.enc a.enc b.enc 0 (m.enc 0))
  | .vexpo t nw d b => some (mk 0x5A t.code nw d.enc 0 b.enc 0 0)
  | .vrmax t nw d a g => some (mk 0x5B t.code nw d.enc a.enc 0 0 (BitVec.ofNat 16 (g.toNat * 256)))
  | .vrmin t nw d a g => some (mk 0x5C t.code nw d.enc a.enc 0 0 (BitVec.ofNat 16 (g.toNat * 256)))
  | .vradd t nw d a g m => some (mk 0x5D t.code nw d.enc a.enc 0 0 (m.enc g.toNat))
  | .vdot2 t nw d a b c m => some (mk 0x5E t.code nw d.enc a.enc b.enc c.enc (m.enc 0))
  | .vlerp t nw d a b c m => some (mk 0x5F t.code nw d.enc a.enc b.enc c.enc (m.enc 0))
  | .vcvt dt st nw d b m =>
      some (mk 0x60 0 nw d.enc 0 b.enc 0 (BitVec.ofNat 16 (dt.code * 256 + st.code * 16 + m.sat.toNat * 8 + m.rm.code)))
  | .vpack .f16 nw d a b m => some (mk 0x61 3 nw d.enc a.enc b.enc 0 (m.enc 0))
  | .vpack .bf16 nw d a b m => some (mk 0x61 4 nw d.enc a.enc b.enc 0 (m.enc 0))
  | .vpack (.e4m3 p) nw d a b m => some (mk 0x61 5 nw d.enc a.enc b.enc 0 (m.enc p.toNat))
  | .vpack (.e5m2 p) nw d a b m => some (mk 0x61 6 nw d.enc a.enc b.enc 0 (m.enc p.toNat))
  | .vunpk (.f16 e) nw d b => some (mk 0x62 3 nw d.enc 0 b.enc 0 (BitVec.ofNat 16 (e.toNat * 256)))
  | .vunpk (.bf16 e) nw d b => some (mk 0x62 4 nw d.enc 0 b.enc 0 (BitVec.ofNat 16 (e.toNat * 256)))
  | .vunpk (.e4m3 e) nw d b => some (mk 0x62 5 nw d.enc 0 b.enc 0 (BitVec.ofNat 16 (e.toNat * 256)))
  | .vunpk (.e5m2 e) nw d b => some (mk 0x62 6 nw d.enc 0 b.enc 0 (BitVec.ofNat 16 (e.toNat * 256)))
  | .vqnt q nw d a b m => some (mk 0x63 0 nw d.enc a.enc b.enc 0 (m.enc q.code))
  | .vdqnt q nw d a b rm => some (mk 0x64 0 nw d.enc a.enc b.enc 0 (Xm.enc ⟨false, rm⟩ q.code))
  | .vplane h nw d b => some (mk 0x65 0 nw d.enc 0 b.enc 0 (BitVec.ofNat 16 (h.code * 256)))
  | .vunpl h nw d b => some (mk 0x66 0 nw d.enc 0 b.enc 0 (BitVec.ofNat 16 (h.code * 256)))
  | .vbscl q nw d b => some (mk 0x67 0 nw d.enc 0 b.enc 0 (BitVec.ofNat 16 (q.code * 256)))
  | .vrcp t nw d b => some (mk 0x68 t.code nw d.enc 0 b.enc 0 0)
  | .vrsq t nw d b => some (mk 0x69 t.code nw d.enc 0 b.enc 0 0)
  | .vexp2 t nw d b => some (mk 0x6A t.code nw d.enc 0 b.enc 0 0)
  | .vlog2 t nw d b => some (mk 0x6B t.code nw d.enc 0 b.enc 0 0)
  | .vsin t nw d b => some (mk 0x6C t.code nw d.enc 0 b.enc 0 0)
  | .vcos t nw d b => some (mk 0x6D t.code nw d.enc 0 b.enc 0 0)
  | .vtanh t nw d b => some (mk 0x6E t.code nw d.enc 0 b.enc 0 0)
  | .verf t nw d b => some (mk 0x6F t.code nw d.enc 0 b.enc 0 0)
  | .vshfl bt nw d a b m => some (mk 0x70 bt.toNat nw d.enc a.enc b.enc m.encC (laneX m false 0 0 0))
  | .vbcast nw d a b g m => some (mk 0x71 0 nw d.enc a.enc b.enc m.encC (laneX m false 0 g.toNat 0))
  | .vbcastI nw d a k g m => some (mk 0x71 1 nw d.enc a.enc 0 m.encC (laneX m false 0 g.toNat k.toNat))
  | .vbfly .x nw d a j m => some (mk 0x72 0 nw d.enc a.enc 0 m.encC (laneX m false 0 0 j.toNat))
  | .vbfly (.lo b) nw d a j m => some (mk 0x72 1 nw d.enc a.enc b.enc m.encC (laneX m false 0 0 j.toNat))
  | .vbfly (.hi b) nw d a j m => some (mk 0x72 2 nw d.enc a.enc b.enc m.encC (laneX m false 0 0 j.toNat))
  | .vrotl nw d a b g m => some (mk 0x73 0 nw d.enc a.enc b.enc m.encC (laneX m false 0 g.toNat 0))
  | .vvote op d a m =>
      some (mk 0x74 (match op with | .any => 0 | .all => 1 | .uni => 2 | .ballot => 3) false d.enc a.enc 0 m.encC
        (laneX m false 0 0 0))
  | .vscan t op e g x nw d a m =>
      some (mk 0x75 t.code nw d.enc a.enc 0 m.encC (laneX m e op.code g.toNat (x.sat.toNat * 8 + x.rm.code)))
  | .vrdc t op g x nw d a m =>
      some (mk 0x76 t.code nw d.enc a.enc 0 m.encC (laneX m false op.code g.toNat (x.sat.toNat * 8 + x.rm.code)))
  | .vcprs g nw d a b m => some (mk 0x77 0 nw d.enc a.enc b.enc9 m.encC (laneX m false 0 g.toNat 0))
  | .xvec n => some (mk 0x78 0 false 0 (Src.v n).enc 0 0 0)
  | .vmatch nw d a m => some (mk 0x79 0 nw d.enc a.enc 0 m.encC (laneX m false 0 0 0))
  | .rng f nw d => some (mk 0x7A (if f then 2 else 0) nw d.enc 0 0 0 0)
  | .vgumb nw d a b => some (mk 0x7B 2 nw d.enc a.enc b.enc 0 0)
  | .vsmpl g nw d a m => some (mk 0x7C 2 nw d.enc a.enc 0 m.encC (laneX m false 0 g.toNat 0))
  | .vtopk t g nw d a b m => some (mk 0x7D t.code nw d.enc a.enc b.enc m.encC (laneX m false 0 g.toNat 0))
  | .vbern t nw d a => some (mk 0x7E t.code nw d.enc a.enc 0 0 0)
  | .vld t d a b i => some (encMem 0x80 t.code d.enc a b i)
  | .vst t d a b i => some (encMem 0x81 t.code d.enc a b i)
  | .vldp d a b i => some (encMem 0x82 0 d.enc a b i)
  | .vstp d a b i => some (encMem 0x83 0 d.enc a b i)
  | .sld (some t) d a b i => some (encMem 0x84 t.code d.enc a b i)
  | .sld none d a b i => some (encMem 0x84 5 d.enc a b i)
  | .sst (some t) d a b i => some (encMem 0x85 t.code d.enc a b i)
  | .sst none d a b i => some (encMem 0x85 3 d.enc a b i)
  | .vldu t d a b i => some (encMem 0x86 t.code d.enc a b i)
  | .vpref l a b i => some (encMem 0x87 l.toNat 0 a b i)
  | .vatom op d a b i => some (encMem 0x88 op.code d.enc a b i)
  | .vcas d a b i => some (encMem 0x89 0 d.enc a b i)
  | .vatomp op d a b i => some (encMem 0x8A op.code d.enc a b i)
  | .vcasp d a b i => some (encMem 0x8B 0 d.enc a b i)
  | .satom op d a b i => some (encMem 0x8C op.code d.enc a b i)
  | .scas d a b i => some (encMem 0x8D 0 d.enc a b i)
  | .vapnd d a i => some (encMem0 0x8E 0 d.enc a i)
  | .vldw d a b i => some (encMem 0x8F 0 d.enc a b i)
  | .vstw d a b i => some (encMem 0x90 0 d.enc a b i)
  | .dld d a b i => some (encMem 0x91 0 d.enc a b i)
  | .dadd d a b i => some (encMem 0x92 0 d.enc a b i)
  | .daddA d a b i => some (encMem 0x92 1 d.enc a b i)
  | .smerge nw d a b => some (mk 0x93 0 nw d.enc a.enc b.enc 0 0)
  | .dst d a b i => some (encMem 0x94 0 d.enc a b i)
  | .dstamp nw d a cls => some (mk 0x95 0 nw d.enc a.enc 0 0 (BitVec.ofNat 16 cls.toNat))
  | .fence sc cols => some (mk 0xA0 sc.toNat false 0 0 0 0 (BitVec.ofNat 16 cols.toNat))
  | .xfence sc f t => some (mk 0xA1 sc.toNat false 0 0 0 0 (BitVec.ofNat 16 (t.code * 8 + f.code)))
  | .bari d a i => some (encMem0 0xA2 0 d.enc a i)
  | .bara d a b i => some (encMem 0xA3 0 d.enc a b i)
  | .barw a b i => some (encMem 0xA4 0 0 a b i)
  | .bar a i => some (encMem0 0xA5 0 0 a i)
  | .barq d a i => some (encMem0 0xA6 0 d.enc a i)
  | .trgput d a i => some (encMem0 0xA7 0 d.enc a i)
  | .trgget d a i => some (encMem0 0xA8 0 d.enc a i)
  | .trgtry d a i => some (encMem0 0xA9 0 d.enc a i)
  | .htake => some (mk 0xAA 0 false 0 0 0 0 0)
  | .hpass a => some (mk 0xAB 0 false 0 a.enc 0 0 0)
  | .ftest d a => some (mk 0xB0 0 false d.enc a.enc 0 0 0)
  | .fwait d a i => some (encMem0 0xB1 0 d.enc a i)
  | .fcancel a => some (mk 0xB2 0 false 0 a.enc 0 0 0)
  | .fsth d a i => some (encMem0 0xB3 0 d.enc a i)
  | .copy d dsp ssp a b c disp =>
      some (mk 0xB4 0 false d.enc a.enc b.enc c.enc (BitVec.ofNat 16 (dsp.toNat * 16384 + ssp.toNat * 4096 + disp.toNat)))
  | .copyt d b => some (encBlk 0xB5 0 d b 0)
  | .binopen d b => some (encBlk 0xB6 0 d b 0)
  | .binapp l d a b c => some (mk 0xB7 l.toNat false d.enc a.enc b.enc c.enc 0)
  | .binplay d b => some (encBlk 0xB8 0 d b 0)
  | .xsect d b => some (encBlk 0xB9 0 d b 0)
  | .smergeu d b => some (encBlk 0xBA 0 d b 0)
  | .topk d b => some (encBlk 0xBB 0 d b 0)
  | .cvtcsr d b => some (encBlk 0xBC 0 d b 0)
  | .cvtres d b => some (encBlk 0xBC 1 d b 0)
  | .taskput d b => some (encBlk 0xBD 0 d b 0)
  | .stsweep d b => some (encBlk 0xBE 0 d b 0)
  | .rinv d b => some (encBlk 0xBF 0 d b 0)
  | .cmma z d b acc => some (encBlk 0xC0 z.toNat d b acc)
  | .cmmas p z d b acc => some (encBlk 0xC1 ((match p with | .s24 => 0 | .s14 => 2) + z.toNat) d b acc)
  | .cstore d b acc => some (encBlk 0xC2 0 d b acc)
  | .cload d b acc => some (encBlk 0xC3 0 d b acc)
  | .czero d acc => some (mk 0xC4 0 false d.enc 0 0 0 (encAcc acc 0))
  | .cmova add d dst src => some (mk 0xC5 add.toNat false d.enc 0 0 0 (encAcc dst (src.toNat * 2048)))
  | .cspec nw d v0 b0 v1 b1 =>
      some (mk 0xC6 0 nw d.enc 0 0 0 (BitVec.ofNat 16 (v0.toNat + 2 * b0.toNat + 8 * v1.toNat + 16 * b1.toNat)))
  | .cresolve a => some (mk 0xC7 0 false 0 a.enc 0 0 0)
  | .relld d b s => some (encBlk 0xC8 0 d b s)
  | .lblsum d b s n => some (mk 0xC9 0 false d.enc b.base.enc n.enc 0 (b.x s))
  | .draft nw d a b c s => some (mk 0xCA 0 nw d.enc a.enc b.enc c.enc (BitVec.ofNat 16 s.toNat))
  | .accept d a => some (mk 0xCB 0 false d.enc a.enc 0 0 0)
  | .crdv nw d b acc => some (mk 0xCC 0 nw d.enc 0 b.enc 0 (encAcc acc 0))
  | .cwrv d b acc => some (mk 0xCD 0 false d.enc 0 b.enc 0 (encAcc acc 0))
  | .cscale d a b acc rm => some (mk 0xCE 0 false d.enc a.enc b.enc 0 (encAcc acc rm.code))
  | .cepi relu d a acc => some (mk 0xCF relu.toNat false d.enc a.enc 0 0 (encAcc acc 0))
  | .lblld d a b i => some (encMem 0xD0 0 d.enc a b i)
  | .lblldAdm d b row => some (mk 0xD0 1 false d.enc b.base.enc row.enc 0 (b.x 0))
  | .lblst d a b i => some (encMem 0xD1 0 d.enc a b i)
  | .cquery nw d => some (mk 0xD2 0 nw d.enc 0 0 0 0)
  | .mfs nw d x => some (mk 0xE0 0 nw d.enc 0 0 0 x)
  | .mts x a => some (mk 0xE1 0 false 0 a.enc 0 0 x)
  | .hayfill d b => some (encBlk 0xE2 0 d b 0)
  | .tlbinv sc d a b c => some (mk 0xE3 sc.code false d.enc a.enc b.enc c.enc 0)
  | .icinv p d a b => some (mk 0xE4 p.toNat false d.enc a.enc b.enc 0 0)
  | .clkrdTime d => some (mk 0xE5 0 false d.enc 0 0 0 0)
  | .clkrdCyc d => some (mk 0xE5 1 false d.enc 0 0 0 0)
  | .perfrd d b => some (mk 0xE6 0 false d.enc 0 b.enc 0 0)
  | .perfcfg a b => some (mk 0xE7 0 false 0 a.enc b.enc 0 0)
  | .ctxsave p d b => some (mk 0xE8 p.toNat false d.enc 0 b.enc 0 0)
  | .ctxload p d b => some (mk 0xE9 p.toNat false d.enc 0 b.enc 0 0)
  | .shtblSet d a => some (mk 0xEA 0 false d.enc a.enc 0 0 0)
  | .shtblFlush p d => some (mk 0xEA (1 + p.toNat) false d.enc 0 0 0 0)
  | .fltresOk a b => some (mk 0xEB 0 false 0 a.enc b.enc 0 0)
  | .fltresDeny a b => some (mk 0xEB 1 false 0 a.enc b.enc 0 0)
  | .idlew d a b => some (mk 0xEC 0 false d.enc a.enc b.enc 0 0)
  | _ => none

/-- The 31 bits of a half (R52). -/
def Half.enc (h : Half) : Nat :=
  h.pop.code * 2 ^ 25 + h.ty.code * 2 ^ 22 + h.nw.toNat * 2 ^ 21 + h.d.toNat * 2 ^ 13
    + (match h.b with | some b => b.enc.toNat | none => 0) * 16 + h.imm.toNat

/-- The word of an instruction; `none` for an event. -/
def encode : Instr → Option D
  | .pairWord h0 h1 => some (BitVec.ofNat 64 (2 ^ 63 + h0.enc * 2 ^ 31 + h1.enc))
  | i => (fieldsOf i).map Raw.toWord

end Sys2Proof
end

