-- ==== Sys2Proof/Machine/Mem.lean ====
section
/-! DEFINITION. Memory as a canonical list of cells, byte and word access, and poison marks of 8-byte granules
(R10, R175, R278, R284). -/

namespace Sys2Proof.Machine

/-- One byte; an unlisted address reads as zero. -/
def Memory.get : Memory → Nat → Byte
  | [], _ => 0
  | c :: m, a => if c.1 == a then c.2 else if a < c.1 then 0 else Memory.get m a

/-- Write one byte, keeping the canonical form. -/
def Memory.put : Memory → Nat → Byte → Memory
  | [], a, b => if b == 0 then [] else [(a, b)]
  | c :: m, a, b =>
    if a < c.1 then (if b == 0 then c :: m else (a, b) :: c :: m)
    else if c.1 == a then (if b == 0 then m else (a, b) :: m)
    else c :: Memory.put m a b

/-- The canonical form from a lower bound on addresses. -/
def Memory.wfFrom : Nat → Memory → Bool
  | _, [] => true
  | n, c :: m => n ≤ c.1 && c.2 != 0 && Memory.wfFrom (c.1 + 1) m

/-- Addresses strictly rising and no entry equal to zero. -/
def Memory.wf (m : Memory) : Bool := Memory.wfFrom 0 m

def Memory.read (m : Memory) (a : Nat) : Nat → List Byte
  | 0 => []
  | n + 1 => m.get a :: Memory.read m (a + 1) n

def Memory.write : Memory → Nat → List Byte → Memory
  | m, _, [] => m
  | m, a, b :: bs => Memory.write (m.put a b) (a + 1) bs

/-- A little-endian number of `n` bytes. -/
def Memory.num (m : Memory) (a n : Nat) : Nat := leNat (m.read a n)

/-- Poisoned granules, as a rising list of granule numbers. -/
def addBad (bad : List Nat) (g : Nat) : List Nat := insertNat g bad

def clearBad (bad : List Nat) (g : Nat) : List Nat := bad.filter (· != g)

/-- A byte to be stored, with its mark (R175). -/
structure StByte where
  loc  : Loc
  byte : Byte
  bad  : Bool
  deriving DecidableEq, Repr

/-- The granule of a place: space and number. -/
def Loc.granule : Loc → Loc
  | .mem k => .mem (k / 8)
  | .spad o => .spad (o / 8)

def Loc.add : Loc → Nat → Loc
  | .mem k, i => .mem (k + i)
  | .spad o, i => .spad (o + i)

def Loc.isSpad : Loc → Bool
  | .spad _ => true
  | .mem _ => false

/-- Position of a place in its space. -/
def Loc.pos : Loc → Nat
  | .mem k => k
  | .spad o => o

/-- The bytes of one access, from `x`, with one mark per 4-byte element. -/
def storeBytes (loc : Loc) (n : Nat) (x : Nat) (bad : BitVec 4) : List StByte :=
  ((natLe n x).zip (List.range n)).map fun p => ⟨loc.add p.2, p.1, bad.getLsbD (p.2 / 4)⟩

/-- Distinct granules of a list of stored bytes. -/
def granulesOf : List StByte → List Loc
  | [] => []
  | b :: bs =>
    let g := b.loc.granule
    let rest := granulesOf bs
    if rest.contains g then rest else g :: rest

/-- Whether the bytes cover a whole granule. -/
def coversGranule (bs : List StByte) (g : Loc) : Bool :=
  (List.range 8).all fun i => bs.any fun b => b.loc.granule == g && b.loc.pos % 8 == i

end Sys2Proof.Machine
end

