-- ==== Sys2Proof/Machine/Base.lean ====
section
/-! DEFINITION. Access to gangs, waves, contexts, grids, dies, and to memory by place (R21, R27, R31, R171, R175). -/

namespace Sys2Proof.Machine

abbrev Out := Host.Outcome State Fault Refusal

/-! ## Gangs and waves -/

def State.gang? (s : State) (gi : Nat) : Option Gang := s.gangs[gi]?

def Gang.wave? (g : Gang) (wi : Nat) : Option Wave := g.waves[wi]?

def State.modGang (s : State) (gi : Nat) (f : Gang → Gang) : State := { s with gangs := modAt s.gangs gi f }

def State.modWave (s : State) (gi wi : Nat) (f : Wave → Wave) : State :=
  s.modGang gi fun g => { g with waves := modAt g.waves wi f }

def State.setWave (s : State) (gi wi : Nat) (w : Wave) : State := s.modWave gi wi fun _ => w

def State.wave? (s : State) (gi wi : Nat) : Option Wave :=
  match s.gang? gi with
  | some g => g.wave? wi
  | none => none

def State.ctx? (s : State) (id : Nat) : Option Ctx := s.ctxs.find? (·.id == id)

def State.modCtx (s : State) (id : Nat) (f : Ctx → Ctx) : State := { s with ctxs := mapIf (·.id == id) f s.ctxs }

def State.grid? (s : State) (id : Nat) : Option Grid := s.grids.find? (·.id == id)

def State.modGrid (s : State) (id : Nat) (f : Grid → Grid) : State := { s with grids := mapIf (·.id == id) f s.grids }

def State.modDie (s : State) (d : Nat) (f : Die → Die) : State := { s with dies := modAt s.dies d f }

def State.die? (s : State) (d : Nat) : Option Die := s.dies[d]?

/-- Index of the gang with serial `id`. -/
def State.gangIdx (s : State) (id : Nat) : Option Nat := findIdx (fun g => g.id == id) s.gangs

def Wave.slot (w : Wave) (k : Bool) : Slot := if k then w.slot1 else w.slot0

def Wave.setSlot (w : Wave) (k : Bool) (x : Slot) : Wave :=
  if k then { w with slot1 := x } else { w with slot0 := x }

def Wave.modSlot (w : Wave) (k : Bool) (f : Slot → Slot) : Wave := w.setSlot k (f (w.slot k))

/-- A wave is privileged while it runs a handler and in a privileged gang (R27). -/
def privileged (g : Gang) (w : Wave) : Bool := g.priv || w.trap.isSome

/-- `WIDX` (R31). -/
def widxWord (g : Gang) (w : Wave) : W :=
  BitVec.ofNat 32 (Config.pkg * 2 ^ 19 + g.die * 2 ^ 17 + g.byre * 2 ^ 10 + w.quad * 2 ^ 8 + (g.n - 1) * 16 + w.idx)

/-- Unfinished entries of a Churn queue (R209, R223). -/
def Churn.unf (c : Churn) : Nat := (c.queue.filter fun q => q.res.isNone).length

/-- A queue entry that resolves the frame (R225). -/
def resolveEntry (id wave : Nat) (v : W) : ChEntry where
  id := id
  wave := wave
  freg := none
  serial := 0
  kind := .resolve v
  blkVa := 0
  bsp := false
  hasBlk := false
  blk := []
  bad := false
  priv := false
  floor := 0
  mrow := 0
  ncol := 0
  steps := 0
  part := []
  pres := []
  crow := 0
  prog := 0
  rcount := 0
  fl := 0
  waits := []
  page := 0
  denied := []
  cancel := false
  res := none

/-- Count an event of a Byre in the counters set to it (R319). -/
def State.bump (s : State) (byre event n : Nat) : State :=
  { s with perf := mapIf (fun p => p.byre == byre && p.event == event) (fun p => { p with count := (p.count + n) % 2 ^ 48 }) s.perf }

/-- A free value has been taken. -/
def State.took (s : State) : State := { s with freeCtr := s.freeCtr + 1 }

/-! ## Memory by place -/

def State.getByte (s : State) (gi : Nat) (l : Loc) : Byte :=
  match l with
  | .mem k => s.mem.get k
  | .spad o => (match s.gang? gi with | some g => g.spad.get o | none => 0)

def State.putByte (s : State) (gi : Nat) (l : Loc) (b : Byte) : State :=
  match l with
  | .mem k => { s with mem := s.mem.put k b }
  | .spad o => s.modGang gi fun g => { g with spad := g.spad.put o b }

/-- Whether the granule of a place is poisoned. -/
def State.locBad (s : State) (gi : Nat) (l : Loc) : Bool :=
  match l with
  | .mem k => s.memBad.contains (k / 8)
  | .spad o => (match s.gang? gi with | some g => g.spadBad.contains (o / 8) | none => false)

def State.setBad (s : State) (gi : Nat) (granule : Loc) (bad : Bool) : State :=
  match granule with
  | .mem k => { s with memBad := if bad then addBad s.memBad k else clearBad s.memBad k }
  | .spad o =>
    s.modGang gi fun g => { g with spadBad := if bad then addBad g.spadBad o else clearBad g.spadBad o }

def State.readLoc (s : State) (gi : Nat) (l : Loc) (n : Nat) : List Byte :=
  (List.range n).map fun i => s.getByte gi (l.add i)

def State.numLoc (s : State) (gi : Nat) (l : Loc) (n : Nat) : Nat := leNat (s.readLoc gi l n)

/-- Whether any byte of a range is poisoned. -/
def State.rangeBad (s : State) (gi : Nat) (l : Loc) (n : Nat) : Bool :=
  (List.range n).any fun i => s.locBad gi (l.add i)

/-- The Byre's L1 copies follow every store made at the memory by that Byre (R265). -/
def updLines (ls : List CLine) (byre key : Nat) (b : Byte) : List CLine :=
  mapIf (fun c => c.byre == byre && c.key == key / 128) (fun c => { c with bytes := setAt c.bytes (key % 128) b }) ls

/-- Older copies of a line take the writes of every class but the one whose last write they lack (R256). -/
def patchOlds (os : List OldLine) (cls : Option PClass) (key : Nat) (b : Byte) : List OldLine :=
  mapIf (fun o => o.line == key / 128 && some o.cls != cls) (fun o => { o with bytes := setAt o.bytes (key % 128) b }) os

/-- Before a write by class `cls` the line as it stands becomes an older copy that other classes may still find. -/
def keepOld (s : State) (cls : PClass) (line : Nat) : State :=
  { s with
    fills := s.fills + 1
    olds := ⟨line, s.mem.read (128 * line) 128, cls, s.fills + 1⟩
              :: s.olds.filter fun o => !(o.line == line && o.cls == cls) }

/-- The lines that stored bytes touch, rising. -/
def linesOf (bs : List StByte) : List Nat :=
  bs.foldl (fun acc b => match b.loc with | .mem k => insertNat (k / 128) acc | .spad _ => acc) []

/-- Perform the bytes of one store word at memory (R171, R175), written by a class or by the device itself: later bytes win; a
marked byte poisons its granule, a whole unmarked granule is cleared; a partial store to a poisoned scratchpad word is not
kept, whether an uncorrectable error or a marked store has poisoned it. DESIGN CHOICE (log 74). -/
def storePut (s : State) (gi byre : Nat) (cls : Option PClass) (bs : List StByte) : State :=
  let keep (s : State) (b : StByte) : Bool :=
    !(b.loc.isSpad && s.locBad gi b.loc && !coversGranule bs b.loc.granule)
  let s1 := bs.foldl (fun t b =>
    if keep s b then
      let t := t.putByte gi b.loc b.byte
      match b.loc with
      | .mem k => { t with l1 := updLines t.l1 byre k b.byte, olds := patchOlds t.olds cls k b.byte }
      | .spad _ => t
    else t) s
  (granulesOf bs).foldl (fun t g =>
    if bs.any fun b => b.loc.granule == g && b.bad then t.setBad gi g true
    else if coversGranule bs g then t.setBad gi g false
    else t) s1

/-- A write by a path class (R255): readers of other classes may find the older line until it is published to them. -/
def storeAs (s : State) (gi byre : Nat) (cls : PClass) (bs : List StByte) : State :=
  storePut ((linesOf bs).foldl (fun s n => keepOld s cls n) s) gi byre (some cls) bs

/-- Device writes of plain bytes at a place (records, completion fields): no poison; no Byre has number 320. -/
def State.writeLoc (s : State) (gi : Nat) (l : Loc) (bs : List Byte) : State :=
  storePut s gi 320 none ((bs.zip (List.range bs.length)).map fun p => ⟨l.add p.2, p.1, false⟩)

end Sys2Proof.Machine
end

