-- ==== Sys2Proof/Machine/Translate.lean ====
section
/-! DEFINITION. Translation of virtual addresses, TLB and shadow table, fault requests, and instruction fetch (R281,
R296-R304, R308). -/

namespace Sys2Proof.Machine

/-- What an access wants of a page. -/
structure Want where
  write : Bool
  exec  : Bool
  priv  : Bool
  deriving DecidableEq, Repr

/-- Outcome of a translation: a place, a page that is not resident, or the subcode of `ACCESS`. -/
inductive Tr
  | ok (key : Nat)
  | park
  | fail (sub : Nat)
  deriving DecidableEq, Repr

/-- Bits [63:57] equal bit 56 (R168). -/
def canonical (va : Nat) : Bool := va / 2 ^ 56 % 256 == 0 || va / 2 ^ 56 % 256 == 255

/-! ## The walk (R296, R297) -/

inductive Walk
  | leaf (e : Nat) (size : Nat)
  | unmapped
  | bad
  deriving DecidableEq, Repr

def pteBit (e i : Nat) : Bool := e / 2 ^ i % 2 == 1

/-- ADDR as a physical address. -/
def pteAddr (e : Nat) : Nat := e / 2 ^ 12 % 2 ^ 36 * 2 ^ 12

def ptePeer (e : Nat) : Nat := e / 2 ^ 48 % 512

/-- Index of an address at a level, and the alignment of the table below. -/
def walkIdx (level va : Nat) : Nat :=
  match level with
  | 3 => va / 2 ^ 51 % 64
  | 2 => va / 2 ^ 38 % 8192
  | 1 => va / 2 ^ 25 % 8192
  | _ => va / 2 ^ 16 % 512

def nextAlign (level : Nat) : Nat := if level == 1 then 2 ^ 12 else 2 ^ 16

/-- Whether a leaf maps this package's own memory. -/
def leafLocal (e : Nat) : Bool := !pteBit e 6 && (!pteBit e 7 || ptePeer e == Config.pkg)

/-- Whether a local leaf names memory that contexts may have: device memory below the system region (R284, R305), or
the page of the format windows (R285). DEDUCED (log 24). -/
def leafInside (a size : Nat) : Bool := a + size ≤ Config.sysBase || a == Config.windowBase

/-- Checks of a leaf (R297, R305). -/
def leafOk (e size : Nat) : Bool :=
  pteAddr e % size == 0 && !(pteBit e 6 && pteBit e 7) && (!leafLocal e || leafInside (pteAddr e) size)

/-- The walk from the table at `table`, level by level. -/
def walk (m : Memory) (bad : List Nat) (va : Nat) : Nat → Nat → Walk
  | level, table =>
    let a := table + 8 * walkIdx level va
    if Config.devBytes ≤ a || bad.contains (a / 8) then .bad
    else
      let e := m.num a 8
      if !pteBit e 0 then .unmapped
      else if pteBit e 1 then
        if 2 ≤ level then .bad
        else
          let size := if level == 1 then 2 ^ 25 else 2 ^ 16
          if leafOk e size then .leaf e size else .bad
      else
        match level with
        | 0 => .bad
        | l + 1 =>
          if pteAddr e % nextAlign (l + 1) != 0 || (pteBit e 6 && pteBit e 7) then .bad
          else walk m bad va l (pteAddr e)

/-- Whether a peer package can be reached (R297, R347). -/
def State.reachable (s : State) (p : Nat) : Bool := s.hub.podMap.contains p && !s.hub.dead.contains p

/-- The place that a leaf gives an address. -/
def leafKey (e size va : Nat) : Nat :=
  let a := pteAddr e + va % size
  if pteBit e 6 then Config.hostKey a
  else if pteBit e 7 && ptePeer e != Config.pkg then Config.peerKey (ptePeer e) a
  else a

/-- Permissions, then residence, then reachability (R168 check 5, R302, R308). DEDUCED (log 25). -/
def judge (s : State) (w : Want) (wr pv ex res : Bool) (peer : Option Nat) (key : Nat) : Tr :=
  if w.write && !wr then .fail 3
  else if pv && !w.priv then .fail 4
  else if w.exec && !ex then .fail 5
  else if !res then .park
  else
    match peer with
    | some p => if s.reachable p then .ok key else .fail 7
    | none => .ok key

def judgeLeaf (s : State) (w : Want) (e size va : Nat) : Tr :=
  judge s w (pteBit e 2) (pteBit e 4) (pteBit e 3) (pteBit e 5)
    (if pteBit e 7 && ptePeer e != Config.pkg then some (ptePeer e) else none) (leafKey e size va)

/-! ## Lines under keys (R316, R349) -/

/-- Generation of a context's key. -/
def State.genOf (s : State) (ctx : Nat) : Nat := ((s.ctx? ctx).map (·.keyGen)).getD 0

/-- A line of 128 bytes with each 16-byte block replaced. -/
def mapBlocks (f : Nat → BitVec 128 → BitVec 128) (b : List Byte) : List Byte :=
  (List.range 8).flatMap fun j => natLe 16 (f j (BitVec.ofNat 128 (recNat b (16 * j) 16))).toNat

/-- A line under a key, block by block (R316). -/
def encryptLine (ctx gen line : Nat) (b : List Byte) : List Byte := mapBlocks (fun j => Config.cipher ctx gen line j) b

def decryptLine (ctx gen line : Nat) (b : List Byte) : List Byte := mapBlocks (fun j => (Config.cipher ctx gen line j).symm) b

/-- The stored bytes of a tagged line: as it was filled, or encrypted under its key (R316, R349). -/
def storedOf (s : State) (t : Tag) : List Byte :=
  t.stored.getD (encryptLine t.ctx t.gen t.line (s.mem.read (128 * t.line) 128))

def plainOf (s : State) (ctx line : Nat) (stored : List Byte) : List Byte := decryptLine ctx (s.genOf ctx) line stored

def State.dropTag (s : State) (line : Nat) : State := { s with tags := s.tags.filter fun t => t.line != line }

def State.setTag (s : State) (ctx line : Nat) (stored : Option (List Byte)) : State :=
  let s := s.dropTag line
  { s with tags := ⟨line, ctx, s.genOf ctx, stored⟩ :: s.tags }

/-- A line of device memory is filled from its stored bytes for an access with the given ENC bit. -/
def fillFrom (s : State) (ctx : Nat) (enc : Bool) (line : Nat) (stored : List Byte) (write : Bool) : State :=
  let s := { s with olds := s.olds.filter fun o => o.line != line }
  if enc then
    ({ s with mem := s.mem.write (128 * line) (plainOf s ctx line stored) }).setTag ctx line (if write then none else some stored)
  else ({ s with mem := s.mem.write (128 * line) stored }).dropTag line

/-- Whether two lines share a set of an LLC slice: slice s caches stack s, 192 MiB in 65,536 sets of 24 lines (R284). DESIGN
CHOICE (log 26): the set is the line number modulo 65,536. -/
def llcMate (a b : Nat) : Bool := a / 2 ^ 29 == b / 2 ^ 29 && a % 65536 == b % 65536

/-- An access leaves a line of device memory in its LLC slice; a full set evicts one of its lines. `mem` keeps the plaintext of
an evicted line under a key, and its tag what it is stored as. -/
def State.llcFill (s : State) (line : Nat) : State :=
  if s.llc.contains line || Config.devBytes ≤ 128 * line then s
  else
    let t := if 24 ≤ s.llc.countP (llcMate line) then s.took else s
    { t with llc := line :: makeRoom (llcMate line) 24 (Config.victim s.freeCtr) s.llc }

/-- What an access of a context finds in a line and makes of it. A line under its own key is plaintext to it, and so is every
line that the LLC holds, under whatever key; any other is filled from its stored bytes (R316). DESIGN CHOICE (log 9). -/
def keyLine (s : State) (ctx : Nat) (enc write : Bool) (line : Nat) : State :=
  match s.tags.find? fun t => t.line == line with
  | none =>
    if !enc then s
    else if s.llc.contains line then (if write then s.setTag ctx line none else s)
    else fillFrom s ctx enc line (s.mem.read (128 * line) 128) write
  | some t =>
    if enc && t.ctx == ctx && t.gen == s.genOf ctx then (if write then s.setTag ctx line none else s)
    else if s.llc.contains line then
      if write then (if enc then s.setTag ctx line none else s.dropTag line) else s
    else fillFrom s ctx enc line (storedOf s t) write

/-- An access of a context to a line through a page with the given ENC bit, which the LLC holds from then on. -/
def accessLine (s : State) (ctx : Nat) (enc write : Bool) (line : Nat) : State :=
  (keyLine s ctx enc write line).llcFill line

/-! ## TLB and shadow table (R298, R299) -/

/-- The Byre's number in the package, as TLB, L1 and instruction cache are told apart. -/
def Gang.byreId (g : Gang) : Nat := g.die * 80 + g.byre

def tlbHas (byre ctx va : Nat) (t : TlbEnt) : Bool :=
  t.byre == byre && t.ctx == ctx && t.va ≤ va && va < t.va + t.size

/-- An atomic saturating add to the shadow table, at a physical address (R299); a poisoned count stays (R175). -/
def shadowAdd (s : State) (leaf : D) (n : Nat) : State :=
  let a := s.shbase + 4 * (pteAddr leaf.toNat / 2 ^ 16)
  if s.shbase == 0 || n == 0 || !leafLocal leaf.toNat || Config.devBytes ≤ pteAddr leaf.toNat || Config.devBytes ≤ a then s
  else
    let s := accessLine s 0 false true (a / 128)
    if s.memBad.contains (a / 8) then s
    else { s with mem := s.mem.write a (natLe 4 (min (s.mem.num a 4 + n) (2 ^ 32 - 1))) }

/-- Entries of a Byre's TLB for pages of one size. -/
def tlbOf (byre size : Nat) (t : TlbEnt) : Bool := t.byre == byre && t.size == size

/-- A full TLB, 1024 entries for 64 KiB pages or 64 for 32 MiB pages, evicts an entry, whose count goes to the shadow table
(R299). DESIGN CHOICE (log 26): which entry goes is free. -/
def evictTlb (s : State) (byre size : Nat) : State :=
  let cap := if size == 2 ^ 25 then 64 else 1024
  let mine := s.tlb.filter (tlbOf byre size)
  if mine.length < cap then s
  else
    match mine[Config.victim s.freeCtr % cap]? with
    | some t => shadowAdd { s.took with tlb := s.tlb.filter (· != t) } t.leaf t.hits
    | none => s

/-- One lane access goes through the leaf `e`: its TLB entry is filled if need be and counts a hit. An entry with another
leaf is replaced, and its count goes to the shadow table. -/
def touchTlb (s : State) (byre ctx va e size : Nat) : State :=
  let fill (s : State) : State :=
    let s := evictTlb (s.bump byre 5 1) byre size
    { s with tlb := ⟨byre, ctx, va / size * size, size, BitVec.ofNat 64 e, 1⟩ :: s.tlb }
  match s.tlb.find? (tlbHas byre ctx va) with
  | some t =>
    if t.leaf.toNat == e then
      { s with tlb := mapIf (tlbHas byre ctx va) (fun x => { x with hits := x.hits + 1 }) s.tlb }
    else
      let s := shadowAdd s t.leaf t.hits
      fill { s with tlb := s.tlb.filter fun x => !tlbHas byre ctx va x }
  | none => fill s

/-- The system context's mapping: device memory at equal addresses, PRIV = 1, WR = 1, ENC = 0, in 32 MiB pages (R305). No
agent but the fault service can see the table itself, so it takes no bytes of memory. -/
def sysWalk (va : Nat) : Walk := if va < Config.devBytes then .leaf (va / 2 ^ 25 * 2 ^ 25 + 0x3F) (2 ^ 25) else .unmapped

/-- What the walk of a context's table finds. -/
def State.walkFor (s : State) (ctx va : Nat) : Walk :=
  if ctx == Config.sysCtx then sysWalk va
  else
    match s.ctx? ctx with
    | some c => walk s.mem s.memBad (va % 2 ^ 57) 3 c.ptroot
    | none => .unmapped

/-- The leaf that an access uses: a cached one if this step may use stale copies, else the one the walk finds. -/
def leafFor (s : State) (g : Gang) (va : Nat) : Walk :=
  match s.tlb.find? (tlbHas g.byreId g.ctx va) with
  | some t => if s.stale then .leaf t.leaf.toNat t.size else s.walkFor g.ctx va
  | none => s.walkFor g.ctx va

def extentFor (g : Gang) (va n : Nat) : Option Extent :=
  g.exts.find? fun x => x.va ≤ va && va + n ≤ x.va + x.len

/-- Translate an access of `n` bytes (R296, R301). -/
def translate (s : State) (g : Gang) (w : Want) (va n : Nat) : Tr :=
  if !canonical va then .fail 0
  else
    match extentFor g va n with
    | some x => judge s w x.wr x.priv x.exec true x.peer (x.key + (va - x.va))
    | none =>
      match leafFor s g va with
      | .unmapped => .fail 2
      | .bad => .fail 6
      | .leaf e size => judgeLeaf s w e size va

/-- The same for every line of [key, key + n). -/
def tagLines (s : State) (ctx : Nat) (enc write : Bool) (key n : Nat) : State :=
  let lo := key / 128
  (List.range ((key + n + 127) / 128 - lo)).foldl (fun s i => accessLine s ctx enc write (lo + i)) s

/-- The device writes its own areas and images under the context's key, whole lines at a time. -/
def sealLines (s : State) (ctx key n : Nat) : State :=
  let lo := key / 128
  (List.range ((key + n + 127) / 128 - lo)).foldl (fun s i => (s.setTag ctx (lo + i) none).llcFill (lo + i)) s

/-- Whether an extent names this package's own memory. -/
def Extent.isHome (x : Extent) : Bool := x.peer.isNone && x.key < Config.devBytes

/-- Key and ENC bit of an address in this package's own memory. -/
def homeEnc (s : State) (g : Gang) (va n : Nat) : Option (Nat × Bool) :=
  match extentFor g va n with
  | some x => if x.isHome then some (x.key + (va - x.va), x.enc) else none
  | none =>
    match leafFor s g va with
    | .leaf e size => if leafLocal e then some (leafKey e size va, pteBit e 8) else none
    | _ => none

/-- An access of `n` bytes finds its lines under their keys. -/
def noteTag (s : State) (g : Gang) (write : Bool) (va n : Nat) : State :=
  match homeEnc s g va n with
  | some (k, enc) => tagLines s g.ctx enc write k n
  | none => s

/-- A lane access goes through the TLB. -/
def noteTlb (s : State) (g : Gang) (va n : Nat) : State :=
  match extentFor g va n with
  | some _ => s
  | none =>
    match leafFor s g va with
    | .leaf e size => touchTlb s g.byreId g.ctx va e size
    | _ => s

/-- What an access that acts at once leaves behind: the TLB entry with its hit, and its lines under their keys (R316). -/
def noteAccess (s : State) (g : Gang) (w : Want) (va n : Nat) : State := noteTag (noteTlb s g va n) g w.write va n

/-! ## Fault requests (R302, R303) -/

/-- Join the request for a page on a die, or open one; answers its serial. COUNT of a posted entry follows. -/
def addReq (s : State) (die ctx va kind acc req : Nat) (who : Waiter) : State × Nat :=
  let page := va / 2 ^ 16
  match s.reqs.find? fun r => r.die == die && r.ctx == ctx && r.page == page with
  | some r =>
    let m := if r.posted then s.mem.write (Config.queueKey die + 32 * (r.seq % 256) + 20) (natLe 4 (r.count + 1)) else s.mem
    ({ s with
        mem := m
        reqs := mapIf (·.id == r.id) (fun x => { x with count := x.count + 1, waiters := x.waiters ++ [who] }) s.reqs },
      r.id)
  | none =>
    ({ s with
        ids := s.ids + 1
        reqs := s.reqs ++ [⟨s.ids, die, ctx, page, va, kind, acc, req, 1, 0, false, false, [who]⟩] },
      s.ids)

/-- `REQ` of a wave's request (R303). -/
def reqWord (g : Gang) (w : Wave) (engine : Bool) : Nat :=
  (widxWord g w).toNat % 2 ^ 19 + (if engine then 2 ^ 31 else 0)

/-! ## Fetch (R281, R302, R308) -/

inductive Fetch
  | word (w : D)
  | park
  | fail (sub : Nat)
  deriving DecidableEq, Repr

def lineHas (byre key : Nat) (c : CLine) : Bool := c.byre == byre && c.key == key / 128

/-- The eight bytes of a word at `key`: from the instruction cache if this step may use stale copies. -/
def fetchBytes (s : State) (g : Gang) (key : Nat) : D :=
  match s.icache.find? (lineHas g.byreId key) with
  | some c =>
    if s.stale then BitVec.ofNat 64 (recNat c.bytes (key % 128) 8) else BitVec.ofNat 64 (s.mem.num key 8)
  | none => BitVec.ofNat 64 (s.mem.num key 8)

def fetchWant (g : Gang) (w : Wave) : Want := ⟨false, true, privileged g w⟩

/-- The word at `pc`. -/
def fetch (s : State) (g : Gang) (w : Wave) (pc : D) : Fetch :=
  match translate s g (fetchWant g w) pc.toNat 8 with
  | .ok key => .word (fetchBytes s g key)
  | .park => .park
  | .fail n => .fail n

/-- A fetch that goes through finds its line under its key. -/
def fillFetch (s : State) (g : Gang) (w : Wave) (pc : D) : State :=
  match translate s g (fetchWant g w) pc.toNat 8 with
  | .ok _ => noteTag s g false pc.toNat 8
  | _ => s

/-- A fetch leaves its line in the instruction cache, which holds 512 lines, and counts no lane access (R281). DESIGN CHOICE
(log 26): which line a full cache evicts is free. -/
def noteFetch (s : State) (g : Gang) (w : Wave) (pc : D) : State :=
  match translate s g (fetchWant g w) pc.toNat 8 with
  | .ok key =>
    if s.icache.any (lineHas g.byreId key) && s.stale then s
    else
      let k := key / 128 * 128
      let rest := s.icache.filter fun c => !lineHas g.byreId key c
      let full := 512 ≤ rest.countP fun c => c.byre == g.byreId
      let t := if full then s.took else s
      { t with icache := ⟨g.byreId, key / 128, s.mem.read k 128, s.fills⟩
                          :: makeRoom (fun c => c.byre == g.byreId) 512 (Config.victim s.freeCtr) rest }
  | _ => s

/-- The physical bytes of [va, hi) in the page of `va`, as the gang's addresses translate now. -/
def codeSpan (s : State) (g : Gang) (va hi : Nat) : Option (Nat × Nat) :=
  let n := min hi ((va / 2 ^ 16 + 1) * 2 ^ 16) - va
  if !canonical va then none
  else
    match extentFor g va 1 with
    | some x => some (x.key + (va - x.va), n)
    | none =>
      match leafFor { s with stale := false } g va with
      | .leaf e size => some (leafKey e size va, n)
      | _ => none

end Sys2Proof.Machine
end

