-- ==== Sys2Proof/Machine/Ops.lean ====
section
/-! DEFINITION. Shared operations: the issuing split, the divergence
stack and reconvergence (R21-R26, R103-R107), ends of gangs and grids (R310, R311), taking a trap and returning (R111,
R306-R310). -/

namespace Sys2Proof.Machine

/-! ## The issuing split -/

/-- The issuing split with its wave and gang, and the word it issues. -/
structure Env where
  s    : State
  gi   : Nat
  wi   : Nat
  k    : Bool
  g    : Gang
  w    : Wave
  word : D

def State.env? (s : State) (word : D) : Option Env :=
  match s.gang? s.cur.gang with
  | some g =>
    match g.wave? s.cur.wave with
    | some w => some ⟨s, s.cur.gang, s.cur.wave, s.cur.slot, g, w, word⟩
    | none => none
  | none => none

/-- Run a word's meaning on the issuing split; with none, the model stops (R21). -/
def onSplit (i : Instr) (s : State) (f : Env → State) : Out :=
  match s.env? ((encode i).getD 0) with
  | some e => .next (f e)
  | none => .fault .noSplit

def Env.slot (e : Env) : Slot := e.w.slot e.k

def Env.act (e : Env) : Mask := e.slot.act

def Env.priv (e : Env) : Bool := privileged e.g e.w

/-- The state with the issuing wave replaced. -/
def Env.put (e : Env) (w : Wave) : State := e.s.setWave e.gi e.wi w

/-- Move the split past its word and make it Ready. -/
def Wave.advance (w : Wave) (k : Bool) : Wave := w.modSlot k fun x => { x with pc := x.pc + 8, st := .ready }

/-- Leave the split Blocked at its word (R23). -/
def Env.block (e : Env) (why : Why) : State := e.put (e.w.modSlot e.k fun x => { x with st := .blocked why })

/-! ## Outstanding memory words (R108, R169, R252) -/

def isAcq (o : MemOp) : Bool := o.ord == 1 || o.ord == 3
def isRel (o : MemOp) : Bool := o.ord == 2 || o.ord == 3

/-- The word waits for the outstanding memory words of the wave that pass a test: for registers or bytes of theirs (R169). -/
def Wave.waitOn (w : Wave) (p : MemOp → Bool) : Why := .dest ((w.ops.filter p).map (·.id))

/-- The accesses that precede a wave's arrival at a barrier: with classes to publish to, all (R184, R258); else the releases and
acquires that the matrices order with it, at `.gang` and wider. DEDUCED (log 27). -/
def holdsArrival (pub : Nat) (o : MemOp) : Bool := pub != 0 || (o.scope != 0 && (isAcq o || isRel o))

/-- The L1 floor of the loads of lanes `m` (R271 note 2). -/
def Wave.floor (w : Wave) (m : Mask) : Nat :=
  (w.floors.zip laneList).foldl (fun n p => if m.getLsbD p.2 then max n p.1 else n) 0

/-- Later loads of lanes `m` ignore L1 lines filled before serial `n`. -/
def Wave.raise (w : Wave) (m : Mask) (n : Nat) : Wave :=
  { w with floors := (w.floors.zip laneList).map fun p => if m.getLsbD p.2 then max p.1 n else p.1 }

/-- Lanes `m` stand in one split: what any of them has accessed precedes what any of them accesses later, and what any of them
has acquired binds them all (R252, R268, R271 note 2). A split's accesses before a branch, a park or a merge precede those of
the splits that go on. -/
def Wave.joined (w : Wave) (m : Mask) : Wave :=
  { w.raise m (w.floor m) with
    ops := mapIf (fun o => o.act &&& m != 0) (fun o => { o with act := o.act ||| m }) w.ops }

/-! ## The divergence stack (R24) -/

structure Entry where
  kind : Nat
  pc   : D
  rpc  : D
  act  : Mask
  um   : Mask
  deriving DecidableEq, Repr

def entryOfBytes (b : List Byte) : Entry where
  kind := recNat b 0 8 % 8
  pc := BitVec.ofNat 64 (recNat b 0 8 / 8 * 8)
  rpc := BitVec.ofNat 64 (recNat b 8 8)
  act := BitVec.ofNat 96 (recNat b 16 12)
  um := BitVec.ofNat 96 (recNat b 32 12)

def bytesOfEntry (x : Entry) : List Byte :=
  natLe 8 (x.pc.toNat / 8 * 8 + x.kind) ++ natLe 8 x.rpc.toNat ++ natLe 12 x.act.toNat ++ natLe 4 0
    ++ natLe 12 x.um.toNat ++ natLe 20 0

/-- A reconvergence frame: a kind-0 entry without lanes (R103). -/
def Entry.isFrame (x : Entry) : Bool := x.kind == 0 && x.act == 0

/-- The splits of a wave: both slots and the stack, top first. -/
structure Splits where
  s0     : Slot
  s1     : Slot
  stk    : List Entry
  exited : Mask
  deriving DecidableEq, Repr

/-- The `n` entries of a stack at physical address `a`, top first. -/
def readStack (m : Memory) (a : Nat) : Nat → List Entry
  | 0 => []
  | n + 1 => entryOfBytes (m.read (a + 64 * n) 64) :: readStack m a n

def writeStack (m : Memory) (a : Nat) : List Entry → Memory
  | [] => m
  | x :: xs => writeStack (m.write (a + 64 * xs.length) (bytesOfEntry x)) a xs

/-- The device reads or writes `n` bytes of a wave's area: for a context as through a page with ENC = 1, for the system
context in plaintext (R24, R305). -/
def State.openArea (s : State) (gi : Nat) (write : Bool) (key n : Nat) : State :=
  match s.gang? gi with
  | some g => tagLines s g.ctx (g.ctx != Config.sysCtx) write key n
  | none => s

/-- The splits of a wave: the stack as an access under the context's key finds it. -/
def State.splits (s : State) (gi : Nat) (w : Wave) : Splits :=
  ⟨w.slot0, w.slot1, readStack (s.openArea gi false w.dsaddr.toNat (64 * w.dsp)).mem w.dsaddr.toNat w.dsp, w.exited⟩

/-- Write the splits back to a wave and its stack to memory: the lanes of each now stand together. -/
def State.putSplits (s : State) (gi wi : Nat) (x : Splits) : State :=
  match s.wave? gi wi with
  | some w =>
    let s := s.openArea gi true w.dsaddr.toNat (64 * x.stk.length)
    let s := { s with mem := writeStack s.mem w.dsaddr.toNat x.stk }
    let w := ([x.s0.act, x.s1.act] ++ x.stk.map (·.act)).foldl Wave.joined w
    s.setWave gi wi { w with slot0 := x.s0, slot1 := x.s1, dsp := x.stk.length, exited := x.exited }
  | none => s

def Splits.slot (x : Splits) (k : Bool) : Slot := if k then x.s1 else x.s0

def Splits.set (x : Splits) (k : Bool) (y : Slot) : Splits := if k then { x with s1 := y } else { x with s0 := y }

/-- An Empty slot holds nothing. -/
def Slot.clear (_ : Slot) : Slot := ⟨0, 0, 0, 0, .empty⟩

/-- A stack entry becomes a slot (R24): a frame becomes a placeholder (R103), kind 1 is Parked, the others are Ready. -/
def slotOfEntry (x : Entry) : Slot where
  pc := x.pc
  act := x.act
  um := x.um
  rpc := x.rpc
  st := if x.isFrame then .joinWait else if x.kind == 1 then .parked else .ready

/-- A split that waits for its join: not a placeholder (R103, R105). -/
def Slot.isJoiner (x : Slot) : Bool := x.st == .joinWait && x.pc == x.rpc

def Slot.isPlace (x : Slot) : Bool := x.st == .joinWait && x.pc != x.rpc

/-- Lanes of the UM of slot `k`, at join `p`, that are live elsewhere (R105). -/
def Splits.liveElse (x : Splits) (k : Bool) (p : D) : Mask :=
  let me := x.slot k
  let o := x.slot !k
  let oAct := if o.st == .empty || (o.isJoiner && o.pc == p) then 0 else o.act
  let sAct := x.stk.foldl (fun m y => m ||| y.act) 0
  me.um &&& ~~~x.exited &&& (oAct ||| sAct) &&& ~~~me.act

/-- Remove the topmost frame for `p`. -/
def takeFrame (p : D) : List Entry → Option (Entry × List Entry)
  | [] => none
  | y :: ys =>
    if y.isFrame && y.pc == p then some (y, ys)
    else (takeFrame p ys).map fun r => (r.1, y :: r.2)

/-- The merge at join `p` by slot `k` (R105, first row). -/
def Splits.merge (x : Splits) (k : Bool) (p : D) : Splits :=
  let me := x.slot k
  let act := me.um &&& ~~~x.exited
  let o := x.slot !k
  let x := if o.isJoiner && o.pc == p then x.set (!k) o.clear else x
  let o := x.slot !k
  if o.isPlace && o.pc == p then
    (x.set (!k) o.clear).set k { me with pc := p + 8, act := act, um := o.um, rpc := o.rpc, st := .ready }
  else
    match takeFrame p x.stk with
    | some (y, rest) =>
      ({ x with stk := rest }).set k { me with pc := p + 8, act := act, um := y.um, rpc := y.rpc, st := .ready }
    | none => x.set k { me with pc := p + 8, act := act, um := act, rpc := 0, st := .ready }

def topIsLive (x : Splits) : Bool :=
  match x.stk with
  | y :: _ => !y.isFrame
  | [] => false

/-- A split reaches `JOIN` at its RPC (R105). -/
def Splits.reachJoin (x : Splits) (k : Bool) (p : D) : Splits :=
  if x.liveElse k p == 0 then x.merge k p
  else if topIsLive x then x.set k (x.slot k).clear
  else x.set k { x.slot k with pc := p, st := .joinWait }

/-- Exchange of R25: a BarWait split gives way to the topmost entry of kind 0 or 1. -/
def exchangeWith (b : Slot) : List Entry → Option (Entry × List Entry)
  | [] => none
  | y :: ys =>
    if y.kind ≤ 1 then some (y, ⟨2, b.pc, b.rpc, b.act, b.um⟩ :: ys)
    else (exchangeWith b ys).map fun r => (r.1, y :: r.2)

/-- Whether some non-exited lane remains in a split or entry whose RPC is `j`: a frame or placeholder with that RPC counts,
since the split that resumes from it still has to reach `j` (R106). -/
def Splits.waitsFor (x : Splits) (j : D) : Bool :=
  let holds (act um : Mask) (rpc : D) : Bool := rpc == j && ((act ||| um) &&& ~~~x.exited) != 0
  (x.s0.st != .empty && holds x.s0.act x.s0.um x.s0.rpc) || (x.s1.st != .empty && holds x.s1.act x.s1.um x.s1.rpc)
    || x.stk.any fun y => holds y.act y.um y.rpc

/-- The waits that leave a split in state Blocked (R19, R108, R180, R182, R185, R186, R191, R209, R319). A word that waits
for its registers or for room in a counter has not issued, and its split is Ready (R23). -/
def Why.isBlocked : Why → Bool
  | .dest _ => false
  | .room _ => false
  | .yielded => false
  | .woken _ => false
  | .lost _ => false
  | _ => true

def Slot.isBlocked (x : Slot) : Bool :=
  match x.st with
  | .blocked y => y.isBlocked
  | _ => false

/-- A slot has lost its last lane by exits. It ends; but where every lane left in its UM already waits at its join, the
merge is pending and takes place here, unless a JoinWait split at that join makes it (R105, R106). -/
def Splits.emptied (x : Splits) (k : Bool) : Splits :=
  let me := x.slot k
  let o := x.slot !k
  if me.rpc != 0 && (me.um &&& ~~~x.exited) != 0 && !(o.isJoiner && o.pc == me.rpc) && x.liveElse k me.rpc == 0 then
    x.merge k me.rpc
  else x.set k me.clear

/-- A `JOIN` split ends while the other slot is Empty, Blocked or JoinWait and an entry with lanes is on top (R105). -/
def Splits.yields (x : Splits) (k : Bool) : Bool :=
  let o := x.slot !k
  (x.slot k).isJoiner && topIsLive x && (o.st == .empty || o.isBlocked || o.st == .joinWait)

def Splits.canMerge (x : Splits) (k : Bool) : Bool := (x.slot k).isJoiner && x.liveElse k (x.slot k).pc == 0

/-- A placeholder for whose join nothing waits (R106). -/
def Splits.idlePlace (x : Splits) (k : Bool) : Bool := (x.slot k).isPlace && !x.waitsFor (x.slot k).pc

/-- The top entry goes to slot `k` (R25). -/
def Splits.pop (x : Splits) (k : Bool) : Splits :=
  match x.stk with
  | y :: ys => { x with stk := ys }.set k (slotOfEntry y)
  | [] => x

/-- One step of the rules of R25 and R105 that act by themselves: a JoinWait split merges or ends, an Empty slot takes the
top entry, the last BarWait split exchanges. -/
def Splits.rule1 (x : Splits) : Option Splits :=
  if x.canMerge true then some (x.merge true x.s1.pc)
  else if x.canMerge false then some (x.merge false x.s0.pc)
  else if x.yields true then some ((if x.s0.st == .empty then x.pop false else x).set true x.s1.clear)
  else if x.yields false then some ((if x.s1.st == .empty then x.pop true else x).set false x.s0.clear)
  else if x.stk.isEmpty then none
  else if x.s0.st == .empty then some (x.pop false)
  else if x.s1.st == .empty then some (x.pop true)
  else if x.s0.st == .barWait && x.s1.st == .barWait then
    match exchangeWith x.s1 x.stk with
    | some (z, stk) => some ({ x with stk := stk }.set true (slotOfEntry z))
    | none => none
  else none

/-- One step of these rules or, after an exit, of the cleanup of placeholders (R106). -/
def Splits.settle1 (x : Splits) (exit : Bool) : Option Splits :=
  match x.rule1 with
  | some y => some y
  | none =>
    if exit && x.idlePlace true then some (x.emptied true)
    else if exit && x.idlePlace false then some (x.emptied false)
    else none

/-- Lanes that some split or entry holds. -/
def Splits.held (x : Splits) : Mask :=
  (if x.s0.st == .empty then 0 else x.s0.act) ||| (if x.s1.st == .empty then 0 else x.s1.act)
    ||| x.stk.foldl (fun m y => m ||| y.act) 0

/-- Frames for which nothing waits are removed after an exit (R106); one whose lanes all wait at its own RPC stays until it
reaches a slot, where their merge takes place. -/
def Splits.prune (x : Splits) : Splits :=
  let pending (y : Entry) : Bool :=
    let m := y.um &&& ~~~x.exited
    y.rpc != 0 && m != 0 && (m &&& x.held) == 0
  { x with stk := x.stk.filter fun y => !y.isFrame || x.waitsFor y.pc || pending y }

/-- The rules act until none does; each step takes an entry, ends a split or is one of a bounded number of merges. -/
def Splits.settle (exit : Bool) : Nat → Splits → Splits
  | 0, x => x
  | n + 1, x =>
    match x.settle1 exit with
    | some y => Splits.settle exit n y
    | none => x

/-- Remove lanes from every slot and entry (R25). -/
def Splits.exitLanes (x : Splits) (m : Mask) : Splits :=
  let f (y : Slot) : Slot := { y with act := y.act &&& ~~~m, um := y.um &&& ~~~m }
  { s0 := f x.s0, s1 := f x.s1, exited := x.exited ||| m,
    stk := x.stk.map fun y => { y with act := y.act &&& ~~~m, um := y.um &&& ~~~m } }

/-! ## Futures -/

def futEmpty : Future := ⟨.empty, 0, 0, .v⟩

def Wave.fut (w : Wave) (f : Nat) : Future := (w.futs[f]?).getD futEmpty

def Wave.setFut (w : Wave) (f : Nat) (x : Future) : Wave := { w with futs := setAt w.futs f x }

/-- A status word (R19). -/
def statusWord (result : Nat) (st : FState) : W :=
  BitVec.ofNat 32 (result % 2 ^ 24 * 256 + (match st with | .done => 1 | .failed => 3 | .cancelled => 5 | _ => 0))

/-- A future leaves Pending, if its register still holds that arming (R190). -/
def Wave.finish (w : Wave) (f : Nat) (serial : W) (st : FState) (result : Nat) : Wave :=
  let x := w.fut f
  if x.st == .pending && x.serial == serial then w.setFut f ⟨st, statusWord result st, serial, x.cls⟩ else w

def State.finishFut (s : State) (gi wi : Nat) (f : Option FR) (serial : W) (st : FState) (result : Nat) : State :=
  match f with
  | some f => s.modWave gi wi fun w => w.finish f.toNat serial st result
  | none => s

/-! ## Ends of waves, gangs and grids -/

/-- A wave ends: no slot, no stack, every lane exited (R25, R310). Its outstanding memory words go on: every write is
performed (R265, R266), and no exit waits for a load (R106). -/
def Wave.stop (w : Wave) : Wave :=
  { w with
    slot0 := w.slot0.clear, slot1 := w.slot1.clear, dsp := 0, exited := allLanes, ended := true, trap := none
    parks := [], bars := [] }

/-- When the last wave exits, an open speculation frame is discarded at its place in the queue, and a draft frame too
(R225, R248). -/
def Gang.dropFrames (g : Gang) : Gang :=
  if g.ch.frameAt then
    { g with
      draft := none, nextOp := g.nextOp + 1
      ch := { g.ch with frameAt := false, queue := g.ch.queue ++ [resolveEntry g.nextOp 0 0] } }
  else { g with draft := none }

/-- A gang stops: waves end, operations and entries are cancelled, an open frame is discarded (R225, R310, R311). -/
def Gang.kill (g : Gang) : Gang :=
  let g : Gang := { g with
    waves := g.waves.map Wave.stop, halter := none
    eops := g.eops.map fun o => { o with cancel := true }
    ch := { g.ch with queue := g.ch.queue.map fun q => { q with cancel := q.cancel || q.freg.isSome } } }
  g.dropFrames

/-- Nothing that a gang's waves have started is left to run (R324). -/
def Gang.quiet (g : Gang) : Bool :=
  g.eops.isEmpty && g.ch.queue.isEmpty && g.ch.frame.isNone
    && g.waves.all fun w => w.ops.isEmpty && w.futs.all fun f => f.st != .pending

/-- A gang whose waves issue: a running one, or a pipeline gang whose stop token still goes round (R312, R315). -/
def Gang.runs (g : Gang) : Bool :=
  match g.st with
  | .running => true
  | .stopping _ => g.stages.any fun x => !x.halted
  | _ => false

def GangSt.live : GangSt → Bool
  | .running => true
  | .stopping _ => true
  | .saved _ => true
  | .ended => true
  | _ => false

def GangSt.resident : GangSt → Bool
  | .running => true
  | .stopping _ => true
  | .ended => true
  | .killed => true
  | _ => false    -- a dropped gang stands on no Byre

/-- Whether grid `id` is, or descends from, grid `root` (R15, R311). -/
def State.descends (s : State) (root : Nat) : Nat → Nat → Bool
  | 0, id => id == root
  | n + 1, id =>
    id == root ||
    match s.grid? id with
    | some r =>
      match r.kind with
      | .child g _ _ _ =>
        match s.gangs.find? (·.id == g) with
        | some g => s.descends root n g.grid
        | none => false
      | _ => false
    | none => false

/-! ## Requesters (R304) -/

/-- Whether a message is the grid message of number `num` for this package. -/
def Msg.isGrid (num : Nat) (m : Msg) : Bool :=
  match m with
  | .grid d n .. => d == Config.pkg && n == num
  | _ => false

/-- Whether a requester still waits on request `id`. -/
def liveWaiter (s : State) (id : Nat) (who : Waiter) : Bool :=
  let gang (g : Nat) : Option Gang := s.gangs.find? (·.id == g)
  match who with
  | .lanes g w =>
    (match (gang g).bind fun g => g.wave? w with
     | some w => w.parks.any fun p => p.req == id && !p.settled
     | none => false)
  | .bar g w => (match (gang g).bind fun g => g.wave? w with | some w => w.bars.any fun b => b.waits == some id | none => false)
  | .silo g t =>
    (match (gang g).bind fun g => if g.st.live then g.troughs[t]? else none with
     | some x => x.silo != 0
     | none => false)
  | .op g o => (match gang g with | some g => g.eops.any fun x => x.id == o && x.waits.contains id | none => false)
  | .entry g o =>
    (match gang g with | some g => g.ch.queue.any fun x => x.id == o && x.waits.contains id | none => false)
  | .task d a =>
    (match s.die? d with
     | some d => d.tasks.any fun t => t.key == a && (t.waits.contains id || t.op.any fun o => o.waits.contains id)
     | none => false)
  | .accept c q =>
    (match (s.ctx? c).bind fun c => c.queues[q]? with
     | some l => l.pend.any fun p => p.waits.contains id
     | none => false)
  | .grid r => (match s.grid? r with | some r => r.waits.contains id | none => false)
  | .message n => s.msgs.any (Msg.isGrid n)

/-- Requests whose requesters have all gone are withdrawn. -/
def sweepReqs (s : State) : State := { s with reqs := s.reqs.filter fun r => r.waiters.any (liveWaiter s r.id) }

/-- Drop a requester from the requests that it waits on. -/
def dropWaiter (s : State) (who : Waiter) : State :=
  sweepReqs { s with reqs := s.reqs.map fun r => { r with waiters := r.waiters.filter (· != who) } }

/-! ## Ending a grid (R311, R345, R346) -/

/-- The end-of-deal notices that the root of a pod-wide grid sends to the other packages. -/
def noticesOf (r : Grid) (abort cancel : Bool) : List Msg :=
  if r.root && r.scope == .pod && r.started then
    (r.pkgs.filter fun p => p.pkg != Config.pkg).map fun p => .endDeal p.pkg r.num abort cancel
  else []

/-- The wave and the armed future of every operation and entry of a gang. -/
def Gang.arms (g : Gang) : List (Nat × Option FR × W) :=
  (g.eops.map fun o => (o.wave, o.freg, o.serial))
    ++ (g.ch.queue ++ ((g.ch.frame.map (·.held)).getD [])).map fun q => (q.wave, q.freg, q.serial)

/-- A saved gang is discarded without restore: what its waves had started ends Cancelled (R311). Its accepted stores, the only
memory words that outlive the save, are still performed (R265, R266). -/
def Gang.discard (g : Gang) : Gang :=
  let end1 (w : Wave) (x : Nat × Option FR × W) : Wave :=
    match x.2.1 with
    | some f => if x.1 == w.idx then w.finish f.toNat x.2.2 .cancelled 0 else w
    | none => w
  { g.kill with
    st := .dropped, eops := [], ch := { g.ch with queue := [], frame := none, frameAt := false }
    waves := g.kill.waves.map fun w => g.arms.foldl end1 w }

/-- A gang of a grid that ends before the gang has completed, counted in CANCG: one whose waves have ended too, while its
operations run (R311, R324). A saved gang is discarded. -/
def Gang.stopped (g : Gang) : Gang :=
  if !g.st.live then g
  else
    match g.st with
    | .saved _ => g.discard
    | _ => { g.kill with st := .killed }

/-- Requests that wait for a queue go, and their futures become Cancelled. DEDUCED (log 41). -/
def dropPends (s : State) (gone : Pend → Bool) : State :=
  let ps := s.ctxs.flatMap fun c => c.queues.flatMap fun q => q.pend.filter gone
  let end1 (g : Gang) (p : Pend) : Gang :=
    match p.kind with
    | .launched | .child .. =>
      if g.id == p.gang then { g with waves := modAt g.waves p.wave fun w => w.finish p.f.toNat p.serial .cancelled 0 } else g
    | _ => g
  { s with
    ctxs := s.ctxs.map fun c => { c with queues := c.queues.map fun q => { q with pend := q.pend.filter fun p => !gone p } }
    gangs := s.gangs.map fun g => ps.foldl end1 g }

/-- Whether a request is the `SPAWN` of a gang of a grid or of its children. -/
def spawnedIn (s : State) (inside : Nat → Bool) (p : Pend) : Bool :=
  match p.kind with
  | .child g _ _ _ => s.gangs.any fun x => x.id == g && inside x.grid
  | _ => false

/-- Stop every gang of a grid and of its children, and stop dealing and spawning (R311 steps 1-5, R346). -/
def stopGrid (s : State) (id : Nat) (abort : Bool) : State :=
  let inside (r : Nat) : Bool := s.descends id 9 r
  let turns (r : Grid) : Bool := inside r.id && !r.early && !r.abort && (abort || !r.cancel)
  let gr (r : Grid) : Grid :=
    if !turns r then r
    else
      { r with
        abort := abort, cancel := r.cancel || !abort
        stat := if r.cancel then r.stat else if abort then 2 else 3 }
  let out := s.grids.flatMap fun r => if turns r then noticesOf r abort (!abort) else []
  let s := dropPends s (spawnedIn s inside)
  sweepReqs { s with
    grids := s.grids.map gr, gangs := s.gangs.map (fun g => if inside g.grid then g.stopped else g), msgs := s.msgs ++ out }

/-- The grid from which a child gang's grid descends: a grid-ending fault in a child gang ends that one. DEDUCED (log 41). -/
def State.rootGrid (s : State) : Nat → Nat → Nat
  | 0, id => id
  | n + 1, id =>
    match s.grid? id with
    | some r =>
      (match r.kind with
       | .child g _ _ _ =>
         (match s.gangs.find? (·.id == g) with
          | some g => s.rootGrid n g.grid
          | none => id)
       | _ => id)
    | none => id

/-- Count a fault report in a grid; the first stands (R344, R345). -/
def Grid.addFault (x : Grid) (r : FaultRep) : Grid :=
  { x with faults := x.faults + 1, first := some (x.first.getD r), fmap := insertNat (r.widx.toNat / 2 ^ 19 % 512) x.fmap }

/-- Record a fault in its grid and end the grid; a package that is not the root reports it to the root (R345). -/
def faultGrid (s : State) (id : Nat) (r : FaultRep) : State :=
  let id := s.rootGrid 9 id
  let s := (stopGrid s id true).modGrid id fun x => x.addFault r
  match s.grid? id with
  | some x => if x.root then s else { s with msgs := s.msgs ++ [.fault x.num Config.pkg r] }
  | none => s

/-! ## Taking a trap (R306-R311) -/

/-- A trap to be taken: class, subcode, detail, `TVAL` and `TMASK`. -/
structure Trap where
  cls    : Nat
  sub    : Nat
  detail : Nat
  tval   : D
  tmask  : Mask
  deriving DecidableEq, Repr

def trIllegal (e : Env) (sub field : Nat) (half : Bool) : Trap :=
  ⟨1, sub, field * 16 + half.toNat, e.word, e.act⟩
def trMember (e : Env) : Trap := ⟨2, 0, 0, 0, e.act⟩
def trLatch (e : Env) (sub : Nat) : Trap := ⟨3, sub, 0, e.word, e.act⟩
def trAccess (sub : Nat) (va : Nat) (m : Mask) : Trap := ⟨4, sub, 0, BitVec.ofNat 64 va, m⟩
def trAlign (sub : Nat) (va : Nat) (m : Mask) : Trap := ⟨5, sub, 0, BitVec.ofNat 64 va, m⟩
def trPoison (sub reg : Nat) (m : Mask) : Trap := ⟨6, sub, 0, BitVec.ofNat 64 reg, m⟩
def trDstk (sub : Nat) (m : Mask) : Trap := ⟨7, sub, 0, 0, m⟩
def trSilo (off : Nat) (m : Mask) : Trap := ⟨8, 0, 0, BitVec.ofNat 64 off, m⟩
def trFuture (sub val : Nat) (m : Mask) : Trap := ⟨10, sub, 0, BitVec.ofNat 64 val, m⟩
def trDiv0 (x : W) (m : Mask) : Trap := ⟨11, 0, 0, x.setWidth 64, m⟩
def trFp (fl : Flags) (m : Mask) : Trap := ⟨12, 0, fl.toNat, 0, m⟩

/-- `TCAUSE` (R32). -/
def causeWord (t : Trap) : W := BitVec.ofNat 32 (t.cls % 256 + t.sub % 256 * 256 + t.detail % 256 * 65536)

def faultRepOf (g : Gang) (w : Wave) (t : Trap) (pc : D) : FaultRep :=
  ⟨causeWord t, widxWord g w, pc, t.tval, g.gx, g.gy, g.gz, 0⟩

def loseLatches (ls : List Latch) : List Latch := ls.map fun l => { l with lost := true }

/-- The first four scalar registers as bytes (R309). -/
def saveBytes (rs : List W) : List Byte := (rs.take 4).flatMap fun x => natLe 4 x.toNat

/-- The poison marks of the two granules that hold `s0`-`s3` in the trap save area (R175). -/
def saveBad (bad : List Nat) (a : Nat) (m : BitVec 64) : List Nat :=
  let one (bad : List Nat) (i : Nat) : List Nat :=
    if m.getLsbD (2 * i) || m.getLsbD (2 * i + 1) then addBad bad (a / 8 + i) else clearBad bad (a / 8 + i)
  one (one bad 0) 1

/-- `TBASE` of a gang: its context's (R28). -/
def State.tbaseOf (s : State) (g : Gang) : D := ((s.ctx? g.ctx).map (·.tbase)).getD 0

/-- Registers that an outstanding memory word will write. -/
def Dst.hitsV (d : Dst) (n : Nat) : Bool :=
  match d with
  | .vec v k => v.toNat ≤ n && n < v.toNat + k
  | _ => false

def Dst.hitsS (d : Dst) (n : Nat) : Bool :=
  match d with
  | .scl v k => v.toNat ≤ n && n < v.toNat + k
  | _ => false

/-- A memory word that will write one of `s0`-`s3`, which trap entry saves and rewrites. -/
def MemOp.hitsSaved (o : MemOp) : Bool := [0, 1, 2, 3].any o.dst.hitsS

/-- Such a memory word is outstanding (R169). -/
def Wave.trapBusy (w : Wave) : Bool := w.ops.any MemOp.hitsSaved

/-- Trap entry by slot `k` of a wave (R309): the saved registers and the trap registers are written, the slot runs the
handler at `TBASE` on the lanes of `TMASK`, privileged. With no handler (R311), or inside a handler, the grid ends. While a
load into `s0`-`s3` is outstanding the split waits at its word, which then traps again. DEDUCED (logs 36, 56). -/
def takeTrap (s : State) (gi wi : Nat) (k : Bool) (t : Trap) : State :=
  match s.gang? gi with
  | none => s
  | some g =>
    match g.wave? wi with
    | none => s
    | some w =>
      let x := w.slot k
      let pc := x.pc &&& ~~~(7 : D)
      let tb := s.tbaseOf g
      if tb == 0 || w.trap.isSome then faultGrid s g.grid (faultRepOf g w t pc)
      else if w.trapBusy then s.setWave gi wi (w.setSlot k { x with st := .blocked (w.waitOn MemOp.hitsSaved) })
      else
        let save := w.dsaddr + 2048
        let s := s.openArea gi true save.toNat 16
        let s := { s with
          mem := s.mem.write save.toNat (saveBytes w.sregs), memBad := saveBad s.memBad save.toNat w.sbad }
        let w := { w with
          latches := loseLatches w.latches, tcause := causeWord t, tpc := pc, tmask := t.tmask, tval := t.tval
          trap := some ⟨k, x.pc, x.act, x.um, x.rpc, t.tmask, !((w.slot !k).st == SlotSt.empty), w.dsp⟩
          sregs := lo32 save :: hi32 save :: w.sregs.drop 2, sbad := w.sbad &&& ~~~(3 : BitVec 64) }
        s.setWave gi wi (w.setSlot k { x with pc := tb, act := t.tmask, um := t.tmask, rpc := 0, st := .ready })

def Env.trap (e : Env) (t : Trap) : State := takeTrap e.s e.gi e.wi e.k t

/-- Whether the other slot may issue: not while a trap is handled in this wave (R25). -/
def Wave.mayIssue (w : Wave) (k : Bool) : Bool :=
  match w.trap with
  | some t => t.slot == k
  | none => true

/-- Return from a handler to `pc` without the lanes exited in it (R111, R310): `s0`-`s3` are reloaded through the context's
key, latches lost. A split left without lanes ends. -/
def trapReturn (s : State) (gi wi : Nat) (pc : D) : State :=
  match s.wave? gi wi with
  | none => s
  | some w =>
    match w.trap with
    | none => s
    | some t =>
      let a := (w.dsaddr + 2048).toNat
      let s := s.openArea gi false a 16
      let r (i : Nat) : W := BitVec.ofNat 32 (s.mem.num (a + 4 * i) 4)
      let b (i : Nat) : BitVec 64 := if s.memBad.contains (a / 8 + i) then BitVec.ofNat 64 (3 * 4 ^ i) else 0
      let act := t.act &&& ~~~w.exited
      let um := t.um &&& ~~~w.exited
      let w := { w.joined act with
        trap := none, latches := loseLatches w.latches, sregs := r 0 :: r 1 :: r 2 :: r 3 :: w.sregs.drop 4
        sbad := (w.sbad &&& ~~~(15 : BitVec 64)) ||| b 0 ||| b 1 }
      let s := s.setWave gi wi
        (w.setSlot t.slot { w.slot t.slot with pc := pc, act := act, um := um, rpc := t.rpc, st := .ready })
      if act == 0 then
        match s.wave? gi wi with
        | some w => s.putSplits gi wi ((s.splits gi w).emptied t.slot)
        | none => s
      else s

/-- A memory word of the wave that still has to reach the bytes that a return reads, or a register that it writes (R309,
R256). -/
def Wave.holdsReturn (w : Wave) (o : MemOp) : Bool :=
  let a := (w.dsaddr + 2048).toNat
  o.hitsSaved || o.accs.any fun x =>
    match x.loc with
    | .mem k => a < k + 16 && k < a + 16
    | .spad _ => false

/-- Such a memory word is outstanding. -/
def Wave.returnBusy (w : Wave) : Bool := w.ops.any w.holdsReturn

/-! ## Barrier objects (R181, R182, R184) -/

/-- A 32-bit word of an object. -/
def State.objNum (s : State) (gi : Nat) (o : Loc) (off : Nat) : Nat := s.numLoc gi (o.add off) 4

/-- L1 copies of a changed object are dropped: every class sees objects coherently (R255). -/
def dropCopies (s : State) (o : Loc) : State :=
  match o with
  | .mem k =>
    { s with
      l1 := s.l1.filter fun c => c.key != k / 128
      obuf := s.obuf.filter fun c => c.key != k / 128
      olds := s.olds.filter fun c => c.line != k / 128 }
  | .spad _ => s

/-- Write words of an object as one access. -/
def State.putObj (s : State) (gi : Nat) (o : Loc) (off : Nat) (ws : List Nat) : State :=
  dropCopies (s.writeLoc gi (o.add off) (ws.flatMap fun x => natLe 4 (x % 2 ^ 32))) o

def objPub (s : State) (gi : Nat) (o : Loc) : Nat := s.objNum gi o 8 / 256 % 64

/-- Drop a Byre's Churn operand lines filled up to serial `n` (R255, R261). -/
def dropObuf (s : State) (byre n : Nat) : State :=
  { s with obuf := s.obuf.filter fun c => !(c.byre == byre && c.serial ≤ n) }

/-- What gangs that have left had seen or published to a class at `.die` and wider (R261, R262). -/
def State.pubOf (s : State) (t : PClass) : Nat := ((s.pubs.find? fun x => x.1 == t).map (·.2)).getD 0

/-- What an engine class's commands of a wave see (R180, R261). -/
def Wave.view (w : Wave) (t : PClass) : Nat := ((w.views.find? fun x => x.1 == t).map (·.2)).getD 0

/-- The commands of class `t` that the wave starts from now on see every write before serial `n`. -/
def Wave.raiseView (w : Wave) (t : PClass) (n : Nat) : Wave :=
  { w with views := mapIf (fun x => x.1 == t) (fun x => (x.1, max x.2 n)) w.views }

/-- Every write before this serial is seen by accesses of a class on some wave of a gang: by loads under the L1 floor, by an
engine class's commands. -/
def Gang.sees (g : Gang) (t : PClass) : Nat :=
  g.waves.foldl (fun n w => max n (if t == .v then w.floors.foldl max 0 else w.view t)) 0

/-- What a gang's waves see of a class, or have published to it at `.die` and wider. -/
def Gang.shows (g : Gang) (t : PClass) : Nat :=
  if t == .v then g.waves.foldl (fun n w => max n w.pubs) (g.sees t) else g.sees t

/-- What some agent in an instance of a scope sees of a class: of the gang; or at `.die` and wider of the package, with what
releases at those scopes have published, by gangs that have left too. An acquire takes over what the releasing agent has
acquired (R260-R262). DEDUCED (log 72). -/
def State.viewAt (s : State) (gi scope : Nat) (t : PClass) : Nat :=
  if scope < 2 then (match s.gang? gi with | some g => g.sees t | none => 0)
  else s.gangs.foldl (fun n g => max n (g.shows t)) (s.pubOf t)

/-- The highest L1 floor in an instance of a scope. -/
def State.floorAt (s : State) (gi scope : Nat) : Nat := s.viewAt gi scope .v

/-- A gang leaves; what it has seen or published stays seen (R261, R262). -/
def State.keepViews (s : State) (g : Gang) : State :=
  { s with pubs := [PClass.v, .c, .m, .b, .s, .h].map fun t => (t, max (s.pubOf t) (g.shows t)) }

/-- A wave after lanes `m` have acquired at a scope: it takes over what the agents of the instance have acquired. -/
def State.acquired (s : State) (gi : Nat) (w : Wave) (m : Mask) (scope : Nat) : Wave :=
  let w := { w with views := w.views.map fun (x : PClass × Nat) => (x.1, max x.2 (s.viewAt gi scope x.1)) }
  w.raise m (s.floorAt gi scope)

def State.acquire (s : State) (gi wi : Nat) (m : Mask) (scope : Nat) : State :=
  s.modWave gi wi fun w => s.acquired gi w m scope

/-- SCOPE of an object. -/
def objScope (s : State) (gi : Nat) (o : Loc) : Nat := s.objNum gi o 8 / 2 % 8

/-- A wave whose lanes `m` have read a future that has left Pending: it has observed an operation of class `t`, and takes over
what the gang's waves have acquired (R180, R259, R260); the end of a child grid, of class V, is an acquire of its writes. -/
def State.futSeen (s : State) (gi : Nat) (w : Wave) (m : Mask) (t : PClass) : Wave :=
  let w := s.acquired gi { w with seen := (t, s.fills) :: w.seen.filter (·.1 != t) } m 0
  if t == .v then w.raise m (s.fills + 1) else w

/-- Classes of a publish mask (R181). -/
def pubClasses (pub : Nat) : List PClass :=
  ([(PClass.v, 0), (.c, 1), (.m, 2), (.b, 3), (.s, 4), (.h, 5)].filter fun x => pub / 2 ^ x.2 % 2 == 1).map (·.1)

/-- A wave whose lanes `m` have observed a completed phase: it has seen the arrivals of the engines and takes over what the
arriving parties had acquired; accesses of a published class see every earlier write (R184, R261). -/
def State.phaseSeen (s : State) (gi : Nat) (o : Loc) (w : Wave) (m : Mask) : Wave :=
  let pub := pubClasses (objPub s gi o)
  let w := s.acquired gi w m (objScope s gi o)
  let w := { w with
    seen := [(.c, s.fills), (.m, s.fills), (.b, s.fills), (.s, s.fills)] ++ w.seen.filter fun x => x.1 == .v || x.1 == .h }
  let w := pub.foldl (fun w t => w.raiseView t (s.fills + 1)) w
  if pub.contains .v then w.raise m (s.fills + 1) else w

/-- The same for the state: with M published, older operand lines of the Byre go. -/
def sawPhase (s : State) (gi wi : Nat) (m : Mask) (o : Loc) : State :=
  match s.gang? gi with
  | some g =>
    let t := s.modWave gi wi fun w => s.phaseSeen gi o w m
    if (pubClasses (objPub s gi o)).contains .m then dropObuf t g.byreId s.fills else t
  | none => s

/-- A BarWait split goes on past its word. -/
def Slot.passBar (x : Slot) : Slot := if x.st == .barWait then { x with pc := x.pc + 8, st := .ready } else x

/-- Lanes that wait at a barrier, in slots and in kind-2 entries. -/
def Splits.barLanes (x : Splits) : Mask :=
  let f (y : Slot) : Mask := if y.st == .barWait then y.act else 0
  f x.s0 ||| f x.s1 ||| x.stk.foldl (fun m e => if e.kind == 2 then m ||| e.act else m) 0

/-- A wave that has arrived at the object goes on (R25, R182). A split in `BARW` issues its word again and finds the new
GEN. -/
def releaseWave (s : State) (obj : Loc) (gi wi : Nat) : State :=
  match s.wave? gi wi with
  | none => s
  | some w =>
    if !w.bars.any fun b => b.arrived && b.obj == obj then s
    else
      let x := s.splits gi w
      let y : Splits :=
        { s0 := x.s0.passBar, s1 := x.s1.passBar, exited := x.exited
          stk := x.stk.map fun e => if e.kind == 2 then { e with kind := 0, pc := e.pc + 8 } else e }
      sawPhase ((s.putSplits gi wi y).modWave gi wi fun w => { w with bars := [] }) gi wi x.barLanes obj

/-- Release every waiter on an object: of the gang for a scratchpad object, of the package else. -/
def releaseAll (s : State) (gi : Nat) (obj : Loc) : State :=
  (List.range s.gangs.length).foldl (fun s gj =>
    if obj.isSpad && gj != gi then s
    else
      match s.gang? gj with
      | some g => (List.range g.waves.length).foldl (fun s wj => releaseWave s obj gj wj) s
      | none => s) s

/-- One phase completes; the device writes the object's must-be-zero bits as zero (R69, R181). -/
def completePhase (s : State) (gi : Nat) (obj : Loc) : State :=
  let gen := (s.objNum gi obj 12 + 1) % 2 ^ 32
  releaseAll (s.putObj gi obj 8 [objPub s gi obj * 256 + objScope s gi obj * 2 + gen % 2, gen]) gi obj

/-- `Arrive(n)` (R182): an arrival of 0 changes nothing, and a poisoned object stays as it is (R175). DEDUCED (log 43). -/
def arrive (s : State) (gi : Nat) (obj : Loc) (n : Nat) : State :=
  if n == 0 || s.rangeBad gi obj 16 then s
  else
    let a := (s.objNum gi obj 0 + n) % 2 ^ 32
    let ex := s.objNum gi obj 4
    if ex == 0 then completePhase (s.putObj gi obj 0 [0]) gi obj
    else if ex ≤ a then completePhase (s.putObj gi obj 0 [a - ex]) gi obj
    else s.putObj gi obj 0 [a]

/-! ## Settling a wave -/

/-- Lanes in BarWait splits and kind-2 entries, and whether they all stand at one word. -/
def Splits.atBar (x : Splits) (pc : D) : Mask :=
  let f (y : Slot) : Mask := if y.st == .barWait && y.pc == pc then y.act else 0
  f x.s0 ||| f x.s1 ||| x.stk.foldl (fun m e => if e.kind == 2 && e.pc == pc then m ||| e.act else m) 0

/-- Every non-exited lane of a wave waits at one word for one object (R26, R183). -/
def allAtBar (s : State) (gi : Nat) (w : Wave) (b : BarLanes) (bars : List BarLanes) : Bool :=
  let live := ~~~w.exited
  !w.ended && live != 0 && bars.all (fun x => x.pc == b.pc && x.obj == b.obj && !x.arrived && !x.dropped && x.waits.isNone)
    && (s.splits gi w).atBar b.pc &&& live == live

/-- Where a wave's arrival finds its object now: a scratchpad place, or the place that its address translates to (R376). -/
def arrivalPlace (s : State) (g : Gang) (w : Wave) (b : BarLanes) : Tr :=
  match b.obj with
  | .spad _ => .ok 0
  | .mem _ => translate s g ⟨true, false, privileged g w⟩ b.va 16

/-- The wave arrives once all its lanes wait at the word and the earlier accesses that its arrival follows are performed (R184,
R258). The arrival is translated like any other access: it waits for
a page that is not resident, and is dropped where translation fails (R168, R376). DEDUCED (logs 27, 46). -/
def arriveIfAll (s : State) (gi wi : Nat) : State :=
  match s.gang? gi, s.wave? gi wi with
  | some g, some w =>
    (match w.bars with
     | [] => s
     | b :: _ =>
       let bars := w.bars.filter fun x => x.lanes &&& ~~~w.exited != 0
       if !allAtBar s gi w b bars || w.ops.any (holdsArrival (objPub s gi b.obj)) then s
       else
         match arrivalPlace s g w b with
         | .ok k =>
           let obj := match b.obj with | .spad o => Loc.spad o | .mem _ => Loc.mem k
           arrive (s.setWave gi wi { w with arrSeq := w.opSeq, bars := bars.map fun x => { x with arrived := true, obj := obj } })
             gi obj 1
         | .park =>
           let r := addReq s g.die g.ctx b.va 0 4 (reqWord g w false) (.bar g.id w.idx)
           r.1.setWave gi wi { w with bars := bars.map fun x => { x with waits := some r.2 } }
         | .fail _ => s.setWave gi wi { w with bars := bars.map fun x => { x with dropped := true } })
  | _, _ => s

/-- Drop a slot whose lanes have all exited. -/
def dropSlot (exited : Mask) (y : Slot) : Slot :=
  if y.st != .empty && !y.isPlace && (y.um &&& ~~~exited) == 0 then y.clear else y

/-- Apply the rules of R25 and R105 until none acts and, after an exit, those of R106. -/
def settleSplits (exit : Bool) (x : Splits) : Splits :=
  let x := { x with s0 := dropSlot x.exited x.s0, s1 := dropSlot x.exited x.s1 }
  let x := Splits.settle exit 80 x
  let x := if exit then Splits.settle exit 80 x.prune else x
  { x with s0 := dropSlot x.exited x.s0, s1 := dropSlot x.exited x.s1 }

/-- Inside a handler the rules act on the handler's own slot and entries; what the wave held at trap entry is untouched
(R25). -/
def settleHandler (exit : Bool) (x : Splits) (t : TrapSave) : Splits :=
  let own := x.stk.take (x.stk.length - t.dsp)
  let rest := x.stk.drop (x.stk.length - t.dsp)
  let o := x.slot !t.slot
  let y := { x with stk := own }
  let y := if t.foreign then y.set (!t.slot) { o with st := .parked, rpc := 0 } else y
  let y := settleSplits exit y
  let y := if t.foreign then y.set (!t.slot) o else y
  { y with stk := y.stk ++ rest }

/-- Settle a wave's splits, after an exit or not; a wave without splits ends. -/
def settleWave (s : State) (gi wi : Nat) (exit : Bool) : State :=
  match s.wave? gi wi with
  | none => s
  | some w =>
    if w.ended then s
    else
      match w.trap with
      | some t => s.putSplits gi wi (settleHandler exit (s.splits gi w) t)
      | none =>
        let x := settleSplits exit (s.splits gi w)
        let s := s.putSplits gi wi x
        if x.s0.st == .empty && x.s1.st == .empty && x.stk.isEmpty then s.modWave gi wi Wave.stop else s

/-- Whether wave `wi` of a gang has ended. -/
def Gang.hasEnded (g : Gang) (wi : Nat) : Bool :=
  match g.wave? wi with
  | some w => w.ended
  | none => true

/-- A gang whose waves have all ended has ended (R106); its operations may still run. One that is being pre-empted goes on
being so while any do (R312, R318). The halter of an ended wave is free (R186). -/
def settleGang (s : State) (gi : Nat) : State :=
  s.modGang gi fun g =>
    let g := if g.halter.any g.hasEnded then { g with halter := none } else g
    if !g.waves.all (·.ended) then g
    else
      match g.st with
      | .running => { g.dropFrames with st := .ended }
      | .stopping _ => if g.dropFrames.quiet then { g.dropFrames with st := .ended } else g.dropFrames
      | _ => g

def settle (s : State) (gi wi : Nat) (exit : Bool := false) : State :=
  settleGang (arriveIfAll (settleWave s gi wi exit) gi wi) gi

/-- Whether the word at `TPC` is an `XVEC` (R310). -/
def atXvec (s : State) (g : Gang) (w : Wave) : Bool :=
  match fetch s g w w.tpc with
  | .word x =>
    (match decodeWord x with
     | .ok (.xvec _) => true
     | _ => false)
  | _ => false

/-- Every lane of the handler has exited: the trapping split resumes, once what a return waits for is done (R310). -/
def handlerDone (s : State) (gi wi : Nat) : State :=
  match s.gang? gi with
  | none => s
  | some g =>
    match g.wave? wi with
    | none => s
    | some w =>
      match w.trap with
      | none => s
      | some t =>
        if (t.lanes &&& ~~~w.exited) != 0 || w.returnBusy then s
        else trapReturn s gi wi (if w.tcause.toNat % 256 == 9 || atXvec s g w then w.tpc + 8 else w.tpc)

/-- Exit lanes of slot `k` (R106). -/
def exitLanes (s : State) (gi wi : Nat) (k : Bool) (m : Mask) : State :=
  match s.wave? gi wi with
  | none => s
  | some w =>
    let x := (s.splits gi w).exitLanes m
    let x := if (x.slot k).act == 0 then x.emptied k else x
    settle (handlerDone (s.putSplits gi wi x) gi wi) gi wi true

/-- An outstanding memory word of a wave has been performed: a handler without lanes may return now, and a wave whose lanes
all wait at a barrier may arrive (R184, R310). -/
def opDone (s : State) (gi wi : Nat) : State :=
  match s.wave? gi wi with
  | none => s
  | some w =>
    match w.trap with
    | some t => if (t.lanes &&& ~~~w.exited) != 0 then s else settle (handlerDone s gi wi) gi wi true
    | none => if w.bars.isEmpty then s else arriveIfAll s gi wi

end Sys2Proof.Machine
end

