-- ==== Sys2Proof/Machine/Random.lean ====
section
/-! DEFINITION. Philox draws and the units of stochastic rounding (R159-R161). -/

namespace Sys2Proof.Machine

structure Philox where
  c0 : Nat
  c1 : Nat
  c2 : Nat
  c3 : Nat
  deriving DecidableEq, Repr

/-- The rounds of Philox4x32 with the key update (R160). -/
def philoxRounds : Nat → Nat → Nat → Philox → Philox
  | 0, _, _, x => x
  | n + 1, k0, k1, x =>
    let p := 0xD2511F53 * x.c0
    let q := 0xCD9E8D57 * x.c2
    philoxRounds n ((k0 + 0x9E3779B9) % 2 ^ 32) ((k1 + 0xBB67AE85) % 2 ^ 32)
      ⟨(q / 2 ^ 32) ^^^ x.c1 ^^^ k0, q % 2 ^ 32, (p / 2 ^ 32) ^^^ x.c3 ^^^ k1, p % 2 ^ 32⟩

/-- The linear index of a gang in its grid (R160, R325). -/
def linIdx (g : Gang) : Nat := g.gx + g.dx * (g.gy + g.dy * g.gz)

/-- The draw of lane `l` of wave `wv` at counter `c` (R160). -/
def drawLane (g : Gang) (wv : Nat) (c : D) (l : Nat) : Philox :=
  let n := linIdx g
  philoxRounds 10 (g.rngkey.toNat % 2 ^ 32) (g.rngkey.toNat / 2 ^ 32)
    ⟨c.toNat % 2 ^ 32, c.toNat / 2 ^ 32, (wv * 96 + l) + n / 2 ^ 32 % 256 * 2 ^ 11, n % 2 ^ 32⟩

def Philox.out (x : Philox) (i : Nat) : Nat := if i == 0 then x.c0 else if i == 1 then x.c1 else if i == 2 then x.c2 else x.c3

/-- Unit `i` of a draw: the 16-bit halves, low half first (R160). -/
def Philox.unit (x : Philox) (i : Nat) : Nat := x.out (i / 2) / 2 ^ (16 * (i % 2)) % 2 ^ 16

/-- The draws of a wave at its present counter: lane and unit to 16 bits. -/
def drawUnit (g : Gang) (w : Wave) (l i : Nat) : Nat := (drawLane g w.idx w.rngctr l).unit i

/-- One counter step (R161). -/
def Wave.step (w : Wave) (draws : Bool) : Wave := if draws then { w with rngctr := w.rngctr + 1 } else w

end Sys2Proof.Machine
end

