-- ==== Sys2Proof/Machine/Operands.lean ====
section
/-! DEFINITION. Reading and writing registers, latches, specials and constants (R17-R22, R53-R57), the checks that a
word's operands pass before it has any effect (R67, R57, R20, R169, R176, in the order of R306), and the shared frame
of words that compute a register from registers. -/

namespace Sys2Proof.Machine

/-! ## Registers -/

def zeroReg : VReg := ⟨List.replicate 96 0, 0⟩

def Wave.vreg (w : Wave) (n : Nat) : VReg := (w.vregs[n]?).getD zeroReg

def VReg.lane (r : VReg) (l : Nat) : W := (r.lanes[l]?).getD 0

/-- Scalar registers; `s60`-`s62` are views of the activity mask of slot `k` (R22). -/
def Wave.sreg (w : Wave) (k : Bool) (n : Nat) : W :=
  if 60 ≤ n && n ≤ 62 then maskWord (w.slot k).act (n - 60) else (w.sregs[n]?).getD 0

def Wave.sregBad (w : Wave) (n : Nat) : Bool := !(60 ≤ n && n ≤ 62) && w.sbad.getLsbD n

def Wave.pair (w : Wave) (k : Bool) (n : Nat) : D := joinPair (w.sreg k n) (w.sreg k (n + 1))

def Wave.triple (w : Wave) (k : Bool) (n : Nat) : Mask :=
  maskOfWords (w.sreg k n) (w.sreg k (n + 1)) (w.sreg k (n + 2))

/-- Write a scalar register; a view keeps only lanes of the present mask (R22). -/
def Wave.setSreg (w : Wave) (k : Bool) (n : Nat) (x : W) (bad : Bool) : Wave :=
  if 60 ≤ n && n ≤ 62 then
    w.modSlot k fun y =>
      let i := n - 60
      let m := BitVec.ofNat 96 (x.toNat * 2 ^ (32 * i) + (2 ^ 96 - 1 - (2 ^ 32 - 1) * 2 ^ (32 * i)))
      { y with act := y.act &&& m }
  else
    let bit := BitVec.ofNat 64 (2 ^ n)
    { w with sregs := setAt w.sregs n x, sbad := if bad then w.sbad ||| bit else w.sbad &&& ~~~bit }

/-- Write consecutive scalar registers. -/
def Wave.setSregs (w : Wave) (k : Bool) (n : Nat) : List W → Bool → Wave
  | [], _ => w
  | x :: xs, bad => Wave.setSregs (w.setSreg k n x bad) k (n + 1) xs bad

/-- A register's contents after lanes `m` take new values (R16, R49). -/
def mergeReg (r : VReg) (m : Mask) (vals : List W) (bad : Mask) : VReg :=
  { lanes := ((vals.zip r.lanes).zip laneList).map fun p => if m.getLsbD p.2 then p.1.1 else p.1.2
    bad := (r.bad &&& ~~~m) ||| (bad &&& m) }

def Wave.setVreg (w : Wave) (n : Nat) (r : VReg) : Wave := { w with vregs := setAt w.vregs n r }

/-! ## Latches (R20) -/

/-- Shift the window by one. -/
def Wave.push (w : Wave) (v : LatchVal) (nw : Bool) : Wave := { w with latches := ⟨v, nw, false⟩ :: w.latches.take 7 }

def Wave.pushNone (w : Wave) : Wave := w.push .untagged false

/-- What a read of a latch yields: the tagged register's number with its value, or the subcode of `LATCH`. -/
inductive LatchRead
  | stop (sub : Nat)
  | vec (n : Nat) (r : VReg)
  | scl (n : Nat) (x : W) (bad : Bool)
  deriving DecidableEq, Repr

def Wave.latch (w : Wave) (k : Bool) (i : Nat) : LatchRead :=
  match w.latches[i]? with
  | none => .stop 1
  | some l =>
    match l.val with
    | .untagged => .stop 1
    | .vec n r =>
      if l.lost && l.nw then .stop 0
      else .vec n.toNat (if l.lost then w.vreg n.toNat else r)
    | .scl n x b =>
      if l.lost && l.nw then .stop 0
      else if l.lost then .scl n.toNat (w.sreg k n.toNat) (w.sregBad n.toNat) else .scl n.toNat x b

/-- The register that a source names, a latch by its tag (R57). -/
def tagSrc (w : Wave) (k : Bool) (a : Src) : Src :=
  match a with
  | .l i =>
    match w.latch k i.toNat with
    | .stop _ => a
    | .vec n _ => .v (BitVec.ofNat 7 n)
    | .scl n _ _ => .s (BitVec.ofNat 6 n)
  | a => a

/-! ## Values of sources -/

/-- A lane-view special in lane `l` (R55). -/
def laneSpecial (wv : Nat) (x : LaneSpecial) (l : Nat) : W :=
  match x with
  | .lid => BitVec.ofNat 32 l
  | .zero => 0
  | .ones => BitVec.allOnes 32
  | .lbeat => BitVec.ofNat 32 (l / 32)
  | .lsub => BitVec.ofNat 32 (l % 32)
  | .glid => BitVec.ofNat 32 (wv * 96 + l)

def splat (x : W) (bad : Bool) : VReg := ⟨List.replicate 96 x, if bad then allLanes else 0⟩

/-- A source of a vector word, as 96 lanes, under the type that constants take (R48, R56). -/
def Env.vsrc (e : Env) (t : Ty) (a : Src) : VReg :=
  match a with
  | .v n => e.w.vreg n.toNat
  | .s n => splat (e.w.sreg e.k n.toNat) (e.w.sregBad n.toNat)
  | .f _ => zeroReg
  | .x x => ⟨laneList.map (laneSpecial e.w.idx x), 0⟩
  | .k n => splat (constTy t n.toNat) false
  | .l i =>
    match e.w.latch e.k i.toNat with
    | .stop _ => zeroReg
    | .vec _ r => r
    | .scl _ x b => splat x b

/-- A 32-bit source of a scalar word, constants as signed 32-bit integers, or in a type (R56). -/
def Env.ssrc (e : Env) (t : Ty) (a : Src) : W × Bool :=
  match a with
  | .s n => (e.w.sreg e.k n.toNat, e.w.sregBad n.toNat)
  | .x x => (laneSpecial e.w.idx x 0, false)
  | .k n => (constTy t n.toNat, false)
  | .f f => ((e.w.fut f.toNat).status, false)
  | .l i =>
    match e.w.latch e.k i.toNat with
    | .scl _ x b => (x, b)
    | _ => (0, false)
  | .v _ => (0, false)

/-- A 64-bit source (R55, R56): a pair; a latch supplies the low half and the register above its tag the high half.
DEDUCED (log 29). -/
def Env.psrc (e : Env) (a : Src) : D × Bool :=
  match a with
  | .s n => (e.w.pair e.k n.toNat, e.w.sregBad n.toNat || e.w.sregBad (n.toNat + 1))
  | .l i =>
    match e.w.latch e.k i.toNat with
    | .scl n x b => (joinPair x (e.w.sreg e.k (n + 1)), b || e.w.sregBad (n + 1))
    | _ => (0, false)
  | .k n => (ofInt64 (constTy .s32 n.toNat).toInt, false)
  | .x x => (joinPair (laneSpecial e.w.idx x 0) (laneSpecial e.w.idx x 0), false)
  | _ => (0, false)

/-- The number of the register named by a source, for `TVAL` of `POISON` (R54, R176). -/
def srcNum (w : Wave) (k : Bool) (a : Src) : Nat := (tagSrc w k a).enc.toNat

/-! ## Checks -/

/-- Why a word does not run: it traps, or waits. -/
inductive Stop
  | trap (t : Trap)
  | wait (y : Why)
  deriving DecidableEq, Repr

abbrev Chk := Except Stop

def need (ok : Bool) (t : Trap) : Chk Unit := if ok then .ok () else .error (.trap t)

def needWait (ok : Bool) (y : Why) : Chk Unit := if ok then .ok () else .error (.wait y)

/-- Wait until no outstanding memory word of the wave passes a test. -/
def chkClear (e : Env) (p : MemOp → Bool) : Chk Unit := needWait (!e.w.ops.any p) (e.w.waitOn p)

/-- A field of a word: its code (R68), its source and its class. -/
structure Fld where
  code : Nat
  src  : Src
  cls  : Src → Bool

/-- Check 6 of R67 on a vector register range named by a field (R17). -/
def chkFoot (e : Env) (code n len : Nat) : Chk Unit := need (n + len ≤ e.g.vcount) (trIllegal e 4 code false)

def chkFootSrc (e : Env) (code : Nat) (a : Src) : Chk Unit :=
  match a with
  | .v n => chkFoot e code n.toNat 1
  | _ => .ok ()

/-- Check 5 of R67. -/
def chkPriv (e : Env) : Chk Unit := need e.priv (trIllegal e 3 0 false)

/-- `LATCH` (R20). -/
def latchStop (e : Env) (a : Src) : Option Nat :=
  match a with
  | .l i =>
    match e.w.latch e.k i.toNat with
    | .stop n => some n
    | _ => none
  | _ => none

/-- Class of a latch by its tag (R57). -/
def latchClass (e : Env) (f : Fld) : Bool :=
  match f.src with
  | .l _ =>
    match tagSrc e.w e.k f.src with
    | .l _ => true
    | a => (latchStop e f.src).isSome || f.cls a
  | _ => true

def chkAll {α : Type} (f : α → Chk Unit) : List α → Chk Unit
  | [] => .ok ()
  | x :: xs => do f x; chkAll f xs

/-- Latch checks of a word's fields, in field order: class, then `LATCH`. -/
def chkLatches (e : Env) (fs : List Fld) : Chk Unit := do
  chkAll (fun f => need (latchClass e f) (trIllegal e 2 f.code false)) fs
  chkAll (fun f => match latchStop e f.src with | some n => .error (.trap (trLatch e n)) | none => .ok ()) fs

/-- A read of a future register (R19). -/
def chkFut (e : Env) (f : FR) : Chk Unit :=
  match (e.w.fut f.toNat).st with
  | .empty => .error (.trap (trFuture 0 (0xC0 + f.toNat) e.act))
  | .pending => .error (.wait (.future f))
  | _ => .ok ()

def chkFutSrc (e : Env) (a : Src) : Chk Unit :=
  match a with
  | .f f => chkFut e f
  | _ => .ok ()

/-- Arming a future (R19). -/
def chkArm (e : Env) (f : FR) : Chk Unit :=
  need ((e.w.fut f.toNat).st != .pending) (trFuture 1 (0xC0 + f.toNat) e.act)

/-- The vector and scalar registers of a source. -/
def srcRegs (w : Wave) (k : Bool) (a : Src) (len : Nat) : List Nat × List Nat :=
  match tagSrc w k a with
  | .v n => ((List.range len).map (n.toNat + ·), [])
  | .s n => ([], (List.range len).map (n.toNat + ·))
  | _ => ([], [])

/-- Wait while a register to be written is the destination of an outstanding memory word, or a register to be read is
one of the other split's (R141, R169). With `all`, every outstanding destination counts for reads. -/
def chkBusy (e : Env) (rd wr : List Nat × List Nat) (all : Bool) : Chk Unit :=
  chkClear e fun o =>
    wr.1.any o.dst.hitsV || wr.2.any o.dst.hitsS
      || ((all || o.slot != e.k) && (rd.1.any o.dst.hitsV || rd.2.any o.dst.hitsS))

/-- A field that a word consumes: its code (R68), the subcode of `POISON`, its register number, and the lanes that consume a
marked element of it. -/
structure Eaten where
  code : Nat
  sub  : Nat
  num  : Nat
  mask : Mask
  deriving DecidableEq, Repr

/-- Fields in the order `D`, `A`, `B`, `C`, `X` of R67. -/
def byField (fs : List Eaten) : List Eaten := [6, 7, 8, 9, 10].flatMap fun c => fs.filter (·.code == c)

/-- `POISON` (R176): the first field that has a marked element, for all lanes that consume one. -/
def chkEaten (fs : List Eaten) : Chk Unit :=
  match (byField fs).find? (·.mask != 0) with
  | some f => .error (.trap (trPoison f.sub f.num (fs.foldl (fun m f => m ||| f.mask) 0)))
  | none => .ok ()

/-- The lanes that consume a scalar field. -/
def maskIf (bad : Bool) (act : Mask) : Mask := if bad then act else 0

/-- Lanes of `m` whose element is poisoned in a vector source. -/
def chkPoisonV (m : Mask) (fs : List (Nat × Mask)) (sub : Nat) : Chk Unit :=
  match fs.find? fun f => f.2 &&& m != 0 with
  | some f => .error (.trap (trPoison sub f.1 (fs.foldl (fun acc f => acc ||| (f.2 &&& m)) 0)))
  | none => .ok ()

/-- Poisoned scalar sources (R176). -/
def chkPoisonS (e : Env) (fs : List (Nat × Bool)) (sub : Nat) : Chk Unit :=
  match fs.find? fun f => f.2 with
  | some f => .error (.trap (trPoison sub f.1 e.act))
  | none => .ok ()

/-- Leave the word: trap or wait. A waiting split may free a JoinWait split (R105). -/
def Env.stop (e : Env) (x : Stop) : State :=
  match x with
  | .trap t => e.trap t
  | .wait y => settle (e.block y) e.gi e.wi

/-- Run a word's checks and effect. -/
def Env.run (e : Env) (r : Chk State) : State :=
  match r with
  | .ok s => s
  | .error x => e.stop x

/-- A trap after the word has set flags, stepped a counter or armed a future, which wave `w` holds. What the trap entry would
wait for, the word waits for first, so that it does not act twice. DEDUCED (log 56). -/
def Env.trapAfter (e : Env) (w : Wave) (t : Trap) : State :=
  if e.w.trapBusy && e.w.trap.isNone && e.s.tbaseOf e.g != 0 then e.block (e.w.waitOn MemOp.hitsSaved)
  else takeTrap (e.put w) e.gi e.wi e.k t

/-! ## After a write of the activity mask (R22) -/

/-- Lanes that a write to `s60`-`s62` removed are exited at the top level; a split left without lanes acts as at its
join. -/
def afterMask (s : State) (gi wi : Nat) (k : Bool) (before : Mask) : State :=
  match s.wave? gi wi with
  | none => s
  | some w =>
    let x := w.slot k
    let gone := before &&& ~~~x.act
    if gone == 0 || w.ended then s
    else if x.rpc == 0 then exitLanes s gi wi k gone
    else if x.act == 0 then settle (s.putSplits gi wi ((s.splits gi w).reachJoin k x.rpc)) gi wi
    else s

/-- Put the wave back after a word and advance the split; the mask it wrote governs from here. -/
def Env.done (e : Env) (w : Wave) : State :=
  afterMask (e.put (w.advance e.k)) e.gi e.wi e.k e.act

/-! ## Words that compute a register from registers -/

/-- What a vector word's lane function sees: operand registers, the lanes that issue, the member set and the lanes of
it that have not exited, the mask triple, and the draw. -/
structure VecIn where
  ops  : List VReg
  act  : Mask
  mset : Mask
  part : Mask
  sel  : Mask
  u    : Nat → Nat → Nat
  o0   : Nat → Nat

def VecIn.op (x : VecIn) (i l : Nat) : W :=
  match x.ops[i]? with
  | some r => r.lane l
  | none => 0

def VecIn.bad (x : VecIn) (i l : Nat) : Bool :=
  match x.ops[i]? with
  | some r => r.bad.getLsbD l
  | none => false

/-- A lane result: value, flags, poison. -/
structure LaneOut where
  val : W
  fl  : Flags
  bad : Bool
  deriving DecidableEq, Repr

def pure1 (x : W) : LaneOut := ⟨x, 0, false⟩

def flagged (r : W × Flags) : LaneOut := ⟨r.1, r.2, false⟩

/-- A word with a vector destination (R118): its sources with the type of their constants, whether `D` is read too,
its member set, a mask triple that it reads, whether it copies poison, whether field `B` is an index or count of the lane
itself, whether it draws, its division test, and its results, one per lane. -/
structure VecWord where
  d     : VR
  nw    : Bool
  srcs  : List (Nat × Src × Ty)
  readD : Bool
  memb  : Option Member
  tri   : Option (Nat × SR)
  copy  : Bool
  idx   : Bool
  draw  : Bool
  div   : Bool
  eval  : VecIn → List LaneOut

/-- Results lane by lane, for the lanes that issue. -/
def lanesOut (f : VecIn → Nat → LaneOut) (x : VecIn) : List LaneOut :=
  laneList.map fun l => if x.act.getLsbD l then f x l else pure1 0

/-- A vector word that works lane by lane, without the rarer traits. -/
def VecWord.plain (d : VR) (nw : Bool) (srcs : List (Nat × Src × Ty)) (f : VecIn → Nat → LaneOut) : VecWord :=
  ⟨d, nw, srcs, false, none, none, false, false, false, false, lanesOut f⟩

def VecWord.flds (v : VecWord) : List Fld := v.srcs.map fun x => ⟨x.1, x.2.1, Src.gv⟩

/-- The member set (R139). -/
def memberMask (w : Wave) (k : Bool) : Option Member → Mask
  | some (.triple c) => w.triple k c.toNat
  | _ => allLanes

/-- Operands of a vector word under the activity mask `act`. -/
def Env.vecIn (e : Env) (act : Mask) (srcs : List (Nat × Src × Ty)) (readD : Option VR) (m : Option Member)
    (tri : Option (Nat × SR)) : VecIn :=
  let ops := srcs.map fun x => e.vsrc x.2.2 x.2.1
  let mset := memberMask e.w e.k m
  { ops := match readD with
      | some d => ops ++ [e.w.vreg d.toNat]
      | none => ops
    act := act, mset := mset, part := mset &&& ~~~e.w.exited
    sel := match tri with
      | some t => e.w.triple e.k t.2.toNat
      | none => 0
    u := drawUnit e.g e.w
    o0 := fun l => (drawLane e.g e.w.idx e.w.rngctr l).c0 }

def regsOf (w : Wave) (k : Bool) (srcs : List (Nat × Src × Ty)) : List Nat × List Nat :=
  let rs := srcs.map fun x => srcRegs w k x.2.1 1
  (rs.flatMap (·.1), rs.flatMap (·.2))

/-- The three registers of a mask triple. -/
def tripleRegs (c : SR) : List Nat := [c.toNat, c.toNat + 1, c.toNat + 2]

/-- Scalar registers that a member set and a mask triple read (R141). -/
def membRegs (m : Option Member) (tri : Option (Nat × SR)) : List Nat :=
  (match m with | some (.triple c) => tripleRegs c | _ => [])
    ++ (match tri with | some t => tripleRegs t.2 | none => [])

/-- `MEMBER` (R140). -/
def chkMember (e : Env) (m : Option Member) : Chk Unit :=
  let out := e.act &&& ~~~memberMask e.w e.k m
  need (out == 0) { trMember e with tmask := out }

def tripleBad (w : Wave) (c : SR) : Bool := (tripleRegs c).any w.sregBad

/-- The triples that a word consumes as masks: the member set in field `C`, and a mask operand. -/
def triplesEaten (e : Env) (m : Option Member) (tri : Option (Nat × SR)) : List Eaten :=
  (match m with
   | some (.triple c) => [⟨9, 2, 0x80 + c.toNat, maskIf (tripleBad e.w c) e.act⟩]
   | _ => [])
  ++ (match tri with
   | some t => [⟨t.1, 2, 0x80 + t.2.toNat, maskIf (tripleBad e.w t.2) e.act⟩]
   | none => [])

/-- The lanes that consume a marked element of a source: each lane its own; with a member set, the issuing lanes also that of
any participating lane outside ACT (R146, R176). -/
def eatenBy (e : Env) (m : Option Member) (bad : Mask) : Mask :=
  if m.isSome && bad &&& memberMask e.w e.k m &&& ~~~e.w.exited &&& ~~~e.act != 0 then e.act else bad &&& e.act

/-- The vector sources that a word consumes. -/
def srcsEaten (e : Env) (m : Option Member) (srcs : List (Nat × Src × Ty)) : List Eaten :=
  srcs.map fun x => ⟨x.1, 0, srcNum e.w e.k x.2.1, eatenBy e m (e.vsrc x.2.2 x.2.1).bad⟩

/-- Everything that a vector word consumes: an index is consumed by its own lane, a copied value is not consumed. -/
def VecWord.eaten (e : Env) (v : VecWord) : List Eaten :=
  let own (y : Nat × Src × Ty) : Bool := v.idx && y.1 == 8
  (if v.copy then []
   else srcsEaten e v.memb (v.srcs.filter fun y => !own y)
     ++ (if v.readD then [⟨6, 0, v.d.toNat, (e.w.vreg v.d.toNat).bad &&& e.act⟩] else []))
  ++ srcsEaten e none (v.srcs.filter own) ++ triplesEaten e v.memb v.tri

/-- The checks of a vector word, in the order of R306. -/
def vecCheck (e : Env) (v : VecWord) : Chk VecIn := do
  chkFoot e 6 v.d.toNat 1
  chkAll (fun x : Nat × Src × Ty => chkFootSrc e x.1 x.2.1) v.srcs
  chkLatches e v.flds
  let rd := regsOf e.w e.k v.srcs
  chkBusy e (if v.readD then v.d.toNat :: rd.1 else rd.1, rd.2 ++ membRegs v.memb v.tri) ([v.d.toNat], []) v.memb.isSome
  if v.memb.isSome then chkMember e v.memb
  chkEaten (v.eaten e)
  let x := e.vecIn e.act v.srcs (if v.readD then some v.d else none) v.memb v.tri
  if v.div then
    let z := maskOf fun l => e.act.getLsbD l && x.op 1 l == 0
    need (z == 0) (trDiv0 (x.op 0 (lowLane z)) z)
  .ok x

/-- Flags of all lanes. -/
def allFlags (rs : List LaneOut) : Flags := rs.foldl (fun a r => a ||| r.fl) 0

/-- Lanes that raise an enabled flag (R91). -/
def fpLanes (fpen : Flags) (rs : List LaneOut) : Mask :=
  maskOf fun l => match rs[l]? with | some r => r.fl &&& fpen != 0 | none => false

def badLanes (rs : List LaneOut) : Mask := maskOf fun l => match rs[l]? with | some r => r.bad | none => false

/-- Exited members of a cross-lane word set MABS (R141). -/
def absent (w : Wave) (m : Option Member) (mset : Mask) : Bool := m.isSome && mset &&& w.exited != 0

/-- The wave after a vector word has written back (R20, R58). -/
def vecWrite (w : Wave) (v : VecWord) (act : Mask) (rs : List LaneOut) : Wave :=
  let r := mergeReg (w.vreg v.d.toNat) act (rs.map (·.val)) (badLanes rs)
  let w := if v.nw then w else w.setVreg v.d.toNat r
  w.push (.vec v.d r) v.nw

/-- A vector word whole: checks, results, flags, the FP trap (R91), write-back. -/
def vecWord (e : Env) (v : VecWord) : Chk State := do
  let x ← vecCheck e v
  let rs := v.eval x
  let fl := allFlags rs
  let w := ((e.w.setFlags fl).step v.draw).setMabs (absent e.w v.memb x.mset)
  let hot := fpLanes e.w.fpen rs
  if hot != 0 then .ok (e.trapAfter w (trFp (fl &&& e.w.fpen) hot))
  else .ok (e.done (vecWrite w v e.act rs))

def execVec (i : Instr) (s : State) (v : VecWord) : Out := onSplit i s fun e => e.run (vecWord e v)

/-! ## Scalar words -/

/-- A word with scalar destinations (R95, R96): `n` registers from `d`; 32-bit and 64-bit sources; mask triples. -/
structure SclWord where
  d     : SR
  nw    : Bool
  srcs  : List (Nat × Src × Ty)
  pairs : List (Nat × Src)
  tris  : List (Nat × SR)
  cls   : Src → Bool
  n     : Nat
  copy  : Bool
  draw  : Bool
  div   : Bool
  eval  : List W → List D → List Mask → Nat → List W × Flags

def SclWord.plain (d : SR) (nw : Bool) (srcs : List (Nat × Src × Ty)) (eval : List W → W × Flags) : SclWord :=
  ⟨d, nw, srcs, [], [], Src.gs, 1, false, false, false, fun xs _ _ _ => ([(eval xs).1], (eval xs).2)⟩

def SclWord.flds (v : SclWord) : List Fld :=
  v.srcs.map (fun x => ⟨x.1, x.2.1, v.cls⟩) ++ v.pairs.map (fun x => ⟨x.1, x.2, Src.sp⟩)

/-- Insert in field order. -/
def byCode (fs : List Fld) : List Fld :=
  (fs.filter (·.code == 7)) ++ (fs.filter (·.code == 8)) ++ (fs.filter (·.code == 9))

structure SclIn where
  xs : List W
  ps : List D
  ms : List Mask
  bad : Bool
  deriving DecidableEq, Repr

/-- The registers that a scalar word consumes. -/
def SclWord.eaten (e : Env) (v : SclWord) : List Eaten :=
  (v.srcs.map fun x => ⟨x.1, 0, srcNum e.w e.k x.2.1, maskIf (e.ssrc x.2.2 x.2.1).2 e.act⟩)
    ++ (v.pairs.map fun x => ⟨x.1, 0, srcNum e.w e.k x.2, maskIf (e.psrc x.2).2 e.act⟩)
    ++ (v.tris.map fun x => ⟨x.1, 2, 0x80 + x.2.toNat, maskIf (tripleBad e.w x.2) e.act⟩)

/-- The checks of a scalar word. -/
def sclCheck (e : Env) (v : SclWord) : Chk SclIn := do
  chkAll (fun x : Nat × Src × Ty => chkFutSrc e x.2.1) v.srcs
  chkLatches e (byCode v.flds)
  let rs := (v.srcs.map fun x => srcRegs e.w e.k x.2.1 1) ++ (v.pairs.map fun x => srcRegs e.w e.k x.2 2)
    ++ (v.tris.map fun x => ([], tripleRegs x.2))
  chkBusy e ([], rs.flatMap (·.2)) ([], (List.range v.n).map (v.d.toNat + ·)) false
  let xs := v.srcs.map fun x => e.ssrc x.2.2 x.2.1
  let ps := v.pairs.map fun x => e.psrc x.2
  if !v.copy then chkEaten (v.eaten e)
  if v.div then
    match xs with
    | [x, y] => need (y.1 != 0) (trDiv0 x.1 e.act)
    | _ => .ok ()
  .ok ⟨xs.map (·.1), ps.map (·.1), v.tris.map fun x => e.w.triple e.k x.2.toNat, v.copy && (v.eaten e).any (·.mask != 0)⟩

/-- The wave after a scalar word has written back; the latch holds the lowest register as it then reads. -/
def sclWrite (w : Wave) (k : Bool) (v : SclWord) (r : List W) (bad : Bool) : Wave :=
  let w2 := w.setSregs k v.d.toNat r bad
  (if v.nw then w else w2).push (.scl v.d (w2.sreg k v.d.toNat) bad) v.nw

def sclWord (e : Env) (v : SclWord) : Chk State := do
  let x ← sclCheck e v
  let r := v.eval x.xs x.ps x.ms (drawUnit e.g e.w 0 0)
  let w := (e.w.setFlags r.2).step v.draw
  if r.2 &&& e.w.fpen != 0 then .ok (e.trapAfter w (trFp (r.2 &&& e.w.fpen) e.act))
  else .ok (e.done (sclWrite w e.k v r.1 x.bad))

def execScl (i : Instr) (s : State) (v : SclWord) : Out := onSplit i s fun e => e.run (sclWord e v)

end Sys2Proof.Machine
end

