-- ==== Sys2Proof/Machine/Scalar.lean ====
section
/-! DEFINITION. Scalar words (R95-R100): one meaning per opcode over the shared scalar word. -/

namespace Sys2Proof.Machine

def scl2 (d : SR) (nw : Bool) (a b : Src) (f : W → W → W) : SclWord :=
  .plain d nw [(7, a, .s32), (8, b, .s32)] fun xs =>
    match xs with
    | [x, y] => (f x y, 0)
    | _ => (0, 0)

def scl1 (d : SR) (nw : Bool) (a : Src) (f : W → W) : SclWord :=
  .plain d nw [(7, a, .s32)] fun xs =>
    match xs with
    | [x] => (f x, 0)
    | _ => (0, 0)

/-- The immediate I16S as a 32-bit value (R97). -/
def imm16 (x : BitVec 16) : W := x.signExtend 32

/-- A binary ALU word (R97). Constants are signed 32-bit values in every scalar integer word (R56). -/
def aluWord (nw : Bool) (d : SR) (a : Src) (b : Alu2) (f : W → W → W) : SclWord :=
  match b with
  | .reg b => scl2 d nw a b f
  | .imm x => scl1 d nw a fun v => f v (imm16 x)

/-- High word of the product (R97, R121). -/
def mulHigh (uns : Bool) (x y : W) : W := ofInt32 (inInt uns x * inInt uns y / 2 ^ 32)

/-- Quotient toward zero; −2^31 ÷ −1 wraps (R97, R122). -/
def divWord (uns : Bool) (x y : W) : W := ofInt32 (tdivInt (inInt uns x) (inInt uns y))

def remWord (uns : Bool) (x y : W) : W := ofInt32 ((inInt uns x).tmod (inInt uns y))

def minWord (uns : Bool) (x y : W) : W := if inInt uns y < inInt uns x then y else x
def maxWord (uns : Bool) (x y : W) : W := if inInt uns x < inInt uns y then y else x

def shlWord (x y : W) : W := x <<< (y.toNat % 32)
def shrWord (uns : Bool) (x y : W) : W := if uns then x >>> (y.toNat % 32) else x.sshiftRight (y.toNat % 32)
def rotWord (x y : W) : W := x.rotateRight (y.toNat % 32)

def execSadd (u nw : Bool) (d : SR) (a : Src) (b : Alu2) (s : State) : Out :=
  execScl (.sadd u nw d a b) s (aluWord nw d a b (· + ·))

def execSsub (u nw : Bool) (d : SR) (a : Src) (b : Alu2) (s : State) : Out :=
  execScl (.ssub u nw d a b) s (aluWord nw d a b (· - ·))

def execSmul (u nw : Bool) (d : SR) (a : Src) (b : Alu2) (s : State) : Out :=
  execScl (.smul u nw d a b) s (aluWord nw d a b (· * ·))

def execSmulh (u nw : Bool) (d : SR) (a : Src) (b : Alu2) (s : State) : Out :=
  execScl (.smulh u nw d a b) s (aluWord nw d a b (mulHigh u))

/-- Division by zero is tested on the second operand; the immediate zero counts too (R97). -/
def divAlu (nw : Bool) (d : SR) (a : Src) (b : Alu2) (f : W → W → W) : SclWord :=
  { aluWord nw d a b f with div := true }

/-- The check of a division by the immediate zero, whose only register operand is the dividend. -/
def immZero (e : Env) (a : Src) (b : Alu2) : Chk Unit :=
  match b with
  | .imm x => need (x != 0) (trDiv0 (e.ssrc .s32 a).1 e.act)
  | .reg _ => .ok ()

/-- A division word: DIV0 on a zero divisor, an immediate one too. DEDUCED (log 31). -/
def divRun (i : Instr) (nw : Bool) (d : SR) (a : Src) (b : Alu2) (f : W → W → W) (s : State) : Out :=
  onSplit i s fun e => e.run do
    let _ ← sclCheck e (divAlu nw d a b f)
    immZero e a b
    sclWord e (divAlu nw d a b f)

def execSdiv (u nw : Bool) (d : SR) (a : Src) (b : Alu2) (s : State) : Out :=
  divRun (.sdiv u nw d a b) nw d a b (divWord u) s

def execSrem (u nw : Bool) (d : SR) (a : Src) (b : Alu2) (s : State) : Out :=
  divRun (.srem u nw d a b) nw d a b (remWord u) s

def execSmin (u nw : Bool) (d : SR) (a : Src) (b : Alu2) (s : State) : Out :=
  execScl (.smin u nw d a b) s (aluWord nw d a b (minWord u))

def execSmax (u nw : Bool) (d : SR) (a : Src) (b : Alu2) (s : State) : Out :=
  execScl (.smax u nw d a b) s (aluWord nw d a b (maxWord u))

def execSand (u nw : Bool) (d : SR) (a : Src) (b : Alu2) (s : State) : Out :=
  execScl (.sand u nw d a b) s (aluWord nw d a b (· &&& ·))

def execSor (u nw : Bool) (d : SR) (a : Src) (b : Alu2) (s : State) : Out :=
  execScl (.sor u nw d a b) s (aluWord nw d a b (· ||| ·))

def execSxor (u nw : Bool) (d : SR) (a : Src) (b : Alu2) (s : State) : Out :=
  execScl (.sxor u nw d a b) s (aluWord nw d a b (· ^^^ ·))

def execSandn (u nw : Bool) (d : SR) (a : Src) (b : Alu2) (s : State) : Out :=
  execScl (.sandn u nw d a b) s (aluWord nw d a b fun x y => x &&& ~~~y)

def execSshl (u nw : Bool) (d : SR) (a : Src) (b : Alu2) (s : State) : Out :=
  execScl (.sshl u nw d a b) s (aluWord nw d a b shlWord)

def execSshr (u nw : Bool) (d : SR) (a : Src) (b : Alu2) (s : State) : Out :=
  execScl (.sshr u nw d a b) s (aluWord nw d a b (shrWord u))

def execSrot (u nw : Bool) (d : SR) (a : Src) (b : Alu2) (s : State) : Out :=
  execScl (.srot u nw d a b) s (aluWord nw d a b rotWord)

/-- A read of a future that has left Pending observes the operation's end (R180, R259). -/
def observe (e : Env) (f : Nat) : Wave :=
  let x := e.w.fut f
  if x.st == .done || x.st == .failed || x.st == .cancelled then
    e.s.futSeen e.gi e.w e.act x.cls
  else e.w

def observeSrc (e : Env) (a : Src) : Env :=
  match a with
  | .f f => { e with w := observe e f.toNat }
  | _ => e

/-- `SMOV` copies a source, poison included; a future yields its status word (R19, R96, R98). -/
def execSmov (nw : Bool) (d : SR) (a : Src) (s : State) : Out :=
  onSplit (.smov nw d a) s fun e =>
    e.run (sclWord (observeSrc e a) { scl1 d nw a id with cls := Src.gsf, copy := true })

def execSmovi (nw : Bool) (d : SR) (imm : BitVec 32) (s : State) : Out :=
  execScl (.smovi nw d imm) s (.plain d nw [] fun _ => (imm, 0))

/-- A word that writes a pair. -/
def pairWordOf (d : SR) (srcs : List (Nat × Src × Ty)) (pairs : List (Nat × Src)) (f : List W → List D → D) :
    SclWord :=
  ⟨d, false, srcs, pairs, [], Src.gs, 2, false, false, false,
    fun xs ps _ _ => ([lo32 (f xs ps), hi32 (f xs ps)], 0)⟩

def execSmoviP (d : SR) (imm : BitVec 34) (s : State) : Out :=
  execScl (.smoviP d imm) s (pairWordOf d [] [] fun _ _ => imm.signExtend 64)

def scond (c : SCond) (w x y : Nat) : Bool :=
  match c with
  | .eq => x == y
  | .ne => x != y
  | .slt => signed w x < signed w y
  | .sle => signed w x ≤ signed w y
  | .ult => x < y
  | .ule => x ≤ y

def execScmp (c : SCond) (nw : Bool) (d : SR) (a b : Src) (s : State) : Out :=
  execScl (.scmp c nw d a b) s (scl2 d nw a b fun x y => boolW (scond c 32 x.toNat y.toNat))

def execSsel (nw : Bool) (d : SR) (a b c : Src) (s : State) : Out :=
  execScl (.ssel nw d a b c) s (.plain d nw [(7, a, .s32), (8, b, .s32), (9, c, .s32)] fun xs =>
    match xs with
    | [x, y, z] => (if z != 0 then x else y, 0)
    | _ => (0, 0))

def execSclz (nw : Bool) (d : SR) (a : Src) (s : State) : Out :=
  execScl (.sclz nw d a) s (scl1 d nw a fun x => BitVec.ofNat 32 (clz32 x))

def execSpopc (nw : Bool) (d : SR) (a : Src) (s : State) : Out :=
  execScl (.spopc nw d a) s (scl1 d nw a fun x => BitVec.ofNat 32 (popCount 32 x.toNat))

def execSbfx (z nw : Bool) (d : SR) (a : Src) (lo wm1 : BitVec 5) (s : State) : Out :=
  execScl (.sbfx z nw d a lo wm1) s (scl1 d nw a fun x => extractField z x lo wm1)

def execSbfi (nw : Bool) (d : SR) (a b : Src) (lo wm1 : BitVec 5) (s : State) : Out :=
  execScl (.sbfi nw d a b lo wm1) s (scl2 d nw a b fun x y => insertField x y lo wm1)

/-- First pair of a list. -/
def pair0 (ps : List D) : D := (ps[0]?).getD 0
def pair1 (ps : List D) : D := (ps[1]?).getD 0
def word0 (xs : List W) : W := (xs[0]?).getD 0

def execSaddp (d : SR) (a : Src) (b : AddP) (s : State) : Out :=
  execScl (.saddp d a b) s
    (match b with
     | .pair b => pairWordOf d [] [(7, a), (8, b)] fun _ ps => pair0 ps + pair1 ps
     | .sext b => pairWordOf d [(8, b, .s32)] [(7, a)] fun xs ps => pair0 ps + (word0 xs).signExtend 64
     | .imm x => pairWordOf d [] [(7, a)] fun _ ps => pair0 ps + x.signExtend 64)

def execSlea (z : Bool) (d : SR) (a b : Src) (sh : BitVec 2) (s : State) : Out :=
  execScl (.slea z d a b sh) s
    (pairWordOf d [(8, b, .s32)] [(7, a)] fun xs ps =>
      pair0 ps + ((if z then (word0 xs).setWidth 64 else (word0 xs).signExtend 64) <<< sh.toNat))

/-- The address of this word plus a byte offset (R98). -/
def execSleaPc (d : SR) (off : BitVec 34) (s : State) : Out :=
  onSplit (.sleaPc d off) s fun e =>
    e.run (sclWord e (pairWordOf d [] [] fun _ _ => e.slot.pc + off.signExtend 64))

def extVal (m : ExtMode) (x : W) : D :=
  match m with
  | .s8 => (x.extractLsb' 0 8).signExtend 64
  | .u8 => (x.extractLsb' 0 8).setWidth 64
  | .s16 => (x.extractLsb' 0 16).signExtend 64
  | .u16 => (x.extractLsb' 0 16).setWidth 64
  | .s32 => x.signExtend 64
  | .u32 => x.setWidth 64

def execSext (m : ExtMode) (nw : Bool) (d : SR) (a : Src) (s : State) : Out :=
  execScl (.sext m nw d a) s
    (if m.wide then pairWordOf d [(7, a, .s32)] [] fun xs _ => extVal m (word0 xs)
     else scl1 d nw a fun x => lo32 (extVal m x))

/-- `SCVT` (R99). -/
def scvtVal (m : BitVec 2) (rm : Rm) (x : W) : W × Flags :=
  if m == 0 then roundFP32 rm 0 (exInt x.toInt)
  else if m == 1 then roundFP32 rm 0 (exInt x.toNat)
  else
    let t : Ty := if m == 2 then .s32 else .u32
    let r := roundInt (tyMin t) (tyMax t) rm (inFl .f32 x).1
    (ofInt32 r.1, r.2)

def execScvt (m : BitVec 2) (nw : Bool) (d : SR) (a : Src) (rm : Rm) (s : State) : Out :=
  let t : Ty := if m == 0 then .s32 else if m == 1 then .u32 else .f32
  execScl (.scvt m nw d a rm) s (.plain d nw [(7, a, t)] fun xs => scvtVal m rm (word0 xs))

/-- `SFADD`, `SFMUL` (R98, R99): SR takes unit 0 of lane 0's draw. -/
def sfWord (d : SR) (nw : Bool) (a b : Src) (rm : Rm) (f : Ex → Ex → Ex × Flags) : SclWord :=
  ⟨d, nw, [(7, a, .f32), (8, b, .f32)], [], [], Src.gs, 1, false, rm == .sr, false, fun xs _ _ u =>
    match xs with
    | [x, y] =>
      let p := inFl .f32 x
      let q := inFl .f32 y
      let r := f p.1 q.1
      let z := roundFP32 rm u r.1
      ([z.1], p.2 ||| q.2 ||| r.2 ||| z.2)
    | _ => ([0], 0)⟩

def execSfadd (nw : Bool) (d : SR) (a b : Src) (rm : Rm) (s : State) : Out :=
  execScl (.sfadd nw d a b rm) s (sfWord d nw a b rm (exAdd rm))

def execSfmul (nw : Bool) (d : SR) (a b : Src) (rm : Rm) (s : State) : Out :=
  execScl (.sfmul nw d a b rm) s (sfWord d nw a b rm exMul)

/-- A mask as three words. -/
def maskWords (m : Mask) : List W := [maskWord m 0, maskWord m 1, maskWord m 2]

def mask0 (ms : List Mask) : Mask := (ms[0]?).getD 0
def mask1 (ms : List Mask) : Mask := (ms[1]?).getD 0

/-- `SMASK` (R100). -/
def smaskWord (nw : Bool) (op : MaskOp) : SclWord :=
  let tri (d a b : SR) (f : Mask → Mask → Mask) : SclWord :=
    ⟨d, nw, [], [], [(7, a), (8, b)], Src.gs, 3, false, false, false,
      fun _ _ ms _ => (maskWords (f (mask0 ms) (mask1 ms)), 0)⟩
  let one (d a : SR) (f : Mask → Nat) : SclWord :=
    ⟨d, nw, [], [], [(7, a)], Src.gs, 1, false, false, false, fun _ _ ms _ => ([BitVec.ofNat 32 (f (mask0 ms))], 0)⟩
  match op with
  | .first d a =>
    ⟨d, nw, [(7, a, .s32)], [], [], Src.gs, 3, false, false, false,
      fun xs _ _ _ => (maskWords (maskOf fun l => l < (word0 xs).toNat), 0)⟩
  | .and d a b => tri d a b (· &&& ·)
  | .or d a b => tri d a b (· ||| ·)
  | .andn d a b => tri d a b fun x y => x &&& ~~~y
  | .cnt d a => one d a maskCount
  | .low d a => one d a lowLane

def execSmask (nw : Bool) (op : MaskOp) (s : State) : Out := execScl (.smask nw op) s (smaskWord nw op)

def execScmpp (c : SCond) (nw : Bool) (d : SR) (a b : Src) (s : State) : Out :=
  execScl (.scmpp c nw d a b) s
    ⟨d, nw, [], [(7, a), (8, b)], [], Src.gs, 1, false, false, false,
      fun _ ps _ _ => ([boolW (scond c 64 (pair0 ps).toNat (pair1 ps).toNat)], 0)⟩

end Sys2Proof.Machine
end

