-- ==== Sys2Proof/Machine/VecInt.lean ====
section
/-! DEFINITION. Integer, bit, immediate, sign, compare and select words of the vector rows (R121-R123, R125-R128): for each
opcode the word as data, and its meaning. The floating forms of `VADD`, `VSUB`, `VMUL`, `VMIN`, `VMAX`, `VABS`, `VNEG` and
`VCLMP` (R124, R125) stand here too, since they share the opcode. -/

namespace Sys2Proof.Machine

def vty : VTy → Ty
  | .s32 => .s32
  | .u32 => .u32
  | .f32 => .f32
  | .f16 => .f16
  | .bf16 => .bf16

def uty (uns : Bool) : Ty := if uns then .u32 else .s32

/-- Sources in fields `A`, `B`, `C` under one type. -/
def srcs2 (t : Ty) (a b : Src) : List (Nat × Src × Ty) := [(7, a, t), (8, b, t)]
def srcs3 (t : Ty) (a b c : Src) : List (Nat × Src × Ty) := [(7, a, t), (8, b, t), (9, c, t)]
def srcB (t : Ty) (b : Src) : List (Nat × Src × Ty) := [(8, b, t)]

/-- A word over lane patterns of two sources, one source, three sources. -/
def vec2 (t : Ty) (nw : Bool) (d : VR) (a b : Src) (f : W → W → W) : VecWord :=
  .plain d nw (srcs2 t a b) fun x l => pure1 (f (x.op 0 l) (x.op 1 l))
def vec1 (t : Ty) (nw : Bool) (d : VR) (b : Src) (f : W → W) : VecWord :=
  .plain d nw (srcB t b) fun x l => pure1 (f (x.op 0 l))
def vec3 (t : Ty) (nw : Bool) (d : VR) (a b c : Src) (f : W → W → W → W) : VecWord :=
  .plain d nw (srcs3 t a b c) fun x l => pure1 (f (x.op 0 l) (x.op 1 l) (x.op 2 l))

/-- Wrap modulo 2^32, or clamp to the type (R118). -/
def satInt (uns sat : Bool) (y : Int) : W :=
  ofInt32 (if sat then clampInt (tyMin (uty uns)) (tyMax (uty uns)) y else y)

/-- A floating word of two sources: exact value, one rounding with unit 0 (R124). -/
def flt2 (t : VTy) (nw : Bool) (d : VR) (a b : Src) (m : Xm) (f : Ex → Ex → Ex × Flags) : VecWord :=
  { VecWord.plain d nw (srcs2 (vty t) a b) (fun x l =>
      let p := inFl t (x.op 0 l)
      let q := inFl t (x.op 1 l)
      let r := f p.1 q.1
      let z := roundLane t m (x.u l 0) r.1
      ⟨z.1, p.2 ||| q.2 ||| r.2 ||| z.2, false⟩) with draw := m.rm == .sr }

def exSub (rm : Rm) (x y : Ex) : Ex × Flags := exAdd rm x y.negate

/-- `VADD`, `VSUB`, `VMUL`: integer types wrap or clamp, floating types round. -/
def arithWord (t : VTy) (nw : Bool) (d : VR) (a b : Src) (m : Xm) (f : Int → Int → Int) (g : Ex → Ex → Ex × Flags) :
    VecWord :=
  match t with
  | .s32 => vec2 .s32 nw d a b fun x y => satInt false m.sat (f x.toInt y.toInt)
  | .u32 => vec2 .u32 nw d a b fun x y => satInt true m.sat (f x.toNat y.toNat)
  | t => flt2 t nw d a b m g

def wVadd (t : VTy) (nw : Bool) (d : VR) (a b : Src) (m : Xm) : VecWord := arithWord t nw d a b m (· + ·) (exAdd m.rm)
def wVsub (t : VTy) (nw : Bool) (d : VR) (a b : Src) (m : Xm) : VecWord := arithWord t nw d a b m (· - ·) (exSub m.rm)
def wVmul (t : VTy) (nw : Bool) (d : VR) (a b : Src) (m : Xm) : VecWord := arithWord t nw d a b m (· * ·) exMul

def wVmulh (u nw : Bool) (d : VR) (a b : Src) : VecWord := vec2 (uty u) nw d a b (mulHigh u)

def wVmad (u nw : Bool) (d : VR) (a b c : Src) (sat : Bool) : VecWord :=
  vec3 (uty u) nw d a b c fun x y z => satInt u sat (inInt u x * inInt u y + inInt u z)

/-- Canonical lane bits of a floating type: the upper half of 16-bit types is zero (R117). -/
def flBits (t : VTy) (x : W) : Nat := x.toNat % (2 * (fmOf t).sign)

/-- Maximum or minimum under R125: −0 is less than +0, a NaN beside a number yields the number, two yield the canonical
NaN, a signalling NaN sets NV. -/
def pickFl (t : VTy) (max : Bool) (x y : W) : W × Flags :=
  let p := inFl t x
  let q := inFl t y
  let v : Nat :=
    if p.1.isNan then (if q.1.isNan then (fmOf t).nan else flBits t y)
    else if q.1.isNan then flBits t x
    else if exLtZ p.1 q.1 == max then flBits t y else flBits t x
  (BitVec.ofNat 32 v, p.2 ||| q.2)

def pickWord (t : VTy) (nw : Bool) (d : VR) (a b : Src) (max : Bool) : VecWord :=
  match t with
  | .s32 => vec2 .s32 nw d a b (if max then maxWord false else minWord false)
  | .u32 => vec2 .u32 nw d a b (if max then maxWord true else minWord true)
  | t => .plain d nw (srcs2 (vty t) a b) fun x l => flagged (pickFl t max (x.op 0 l) (x.op 1 l))

def wVmin (t : VTy) (nw : Bool) (d : VR) (a b : Src) : VecWord := pickWord t nw d a b false
def wVmax (t : VTy) (nw : Bool) (d : VR) (a b : Src) : VecWord := pickWord t nw d a b true

/-- min(max(a, b), c) (R121, R125). -/
def wVclmp (t : VTy) (nw : Bool) (d : VR) (a b c : Src) : VecWord :=
  match t with
  | .s32 => vec3 .s32 nw d a b c fun x y z => minWord false (maxWord false x y) z
  | .u32 => vec3 .u32 nw d a b c fun x y z => minWord true (maxWord true x y) z
  | t => .plain d nw (srcs3 (vty t) a b c) fun x l =>
      let p := pickFl t true (x.op 0 l) (x.op 1 l)
      let q := pickFl t false p.1 (x.op 2 l)
      ⟨q.1, p.2 ||| q.2 ||| (inFl t (x.op 2 l)).2, false⟩

/-- Sign bit cleared; every other bit kept (R71, R125). -/
def absBits (t : VTy) (x : W) : W := BitVec.ofNat 32 (flBits t x % (fmOf t).sign)
def negBits (t : VTy) (x : W) : W := BitVec.ofNat 32 ((flBits t x + (fmOf t).sign) % (2 * (fmOf t).sign))

def wVabs (t : VTy) (nw : Bool) (d : VR) (b : Src) (sat : Bool) : VecWord :=
  match t with
  | .s32 => vec1 .s32 nw d b fun x => satInt false sat x.toInt.natAbs
  | .u32 => vec1 .u32 nw d b fun x => satInt false sat x.toInt.natAbs
  | t => vec1 (vty t) nw d b (absBits t)

def wVneg (t : VTy) (nw : Bool) (d : VR) (b : Src) (sat : Bool) : VecWord :=
  match t with
  | .s32 => vec1 .s32 nw d b fun x => satInt false sat (-x.toInt)
  | .u32 => vec1 .u32 nw d b fun x => satInt false sat (-x.toInt)
  | t => vec1 (vty t) nw d b (negBits t)

def wVand (nw : Bool) (d : VR) (a b : Src) : VecWord := vec2 .s32 nw d a b (· &&& ·)
def wVor (nw : Bool) (d : VR) (a b : Src) : VecWord := vec2 .s32 nw d a b (· ||| ·)
def wVxor (nw : Bool) (d : VR) (a b : Src) : VecWord := vec2 .s32 nw d a b (· ^^^ ·)
def wVandn (nw : Bool) (d : VR) (a b : Src) : VecWord := vec2 .s32 nw d a b fun x y => x &&& ~~~y
def wVshl (u nw : Bool) (d : VR) (a b : Src) : VecWord := vec2 (uty u) nw d a b shlWord
def wVshr (u nw : Bool) (d : VR) (a b : Src) : VecWord := vec2 (uty u) nw d a b (shrWord u)
def wVrot (nw : Bool) (d : VR) (a b : Src) : VecWord := vec2 .s32 nw d a b rotWord
def wVclz (nw : Bool) (d : VR) (b : Src) : VecWord := vec1 .s32 nw d b fun x => BitVec.ofNat 32 (clz32 x)
def wVpopc (nw : Bool) (d : VR) (b : Src) : VecWord := vec1 .s32 nw d b fun x => BitVec.ofNat 32 (popCount 32 x.toNat)
def wVbfx (z nw : Bool) (d : VR) (b : Src) (lo wm1 : BitVec 5) : VecWord :=
  vec1 .s32 nw d b fun x => extractField z x lo wm1
def wVbfi (nw : Bool) (d : VR) (a b : Src) (lo wm1 : BitVec 5) : VecWord :=
  vec2 .s32 nw d a b fun x y => insertField x y lo wm1

/-- `VMOV` copies, poison included (R119). -/
def wVmov (nw : Bool) (d : VR) (b : Src) : VecWord :=
  { VecWord.plain d nw (srcB .s32 b) (fun x l => ⟨x.op 0 l, 0, x.bad 0 l⟩) with copy := true }

/-- The pattern of `VMOVI` (R123). -/
def movi (t : VTy) (imm : BitVec 25) : W :=
  match t with
  | .s32 => imm.signExtend 32
  | .u32 => imm.setWidth 32
  | .f32 => imm.setWidth 32 <<< 7
  | _ => imm.setWidth 32 &&& 0xFFFF

def wVmovi (t : VTy) (nw : Bool) (d : VR) (imm : BitVec 25) : VecWord := .plain d nw [] fun _ _ => pure1 (movi t imm)

/-- ⌊(a + b + 1) ÷ 2⌋ (R121). -/
def wVavg (u nw : Bool) (d : VR) (a b : Src) : VecWord :=
  vec2 (uty u) nw d a b fun x y => ofInt32 ((inInt u x + inInt u y + 1) / 2)

def wVdiv (u nw : Bool) (d : VR) (a b : Src) : VecWord := { vec2 (uty u) nw d a b (divWord u) with div := true }
def wVrem (u nw : Bool) (d : VR) (a b : Src) : VecWord := { vec2 (uty u) nw d a b (remWord u) with div := true }

/-- Sum with a carry, or the carry of that sum (R121). -/
def wVaddc (carry nw : Bool) (d : VR) (a b c : Src) : VecWord :=
  vec3 .u32 nw d a b c fun x y z =>
    let s := x.toNat + y.toNat + z.toNat % 2
    BitVec.ofNat 32 (if carry then s / 2 ^ 32 else s)

def wVsgnj (t : VTy) (v : SgnVar) (nw : Bool) (d : VR) (a b : Src) : VecWord :=
  vec2 (vty t) nw d a b fun x y =>
    let sx := (fmOf t).neg (flBits t x)
    let sy := (fmOf t).neg (flBits t y)
    let s := match v with | .cp => sy | .neg => !sy | .xor => sx != sy
    BitVec.ofNat 32 (flBits t x % (fmOf t).sign + signCode (fmOf t) s)

/-- `VCLASS` (R126). -/
def classOf (f : Fm) (x : Nat) : Nat :=
  let s := f.neg x
  let a := f.mag x
  if f.isNan x then (if f.isSnan x then 8 else 9)
  else if f.inf == some a then (if s then 0 else 7)
  else if a == 0 then (if s then 3 else 4)
  else if a < 2 ^ f.m then (if s then 2 else 5)
  else if s then 1 else 6

def wVclass (t : Ty) (nw : Bool) (d : VR) (b : Src) : VecWord :=
  vec1 t nw d b fun x =>
    let f := (tyFm t).getD fmF32
    BitVec.ofNat 32 (2 ^ classOf f (x.toNat % (2 * f.sign)))

/-- `VEXPO` (R126). -/
def expo (t : VTy) (x : W) : W × Flags :=
  match (inFl t x).1 with
  | .zero _ => (0x80000000, flDZ)
  | .inf _ => (0x7FFFFFFF, flNV)
  | .nan => (0x7FFFFFFF, flNV)
  | .fin n d => (ofInt32 (log2Quot n.natAbs d), 0)

def wVexpo (t : VTy) (nw : Bool) (d : VR) (b : Src) : VecWord :=
  .plain d nw (srcB (vty t) b) fun x l => flagged (expo t (x.op 0 l))

/-! ## Meanings -/

def execVadd (t : VTy) (nw : Bool) (d : VR) (a b : Src) (m : Xm) (s : State) : Out :=
  execVec (.vadd t nw d a b m) s (wVadd t nw d a b m)
def execVsub (t : VTy) (nw : Bool) (d : VR) (a b : Src) (m : Xm) (s : State) : Out :=
  execVec (.vsub t nw d a b m) s (wVsub t nw d a b m)
def execVmul (t : VTy) (nw : Bool) (d : VR) (a b : Src) (m : Xm) (s : State) : Out :=
  execVec (.vmul t nw d a b m) s (wVmul t nw d a b m)
def execVmulh (u nw : Bool) (d : VR) (a b : Src) (s : State) : Out :=
  execVec (.vmulh u nw d a b) s (wVmulh u nw d a b)
def execVmad (u nw : Bool) (d : VR) (a b c : Src) (sat : Bool) (s : State) : Out :=
  execVec (.vmad u nw d a b c sat) s (wVmad u nw d a b c sat)
def execVmin (t : VTy) (nw : Bool) (d : VR) (a b : Src) (s : State) : Out :=
  execVec (.vmin t nw d a b) s (wVmin t nw d a b)
def execVmax (t : VTy) (nw : Bool) (d : VR) (a b : Src) (s : State) : Out :=
  execVec (.vmax t nw d a b) s (wVmax t nw d a b)
def execVabs (t : VTy) (nw : Bool) (d : VR) (b : Src) (sat : Bool) (s : State) : Out :=
  execVec (.vabs t nw d b sat) s (wVabs t nw d b sat)
def execVneg (t : VTy) (nw : Bool) (d : VR) (b : Src) (sat : Bool) (s : State) : Out :=
  execVec (.vneg t nw d b sat) s (wVneg t nw d b sat)
def execVand (nw : Bool) (d : VR) (a b : Src) (s : State) : Out := execVec (.vand nw d a b) s (wVand nw d a b)
def execVor (nw : Bool) (d : VR) (a b : Src) (s : State) : Out := execVec (.vor nw d a b) s (wVor nw d a b)
def execVxor (nw : Bool) (d : VR) (a b : Src) (s : State) : Out := execVec (.vxor nw d a b) s (wVxor nw d a b)
def execVandn (nw : Bool) (d : VR) (a b : Src) (s : State) : Out := execVec (.vandn nw d a b) s (wVandn nw d a b)
def execVshl (u nw : Bool) (d : VR) (a b : Src) (s : State) : Out := execVec (.vshl u nw d a b) s (wVshl u nw d a b)
def execVshr (u nw : Bool) (d : VR) (a b : Src) (s : State) : Out := execVec (.vshr u nw d a b) s (wVshr u nw d a b)
def execVrot (nw : Bool) (d : VR) (a b : Src) (s : State) : Out := execVec (.vrot nw d a b) s (wVrot nw d a b)
def execVclz (nw : Bool) (d : VR) (b : Src) (s : State) : Out := execVec (.vclz nw d b) s (wVclz nw d b)
def execVpopc (nw : Bool) (d : VR) (b : Src) (s : State) : Out := execVec (.vpopc nw d b) s (wVpopc nw d b)
def execVbfx (z nw : Bool) (d : VR) (b : Src) (lo wm1 : BitVec 5) (s : State) : Out :=
  execVec (.vbfx z nw d b lo wm1) s (wVbfx z nw d b lo wm1)
def execVbfi (nw : Bool) (d : VR) (a b : Src) (lo wm1 : BitVec 5) (s : State) : Out :=
  execVec (.vbfi nw d a b lo wm1) s (wVbfi nw d a b lo wm1)
def execVmov (nw : Bool) (d : VR) (b : Src) (s : State) : Out := execVec (.vmov nw d b) s (wVmov nw d b)
def execVmovi (t : VTy) (nw : Bool) (d : VR) (imm : BitVec 25) (s : State) : Out :=
  execVec (.vmovi t nw d imm) s (wVmovi t nw d imm)
def execVavg (u nw : Bool) (d : VR) (a b : Src) (s : State) : Out := execVec (.vavg u nw d a b) s (wVavg u nw d a b)
def execVdiv (u nw : Bool) (d : VR) (a b : Src) (s : State) : Out := execVec (.vdiv u nw d a b) s (wVdiv u nw d a b)
def execVrem (u nw : Bool) (d : VR) (a b : Src) (s : State) : Out := execVec (.vrem u nw d a b) s (wVrem u nw d a b)
def execVaddc (c nw : Bool) (d : VR) (a b x : Src) (s : State) : Out :=
  execVec (.vaddc c nw d a b x) s (wVaddc c nw d a b x)
def execVclmp (t : VTy) (nw : Bool) (d : VR) (a b c : Src) (s : State) : Out :=
  execVec (.vclmp t nw d a b c) s (wVclmp t nw d a b c)
def execVclass (t : Ty) (nw : Bool) (d : VR) (b : Src) (s : State) : Out :=
  execVec (.vclass t nw d b) s (wVclass t nw d b)
def execVsgnj (t : VTy) (v : SgnVar) (nw : Bool) (d : VR) (a b : Src) (s : State) : Out :=
  execVec (.vsgnj t v nw d a b) s (wVsgnj t v nw d a b)
def execVexpo (t : VTy) (nw : Bool) (d : VR) (b : Src) (s : State) : Out := execVec (.vexpo t nw d b) s (wVexpo t nw d b)

/-! ## Compare and select -/

/-- `VSEL` (R128). -/
def wVsel (nw : Bool) (d : VR) (a b : Src) (c : SR) : VecWord :=
  { VecWord.plain d nw (srcs2 .s32 a b) (fun x l =>
      let i := if x.sel.getLsbD l then 0 else 1
      ⟨x.op i l, 0, x.bad i l⟩) with copy := true, tri := some (9, c) }

def execVsel (nw : Bool) (d : VR) (a b : Src) (c : SR) (s : State) : Out :=
  execVec (.vsel nw d a b c) s (wVsel nw d a b c)

/-- Checks of a word that reads vector sources and writes scalar registers. -/
def toSclCheck (e : Env) (srcs : List (Nat × Src × Ty)) (memb : Option Member) (wr : List Nat) : Chk VecIn := do
  chkAll (fun x : Nat × Src × Ty => chkFootSrc e x.1 x.2.1) srcs
  chkLatches e (srcs.map fun x => ⟨x.1, x.2.1, Src.gv⟩)
  let rd := regsOf e.w e.k srcs
  chkBusy e (rd.1, rd.2 ++ membRegs memb none) ([], wr) memb.isSome
  if memb.isSome then chkMember e memb
  chkEaten (srcsEaten e memb srcs ++ triplesEaten e memb none)
  .ok (e.vecIn e.act srcs none memb none)

/-- Write scalar registers from a vector word; the latch holds the lowest. -/
def toSclWrite (e : Env) (w : Wave) (d : SR) (xs : List W) : State :=
  let w := w.setSregs e.k d.toNat xs false
  e.done (w.push (.scl d (w.sreg e.k d.toNat) false) false)

/-- Comparison of lane values (R127). -/
def cmpInt (c : VCond) (x y : Int) : Bool :=
  match c with
  | .eq => x == y
  | .ne => x != y
  | .lt => x < y
  | .le => x ≤ y
  | .gt => y < x
  | .ge => y ≤ x
  | .un => false

def cmpFl (c : VCond) (x y : Ex) : Bool :=
  if x.isNan || y.isNan then c == .ne || c == .un
  else
    match c with
    | .eq => exEq x y
    | .ne => !exEq x y
    | .lt => exLt x y
    | .le => !exLt y x
    | .gt => exLt y x
    | .ge => !exLt x y
    | .un => false

def isOrdered (c : VCond) : Bool := c == .lt || c == .le || c == .gt || c == .ge

def cmpLane (t : VTy) (c : VCond) (x y : W) : Bool × Flags :=
  match t with
  | .s32 => (cmpInt c x.toInt y.toInt, 0)
  | .u32 => (cmpInt c x.toNat y.toNat, 0)
  | t =>
    let p := inFl t x
    let q := inFl t y
    (cmpFl c p.1 q.1, p.2 ||| q.2 ||| flagIf (isOrdered c && (p.1.isNan || q.1.isNan)) flNV)

/-- `VCMP` (R127). -/
def execVcmp (t : VTy) (cc : VCond) (d : SR) (a b : Src) (s : State) : Out :=
  onSplit (.vcmp t cc d a b) s fun e => e.run do
    let x ← toSclCheck e (srcs2 (vty t) a b) none [d.toNat, d.toNat + 1, d.toNat + 2]
    let r (l : Nat) : Bool × Flags := if x.act.getLsbD l then cmpLane t cc (x.op 0 l) (x.op 1 l) else (false, 0)
    let fl := laneList.foldl (fun f l => f ||| (r l).2) 0
    let w := e.w.setFlags fl
    let hot := maskOf fun l => (r l).2 &&& e.w.fpen != 0
    if hot != 0 then .ok (e.trapAfter w (trFp (fl &&& e.w.fpen) hot))
    else .ok (toSclWrite e w d (maskWords (maskOf fun l => (r l).1)))

end Sys2Proof.Machine
end

