-- ==== Sys2Proof/Machine/Access.lean ====
section
/-! DEFINITION. What the words of rows 0x80-0x95 share (R166-R169, R175, R25, R302): addresses, the checks of R168 in their
order, parking, and outstanding operations. -/

namespace Sys2Proof.Machine

/-! ## Addresses (R166, R167) -/

/-- The form of an address: space 0 global, 1 scratchpad, 2 Hayloft. -/
def I25.space : I25 → Nat
  | .glob hay .. => if hay then 2 else 0
  | .spad .. => 1

def ordOf : I25 → BitVec 2
  | .glob _ _ _ o _ _ => o
  | .spad _ o _ => if o then 3 else 0

def scopeOf : I25 → BitVec 3
  | .glob _ _ _ _ s _ => s
  | .spad .. => 1

def colOf : I25 → BitVec 3
  | .glob _ _ c _ _ _ => c
  | .spad .. => 0

def isSpadForm : I25 → Bool
  | .spad .. => true
  | _ => false

def isHay : I25 → Bool
  | .glob h .. => h
  | .spad .. => false

/-- Index of lane `l` (R167). -/
def idxVal (e : Env) (b : Src) (l : Nat) : Nat :=
  match b with
  | .x .lid => l
  | b => ((e.vsrc .s32 b).lane l).toNat

def baseVal (e : Env) (a : Src) (i : I25) : Nat × Bool :=
  if isSpadForm i then
    let x := e.ssrc .s32 a
    (x.1.toNat, x.2)
  else
    let x := e.psrc a
    (x.1.toNat, x.2)

/-- `Addr(l)` from base and index (R167). -/
def addrVal (i : I25) (base idx : Nat) : Nat :=
  match i with
  | .spad sc _ disp => base + idx * 2 ^ sc.toNat + disp.toNat
  | .glob _ sc _ _ _ disp => wrapNat 64 ((base : Int) + (idx * 2 ^ sc.toNat : Nat) + disp.toInt)

/-! ## Poison of operands -/

/-- Consumed elements: subcode, register number, lanes; in field order (R176). -/
def chkPoisonM (act : Mask) (fs : List (Nat × Nat × Mask)) : Chk Unit :=
  match fs.find? fun f => f.2.2 &&& act != 0 with
  | some f => .error (.trap (trPoison f.1 f.2.1 (fs.foldl (fun m x => m ||| (x.2.2 &&& act)) 0)))
  | none => .ok ()

def boolMask (b : Bool) : Mask := if b then allLanes else 0

/-- Poisoned base and index: check 1 of R168. -/
def addrPoison (e : Env) (a : Src) (i : I25) (b : Option Src) : List (Nat × Nat × Mask) :=
  (1, srcNum e.w e.k a, boolMask (baseVal e a i).2)
    :: match b with
       | some b => [(1, srcNum e.w e.k b, (e.vsrc .s32 b).bad)]
       | none => []

/-! ## The checks of R168 -/

/-- Lanes that reached their place, and lanes whose page is not resident. -/
structure Reached where
  go     : List (Nat × Nat × Loc)   -- lane, address, place
  parked : List (Nat × Nat)         -- lane, address
  deriving DecidableEq, Repr

/-- What a memory word asks of its addresses: form, access size and alignment, whether it writes, `ACC` (R303), and
whether it acts once for the split. -/
structure Ask where
  i     : I25
  size  : Nat
  align : Nat
  write : Bool
  acc   : Nat
  once  : Bool

/-- Lanes of a list of lane-address pairs. -/
def lanesIn (xs : List (Nat × Nat)) : Mask := maskOf fun l => xs.any fun x => x.1 == l

/-- A trap on the lanes that fail a check: `TVAL` is the lowest one's address. -/
def chkLanes (e : Env) (once : Bool) (bad : List (Nat × Nat)) (t : Nat → Mask → Trap) : Chk Unit :=
  match bad with
  | [] => .ok ()
  | x :: _ => .error (.trap (t x.2 (if once then e.act else lanesIn bad)))

def trFailSub : Tr → Option Nat
  | .fail n => some n
  | _ => none

def trKey : Tr → Option Nat
  | .ok k => some k
  | _ => none

def trParks : Tr → Bool
  | .park => true
  | _ => false

/-- Checks 2 to 5 of R168 on the addresses of the lanes, in ascending lane order. -/
def reach (e : Env) (q : Ask) (as : List (Nat × Nat)) : Chk Reached := do
  let glob := !isSpadForm q.i && !isHay q.i
  if glob then chkLanes e q.once (as.filter fun x => !canonical x.2) (trAccess 0)
  chkLanes e q.once (as.filter fun x => x.2 % q.align != 0) (trAlign 0)
  if isSpadForm q.i then chkLanes e q.once (as.filter fun x => e.g.spadLen < x.2 + q.size) (trAccess 1)
  if isHay q.i then chkLanes e q.once (as.filter fun x => Config.hayBytes < x.2 + q.size) (trAccess 1)
  if isSpadForm q.i then .ok ⟨as.map fun x => (x.1, x.2, .spad x.2), []⟩
  else if isHay q.i then .ok ⟨as.map fun x => (x.1, x.2, .mem (Config.hayKey e.g.die x.2)), []⟩
  else do
    let w : Want := ⟨q.write, false, e.priv⟩
    let ts := as.map fun x => (x, translate e.s e.g w x.2 q.size)
    match ts.find? fun t => (trFailSub t.2).isSome with
    | some t =>
      let sub := (trFailSub t.2).getD 0
      chkLanes e q.once ((ts.filter fun t => trFailSub t.2 == some sub).map (·.1)) (trAccess sub)
    | none => .ok ()
    .ok ⟨ts.filterMap fun t => (trKey t.2).map fun k => (t.1.1, t.1.2, .mem k),
      (ts.filter fun t => trParks t.2).map (·.1)⟩

/-- Bookkeeping of the lane accesses that go ahead (R299). -/
def noteGo (s : State) (e : Env) (q : Ask) (go : List (Nat × Nat × Loc)) : State :=
  if isSpadForm q.i || isHay q.i then s
  else go.foldl (fun s x => noteTlb s e.g x.2.1 q.size) s

/-! ## Parking (R25, R302) -/

/-- One lane that waits for a page posts a request, or joins the one of an earlier lane. DEDUCED (logs 38, 46). -/
def postPark (e : Env) (kind acc : Nat) (r : State × List Park) (x : Nat × Nat) : State × List Park :=
  let page := x.2 / 2 ^ 16
  if r.2.any fun p => p.va / 2 ^ 16 == page then
    (r.1, mapIf (fun p => p.va / 2 ^ 16 == page) (fun p => { p with lanes := p.lanes ||| oneLane x.1 }) r.2)
  else
    let a := addReq r.1 e.g.die e.g.ctx x.2 kind acc (reqWord e.g e.w false) (.lanes e.g.id e.w.idx)
    (a.1, r.2 ++ [⟨oneLane x.1, x.2, a.2, false, false⟩])

/-- Post or join the requests of the pages that lanes wait for, lanes ascending. -/
def postParks (s : State) (e : Env) (kind acc : Nat) (xs : List (Nat × Nat)) : State × List Park :=
  xs.foldl (postPark e kind acc) (s, [])

/-- A push onto a full stack (R24). -/
def chkPark (e : Env) (m : Mask) : Chk Unit :=
  need (m == 0 || m == e.act || (e.w.slot !e.k).st == .empty || e.w.dsp < 32) (trDstk 1 m)

/-- The splits after lanes `m` of slot `k` park at its word. -/
def parkSplits (x : Splits) (k : Bool) (m : Mask) : Splits :=
  let me := x.slot k
  if m == me.act then x.set k { me with st := .parked }
  else
    let x := x.set k { me with act := me.act &&& ~~~m }
    if (x.slot !k).st == .empty then x.set (!k) { me with act := m, st := .parked }
    else { x with stk := ⟨1, me.pc, me.rpc, m, me.um⟩ :: x.stk }

/-- Park lanes of the issuing split. -/
def parkLanes (s : State) (e : Env) (m : Mask) (ps : List Park) : State :=
  match s.wave? e.gi e.wi with
  | none => s
  | some w =>
    let w := { w with parks := ps ++ w.parks }
    ((s.bump e.g.byreId 8 (maskCount m)).setWave e.gi e.wi w).putSplits e.gi e.wi (parkSplits (s.splits e.gi w) e.k m)

/-- Park the whole split at its word (R168, R246, R302). -/
def parkAll (e : Env) (kind acc va : Nat) : State :=
  let a := addReq e.s e.g.die e.g.ctx va kind acc (reqWord e.g e.w false) (.lanes e.g.id e.w.idx)
  parkLanes a.1 e e.act [⟨e.act, va, a.2, false, false⟩]

/-! ## Outstanding operations (R169) -/

/-- Operations that a `WAITC` counter counts (R108, R169): global stores until they are accepted, all others until done;
the store of `DADD` counts in `st` as well. -/
def Wave.ctr (w : Wave) (c : Ctr) : Nat :=
  (w.ops.filter fun o => (o.ctr == c && !(c == .st && o.accepted)) || (c == .st && o.kind == .dadd && o.ctr == .vl)).length

/-- A word that would raise a counter above 63 waits (R108). -/
def chkCtr (e : Env) (c : Ctr) : Chk Unit := needWait (e.w.ctr c < 63) (.room c)

/-- A memory word: address fields, demand, kind, destination, the data that each lane supplies, the registers it
reads and writes, and the elements of `D` that it consumes. -/
structure MemWord where
  a      : Src
  b      : Option Src
  q      : Ask
  kind   : MemKind
  dst    : Dst
  data   : Nat → BitVec 128 × D × BitVec 4
  foot   : Option (Nat × Nat)
  rd     : List Nat × List Nat
  wr     : List Nat × List Nat
  eat    : List (Nat × Nat × Mask)

def isStoreKind (k : MemKind) : Bool :=
  match k with
  | .store _ => true
  | .daddA => true
  | .lblst => true
  | _ => false

/-- The counter of a word (R169). -/
def ctrOf (m : MemWord) : Ctr := if isSpadForm m.q.i then .sp else if isStoreKind m.kind then .st else .vl

/-- Lanes that access memory, with their addresses. -/
def laneAddrs (e : Env) (m : MemWord) : List (Nat × Nat) :=
  let base := (baseVal e m.a m.q.i).1
  let one (l : Nat) : Nat := addrVal m.q.i base (match m.b with | some b => idxVal e b l | none => 0)
  if m.q.once then [(0, one (lowLane e.act))] else (lanesOf e.act).map fun l => (l, one l)

/-- Class of the base: an SP, or for scratchpad a scalar or `zero` (R167). -/
def baseCls (i : I25) : Src → Bool := fun a => if isSpadForm i then a.sz else a.sp

/-- Check 6 of R67 for a memory word. -/
def memFoot (e : Env) (m : MemWord) : Chk Unit := do
  match m.foot with
  | some (n, len) => chkFoot e 6 n len
  | none => .ok ()
  match m.b with
  | some b => chkFootSrc e 8 b
  | none => .ok ()

/-- The checks of a memory word before its addresses (R306). -/
def memPre (e : Env) (m : MemWord) (idxCls : Src → Bool) : Chk Unit := do
  memFoot e m
  chkLatches e (⟨7, m.a, baseCls m.q.i⟩ :: match m.b with | some b => [⟨8, b, idxCls⟩] | none => [])
  chkCtr e (ctrOf m)
  if m.kind == .dadd && ctrOf m == .vl then chkCtr e .st
  let ra := srcRegs e.w e.k m.a (if isSpadForm m.q.i then 1 else 2)
  let rb := match m.b with | some b => srcRegs e.w e.k b 1 | none => ([], [])
  chkBusy e (m.rd.1 ++ ra.1 ++ rb.1, m.rd.2 ++ ra.2 ++ rb.2) m.wr false
  chkPoisonM e.act (m.eat ++ addrPoison e m.a m.q.i m.b)

/-- The checks of the lanes' addresses (R168, R302). -/
def memReach (e : Env) (m : MemWord) (as : List (Nat × Nat)) : Chk Reached := do
  let r ← reach e m.q as
  chkPark e (if m.q.once && !r.parked.isEmpty then e.act else lanesIn r.parked)
  .ok r

/-- All checks of a memory word. -/
def memCheck (e : Env) (m : MemWord) (idxCls : Src → Bool) : Chk Reached := do
  memPre e m idxCls
  memReach e m (laneAddrs e m)

/-- The outstanding operation that the reached lanes start. -/
def memOp (e : Env) (m : MemWord) (go : List (Nat × Nat × Loc)) (id : Nat) : MemOp where
  id := id
  slot := e.k
  act := e.act
  kind := m.kind
  ctr := ctrOf m
  dst := m.dst
  accs := go.map fun x =>
    let v := m.data x.1
    ⟨x.1, x.2.2, if isSpadForm m.q.i || isHay m.q.i then none else (homeEnc e.s e.g x.2.1 m.q.size).map (·.2), x.2.1, v.1,
      v.2.1, v.2.2⟩
  left := match m.kind with
    | .loadU _ => e.act
    | _ => maskOf fun l => go.any fun x => x.1 == l
  ord := ordOf m.q.i
  scope := scopeOf m.q.i
  col := colOf m.q.i
  floor := e.w.floor e.act
  step := e.g.step
  dcl := e.g.dcl
  accepted := false

def Wave.addOp (w : Wave) (o : MemOp) : Wave := { w with ops := w.ops ++ [o], opSeq := w.opSeq + 1 }

/-- The effect of a memory word: lanes that reached start its operation, the others park. -/
def memApply (e : Env) (m : MemWord) (r : Reached) : State :=
  let s := noteGo e.s e m.q r.go
  let p := postParks s e 0 m.q.acc r.parked
  let pm := if m.q.once && !r.parked.isEmpty then e.act else lanesIn r.parked
  let ps := if m.q.once then p.2.map fun x => { x with lanes := e.act } else p.2
  if pm == e.act then parkLanes p.1 e pm ps
  else
    let w := (e.w.addOp (memOp e m r.go e.w.opSeq)).pushNone
    let s := p.1.setWave e.gi e.wi w
    let s := if pm == 0 then s else parkLanes s e pm ps
    s.modWave e.gi e.wi fun w => w.advance e.k

def memRun (e : Env) (m : MemWord) (idxCls : Src → Bool) : Chk State := do
  let r ← memCheck e m idxCls
  .ok (memApply e m r)

end Sys2Proof.Machine
end

