-- ==== Sys2Proof/Machine/Control.lean ====
section
/-! DEFINITION. Control words (R66, R101-R111, R115): branches, divergence and reconvergence, exits, traps, waits. -/

namespace Sys2Proof.Machine

/-- A signed offset in words from `pc` (R101). -/
def offPc (pc off : D) : D := pc + off * 8

/-- A word without destination leaves the split at `pc`. -/
def Env.moveTo (e : Env) (w : Wave) (pc : D) : Wave := w.modSlot e.k fun x => { x with pc := pc, st := .ready }

/-- A word without destination is done: an untagged latch entry, and the next word (R101). -/
def Env.pass (e : Env) : State := e.put ((e.w.pushNone).advance e.k)

/-- The splits after a divergent branch (R104): the not-taken side stays, the taken side goes to the free slot or the
stack, with a frame for a new join. -/
def branchSplits (x : Splits) (k : Bool) (taken : Mask) (pc target join : D) : Splits :=
  let me := x.slot k
  let same := join == me.rpc
  let um := if same then me.um else me.act
  let rpc := if same then me.rpc else join
  let stk := if same then x.stk else ⟨0, join, me.rpc, 0, me.um⟩ :: x.stk
  let rest : Slot := { me with pc := pc + 8, act := me.act &&& ~~~taken, um := um, rpc := rpc, st := .ready }
  if (x.slot !k).st == .empty then
    ({ x with stk := stk }.set k rest).set (!k)
      { me with pc := target, act := taken, um := um, rpc := rpc, st := .ready }
  else ({ x with stk := ⟨0, target, rpc, taken, um⟩ :: stk }).set k rest

/-- Stack entries that a divergent branch pushes. -/
def branchPush (x : Splits) (k : Bool) (join : D) : Nat :=
  (if join == (x.slot k).rpc then 0 else 1) + (if (x.slot !k).st == .empty then 0 else 1)

def execBrv (neg : Bool) (a : SR) (join : BitVec 18) (target : BitVec 16) (s : State) : Out :=
  onSplit (.brv neg a join target) s fun e => e.run do
    chkBusy e ([], tripleRegs a) ([], []) false
    chkPoisonS e [(0x80 + a.toNat, tripleBad e.w a)] 2
    let t := e.w.triple e.k a.toNat
    let p := (if neg then ~~~t else t) &&& e.act
    let pc := e.slot.pc
    let j := offPc pc (join.signExtend 64)
    let tgt := offPc pc (target.signExtend 64)
    if p == e.act then .ok (e.put (e.moveTo e.w.pushNone tgt))
    else if p == 0 then .ok e.pass
    else do
      let x := e.s.splits e.gi e.w
      need (e.w.dsp + branchPush x e.k j ≤ 32) (trDstk 0 e.act)
      .ok (settle ((e.put e.w.pushNone).putSplits e.gi e.wi (branchSplits x e.k p pc tgt j)) e.gi e.wi)

def execBra (off : BitVec 34) (s : State) : Out :=
  onSplit (.bra off) s fun e => e.put (e.moveTo e.w.pushNone (offPc e.slot.pc (off.signExtend 64)))

/-- `JOIN` (R105). -/
def execJoin (s : State) : Out :=
  onSplit .join s fun e =>
    if e.slot.rpc != e.slot.pc then e.pass
    else
      let w := e.w.pushNone
      settle ((e.put w).putSplits e.gi e.wi ((e.s.splits e.gi w).reachJoin e.k e.slot.pc)) e.gi e.wi

/-- The return address goes to pair `D` before the split moves (R102). -/
def Env.callTo (e : Env) (d : SR) (tgt : D) : State :=
  let ra := e.slot.pc + 8
  let w := e.w.setSregs e.k d.toNat [lo32 ra, hi32 ra] false
  let w := w.push (.scl d (w.sreg e.k d.toNat) false) false
  afterMask (e.put (e.moveTo w tgt)) e.gi e.wi e.k e.act

def execCall (d : SR) (off : BitVec 34) (s : State) : Out :=
  onSplit (.call d off) s fun e => e.run do
    chkBusy e ([], []) ([], [d.toNat, d.toNat + 1]) false
    .ok (e.callTo d (offPc e.slot.pc (off.signExtend 64)))

/-- A branch target held in a pair (R102). -/
def chkTarget (e : Env) (a : Src) (wr : List Nat) : Chk D := do
  chkLatches e [⟨7, a, Src.sp⟩]
  chkBusy e (srcRegs e.w e.k a 2) ([], wr) false
  let x := e.psrc a
  chkPoisonS e [(srcNum e.w e.k a, x.2)] 2
  need (x.1.toNat % 8 == 0) (trAlign 1 x.1.toNat e.act)
  .ok x.1

def execCallR (d : SR) (a : Src) (s : State) : Out :=
  onSplit (.callR d a) s fun e => e.run do
    let tgt ← chkTarget e a [d.toNat, d.toNat + 1]
    .ok (e.callTo d tgt)

def execRet (a : Src) (s : State) : Out :=
  onSplit (.ret a) s fun e => e.run do
    let tgt ← chkTarget e a []
    .ok (e.put (e.moveTo e.w.pushNone tgt))

def execBrx (a : Src) (s : State) : Out :=
  onSplit (.brx a) s fun e => e.run do
    let tgt ← chkTarget e a []
    .ok (e.put (e.moveTo e.w.pushNone tgt))

/-- `EXIT` (R106, R310). -/
def execExit (s : State) : Out :=
  onSplit .exit s fun e => exitLanes (e.put e.w.pushNone) e.gi e.wi e.k e.act

/-- The whole wave ends (R310). -/
def endWave (s : State) (gi wi : Nat) : State := sweepReqs (settleGang (s.modWave gi wi Wave.stop) gi)

/-- The gang ends with an error (R310). -/
def endGangErr (s : State) (gi : Nat) : State := sweepReqs (s.modGang gi fun g => { g.kill with err := true, st := .ended })

/-- `TRAP` (R110); inside a handler subcodes 0xFD and 0xFE end the wave and the gang (R310). -/
def execTrap (code : BitVec 16) (s : State) : Out :=
  onSplit (.trap code) s fun e =>
    let sub := code.toNat % 256
    if e.w.trap.isSome && sub == 0xFD then endWave e.s e.gi e.wi
    else if e.w.trap.isSome && sub == 0xFE then endGangErr e.s e.gi
    else e.trap ⟨13, sub, code.toNat / 256, 0, e.act⟩

/-- Return to `TPC` plus `skip` (R111). -/
def eretWith (i : Instr) (skip : D) (s : State) : Out :=
  onSplit i s fun e => e.run do
    need e.w.trap.isSome (trIllegal e 3 0 false)
    chkClear e e.w.holdsReturn
    .ok (settle (trapReturn (e.put e.w.pushNone) e.gi e.wi ((e.w.tpc &&& ~~~(7 : D)) + skip)) e.gi e.wi true)

def execEret (s : State) : Out := eretWith .eret 0 s

def execEretNext (s : State) : Out := eretWith .eretNext 8 s

/-- Special-function results are written back before the next word, so `tr` is 0 (log 13). -/
def execWaitc (c : Ctr) (n : BitVec 6) (s : State) : Out :=
  onSplit (.waitc c n) s fun e => e.run do
    needWait (e.w.ctr c ≤ n.toNat) (.ctr c n.toNat)
    .ok e.pass

/-- A wave descheduled at a `YIELD` and back (R109): as after a pre-emption its global stores have been accepted, its latches
are lost and its L1 is cold (R313, R314). -/
def Wave.rested (w : Wave) (n : Nat) : Wave :=
  { w.raise allLanes n with
    latches := loseLatches w.latches, ops := mapIf (fun o => o.ctr == .st) (fun o => { o with accepted := true }) w.ops }

/-- `YIELD` (R109). With no memory word outstanding that has a register destination the scheduler may deschedule the wave.
DESIGN CHOICE (log 65): whether it does is free, and the wave comes back to its place. -/
def execYield (s : State) : Out :=
  onSplit .yield s fun e =>
    let w := (e.w.pushNone.advance e.k).modSlot e.k fun x => { x with st := .blocked .yielded }
    if e.w.ops.any (·.dst != .none) then e.put w
    else { e with s := e.s.took }.put (if Config.deschedules e.s.freeCtr then w.rested (e.s.fills + 1) else w)

def execNop (s : State) : Out := onSplit .nop s fun e => e.pass

/-- A 32-bit operand of a word that has no other source. -/
def chkOne (e : Env) (code : Nat) (a : Src) (sub : Nat) : Chk W := do
  chkFutSrc e a
  chkLatches e [⟨code, a, Src.gs⟩]
  chkBusy e (srcRegs e.w e.k a 1) ([], []) false
  let x := e.ssrc .s32 a
  chkPoisonS e [(srcNum e.w e.k a, x.2)] sub
  .ok x.1

/-- `STEPADV` (R115). -/
def execStepadv (a : Src) (s : State) : Out :=
  onSplit (.stepadv a) s fun e => e.run do
    let x ← chkOne e 7 a 0
    let s := e.pass.modGang e.gi fun g => { g with step := g.step + x }
    .ok (s.modCtx e.g.ctx fun c => { c with step := c.step + x })

end Sys2Proof.Machine
end

