-- ==== Sys2Proof/Machine/Special.lean ====
section
/-! DEFINITION. The special functions (R137, R138) and the Gumbel noise term (R163). Values are computed in fixed point
with 256 fraction bits, far below every rounding point of a 16-bit or 32-bit result. The FP32 result may differ from the
correctly rounded one by the free `Config.sfOffset`, where the bound of R137 allows that (log 6). -/

namespace Sys2Proof.Machine

/-- One in fixed point. -/
def fx1 : Nat := 2 ^ 256

def fxMul (a b : Nat) : Nat := a * b / 2 ^ 256

/-- ∑ t^(2k+1) ÷ (2k+1), k < n, alternating if `alt`; `p` holds t^(2k+1). -/
def atanSum (alt : Bool) (t2 : Nat) : Nat → Nat → Nat → Int
  | 0, _, _ => 0
  | n + 1, k, p =>
    let term : Int := p / (2 * k + 1)
    (if alt && k % 2 == 1 then -term else term) + atanSum alt t2 n (k + 1) (fxMul p t2)

/-- 2 artanh t for t in [0, 1/3]. -/
def fxLog (t : Nat) : Nat := 2 * (atanSum false (fxMul t t) 90 0 t).toNat

def fxLn2 : Nat := fxLog (fx1 / 3)

/-- arctan (1 ÷ k). -/
def fxAtanInv (k : Nat) : Int := atanSum true (fx1 / (k * k)) 60 0 (fx1 / k)

/-- π by Machin's formula. -/
def fxPi : Nat := (4 * (4 * fxAtanInv 5 - fxAtanInv 239)).toNat

/-- ∑ x^k ÷ k! from term index k with term `p`. -/
def expSum (x : Nat) : Nat → Nat → Nat → Nat
  | 0, _, _ => 0
  | n + 1, k, p => p + expSum x n (k + 1) (fxMul p x / (k + 1))

/-- e^x for x in [0, 1). -/
def fxExp (x : Nat) : Nat := expSum x 64 0 fx1

/-- Alternating ∑ with factorial steps of two: x^(2k+j) ÷ (2k+j)!. -/
def trigSum (x2 : Nat) : Nat → Nat → Nat → Nat → Int
  | 0, _, _, _ => 0
  | n + 1, k, i, p =>
    (if k % 2 == 1 then -(p : Int) else p) + trigSum x2 n (k + 1) (i + 2) (fxMul p x2 / ((i + 1) * (i + 2)))

/-- sin y for y in [0, π/2]. -/
def fxSin (y : Nat) : Nat := (trigSum (fxMul y y) 40 0 1 y).toNat

/-- ∑ (-1)^k x^(2k+1) ÷ (k! (2k+1)); `p` holds x^(2k+1) ÷ k!. -/
def erfSum (x2 : Nat) : Nat → Nat → Nat → Int
  | 0, _, _ => 0
  | n + 1, k, p =>
    let term : Int := p / (2 * k + 1)
    (if k % 2 == 1 then -term else term) + erfSum x2 n (k + 1) (fxMul p x2 / (k + 1))

/-- The floor of a positive quotient in fixed point. -/
def fxOf (n d : Nat) : Nat := n * 2 ^ 256 / d

/-- 2^(n ÷ d) for |n ÷ d| below 2^20, to 256 bits. -/
def exp2Quot (n : Int) (d : Nat) : Ex :=
  let k : Int := n / (d : Int)
  let f := (n % (d : Int)).toNat
  exPow2 (fxExp (fxMul (fxOf f d) fxLn2)) (clampInt (-1000) 1000 k - 256)

/-- log₂(n ÷ d) as an integer and a fixed-point fraction. -/
def log2Fx (n d : Nat) : Int :=
  let e := log2Quot n d
  let q := scaleQuot n d e
  -- m = q.1 / q.2 in [1, 2): ln m = 2 artanh ((m − 1) / (m + 1))
  let t := fxOf (q.1 - q.2) (q.1 + q.2)
  e * 2 ^ 256 + (fxLog t * 2 ^ 256 / fxLn2 : Nat)

/-- A fixed-point integer as an exact value. -/
def fxEx (x : Int) : Ex := exQuot x (2 ^ 256) false

/-- sin(π n ÷ d) for n, d > 0. -/
def sinPi (n d : Nat) : Ex :=
  -- x mod 2 in quarter turns of π
  let r := n % (2 * d)
  let neg := d ≤ r
  let r := if neg then r - d else r
  let r := if d < 2 * r then d - r else r
  let v : Int := fxSin (fxMul (fxOf r d) fxPi)
  fxEx (if neg then -v else v)

/-- tanh(n ÷ d) for n, d > 0. -/
def tanhPos (n d : Nat) : Ex :=
  if 45 * d < n then .fin (2 ^ 60 - 1) (2 ^ 60)
  else
    let y := fxOf (2 * n) d
    let k := y / fxLn2
    let e := fx1 * fx1 / fxExp (y % fxLn2) / 2 ^ k
    .fin (fx1 - e : Nat) (fx1 + e)

/-- erf(n ÷ d) for n, d > 0. -/
def erfPos (n d : Nat) : Ex :=
  if 6 * d < n then .fin (2 ^ 50 - 1) (2 ^ 50)
  else
    let x := fxOf n d
    let s := (erfSum (fxMul x x) 320 0 x).toNat
    fxEx (2 * s * 2 ^ 256 / isqrt 260 (fxPi * 2 ^ 256) 0 : Nat)

inductive SFun
  | rcp | rsq | exp2 | log2 | sin | cos | tanh | erf
  deriving DecidableEq, Repr

def SFun.code : SFun → Nat
  | .rcp => 0
  | .rsq => 1
  | .exp2 => 2
  | .log2 => 3
  | .sin => 4
  | .cos => 5
  | .tanh => 6
  | .erf => 7

/-- Whether n ÷ d > 0 is a power of two. -/
def isPow2Quot (n d : Nat) : Bool :=
  let q := scaleQuot n d (log2Quot n d)
  q.1 == q.2

/-- The function value, its flags, and whether it is one of the exact results of R138. -/
structure SfVal where
  val   : Ex
  fl    : Flags
  exact : Bool
  deriving DecidableEq, Repr

def sfEx (x : Ex) (fl : Flags) : SfVal := ⟨x, fl, true⟩
def sfIn (x : Ex) : SfVal := ⟨x, 0, false⟩

/-- The exact value of a special function, or its approximation to 256 bits (R137, R138). -/
def sfVal (f : SFun) (x : Ex) : SfVal :=
  match f, x with
  | _, .nan => sfEx .nan 0
  | .rcp, .zero s => sfEx (.inf s) flDZ
  | .rcp, .inf s => sfEx (.zero s) 0
  | .rcp, .fin n d => ⟨(exDiv (exInt 1) (.fin n d)).1, 0, isPow2Quot n.natAbs d⟩
  | .rsq, .zero s => sfEx (.inf s) flDZ
  | .rsq, .inf s => if s then sfEx .nan flNV else sfEx (.zero false) 0
  | .rsq, .fin n d =>
    if n < 0 then sfEx .nan flNV
    else ⟨sqrtQuot d n.natAbs, 0, isPow2Quot n.natAbs d && (log2Quot n.natAbs d) % 2 == 0⟩
  | .exp2, .zero _ => sfEx (exInt 1) 0
  | .exp2, .inf s => sfEx (if s then .zero false else .inf false) 0
  | .exp2, .fin n d =>
    let k := clampInt (-1000) 1000 (exFloor (.fin n d))
    if exIsInt (.fin n d) then sfEx (exPow2 1 k) 0
    else if k == 1000 || k == -1000 then sfIn (exPow2 1 k)
    else sfIn (exp2Quot n d)
  | .log2, .zero _ => sfEx (.inf true) flDZ
  | .log2, .inf s => if s then sfEx .nan flNV else sfEx (.inf false) 0
  | .log2, .fin n d =>
    if n < 0 then sfEx .nan flNV
    else if isPow2Quot n.natAbs d then sfEx (exInt (log2Quot n.natAbs d)) 0
    else sfIn (fxEx (log2Fx n.natAbs d))
  | .sin, .zero s => sfEx (.zero s) 0
  | .sin, .inf _ => sfEx .nan flNV
  | .sin, .fin n d =>
    if exIsInt (.fin n d) then sfEx (.zero (decide (n < 0))) 0
    else if exIsInt (.fin (2 * n) d) then sfEx (exInt (if exFloor (.fin n d) % 2 == 0 then 1 else -1)) 0
    else sfIn (signEx (decide (n < 0)) (sinPi n.natAbs d))
  | .cos, .zero _ => sfEx (exInt 1) 0
  | .cos, .inf _ => sfEx .nan flNV
  | .cos, .fin n d =>
    if exIsInt (.fin n d) then sfEx (exInt (if exFloor (.fin n d) % 2 == 0 then 1 else -1)) 0
    else if exIsInt (.fin (2 * n) d) then sfEx (.zero false) 0
    else sfIn (sinPi (2 * n.natAbs + d) (2 * d))
  | .tanh, .zero s => sfEx (.zero s) 0
  | .tanh, .inf s => sfEx (exInt (if s then -1 else 1)) 0
  | .tanh, .fin n d => sfIn (signEx (decide (n < 0)) (tanhPos n.natAbs d))
  | .erf, .zero s => sfEx (.zero s) 0
  | .erf, .inf s => sfEx (exInt (if s then -1 else 1)) 0
  | .erf, .fin n d => sfIn (signEx (decide (n < 0)) (erfPos n.natAbs d))

/-- Patterns of a format in numeric order, and back. -/
def ordCode (f : Fm) (x : Nat) : Int := if f.neg x then -(f.mag x : Int) else f.mag x

def ofOrdCode (f : Fm) (k : Int) : Nat := if k < 0 then k.natAbs + f.sign else k.natAbs

/-- |x − y| as a quotient. -/
def exDist (x y : Ex) : Ex :=
  let p := x.quot
  let q := y.quot
  .fin (p.1 * q.2 - q.1 * p.2).natAbs (p.2 * q.2)

/-- The FP32 error bound of a special function at the exact value `y`, input `x` (R137). -/
def sfBound (f : SFun) (x y : Ex) : Ex :=
  let e := max (log2Quot y.quot.1.natAbs y.quot.2) (-126)
  let one := exPow2 1 (e - 23)
  let two := exPow2 2 (e - 23)
  match f with
  | .rcp => one
  | .rsq => one
  | .log2 =>
    if !exLt x (.fin 1 2) && !exLt (exInt 2) x then (if exLt two (exPow2 1 (-22)) then exPow2 1 (-22) else two) else two
  | .sin => if exLt two (exPow2 1 (-24)) then exPow2 1 (-24) else two
  | .cos => if exLt two (exPow2 1 (-24)) then exPow2 1 (-24) else two
  | _ => two

/-- The FP32 result for input bits `b`: the correctly rounded pattern `r`, moved by the free offset where the moved
pattern is finite and within the bound. -/
def sfPick (f : SFun) (b : W) (x y : Ex) (r : Nat) : Nat :=
  let r' := ofOrdCode fmF32 (ordCode fmF32 r + Config.sfOffset f.code b)
  if fmF32.mag r ≤ fmF32.maxMag && r' < 2 ^ 32 && fmF32.mag r' ≤ fmF32.maxMag
      && !exLt (sfBound f x y) (exDist (fmF32.val r') y) then r' else r

/-- A special function of one lane: result and flags (R137, R138). -/
def special (f : SFun) (t : VTy) (b : W) : W × Flags :=
  let x := inFl t b
  let v := sfVal f x.1
  let fm := fmOf t
  let r := roundFP fm .rne false 0 v.val
  if v.exact then (BitVec.ofNat 32 r.1, v.fl ||| x.2 ||| r.2)
  else
    let p := if t == .f32 then sfPick f b x.1 v.val r.1 else r.1
    (BitVec.ofNat 32 p, flNX ||| flagIf (fm.maxMag < fm.mag r.1) flOF ||| flagIf (fm.mag p < 2 ^ fm.m) flUF)

/-- γ = −log₂(−ln U) for U = (k + ½) × 2^-24 (R163). DEDUCED (log 55). -/
def gumbel (k : Nat) : Ex :=
  -- −ln U = −log₂ U × ln 2, in fixed point
  let l := (-(log2Fx (2 * k + 1) (2 ^ 25))).toNat
  let w := fxMul l fxLn2
  fxEx (-(log2Fx w fx1))

end Sys2Proof.Machine
end

