-- ==== Sys2Proof/Machine/VecFloat.lean ====
section
/-! DEFINITION. Floating-point arithmetic words, segment reductions, dot products and special functions (R124, R129, R132,
R137, R138), each as data and with its meaning. -/

namespace Sys2Proof.Machine

/-- One source: exact value, one rounding with unit 0 (R124). -/
def flt1 (t : VTy) (nw : Bool) (d : VR) (b : Src) (rm : Rm) (f : Ex → Ex × Flags) : VecWord :=
  { VecWord.plain d nw (srcB (vty t) b) (fun x l =>
      let p := inFl t (x.op 0 l)
      let r := f p.1
      let z := roundLane t ⟨false, rm⟩ (x.u l 0) r.1
      ⟨z.1, p.2 ||| r.2 ||| z.2, false⟩) with draw := rm == .sr }

/-- Three sources: exact value, one rounding with unit 0 (R124). -/
def flt3 (t : VTy) (nw : Bool) (d : VR) (a b c : Src) (m : Xm) (f : Ex → Ex → Ex → Ex × Flags) : VecWord :=
  { VecWord.plain d nw (srcs3 (vty t) a b c) (fun x l =>
      let p := inFl t (x.op 0 l)
      let q := inFl t (x.op 1 l)
      let o := inFl t (x.op 2 l)
      let r := f p.1 q.1 o.1
      let z := roundLane t m (x.u l 0) r.1
      ⟨z.1, p.2 ||| q.2 ||| o.2 ||| r.2 ||| z.2, false⟩) with draw := m.rm == .sr }

/-- x × y + z, exactly. -/
def exFma (rm : Rm) (x y z : Ex) : Ex × Flags :=
  let p := exMul x y
  let r := exAdd rm p.1 z
  (r.1, p.2 ||| r.2)

def wVfma (t : VTy) (nw : Bool) (d : VR) (a b c : Src) (m : Xm) : VecWord := flt3 t nw d a b c m (exFma m.rm)
def wVfms (t : VTy) (nw : Bool) (d : VR) (a b c : Src) (m : Xm) : VecWord :=
  flt3 t nw d a b c m fun x y z => exFma m.rm x y z.negate
def wVfnma (t : VTy) (nw : Bool) (d : VR) (a b c : Src) (m : Xm) : VecWord :=
  flt3 t nw d a b c m fun x y z => exFma m.rm x.negate y z
def wVfdiv (t : VTy) (nw : Bool) (d : VR) (a b : Src) (m : Xm) : VecWord := flt2 t nw d a b m exDiv
def wVsqrt (t : VTy) (nw : Bool) (d : VR) (b : Src) (rm : Rm) : VecWord := flt1 t nw d b rm exSqrt

/-- a + c × (b − a), with b − a exact (R124). -/
def wVlerp (t : VTy) (nw : Bool) (d : VR) (a b c : Src) (m : Xm) : VecWord :=
  flt3 t nw d a b c m fun x y z =>
    let p := exSub m.rm y x
    let q := exMul z p.1
    let r := exAdd m.rm x q.1
    (r.1, p.2 ||| q.2 ||| r.2)

/-- a × 2^b, with b an s32 (R124). -/
def wVscale (t : VTy) (nw : Bool) (d : VR) (a b : Src) (m : Xm) : VecWord :=
  { VecWord.plain d nw [(7, a, vty t), (8, b, .s32)] (fun x l =>
      let p := inFl t (x.op 0 l)
      let z := roundLane t m (x.u l 0) (exScale p.1 (x.op 1 l).toInt)
      ⟨z.1, p.2 ||| z.2, false⟩) with draw := m.rm == .sr }

/-- Round to an integral value, keeping the sign and setting no flag but NV for a signalling NaN (R124). -/
def rint (t : VTy) (rm : Rm) (x : W) : W × Flags :=
  let p := inFl t x
  let v : Ex := match p.1 with
    | .fin n d => exQuot (exRint rm (.fin n d)) 1 (n < 0)
    | y => y
  ((roundLane t ⟨false, .rne⟩ 0 v).1, p.2)

def wVrint (t : VTy) (nw : Bool) (d : VR) (b : Src) (rm : Rm) : VecWord :=
  .plain d nw (srcB (vty t) b) fun x l => flagged (rint t rm (x.op 0 l))

/-- b − ⌊b⌋; NV for an infinity, +0 for an integral b (R124). -/
def frac (x : Ex) : Ex × Flags :=
  match x with
  | .inf _ => (.nan, flNV)
  | .fin n d => (exQuot (n - n / (d : Int) * d) d false, 0)
  | .zero _ => (.zero false, 0)
  | .nan => (.nan, 0)

def wVfrac (t : VTy) (nw : Bool) (d : VR) (b : Src) (rm : Rm) : VecWord := flt1 t nw d b rm frac

/-! ## Segments and trees (R129, R144, R153) -/

/-- log₂ of the length of a segment within a beat. -/
def segLog (g : BitVec 3) : Nat := min g.toNat 5

def segLen (g : BitVec 3) : Nat := if g == 6 then 96 else 2 ^ segLog g

/-- First lane of the segment that holds lane `l`. -/
def segBase (g : BitVec 3) (l : Nat) : Nat := l / segLen g * segLen g

/-- The node over lanes i to i + 2^k − 1; an absent child passes the other. -/
def treeNode {α : Type} (op : Nat → Nat → α → α → α) (get : Nat → Option α) : Nat → Nat → Option α
  | 0, i => get i
  | k + 1, i =>
    match treeNode op get k i, treeNode op get k (i + 2 ^ k) with
    | some a, some b => some (op k i a b)
    | some a, none => some a
    | none, b => b

def mergeOpt {α : Type} (f : α → α → α) (a b : Option α) : Option α :=
  match a, b with
  | some a, some b => some (f a b)
  | some a, none => some a
  | none, b => b

/-- The root of a segment; `op k i` combines at level `k` with left input at lane `i`, and the two merges of the beats are
levels 5 and 6 of lane 0. -/
def segRoot {α : Type} (op : Nat → Nat → α → α → α) (get : Nat → Option α) (g : BitVec 3) (base : Nat) : Option α :=
  if g == 6 then
    mergeOpt (op 6 0) (mergeOpt (op 5 0) (treeNode op get 5 0) (treeNode op get 5 32)) (treeNode op get 5 64)
  else treeNode op get (segLog g) base

/-- Give every issuing lane the result of its segment, and the flags of the combining steps (R129, R141): each of those lanes
raises them. DESIGN CHOICE (log 75). -/
def segOut (act : Mask) (g : BitVec 3) (root : Nat → Option LaneOut) : List LaneOut :=
  let n := segLen g
  (List.range (96 / n)).flatMap fun k =>
    let r := if (List.range n).any fun i => act.getLsbD (k * n + i) then (root (k * n)).getD (pure1 0) else pure1 0
    (List.range n).map fun i => if act.getLsbD (k * n + i) then r else pure1 0

/-- A combining step with flags. -/
def withFl (f : W → W → W × Flags) (a b : W × Flags) : W × Flags :=
  let r := f a.1 b.1
  (r.1, a.2 ||| b.2 ||| r.2)

/-- Maximum or minimum for which any NaN gives the canonical NaN (R129). -/
def pickNan (t : VTy) (max : Bool) (x y : W) : W × Flags :=
  let p := inFl t x
  let q := inFl t y
  if p.1.isNan || q.1.isNan then (BitVec.ofNat 32 (fmOf t).nan, p.2 ||| q.2) else pickFl t max x y

/-- A lane value as it enters a tree or a scan: no NaN payload is carried into a result (R72). -/
def treeLeaf (t : VTy) (x : W) : W :=
  if t.isFloat then BitVec.ofNat 32 (if (inFl t x).1.isNan then (fmOf t).nan else flBits t x) else x

/-- NV of an issuing lane's own signalling NaN (R72, R90, R141). -/
def ownFlags (t : VTy) (x : VecIn) (rs : List LaneOut) : List LaneOut :=
  (rs.zip laneList).map fun p =>
    { p.1 with fl := p.1.fl ||| if t.isFloat && x.act.getLsbD p.2 then (inFl t (x.op 0 p.2)).2 else 0 }

/-- Floating addition of two lane patterns with one rounding. -/
def addFl (t : VTy) (m : Xm) (u : Nat) (x y : W) : W × Flags :=
  let p := inFl t x
  let q := inFl t y
  let r := exAdd m.rm p.1 q.1
  let z := roundLane t m u r.1
  (z.1, p.2 ||| q.2 ||| r.2 ||| z.2)

/-- A segment reduction over the lanes of ACT (R129). -/
def segWord (t : VTy) (nw : Bool) (d : VR) (a : Src) (g : BitVec 3)
    (op : VecIn → Nat → Nat → W → W → W × Flags) : VecWord :=
  { VecWord.plain d nw [(7, a, vty t)] (fun _ _ => pure1 0) with
    eval := fun x => ownFlags t x (segOut x.act g fun base =>
      (segRoot (fun k i => withFl (op x k i))
        (fun i => if x.act.getLsbD i then some (treeLeaf t (x.op 0 i), 0) else none) g base).map flagged) }

def wVrmax (t : VTy) (nw : Bool) (d : VR) (a : Src) (g : BitVec 3) : VecWord :=
  segWord t nw d a g fun _ _ _ => pickNan t true
def wVrmin (t : VTy) (nw : Bool) (d : VR) (a : Src) (g : BitVec 3) : VecWord :=
  segWord t nw d a g fun _ _ _ => pickNan t false

/-- A lone lane's value passes unrounded: the root of a segment with one present lane is that lane's value. -/
def wVradd (t : VTy) (nw : Bool) (d : VR) (a : Src) (g : BitVec 3) (m : Xm) : VecWord :=
  { segWord t nw d a g (fun x k i => addFl t m (x.u i k)) with
    draw := m.rm == .sr }

/-! ## Dot products (R132) -/

def dotTy (e : Dot4) : Ty × Ty :=
  match e with
  | .s8 => (.s8, .s8)
  | .u8 => (.u8, .u8)
  | .s8u8 => (.s8, .u8)
  | .e4m3 => (.e4m3, .e4m3)
  | .e5m2 => (.e5m2, .e5m2)

/-- Element `i` of width `w` of a lane. -/
def elem (w : Nat) (x : W) (i : Nat) : W := BitVec.ofNat 32 (x.toNat / 2 ^ (w * i) % 2 ^ w)

def elemInt (t : Ty) (x : W) (i : Nat) : Int :=
  let n := (elem (tyWidth t) x i).toNat
  if tySigned t then signed (tyWidth t) n else n

/-- Σ aᵢ × bᵢ + c on exact values, with flags. An inline constant stands in element 0; the other elements of its operand are
zero. DESIGN CHOICE (log 33). The sum is formed pairwise, lowest element first and `c` last: a +∞ and a −∞ that meet after a NaN
set no NV, before it they do. DESIGN CHOICE (log 85). -/
def exDot (rm : Rm) (t : Ty) (n : Nat) (x y : W) (c : Ex × Flags) : Ex × Flags :=
  let r := (List.range n).foldl (fun (acc : Option Ex × Flags) i =>
    let p := inTy t (elem (tyWidth t) x i)
    let q := inTy t (elem (tyWidth t) y i)
    let m := exMul p.1 q.1
    match acc.1 with
    | none => (some m.1, p.2 ||| q.2 ||| m.2)
    | some a =>
      let s := exAdd rm a m.1
      (some s.1, acc.2 ||| p.2 ||| q.2 ||| m.2 ||| s.2)) (none, 0)
  let s := exAdd rm (r.1.getD (.zero false)) c.1
  (s.1, r.2 ||| c.2 ||| s.2)

def dotFl (t : Ty) (n : Nat) (nw : Bool) (d : VR) (a b c : Src) (m : Xm) : VecWord :=
  { VecWord.plain d nw [(7, a, t), (8, b, t), (9, c, .f32)] (fun x l =>
      let r := exDot m.rm t n (x.op 0 l) (x.op 1 l) (inFl .f32 (x.op 2 l))
      let z := roundLane .f32 m (x.u l 0) r.1
      ⟨z.1, r.2 ||| z.2, false⟩) with draw := m.rm == .sr }

def dotInt (e : Dot4) (nw : Bool) (d : VR) (a b c : Src) (sat : Bool) : VecWord :=
  let t := dotTy e
  let u := e == .u8
  .plain d nw [(7, a, t.1), (8, b, t.2), (9, c, uty u)] fun x l =>
    pure1 (satInt u sat ((List.range 4).foldl (fun s i => s + elemInt t.1 (x.op 0 l) i * elemInt t.2 (x.op 1 l) i)
      (inInt u (x.op 2 l))))

def wVdot4 (e : Dot4) (nw : Bool) (d : VR) (a b c : Src) (m : Xm) : VecWord :=
  match e with
  | .e4m3 => dotFl .e4m3 4 nw d a b c m
  | .e5m2 => dotFl .e5m2 4 nw d a b c m
  | e => dotInt e nw d a b c m.sat

def wVdot2 (t : VTy) (nw : Bool) (d : VR) (a b c : Src) (m : Xm) : VecWord := dotFl (vty t) 2 nw d a b c m

/-- Σ |aᵢ − bᵢ| + c as u32 (R132). -/
def wVsad (u nw : Bool) (d : VR) (a b c : Src) (sat : Bool) : VecWord :=
  let t : Ty := if u then .u8 else .s8
  .plain d nw [(7, a, t), (8, b, t), (9, c, .u32)] fun x l =>
    pure1 (satInt true sat ((List.range 4).foldl (fun s i =>
      s + (elemInt t (x.op 0 l) i - elemInt t (x.op 1 l) i).natAbs) ((x.op 2 l).toNat : Int)))

/-! ## Special functions -/

def sfWordV (f : SFun) (t : VTy) (nw : Bool) (d : VR) (b : Src) : VecWord :=
  .plain d nw (srcB (vty t) b) fun x l => flagged (special f t (x.op 0 l))

def wVrcp (t : VTy) (nw : Bool) (d : VR) (b : Src) : VecWord := sfWordV .rcp t nw d b
def wVrsq (t : VTy) (nw : Bool) (d : VR) (b : Src) : VecWord := sfWordV .rsq t nw d b
def wVexp2 (t : VTy) (nw : Bool) (d : VR) (b : Src) : VecWord := sfWordV .exp2 t nw d b
def wVlog2 (t : VTy) (nw : Bool) (d : VR) (b : Src) : VecWord := sfWordV .log2 t nw d b
def wVsin (t : VTy) (nw : Bool) (d : VR) (b : Src) : VecWord := sfWordV .sin t nw d b
def wVcos (t : VTy) (nw : Bool) (d : VR) (b : Src) : VecWord := sfWordV .cos t nw d b
def wVtanh (t : VTy) (nw : Bool) (d : VR) (b : Src) : VecWord := sfWordV .tanh t nw d b
def wVerf (t : VTy) (nw : Bool) (d : VR) (b : Src) : VecWord := sfWordV .erf t nw d b

/-! ## Meanings -/

def execVfma (t : VTy) (nw : Bool) (d : VR) (a b c : Src) (m : Xm) (s : State) : Out :=
  execVec (.vfma t nw d a b c m) s (wVfma t nw d a b c m)
def execVfms (t : VTy) (nw : Bool) (d : VR) (a b c : Src) (m : Xm) (s : State) : Out :=
  execVec (.vfms t nw d a b c m) s (wVfms t nw d a b c m)
def execVfnma (t : VTy) (nw : Bool) (d : VR) (a b c : Src) (m : Xm) (s : State) : Out :=
  execVec (.vfnma t nw d a b c m) s (wVfnma t nw d a b c m)
def execVfdiv (t : VTy) (nw : Bool) (d : VR) (a b : Src) (m : Xm) (s : State) : Out :=
  execVec (.vfdiv t nw d a b m) s (wVfdiv t nw d a b m)
def execVsqrt (t : VTy) (nw : Bool) (d : VR) (b : Src) (rm : Rm) (s : State) : Out :=
  execVec (.vsqrt t nw d b rm) s (wVsqrt t nw d b rm)
def execVrint (t : VTy) (nw : Bool) (d : VR) (b : Src) (rm : Rm) (s : State) : Out :=
  execVec (.vrint t nw d b rm) s (wVrint t nw d b rm)
def execVfrac (t : VTy) (nw : Bool) (d : VR) (b : Src) (rm : Rm) (s : State) : Out :=
  execVec (.vfrac t nw d b rm) s (wVfrac t nw d b rm)
def execVscale (t : VTy) (nw : Bool) (d : VR) (a b : Src) (m : Xm) (s : State) : Out :=
  execVec (.vscale t nw d a b m) s (wVscale t nw d a b m)
def execVlerp (t : VTy) (nw : Bool) (d : VR) (a b c : Src) (m : Xm) (s : State) : Out :=
  execVec (.vlerp t nw d a b c m) s (wVlerp t nw d a b c m)
def execVrmax (t : VTy) (nw : Bool) (d : VR) (a : Src) (g : BitVec 3) (s : State) : Out :=
  execVec (.vrmax t nw d a g) s (wVrmax t nw d a g)
def execVrmin (t : VTy) (nw : Bool) (d : VR) (a : Src) (g : BitVec 3) (s : State) : Out :=
  execVec (.vrmin t nw d a g) s (wVrmin t nw d a g)
def execVradd (t : VTy) (nw : Bool) (d : VR) (a : Src) (g : BitVec 3) (m : Xm) (s : State) : Out :=
  execVec (.vradd t nw d a g m) s (wVradd t nw d a g m)
def execVdot4 (e : Dot4) (nw : Bool) (d : VR) (a b c : Src) (m : Xm) (s : State) : Out :=
  execVec (.vdot4 e nw d a b c m) s (wVdot4 e nw d a b c m)
def execVdot2 (t : VTy) (nw : Bool) (d : VR) (a b c : Src) (m : Xm) (s : State) : Out :=
  execVec (.vdot2 t nw d a b c m) s (wVdot2 t nw d a b c m)
def execVsad (u nw : Bool) (d : VR) (a b c : Src) (sat : Bool) (s : State) : Out :=
  execVec (.vsad u nw d a b c sat) s (wVsad u nw d a b c sat)
def execVrcp (t : VTy) (nw : Bool) (d : VR) (b : Src) (s : State) : Out := execVec (.vrcp t nw d b) s (wVrcp t nw d b)
def execVrsq (t : VTy) (nw : Bool) (d : VR) (b : Src) (s : State) : Out := execVec (.vrsq t nw d b) s (wVrsq t nw d b)
def execVexp2 (t : VTy) (nw : Bool) (d : VR) (b : Src) (s : State) : Out :=
  execVec (.vexp2 t nw d b) s (wVexp2 t nw d b)
def execVlog2 (t : VTy) (nw : Bool) (d : VR) (b : Src) (s : State) : Out :=
  execVec (.vlog2 t nw d b) s (wVlog2 t nw d b)
def execVsin (t : VTy) (nw : Bool) (d : VR) (b : Src) (s : State) : Out := execVec (.vsin t nw d b) s (wVsin t nw d b)
def execVcos (t : VTy) (nw : Bool) (d : VR) (b : Src) (s : State) : Out := execVec (.vcos t nw d b) s (wVcos t nw d b)
def execVtanh (t : VTy) (nw : Bool) (d : VR) (b : Src) (s : State) : Out :=
  execVec (.vtanh t nw d b) s (wVtanh t nw d b)
def execVerf (t : VTy) (nw : Bool) (d : VR) (b : Src) (s : State) : Out := execVec (.verf t nw d b) s (wVerf t nw d b)

end Sys2Proof.Machine
end

