-- ==== Sys2Proof/Machine/VecConv.lean ====
section
/-! DEFINITION. Conversion, packing, block quantisation and bit planes (R133-R136), each as data and with its meaning. -/

namespace Sys2Proof.Machine

def wVcvt (dt st : Ty) (nw : Bool) (d : VR) (b : Src) (m : Xm) : VecWord :=
  { VecWord.plain d nw (srcB st b) (fun x l => flagged (convert dt st m (x.u l 0) (x.op 0 l))) with
    draw := m.rm == .sr }

def packTy (t : PackTo) : Ty :=
  match t with
  | .f16 => .f16
  | .bf16 => .bf16
  | .e4m3 _ => .e4m3
  | .e5m2 _ => .e5m2

/-- `VPACK` (R134): the two results stand side by side; the byte forms keep the other half of `D`. Under SR the first
rounding takes unit 0 and the second a free unit of 1 to 7, drawn afresh (R75). DESIGN CHOICE (log 32). -/
def wVpack (t : PackTo) (nw : Bool) (d : VR) (a b : Src) (m : Xm) : VecWord :=
  let p : Option Bool := match t with
    | .e4m3 p => some p
    | .e5m2 p => some p
    | _ => none
  { VecWord.plain d nw (srcs2 .f32 a b) (fun x l =>
      let r := convert (packTy t) .f32 m (x.u l 0) (x.op 0 l)
      let q := convert (packTy t) .f32 m (x.u l (Config.packUnit % 7 + 1)) (x.op 1 l)
      let v : Nat := match p with
        | none => r.1.toNat + q.1.toNat * 2 ^ 16
        | some h =>
          let n := r.1.toNat + q.1.toNat * 2 ^ 8
          let o := (x.op 2 l).toNat
          if h then o % 2 ^ 16 + n * 2 ^ 16 else o / 2 ^ 16 * 2 ^ 16 + n
      ⟨BitVec.ofNat 32 v, r.2 ||| q.2, false⟩) with draw := m.rm == .sr, readD := p.isSome }

/-- `VUNPK` (R134). An inline constant stands in element 0; its other elements are zero. DESIGN CHOICE (log 33). -/
def wVunpk (t : UnpkFrom) (nw : Bool) (d : VR) (b : Src) : VecWord :=
  let p : Ty × Nat := match t with
    | .f16 e => (.f16, e.toNat)
    | .bf16 e => (.bf16, e.toNat)
    | .e4m3 e => (.e4m3, e.toNat)
    | .e5m2 e => (.e5m2, e.toNat)
  .plain d nw (srcB p.1 b) fun x l => flagged (convert .f32 p.1 ⟨false, .rne⟩ 0 (elem (tyWidth p.1) (x.op 0 l) p.2))

def qTy (q : QTy) : Ty :=
  match q with
  | .e4m3 => .e4m3
  | .e5m2 => .e5m2
  | .l6 => .l6
  | .h4 => .h4

/-- Round an exact value into a block-quantisation format (R73, R79, R84). -/
def roundQ (q : QTy) (m : Xm) (u : Nat) (x : Ex) : Nat × Flags :=
  match q with
  | .e4m3 => roundFP fmE4M3 m.rm m.sat u x
  | .e5m2 => roundFP fmE5M2 m.rm m.sat u x
  | .l6 => toL6 m.rm x
  | .h4 => toH 4 m.rm x

/-- A scale operand: 20 bits of a register; a constant's pattern is a free value. DESIGN CHOICE (log 33). -/
def scaleBits (b : Src) (x : W) : Nat :=
  match b with
  | .k n => (Config.scaleConst n.toNat).toNat % 2 ^ 20
  | _ => x.toNat % 2 ^ 20

/-- a ÷ value(scale), rounded into QT; a zero or NaN scale sets NV and gives the result of a NaN (R135). -/
def quantise (q : QTy) (m : Xm) (u : Nat) (a : Ex) (s : Nat) : Nat × Flags :=
  match s20Val s with
  | .fin n d =>
    let r := exDiv a (.fin n d)
    let z := roundQ q m u r.1
    (z.1, r.2 ||| z.2)
  | _ => ((roundQ q m u .nan).1, flNV)

def wVqnt (q : QTy) (nw : Bool) (d : VR) (a b : Src) (m : Xm) : VecWord :=
  { VecWord.plain d nw [(7, a, .f32), (8, b, .u32)] (fun x l =>
      let p := inFl .f32 (x.op 0 l)
      let r := quantise q m (x.u l 0) p.1 (scaleBits b (x.op 1 l))
      ⟨BitVec.ofNat 32 r.1, p.2 ||| r.2, false⟩) with draw := m.rm == .sr }

/-- An element under a scale (R86): exact value and flags. -/
def dequant (t : Ty) (x : W) (s : Nat) : Ex × Flags :=
  match s20Val s with
  | .zero _ => (.zero false, 0)
  | .nan => (.nan, flNV)
  | v =>
    let p := inTy t x
    let r := exMul p.1 v
    (r.1, p.2 ||| r.2)

def wVdqnt (q : QTy) (nw : Bool) (d : VR) (a b : Src) (rm : Rm) : VecWord :=
  { VecWord.plain d nw [(7, a, qTy q), (8, b, .u32)] (fun x l =>
      let p := dequant (qTy q) (x.op 0 l) (scaleBits b (x.op 1 l))
      let z := roundLane .f32 ⟨false, rm⟩ (x.u l 0) p.1
      ⟨z.1, p.2 ||| z.2, false⟩) with draw := rm == .sr }

/-- Bit l of the planes of a beat (R136). -/
def planeBits (x : VecIn) (beat : Nat) (f : Nat → Bool) : W :=
  BitVec.ofNat 32 ((List.range 32).foldr (fun j acc => (x.act.getLsbD (32 * beat + j) && f j).toNat + 2 * acc) 0)

def wVplane (h : HTy) (nw : Bool) (d : VR) (b : Src) : VecWord :=
  .plain d nw (srcB .u32 b) fun x l =>
    let p := l % 32
    pure1 (if p < hWidth h then planeBits x (l / 32) fun j => (x.op 0 (l / 32 * 32 + j)).getLsbD p else 0)

def wVunpl (h : HTy) (nw : Bool) (d : VR) (b : Src) : VecWord :=
  .plain d nw (srcB .u32 b) fun x l =>
    pure1 (planeBits x (l / 32) fun p => decide (p < hWidth h) && (x.op 0 (l / 32 * 32 + p)).getLsbD (l % 32))

/-- Tmax of a format (R135). -/
def qMax (q : QTy) : Ex :=
  match q with
  | .e4m3 => exInt 448
  | .e5m2 => exInt 57344
  | .l6 => l6Mag 15
  | .h4 => .fin 15 2

/-- The largest magnitude among a beat's lanes of ACT; `none` where one is a NaN or infinite. -/
def beatMax (x : VecIn) (beat : Nat) : Option Ex :=
  (List.range 32).foldl (fun acc j =>
    let l := 32 * beat + j
    if !x.act.getLsbD l then acc
    else
      match acc, (inFl .f32 (x.op 0 l)).1 with
      | some m, .fin n d => some (if exLt m (.fin n.natAbs d) then .fin n.natAbs d else m)
      | some m, .zero _ => some m
      | _, _ => none) (some (.zero false))

/-- The scale of a beat (R135): S20 bits and flags. The fraction bits of a zero and of a NaN, of which any value will do
(R85), are 0. DESIGN CHOICE (log 76). -/
def blockScale (q : QTy) (m : Option Ex) : Nat × Flags :=
  match m with
  | none => (255 * 4096, flNV)
  | some (.fin n d) =>
    (match (exDiv (.fin n d) (qMax q)).1 with
     | .fin a b => (toS20 a.natAbs b, 0)
     | _ => (0, 0))
  | some _ => (0, 0)

/-- `VBSCL` (R135): every issuing lane of a beat raises its NV. DESIGN CHOICE (log 76). -/
def wVbscl (q : QTy) (nw : Bool) (d : VR) (b : Src) : VecWord :=
  .plain d nw (srcB .f32 b) fun x l =>
    let r := blockScale q (beatMax x (l / 32))
    ⟨BitVec.ofNat 32 r.1, r.2, false⟩

def execVcvt (dt st : Ty) (nw : Bool) (d : VR) (b : Src) (m : Xm) (s : State) : Out :=
  execVec (.vcvt dt st nw d b m) s (wVcvt dt st nw d b m)
def execVpack (t : PackTo) (nw : Bool) (d : VR) (a b : Src) (m : Xm) (s : State) : Out :=
  execVec (.vpack t nw d a b m) s (wVpack t nw d a b m)
def execVunpk (t : UnpkFrom) (nw : Bool) (d : VR) (b : Src) (s : State) : Out :=
  execVec (.vunpk t nw d b) s (wVunpk t nw d b)
def execVqnt (q : QTy) (nw : Bool) (d : VR) (a b : Src) (m : Xm) (s : State) : Out :=
  execVec (.vqnt q nw d a b m) s (wVqnt q nw d a b m)
def execVdqnt (q : QTy) (nw : Bool) (d : VR) (a b : Src) (rm : Rm) (s : State) : Out :=
  execVec (.vdqnt q nw d a b rm) s (wVdqnt q nw d a b rm)
def execVplane (h : HTy) (nw : Bool) (d : VR) (b : Src) (s : State) : Out :=
  execVec (.vplane h nw d b) s (wVplane h nw d b)
def execVunpl (h : HTy) (nw : Bool) (d : VR) (b : Src) (s : State) : Out :=
  execVec (.vunpl h nw d b) s (wVunpl h nw d b)
def execVbscl (q : QTy) (nw : Bool) (d : VR) (b : Src) (s : State) : Out :=
  execVec (.vbscl q nw d b) s (wVbscl q nw d b)

end Sys2Proof.Machine
end

