-- ==== Sys2Proof/Machine/Lanes.lean ====
section
/-! DEFINITION. Opcode row 0x70 but `XVEC`: exchanges, votes, compaction, scans, random numbers and sampling (R139-R153,
R159-R165). -/

namespace Sys2Proof.Machine

/-- Exited members (R141). -/
def VecIn.gone (x : VecIn) : Mask := x.mset &&& ~~~x.part

/-- `Src(p)` of operand `i` for lane `l` (R147): value and poison. -/
def exchSrc (x : VecIn) (i l p : Nat) : LaneOut :=
  if p < 96 && x.part.getLsbD p then ⟨x.op i p, 0, x.bad i p⟩
  else if p < 96 && x.gone.getLsbD p then pure1 0
  else ⟨x.op i l, 0, x.bad i l⟩

/-- An exchange: copies carry poison, the index in `B` is consumed by its own lane (R146). -/
def exchWord (nw : Bool) (d : VR) (srcs : List (Nat × Src × Ty)) (m : Member) (idx : Bool) (f : VecIn → Nat → LaneOut) :
    VecWord :=
  { VecWord.plain d nw srcs f with memb := some m, copy := true, idx := idx }

def wVshfl (beat nw : Bool) (d : VR) (a b : Src) (m : Member) : VecWord :=
  exchWord nw d (srcs2 .s32 a b) m true fun x l =>
    let i := (x.op 1 l).toNat
    exchSrc x 0 l (if beat then l / 32 * 32 + i % 32 else i)

/-- `VBCAST` (R147): the index is unsigned before it is taken modulo the segment length. DESIGN CHOICE (log 77). -/
def wVbcast (nw : Bool) (d : VR) (a b : Src) (g : BitVec 3) (m : Member) : VecWord :=
  exchWord nw d (srcs2 .s32 a b) m true fun x l => exchSrc x 0 l (segBase g l + (x.op 1 l).toNat % segLen g)

def wVbcastI (nw : Bool) (d : VR) (a : Src) (k : BitVec 8) (g : BitVec 3) (m : Member) : VecWord :=
  exchWord nw d [(7, a, .s32)] m false fun x l => exchSrc x 0 l (segBase g l + k.toNat % segLen g)

/-- `VROTL` (R147): the count is unsigned, as in `VBCAST`. DESIGN CHOICE (log 77). -/
def wVrotl (nw : Bool) (d : VR) (a b : Src) (g : BitVec 3) (m : Member) : VecWord :=
  exchWord nw d (srcs2 .s32 a b) m true fun x l =>
    exchSrc x 0 l (segBase g l + (l - segBase g l + (x.op 1 l).toNat) % segLen g)

/-- Butterflies (R147, R148). -/
def wVbfly (f : Bfly) (nw : Bool) (d : VR) (a : Src) (j : BitVec 7) (m : Member) : VecWord :=
  let srcs := match f with
    | .x => [(7, a, Ty.s32)]
    | .lo b => srcs2 .s32 a b
    | .hi b => srcs2 .s32 a b
  exchWord nw d srcs m false fun x l =>
    let p := l ^^^ j.toNat
    let low := l &&& j.toNat == 0
    match f with
    | .x => exchSrc x 0 l p
    | .lo _ => if low then ⟨x.op 0 l, 0, x.bad 0 l⟩ else exchSrc x 1 l p
    | .hi _ => if low then exchSrc x 0 l p else ⟨x.op 1 l, 0, x.bad 1 l⟩

def execVshfl (beat nw : Bool) (d : VR) (a b : Src) (m : Member) (s : State) : Out :=
  execVec (.vshfl beat nw d a b m) s (wVshfl beat nw d a b m)
def execVbcast (nw : Bool) (d : VR) (a b : Src) (g : BitVec 3) (m : Member) (s : State) : Out :=
  execVec (.vbcast nw d a b g m) s (wVbcast nw d a b g m)
def execVbcastI (nw : Bool) (d : VR) (a : Src) (k : BitVec 8) (g : BitVec 3) (m : Member) (s : State) : Out :=
  execVec (.vbcastI nw d a k g m) s (wVbcastI nw d a k g m)
def execVrotl (nw : Bool) (d : VR) (a b : Src) (g : BitVec 3) (m : Member) (s : State) : Out :=
  execVec (.vrotl nw d a b g m) s (wVrotl nw d a b g m)
def execVbfly (f : Bfly) (nw : Bool) (d : VR) (a : Src) (j : BitVec 7) (m : Member) (s : State) : Out :=
  execVec (.vbfly f nw d a j m) s (wVbfly f nw d a j m)

/-- A word of the row that consumes its sources. -/
def crossWord (nw : Bool) (d : VR) (srcs : List (Nat × Src × Ty)) (m : Member) (eval : VecIn → List LaneOut) : VecWord :=
  { VecWord.plain d nw srcs (fun _ _ => pure1 0) with memb := some m, eval := eval }

/-! ## Votes, matching, compaction (R149-R151) -/

def voteWords (op : VoteOp) (x : VecIn) : List W :=
  let p := maskOf fun j => x.part.getLsbD j && x.op 0 j != 0
  match op with
  | .any => [boolW (p != 0)]
  | .all => [boolW (p == x.part)]
  | .uni =>
    let js := lanesOf x.part
    [boolW (js.all fun j => x.op 0 j == x.op 0 (js.headD 0))]
  | .ballot => maskWords p

def execVvote (op : VoteOp) (d : SR) (a : Src) (m : Member) (s : State) : Out :=
  onSplit (.vvote op d a m) s fun e => e.run do
    let n := if op == .ballot then 3 else 1
    let x ← toSclCheck e [(7, a, .s32)] (some m) ((List.range n).map (d.toNat + ·))
    .ok (toSclWrite e (e.w.setMabs (x.gone != 0)) d (voteWords op x))

def wVmatch (nw : Bool) (d : VR) (a : Src) (m : Member) : VecWord :=
  crossWord nw d [(7, a, .s32)] m (lanesOut fun x l =>
    let base := l / 32 * 32
    pure1 (BitVec.ofNat 32 ((List.range 32).foldr (fun i acc =>
      (base + i == l || x.part.getLsbD (base + i) && x.op 0 (base + i) == x.op 0 l).toNat + 2 * acc) 0)))

def execVmatch (nw : Bool) (d : VR) (a : Src) (m : Member) (s : State) : Out :=
  execVec (.vmatch nw d a m) s (wVmatch nw d a m)

/-- Compaction within segments (R151): the lanes selected by the triple `B`, in order. -/
def wVcprs (g : BitVec 3) (nw : Bool) (d : VR) (a : Src) (b : SR) (m : Member) : VecWord :=
  { exchWord nw d [(7, a, .s32)] m false (fun x l =>
      let base := segBase g l
      let es := ((List.range (segLen g)).map (base + ·)).filter fun p => x.part.getLsbD p && x.sel.getLsbD p
      match es[l - base]? with
      | some p => ⟨x.op 0 p, 0, x.bad 0 p⟩
      | none => pure1 0) with tri := some (8, b) }

def execVcprs (g : BitVec 3) (nw : Bool) (d : VR) (a : Src) (b : SR) (m : Member) (s : State) : Out :=
  execVec (.vcprs g nw d a b m) s (wVcprs g nw d a b m)

/-! ## Scans and reductions (R152, R153) -/

/-- The identity of a combining operation. -/
def copIdent (t : VTy) (op : Cop) : W :=
  let f := fmOf t
  if t.isFloat then
    BitVec.ofNat 32 (match op with
      | .max => f.inf.getD 0 + f.sign
      | .min => f.inf.getD 0
      | _ => f.sign)
  else
    match op with
    | .max => ofInt32 (tyMin (vty t))
    | .min => ofInt32 (tyMax (vty t))
    | .and => BitVec.allOnes 32
    | _ => 0

/-- The combining step; `u` is the unit of a rounding. -/
def combine (t : VTy) (op : Cop) (m : Xm) (u : Nat) (x y : W) : W × Flags :=
  match op with
  | .add => if t.isFloat then addFl t m u x y else (satInt (t == .u32) m.sat (inInt (t == .u32) x + inInt (t == .u32) y), 0)
  | .max => if t.isFloat then pickNan t true x y else (maxWord (t == .u32) x y, 0)
  | .min => if t.isFloat then pickNan t false x y else (minWord (t == .u32) x y, 0)
  | .and => (x &&& y, 0)
  | .or => (x ||| y, 0)
  | .xor => (x ^^^ y, 0)

/-- What a position of a reduction or scan holds (R152); `none` where it is absent. A NaN of a participating lane enters as
the canonical one; its flag is that lane's own, if it issues (R72, R141). -/
def copAt (t : VTy) (op : Cop) (x : VecIn) (scan : Bool) (p : Nat) : Option (W × Flags) :=
  if x.part.getLsbD p then some (treeLeaf t (x.op 0 p), 0)
  else if scan || x.mset.getLsbD p then some (copIdent t op, 0)
  else none

/-- A reduction or scan that takes a counter step: every sum under SR, as R129 has it for `VRADD`, also where no step of it rounds
(R161). DESIGN CHOICE (log 87). -/
def isAddSr (t : VTy) (op : Cop) (m : Xm) : Bool := t.isFloat && op == .add && m.rm == .sr

def wVrdc (t : VTy) (op : Cop) (g : BitVec 3) (m : Xm) (nw : Bool) (d : VR) (a : Src) (mb : Member) : VecWord :=
  { crossWord nw d [(7, a, vty t)] mb (fun x => ownFlags t x (segOut x.act g fun base =>
      (segRoot (fun k i => withFl (combine t op m (x.u i k))) (copAt t op x false) g base).map flagged)) with
    draw := isAddSr t op m }

/-- One level of a scan from lane `off`: position i takes x_(i−2^k) ⊕ x_i. -/
def scanLevel (f : Nat → Nat → (W × Flags) → (W × Flags) → W × Flags) (k off : Nat) (xs : List (W × Flags)) :
    List (W × Flags) :=
  let n := 2 ^ k
  xs.take n ++ ((xs.zip (xs.drop n)).zip (List.range xs.length)).map fun p => f k (off + p.2) p.1.1 p.1.2

/-- The inclusive scan of up to 32 positions. -/
def scanBeat (f : Nat → Nat → (W × Flags) → (W × Flags) → W × Flags) (off : Nat) : Nat → List (W × Flags) → List (W × Flags)
  | 0, xs => xs
  | k + 1, xs => scanLevel f k off (scanBeat f off k xs)

/-- The inclusive scan of a segment at lane `base`. -/
def scanSeg (f : Nat → Nat → (W × Flags) → (W × Flags) → W × Flags) (g : BitVec 3) (base : Nat) (xs : List (W × Flags)) :
    List (W × Flags) :=
  if g == 6 then
    let b0 := scanBeat f 0 5 (xs.take 32)
    let b1 := scanBeat f 32 5 ((xs.drop 32).take 32)
    let b2 := scanBeat f 64 5 (xs.drop 64)
    let t0 := b0.getD 31 (0, 0)
    let c := f 5 64 t0 (b1.getD 31 (0, 0))
    b0 ++ (b1.zip (List.range 32)).map (fun p => f 5 (32 + p.2) t0 p.1)
      ++ (b2.zip (List.range 32)).map (fun p => f 6 (64 + p.2) c p.1)
  else scanBeat f base (segLog g) xs

/-- The scanned values of a whole wave; segments without an issuing lane are left out. -/
def scanAll (f : Nat → Nat → (W × Flags) → (W × Flags) → W × Flags) (g : BitVec 3) (act : Mask)
    (leaf : Nat → W × Flags) (excl : Option W) : List (W × Flags) :=
  let n := segLen g
  (List.range (96 / n)).flatMap fun k =>
    if (List.range n).any fun i => act.getLsbD (k * n + i) then
      let r := scanSeg f g (k * n) ((List.range n).map fun i => leaf (k * n + i))
      match excl with
      | some z => (z, 0) :: r.take (n - 1)
      | none => r
    else List.replicate n (0, 0)

def onAct (act : Mask) (xs : List (W × Flags)) : List LaneOut :=
  (xs.zip laneList).map fun p => if act.getLsbD p.2 then flagged p.1 else pure1 0

def wVscan (t : VTy) (op : Cop) (excl : Bool) (g : BitVec 3) (m : Xm) (nw : Bool) (d : VR) (a : Src) (mb : Member) :
    VecWord :=
  { crossWord nw d [(7, a, vty t)] mb (fun x =>
      ownFlags t x (onAct x.act (scanAll (fun k i => withFl (combine t op m (x.u i k))) g x.act
        (fun p => (copAt t op x true p).getD (0, 0)) (if excl then some (copIdent t op) else none)))) with
    draw := isAddSr t op m }

def execVscan (t : VTy) (op : Cop) (excl : Bool) (g : BitVec 3) (x : Xm) (nw : Bool) (d : VR) (a : Src) (m : Member)
    (s : State) : Out :=
  execVec (.vscan t op excl g x nw d a m) s (wVscan t op excl g x nw d a m)
def execVrdc (t : VTy) (op : Cop) (g : BitVec 3) (x : Xm) (nw : Bool) (d : VR) (a : Src) (m : Member) (s : State) : Out :=
  execVec (.vrdc t op g x nw d a m) s (wVrdc t op g x nw d a m)

/-! ## Random numbers and sampling (R163-R165) -/

def wRng (flt nw : Bool) (d : VR) : VecWord :=
  { VecWord.plain d nw [] (fun x l =>
      if flt then pure1 (roundFP32 .rne 0 (exPow2 (x.o0 l / 256 : Nat) (-24))).1 else pure1 (BitVec.ofNat 32 (x.o0 l))) with
    draw := true }

def wVgumb (nw : Bool) (d : VR) (a b : Src) : VecWord :=
  { VecWord.plain d nw (srcs2 .f32 a b) (fun x l =>
      let p := inFl .f32 (x.op 0 l)
      let q := inFl .f32 (x.op 1 l)
      let r := exFma .rne p.1 q.1 (gumbel (x.o0 l / 256))
      let z := roundFP32 .rne 0 r.1
      ⟨z.1, p.2 ||| q.2 ||| r.2 ||| z.2, false⟩) with draw := true }

/-- `VBERN` (R163). -/
def wVbern (t : VTy) (nw : Bool) (d : VR) (a : Src) : VecWord :=
  { VecWord.plain d nw [(7, a, vty t)] (fun x l =>
      let p := (inFl t (x.op 0 l)).1
      if p.isNan then ⟨0, flNV, false⟩
      else pure1 (boolW (exLt (exQuot (x.o0 l) (2 ^ 32) false) p))) with draw := true }

def execRng (flt nw : Bool) (d : VR) (s : State) : Out := execVec (.rng flt nw d) s (wRng flt nw d)
def execVgumb (nw : Bool) (d : VR) (a b : Src) (s : State) : Out := execVec (.vgumb nw d a b) s (wVgumb nw d a b)
def execVbern (t : VTy) (nw : Bool) (d : VR) (a : Src) (s : State) : Out :=
  execVec (.vbern t nw d a) s (wVbern t nw d a)

/-- A weight of `VSMPL`: +0 with NV for a negative number or a NaN (R164). −0 is no negative number; it counts as +0. -/
def weightOf (x : W) : W × Flags :=
  match (inFl .f32 x).1 with
  | .nan => (0, flNV)
  | .zero _ => (0, 0)
  | .inf s => if s then (0, flNV) else (x, 0)
  | .fin n _ => if n < 0 then (0, flNV) else (x, 0)

/-- Weights of the lanes: NV only for an issuing lane's own value (R141, R164). -/
def ownWeights (x : VecIn) (rs : List LaneOut) : List LaneOut :=
  (rs.zip laneList).map fun p =>
    { p.1 with fl := p.1.fl ||| if x.act.getLsbD p.2 then (weightOf (x.op 0 p.2)).2 else 0 }

/-- The position that a segment draws from its weights and their inclusive scan. -/
def sampleAt (ws ss : List W) (u : Nat) : W :=
  let n := ws.length
  let at1 (p : Nat → Bool) : W := BitVec.ofNat 32 (((List.range n).find? p).getD (2 ^ 32 - 1))
  let v (xs : List W) (i : Nat) : Ex := (inFl .f32 (xs.getD i 0)).1
  let tot := v ss (n - 1)
  if tot == .inf false then
    (if (List.range n).any fun i => v ws i == .inf false then at1 fun i => v ws i == .inf false
     else at1 fun i => v ss i == .inf false)
  else if tot.isZero then BitVec.allOnes 32
  else
    let t := (inFl .f32 (roundFP32 .rne 0 (exMul (exPow2 (u : Int) (-24)) tot).1).1).1
    if (List.range n).any fun i => exLt t (v ss i) then at1 fun i => exLt t (v ss i)
    else at1 fun i => exEq (v ss i) tot

def wVsmpl (g : BitVec 3) (nw : Bool) (d : VR) (a : Src) (m : Member) : VecWord :=
  { crossWord nw d [(7, a, .f32)] m (fun x =>
      let n := segLen g
      let leaf (p : Nat) : W := if x.part.getLsbD p then (weightOf (x.op 0 p)).1 else 0
      let sums := scanAll (fun _ _ => withFl (addFl .f32 ⟨false, .rne⟩ 0)) g x.act (fun p => (leaf p, 0)) none
      ownWeights x (segOut x.act g fun base =>
        let ws := (List.range n).map fun i => leaf (base + i)
        some (pure1 (sampleAt ws (((sums.drop base).take n).map (·.1)) (x.o0 base / 256))))) with draw := true }

def execVsmpl (g : BitVec 3) (nw : Bool) (d : VR) (a : Src) (m : Member) (s : State) : Out :=
  execVec (.vsmpl g nw d a m) s (wVsmpl g nw d a m)

/-- Whether key `y` lies before key `x` in the total order: ascending, NaN lowest, −0 below +0 (R165). -/
def keyBefore (t : VTy) (y x : W) : Bool :=
  if t.isFloat then
    let p := (inFl t y).1
    let q := (inFl t x).1
    if q.isNan then false else if p.isNan then true else exLtZ p q
  else inInt (t == .u32) y < inInt (t == .u32) x

def wVtopk (t : VTy) (g : BitVec 3) (nw : Bool) (d : VR) (a b : Src) (m : Member) : VecWord :=
  { crossWord nw d [(7, a, vty t), (8, b, .s32)] m (lanesOut fun x l =>
      let base := segBase g l
      let rank := ((List.range (segLen g)).filter fun i =>
        let p := base + i
        x.part.getLsbD p && p != l
          && (keyBefore t (x.op 0 p) (x.op 0 l) || p < l && !keyBefore t (x.op 0 l) (x.op 0 p))).length
      pure1 (if rank < (x.op 1 l).toNat then BitVec.ofNat 32 rank else BitVec.allOnes 32)) with idx := true }

def execVtopk (t : VTy) (g : BitVec 3) (nw : Bool) (d : VR) (a b : Src) (m : Member) (s : State) : Out :=
  execVec (.vtopk t g nw d a b m) s (wVtopk t g nw d a b m)

end Sys2Proof.Machine
end

