-- ==== Sys2Proof/Machine/Perform.lean ====
section
/-! DEFINITION. How outstanding memory operations are performed (R169-R175, R177, R178, R265-R274): the values that loads,
atomics and stamped words return, the stores, and the two events that perform them. -/

namespace Sys2Proof.Machine

/-! ## Stamped values (R87, R177) -/

/-- T[j]: 2^(j/1024) rounded to a 24-bit significand. -/
def decayT (j : Nat) : Ex := fmF32.val (roundFP fmF32 .rne false 0 (exp2Quot j 1024)).1

/-- `Decay` of a stamp difference under a class's log₂ γ. -/
def decay (delta : Nat) (dcl : W) : Ex :=
  let age : Nat := if delta % 2 ^ 24 < 2 ^ 23 then delta % 2 ^ 24 else 0
  let n := (age : Int) * dcl.toInt
  exScale (decayT (n % (2 ^ 24 : Int) / (2 ^ 14 : Int)).toNat) (n / (2 ^ 24 : Int))

/-- What stamped arithmetic reads beside its operands: `STEP` and the decay classes. -/
structure Era where
  step : W
  dcl  : List W

def Gang.era (g : Gang) : Era := ⟨g.step, g.dcl⟩

/-- A stamped memory word uses `STEP` and `DCL` as they stood when it issued: `STEPADV` and `MTS` do not wait for it (R115). -/
def MemOp.era (o : MemOp) : Era := ⟨o.step, o.dcl⟩

/-- The value of a decay class. -/
def Era.dclOf (g : Era) (c : Nat) : W := (g.dcl[c % 16]?).getD 0

/-- Age of a stamp: `STEP` − stamp modulo 2^24. -/
def stampAge (step : W) (stamp : Nat) : Nat := (step.toNat + 2 ^ 24 - stamp % 2 ^ 24) % 2 ^ 24

/-- A stamped word's value times its factor, exactly, with NV for a signalling NaN. -/
def stampedEx (g : Era) (w : D) : Ex × Flags :=
  let x := inFl .f32 (hi32 w)
  let r := exMul x.1 (decay (stampAge g.step (w.toNat / 2 ^ 8)) (g.dclOf (w.toNat / 16)))
  (r.1, x.2 ||| r.2)

/-- `Read(w)` (R178). -/
def stampedRead (g : Era) (w : D) : W × Flags :=
  let x := stampedEx g w
  let r := roundFP32 .rne 0 x.1
  (r.1, x.2 ||| r.2)

/-- A stamped word from value, stamp and class. -/
def stampedWord (v : W) (stamp cls : Nat) : D :=
  joinPair (BitVec.ofNat 32 (stamp % 2 ^ 24 * 256 + cls % 16 * 16)) v

/-- `DADD` of `x` to a stamped word: the new word, its value, the flags (R178). -/
def stampedAdd (g : Era) (w : D) (x : W) : D × W × Flags :=
  let p := stampedEx g w
  let q := inFl .f32 x
  let r := exAdd .rne p.1 q.1
  let z := roundFP32 .rne 0 r.1
  (stampedWord z.1 g.step.toNat (w.toNat / 16), z.1, p.2 ||| q.2 ||| r.2 ||| z.2)

/-! ## Bytes that an operation stores -/

/-- The SVALID byte of the stripe line of a label (R234, R246). -/
def svalidAt : Loc → Loc
  | .mem k => .mem (k / 128 * 128 + 121)
  | .spad o => .spad (o / 128 * 128 + 121)

/-- The bytes of a store operation, lanes ascending (R171). -/
def opBytes (o : MemOp) : List StByte :=
  match o.kind with
  | .store n => o.accs.flatMap fun a => storeBytes a.loc n a.x.toNat a.bad
  | .lblst => o.accs.flatMap fun a => storeBytes a.loc 8 a.x.toNat a.bad ++ [⟨svalidAt a.loc, 0, false⟩]
  | _ => []

/-- Bytes that an access of an operation covers. -/
def accLen (k : MemKind) : Nat :=
  match k with
  | .load t => (match t with | .b32 => 4 | .u8 => 1 | .s8 => 1 | .u16 => 2 | .s16 => 2)
  | .loadU t => (match t with | .b32 => 4 | .u8 => 1 | .s8 => 1 | .u16 => 2 | .s16 => 2)
  | .loadN n => 4 * n
  | .atom _ => 4
  | .cas => 4
  | .apnd => 4
  | .store n => n
  | .value => 0
  | _ => 8

def isPlainLoad (k : MemKind) : Bool :=
  match k with
  | .load _ => true
  | .loadU _ => true
  | .loadN _ => true
  | .dld => true
  | .value => true
  | _ => false

def isPlainStore (k : MemKind) : Bool :=
  match k with
  | .store _ => true
  | .lblst => true
  | _ => false

def locsMeet (a b : Loc) (m n : Nat) : Bool :=
  match a, b with
  | .mem x, .mem y => x < y + n && y < x + m
  | .spad x, .spad y => x < y + n && y < x + m
  | _, _ => false

/-- What an operation touches: place and length. `LBLST` writes the SVALID byte of each line too (R246). -/
def MemOp.spans (o : MemOp) : List (Loc × Nat) :=
  o.accs.flatMap fun a => (a.loc, accLen o.kind) :: if o.kind == .lblst then [(svalidAt a.loc, 1)] else []

/-- Whether two operations touch a common byte. -/
def opsMeet (o q : MemOp) : Bool := o.spans.any fun a => q.spans.any fun b => locsMeet a.1 b.1 a.2 b.2

/-- An acquire at `.die` or wider, and every wider atomic, reads from the memory side (R265, R266, R280). -/
def isWide (o : MemOp) : Bool := 2 ≤ o.scope.toNat

/-- Pairs of one wave's accesses that are kept in their order at `.gang` and wider (R268, R270-R274): an acquire before
everything, everything before a release, a release before an acquire. An access at `.wave` is plain there. -/
def keptWide (o q : MemOp) : Bool :=
  let acq (x : MemOp) : Bool := isAcq x && x.scope != 0
  let rel (x : MemOp) : Bool := isRel x && x.scope != 0
  acq q || rel o || (rel q && acq o)

/-- Pairs kept at `.wave`, between the splits of one wave: all but a store before a load or an acquire, and a release before a
plain load (R269). -/
def keptWave (o q : MemOp) : Bool :=
  let load := isPlainLoad o.kind && !isAcq o
  let store := isPlainStore q.kind && !isRel q
  !(store && (load || isAcq o)) && !(isRel q && load)

/-- Whether operation `o` may be performed while the earlier operation `q` of its wave is not yet. Kept are the pairs of the
matrices for words of one split (R252, R268-R274; those of R269 where the wave has a second split to tell), which are those
with a common lane once the lanes of a split have joined, the issue order of a counter class, the store of a `DADD` among them (R108), and accesses to common bytes (R256), but that a plain load
reads the bytes of earlier queued stores. An acquire at `.die` or wider reads the memory side, so it waits for those stores
(R265, R267). DESIGN CHOICE (log 5). -/
def mayPass (two : Bool) (o q : MemOp) : Bool :=
  !(o.act &&& q.act != 0 && (keptWide o q || (two && keptWave o q)))
    && !(o.ctr == q.ctr && !(isPlainStore o.kind && o.ctr == .st && q.accepted))
    && !(o.kind == .dadd && o.ctr == .vl && q.ctr == .st && !q.accepted)
    && (!opsMeet o q
        || (isPlainLoad o.kind && (isPlainLoad q.kind || (isPlainStore q.kind && !(isAcq o && isWide o)))))

/-- A wave with two splits, or with memory words of two splits outstanding. -/
def Wave.two (w : Wave) : Bool :=
  0 < w.dsp || (w.slot0.st != .empty && w.slot1.st != .empty) || w.ops.any fun o => w.ops.any fun q => o.slot != q.slot

/-- Whether an outstanding operation may be performed now. -/
def Wave.mayPerform (w : Wave) (o : MemOp) : Bool := w.ops.all fun q => o.id ≤ q.id || mayPass w.two o q

/-! ## Reads -/

/-- The line of the Byre's L1 that holds a place, filled at or after a floor (R271 note 2). -/
def lineOf (s : State) (byre key floor : Nat) : Option CLine :=
  s.l1.find? fun c => c.byre == byre && c.key == key / 128 && floor ≤ c.serial

/-- An older copy of a line that a read of class `t` may find: nothing has published to it the write that the copy lacks
(R262). -/
def oldFor (s : State) (t : PClass) (floor key : Nat) : Option OldLine :=
  s.olds.find? fun o => o.line == key / 128 && o.cls != t && floor ≤ o.serial

/-- One byte of a place before the wave's own queued stores: from an L1 line, or on a miss from an older copy, if the access may
use one; else from memory. -/
def baseByte (s : State) (gi : Nat) (g : Gang) (o : MemOp) (stale : Bool) (l : Loc) : Byte :=
  match l with
  | .spad _ => s.getByte gi l
  | .mem k =>
    if !stale then s.getByte gi l
    else
      match lineOf s g.byreId k o.floor, oldFor s .v o.floor k with
      | some c, _ => c.bytes.getD (k % 128) 0
      | none, some c => c.bytes.getD (k % 128) 0
      | none, none => s.getByte gi l

/-- A byte with its poison after the wave's earlier queued stores, one word at a time as memory would take them (R171, R175,
R269 note 1). -/
def queuedByte (w : Wave) (o : MemOp) (l : Loc) (x : Byte × Bool) : Byte × Bool :=
  (w.ops.filter fun q => q.id < o.id).foldl (fun x q =>
    let bs := (opBytes q).filter fun b => b.loc.granule == l.granule
    let whole := coversGranule bs l.granule
    if bs.isEmpty || (l.isSpad && x.2 && !whole) then (x.1, x.2 || bs.any (·.bad))
    else
      (((bs.reverse.find? fun b => b.loc == l).map (·.byte)).getD x.1, bs.any (·.bad) || (x.2 && !whole))) x

/-- One byte of a plain load with its poison. -/
def loadByte (s : State) (gi : Nat) (g : Gang) (w : Wave) (o : MemOp) (stale : Bool) (l : Loc) : Byte × Bool :=
  queuedByte w o l (baseByte s gi g o stale l, s.locBad gi l)

def loadBytes (s : State) (gi : Nat) (g : Gang) (w : Wave) (o : MemOp) (stale : Bool) (l : Loc) (n : Nat) :
    List (Byte × Bool) :=
  (List.range n).map fun i => loadByte s gi g w o stale (l.add i)

/-- Lines of a Byre's L1 in the set of a line: 128 sets of 8 (R280). DESIGN CHOICE (log 26): the set is the line number
modulo 128. -/
def sameSet (byre line : Nat) (c : CLine) : Bool := c.byre == byre && c.key % 128 == line % 128

/-- Put a line into the L1; a full set evicts one of its lines. -/
def putLine (s : State) (byre line : Nat) (bytes : List Byte) (serial : Nat) : State :=
  let rest := s.l1.filter fun c => !(c.byre == byre && c.key == line)
  let full := 8 ≤ rest.countP (sameSet byre line)
  let t := if full then s.took else s
  { t with l1 := ⟨byre, line, bytes, serial⟩ :: makeRoom (sameSet byre line) 8 (Config.victim s.freeCtr) rest }

/-- A V access has read a line as memory holds it: no later one finds an older copy (R256). -/
def dropOlds (s : State) (line : Nat) : State :=
  { s with olds := s.olds.filter fun o => !(o.line == line && o.cls != .v) }

/-- A load fills, or renews, the line that it reads in the Byre's L1 from memory (R280). -/
def fillLine (s : State) (byre : Nat) (l : Loc) : State :=
  match l with
  | .spad _ => s
  | .mem k =>
    let s := if (lineOf s byre k 0).isSome then s else s.bump byre 4 1
    dropOlds (putLine { s with fills := s.fills + 1 } byre (k / 128) (s.mem.read (k / 128 * 128) 128) (s.fills + 1)) (k / 128)

/-- Distinct lines of a list of places. -/
def linesIn (ls : List Loc) : List Nat :=
  ls.foldl (fun acc l => match l with | .mem k => insertNat (k / 128) acc | .spad _ => acc) []

/-- Fill the distinct lines of a list of places. -/
def fillLines (s : State) (byre : Nat) (ls : List Loc) : State :=
  (linesIn ls).foldl (fun s k => fillLine s byre (.mem (k * 128))) s

/-- What a load leaves in the L1. One that may use older copies fills on a miss only, from the copy it has read. -/
def fillLoad (s : State) (byre floor : Nat) (stale : Bool) (ls : List Loc) : State :=
  if !stale then fillLines s byre ls
  else
    (linesIn ls).foldl (fun s k =>
      match lineOf s byre (k * 128) floor, oldFor s .v floor (k * 128) with
      | some _, _ => s
      | none, some o => putLine (s.bump byre 4 1) byre k o.bytes o.serial
      | none, none => fillLine s byre (.mem (k * 128))) s

/-- `ext_t` of R170. -/
def extTy (t : LdTy) (n : Nat) : W :=
  match t with
  | .b32 => BitVec.ofNat 32 n
  | .u8 => BitVec.ofNat 32 (n % 256)
  | .s8 => ofInt32 (signed 8 n)
  | .u16 => BitVec.ofNat 32 (n % 65536)
  | .s16 => ofInt32 (signed 16 n)

/-- What one lane of an operation returns: lane, elements with marks, flags. -/
structure LaneRet where
  lane : Nat
  els  : List (W × Bool)
  fl   : Flags
  deriving DecidableEq, Repr

def bytesNat (bs : List (Byte × Bool)) : Nat := leNat (bs.map (·.1))
def bytesBad (bs : List (Byte × Bool)) : Bool := bs.any (·.2)

/-- The value of one lane of a plain load. -/
def loadLane (s : State) (gi : Nat) (g : Gang) (w : Wave) (o : MemOp) (stale : Bool) (a : Acc) : LaneRet :=
  match o.kind with
  | .load t =>
    let bs := loadBytes s gi g w o stale a.loc (accLen o.kind)
    ⟨a.lane, [(extTy t (bytesNat bs), bytesBad bs)], 0⟩
  | .loadU t =>
    let bs := loadBytes s gi g w o stale a.loc (accLen o.kind)
    ⟨a.lane, [(extTy t (bytesNat bs), bytesBad bs)], 0⟩
  | .loadN n =>
    ⟨a.lane, (List.range n).map fun k =>
      let bs := loadBytes s gi g w o stale (a.loc.add (4 * k)) 4
      (BitVec.ofNat 32 (bytesNat bs), bytesBad bs), 0⟩
  | .dld =>
    let bs := loadBytes s gi g w o stale a.loc 8
    let r := stampedRead o.era (BitVec.ofNat 64 (bytesNat bs))
    ⟨a.lane, [(r.1, bytesBad bs)], r.2⟩
  | _ => ⟨a.lane, [(a.x.setWidth 32, a.bad.getLsbD 0), (a.x.extractLsb' 32 32, a.bad.getLsbD 1)], 0⟩

/-! ## Atomics (R173, R174) -/

/-- `Op(old, x)` with its flags. -/
def atomOp (op : AOp) (old x : W) : W × Flags :=
  match op with
  | .add => (old + x, 0)
  | .smin => (minWord false old x, 0)
  | .smax => (maxWord false old x, 0)
  | .and => (old &&& x, 0)
  | .or => (old ||| x, 0)
  | .xor => (old ^^^ x, 0)
  | .exch => (x, 0)
  | .fadd => addFl .f32 ⟨false, .rne⟩ 0 old x

def atomOpP (op : AOpP) (old x : D) : D :=
  match op with
  | .add => old + x
  | .umin => if x.toNat < old.toNat then x else old
  | .umax => if old.toNat < x.toNat then x else old
  | .and => old &&& x
  | .or => old ||| x
  | .xor => old ^^^ x
  | .exch => x

/-- A byte that an atomic reads: at `.wave` and `.gang` from the line of the Byre's L1, wider from the LLC (R266, R280). -/
def atomByte (s : State) (gi : Nat) (g : Gang) (o : MemOp) (l : Loc) : Byte :=
  match l with
  | .spad _ => s.getByte gi l
  | .mem k =>
    if isWide o then s.getByte gi l
    else match lineOf s g.byreId k o.floor with
      | some c => c.bytes.getD (k % 128) 0
      | none => s.getByte gi l

def atomNum (s : State) (gi : Nat) (g : Gang) (o : MemOp) (l : Loc) (n : Nat) : Nat :=
  leNat ((List.range n).map fun i => atomByte s gi g o (l.add i))

/-- The L1 line that an atomic acts on: at `.wave` and `.gang` it is filled first if absent; a wider atomic, which goes to the
LLC, leaves no copy behind, so that no later load of its Byre returns an older write (R256, R280). -/
def atomLine (s : State) (byre : Nat) (o : MemOp) (l : Loc) : State :=
  match l with
  | .spad _ => s
  | .mem k =>
    if isWide o then dropOlds { s with l1 := s.l1.filter fun c => !(c.byre == byre && c.key == k / 128) } (k / 128)
    else if (lineOf s byre k o.floor).isSome then s
    else fillLine s byre l

/-- Store `n` bytes at a place, unmarked, in class V. -/
def putNum (s : State) (gi byre : Nat) (l : Loc) (n v : Nat) : State := storeAs s gi byre .v (storeBytes l n v 0)

/-- What an atomic makes of its location: the value that it stores, if any, and its flags. -/
def atomNew (o : MemOp) (a : Acc) (old : Nat) : Option Nat × Flags :=
  let o32 := BitVec.ofNat 32 old
  let o64 := BitVec.ofNat 64 old
  match o.kind with
  | .atom op => let r := atomOp op o32 (a.x.setWidth 32); (some r.1.toNat, r.2)
  | .atomP op => (some (atomOpP op o64 (a.x.setWidth 64)).toNat, 0)
  | .cas => (if old == (a.x.setWidth 32).toNat then some a.y.toNat else none, 0)
  | .casP => (if old == (a.x.setWidth 64).toNat then some a.y.toNat else none, 0)
  | .daddA => (some (stampedAdd o.era o64 (a.x.setWidth 32)).1.toNat, 0)
  | _ => (none, 0)

/-- The elements that an atomic returns: the old value with its mark. -/
def atomOld (k : MemKind) (old : Nat) (bad : Bool) : List (W × Bool) :=
  match k with
  | .atom _ => [(BitVec.ofNat 32 old, bad)]
  | .cas => [(BitVec.ofNat 32 old, bad)]
  | .atomP _ => [(lo32 (BitVec.ofNat 64 old), bad), (hi32 (BitVec.ofNat 64 old), bad)]
  | .casP => [(lo32 (BitVec.ofNat 64 old), bad), (hi32 (BitVec.ofNat 64 old), bad)]
  | _ => []

/-- One lane's atomic access: the new state, what it returns. A poisoned location stays and sets no flag (R175). -/
def atomLane (s : State) (gi : Nat) (g : Gang) (o : MemOp) (a : Acc) : State × LaneRet :=
  let n := accLen o.kind
  let s := atomLine s g.byreId o a.loc
  let old := atomNum s gi g o a.loc n
  let bad := s.rangeBad gi a.loc n
  let r := atomNew o a old
  (match r.1 with
    | some v => if bad then s else putNum s gi g.byreId a.loc n v
    | none => s,
    ⟨a.lane, atomOld o.kind old bad, if bad then 0 else r.2⟩)

/-- The lanes of an atomic word, one at a time in ascending order. -/
def atomLanes (s : State) (gi : Nat) (g : Gang) (o : MemOp) : List Acc → State × List LaneRet
  | [] => (s, [])
  | a :: as =>
    let r := atomLane s gi g o a
    let q := atomLanes r.1 gi g o as
    (q.1, r.2 :: q.2)

/-- `VAPND` (R174): one atomic access for all its lanes. A poisoned counter stays (R175); the lane of rank r then returns what
the counter holds plus r, marked: that R175 means each lane's own result is DESIGN CHOICE (log 89). -/
def apndAll (s : State) (gi : Nat) (g : Gang) (o : MemOp) (as : List Acc) : State × List LaneRet :=
  match as with
  | [] => (s, [])
  | a :: _ =>
    let s := atomLine s g.byreId o a.loc
    let c := atomNum s gi g o a.loc 4
    let bad := s.rangeBad gi a.loc 4
    let s' := if bad then s else putNum s gi g.byreId a.loc 4 ((c + as.length) % 2 ^ 32)
    (s', (as.zip (List.range as.length)).map fun p => ⟨p.1.lane, [(BitVec.ofNat 32 (c + p.2), bad)], 0⟩)

/-- `DADD` (R178): all reads precede all writes; a poisoned word stays and yields its raw value (R175). It reads the L1 line,
filled first if absent, as a load does. -/
def daddAll (s : State) (gi : Nat) (g : Gang) (o : MemOp) (as : List Acc) : State × List LaneRet :=
  let s := as.foldl (fun s a => atomLine s g.byreId o a.loc) s
  let one (a : Acc) : LaneRet × List StByte :=
    let w := BitVec.ofNat 64 (atomNum s gi g o a.loc 8)
    if s.rangeBad gi a.loc 8 then (⟨a.lane, [(hi32 w, true)], 0⟩, [])
    else
      let r := stampedAdd o.era w (a.x.setWidth 32)
      (⟨a.lane, [(r.2.1, false)], r.2.2⟩, storeBytes a.loc 8 r.1.toNat 0)
  let rs := as.map one
  (storeAs s gi g.byreId .v (rs.flatMap (·.2)), rs.map (·.1))

/-! ## Write-back -/

/-- Element `k` of every returned lane as a register value under its lanes. -/
def retReg (old : VReg) (rs : List LaneRet) (k : Nat) : VReg :=
  let at' (l : Nat) : Option (W × Bool) := (rs.find? fun r => r.lane == l).bind fun r => r.els[k]?
  { lanes := (laneList.zip old.lanes).map fun p => match at' p.1 with | some v => v.1 | none => p.2
    bad := maskOf fun l => match at' l with | some v => v.2 | none => old.bad.getLsbD l }

/-- Write vector registers `d` to `d + n − 1`. -/
def retVec (w : Wave) (rs : List LaneRet) (d : Nat) : Nat → Wave
  | 0 => w
  | n + 1 => (retVec w rs d n).setVreg (d + n) (retReg (w.vreg (d + n)) rs n)

/-- Write scalar registers from one lane's elements. -/
def retScl (w : Wave) (k : Bool) (d : Nat) : List (W × Bool) → Wave
  | [] => w
  | x :: xs => retScl (w.setSreg k d x.1 x.2) k (d + 1) xs

def retWrite (w : Wave) (o : MemOp) (rs : List LaneRet) : Wave :=
  match o.dst with
  | .none => w
  | .vec d n => retVec w rs d.toNat n
  | .scl d n =>
    match rs with
    | r :: _ => retScl w o.slot d.toNat (r.els.take n)
    | [] => w

/-- The L1 floor that an acquire gives the loads that follow it: at `.die` and wider every older line is ignored (R271 note
2); within the gang they take over what its waves have acquired (R260, R262). -/
def acqFloor (s : State) (gi : Nat) (o : MemOp) : Nat :=
  if !isAcq o then 0 else if isWide o then s.fills + 1 else s.floorAt gi 0

/-- Take returned lanes off an operation; a finished one leaves. An acquire takes effect on the lanes of its split and on their
later memory words, and a release at `.die` or wider publishes every write before it (R261). An acquire at `.sys` has observed
the host's writes (R275). -/
def retOp (s : State) (gi : Nat) (w : Wave) (o : MemOp) (done : Mask) : Wave :=
  let left := o.left &&& ~~~done
  if left != 0 then
    { w with ops := mapIf (·.id == o.id) (fun q => { q with left := left, accs := q.accs.filter fun a => left.getLsbD a.lane }) w.ops }
  else
    let w := { w with ops := w.ops.filter (·.id != o.id) }
    let w := if isRel o && isWide o then { w with pubs := max w.pubs (s.fills + 1) } else w
    let w := if isAcq o && o.scope == 5 then { w with seen := (.h, s.fills) :: w.seen.filter (·.1 != .h) } else w
    if !isAcq o then w
    else
      let n := acqFloor s gi o
      let later (q : MemOp) : Bool := o.id < q.id && q.act &&& o.act != 0
      let w := { w with ops := mapIf later (fun q => { q with floor := max q.floor n }) w.ops }
      (s.acquired gi w o.act o.scope.toNat).raise o.act n

/-- The lanes that a partial write-back takes: any subset for plain loads, a prefix for atomics one lane at a time, all
at once for words that act as one. -/
def retLanes (o : MemOp) (m : Mask) : Mask :=
  match o.kind with
  | .load _ => o.left &&& m
  | .loadN _ => o.left &&& m
  | .atom _ => maskOf fun l => o.left.getLsbD l && (lanesOf (o.left &&& m)).any (l ≤ ·)
  | .atomP _ => maskOf fun l => o.left.getLsbD l && (lanesOf (o.left &&& m)).any (l ≤ ·)
  | .cas => maskOf fun l => o.left.getLsbD l && (lanesOf (o.left &&& m)).any (l ≤ ·)
  | .casP => maskOf fun l => o.left.getLsbD l && (lanesOf (o.left &&& m)).any (l ≤ ·)
  | _ => o.left

/-- Accesses to this package's memory find their lines under their keys when they are performed (R316). -/
def noteAccs (s : State) (g : Gang) (write : Bool) (n : Nat) (as : List Acc) : State :=
  as.foldl (fun s a =>
    match a.enc, a.loc with
    | some enc, .mem k => tagLines s g.ctx enc write k n
    | _, _ => s) s

/-- What lanes `m` of an operation return, with the state after their accesses. An acquire at `.die` or wider reads the memory
side, and renews the lines that it reads (R265, R271 note 2). -/
def access (s : State) (gi : Nat) (g : Gang) (w : Wave) (o : MemOp) (m : Mask) (stale : Bool) : State × List LaneRet :=
  let stale := stale && !(isAcq o && isWide o)
  let as := o.accs.filter fun a => m.getLsbD a.lane
  let load (as : List Acc) (rs : State → List LaneRet) : State × List LaneRet :=
    let s := noteAccs s g false (accLen o.kind) as
    (if o.kind == .value then s else fillLoad s g.byreId o.floor stale (as.map (·.loc)), rs s)
  match o.kind with
  | .loadU _ =>
    load o.accs fun s => o.accs.flatMap fun a =>
      let r := loadLane s gi g w o stale a
      (lanesOf o.left).map fun l => { r with lane := l }
  | .apnd => apndAll (noteAccs s g true 4 as) gi g o as
  | .dadd => daddAll (noteAccs s g true 8 as) gi g o as
  | k =>
    if isPlainLoad k then load as fun s => as.map (loadLane s gi g w o stale)
    else atomLanes (noteAccs s g true (accLen k) as) gi g o as

/-- Perform lanes of a returning operation and write its registers (R169). What returns into `s60`-`s62` narrows the split that
then stands in the slot that issued the word (R22), be it another than the one that issued it. DESIGN CHOICE (log 81). -/
def writeback (s : State) (gi wi : Nat) (o : MemOp) (m : Mask) (stale : Bool) : State :=
  match s.gang? gi with
  | none => s
  | some g =>
    match g.wave? wi with
    | none => s
    | some w =>
      let m := retLanes o m
      let r := access s gi g w o m stale
      match r.1.wave? gi wi with
      | none => s
      | some w1 =>
        let before := (w1.slot o.slot).act
        let fl := r.2.foldl (fun f x => f ||| x.fl) 0
        let w2 := retOp r.1 gi ((retWrite w1 o r.2).setFlags fl) o m
        let s := r.1.setWave gi wi w2
        opDone (if (w2.slot o.slot).act == before then s else afterMask s gi wi o.slot before) gi wi

/-- Perform a store at memory (R171, R265). -/
def performStore (s : State) (gi wi : Nat) (o : MemOp) : State :=
  match s.gang? gi with
  | none => s
  | some g =>
    let s1 : State := match o.kind with
      | .daddA => (atomLanes (noteAccs s g true 8 o.accs) gi g { o with scope := if isWide o then o.scope else 2 } o.accs).1
      | _ => storeAs (noteAccs s g true (accLen o.kind) o.accs) gi g.byreId .v (opBytes o)
    opDone (s1.modWave gi wi fun w => retOp s1 gi w o o.left) gi wi

/-- The event that performs lanes of a load, an atomic, `DLD` or `DADD`: gang and operation by serial, wave by index. An
operation that may not be performed yet, or is none of these, is left alone. -/
def execLoadWriteback (gang wave op : Nat) (lanes : Mask) (stale : Bool) (s : State) : Out :=
  .next (match s.gangIdx gang with
    | none => s
    | some gi =>
      match s.wave? gi wave with
      | none => s
      | some w =>
        match w.ops.find? (·.id == op) with
        | none => s
        | some o => if isStoreKind o.kind || !w.mayPerform o then s else writeback s gi wave o lanes stale)

/-- The event of a store: first it is accepted for forwarding, then it is performed at its memory (R108, R169, R265). A
scratchpad store is performed at once. -/
def execStorePerformed (gang wave op : Nat) (s : State) : Out :=
  .next (match s.gangIdx gang with
    | none => s
    | some gi =>
      match s.wave? gi wave with
      | none => s
      | some w =>
        match w.ops.find? (·.id == op) with
        | none => s
        | some o =>
          if !isStoreKind o.kind then s
          else if o.ctr == .st && !o.accepted then
            (if w.ops.all fun q => o.id ≤ q.id || (q.ctr != .st && q.kind != .dadd) || q.ctr == .sp || q.accepted then
              s.modWave gi wave fun w => { w with ops := mapIf (·.id == op) (fun q => { q with accepted := true }) w.ops }
             else s)
          else if w.mayPerform o then performStore s gi wave o else s)

end Sys2Proof.Machine
end

