-- ==== Sys2Proof/Machine/MemWords.lean ====
section
/-! DEFINITION. Loads, stores and prefetch (R170-R172). -/

namespace Sys2Proof.Machine

def ldSize (t : LdTy) : Nat := accLen (.load t)

def stSize : StTy → Nat
  | .b32 => 4
  | .b8 => 1
  | .b16 => 2

def regRange (d n : Nat) : List Nat := (List.range n).map (d + ·)

/-- No data: a load. -/
def noData (_ : Nat) : BitVec 128 × D × BitVec 4 := (0, 0, 0)

/-- A plain load into `n` vector registers. -/
def vecLoad (d : VR) (a b : Src) (i : I25) (size n : Nat) (k : MemKind) (once : Bool) : MemWord where
  a := a
  b := some b
  q := ⟨i, size, size, false, 1, once⟩
  kind := k
  dst := .vec d n
  data := noData
  foot := some (d.toNat, n)
  rd := ([], [])
  wr := (regRange d.toNat n, [])
  eat := []

/-- Elements `d` to `d + n − 1` of a lane as one datum with marks. -/
def laneData (w : Wave) (d n l : Nat) : BitVec 128 × D × BitVec 4 :=
  let el (k : Nat) : Nat := ((w.vreg (d + k)).lane l).toNat
  let bad (k : Nat) : Nat := ((w.vreg (d + k)).bad.getLsbD l).toNat
  (BitVec.ofNat 128 ((List.range n).foldr (fun k acc => el k + 2 ^ 32 * acc) 0), 0,
    BitVec.ofNat 4 ((List.range n).foldr (fun k acc => bad k + 2 * acc) 0))

/-- A store of `n` vector registers. -/
def vecStore (w : Wave) (d : VR) (a b : Src) (i : I25) (size n : Nat) : MemWord where
  a := a
  b := some b
  q := ⟨i, size, size, true, 2, false⟩
  kind := .store size
  dst := .none
  data := laneData w d.toNat n
  foot := some (d.toNat, n)
  rd := (regRange d.toNat n, [])
  wr := ([], [])
  eat := []

def mVld (t : LdTy) (d : VR) (a b : Src) (i : I25) : MemWord := vecLoad d a b i (ldSize t) 1 (.load t) false
def mVldp (d : VR) (a b : Src) (i : I25) : MemWord := vecLoad d a b i 8 2 (.loadN 2) false
def mVst (w : Wave) (t : StTy) (d : VR) (a b : Src) (i : I25) : MemWord := vecStore w d a b i (stSize t) 1
def mVstp (w : Wave) (d : VR) (a b : Src) (i : I25) : MemWord := vecStore w d a b i 8 2

def execVld (t : LdTy) (d : VR) (a b : Src) (i : I25) (s : State) : Out :=
  onSplit (.vld t d a b i) s fun e => e.run (memRun e (mVld t d a b i) Src.mi)

def execVst (t : StTy) (d : VR) (a b : Src) (i : I25) (s : State) : Out :=
  onSplit (.vst t d a b i) s fun e => e.run (memRun e (mVst e.w t d a b i) Src.mi)

def execVldp (d : VR) (a b : Src) (i : I25) (s : State) : Out :=
  onSplit (.vldp d a b i) s fun e => e.run (memRun e (mVldp d a b i) Src.mi)

def execVstp (d : VR) (a b : Src) (i : I25) (s : State) : Out :=
  onSplit (.vstp d a b i) s fun e => e.run (memRun e (mVstp e.w d a b i) Src.mi)

def execVldw (d : VR) (a b : Src) (i : I25) (s : State) : Out :=
  onSplit (.vldw d a b i) s fun e => e.run (memRun e (vecLoad d a b i 16 4 (.loadN 4) false) Src.mi)

def execVstw (d : VR) (a b : Src) (i : I25) (s : State) : Out :=
  onSplit (.vstw d a b i) s fun e => e.run (memRun e (vecStore e.w d a b i 16 4) Src.mi)

/-- `VLDU` reads memory once, for every lane (R170). -/
def execVldu (t : LdTy) (d : VR) (a b : Src) (i : I25) (s : State) : Out :=
  onSplit (.vldu t d a b i) s fun e => e.run (memRun e (vecLoad d a b i (ldSize t) 1 (.loadU t) true) Src.sz)

/-- A scalar load: 32 bits of a type, or a pair. -/
def sclLoad (t : Option LdTy) (d : SR) (a b : Src) (i : I25) : MemWord :=
  let n := if t.isSome then 1 else 2
  let size := match t with | some t => ldSize t | none => 8
  { a := a, b := some b, q := ⟨i, size, size, false, 1, true⟩
    kind := match t with | some t => .load t | none => .loadN 2
    dst := .scl d n, data := noData, foot := none, rd := ([], []), wr := ([], regRange d.toNat n), eat := [] }

/-- Scalar registers as a datum with marks. -/
def sclData (e : Env) (d n : Nat) (_ : Nat) : BitVec 128 × D × BitVec 4 :=
  (BitVec.ofNat 128 ((List.range n).foldr (fun k acc => (e.w.sreg e.k (d + k)).toNat + 2 ^ 32 * acc) 0), 0,
    BitVec.ofNat 4 ((List.range n).foldr (fun k acc => (e.w.sregBad (d + k)).toNat + 2 * acc) 0))

def sclStore (e : Env) (t : Option StTy) (d : SR) (a b : Src) (i : I25) : MemWord :=
  let n := if t.isSome then 1 else 2
  let size := match t with | some t => stSize t | none => 8
  { a := a, b := some b, q := ⟨i, size, size, true, 2, true⟩, kind := .store size, dst := .none
    data := sclData e d.toNat n, foot := none, rd := ([], regRange d.toNat n), wr := ([], []), eat := [] }

def execSld (t : Option LdTy) (d : SR) (a b : Src) (i : I25) (s : State) : Out :=
  onSplit (.sld t d a b i) s fun e => e.run (memRun e (sclLoad t d a b i) Src.sz)

def execSst (t : Option StTy) (d : SR) (a b : Src) (i : I25) (s : State) : Out :=
  onSplit (.sst t d a b i) s fun e => e.run (memRun e (sclStore e t d a b i) Src.sz)

/-- `VPREF` (R170): lines move toward the L1; a lane that would fail is ignored, nothing traps, and no register, counter,
flag or memory value changes. -/
def execVpref (llc : Bool) (a b : Src) (i : I25) (s : State) : Out :=
  onSplit (.vpref llc a b i) s fun e => e.run do
    chkFootSrc e 8 b
    let m := vecLoad 0 a b i 1 1 (.load .u8) false
    let bad := addrPoison e a i (some b)
    let ok (l : Nat) : Bool := !bad.any fun f => f.2.2.getLsbD l
    let as := (laneAddrs e m).filter fun x => ok x.1
    let keys := as.filterMap fun x =>
      if isHay i then (if x.2 < Config.hayBytes then some (Loc.mem (Config.hayKey e.g.die x.2)) else none)
      else (trKey (translate e.s e.g ⟨false, false, e.priv⟩ x.2 1)).map Loc.mem
    let s := e.pass
    .ok (if llc then s else fillLines s e.g.byreId keys)

end Sys2Proof.Machine
end

