-- ==== Sys2Proof/Machine/Atomics.lean ====
section
/-! DEFINITION. Atomic words (R173, R174). -/

namespace Sys2Proof.Machine

/-- The elements that an atomic consumes through field `D` (R176). -/
def eatVec (w : Wave) (d n : Nat) : List (Nat × Nat × Mask) :=
  (List.range n).map fun k => (0, d, (w.vreg (d + k)).bad)

def eatScl (w : Wave) (d n : Nat) : List (Nat × Nat × Mask) :=
  (List.range n).map fun k => (0, 0x80 + d, boolMask (w.sregBad (d + k)))

/-- A vector atomic: `n` elements per value, `cmp` for compare-and-swap, whose new value follows the compared one. -/
def vecAtom (w : Wave) (d : VR) (a b : Src) (i : I25) (k : MemKind) (n : Nat) (cmp : Bool) : MemWord where
  a := a
  b := some b
  q := ⟨i, 4 * n, 4 * n, true, 4, false⟩
  kind := k
  dst := .vec d n
  data := fun l =>
    let x := laneData w d.toNat n l
    (x.1, (laneData w (d.toNat + n) n l).1.setWidth 64, 0)
  foot := some (d.toNat, if cmp then 2 * n else n)
  rd := (regRange d.toNat (if cmp then 2 * n else n), [])
  wr := (regRange d.toNat n, [])
  eat := eatVec w d.toNat (if cmp then 2 * n else n)

def execVatom (op : AOp) (d : VR) (a b : Src) (i : I25) (s : State) : Out :=
  onSplit (.vatom op d a b i) s fun e => e.run (memRun e (vecAtom e.w d a b i (.atom op) 1 false) Src.mi)

def execVcas (d : VR) (a b : Src) (i : I25) (s : State) : Out :=
  onSplit (.vcas d a b i) s fun e => e.run (memRun e (vecAtom e.w d a b i .cas 1 true) Src.mi)

def execVatomp (op : AOpP) (d : VR) (a b : Src) (i : I25) (s : State) : Out :=
  onSplit (.vatomp op d a b i) s fun e => e.run (memRun e (vecAtom e.w d a b i (.atomP op) 2 false) Src.mi)

def execVcasp (d : VR) (a b : Src) (i : I25) (s : State) : Out :=
  onSplit (.vcasp d a b i) s fun e => e.run (memRun e (vecAtom e.w d a b i .casP 2 true) Src.mi)

/-- A scalar atomic. -/
def sclAtom (e : Env) (d : SR) (a b : Src) (i : I25) (k : MemKind) (cmp : Bool) : MemWord :=
  let n := if cmp then 2 else 1
  { a := a, b := some b, q := ⟨i, 4, 4, true, 4, true⟩, kind := k, dst := .scl d 1
    data := fun l => ((sclData e d.toNat 1 l).1, (sclData e (d.toNat + 1) 1 l).1.setWidth 64, 0)
    foot := none, rd := ([], regRange d.toNat n), wr := ([], [d.toNat]), eat := eatScl e.w d.toNat n }

def execSatom (op : AOp) (d : SR) (a b : Src) (i : I25) (s : State) : Out :=
  onSplit (.satom op d a b i) s fun e => e.run (memRun e (sclAtom e d a b i (.atom op) false) Src.sz)

def execScas (d : SR) (a b : Src) (i : I25) (s : State) : Out :=
  onSplit (.scas d a b i) s fun e => e.run (memRun e (sclAtom e d a b i .cas true) Src.sz)

/-- `VAPND` (R174): no index, no data. -/
def mVapnd (d : VR) (a : Src) (i : I25) : MemWord where
  a := a
  b := none
  q := ⟨i, 4, 4, true, 4, false⟩
  kind := .apnd
  dst := .vec d 1
  data := noData
  foot := some (d.toNat, 1)
  rd := ([], [])
  wr := ([d.toNat], [])
  eat := []

def execVapnd (d : VR) (a : Src) (i : I25) (s : State) : Out :=
  onSplit (.vapnd d a i) s fun e => e.run (memRun e (mVapnd d a i) Src.mi)

end Sys2Proof.Machine
end

