-- ==== Sys2Proof/Machine/Stamped.lean ====
section
/-! DEFINITION. Stamped words (R177-R179). -/

namespace Sys2Proof.Machine

def mDld (d : VR) (a b : Src) (i : I25) : MemWord := vecLoad d a b i 8 1 .dld false

/-- `DADD` and `DADD.A`: `x` in `D`, consumed. -/
def mDadd (w : Wave) (k : MemKind) (d : VR) (a b : Src) (i : I25) : MemWord where
  a := a
  b := some b
  q := ⟨i, 8, 8, true, if k == .daddA then 4 else 3, false⟩
  kind := k
  dst := if k == .daddA then .none else .vec d 1
  data := laneData w d.toNat 1
  foot := some (d.toNat, 1)
  rd := ([d.toNat], [])
  wr := (if k == .daddA then [] else [d.toNat], [])
  eat := eatVec w d.toNat 1

/-- `DST`: the stored word takes `STEP` as its stamp and the class of the even register. -/
def mDst (e : Env) (d : VR) (a b : Src) (i : I25) : MemWord :=
  { vecStore e.w d a b i 8 2 with
    data := fun l =>
      let x := laneData e.w d.toNat 2 l
      ((stampedWord (x.1.extractLsb' 32 32) e.g.step.toNat (x.1.toNat / 16)).setWidth 128, x.2) }

/-- Lanes whose return raises an enabled flag. -/
def hotLanes (fpen : Flags) (rs : List LaneRet) : Mask := maskOf fun l => rs.any fun r => r.lane == l && r.fl &&& fpen != 0

/-- `DLD` and `DADD` while a flag is enabled: an enabled flag traps before anything is written, memory included (R91), so
the word waits for the wave's earlier operations and is performed where it issues. DEDUCED (log 44). -/
def stampedRun (e : Env) (m : MemWord) : Chk State :=
  if e.w.fpen == 0 then memRun e m Src.mi
  else do
    let r ← memCheck e m Src.mi
    chkClear e fun _ => true
    let o := memOp e m r.go e.w.opSeq
    let rs := (access e.s e.gi e.g e.w o o.left false).2
    let fl := rs.foldl (fun f x => f ||| x.fl) 0
    let hot := hotLanes e.w.fpen rs
    if hot != 0 then .ok (e.trapAfter (e.w.setFlags fl) (trFp (fl &&& e.w.fpen) hot))
    else .ok (if r.go.isEmpty then memApply e m r else writeback (memApply e m r) e.gi e.wi o o.left false)

def execDld (d : VR) (a b : Src) (i : I25) (s : State) : Out :=
  onSplit (.dld d a b i) s fun e => e.run (stampedRun e (mDld d a b i))

def execDadd (d : VR) (a b : Src) (i : I25) (s : State) : Out :=
  onSplit (.dadd d a b i) s fun e => e.run (stampedRun e (mDadd e.w .dadd d a b i))

def execDaddA (d : VR) (a b : Src) (i : I25) (s : State) : Out :=
  onSplit (.daddA d a b i) s fun e => e.run (memRun e (mDadd e.w .daddA d a b i) Src.mi)

def execDst (d : VR) (a b : Src) (i : I25) (s : State) : Out :=
  onSplit (.dst d a b i) s fun e => e.run (memRun e (mDst e d a b i) Src.mi)

/-! ## Register words with a pair of results -/

/-- A vector pair source: even and odd register; a latch supplies the even one (R178). -/
def Env.vpair (e : Env) (a : Src) : VReg × VReg :=
  match tagSrc e.w e.k a with
  | .v n => (e.vsrc .s32 a, e.w.vreg (n.toNat + 1))
  | _ => (zeroReg, zeroReg)

def VReg.or (a b : VReg) : Mask := a.bad ||| b.bad

/-- `SMERGE` of one lane from stamp words and values (R179). -/
def mergeLane (g : Era) (a b : W × W) : W × W × Flags :=
  let sa := a.1.toNat / 256
  let sb := b.1.toNat / 256
  let age (s : Nat) : Nat := if stampAge g.step s < 2 ^ 23 then stampAge g.step s else 0
  let l := if age sb < age sa then sb else sa
  let f (x : W × W) (s : Nat) : Ex × Flags :=
    let v := inFl .f32 x.2
    let r := exMul v.1 (decay ((l + 2 ^ 24 - s) % 2 ^ 24) (g.dclOf (x.1.toNat / 16)))
    (r.1, v.2 ||| r.2)
  let p := f a sa
  let q := f b sb
  let t := exAdd .rne p.1 q.1
  let z := roundFP32 .rne 0 t.1
  (BitVec.ofNat 32 (l * 256 + a.1.toNat / 16 % 16 * 16), z.1, p.2 ||| q.2 ||| t.2 ||| z.2)

/-- Write a pair of vector registers under ACT with one latch entry, of the even one (R20, R179). -/
def pairWrite (w : Wave) (d : VR) (nw : Bool) (act : Mask) (lo hi : List W) (bad : Mask) : Wave :=
  let r0 := mergeReg (w.vreg d.toNat) act lo 0
  let r1 := mergeReg (w.vreg (d.toNat + 1)) act hi bad
  (if nw then w else (w.setVreg d.toNat r0).setVreg (d.toNat + 1) r1).push (.vec d r0) nw

def chkFootPair (e : Env) (code : Nat) (a : Src) : Chk Unit :=
  match a with
  | .v n => chkFoot e code n.toNat 2
  | _ => .ok ()

def cat2 (a b : List Nat × List Nat) : List Nat × List Nat := (a.1 ++ b.1, a.2 ++ b.2)

/-- The checks of `SMERGE`. -/
def smergeCheck (e : Env) (d : VR) (a b : Src) : Chk Unit := do
  chkFoot e 6 d.toNat 2
  chkFootPair e 7 a
  chkFootPair e 8 b
  chkLatches e [⟨7, a, Src.ve⟩, ⟨8, b, Src.ve⟩]
  chkBusy e (cat2 (srcRegs e.w e.k a 2) (srcRegs e.w e.k b 2)) (regRange d.toNat 2, []) false
  let x := e.vpair a
  let y := e.vpair b
  chkPoisonV e.act [(srcNum e.w e.k a, x.1.or x.2), (srcNum e.w e.k b, y.1.or y.2)] 0

def execSmerge (nw : Bool) (d : VR) (a b : Src) (s : State) : Out :=
  onSplit (.smerge nw d a b) s fun e => e.run do
    smergeCheck e d a b
    let x := e.vpair a
    let y := e.vpair b
    let rs := laneList.map fun l =>
      if e.act.getLsbD l then mergeLane e.g.era (x.1.lane l, x.2.lane l) (y.1.lane l, y.2.lane l) else (0, 0, 0)
    let fl := rs.foldl (fun f r => f ||| r.2.2) 0
    let hot := maskOf fun l => match rs[l]? with | some r => r.2.2 &&& e.w.fpen != 0 | none => false
    let w := e.w.setFlags fl
    if hot != 0 then .ok (e.trapAfter w (trFp (fl &&& e.w.fpen) hot))
    else .ok (e.done (pairWrite w d nw e.act (rs.map (·.1)) (rs.map (·.2.1)) 0))

/-- `DSTAMP` (R178): the value is copied, mark and all. -/
def execDstamp (nw : Bool) (d : VR) (a : Src) (cls : BitVec 4) (s : State) : Out :=
  onSplit (.dstamp nw d a cls) s fun e => e.run do
    chkFoot e 6 d.toNat 2
    chkFootSrc e 7 a
    chkLatches e [⟨7, a, Src.gv⟩]
    chkBusy e (srcRegs e.w e.k a 1) (regRange d.toNat 2, []) false
    let x := e.vsrc .s32 a
    let lo := BitVec.ofNat 32 (e.g.step.toNat % 2 ^ 24 * 256 + cls.toNat * 16)
    .ok (e.done (pairWrite e.w d nw e.act (List.replicate 96 lo) x.lanes x.bad))

end Sys2Proof.Machine
end

