-- ==== Sys2Proof/Machine/Sync.lean ====
section
/-! DEFINITION. Fences (R180), barrier words (R181-R184), the halter (R186). -/

namespace Sys2Proof.Machine

/-! ## Fences -/

/-- The operations before the word: those started when it first issued. -/
def Env.upto (e : Env) : Nat :=
  match e.slot.st with
  | .blocked (.fence _ n) => n
  | .blocked (.publish n _) => n
  | _ => e.w.opSeq

/-- What a fence waits for: earlier loads and atomics, releases of every colour, and plain stores of its colours (R180,
R270). -/
def holdsFence (cols : BitVec 8) (o : MemOp) : Bool := !isPlainStore o.kind || isRel o || cols.getLsbD o.col.toNat

/-- Wait until the wave's earlier operations of the given colours are performed. DEDUCED (log 27). -/
def chkDrained (e : Env) (cols : BitVec 8) : Chk Unit :=
  needWait (!e.w.ops.any fun o => o.id < e.upto && holdsFence cols o) (.fence cols e.upto)

/-- After a fence at `.die` or wider later plain loads ignore L1 lines filled before it (R271); one at `.gang` takes over what
the gang's waves have acquired (R259). DEDUCED (log 72). -/
def raiseAt (s : State) (e : Env) (scope : Nat) : State :=
  let s := s.acquire e.gi e.wi e.act scope
  if scope < 2 then s else s.modWave e.gi e.wi fun w => w.raise e.act (s.fills + 1)

def execFence (scope : BitVec 3) (cols : BitVec 8) (s : State) : Out :=
  onSplit (.fence scope cols) s fun e => e.run do
    chkDrained e cols
    .ok (raiseAt e.pass e scope.toNat)

/-- `fills` as it stood when the wave observed class `f`; its own stores it sees at once. -/
def seenAt (s : State) (w : Wave) (f : PClass) : Option Nat :=
  if f == .v then some s.fills else (w.seen.find? fun x => x.1 == f).map (·.2)

/-- Class-`f` writes that the split has observed reach class `t`: older copies in the L1 or the operand buffers go, and the
commands of class `t` that the wave starts from now on see them. -/
def crossTo (s : State) (e : Env) (f t : PClass) (scope : Nat) : State :=
  match seenAt s e.w f with
  | none => s
  | some n =>
    if t == .v then (if f == .v then s else s.modWave e.gi e.wi fun w => w.raise e.act (n + 1))
    else
      let s := s.modWave e.gi e.wi fun w => w.raiseView t (n + 1)
      if t == .m && scope != 0 then dropObuf s e.g.byreId n else s

/-- A write that the wave made before its last barrier arrival is still to be performed: with V outside PUB the arrival has not
waited for it (R184). -/
def Wave.owes (w : Wave) : Bool := w.ops.any fun o => o.id < w.arrSeq && !isPlainLoad o.kind

/-- Some wave of the gang, or of the package, owes such a write. -/
def State.owing (s : State) (gi : Nat) (wide : Bool) : Bool :=
  if wide then s.gangs.any fun g => g.waves.any Wave.owes
  else match s.gang? gi with
    | some g => g.waves.any Wave.owes
    | none => false

/-- `XFENCE` (R180): from V it waits for the stores of every colour, and for those that other waves made before an arrival that
the wave may have observed (R184); from any other class for loads only (R268). DEDUCED (log 27). -/
def execXfence (scope : BitVec 3) (f t : PClass) (s : State) : Out :=
  onSplit (.xfence scope f t) s fun e => e.run do
    needWait (f != .v || !e.s.owing e.gi (2 ≤ scope.toNat)) (.arrivals (2 ≤ scope.toNat))
    chkDrained e (if f == .v then 0xFF else 0)
    .ok (crossTo (raiseAt e.pass e scope.toNat) e f t scope.toNat)

/-! ## Barrier words -/

/-- What a word that acts once on one place finds: its place, or the state in which its split has parked. -/
inductive One
  | at' (l : Loc)
  | gone (s : State)

/-- The checks of a word with one address and no index: the other sources, poison in field order, R168. -/
structure OneAsk where
  a     : Src
  q     : Ask
  b     : Option Src
  rd    : List Nat × List Nat
  wr    : List Nat × List Nat
  pre   : List (Nat × Nat × Mask)   -- poison of field `D`

/-- Checks of `b`, an operand beside the address. -/
def bPoison (e : Env) (b : Option Src) : List (Nat × Nat × Mask) :=
  match b with
  | some b => [(0, srcNum e.w e.k b, boolMask (e.ssrc .s32 b).2)]
  | none => []

def oneFlds (o : OneAsk) : List Fld :=
  ⟨7, o.a, baseCls o.q.i⟩ :: match o.b with | some b => [⟨8, b, Src.gs⟩] | none => []

def oneRegs (e : Env) (o : OneAsk) : List Nat × List Nat :=
  let ra := srcRegs e.w e.k o.a (if isSpadForm o.q.i then 1 else 2)
  let rb := match o.b with | some b => srcRegs e.w e.k b 1 | none => ([], [])
  cat2 o.rd (cat2 ra rb)

def chkOnePlace (e : Env) (o : OneAsk) : Chk One := do
  chkLatches e (oneFlds o)
  chkBusy e (oneRegs e o) o.wr false
  chkPoisonM e.act (o.pre ++ addrPoison e o.a o.q.i none ++ bPoison e o.b)
  let va := addrVal o.q.i (baseVal e o.a o.q.i).1 0
  let r ← reach e o.q [(0, va)]
  match r.go with
  | x :: _ => .ok (.at' x.2.2)
  | [] => .ok (.gone (parkAll e 0 o.q.acc va))

/-- Bookkeeping of an access that went ahead (R299). -/
def noteOne (e : Env) (o : OneAsk) : Env :=
  let va := addrVal o.q.i (baseVal e o.a o.q.i).1 0
  if isSpadForm o.q.i then e
  else { e with s := noteAccess e.s e.g ⟨o.q.write, false, e.priv⟩ va o.q.size }

/-- Run a word on its one place. -/
def onPlace (e : Env) (o : OneAsk) (f : Env → Loc → Chk State) : Chk State := do
  match ← chkOnePlace e o with
  | .gone s => .ok s
  | .at' l => f (noteOne e o) l

def barAsk (a : Src) (i : I25) (write : Bool) (b : Option Src) : OneAsk :=
  ⟨a, ⟨i, 16, 16, write, if write then 4 else 1, true⟩, b, ([], []), ([], []), []⟩

/-- `BARI` (R182). GEN and PHASE are kept; codes 6 and 7 of SCOPE are stored as 5. -/
def execBari (d : SR) (a : Src) (i : I25) (s : State) : Out :=
  onSplit (.bari d a i) s fun e => e.run do
    let o := { barAsk a i true none with rd := ([], [d.toNat, d.toNat + 1]), pre := eatScl e.w d.toNat 2 }
    onPlace e o fun e l =>
      let x := (e.w.sreg e.k d.toNat).toNat
      let y := (e.w.sreg e.k (d.toNat + 1)).toNat
      let c := y / 256 % 64 * 256 + min (y % 8) 5 * 2 + e.s.objNum e.gi l 8 % 2
      if e.s.rangeBad e.gi l 16 then .ok e.pass
      else .ok (e.pass.putObj e.gi l 0 [0, x, c])

/-- An outstanding operation whose result is fixed at issue (R169). -/
def valueOp (e : Env) (o : OneAsk) (l : Loc) (d : SR) (n : Nat) (x : D) (bad : Bool) : MemOp where
  id := e.w.opSeq
  slot := e.k
  act := e.act
  kind := .value
  ctr := if isSpadForm o.q.i then .sp else .vl
  dst := .scl d n
  accs := [⟨0, l, none, 0, x.setWidth 128, 0, if bad then 3 else 0⟩]
  left := oneLane 0
  ord := 0
  scope := scopeOf o.q.i
  col := 0
  floor := 0
  step := 0
  dcl := []
  accepted := false

def startValue (e : Env) (o : OneAsk) (l : Loc) (d : SR) (n : Nat) (x : D) (bad : Bool) : State :=
  e.put (((e.w.addOp (valueOp e o l d n x bad)).pushNone).advance e.k)

/-- `BARA` (R182): the arrival, once the accesses that it follows are performed (R184, R258); the old GEN returns later. -/
def execBara (d : SR) (a b : Src) (i : I25) (s : State) : Out :=
  onSplit (.bara d a b i) s fun e => e.run do
    let o := { barAsk a i true (some b) with wr := ([], [d.toNat]) }
    chkCtr e (if isSpadForm i then .sp else .vl)
    onPlace e o fun e l => do
      let pub := objPub e.s e.gi l
      needWait (!e.w.ops.any fun o => o.id < e.upto && holdsArrival pub o) (.publish e.upto (pub != 0))
      let gen := BitVec.ofNat 64 (e.s.objNum e.gi l 12)
      let s := startValue e o l d 1 gen (e.s.rangeBad e.gi l 16)
      let s := (sawPhase s e.gi e.wi e.act l).modWave e.gi e.wi fun w => { w with arrSeq := e.upto }
      .ok (arrive s e.gi l (e.ssrc .s32 b).1.toNat)

/-- `BARW` (R182). -/
def execBarw (a b : Src) (i : I25) (s : State) : Out :=
  onSplit (.barw a b i) s fun e => e.run do
    onPlace e (barAsk a i false (some b)) fun e l => do
      let x := (e.ssrc .s32 b).1
      needWait (BitVec.ofNat 32 (e.s.objNum e.gi l 12) != x) (.barw l x)
      .ok (sawPhase e.pass e.gi e.wi e.act l)

/-- `BAR` (R26, R182): the split waits at its word; the arrival is the wave's, once all its lanes wait. -/
def execBar (a : Src) (i : I25) (s : State) : Out :=
  onSplit (.bar a i) s fun e => e.run do
    onPlace e (barAsk a i true none) fun e l => do
      let bars := (e.w.bars.map fun x => { x with lanes := x.lanes &&& ~~~e.act }).filter fun x => x.lanes != 0
      let va := addrVal i (baseVal e a i).1 0
      let w := { e.w.pushNone with bars := ⟨e.act, e.slot.pc, l, va, false, none, false⟩ :: bars }
      .ok (settle (e.put (w.modSlot e.k fun x => { x with st := .barWait })) e.gi e.wi)

/-- `BARQ` (R182). -/
def execBarq (d : SR) (a : Src) (i : I25) (s : State) : Out :=
  onSplit (.barq d a i) s fun e => e.run do
    let o := { barAsk a i false none with wr := ([], [d.toNat, d.toNat + 1]) }
    chkCtr e (if isSpadForm i then .sp else .vl)
    onPlace e o fun e l =>
      let x := joinPair (BitVec.ofNat 32 (e.s.objNum e.gi l 12)) (BitVec.ofNat 32 (e.s.objNum e.gi l 0))
      .ok (sawPhase (startValue e o l d 2 x (e.s.rangeBad e.gi l 16)) e.gi e.wi e.act l)

/-! ## The halter -/

/-- The halter may be taken by this wave: it holds it, or it is free and no lower wave waits for it (R186). -/
def halterTurn (g : Gang) (w : Wave) : Bool :=
  g.halter == some w.idx
    || (g.halter.isNone
        && !g.waves.any fun v => v.idx < w.idx
            && (v.slot0.st == .blocked .halter || v.slot1.st == .blocked .halter))

def execHtake (s : State) : Out :=
  onSplit .htake s fun e => e.run do
    needWait (halterTurn e.g e.w) .halter
    .ok (e.pass.modGang e.gi fun g => { g with halter := some e.w.idx })

/-- Check 8 of R67. -/
def chkHalter (e : Env) : Chk Unit := need (e.g.halter == some e.w.idx) (trIllegal e 6 0 false)

/-- `HPASS` (R186). A poisoned wave index is reported with subcode 0, as an operand of arithmetic; R176 lists it under no
subcode. DESIGN CHOICE (log 34). -/
def execHpass (a : Src) (s : State) : Out :=
  onSplit (.hpass a) s fun e => e.run do
    chkHalter e
    let x ← chkOne e 7 a 0
    let free := match e.g.wave? x.toNat with
      | some v => v.ended
      | none => true
    .ok (e.pass.modGang e.gi fun g => { g with halter := if free then none else some x.toNat })

end Sys2Proof.Machine
end

