-- ==== Sys2Proof/Machine/Trough.lean ====
section
/-! DEFINITION. Trough words and the overflow engine (R185, R315, R330-R332). An address that names no declared trough acts
as a trough without slots and without silo. DESIGN CHOICE (log 16). -/

namespace Sys2Proof.Machine

abbrev TSlot := List W × BitVec 16

def Gang.troughIdx (g : Gang) (toff : Nat) : Option Nat := findIdx (fun t => t.toff == toff) g.troughs

def Gang.trough? (g : Gang) (t : Nat) : Option Trough := g.troughs[t]?

def modTrough (s : State) (gi t : Nat) (f : Trough → Trough) : State :=
  s.modGang gi fun g => { g with troughs := modAt g.troughs t f }

/-- Quota of a silo in slots (R332). -/
def siloQuota (g : Gang) : Nat := 16 * g.siloK

/-- Where slot `j` of the silo of trough `t`, counted from its oldest, lies (R332). The order of slots within the silo is the
device's own. DESIGN CHOICE (log 16). -/
def siloVa (g : Gang) (t : Nat) (x : Trough) (j : Nat) : Nat :=
  g.siloBase + 1024 * g.siloK * (linIdx g * g.troughs.length + t) + 64 * ((x.shead + j) % siloQuota g)

/-- The bytes of a slot at a place, with their marks. -/
def slotBytes (l : Loc) (v : TSlot) : List StByte :=
  (List.range 64).map fun i => ⟨l.add i, (natLe 4 (v.1.getD (i / 4) 0).toNat).getD (i % 4) 0, v.2.getLsbD (i / 4)⟩

/-- A slot as it stands in memory; a marked granule marks both its words (R175). -/
def readSlot (s : State) (gi : Nat) (l : Loc) : TSlot :=
  ((List.range 16).map fun i => BitVec.ofNat 32 (s.numLoc gi (l.add (4 * i)) 4),
    BitVec.ofNat 16 ((List.range 16).foldr (fun i n => (s.locBad gi (l.add (4 * i))).toNat + 2 * n) 0))

/-- The trough as it stands in scratchpad (R185, R331): the header, COUNT and SCOUNT from the trough, PUTS and GETS counted on;
then its slots, the k-th slot taken since the start in place k mod SLOTS. The order of the places is the device's own. DESIGN
CHOICE (log 16). -/
def putHeader (s : State) (gi t : Nat) (puts gets : Nat) : State :=
  match (s.gang? gi).bind fun g => g.trough? t with
  | none => s
  | some x =>
    let at' (off : Nat) : Loc := .spad (x.toff + off)
    let p := (s.numLoc gi (at' 8) 4 + puts) % 2 ^ 32
    let q := (s.numLoc gi (at' 12) 4 + gets) % 2 ^ 32
    let s := s.writeLoc gi (at' 0) (natLe 4 x.ring.length ++ natLe 4 x.silo ++ natLe 4 p ++ natLe 4 q)
    (x.ring.zip (List.range x.ring.length)).foldl (fun s v =>
      storePut s gi 320 none (slotBytes (at' (64 + 64 * ((q + v.2) % x.slots))) v.1)) s

/-- Reservations held on a trough by the gang's waves. -/
def reserved (g : Gang) (toff : Nat) : Nat := (g.waves.filter fun w => w.resv.contains toff).length

/-- Stage of a wave's trough words, for tokens (R315). -/
def Gang.stopping (g : Gang) : Bool :=
  match g.st with
  | .stopping _ => true
  | _ => false

/-- A stage halts and its output troughs take a stop token (R315). -/
def haltStage (s : State) (gi st : Nat) : State :=
  s.modGang gi fun g =>
    { g with
      stages := modAt g.stages st fun x => { x with halted := true }
      troughs := g.troughs.map fun t => if t.src == st then { t with stop := true } else t }

/-- A halted stage: its trough words wait for the restore. -/
def Gang.halted (g : Gang) (st : Nat) : Bool :=
  match g.stages[st]? with
  | some x => x.halted
  | none => false

def trgAsk (a : Src) (i : I25) : OneAsk := ⟨a, ⟨i, 64, 64, true, 4, true⟩, none, ([], []), ([], []), []⟩

def spadOff : Loc → Nat
  | .spad o => o
  | .mem k => k

/-- The slot that `TRGPUT` appends: lanes 0 to 15; a marked element marks its granule, which is two words (R175). -/
def slotOf (r : VReg) : TSlot :=
  (r.lanes.take 16,
    BitVec.ofNat 16 ((List.range 16).foldr (fun i n => (r.bad.getLsbD (i / 2 * 2) || r.bad.getLsbD (i / 2 * 2 + 1)).toNat + 2 * n) 0))

/-- A silo access that does not go through: the split parks, or the grid ends (R332). -/
def siloFail (e : Env) (va : Nat) (r : Tr) : State :=
  match r with
  | .fail n => faultGrid e.s e.g.grid (faultRepOf e.g e.w (trAccess n va e.act) e.slot.pc)
  | _ =>
    let q := addReq e.s e.g.die e.g.ctx va 2 2 (reqWord e.g e.w true) (.lanes e.g.id e.w.idx)
    parkLanes q.1 e e.act [⟨e.act, va, q.2, false, false⟩]

/-- Append to the silo, whose memory takes the slot (R332). -/
def spill (e : Env) (t : Nat) (x : Trough) (v : TSlot) : Chk State :=
  if siloQuota e.g ≤ x.silo then .error (.trap (trSilo x.toff e.act))
  else
    let va := siloVa e.g t x x.silo
    let want : Want := ⟨true, false, e.priv⟩
    match translate e.s e.g want va 64 with
    | .ok k =>
      let s := modTrough e.pass e.gi t fun y => { y with silo := y.silo + 1 }
      let s := storePut (noteAccess s e.g want va 64) e.gi 320 none (slotBytes (.mem k) v)
      .ok (putHeader s e.gi t 1 0)
    | r => .ok (siloFail e va r)

/-- `TRGPUT` (R185): a release. In a gang that is being stopped, stage 0 halts here with a token (R315). -/
def execTrgput (d : VR) (a : Src) (i : I25) (s : State) : Out :=
  onSplit (.trgput d a i) s fun e => e.run do
    chkFoot e 6 d.toNat 1
    onPlace e { trgAsk a i with rd := ([d.toNat], []) } fun e l => do
      chkDrained e 0xFF
      match e.g.troughIdx (spadOff l) with
      | none => .error (.wait (.troughFull (spadOff l)))
      | some t =>
        match e.g.trough? t with
        | none => .error (.wait (.troughFull (spadOff l)))
        | some x =>
          if e.g.halted e.w.stage then .error (.wait (.troughFull x.toff))
          else if e.g.stopping && e.w.stage == 0 then
            .ok (haltStage (e.block (.troughFull x.toff)) e.gi 0)
          else
            let v := slotOf (e.w.vreg d.toNat)
            if x.silo == 0 && x.ring.length < x.slots then
              .ok (putHeader (modTrough e.pass e.gi t fun y => { y with ring := y.ring ++ [v] }) e.gi t 1 0)
            else if e.g.siloK == 0 then .error (.wait (.troughFull x.toff))
            else spill e t x v

/-- Lanes 0 to 15 of ACT take the words of a slot, marks with them. -/
def takeSlot (r : VReg) (act : Mask) (v : TSlot) : VReg :=
  let m := act &&& 0xFFFF
  mergeReg r m ((List.range 96).map fun i => v.1.getD i 0) (v.2.setWidth 96)

/-- Take the oldest slot, an acquire at `.gang` (R185, R259); the silo's slots follow the ring's, so an empty ring yields to the
refill. -/
def takeOldest (e : Env) (t : Nat) (x : Trough) (d : VR) : Chk State :=
  match x.ring with
  | v :: rest =>
    let w := (e.w.setVreg d.toNat (takeSlot (e.w.vreg d.toNat) e.act v)).pushNone
    let w := e.s.acquired e.gi { w with resv := w.resv.filter (· != x.toff) } e.act 0
    .ok (putHeader (modTrough (e.put (w.advance e.k)) e.gi t fun y => { y with ring := rest }) e.gi t 0 1)
  | [] => .error (.wait (.troughEmpty x.toff))

/-- `TRGGET` (R185, R315): an acquire. A stage that reaches a stop token forwards it and halts. -/
def execTrgget (d : VR) (a : Src) (i : I25) (s : State) : Out :=
  onSplit (.trgget d a i) s fun e => e.run do
    chkFoot e 6 d.toNat 1
    onPlace e { trgAsk a i with wr := ([d.toNat], []) } fun e l =>
      match e.g.troughIdx (spadOff l) with
      | none => .error (.wait (.troughEmpty (spadOff l)))
      | some t =>
        match e.g.trough? t with
        | none => .error (.wait (.troughEmpty (spadOff l)))
        | some x =>
          if e.g.halted e.w.stage then .error (.wait (.troughEmpty x.toff))
          else if x.stop && x.ring.isEmpty && x.silo == 0 then
            .ok (haltStage (e.block (.troughEmpty x.toff)) e.gi e.w.stage)
          else if e.w.resv.contains x.toff || reserved e.g x.toff < x.ring.length then takeOldest e t x d
          else .error (.wait (.troughEmpty x.toff))

/-- `TRGTRY` (R185): returning 1 it is an acquire (R259). -/
def execTrgtry (d : SR) (a : Src) (i : I25) (s : State) : Out :=
  onSplit (.trgtry d a i) s fun e => e.run do
    onPlace e { trgAsk a i with wr := ([], [d.toNat]) } fun e l =>
      let toff := spadOff l
      let free := match (e.g.troughIdx toff).bind e.g.trough? with
        | some x => reserved e.g toff < x.ring.length && !e.g.halted e.w.stage
        | none => false
      let got := e.w.resv.contains toff || free
      let w := e.w.setSreg e.k d.toNat (if got then 1 else 0) false
      let w := if got then e.s.acquired e.gi { w with resv := insertNat toff w.resv } e.act 0 else w
      .ok (e.done w.pushNone)

/-- The overflow engine moves the oldest silo slot, which stands at `k`, into the trough (R332). -/
def refill (s : State) (gi t k : Nat) : State :=
  let v := readSlot s gi (.mem k)
  let quota := ((s.gang? gi).map siloQuota).getD 1
  putHeader (modTrough s gi t fun y =>
    { y with silo := y.silo - 1, shead := (y.shead + 1) % quota, ring := y.ring ++ [v] }) gi t 0 0

/-- An access to the silo that fails ends the grid (R332). -/
def siloEnds (s : State) (g : Gang) (sub va : Nat) : State :=
  match g.waves with
  | w :: _ => faultGrid s g.grid (faultRepOf g w (trAccess sub va 0) w.slot0.pc)
  | [] => s

/-- The request of a refill is denied (R304, R332). -/
def siloDenied (s : State) (gi t : Nat) : State :=
  match s.gang? gi with
  | some g => (match g.trough? t with | some x => siloEnds s g 8 (siloVa g t x 0) | none => s)
  | none => s

/-- Whether the refill of a trough waits on a request already. -/
def refillWaits (s : State) (g : Gang) (t : Nat) : Bool := s.reqs.any fun r => r.waiters.contains (.silo g.id t)

/-- The refill's own access to the silo (R332): it parks as an engine does, on a request of its own or one that it joins (R303),
or ends the grid. -/
def refillAccess (s : State) (gi : Nat) (g : Gang) (t : Nat) (x : Trough) : State :=
  let va := siloVa g t x 0
  let want : Want := ⟨false, false, g.priv⟩
  match translate s g want va 64 with
  | .ok k => refill (noteAccess s g want va 64) gi t k
  | .park =>
    if refillWaits s g t then s
    else (addReq s g.die g.ctx va 2 1 ((g.waves.head?.map fun w => reqWord g w true).getD 0) (.silo g.id t)).1
  | .fail n => siloEnds s g n va

/-- Whether a silo has a slot that its trough has room for. -/
def canRefill (g : Gang) (t : Nat) : Bool :=
  match g.trough? t with
  | some x => x.silo != 0 && x.ring.length < x.slots
  | none => false

/-- Whether a refill can go on now: the gang still runs, and the refill waits on no request for its page. -/
def refills (s : State) (g : Gang) (t : Nat) : Bool :=
  (match g.st with
   | .running => true
   | .stopping _ => true
   | _ => false)
    && canRefill g t && !g.waves.isEmpty
    && (match g.trough? t with
        | some x =>
          (match translate s g ⟨false, false, g.priv⟩ (siloVa g t x 0) 64 with
           | .park => !refillWaits s g t
           | _ => true)
        | none => false)

def execSiloRefill (gang trough : Nat) (s : State) : Out :=
  .next (match s.gangIdx gang with
    | none => s
    | some gi =>
      match s.gang? gi with
      | some g =>
        (match g.trough? trough with
         | some x => if refills s g trough then refillAccess s gi g trough x else s
         | none => s)
      | none => s)

end Sys2Proof.Machine
end

