-- ==== Sys2Proof/Machine/Futures.lean ====
section
/-! DEFINITION. The words that handle futures (R188-R192). -/

namespace Sys2Proof.Machine

/-! ## FTEST -/

/-- Write a scalar register with its latch entry. -/
def sclPut (e : Env) (w : Wave) (d : SR) (x : W) : State :=
  let w := w.setSreg e.k d.toNat x false
  e.done (w.push (.scl d (w.sreg e.k d.toNat) false) false)

/-- A latch in a field of class F: its tag names no future register (R57, R20). -/
def noFutLatch (e : Env) (a : Src) : Chk State := do
  chkLatches e [⟨7, a, fun _ => false⟩]
  .ok e.pass

def execFtest (d : SR) (a : Src) (s : State) : Out :=
  onSplit (.ftest d a) s fun e => e.run <|
    match a with
    | .f f =>
      if (e.w.fut f.toNat).st == .pending then do
        chkBusy e ([], []) ([], [d.toNat]) false
        .ok (sclPut e e.w d 0)
      else do
        chkFut e f
        chkBusy e ([], []) ([], [d.toNat]) false
        .ok (sclPut e (observe e f.toNat) d (e.w.fut f.toNat).status)
    | _ => noFutLatch e a

/-! ## FWAIT -/

/-- The serial of a handle, its wave and its register (R190). -/
structure Handle where
  ser  : W
  wave : Nat
  freg : FR
  deriving DecidableEq, Repr

def handleOf (x : Nat) : Handle := ⟨BitVec.ofNat 32 (x / 2 ^ 32), x / 16 % 16, BitVec.ofNat 4 x⟩

def handleNum (h : Handle) : Nat := h.ser.toNat * 2 ^ 32 + h.wave * 16 + h.freg.toNat

/-- The scratchpad read of a handle, as an access that follows the wave's earlier ones. -/
def handleRead (e : Env) (l : Loc) : MemOp where
  id := e.w.opSeq
  slot := e.k
  act := e.act
  kind := .loadN 2
  ctr := .sp
  dst := .none
  accs := [⟨0, l, none, 0, 0, 0, 0⟩]
  left := oneLane 0
  ord := 0
  scope := 1
  col := 0
  floor := 0
  step := 0
  dcl := []
  accepted := false

/-- The handle that a waiting `FWAIT` has loaded already. -/
def waitedHandle (e : Env) : Option Handle :=
  match e.slot.st with
  | .blocked (.fwait v f ser) => some ⟨ser, v, f⟩
  | _ => none

/-- Load the 8 bytes of the handle at `l`, once (R191). -/
def loadHandle (e : Env) (l : Loc) : Chk Nat :=
  match waitedHandle e with
  | some h => .ok (handleNum h)
  | none => do
    let o := handleRead e l
    chkClear e fun q => !isPlainStore q.kind && !mayPass e.w.two o q
    .ok (bytesNat (loadBytes e.s e.gi e.g e.w o false l 8))

/-- What `FWAIT` does with the register that a handle of 8 bytes names; `TVAL` of its trap is all of them. -/
def waitHandle (e : Env) (d : SR) (x : Nat) : Chk State :=
  let h := handleOf x
  match e.g.wave? h.wave with
  | none => .error (.trap (trFuture 2 x e.act))
  | some v =>
    let x := v.fut h.freg.toNat
    if x.serial != h.ser then .ok (sclPut e e.w d 0)
    else
      match x.st with
      | .pending => .error (.wait (.fwait h.wave h.freg h.ser))
      | .empty => .ok (sclPut e e.w d 0)
      | _ => .ok (sclPut e (e.s.futSeen e.gi e.w e.act x.cls) d x.status)

def handleAsk (a : Src) (i : I25) (write : Bool) : OneAsk :=
  ⟨a, ⟨i, 8, 8, write, if write then 2 else 1, true⟩, none, ([], []), ([], []), []⟩

def execFwait (d : SR) (a : Src) (i : I25) (s : State) : Out :=
  onSplit (.fwait d a i) s fun e => e.run do
    chkCtr e .sp
    onPlace e { handleAsk a i false with wr := ([], [d.toNat]) } fun e l => do
      let h ← loadHandle e l
      waitHandle e d h

/-! ## FCANCEL -/

/-- The operation or entry that a future register stands for. -/
def isFor (wave : Nat) (f : FR) (ser : W) (wi : Nat) (fr : Option FR) (sr : W) : Bool :=
  wi == wave && fr == some f && sr == ser

/-- Ask for the cancellation of the operation that a future stands for (R192). -/
def askCancel (g : Gang) (wave : Nat) (f : FR) (ser : W) : Gang :=
  let q := mapIf (fun x : ChEntry => isFor wave f ser x.wave x.freg x.serial && x.res.isNone)
    (fun x => { x with cancel := true }) g.ch.queue
  let o := mapIf (fun x : EngOp => isFor wave f ser x.wave x.freg x.serial) (fun x => { x with cancel := true }) g.eops
  { g with eops := o, ch := { g.ch with queue := q } }

def execFcancel (a : Src) (s : State) : Out :=
  onSplit (.fcancel a) s fun e => e.run <|
    match a with
    | .f f =>
      let x := e.w.fut f.toNat
      match x.st with
      | .empty => .ok e.pass
      | .pending => .ok (e.pass.modGang e.gi fun g => askCancel g e.w.idx f x.serial)
      | _ => .ok { e with w := e.w.setFut f.toNat { x with st := .empty, status := 0 } }.pass
    | _ => noFutLatch e a

/-! ## FSTH -/

/-- `FSTH` (R190): a scratchpad store of the handle. -/
def mFsth (e : Env) (f : FR) (a : Src) (i : I25) : MemWord where
  a := a
  b := none
  q := ⟨i, 8, 8, true, 2, true⟩
  kind := .store 8
  dst := .none
  data := fun _ => (BitVec.ofNat 128 (handleNum ⟨(e.w.fut f.toNat).serial, e.w.idx, f⟩), 0, 0)
  foot := none
  rd := ([], [])
  wr := ([], [])
  eat := []

def execFsth (d : FR) (a : Src) (i : I25) (s : State) : Out :=
  onSplit (.fsth d a i) s fun e => e.run (memRun e (mFsth e d a i) Src.sz)

end Sys2Proof.Machine
end

