-- ==== Sys2Proof/Machine/EngIssue.lean ====
section
/-! DEFINITION. The words that start engine operations (R188-R205, R293): their checks, the block read at issue, the arming of
the future. -/

namespace Sys2Proof.Machine

/-! ## Arming -/

/-- Arm a future register (R190). -/
def Wave.arm (w : Wave) (f : FR) (c : PClass) : Wave := w.setFut f.toNat ⟨.pending, 0, (w.fut f.toNat).serial + 1, c⟩

/-- Classes of latches, then the future, then the latches themselves (R306). -/
def chkArmed (e : Env) (f : FR) (fs : List Fld) : Chk Unit := do
  chkAll (fun x => need (latchClass e x) (trIllegal e 2 x.code false)) fs
  chkArm e f
  chkLatches e fs

/-- A new operation of the issuing wave. -/
def newOp (e : Env) (f : FR) (kind : EngKind) (blkVa : Nat) (bsp : Bool) (body : List (Byte × Bool)) (c : PClass) :
    EngOp where
  id := e.g.nextOp
  wave := e.w.idx
  freg := some f
  serial := (e.w.fut f.toNat).serial + 1
  kind := kind
  blkVa := blkVa
  bsp := bsp
  body := body.map (·.1)
  bad := bytesBad body
  pclass := c
  floor := e.w.view c
  priv := e.priv
  waits := []
  page := 0
  denied := []
  cancel := false
  out := none
  pos := []
  prog := 0
  res := 0
  fl := 0

/-- Start an operation: the word is done, the future Pending. -/
def startOp (e : Env) (f : FR) (o : EngOp) : State :=
  ({ e with w := e.w.arm f o.pclass }).pass.modGang e.gi fun g => { g with eops := g.eops ++ [o], nextOp := g.nextOp + 1 }

/-- A poisoned operand other than a base (R189): the future becomes Failed with RESULT 3, and the word traps.
DEDUCED (log 34). -/
def poisonOp (e : Env) (f : FR) (c : PClass) (t : Trap) : State :=
  let w := e.w.arm f c
  let w := w.finish f.toNat (w.fut f.toNat).serial .failed 3
  e.trapAfter w t

/-! ## Block operands (R188) -/

def blkBaseCls (b : Blk) : Src → Bool := fun a => if b.bsp then a.sz else a.sp

def blkVa (e : Env) (b : Blk) : Nat :=
  if b.bsp then (e.ssrc .s32 b.base).1.toNat + b.disp.toNat else ((e.psrc b.base).1.toNat + b.disp.toNat) % 2 ^ 64

def blkForm (b : Blk) : I25 := if b.bsp then .spad 0 false 0 else .glob false 0 0 0 0 0

def blkBad (e : Env) (b : Blk) : Bool := if b.bsp then (e.ssrc .s32 b.base).2 else (e.psrc b.base).2

/-- Checks of a block operand of `size` bytes, aligned to its size (R168, R193). -/
def chkBlkAt (e : Env) (b : Blk) (size : Nat) : Chk One := do
  let va := blkVa e b
  let r ← reach e ⟨blkForm b, size, size, false, 1, true⟩ [(0, va)]
  match r.go with
  | x :: _ => .ok (.at' x.2.2)
  | [] => .ok (.gone (parkAll e 0 1 va))

/-- The bytes of a block as the split reads them (R193): every earlier store of its wave counts. -/
def blkBytes (e : Env) (l : Loc) (n : Nat) : List (Byte × Bool) :=
  loadBytes e.s e.gi e.g e.w (handleRead e l) false l n

/-- A word that reads a block at issue and arms `f`. -/
def withBlock (e : Env) (f : FR) (b : Blk) (size : Nat) (go : Env → Loc → Chk State) : Chk State := do
  chkArmed e f [⟨7, b.base, blkBaseCls b⟩]
  chkBusy e (srcRegs e.w e.k b.base (if b.bsp then 1 else 2)) ([], []) false
  chkPoisonS e [(srcNum e.w e.k b.base, blkBad e b)] 1
  match ← chkBlkAt e b size with
  | .gone s => .ok s
  | .at' l => go (if b.bsp then e else { e with s := noteAccess e.s e.g ⟨false, false, e.priv⟩ (blkVa e b) size }) l

/-- A block-form command. -/
def blockWord (e : Env) (f : FR) (b : Blk) (op variant : Nat) (c : PClass) : Chk State :=
  withBlock e f b 64 fun e l =>
    .ok (startOp e f (newOp e f (.block op variant) (blkVa e b) b.bsp (blkBytes e l 64) c))

def execCopyt (d : FR) (b : Blk) (s : State) : Out := onSplit (.copyt d b) s fun e => e.run (blockWord e d b 0xB5 0 .c)
def execBinopen (d : FR) (b : Blk) (s : State) : Out :=
  onSplit (.binopen d b) s fun e => e.run (blockWord e d b 0xB6 0 .b)
def execBinplay (d : FR) (b : Blk) (s : State) : Out :=
  onSplit (.binplay d b) s fun e => e.run (blockWord e d b 0xB8 0 .b)
def execXsect (d : FR) (b : Blk) (s : State) : Out := onSplit (.xsect d b) s fun e => e.run (blockWord e d b 0xB9 0 .s)
def execSmergeu (d : FR) (b : Blk) (s : State) : Out :=
  onSplit (.smergeu d b) s fun e => e.run (blockWord e d b 0xBA 0 .s)
def execTopk (d : FR) (b : Blk) (s : State) : Out := onSplit (.topk d b) s fun e => e.run (blockWord e d b 0xBB 0 .s)
def execCvtcsr (d : FR) (b : Blk) (s : State) : Out := onSplit (.cvtcsr d b) s fun e => e.run (blockWord e d b 0xBC 0 .s)
def execCvtres (d : FR) (b : Blk) (s : State) : Out := onSplit (.cvtres d b) s fun e => e.run (blockWord e d b 0xBC 1 .s)
def execTaskput (d : FR) (b : Blk) (s : State) : Out :=
  onSplit (.taskput d b) s fun e => e.run (blockWord e d b 0xBD 0 .s)
def execStsweep (d : FR) (b : Blk) (s : State) : Out :=
  onSplit (.stsweep d b) s fun e => e.run (blockWord e d b 0xBE 0 .s)
def execRinv (d : FR) (b : Blk) (s : State) : Out := onSplit (.rinv d b) s fun e => e.run (blockWord e d b 0xBF 0 .s)

/-- `HAYFILL` (R293) is privileged. -/
def execHayfill (d : FR) (b : Blk) (s : State) : Out :=
  onSplit (.hayfill d b) s fun e => e.run do
    chkPriv e
    blockWord e d b 0xE2 0 .c

/-! ## COPY (R196) -/

def copyCls (spad : Bool) : Src → Bool := fun a => if spad then a.sz else a.sp

/-- A base of `COPY` with its mark. -/
def copyBase (e : Env) (spad : Bool) (a : Src) : Nat × Bool :=
  if spad then ((e.ssrc .s32 a).1.toNat, (e.ssrc .s32 a).2) else ((e.psrc a).1.toNat, (e.psrc a).2)

def execCopy (d : FR) (dsp : Bool) (ssp : BitVec 2) (a b c : Src) (disp : BitVec 12) (s : State) : Out :=
  onSplit (.copy d dsp ssp a b c disp) s fun e => e.run do
    let sspad := ssp == 1
    chkArmed e d [⟨7, a, copyCls dsp⟩, ⟨8, b, copyCls sspad⟩, ⟨9, c, Src.gs⟩]
    let rs := cat2 (srcRegs e.w e.k a (if dsp then 1 else 2))
      (cat2 (srcRegs e.w e.k b (if sspad then 1 else 2)) (srcRegs e.w e.k c 1))
    chkBusy e rs ([], []) false
    let x := copyBase e dsp a
    let y := copyBase e sspad b
    chkPoisonS e [(srcNum e.w e.k a, x.2), (srcNum e.w e.k b, y.2)] 1
    let n := e.ssrc .s32 c
    if n.2 then .ok (poisonOp e d .c (trPoison 3 (srcNum e.w e.k c) e.act))
    else
      let dst := x.1 + disp.toNat
      .ok (startOp e d (newOp e d (.copy dsp ssp.toNat (if dsp then dst else dst % 2 ^ 64) y.1 n.1.toNat) 0 false [] .c))

/-! ## BINAPP (R199) -/

/-- The two registers above the value that hold the labels. -/
def labelRegs (e : Env) (c : Src) : VReg × VReg :=
  match tagSrc e.w e.k c with
  | .v n => (e.w.vreg (n.toNat + 1), e.w.vreg (n.toNat + 2))
  | _ => (zeroReg, zeroReg)

/-- The record of lane `l`: lane, index, value, label. -/
def binRec (e : Env) (lbl : Bool) (b c : Src) (l : Nat) : Nat × W × W × D :=
  let y := labelRegs e c
  (l, (e.vsrc .s32 b).lane l, (e.vsrc .s32 c).lane l, if lbl then joinPair (y.1.lane l) (y.2.lane l) else 0)

/-- The marked elements of index, value and label that lanes of ACT consume (R176, R189). R189 has a poisoned operand register
trap, R175 has the binning engines carry marks: the former is taken for registers. DESIGN CHOICE (log 90). -/
def binEaten (e : Env) (lbl : Bool) (b c : Src) : List Eaten :=
  let y := labelRegs e c
  let vals := (e.vsrc .s32 c).bad ||| (if lbl then y.1.bad ||| y.2.bad else 0)
  [⟨8, 3, srcNum e.w e.k b, (e.vsrc .s32 b).bad &&& e.act⟩, ⟨9, 3, srcNum e.w e.k c, vals &&& e.act⟩]

/-- The footprint check of field `C`, a latch by its tag. -/
def chkBinVal (e : Env) (lbl : Bool) (c : Src) : Chk Unit :=
  match tagSrc e.w e.k c with
  | .v n => chkFoot e 9 n.toNat (if lbl then 3 else 1)
  | _ => .ok ()

def execBinapp (lbl : Bool) (d : FR) (a b c : Src) (s : State) : Out :=
  onSplit (.binapp lbl d a b c) s fun e => e.run do
    chkFootSrc e 8 b
    chkBinVal e lbl c
    chkArmed e d [⟨7, a, Src.sp⟩, ⟨8, b, Src.gv⟩, ⟨9, c, Src.vc⟩]
    chkBusy e (cat2 (srcRegs e.w e.k a 2) (cat2 (srcRegs e.w e.k b 1) (srcRegs e.w e.k c (if lbl then 3 else 1)))) ([], []) false
    let x := e.psrc a
    chkPoisonS e [(srcNum e.w e.k a, x.2)] 1
    match chkEaten (binEaten e lbl b c) with
    | .error (.trap t) => .ok (poisonOp e d .b t)
    | _ =>
      .ok (startOp e d
        (newOp e d (.binapp lbl ((lanesOf e.act).map (binRec e lbl b c)) x.1.toNat) 0 false [] .b))

end Sys2Proof.Machine
end

