-- ==== Sys2Proof/Machine/Relation.lean ====
section
/-! DEFINITION. Label layouts, relation records, admission, stripe summaries and strip-pair decisions (R229-R238), as
functions on bytes and words. -/

namespace Sys2Proof.Machine

/-- The 16 layout bits of field `f` (R229). -/
def layBits (layout f : Nat) : Nat := layout / 2 ^ (16 * f) % 2 ^ 16

def fieldOff (layout f : Nat) : Nat := layBits layout f % 64

def fieldWidth (layout f : Nat) : Nat := layBits layout f / 256 % 32 + 1

/-- A field is valid when VALID is set and it fits (R229). -/
def fieldValid (layout f : Nat) : Bool := layBits layout f / 2 ^ 15 == 1 && fieldOff layout f + fieldWidth layout f ≤ 64

/-- `Field(x, f)`. -/
def fieldVal (layout f x : Nat) : Nat := x / 2 ^ fieldOff layout f % 2 ^ fieldWidth layout f

/-- An atom (R231). -/
structure Atom where
  kind : Nat
  side : Bool
  fq   : Nat
  fk   : Nat
  cmp  : Nat
  c    : Int
  w    : Int
  deriving DecidableEq, Repr

def atomOf (x : Nat) : Atom where
  kind := x % 8
  side := x / 8 % 2 == 1
  fq := x / 16 % 4
  fk := x / 64 % 4
  cmp := x / 256 % 8
  c := signed 16 (x / 2 ^ 16)
  w := signed 16 (x / 2 ^ 32)

/-- A relation as read from a record (R230). -/
structure Rel where
  layout : Nat
  nterm  : Nat
  terms  : List (Nat × List Atom)   -- declared atom count, atoms within 4
  deriving DecidableEq, Repr

def relOf (b : List Byte) : Rel :=
  let nterm := recNat b 8 1 % 8
  { layout := recNat b 0 8, nterm := nterm
    terms := (List.range (min nterm 4)).map fun t =>
      let n := recNat b (12 + t) 1
      (n, (List.range (min n 4)).map fun a => atomOf (recNat b (32 + 24 * t + 6 * a) 6)) }

/-- Fields that an atom names. -/
def Atom.fields (a : Atom) : List Nat := if a.kind == 3 then (if a.side then [a.fk] else [a.fq]) else [a.fq, a.fk]

def Atom.ok (layout : Nat) (a : Atom) : Bool :=
  a.kind ≤ 3 && (!(a.kind == 0 || a.kind == 3) || a.cmp ≤ 5) && a.fields.all (fieldValid layout)

/-- A record is valid (R232). -/
def Rel.ok (r : Rel) : Bool := r.nterm ≤ 4 && r.terms.all fun t => t.1 ≤ 4 && t.2.all (Atom.ok r.layout)

def nullLabel : Nat := 2 ^ 64 - 1

def cmpLbl (cmp : Nat) (x y : Int) : Bool :=
  match cmp with
  | 0 => x == y
  | 1 => x != y
  | 2 => decide (x < y)
  | 3 => decide (x ≤ y)
  | 4 => decide (y < x)
  | _ => decide (y ≤ x)

/-- `Atom(q, k, a)` (R233). -/
def Atom.holds (layout q k : Nat) (a : Atom) : Bool :=
  let x := fieldVal layout a.fq q
  let y := fieldVal layout a.fk k
  let xi : Int := x
  let yi : Int := y
  match a.kind with
  | 0 => cmpLbl a.cmp xi (yi + a.c)
  | 1 => decide (0 ≤ xi - yi + a.c) && decide (xi - yi + a.c ≤ a.w)
  | 2 => (y &&& (x ^^^ (x ||| y))) == 0
  | _ => cmpLbl a.cmp (if a.side then yi else xi) a.c

/-- `AdmitL` (R233). -/
def admitL (r : Rel) (q k : Nat) : Bool :=
  q != nullLabel && k != nullLabel && r.terms.any fun t => t.2.all (Atom.holds r.layout q k)

/-! ## Summaries (R234) -/

def minNat (d : Nat) (xs : List Nat) : Nat := xs.foldl min d
def maxNat (xs : List Nat) : Nat := xs.foldl max 0

/-- The 64 summary bytes of eight labels under a layout, SVALID set. -/
def summaryBytes (layout : Nat) (labels : List Nat) : List Byte :=
  let live := labels.filter (· != nullLabel)
  let mm (f : Nat) : List Byte :=
    let vs := live.map (fieldVal layout f)
    if fieldValid layout f then natLe 4 (minNat (2 ^ 32 - 1) vs) ++ natLe 4 (maxNat vs) else natLe 8 0
  mm 0 ++ mm 1 ++ mm 2 ++ mm 3 ++ natLe 8 (live.foldl (· ||| ·) 0) ++ natLe 8 (live.foldl (· &&& ·) (2 ^ 64 - 1))
    ++ natLe 8 layout ++ natLe 1 live.length ++ natLe 1 1 ++ natLe 6 0

/-- A summary as read. -/
structure Summ where
  mins   : List Nat
  maxs   : List Nat
  or     : Nat
  and    : Nat
  layout : Nat
  nlive  : Nat
  svalid : Nat
  deriving DecidableEq, Repr

def summOf (b : List Byte) : Summ where
  mins := (List.range 4).map fun f => recNat b (8 * f) 4
  maxs := (List.range 4).map fun f => recNat b (8 * f + 4) 4
  or := recNat b 32 8
  and := recNat b 40 8
  layout := recNat b 48 8
  nlive := recNat b 56 1
  svalid := recNat b 57 1

/-- Usable by a relation (R235). -/
def Summ.usable (s : Summ) (r : Rel) : Bool := s.svalid == 1 && s.layout == r.layout

/-! ## Decisions (R236) -/

inductive Tri
  | no | maybe | yes
  deriving DecidableEq, Repr

/-- An inconsistent summary may meet both columns of the table; a term is FALSE if some atom is FALSE, so that comes first. -/
def tri (yes no : Bool) : Tri := if no then .no else if yes then .yes else .maybe

/-- A comparison of intervals [xl, xh] and [zl, zh]. -/
def cmpTri (cmp : Nat) (xl xh zl zh : Int) : Tri :=
  match cmp with
  | 0 => tri (xl == xh && xh == zl && zl == zh) (decide (xh < zl) || decide (zh < xl))
  | 1 => tri (decide (xh < zl) || decide (zh < xl)) (xl == xh && xh == zl && zl == zh)
  | 2 => tri (decide (xh < zl)) (decide (zh ≤ xl))
  | 3 => tri (decide (xh ≤ zl)) (decide (zh < xl))
  | 4 => tri (decide (zh < xl)) (decide (xh ≤ zl))
  | _ => tri (decide (zh ≤ xl)) (decide (xh < zl))

def natAt (xs : List Nat) (i : Nat) : Nat := xs.getD i 0

/-- a AND NOT b. -/
def andNot (a b : Nat) : Nat := a &&& (b ^^^ (a ||| b))

def Atom.judge (r : Rel) (sa sb : Summ) (a : Atom) : Tri :=
  let xl : Int := natAt sa.mins a.fq
  let xh : Int := natAt sa.maxs a.fq
  let yl : Int := natAt sb.mins a.fk
  let yh : Int := natAt sb.maxs a.fk
  match a.kind with
  | 0 => cmpTri a.cmp xl xh (yl + a.c) (yh + a.c)
  | 1 => tri (decide (0 ≤ xl - yh + a.c) && decide (xh - yl + a.c ≤ a.w))
      (decide (xh - yl + a.c < 0) || decide (a.w < xl - yh + a.c))
  | 2 =>
    let f (g x : Nat) : Nat := fieldVal r.layout g x
    tri (andNot (f a.fk sb.or) (f a.fq sa.and) == 0) (andNot (f a.fk sb.and) (f a.fq sa.or) != 0)
  | _ => if a.side then cmpTri a.cmp yl yh a.c a.c else cmpTri a.cmp xl xh a.c a.c

inductive Pick
  | skip | all | check
  deriving DecidableEq, Repr

/-- `Decide` (R236). -/
def decidePair (r : Rel) (sa sb : Summ) : Pick :=
  if !(sa.usable r && sb.usable r) then .check
  else if sa.nlive == 0 || sb.nlive == 0 then .skip
  else
    let term (t : Nat × List Atom) : Tri :=
      let js := t.2.map (Atom.judge r sa sb)
      if js.contains .no then .no else if js.all (· == .yes) then .yes else .maybe
    let ts := r.terms.map term
    if ts.all (· == .no) then .skip
    else if ts.contains .yes && sa.nlive == 8 && sb.nlive == 8 then .all
    else .check

end Sys2Proof.Machine
end

