-- ==== Sys2Proof/Machine/ChIssue.lean ====
section
/-! DEFINITION. The words of the Churn and of labels (R207-R225, R242-R250) as they issue: checks, queue entries, and the words
that act at once. -/

namespace Sys2Proof.Machine

/-! ## Queued words -/

/-- Check 8 of R67 for Churn words (R208). -/
def chkChurn (e : Env) : Chk Unit := need (e.g.churn && e.g.halter == some e.w.idx) (trIllegal e 6 0 false)

/-- The checks before the operands of a queued word that arms `f` (R208, R306). -/
def chkQueued (e : Env) (f : FR) (fs : List Fld) : Chk Unit := do
  chkChurn e
  chkAll (fun x => need (latchClass e x) (trIllegal e 2 x.code false)) fs
  chkArm e f
  chkLatches e fs

/-- A full queue (R209). -/
def chkRoom (e : Env) : Chk Unit := needWait (e.g.ch.unf < 16) .queueFull

/-- A new entry of the issuing wave; one that arms no future has `f = none`. -/
def newEntry (e : Env) (f : Option FR) (kind : ChKind) : ChEntry :=
  { resolveEntry e.g.nextOp e.w.idx 0 with
    freg := f
    serial := match f with | some f => (e.w.fut f.toNat).serial + 1 | none => 0
    kind := kind, priv := e.priv, floor := e.w.view .m, mrow := e.g.ch.mrow, ncol := e.g.ch.ncol }

/-- Put an entry into the queue. -/
def enqueue (s : State) (gi : Nat) (q : ChEntry) : State :=
  s.modGang gi fun g => { g with nextOp := g.nextOp + 1, ch := { g.ch with queue := g.ch.queue ++ [q] } }

/-- Queue an entry that arms a future; the word is done. -/
def startEntry (e : Env) (f : FR) (q : ChEntry) : State := enqueue ({ e with w := e.w.arm f .m }).pass e.gi q

/-- A tile-form word (R210, R212). -/
def tileWord (e : Env) (f : FR) (b : Blk) (kind : ChKind) : Chk State := do
  chkQueued e f [⟨7, b.base, blkBaseCls b⟩]
  chkBusy e (srcRegs e.w e.k b.base (if b.bsp then 1 else 2)) ([], []) false
  chkPoisonS e [(srcNum e.w e.k b.base, blkBad e b)] 1
  match ← chkBlkAt e b 128 with
  | .gone s => .ok s
  | .at' l => do
    chkRoom e
    let bs := blkBytes e l 128
    let e := if b.bsp then e else { e with s := noteAccess e.s e.g ⟨false, false, e.priv⟩ (blkVa e b) 128 }
    .ok (startEntry e f { newEntry e (some f) kind with
      blkVa := blkVa e b, bsp := b.bsp, hasBlk := true, blk := bs.map (·.1), bad := bytesBad (bs.take 120) })

def execCmma (z : Bool) (d : FR) (b : Blk) (acc : BitVec 2) (s : State) : Out :=
  onSplit (.cmma z d b acc) s fun e => e.run (tileWord e d b (.mma none z acc.toNat))

def execCmmas (p : Sparse) (z : Bool) (d : FR) (b : Blk) (acc : BitVec 2) (s : State) : Out :=
  onSplit (.cmmas p z d b acc) s fun e => e.run (tileWord e d b (.mma (some p) z acc.toNat))

def execCstore (d : FR) (b : Blk) (acc : BitVec 2) (s : State) : Out :=
  onSplit (.cstore d b acc) s fun e => e.run (tileWord e d b (.store acc.toNat))

def execCload (d : FR) (b : Blk) (acc : BitVec 2) (s : State) : Out :=
  onSplit (.cload d b acc) s fun e => e.run (tileWord e d b (.load acc.toNat))

/-- A register-form word without operands. -/
def bankWord (e : Env) (f : FR) (kind : ChKind) : Chk State := do
  chkQueued e f []
  chkRoom e
  .ok (startEntry e f (newEntry e (some f) kind))

def execCzero (d : FR) (acc : BitVec 2) (s : State) : Out :=
  onSplit (.czero d acc) s fun e => e.run (bankWord e d (.zero acc.toNat))

def execCmova (add : Bool) (d : FR) (dst src : BitVec 2) (s : State) : Out :=
  onSplit (.cmova add d dst src) s fun e => e.run (bankWord e d (.mova add dst.toNat src.toNat))

/-- `CSCALE` (R221): its operands are read as FP32 at issue. -/
def execCscale (d : FR) (a b : Src) (acc : BitVec 2) (rm : Rm) (s : State) : Out :=
  onSplit (.cscale d a b acc rm) s fun e => e.run do
    chkQueued e d [⟨7, a, Src.gs⟩, ⟨8, b, Src.gs⟩]
    chkBusy e (cat2 (srcRegs e.w e.k a 1) (srcRegs e.w e.k b 1)) ([], []) false
    let x := e.ssrc .f32 a
    let y := e.ssrc .f32 b
    if x.2 then .ok (poisonOp e d .m (trPoison 3 (srcNum e.w e.k a) e.act))
    else if y.2 then .ok (poisonOp e d .m (trPoison 3 (srcNum e.w e.k b) e.act))
    else do
      chkRoom e
      .ok (startEntry e d (newEntry e (some d) (.scale acc.toNat x.1 y.1 rm)))

/-- `CEPI` (R221): `zero` in field `A` means no bias. -/
def execCepi (relu : Bool) (d : FR) (a : Src) (acc : BitVec 2) (s : State) : Out :=
  onSplit (.cepi relu d a acc) s fun e => e.run do
    chkQueued e d [⟨7, a, Src.spz⟩]
    chkBusy e (srcRegs e.w e.k a 2) ([], []) false
    let x := e.psrc a
    chkPoisonS e [(srcNum e.w e.k a, x.2)] 1
    chkRoom e
    .ok (startEntry e d (newEntry e (some d)
      (.epi acc.toNat relu (if a == .x .zero then none else some x.1.toNat))))

/-! ## Speculation frames (R224, R225) -/

def execCspec (nw : Bool) (d : SR) (v0 : Bool) (b0 : BitVec 2) (v1 : Bool) (b1 : BitVec 2) (s : State) : Out :=
  onSplit (.cspec nw d v0 b0 v1 b1) s fun e => e.run do
    chkChurn e
    chkBusy e ([], []) ([], [d.toNat]) false
    chkRoom e
    let opens := !e.g.ch.frameAt
    let q := newEntry e none (.spec (if v0 then some b0 else none) (if v1 then some b1 else none) opens)
    let s := (enqueue e.s e.gi q).modGang e.gi fun g => { g with ch := { g.ch with frameAt := true } }
    let w2 := e.w.setSreg e.k d.toNat (boolW opens) false
    .ok ({ e with s := s }.done ((if nw then e.w else w2).push (.scl d (w2.sreg e.k d.toNat) false) nw))

def execCresolve (a : Src) (s : State) : Out :=
  onSplit (.cresolve a) s fun e => e.run do
    chkChurn e
    chkFutSrc e a
    chkLatches e [⟨7, a, Src.gsf⟩]
    chkBusy e (srcRegs e.w e.k a 1) ([], []) true
    let x := e.ssrc .s32 a
    chkPoisonS e [(srcNum e.w e.k a, x.2)] 3
    chkRoom e
    let e := observeSrc e a
    .ok ((enqueue e.pass e.gi (newEntry e none (.resolve x.1))).modGang e.gi fun g =>
      { g with ch := { g.ch with frameAt := false } })

/-! ## Banks (R222) -/

/-- The bank that `n` names: inside a frame a shadowed bank means its shadow (R224). -/
def Churn.bank (c : Churn) (n : Nat) : List W :=
  match c.frame with
  | some f =>
    if f.m0 == some (BitVec.ofNat 2 n) then c.saccs.getD 0 []
    else if f.m1 == some (BitVec.ofNat 2 n) then c.saccs.getD 1 []
    else c.accs.getD n []
  | none => c.accs.getD n []

def Churn.setBank (c : Churn) (n : Nat) (x : List W) : Churn :=
  match c.frame with
  | some f =>
    if f.m0 == some (BitVec.ofNat 2 n) then { c with saccs := setAt c.saccs 0 x }
    else if f.m1 == some (BitVec.ofNat 2 n) then { c with saccs := setAt c.saccs 1 x }
    else { c with accs := setAt c.accs n x }
  | none => { c with accs := setAt c.accs n x }

/-- Earlier entries are not finished (R209). -/
def chkIdle (e : Env) : Chk Unit := needWait (e.g.ch.unf == 0) .churnBusy

/-- The element index of a lane. -/
def bankIdx (x : W) (l : Nat) : Nat := (x.toNat + l) % 4096

def execCrdv (nw : Bool) (d : VR) (b : Src) (acc : BitVec 2) (s : State) : Out :=
  onSplit (.crdv nw d b acc) s fun e => e.run do
    chkFoot e 6 d.toNat 1
    chkChurn e
    chkLatches e [⟨8, b, Src.gs⟩]
    chkBusy e (srcRegs e.w e.k b 1) ([d.toNat], []) false
    let x := e.ssrc .s32 b
    chkPoisonS e [(srcNum e.w e.k b, x.2)] 3
    chkIdle e
    let bank := e.g.ch.bank acc.toNat
    let r := mergeReg (e.w.vreg d.toNat) e.act (laneList.map fun l => bank.getD (bankIdx x.1 l) 0) 0
    .ok (e.done ((if nw then e.w else e.w.setVreg d.toNat r).push (.vec d r) nw))

/-- Elements of a bank after lanes of a register were written into it. -/
def bankPut (bank : List W) (x : W) (r : VReg) : List Nat → List W
  | [] => bank
  | l :: ls => bankPut (setAt bank (bankIdx x l) (r.lane l)) x r ls

def execCwrv (d : VR) (b : Src) (acc : BitVec 2) (s : State) : Out :=
  onSplit (.cwrv d b acc) s fun e => e.run do
    chkFoot e 6 d.toNat 1
    chkChurn e
    chkLatches e [⟨8, b, Src.gs⟩]
    chkBusy e (cat2 ([d.toNat], []) (srcRegs e.w e.k b 1)) ([], []) false
    let x := e.ssrc .s32 b
    chkPoisonM e.act [(3, d.toNat, (e.w.vreg d.toNat).bad), (3, srcNum e.w e.k b, boolMask x.2)]
    chkIdle e
    .ok (e.pass.modGang e.gi fun g =>
      { g with ch := g.ch.setBank acc.toNat (bankPut (g.ch.bank acc.toNat) x.1 (e.w.vreg d.toNat) (lanesOf e.act)) })

/-- The shadow maps of the frame that is open as counted at issue (R223). -/
def Churn.mapAt (c : Churn) : Option (BitVec 2) × Option (BitVec 2) :=
  if !c.frameAt then (none, none)
  else
    let specs := c.queue.filterMap fun q =>
      match q.kind, q.res with
      | .spec m0 m1 true, none => some (m0, m1)
      | _, _ => none
    match specs.getLast?, c.frame with
    | some m, _ => m
    | none, some f => (f.m0, f.m1)
    | none, none => (none, none)

/-- `CQUERY` (R223). -/
def queryWord (c : Churn) : W :=
  let m := c.mapAt
  let f (x : Option (BitVec 2)) (bit sh : Nat) : Nat := match x with | some b => 2 ^ bit + b.toNat * 2 ^ sh | none => 0
  BitVec.ofNat 32 (min c.unf 16 + c.frameAt.toNat * 32 + f m.1 6 8 + f m.2 7 10)

def execCquery (nw : Bool) (d : SR) (s : State) : Out :=
  onSplit (.cquery nw d) s fun e => e.run do
    chkBusy e ([], []) ([], [d.toNat]) false
    let w2 := e.w.setSreg e.k d.toNat (if e.g.churn then queryWord e.g.ch else 0) false
    .ok (e.done ((if nw then e.w else w2).push (.scl d (w2.sreg e.k d.toNat) false) nw))

/-! ## Relations and label stripes (R244-R246) -/

/-- A queued word whose block is read when its entry executes: at issue only its alignment counts (R243, R245). -/
def chkStripe (e : Env) (f : FR) (b : Blk) (fs : List Fld) (regs : List Nat × List Nat) : Chk Unit := do
  chkQueued e f (⟨7, b.base, blkBaseCls b⟩ :: fs)
  chkBusy e (cat2 (srcRegs e.w e.k b.base (if b.bsp then 1 else 2)) regs) ([], []) false
  chkPoisonS e [(srcNum e.w e.k b.base, blkBad e b)] 1
  need (blkVa e b % 128 == 0) (trAlign 0 (blkVa e b) e.act)

def execRelld (d : FR) (b : Blk) (slot : BitVec 2) (s : State) : Out :=
  onSplit (.relld d b slot) s fun e => e.run do
    chkStripe e d b [] ([], [])
    chkRoom e
    .ok (startEntry e d (newEntry e (some d) (.relld slot.toNat (blkVa e b) b.bsp)))

def execLblsum (d : FR) (b : Blk) (slot : BitVec 2) (n : Src) (s : State) : Out :=
  onSplit (.lblsum d b slot n) s fun e => e.run do
    chkStripe e d b [⟨8, n, Src.gs⟩] (srcRegs e.w e.k n 1)
    let x := e.ssrc .s32 n
    if x.2 then .ok (poisonOp e d .m (trPoison 3 (srcNum e.w e.k n) e.act))
    else do
      chkRoom e
      .ok (startEntry e d (newEntry e (some d) (.lblsum slot.toNat (blkVa e b) b.bsp x.1.toNat)))

/-- Address of label `n` of the stripe at `b` (R234). -/
def labelAddr (spad : Bool) (b n : Nat) : Nat :=
  let a := b + 128 * (n / 8) + 8 * (n % 8)
  if spad then a else a % 2 ^ 64

/-- Addresses of the lanes' labels, once the stripe base is found aligned (R246). -/
def labelLanes (e : Env) (i : I25) (a b : Src) : Chk (List (Nat × Nat)) := do
  let base := addrVal i (baseVal e a i).1 0
  need (base % 128 == 0) (trAlign 0 base e.act)
  .ok ((lanesOf e.act).map fun l => (l, labelAddr (isSpadForm i) base (idxVal e b l)))

/-- `LBLLD` and `LBLST` on their lanes. -/
def labelRun (e : Env) (m : MemWord) (b : Src) : Chk State := do
  memFoot e m
  chkChurn e
  memPre e m Src.mi
  let as ← labelLanes e m.q.i m.a b
  let r ← memReach e m as
  .ok (memApply e m r)

def execLblld (d : VR) (a b : Src) (i : I25) (s : State) : Out :=
  onSplit (.lblld d a b i) s fun e => e.run (labelRun e (vecLoad d a b i 8 2 (.loadN 2) false) b)

def execLblst (d : VR) (a b : Src) (i : I25) (s : State) : Out :=
  onSplit (.lblst d a b i) s fun e => e.run (labelRun e { vecStore e.w d a b i 8 2 with kind := .lblst } b)

/-! ## LBLLD.adm (R246) -/

/-- A label that a lane needs: its address and what its translation gives. -/
structure LabelAt where
  va : Nat
  tr : Tr
  sp : Bool
  deriving DecidableEq, Repr

/-- Where label `n` of a stripe of a tile block lies: `off` is the field of its address, `lay` of its layout. -/
def labelPlace (e : Env) (blk : List Byte) (off lay n : Nat) : LabelAt :=
  let sp := recNat blk lay 1 % 4
  let base := recNat blk off 8
  let va := labelAddr (sp != 0) (if sp == 1 then base % 2 ^ 20 else base) n
  match sp with
  | 0 => ⟨va, translate e.s e.g ⟨false, false, e.priv⟩ va 8, false⟩
  | 1 => ⟨va, if va + 8 ≤ e.g.spadLen then .ok va else .fail 1, true⟩
  | 2 => ⟨va, if va + 8 ≤ Config.hayBytes then .ok (Config.hayKey e.g.die va) else .fail 1, false⟩
  | _ => ⟨va, .fail 1, false⟩

def LabelAt.loc (x : LabelAt) (key : Nat) : Loc := if x.sp then .spad key else .mem key

/-- The label's bytes with poison, as the split's own loads see them. -/
def LabelAt.read (e : Env) (x : LabelAt) : List (Byte × Bool) :=
  match x.tr with
  | .ok k => loadBytes e.s e.gi e.g e.w (handleRead e (x.loc k)) false (x.loc k) 8
  | _ => []

/-- Label reads of global memory count as accesses. -/
def noteLabel (e : Env) (s : State) (x : LabelAt) : State :=
  match x.tr with
  | .ok k => if x.sp || Config.hayKey 0 0 ≤ k then s else noteAccess s e.g ⟨false, false, e.priv⟩ x.va 8
  | _ => s

/-- The lanes that a word decides: those below N, when the row lies below M (R246). -/
def admLanes (e : Env) (blk : List Byte) (row : Nat) : List Nat :=
  if row < recNat blk 12 2 then (lanesOf e.act).filter fun l => l < min (recNat blk 14 2) 64 else []

/-- The result register: `out` on the lanes of ACT, an untagged latch entry (R243). -/
def admWrite (e : Env) (d : VR) (out : Mask) : State :=
  let r := mergeReg (e.w.vreg d.toNat) e.act (laneList.map fun l => boolW (out.getLsbD l)) 0
  e.done ((e.w.setVreg d.toNat r).pushNone)

/-- Park the whole split on every page that a needed label waits for. -/
def admPark (e : Env) (ls : List LabelAt) : State :=
  let vas := ls.filterMap fun x => if trParks x.tr then some x.va else none
  let r := postParks e.s e 0 1 (vas.map fun va => (lowLane e.act, va))
  parkLanes r.1 e e.act (r.2.map fun p => { p with lanes := e.act })

/-- Decide the lanes `ls` under a relation (R233, R246). DEDUCED (log 53): a stripe base (ALBL, BLBL) of the block that is no
multiple of 128 has no future to report ERRC 2 by (R13); the word traps `ALIGN` SUB 0 with the base in `TVAL`. -/
def admDecide (e : Env) (d : VR) (blk : List Byte) (rel : Rel) (row : Nat) (ls : List Nat) : Chk State := do
  let q := labelPlace e blk 80 49 row
  let ks := ls.map fun l => (l, labelPlace e blk 88 53 l)
  let ab (off lay : Nat) : Nat := if recNat blk lay 1 % 4 == 1 then recNat blk off 8 % 2 ^ 20 else recNat blk off 8
  need (ab 80 49 % 128 == 0) (trAlign 0 (ab 80 49) e.act)
  need (ab 88 53 % 128 == 0) (trAlign 0 (ab 88 53) e.act)
  match trFailSub q.tr with
  | some n => .error (.trap (trAccess n q.va e.act))
  | none => .ok ()
  match ks.find? fun x => (trFailSub x.2.tr).isSome with
  | some x =>
    .error (.trap (trAccess ((trFailSub x.2.tr).getD 0) x.2.va
      (lanesIn ((ks.filter fun y => (trFailSub y.2.tr).isSome).map fun y => (y.1, 0)))))
  | none => .ok ()
  if trParks q.tr || ks.any fun x => trParks x.2.tr then .ok (admPark e (q :: ks.map (·.2)))
  else do
    let e := { e with s := (q :: ks.map (·.2)).foldl (noteLabel e) e.s }
    let qb := q.read e
    let bad := ks.filter fun x => bytesBad qb || bytesBad (x.2.read e)
    match bad with
    | x :: _ =>
      .error (.trap ⟨6, 0, 0, BitVec.ofNat 64 (if bytesBad qb then q.va else x.2.va),
        lanesIn (bad.map fun y => (y.1, 0))⟩)
    | [] =>
      .ok (admWrite e d (maskOf fun l => ks.any fun x => x.1 == l && admitL rel (bytesNat qb) (bytesNat (x.2.read e))))

/-- The effect of `LBLLD.adm` once its block is read. -/
def admRun (e : Env) (d : VR) (blk : List Byte) (row : Nat) : Chk State :=
  let ctl := recNat blk 8 4
  let ls := admLanes e blk row
  if ctl / 2 % 2 == 0 then .ok (admWrite e d (maskOf fun l => ls.contains l))
  else
    match (e.g.ch.rels[ctl / 4 % 4]?).join, ls with
    | none, _ => .ok (admWrite e d 0)
    | some _, [] => .ok (admWrite e d 0)
    | some r, ls => admDecide e d blk (relOf r) row ls

def execLblldAdm (d : VR) (b : Blk) (row : Src) (s : State) : Out :=
  onSplit (.lblldAdm d b row) s fun e => e.run do
    chkFoot e 6 d.toNat 1
    chkChurn e
    chkLatches e [⟨7, b.base, blkBaseCls b⟩, ⟨8, row, Src.gs⟩]
    chkBusy e (cat2 (srcRegs e.w e.k b.base (if b.bsp then 1 else 2)) (srcRegs e.w e.k row 1)) ([d.toNat], []) false
    chkPoisonS e [(srcNum e.w e.k b.base, blkBad e b)] 1
    let x := e.ssrc .s32 row
    chkPoisonS e [(srcNum e.w e.k row, x.2)] 3
    chkIdle e
    match ← chkBlkAt e b 128 with
    | .gone s => .ok s
    | .at' l => do
      let bs := blkBytes e l 128
      need (!bytesBad (bs.take 120)) (trPoison 3 (blkVa e b) e.act)
      admRun e d (bs.map (·.1)) x.1.toNat

/-! ## Draft frames (R248-R250) -/

/-- `DRAFT` (R249). -/
def execDraft (nw : Bool) (d : SR) (a b c : Src) (n : BitVec 8) (s : State) : Out :=
  onSplit (.draft nw d a b c n) s fun e => e.run do
    chkChurn e
    chkLatches e [⟨7, a, Src.sp⟩, ⟨8, b, Src.gs⟩, ⟨9, c, Src.gs⟩]
    chkBusy e (cat2 (srcRegs e.w e.k a 2) (cat2 (srcRegs e.w e.k b 1) (srcRegs e.w e.k c 1))) ([], [d.toNat]) false
    let x := e.psrc a
    let y := e.ssrc .s32 b
    let z := e.ssrc .s32 c
    chkPoisonS e [(srcNum e.w e.k a, x.2)] 1
    chkPoisonS e [(srcNum e.w e.k b, y.2), (srcNum e.w e.k c, z.2)] 3
    let code : Nat := if e.g.draft.isSome then 0
      else if z.1 == 0 || 64 < z.1.toNat || x.1.toNat % 128 != 0 then 2 else 1
    let s := if code != 1 then e.s
      else e.s.modGang e.gi fun g => { g with
        draft := some ⟨x.1, y.1, z.1.toNat, n.toNat, g.waves.map (·.rngctr)⟩ }
    let w2 := e.w.setSreg e.k d.toNat (BitVec.ofNat 32 code) false
    .ok ({ e with s := s }.done ((if nw then e.w else w2).push (.scl d (w2.sreg e.k d.toNat) false) nw))

/-- Every wave with lanes left takes its counter of the draft frame, `n` positions on (R250). -/
def acceptWaves (g : Gang) (f : Draft) (n : Nat) : Gang :=
  { g with
    draft := none
    waves := (g.waves.zip f.qs).map fun p =>
      if p.1.ended || p.1.exited == allLanes then p.1
      else { p.1 with rngctr := p.2 + BitVec.ofNat 64 (n * f.s) } }

/-- `ACCEPT` (R250). -/
def execAccept (d : FR) (a : Src) (s : State) : Out :=
  onSplit (.accept d a) s fun e => e.run do
    chkQueued e d [⟨7, a, Src.gs⟩]
    chkBusy e (srcRegs e.w e.k a 1) ([], []) false
    let x := e.ssrc .s32 a
    if x.2 then .ok (poisonOp e d .m (trPoison 3 (srcNum e.w e.k a) e.act))
    else do
      chkRoom e
      let n := x.1.toNat
      match e.g.draft with
      | some f =>
        if e.g.ch.frameAt || f.nd < n then
          .ok (startEntry e d (newEntry e (some d) (.accept false 0 0 0 0)))
        else
          let s := startEntry e d (newEntry e (some d) (.accept true f.lbase.toNat f.seq.toNat n f.nd))
          .ok (s.modGang e.gi fun g => acceptWaves g f n)
      | none => .ok (startEntry e d (newEntry e (some d) (.accept false 0 0 0 0)))

end Sys2Proof.Machine
end

