-- ==== Sys2Proof/Machine/EngMem.lean ====
section
/-! DEFINITION. How asynchronous operations reach memory (R189-R195, R215, R285-R289, R376), and what ends them (R92, R192,
R194). -/

namespace Sys2Proof.Machine

/-- Why an operation does not go on: a page that is not resident, or an error code of R194. -/
inductive EStop
  | park (va : Nat) (write : Bool)
  | fail (errc : Nat)
  deriving DecidableEq, Repr

/-- What an operation has done so far: the state, PROG, RESULT, its own flags (R92). -/
structure ESt where
  s    : State
  prog : Nat
  res  : Nat
  fl   : Flags

abbrev EngM := EStateM EStop ESt

/-- The unit that an operation runs for: its gang, whether it is privileged, its path class, the serial before which it sees
every write, the page at which it stops again if it is only to be ended where it had parked, and the state at its start. -/
structure EEnv where
  gi    : Nat
  g     : Gang
  priv  : Bool
  cls   : PClass
  floor : Nat
  halt  : Option Nat
  s0    : State

/-- Class M reads through operand buffers (R255). -/
def EEnv.m (v : EEnv) : Bool := v.cls == .m

def eFail {α : Type} (n : Nat) : EngM α := throw (.fail n)

def eNeed (ok : Bool) (errc : Nat) : EngM Unit := if ok then pure () else eFail errc

def eMod (f : State → State) : EngM Unit := modify fun x => { x with s := f x.s }

def eProg (n : Nat) : EngM Unit := modify fun x => { x with prog := n }

def eRes (n : Nat) : EngM Unit := modify fun x => { x with res := n }

def eFlags (f : Flags) : EngM Unit := modify fun x => { x with fl := x.fl ||| f }

/-- Do something for each number of a list. -/
def eEach (f : Nat → EngM Unit) : List Nat → EngM Unit
  | [] => pure ()
  | i :: is => do f i; eEach f is

/-- Collect something for each number of a list. -/
def eMap {α : Type} (f : Nat → EngM α) : List Nat → EngM (List α)
  | [] => pure []
  | i :: is => do
    let x ← f i
    let xs ← eMap f is
    pure (x :: xs)

/-! ## Places -/

/-- The place of `n` bytes at an address of a space: 0 global, 1 scratchpad, 2 Hayloft (R189, R195). -/
def eAddr (v : EEnv) (sp a n : Nat) (write : Bool) : EngM Loc := do
  let x ← get
  match sp with
  | 1 => if a + n ≤ v.g.spadLen then pure (.spad a) else eFail 1
  | 2 => if a + n ≤ Config.hayBytes then pure (.mem (Config.hayKey v.g.die a)) else eFail 1
  | _ =>
    let va := a % 2 ^ 64
    if v.halt == some (va / 2 ^ 16) then throw (.park va write)
    match translate x.s v.g ⟨write, false, v.priv⟩ va n with
    | .ok k => pure (.mem k)
    | .park => throw (.park va write)
    | .fail _ => eFail 1

/-- The place of an access, which finds its lines under their keys (R316). -/
def eLoc (v : EEnv) (sp a n : Nat) (write : Bool) : EngM Loc := do
  let l ← eAddr v sp a n write
  if sp == 0 then eMod fun s => noteTag s v.g write (a % 2 ^ 64) n
  pure l

/-! ## Reads -/

/-- The number of a class for the free choice below. -/
def PClass.code : PClass → Nat
  | .v => 0
  | .c => 1
  | .m => 2
  | .b => 3
  | .s => 4
  | .h => 5

/-- A byte of memory as a command of a class finds it: an older copy of its line that nothing has published to the class may
be taken (R256, R262), one choice for each write that left one. DESIGN CHOICE (log 5). -/
def agedByte (v : EEnv) (s : State) (key : Nat) : Byte :=
  match oldFor s v.cls v.floor key with
  | some o => if Config.useCopy (8 * o.serial + v.cls.code) then o.bytes.getD (key % 128) 0 else s.mem.get key
  | none => s.mem.get key

/-- Line number under which the operand buffers hold the decoded view line at a line of view addresses (R288). -/
def viewLine (line : Nat) : Nat := 2 ^ 60 + line

/-- Before a read in class M of a line: a held copy may be kept, else the operand buffer takes the line as `bytes` gives it, so
that no later read finds an older one (R255, R256). DESIGN CHOICE (log 5). -/
def fillObuf (v : EEnv) (s : State) (line : Nat) (bytes : List Byte) : State :=
  let byre := v.g.byreId
  match s.obuf.find? fun c => c.byre == byre && c.key == line with
  | some c =>
    if v.floor ≤ c.serial && Config.useCopy s.freeCtr then s.took
    else
      { s.took with obuf := ⟨byre, line, bytes, s.fills⟩ :: s.obuf.filter fun c => !(c.byre == byre && c.key == line) }
  | none => { s with obuf := ⟨byre, line, bytes, s.fills⟩ :: s.obuf }

/-- A held byte of an operand buffer. -/
def obufByte (s : State) (byre line i : Nat) : Option Byte :=
  (s.obuf.find? fun c => c.byre == byre && c.key == line).map fun c => c.bytes.getD i 0

/-- Bytes at a place with their poison. -/
def bytesAt (v : EEnv) (s : State) (l : Loc) (n : Nat) : List (Byte × Bool) :=
  (List.range n).map fun i =>
    match l.add i with
    | .mem k =>
      (if v.m then (obufByte s v.g.byreId (k / 128) (k % 128)).getD (s.mem.get k) else agedByte v s k,
        s.memBad.contains (k / 8))
    | .spad o => (s.getByte v.gi (.spad o), s.locBad v.gi (.spad o))

/-- Bytes of memory with their poison, as the LLC slice holds them (R284, R288). -/
def sliceBytes (s : State) (a n : Nat) : List (Byte × Bool) :=
  (List.range n).map fun i => (s.mem.get (a + i), s.memBad.contains ((a + i) / 8))

/-- The lines of `n` bytes from `key`. -/
def lineRange (key n : Nat) : List Nat := (List.range ((key + n + 127) / 128 - key / 128)).map (key / 128 + ·)

def eBytes (v : EEnv) (l : Loc) (n : Nat) : EngM (List (Byte × Bool)) := do
  match l with
  | .mem k =>
    if v.m then eMod fun s => (lineRange k n).foldl (fun s line =>
      fillObuf v s line ((List.range 128).map fun i => agedByte v s (128 * line + i))) s
  | .spad _ => pure ()
  let x ← get
  pure (bytesAt v x.s l n)

def eReadRaw (v : EEnv) (sp a n : Nat) : EngM (List (Byte × Bool)) := do
  let l ← eLoc v sp a n false
  eBytes v l n

/-- A little-endian number, consumed: poison fails the operation with ERRC 3 (R176, R194). -/
def eNum (v : EEnv) (sp a n : Nat) : EngM Nat := do
  let bs ← eReadRaw v sp a n
  eNeed (!bytesBad bs) 3
  pure (bytesNat bs)

def eNumLoc (v : EEnv) (l : Loc) (n : Nat) : EngM Nat := do
  let bs ← eBytes v l n
  eNeed (!bytesBad bs) 3
  pure (bytesNat bs)

/-! ## Writes -/

def marked (l : Loc) (bs : List (Byte × Bool)) : List StByte :=
  (bs.zip (List.range bs.length)).map fun p => ⟨l.add p.2, p.1.1, p.1.2⟩

/-- Class M writes keep the Byre's own operand lines current. -/
def updObuf (s : State) (byre : Nat) (bs : List StByte) : State :=
  bs.foldl (fun s b => match b.loc with | .mem k => { s with obuf := updLines s.obuf byre k b.byte } | .spad _ => s) s

/-- Store bytes at a place, in the class of the command. No Byre has number 320, so L1 copies stay as they are until a fence
or an acquire. -/
def ePut (v : EEnv) (l : Loc) (bs : List (Byte × Bool)) : EngM Unit :=
  eMod fun s =>
    let m := marked l bs
    let s := storeAs s v.gi 320 v.cls m
    if v.m then updObuf s v.g.byreId m else s

def clean (bs : List Byte) : List (Byte × Bool) := bs.map fun b => (b, false)

def eWrite (v : EEnv) (sp a : Nat) (bs : List (Byte × Bool)) : EngM Unit := do
  let l ← eLoc v sp a bs.length true
  ePut v l bs

def eWriteNum (v : EEnv) (sp a n x : Nat) : EngM Unit := eWrite v sp a (clean (natLe n x))

/-! ## Format windows (R285-R288) -/

structure Window where
  base   : Nat
  rlen   : Nat
  scl    : Nat
  cols   : Nat
  sfmt   : Nat
  vfmt   : Nat
  scaled : Bool
  layout : Nat
  deriving DecidableEq, Repr

/-- The formats of R61 by code. -/
def tyOfCode (n : Nat) : Option Ty :=
  match n with
  | 0 => some .s32
  | 1 => some .u32
  | 2 => some .f32
  | 3 => some .f16
  | 4 => some .bf16
  | 5 => some .e4m3
  | 6 => some .e5m2
  | 7 => some .s16
  | 8 => some .u16
  | 9 => some .s8
  | 10 => some .u8
  | 11 => some .l6
  | 12 => some .h1
  | 13 => some .h2
  | 14 => some .h4
  | 15 => some .h8
  | _ => none

def isFpCode (n : Nat) : Bool := 2 ≤ n && n ≤ 6

def isHCode (n : Nat) : Bool := 12 ≤ n && n ≤ 15

def scalable (n : Nat) : Bool := n == 5 || n == 6 || n == 11 || n == 14

/-- Setting `i`, if it is enabled and valid (R285). A format code outside its list makes it invalid. -/
def window (s : State) (i : Nat) : Option Window :=
  let a := Config.windowBase + 32 * i
  let num (off n : Nat) : Nat := s.mem.num (a + off) n
  let b30 := num 30 1
  let w : Window := ⟨num 0 8 / 2 ^ 16 * 2 ^ 16, num 8 8 / 2 ^ 16 * 2 ^ 16, num 16 8, num 24 4, num 28 1, num 29 1,
    b30 / 4 % 2 == 1, b30 % 4⟩
  let ok := b30 / 128 == 1 && (isFpCode w.sfmt || w.sfmt == 11 || isHCode w.sfmt) && isFpCode w.vfmt
    && (w.layout != 3 || isHCode w.sfmt) && (!w.scaled || scalable w.sfmt) && (w.layout != 1 || w.cols % 64 == 0)
    && (w.layout != 2 || w.cols % 32 == 0) && (w.layout == 0 || w.cols != 0)
  if ok then some w else none

/-- Bytes of a view element. -/
def fpWidth (code : Nat) : Nat := if code == 2 then 4 else if code ≤ 4 then 2 else 1

/-- Raw index of view element `i` (R286). -/
def rawIdx (w : Window) (i : Nat) : Nat :=
  let c := w.cols
  let r := i / c
  let k := i % c
  if w.layout == 1 then
    4096 * (r / 64 * (c / 64) + k / 64) + 64 * (8 * (r / 8 % 8) + k / 8 % 8) + 8 * (r % 8) + k % 8
  else if w.layout == 2 then 4 * c * (r / 4) + 32 * (4 * (k / 32) + r % 4) + k % 32
  else i

/-- Byte span of raw element `x`, from BASE: first byte and length. -/
def rawSpan (w : Window) (x : Nat) : Nat × Nat :=
  if w.sfmt == 11 then (x / 32 * 24, 24)
  else if isHCode w.sfmt then
    let n := 2 ^ (w.sfmt - 12)
    if w.layout == 3 then (x / 32 * 4 * n, 4 * n) else (x * n / 8, 1)
  else (x * fpWidth w.sfmt, fpWidth w.sfmt)

/-- The bytes of a raw element proper: for packed L6 those that its six bits touch. -/
def rawOwn (w : Window) (x : Nat) : Nat × Nat :=
  if w.sfmt == 11 then
    let b := 6 * (x % 32)
    (x / 32 * 24 + b / 8, (b + 5) / 8 - b / 8 + 1)
  else rawSpan w x

/-- A view address lies in a window if its element exists (R286). -/
def Window.covers (w : Window) (a : Nat) : Bool :=
  w.base ≤ a &&
    let o := rawOwn w (rawIdx w ((a - w.base) / fpWidth w.vfmt))
    o.1 + o.2 ≤ w.rlen

/-- The window of a view address: the lowest-numbered one that covers it. DEDUCED (log 45). -/
def windowAt (s : State) (a : Nat) : Option Window :=
  ((List.range 32).filterMap (window s)).find? fun w => w.covers a

/-- The raw code of element `x` from the bytes of its span (R80-R82). -/
def rawCode (w : Window) (x : Nat) (bs : List Byte) : Nat :=
  if w.sfmt == 11 then leNat bs / 2 ^ (6 * (x % 32)) % 64
  else if isHCode w.sfmt then
    let n := 2 ^ (w.sfmt - 12)
    if w.layout == 3 then
      (List.range n).foldl (fun acc p => acc + recNat bs (4 * p) 4 / 2 ^ (x % 32) % 2 * 2 ^ p) 0
    else leNat bs / 2 ^ (x * n % 8) % 2 ^ n
  else leNat bs

/-- Where the S20 scale of block `b` lies: address of its word and position in it (R85). -/
def scaleWord (base b : Nat) : Nat × Nat := (base + 8 * (b / 3), 20 * (b % 3))

/-- The exact value and flags of raw element `x`, with its poison, decoded at the slice (R86, R287, R288). -/
def rawValue (s : State) (w : Window) (x : Nat) : (Ex × Flags) × Bool :=
  let sp := rawSpan w x
  let bs := sliceBytes s (w.base + sp.1) sp.2
  let own := rawOwn w x
  let bad := bytesBad (sliceBytes s (w.base + own.1) own.2)
  let t := (tyOfCode w.sfmt).getD .f32
  let code := BitVec.ofNat 32 (rawCode w x (bs.map (·.1)))
  if w.scaled then
    let q := scaleWord w.scl (x / 32)
    let sb := sliceBytes s q.1 8
    (dequant t code (bytesNat sb / 2 ^ q.2 % 2 ^ 20), bad || bytesBad sb)
  else (inTy t code, bad)

/-- The pattern of view element `i` (R287): a value of a signalling NaN decodes to the canonical NaN. -/
def viewCode (s : State) (w : Window) (i : Nat) : Nat × Bool :=
  let r := rawValue s w (rawIdx w i)
  let f := ((tyOfCode w.vfmt).bind tyFm).getD fmF32
  ((roundFP f .rne false 0 r.1.1).1, r.2)

/-- One view byte at a physical address. -/
def viewByte (s : State) (a : Nat) : Option (Byte × Bool) :=
  (windowAt s a).map fun w =>
    let i := (a - w.base) / fpWidth w.vfmt
    let c := viewCode s w i
    (BitVec.ofNat 8 (c.1 / 2 ^ (8 * ((a - w.base) % fpWidth w.vfmt))), c.2)

def mapOpt {α β : Type} (f : α → Option β) : List α → Option (List β)
  | [] => some []
  | x :: xs =>
    match f x, mapOpt f xs with
    | some y, some ys => some (y :: ys)
    | _, _ => none

/-- Bytes with bits of an element replaced. -/
def patchBits (old : Nat) (lo n code : Nat) : Nat :=
  old / 2 ^ (lo + n) * 2 ^ (lo + n) + code % 2 ^ n * 2 ^ lo + old % 2 ^ lo

/-- Re-encode a raw element (R287): its bits change, the others of the span stay. -/
def rawPatch (w : Window) (x code : Nat) (bs : List Byte) : List Byte :=
  let n := bs.length
  let old := leNat bs
  natLe n <|
    if w.sfmt == 11 then patchBits old (6 * (x % 32)) 6 code
    else if isHCode w.sfmt then
      let h := 2 ^ (w.sfmt - 12)
      if w.layout == 3 then (List.range h).foldl (fun acc p => patchBits acc (32 * p + x % 32) 1 (code / 2 ^ p)) old
      else patchBits old (x * h % 8) h code
    else code

/-- The code that a written view value takes: RNE, SAT, under the block's scale, no flag. -/
def encodeRaw (s : State) (w : Window) (x : Nat) (val : Ex) : Nat :=
  let m : Xm := ⟨true, .rne⟩
  let q : Option QTy := match w.sfmt with
    | 5 => some .e4m3
    | 6 => some .e5m2
    | 11 => some .l6
    | 14 => some .h4
    | _ => none
  match q with
  | some q =>
    if w.scaled then
      let a := scaleWord w.scl (x / 32)
      (quantise q m 0 val (bytesNat (sliceBytes s a.1 8) / 2 ^ a.2 % 2 ^ 20)).1
    else (roundQ q m 0 val).1
  | none =>
    if isHCode w.sfmt then (toH (2 ^ (w.sfmt - 12)) .rne val).1
    else (roundFP (((tyOfCode w.sfmt).bind tyFm).getD fmF32) .rne true 0 val).1

/-- Write one view element, given by its pattern in the view format. -/
def putView (v : EEnv) (s : State) (w : Window) (i code : Nat) (bad : Bool) : State :=
  let x := rawIdx w i
  let f := ((tyOfCode w.vfmt).bind tyFm).getD fmF32
  let sp := rawSpan w x
  let l : Loc := .mem (w.base + sp.1)
  let old := sliceBytes s (w.base + sp.1) sp.2
  let new := rawPatch w x (encodeRaw s w x (f.val code)) (old.map (·.1))
  let bs := (old.zip new).map fun p => (p.2, p.1.2 || bad)
  storeAs s v.gi 320 v.cls (marked l bs)

/-- Write bytes through the windows, element by element: the bytes of an element enter its pattern, which is encoded
once. `f` bounds the number of elements. -/
def putViewSpan (v : EEnv) : Nat → State → Nat → List (Byte × Bool) → Option State
  | 0, s, _, _ => some s
  | f + 1, s, a, bs =>
    match bs, windowAt s a with
    | [], _ => some s
    | _, none => none
    | _, some w =>
      let n := fpWidth w.vfmt
      let i := (a - w.base) / n
      let k := (a - w.base) % n
      let new := bs.take (n - k)
      let s' :=
        if new.length == n then putView v s w i (bytesNat new) (bytesBad new)
        else
          let old := viewCode s w i
          putView v s w i (patchBits old.1 (8 * k) (8 * new.length) (bytesNat new)) (old.2 || bytesBad new)
      putViewSpan v f s' (a + new.length) (bs.drop (n - k))

/-! ## Ranges that may cross pages -/

/-- Raw blocks of packed L6 behind the view bytes [a, a + n) that straddle a page: first byte from BASE, with BASE. -/
def straddlers (s : State) (a n : Nat) : List (Nat × Nat) :=
  (List.range n).foldl (fun acc i =>
    match windowAt s (a + i) with
    | some w =>
      let sp := rawSpan w (rawIdx w ((a + i - w.base) / fpWidth w.vfmt))
      let p := (w.base, sp.1)
      if w.sfmt == 11 && sp.1 / 2 ^ 16 != (sp.1 + 23) / 2 ^ 16 && !acc.contains p then acc ++ [p] else acc
    | none => acc) []

/-- Both parts of a straddling block are translated before any element of it is decoded (R289): the raw tensor lies at BASE of
the view's own mapping. DEDUCED (log 45). -/
def eStraddle (v : EEnv) (va a : Nat) (p : Nat × Nat) : EngM Unit := do
  let raw (off : Nat) : Nat := wrapNat 64 ((va : Int) - (a : Int) + (p.1 + off : Nat))
  let k := 2 ^ 16 - p.2 % 2 ^ 16
  let _ ← eLoc v 0 (raw p.2) k false
  let _ ← eLoc v 0 (raw (p.2 + k)) (24 - k) false
  pure ()

def eStraddles (v : EEnv) (va a : Nat) : List (Nat × Nat) → EngM Unit
  | [] => pure ()
  | p :: ps => do eStraddle v va a p; eStraddles v va a ps

/-- A decoded view line as the slice gives it; bytes in no window stand for nothing and are not read. -/
def viewBytes (s : State) (line : Nat) : List Byte :=
  (List.range 128).map fun i => ((viewByte s (128 * line + i)).map (·.1)).getD 0

/-- Bytes of one page piece, plain or through the windows; a view address in no window fails with ERRC 1 (R287). Operand buffers
hold view lines too (R288). -/
def eReadPiece (v : EEnv) (view : Bool) (sp a n : Nat) : EngM (List (Byte × Bool)) := do
  if view && sp == 0 then do
    let l ← eLoc v 0 a n false
    let x ← get
    eStraddles v (a % 2 ^ 64) l.pos (straddlers x.s l.pos n)
    match mapOpt (fun i => viewByte x.s (l.pos + i)) (List.range n) with
    | some bs =>
      if v.m then do
        eMod fun s => (lineRange l.pos n).foldl (fun s line => fillObuf v s (viewLine line) (viewBytes s line)) s
        let y ← get
        pure ((bs.zip (List.range n)).map fun p =>
          ((obufByte y.s v.g.byreId (viewLine ((l.pos + p.2) / 128)) ((l.pos + p.2) % 128)).getD p.1.1, p.1.2))
      else pure bs
    | none => eFail 1
  else eReadRaw v sp a n

/-- Write bytes of one page piece, plain or through the windows, where the Byre's operand buffers keep no older line (R287). -/
def eWritePiece (v : EEnv) (view : Bool) (sp a : Nat) (bs : List (Byte × Bool)) : EngM Unit := do
  if view && sp == 0 then do
    let l ← eLoc v 0 a bs.length true
    let x ← get
    match putViewSpan v bs.length x.s l.pos bs with
    | some s => eMod fun _ => if v.m then dropObuf s v.g.byreId s.fills else s
    | none => eFail 1
  else eWrite v sp a bs

/-- Bytes up to the end of the 64 KiB page of an address. -/
def pageRest (sp a n : Nat) : Nat := if sp == 0 then min n (2 ^ 16 - a % 2 ^ 16) else n

/-- Read `n` bytes page by page; `f` bounds the pieces. -/
def eReadSpan (v : EEnv) (view : Bool) (sp : Nat) : Nat → Nat → Nat → EngM (List (Byte × Bool))
  | 0, _, _ => pure []
  | f + 1, a, n => do
    if n == 0 then pure []
    else do
      let k := pageRest sp a n
      let x ← eReadPiece v view sp a k
      let y ← eReadSpan v view sp f (a + k) (n - k)
      pure (x ++ y)

def eWriteSpan (v : EEnv) (view : Bool) (sp : Nat) : Nat → Nat → List (Byte × Bool) → EngM Unit
  | 0, _, _ => pure ()
  | f + 1, a, bs => do
    if bs.isEmpty then pure ()
    else do
      let k := pageRest sp a bs.length
      eWritePiece v view sp a (bs.take k)
      eWriteSpan v view sp f (a + k) (bs.drop k)

/-- Pieces of a range of `n` bytes. -/
def pieces (n : Nat) : Nat := n / 2 ^ 16 + 2

def eRead (v : EEnv) (sp a n : Nat) : EngM (List (Byte × Bool)) := eReadSpan v false sp (pieces n) a n

def eWriteAll (v : EEnv) (sp a : Nat) (bs : List (Byte × Bool)) : EngM Unit :=
  eWriteSpan v false sp (pieces bs.length) a bs

/-- Read `n` bytes and consume them (R176). -/
def eTake (v : EEnv) (sp a n : Nat) : EngM (List Byte) := do
  let bs ← eRead v sp a n
  eNeed (!bytesBad bs) 3
  pure (bs.map (·.1))

/-- Do something for i = `i`, `i + 1`, ..., `n` times. -/
def eFor : Nat → Nat → (Nat → EngM Unit) → EngM Unit
  | 0, _, _ => pure ()
  | n + 1, i, f => do f i; eFor n (i + 1) f

/-- Places of a range as far as it translates, for a test of overlap. -/
def placesOf (s : State) (g : Gang) (priv : Bool) (sp : Nat) : Nat → Nat → Nat → List (Loc × Nat)
  | 0, _, _ => []
  | f + 1, a, n =>
    if n == 0 then []
    else
      let k := pageRest sp a n
      let rest := placesOf s g priv sp f (a + k) (n - k)
      match sp with
      | 1 => [(.spad a, n)]
      | 2 => [(.mem (Config.hayKey g.die a), n)]
      | _ =>
        match translate s g ⟨false, false, priv⟩ (a % 2 ^ 64) k with
        | .ok key => (.mem key, k) :: rest
        | _ => rest

def placesMeet (xs ys : List (Loc × Nat)) : Bool := xs.any fun x => ys.any fun y => locsMeet x.1 y.1 x.2 y.2

/-- Recompute the summary of the strip line at `a` under the LAYOUT that it holds (R247). -/
def eResum (v : EEnv) (sp a : Nat) : EngM Unit := do
  let b ← eTake v sp a 64
  let lay ← eNum v sp (a + 112) 8
  let labels := (List.range 8).map fun i => recNat b (8 * i) 8
  eWriteAll v sp (a + 64) (clean (summaryBytes lay labels))

/-- Offset of label `n` of a stripe (R234). -/
def labelOff (n : Int) : Int := 128 * (n / 8) + 8 * (n % 8)

/-- An address plus a signed offset. -/
def offAddr (sp a : Nat) (d : Int) : Nat :=
  if sp == 0 then wrapNat 64 (a + d) else if (a : Int) + d < 0 then 2 ^ 64 else ((a : Int) + d).toNat

end Sys2Proof.Machine
end

