-- ==== Sys2Proof/Machine/ChTile.lean ====
section
/-! DEFINITION. Tile operations of the Churn between two sequencer points (R92-R94, R212-R221, R226, R236-R240, R289): the
check of the block, strip-pair decisions, operand fetch, chunk sums, and the strips of `CSTORE` and `CLOAD`. -/

namespace Sys2Proof.Machine

/-! ## The tile block (R212) -/

def tileNum (q : ChEntry) (off len : Nat) : Nat := recNat q.blk off len

def tileCtl (q : ChEntry) : Nat := tileNum q 8 4
def tileM (q : ChEntry) : Nat := tileNum q 12 2
def tileN (q : ChEntry) : Nat := tileNum q 14 2
def tileK (q : ChEntry) : Nat := tileNum q 16 4

/-- An operand as its block describes it. -/
structure Side where
  base  : Nat
  str   : Nat
  fmt   : Nat
  sp    : Nat
  pack  : Bool
  scal  : Bool
  view  : Bool
  pln   : Nat
  scl   : Nat
  lbl   : Nat
  deriving DecidableEq, Repr

/-- A scratchpad address is the low 20 bits of its field. -/
def spAddr (sp a : Nat) : Nat := if sp == 1 then a % 2 ^ 20 else a

def sideOf (q : ChEntry) (base str fmt scl lbl : Nat) : Side :=
  let lay := tileNum q (fmt + 1) 1
  let sp := lay % 4
  { base := spAddr sp (tileNum q base 8), str := tileNum q str 4, fmt := tileNum q fmt 1, sp := sp
    pack := lay / 4 % 2 == 1, scal := lay / 8 % 2 == 1, view := lay / 16 % 2 == 1, pln := tileNum q (fmt + 2) 1
    scl := spAddr sp (tileNum q scl 8), lbl := spAddr sp (tileNum q lbl 8) }

def sideA (q : ChEntry) : Side := sideOf q 24 40 48 56 80
def sideB (q : ChEntry) : Side := sideOf q 32 44 52 64 88

/-- Code bits of an element. -/
def elBits (code : Nat) : Nat :=
  if code == 11 then 6 else if isHCode code then 2 ^ (code - 12) else 8 * fpWidth code

/-- Chunk width of the pair (R93, R214); an H pair is summed over all of K. -/
def chunkWidth (code : Nat) : Nat := if code ≤ 4 then 16 else if code ≤ 6 then 32 else 64

/-- The legal pairs (R214). -/
def pairOk (a b : Nat) : Bool :=
  (a == b && (a == 3 || a == 4 || a == 11)) || ((a == 5 || a == 6) && (b == 5 || b == 6)) || (isHCode a && isHCode b)

/-- PACK, SCALED, PLN and the length of K for one operand (R214). -/
def sideOk (k : Nat) (o : Side) : Bool :=
  (!o.pack || o.fmt == 11 || isHCode o.fmt) && (!o.scal || (scalable o.fmt && k % 32 == 0))
    && (!(isHCode o.fmt || (o.fmt == 11 && o.pack)) || k % 32 == 0)
    && (o.pln == 0 || (isHCode o.fmt && o.pln ≤ elBits o.fmt))

/-- Checks of SPACE and VIEW (R213). -/
def spaceOk (o : Side) : Bool := o.sp ≤ 2 && !(o.view && o.sp != 0)

def eGang (v : EEnv) : EngM Gang := do
  let x ← get
  pure ((x.s.gang? v.gi).getD v.g)

/-- The relation of a slot (R230). -/
def slotRel (g : Gang) (n : Nat) : Option Rel := ((g.ch.rels[n]?).join).map relOf

/-- The relation of a tile operation: none with REL clear. -/
def tileRel (g : Gang) (q : ChEntry) : Option Rel :=
  if tileCtl q / 2 % 2 == 1 then slotRel g (tileCtl q / 4 % 4) else none

/-- Whether an open frame does not shadow bank `n` (R224). -/
def unshadowed (g : Gang) (n : Nat) : Bool :=
  match g.ch.frame with
  | some f => f.m0 != some (BitVec.ofNat 2 n) && f.m1 != some (BitVec.ofNat 2 n)
  | none => false

/-- The check of a multiplication's block: every cause of ERRC 4 before the alignments (R213, R224, R236, R244). -/
def mmaCheck (v : EEnv) (q : ChEntry) (sparse : Bool) (acc : Nat) : EngM Unit := do
  eNeed (!q.bad) 3
  let g ← eGang v
  let a := sideA q
  let b := sideB q
  let k := tileK q
  let rel := tileCtl q / 2 % 2 == 1
  eNeed (1 ≤ tileM q && tileM q ≤ 64 && 1 ≤ tileN q && tileN q ≤ 64 && 1 ≤ k && k ≤ 2 ^ 20) 4
  eNeed (spaceOk a && spaceOk b && tileCtl q / 16 % 8 ≤ 3 && (!rel || (tileRel g q).isSome)) 4
  eNeed (pairOk a.fmt b.fmt && sideOk k a && sideOk k b && !(tileCtl q % 2 == 1 && isHCode a.fmt)) 4
  eNeed (!sparse || (3 ≤ a.fmt && a.fmt ≤ 6 && k % 4 == 0 && g.ch.frame.isNone)) 4
  eNeed (!unshadowed g acc) 4
  eNeed (([24, 32, 56, 64, 72].all fun o => tileNum q o 4 % 4 == 0)
    && ([40, 44, 20].all fun o => tileNum q o 4 % 4 == 0)) 2
  eNeed (!rel || (a.lbl % 128 == 0 && b.lbl % 128 == 0)) 2

/-! ## Strip pairs (R236, R237) -/

/-- Summaries of the strips of an operand of `n` rows. -/
def readSumms (v : EEnv) (o : Side) (n : Nat) : EngM (List Summ) :=
  eMap (fun s => do
    let b ← eTake v o.sp (o.lbl + 128 * s + 64) 64
    pure (summOf b)) (List.range ((n + 7) / 8))

/-- Labels of the first `n` rows, those that `want` asks for. -/
def readLabels (v : EEnv) (o : Side) (n : Nat) (want : Nat → Bool) : EngM (List Nat) :=
  eMap (fun i => if want i then eNum v o.sp (labelAddr (o.sp != 0) o.lbl i) 8 else pure nullLabel) (List.range n)

def pickOf (ps : List (List Pick)) (i j : Nat) : Pick := ((ps[i / 8]?).getD []).getD (j / 8) .check

/-- A 64-bit mask from a predicate. -/
def mask64 (p : Nat → Bool) : BitVec 64 :=
  (List.range 64).foldl (fun m j => if p j then m ||| BitVec.ofNat 64 (2 ^ j) else m) 0

/-- For each row the columns with present products, and the strip pairs that were not skipped. -/
def stripPairs (v : EEnv) (q : ChEntry) : EngM (List (BitVec 64) × Nat) := do
  let g ← eGang v
  let m := tileM q
  let n := tileN q
  let me := min m q.mrow
  let ne := min n q.ncol
  match tileRel g q with
  | none => pure ((List.range m).map fun i => mask64 fun j => i < me && j < ne, (m + 7) / 8 * ((n + 7) / 8))
  | some r => do
    let sa ← readSumms v (sideA q) m
    let sb ← readSumms v (sideB q) n
    let ps := sa.map fun x => sb.map fun y => decidePair r x y
    let chk (i j : Nat) : Bool := i < me && j < ne && pickOf ps i j == .check
    let qa ← readLabels v (sideA q) m fun i => (List.range n).any (chk i)
    let qb ← readLabels v (sideB q) n fun j => (List.range m).any fun i => chk i j
    let yes (i j : Nat) : Bool :=
      i < me && j < ne && match pickOf ps i j with
        | .skip => false
        | .all => true
        | .check => admitL r (qa.getD i nullLabel) (qb.getD j nullLabel)
    pure ((List.range m).map fun i => mask64 (yes i), (ps.flatten.filter fun p => p != .skip).length)

/-! ## Operands (R214, R215) -/

/-- `n` bits from bit `lo` of the `len` bytes at `a`, fetched as a whole; only poison of the bytes that hold them counts
(R215, R289). -/
def eBits (v : EEnv) (view : Bool) (sp a len lo n : Nat) : EngM Nat := do
  let bs ← eReadSpan v view sp 2 a len
  let own := (bs.drop (lo / 8)).take ((lo + n - 1) / 8 - lo / 8 + 1)
  eNeed (!bytesBad own) 3
  pure (bytesNat bs / 2 ^ lo % 2 ^ n)

/-- The planes of an element that an H operand declares (R83). -/
def Side.planes (o : Side) : Nat := if o.pln == 0 then elBits o.fmt else o.pln

/-- The code of stored element `p` of row `i`; undeclared planes of the bit-plane layout are not read and count as 0. -/
def elCode (v : EEnv) (o : Side) (i p : Nat) : EngM Nat := do
  let a := o.base + i * o.str
  if o.fmt == 11 then
    if o.pack then eBits v o.view o.sp (a + p / 32 * 24) 24 (6 * (p % 32)) 6 else eBits v o.view o.sp (a + p) 1 0 6
  else if isHCode o.fmt then do
    let n := elBits o.fmt
    if o.pack then do
      let bits ← eMap (fun b => eBits v o.view o.sp (a + p / 32 * (4 * n) + 4 * b + p % 32 / 8) 1 (p % 8) 1)
        ((List.range n).drop (n - o.planes))
      pure (bits.foldr (fun b acc => b + 2 * acc) 0 * 2 ^ (n - o.planes))
    else eBits v o.view o.sp (a + p * n / 8) 1 (p * n % 8) n
  else eBits v o.view o.sp (a + p * fpWidth o.fmt) (fpWidth o.fmt) 0 (8 * fpWidth o.fmt)

/-- An operand element: its value, and for L6 its code and its scale's value. -/
structure El where
  x    : Ex
  code : Nat
  sc   : Ex
  deriving DecidableEq, Repr

/-- The value of a code without its scale. -/
def codeVal (o : Side) (c : Nat) : Ex :=
  if isHCode o.fmt then hPlanes (elBits o.fmt) o.planes c
  else if o.fmt == 11 then l6Val c
  else (((tyOfCode o.fmt).bind tyFm).getD fmF16).val c

/-- A value under its S20 scale (R86). -/
def underScale (x sc : Ex) : Ex := if sc.isZero then .zero false else (exMul x sc).1

/-- Element `k` of row `i`, stored at position `p`; `kk` is K (R214). -/
def fetchEl (v : EEnv) (o : Side) (kk i k p : Nat) : EngM El := do
  let c ← elCode v o i p
  if o.scal then do
    let w := scaleWord o.scl (i * (kk / 32) + k / 32)
    let s ← eBits v false o.sp w.1 8 w.2 20
    pure ⟨underScale (codeVal o c) (s20Val s), c, s20Val s⟩
  else pure ⟨codeVal o c, c, .fin 1 1⟩

/-- The product of two elements (R78, R94). -/
def elMul (fmt : Nat) (a b : El) : Ex :=
  if fmt != 11 || a.x.isNan || b.x.isNan || a.x.isZero || b.x.isZero then (exMul a.x b.x).1
  else (exMul (exMul (l6Mul a.code b.code) a.sc).1 b.sc).1

/-! ## Exact sums (R94) -/

/-- A sum of quotients; denominators of these formats are powers of two, so one divides the other. -/
def addQuot (a b : Int × Nat) : Int × Nat :=
  if a.2 % b.2 == 0 then (a.1 + b.1 * ((a.2 / b.2 : Nat) : Int), a.2)
  else if b.2 % a.2 == 0 then (a.1 * ((b.2 / a.2 : Nat) : Int) + b.1, b.2)
  else (a.1 * (b.2 : Int) + b.1 * (a.2 : Int), a.2 * b.2)

/-- The exact sum of present products, with NV where it is NaN. -/
def exSum (xs : List Ex) : Ex × Flags :=
  if xs.any (·.isNan) || (xs.contains (.inf false) && xs.contains (.inf true)) then (.nan, flNV)
  else if xs.contains (.inf false) then (.inf false, 0)
  else if xs.contains (.inf true) then (.inf true, 0)
  else if xs.all (· == .zero true) then (.zero true, 0)
  else
    let q := xs.foldl (fun acc x => addQuot acc x.quot) (0, 1)
    (exQuot q.1 q.2 false, 0)

/-- `RoundFP32(acc + t, RNE)`. -/
def accAdd (a : W) (t : Ex × Flags) : W × Flags :=
  let y := inFl .f32 a
  let z := exAdd .rne y.1 t.1
  let r := roundFP32 .rne 0 z.1
  (r.1, t.2 ||| y.2 ||| z.2 ||| r.2)

/-- A partial sum as data: numerator and denominator, 0 for the denominator of an infinity or NaN, −1 for that of −0. -/
def partOf : Ex → Int × Int
  | .nan => (0, 0)
  | .inf s => (if s then -1 else 1, 0)
  | .zero s => (0, if s then -1 else 1)
  | .fin n d => (n, d)

def exOfPart (p : Int × Int) : Ex :=
  if p.2 == 0 then (if p.1 == 0 then .nan else .inf (decide (p.1 < 0)))
  else if p.1 == 0 then .zero (decide (p.2 < 0)) else .fin p.1 p.2.toNat

/-! ## K steps (R217, R218, R226) -/

/-- Kept positions of column `j` in K step `s`: dense position and place among the stored elements. A pair out of order
fails with ERRC 5. -/
def keptIn (v : EEnv) (q : ChEntry) (sparse : Option Sparse) (j s : Nat) : EngM (List (Nat × Nat)) := do
  let k := tileK q
  let n := min 64 (k - 64 * s)
  match sparse with
  | none => pure ((List.range n).map fun i => (64 * s + i, 64 * s + i))
  | some sp => do
    let gs := n / 4
    let base := spAddr (sideB q).sp (tileNum q 72 8) + j * tileNum q 20 4
    match sp with
    | .s24 => do
      let b ← eTake v (sideB q).sp (base + 8 * s) ((4 * gs + 7) / 8)
      let m := leNat b
      let at' (g : Nat) : Nat × Nat := (m / 2 ^ (4 * g) % 4, m / 2 ^ (4 * g + 2) % 4)
      eNeed ((List.range gs).all fun g => (at' g).1 < (at' g).2) 5
      pure ((List.range gs).flatMap fun g =>
        [(64 * s + 4 * g + (at' g).1, 32 * s + 2 * g), (64 * s + 4 * g + (at' g).2, 32 * s + 2 * g + 1)])
    | .s14 => do
      let b ← eTake v (sideB q).sp (base + 4 * s) ((2 * gs + 7) / 8)
      let m := leNat b
      pure ((List.range gs).map fun g => (64 * s + 4 * g + m / 2 ^ (2 * g) % 4, 16 * s + g))

/-- Columns with any present product. -/
def usedCols (pres : List (BitVec 64)) : BitVec 64 := pres.foldl (· ||| ·) 0

/-- Kept positions for each column that is used. -/
def keptAll (v : EEnv) (q : ChEntry) (sparse : Option Sparse) (pres : List (BitVec 64)) (s : Nat) :
    EngM (List (List (Nat × Nat))) :=
  eMap (fun j => if (usedCols pres).getLsbD j then keptIn v q sparse j s else pure []) (List.range (tileN q))

def ksOf (q : ChEntry) (s : Nat) : List Nat := (List.range (min 64 (tileK q - 64 * s))).map fun i => 64 * s + i

/-- The columns of `cols` that keep position `k`. -/
def keepers (cols : List (List (Nat × Nat))) (k : Nat) : BitVec 64 :=
  mask64 fun j => (cols.getD j []).any fun p => p.1 == k

/-- Operand A of a step: for each row the positions with an element that takes part in a product. -/
def fetchA (v : EEnv) (q : ChEntry) (pres : List (BitVec 64)) (cols : List (List (Nat × Nat))) (s : Nat) :
    EngM (List (List (Nat × El))) :=
  eMap (fun i =>
    eMap (fun k => do
      let x ← fetchEl v (sideA q) (tileK q) i k k
      pure (k, x)) ((ksOf q s).filter fun k => (pres.getD i 0) &&& keepers cols k != 0)) (List.range (tileM q))

def elAt (xs : List (Nat × El)) (k : Nat) : Option El := (xs.find? fun p => p.1 == k).map (·.2)

/-- Whether row `i` of A has a zero-skipped element at `k` (R218). -/
def skipsAt (q : ChEntry) (as : List (List (Nat × El))) (i k : Nat) : Bool :=
  tileCtl q % 2 == 1 && ((elAt (as.getD i []) k).map fun x => x.x.isZero).getD false

/-- Operand B of a step: for each column the elements that some product needs. -/
def fetchB (v : EEnv) (q : ChEntry) (pres : List (BitVec 64)) (cols : List (List (Nat × Nat)))
    (as : List (List (Nat × El))) : EngM (List (List (Nat × El))) :=
  eMap (fun j => do
    let need := (cols.getD j []).filter fun p =>
      (List.range (tileM q)).any fun i => (pres.getD i 0).getLsbD j && !skipsAt q as i p.1
    eMap (fun n => do
      let p := need.getD n (0, 0)
      let x ← fetchEl v (sideB q) (tileK q) j p.1 p.2
      pure (p.1, x)) (List.range need.length)) (List.range (tileN q))

/-- The present products of element (i, j) in a step, by position. -/
def productsAt (q : ChEntry) (cols : List (List (Nat × Nat))) (as bs : List (List (Nat × El))) (i j : Nat) :
    List (Nat × Ex) :=
  (cols.getD j []).map fun p =>
    (p.1, match elAt (as.getD i []) p.1, elAt (bs.getD j []) p.1 with
      | some x, some y => if skipsAt q as i p.1 then .zero false else elMul (sideA q).fmt x y
      | _, _ => .zero false)

/-- Add the chunks of a step to an accumulator element. -/
def addChunks (g : Nat) (ps : List (Nat × Ex)) (cs : List Nat) (a : W × Flags) : W × Flags :=
  cs.foldl (fun a c =>
    let xs := (ps.filter fun p => p.1 / g == c).map (·.2)
    if xs.isEmpty then a
    else
      let r := accAdd a.1 (exSum xs)
      (r.1, a.2 ||| r.2)) a

/-- The elements (i, j) of the tile with present products. -/
def presentEls (q : ChEntry) (pres : List (BitVec 64)) : List (Nat × Nat) :=
  (List.range (tileM q)).flatMap fun i =>
    ((List.range (tileN q)).filter fun j => (pres.getD i 0).getLsbD j).map fun j => (i, j)

def eBank (v : EEnv) (n : Nat) : EngM (List W) := do
  let g ← eGang v
  pure (g.ch.bank n)

def eSetBank (v : EEnv) (n : Nat) (x : List W) : EngM Unit :=
  eMod fun s => s.modGang v.gi fun g => { g with ch := g.ch.setBank n x }

/-- Chunk numbers of a step. -/
def chunksIn (g s : Nat) : List Nat := (List.range (64 / g)).map fun c => 64 / g * s + c

/-- The bank after a step of a pair that is not H, with its flags. -/
def addStep (q : ChEntry) (s : Nat) (els : List (Nat × Nat)) (prod : Nat → Nat → List (Nat × Ex)) (bank : List W) :
    List W × Flags :=
  let g := chunkWidth (sideA q).fmt
  els.foldl (fun acc e =>
    let n := 64 * e.1 + e.2
    let r := addChunks g (prod e.1 e.2) (chunksIn g s) (acc.1.getD n 0, 0)
    (setAt acc.1 n r.1, acc.2 ||| r.2)) (bank, 0)

/-- The exact partial sums after a step of an H pair. -/
def addParts (part : List (Nat × Int × Int)) (els : List (Nat × Nat)) (prod : Nat → Nat → List (Nat × Ex)) :
    List (Nat × Int × Int) :=
  els.map fun e =>
    let n := 64 * e.1 + e.2
    let t := (exSum ((prod e.1 e.2).map (·.2))).1
    let old := part.find? fun p => p.1 == n
    (n, partOf (match old with
      | some p => (exSum [exOfPart p.2, t]).1
      | none => t))

/-- The one rounding of an H pair at its end. -/
def roundParts (part : List (Nat × Int × Int)) (bank : List W) : List W × Flags :=
  part.foldl (fun acc p =>
    let x := exOfPart p.2
    let r := accAdd (acc.1.getD p.1 0) (x, flagIf x.isNan flNV)
    (setAt acc.1 p.1 r.1, acc.2 ||| r.2)) (bank, 0)

/-- One K step of a multiplication; answers the entry with its partial sums. -/
def mmaStep (v : EEnv) (q : ChEntry) (sparse : Option Sparse) (acc : Nat) : EngM ChEntry := do
  let s := q.steps
  let cols ← keptAll v q sparse q.pres s
  let as ← fetchA v q q.pres cols s
  let bs ← fetchB v q q.pres cols as
  let els := presentEls q q.pres
  let bank ← eBank v acc
  let last := tileK q ≤ 64 * (s + 1)
  eProg (min (64 * (s + 1)) (tileK q))
  if isHCode (sideA q).fmt then do
    let part := addParts q.part els (productsAt q cols as bs)
    if last then do
      let r := roundParts part bank
      eSetBank v acc r.1
      eFlags r.2
    pure { q with part := part }
  else do
    let r := addStep q s els (productsAt q cols as bs) bank
    eSetBank v acc r.1
    eFlags r.2
    pure q

/-- The elements of the tile in a bank become +0. -/
def zeroTile (q : ChEntry) (bank : List W) : List W :=
  (bank.zip (List.range bank.length)).map fun p => if p.2 / 64 < tileM q && p.2 % 64 < tileN q then 0 else p.1

/-- What a multiplication does before its first step: checks, decisions, metadata, `.z`. DEDUCED (log 52). -/
def mmaStart (v : EEnv) (q : ChEntry) (sparse : Option Sparse) (z : Bool) (acc : Nat) : EngM ChEntry := do
  mmaCheck v q sparse.isSome acc
  let d ← stripPairs v q
  if sparse.isSome then
    eEach (fun s => do
      let _ ← keptAll v q sparse d.1 s) (List.range ((tileK q + 63) / 64))
  if z then do
    let bank ← eBank v acc
    eSetBank v acc (zeroTile q bank)
  eRes d.2
  eMod fun s => s.bump v.g.byreId 7 ((tileM q + 7) / 8 * ((tileN q + 7) / 8) - d.2)
  pure { q with pres := d.1, crow := mask64 fun i => i < tileM q && d.1.getD i 0 == 0 }

/-- One unit of `CMMA` or `CMMAS` (R216, R226): the entry after it, and whether it is the last. -/
def mmaUnit (v : EEnv) (q : ChEntry) (sparse : Option Sparse) (z : Bool) (acc : Nat) : EngM (ChEntry × Bool) := do
  let q ← if q.pres.isEmpty then mmaStart v q sparse z acc else pure q
  let r ← mmaStep v q sparse acc
  pure (r, tileK q ≤ 64 * (q.steps + 1))

/-! ## CSTORE and CLOAD (R220) -/

/-- Whether a store's block sets VIEW, in global space, and may: R287 has `CSTORE` write view lines, R220 counts the bit among
those that must hold zero. DESIGN CHOICE (log 45): which of the two holds is free. -/
def storeView (q : ChEntry) : Bool := tileNum q 49 1 == 16 && Config.cstoreView

/-- The check of a store or load: bits that the word does not use hold zero. -/
def moveCheck (q : ChEntry) (load : Bool) : EngM Unit := do
  eNeed (!q.bad) 3
  let zero (off len : Nat) : Bool := tileNum q off len == 0
  let f := tileNum q 48 1
  let ctlOk := if load then tileCtl q == 0 else tileCtl q % 16 == 0 && tileCtl q / 16 % 8 ≤ 3 && tileCtl q / 256 == 0
  let sp := tileNum q 49 1
  eNeed (1 ≤ tileM q && tileM q ≤ 64 && 1 ≤ tileN q && tileN q ≤ 64 && isFpCode f) 4
  eNeed (ctlOk && zero 16 8 && zero 32 8 && zero 44 4 && (if load then sp ≤ 2 else sp ≤ 1 || storeView q) && zero 50 70) 4
  eNeed (tileNum q 24 4 % 4 == 0 && tileNum q 40 4 % 4 == 0) 2

/-- The pattern that `CSTORE` writes for an element. -/
def storeEl (q : ChEntry) (x : W) : Nat × Flags :=
  let f := tileNum q 48 1
  if f == 2 then (x.toNat, 0)
  else
    let rm : Rm := match tileCtl q / 16 % 8 with
      | 0 => .rne
      | 1 => .rz
      | 2 => .ru
      | _ => .rd
    let y := inFl .f32 x
    let r := roundFP (((tyOfCode f).bind tyFm).getD fmF32) rm (tileCtl q / 128 % 2 == 1) 0 y.1
    (r.1, y.2 ||| r.2)

/-- The element that `CLOAD` reads. -/
def loadEl (q : ChEntry) (c : Nat) : W × Flags :=
  let f := tileNum q 48 1
  if f == 2 then (BitVec.ofNat 32 c, 0)
  else
    let m := ((tyOfCode f).bind tyFm).getD fmF32
    let r := roundFP32 .rne 0 (m.val c)
    (r.1, r.2 ||| flagIf (m.isSnan c) flNV)

/-- Address of row `i` of the memory tile. -/
def rowAddr (q : ChEntry) (i : Nat) : Nat := (sideA q).base + i * tileNum q 40 4

def storeRow (v : EEnv) (q : ChEntry) (acc i : Nat) : EngM Unit := do
  let bank ← eBank v acc
  let w := fpWidth (tileNum q 48 1)
  let es := (List.range (tileN q)).map fun j => storeEl q (bank.getD (64 * i + j) 0)
  eWriteSpan v (storeView q) (sideA q).sp 2 (rowAddr q i) (clean (es.flatMap fun e => natLe w e.1))
  eFlags (es.foldl (fun a e => a ||| e.2) 0)
  eProg (i + 1)
  eRes (i + 1)

def loadRow (v : EEnv) (q : ChEntry) (acc i : Nat) : EngM Unit := do
  let w := fpWidth (tileNum q 48 1)
  let b ← eReadSpan v false (sideA q).sp 2 (rowAddr q i) (w * tileN q)
  eNeed (!bytesBad b) 3
  let es := (List.range (tileN q)).map fun j => loadEl q (recNat (b.map (·.1)) (w * j) w)
  let bank ← eBank v acc
  eSetBank v acc ((es.zip (List.range es.length)).foldl (fun bk p => setAt bk (64 * i + p.2) p.1.1) bank)
  eFlags (es.foldl (fun a e => a ||| e.2) 0)
  eProg (i + 1)
  eRes (i + 1)

/-- One strip of eight rows. -/
def moveUnit (v : EEnv) (q : ChEntry) (load : Bool) (acc : Nat) : EngM (ChEntry × Bool) := do
  moveCheck q load
  let g ← eGang v
  eNeed (if load then !unshadowed g acc else g.ch.frame.isNone) 4
  let i := 8 * q.steps
  eFor (min 8 (tileM q - i)) i (if load then loadRow v q acc else storeRow v q acc)
  pure (q, tileM q ≤ i + 8)

end Sys2Proof.Machine
end

