-- ==== Sys2Proof/Machine/ChUnits.lean ====
section
/-! DEFINITION. Execution of the Churn's queue (R209, R212, R221, R224-R227, R244, R245, R250) and the end of an entry (R92, R192,
R194, R376). -/

namespace Sys2Proof.Machine

/-! ## Bank words (R221) -/

/-- Apply a function to every element of a bank, by index. -/
def eachEl (v : EEnv) (acc : Nat) (f : Nat → W → W × Flags) : EngM Unit := do
  let g ← eGang v
  eNeed (!unshadowed g acc) 4
  let bank ← eBank v acc
  let rs := (bank.zip (List.range bank.length)).map fun p => f p.2 p.1
  eSetBank v acc (rs.map (·.1))
  eFlags (rs.foldl (fun a r => a ||| r.2) 0)

/-- a × x + b with one rounding. -/
def scaleEl (a b : W) (rm : Rm) (x : W) : W × Flags :=
  let p := inFl .f32 a
  let q := inFl .f32 b
  let y := inFl .f32 x
  let m := exMul p.1 y.1
  let z := exAdd rm m.1 q.1
  let r := roundFP32 rm 0 z.1
  (r.1, p.2 ||| q.2 ||| y.2 ||| m.2 ||| z.2 ||| r.2)

def epiEl (relu : Bool) (bias : Option (List W)) (n : Nat) (x : W) : W × Flags :=
  let y := match bias with
    | some bs => addFl .f32 ⟨false, .rne⟩ 0 x (bs.getD (n % 64) 0)
    | none => (x, 0)
  if relu then
    let r := pickFl .f32 true y.1 0
    (r.1, y.2 ||| r.2)
  else y

/-- The bias values that a pair names. -/
def readBias (v : EEnv) : Option Nat → EngM (Option (List W))
  | none => pure none
  | some a => do
    eNeed (a % 4 == 0) 2
    let b ← eTake v 0 a 256
    pure (some ((List.range 64).map fun j => BitVec.ofNat 32 (recNat b (4 * j) 4)))

def epiUnit (v : EEnv) (acc : Nat) (relu : Bool) (a : Option Nat) : EngM Unit := do
  let g ← eGang v
  eNeed (!unshadowed g acc) 4
  let bias ← readBias v a
  eachEl v acc (epiEl relu bias)

def movaUnit (v : EEnv) (add : Bool) (dst src : Nat) : EngM Unit := do
  let sb ← eBank v src
  eachEl v dst fun n x => if add then addFl .f32 ⟨false, .rne⟩ 0 x (sb.getD n 0) else (sb.getD n 0, 0)

/-! ## Frames (R224, R225) -/

/-- Shadows take copies of their banks. -/
def openFrame (c : Churn) (m0 m1 : Option (BitVec 2)) : Churn :=
  let copy (m : Option (BitVec 2)) (old : List W) : List W :=
    match m with
    | some b => c.accs.getD b.toNat []
    | none => old
  { c with saccs := [copy m0 (c.saccs.getD 0 []), copy m1 (c.saccs.getD 1 [])], frame := some ⟨m0, m1, []⟩ }

/-- A held entry as a discard leaves it: Cancelled, PROG 0, no flag, and no arrival, so that its BAR counts as 0. -/
def discardEntry (q : ChEntry) : ChEntry :=
  { q with blk := List.replicate 8 0 ++ q.blk.drop 8, res := some ⟨.cancelled, 0, 0, 0, 0, none⟩ }

/-- Resolve the frame: banks take their shadows on a commit; the held entries stand before the rest of the queue to be
reported in order. -/
def closeFrame (c : Churn) (commit : Bool) : Churn :=
  match c.frame with
  | none => c
  | some f =>
    let put (accs : List (List W)) (m : Option (BitVec 2)) (i : Nat) : List (List W) :=
      match m with
      | some b => if commit then setAt accs b.toNat (c.saccs.getD i []) else accs
      | none => accs
    { c with
      accs := put (put c.accs f.m0 0) f.m1 1, frame := none
      queue := (if commit then f.held else f.held.map discardEntry) ++ c.queue }

def eChurn (v : EEnv) (f : Churn → Churn) : EngM Unit :=
  eMod fun s => s.modGang v.gi fun g => { g with ch := f g.ch }

/-! ## Relations and labels (R244, R245, R250) -/

def relldUnit (v : EEnv) (slot va : Nat) (sp : Nat) : EngM Unit := do
  let b ← eTake v sp va 128
  eNeed (relOf b).ok 4
  eChurn v fun c => { c with rels := setAt c.rels slot (some b) }

/-- One strip of `LBLSUM`. -/
def lblsumUnit (v : EEnv) (q : ChEntry) (slot va sp n : Nat) : EngM (ChEntry × Bool) := do
  let g ← eGang v
  eNeed g.ch.frame.isNone 4
  match slotRel g slot with
  | none => eFail 4
  | some r => do
    let t := q.steps
    eRes (n % 2 ^ 24)
    if n ≤ t then pure (q, true)
    else do
      let b ← eTake v sp (va + 128 * t) 64
      eWriteAll v sp (va + 128 * t + 64) (clean (summaryBytes r.layout ((List.range 8).map fun i => recNat b (8 * i) 8)))
      eProg (t + 1)
      pure (q, n ≤ t + 1)

def acceptUnit (v : EEnv) (lbase seq n nd : Nat) : EngM Unit := do
  let as := (List.range (nd - n)).map fun i => labelAddr false lbase (seq + n + i)
  eEach (fun a => eWriteNum v 0 a 8 nullLabel) as
  eEach (fun l => do
    let ok ← eNum v 0 (l + 121) 1
    if ok == 1 then eResum v 0 l) (as.foldl (fun ls a => insertNat (a / 128 * 128) ls) [])
  eRes ((seq + n) % 2 ^ 24)

/-! ## Units (R226) -/

def whole (q : ChEntry) (m : EngM Unit) : EngM (ChEntry × Bool) := do
  m
  pure (q, true)

/-- What an entry does up to its next sequencer point: the entry then, and whether it is finished. -/
def chUnit (v : EEnv) (q : ChEntry) : EngM (ChEntry × Bool) :=
  match q.kind with
  | .mma sparse z acc => mmaUnit v q sparse z acc
  | .store acc => moveUnit v q false acc
  | .load acc => moveUnit v q true acc
  | .zero acc => whole q (eachEl v acc fun _ _ => (0, 0))
  | .mova add dst src => whole q (movaUnit v add dst src)
  | .scale acc a b rm => whole q (eachEl v acc fun _ x => scaleEl a b rm x)
  | .epi acc relu bias => whole q (epiUnit v acc relu bias)
  | .spec m0 m1 opens => whole q (if opens then eChurn v fun c => openFrame c m0 m1 else pure ())
  | .resolve _ => whole q (pure ())
  | .relld slot va bsp => whole q (relldUnit v slot va bsp.toNat)
  | .lblsum slot va bsp n => lblsumUnit v q slot va bsp.toNat n
  | .accept ok lbase seq n nd => whole q (if ok then acceptUnit v lbase seq n nd else eFail 4)

/-! ## CHURN_ENTRY_EXECUTE -/

/-- Replace an entry of the queue. -/
def putEntry (s : State) (gi : Nat) (q : ChEntry) : State :=
  s.modGang gi fun g => { g with ch := { g.ch with queue := mapIf (·.id == q.id) (fun _ => q) g.ch.queue } }

/-- An entry has executed. -/
def endEntry (q : ChEntry) (st : FState) (errc : Nat) : ChEntry :=
  { q with
    waits := [], denied := []
    res := some
      { st := st, result := if st == .failed then errc else if st == .done then q.rcount else 0, errc := errc, prog := q.prog
        flags := if st == .cancelled then 0 else q.fl
        crowst := match q.kind, st with
          | .mma .., .done => some q.crow
          | _, _ => none } }

/-- The entry takes what a unit has counted. -/
def ChEntry.count (q : ChEntry) (x : ESt) : ChEntry := { q with prog := x.prog, rcount := x.res, fl := x.fl }

def chEnv (s : State) (gi : Nat) (g : Gang) (q : ChEntry) (halt : Option Nat) : EEnv := ⟨gi, g, q.priv, .m, q.floor, halt, s⟩

/-- Run a unit of an entry. -/
def runUnit (s : State) (gi : Nat) (g : Gang) (q : ChEntry) (halt : Option Nat) :
    EStateM.Result EStop ESt (ChEntry × Bool) :=
  (chUnit (chEnv s gi g q halt) q).run ⟨s, q.prog, q.rcount, q.fl⟩

/-- End an entry at the page where it had parked: what its unit does before that page stands (R192, R195, R227). -/
def endAtPage (s : State) (gi : Nat) (g : Gang) (q : ChEntry) (st : FState) (errc : Nat) : State :=
  match runUnit s gi g q (some q.page) with
  | .ok r x => putEntry x.s gi (endEntry (r.1.count x) st errc)
  | .error _ x => putEntry x.s gi (endEntry (q.count x) st errc)

/-- Post a request of a Churn entry. -/
def parkEntry (s : State) (g : Gang) (gi : Nat) (q : ChEntry) (va : Nat) (write : Bool) : State :=
  let req := match g.wave? q.wave with | some w => reqWord g w true | none => 0
  let r := addReq s g.die g.ctx va 3 (if write then 2 else 1) req (.entry g.id q.id)
  putEntry r.1 gi { q with waits := [r.2], page := va / 2 ^ 16 }

/-- Stop a cancelled entry: one that had parked keeps what its unit does up to the fault (R192, R227). -/
def stopEntry (s : State) (gi : Nat) (g : Gang) (q : ChEntry) : State :=
  if q.waits.isEmpty then putEntry s gi (endEntry q .cancelled 0)
  else endAtPage (dropWaiter s (.entry g.id q.id)) gi g q .cancelled 0

/-- Run the head entry to its next sequencer point. DESIGN CHOICE (log 12). -/
def runEntry (s : State) (gi : Nat) (g : Gang) (q : ChEntry) : State :=
  if q.cancel then stopEntry s gi g q
  else if !q.denied.isEmpty then endAtPage s gi g q .failed 8
  else if !q.waits.isEmpty then s
  else
    match runUnit s gi g q none with
    | .ok (r, fin) x =>
      let r := { r.count x with steps := q.steps + 1 }
      let s := putEntry x.s gi (if fin then endEntry r .done 0 else r)
      (match q.kind with
       | .resolve v => s.modGang gi fun g => { g with ch := closeFrame g.ch (v != 0) }
       | _ => s)
    | .error (.park va wr) _ => parkEntry s g gi q va wr
    | .error (.fail n) x => putEntry x.s gi (endEntry (q.count x) .failed n)

/-- Whether a gang's engines and Churn go on (R312, R315). -/
def Gang.engines (g : Gang) : Bool := g.runs || g.st == .ended || g.st == .killed

/-- The entry that executes next: the first of the queue, if it is not finished. -/
def Gang.entryDue (g : Gang) : Option ChEntry :=
  match g.ch.queue with
  | q :: _ => if g.engines && q.res.isNone then some q else none
  | [] => none

def execChurnEntryExecute (gang : Nat) (s : State) : Out :=
  .next <|
    match s.gangIdx gang with
    | none => s
    | some gi =>
      match s.gang? gi with
      | none => s
      | some g =>
        match g.entryDue with
        | some q => runEntry s gi g q
        | none => s

/-! ## The end of an operation (R194, R376) -/

/-- Where a completion write of `n` bytes goes. -/
inductive CPlace
  | at' (l : Loc) (tag : Option (Nat × Bool))   -- and context and ENC bit of a line of this package
  | none
  | park (va : Nat)
  | bad
  deriving DecidableEq, Repr

/-- A place of completion writes: scratchpad or global. -/
def compPlace (s : State) (g : Gang) (priv spad : Bool) (a n : Nat) : CPlace :=
  if spad then (if a + n ≤ g.spadLen then .at' (.spad a) none else .bad)
  else
    let va := a % 2 ^ 64
    match translate s g ⟨true, false, priv⟩ va n with
    | .ok k => .at' (.mem k) ((homeEnc s g va n).map fun x => (g.ctx, x.2))
    | .park => .park va
    | .fail _ => .bad

/-- The completion record and BAR object of an operation. -/
structure Comp where
  blk  : CPlace
  bar  : CPlace
  deriving DecidableEq, Repr

/-- The object that BAR names; its bits [3:0] are ignored, and 0 is none (R193, R211). -/
def barPlace (s : State) (g : Gang) (priv : Bool) (bar : Nat) : CPlace :=
  if bar / 16 == 0 then .none else compPlace s g priv false (bar / 16 * 16) 16

def CPlace.parks : CPlace → Option Nat
  | .park a => some a
  | _ => Option.none

def CPlace.fails (c : CPlace) : Bool := c == .bad

/-- A completion write whose page was denied is dropped (R304, R376). -/
def CPlace.unlessDenied (denied : List Nat) : CPlace → CPlace
  | .park va => if denied.contains (va / 2 ^ 16) then .bad else .park va
  | c => c

/-- The line of a completion write takes its key slot (R316). -/
def tagPlace (s : State) (l : Loc) (tag : Option (Nat × Bool)) (n : Nat) : State :=
  match l, tag with
  | .mem k, some t => tagLines s t.1 t.2 true k n
  | _, _ => s

/-- Write bytes at a place, if there is one. -/
def putBytes (s : State) (gi : Nat) (c : CPlace) (bs : List Byte) : State :=
  match c with
  | .at' l tag => (tagPlace s l tag bs.length).writeLoc gi l bs
  | _ => s

/-- Write PROG, ERRC and three zero bytes; no cached copy of the record remains, so that whoever reads the future sees it without
a fence (R194, R255). -/
def putRecord (s : State) (gi : Nat) (c : CPlace) (prog errc : Nat) : State :=
  let s := putBytes s gi c (natLe 4 prog ++ natLe 1 errc ++ natLe 3 0)
  match c with
  | .at' l _ => dropCopies s l
  | _ => s

/-- Arrive(1) on BAR (R182), published under its PUB (R184). -/
def arriveAt (s : State) (gi : Nat) (c : CPlace) : State :=
  match c with
  | .at' l tag => arrive (tagPlace s l tag 16) gi l 1
  | _ => s

/-- A future leaves Pending and its flags are set (R92, R194). -/
def reportFut (s : State) (gi wave : Nat) (f : Option FR) (ser : W) (st : FState) (result : Nat) (fl : Flags) : State :=
  match f with
  | none => s
  | some _ =>
    let s := s.finishFut gi wave f ser st result
    if st == .cancelled then s else s.modWave gi wave fun w => w.setFlags fl

/-! ## CHURN_ENTRY_END -/

/-- An entry as its end finds it: a failed completion translation makes it Failed (R376). -/
def ChRes.spoilt (r : ChRes) (c : Comp) (denied : Bool) : ChRes :=
  if denied then { r with st := .failed, result := 8, errc := 8, crowst := none }
  else if c.blk.fails || c.bar.fails then { r with st := .failed, result := 1, errc := 1, crowst := none }
  else r

/-- Report an executed entry: record, `CROWST`, future with flags, arrival. -/
def reportEntry (s : State) (gi : Nat) (q : ChEntry) (r : ChRes) (c : Comp) : State :=
  let s := putRecord s gi c.blk r.prog r.errc
  let s := match r.crowst with
    | some x => s.modGang gi fun g => { g with ch := { g.ch with crowst := x } }
    | none => s
  arriveAt (reportFut s gi q.wave q.freg q.serial r.st r.result r.flags) gi c.bar

/-- Take the head off the queue. -/
def popEntry (s : State) (gi : Nat) : State :=
  s.modGang gi fun g => { g with ch := { g.ch with queue := g.ch.queue.drop 1 } }

/-- Hold an executed entry until its frame resolves (R224). -/
def holdEntry (s : State) (gi : Nat) (q : ChEntry) : State :=
  s.modGang gi fun g =>
    { g with ch := { g.ch with queue := g.ch.queue.drop 1, frame := g.ch.frame.map fun f => { f with held := f.held ++ [q] } } }

def isSpec (k : ChKind) : Bool :=
  match k with
  | .spec .. => true
  | _ => false

/-- Post a request for a completion write. -/
def endParks (s : State) (gi : Nat) (g : Gang) (q : ChEntry) (va : Nat) : State := parkEntry s g gi q va true

def finishEntry (s : State) (gi : Nat) (g : Gang) (q : ChEntry) (r : ChRes) : State :=
  if g.ch.frame.isSome && !isSpec q.kind then holdEntry s gi q
  else
    let blk := if q.hasBlk then compPlace s g q.priv q.bsp (q.blkVa + 120) 8 else .none
    let bar := if q.hasBlk then barPlace s g q.priv (tileNum q 0 8) else .none
    let c : Comp := ⟨blk.unlessDenied q.denied, bar.unlessDenied q.denied⟩
    if !q.waits.isEmpty then s
    else
      match c.blk.parks, c.bar.parks with
      | some va, _ => endParks s gi g q va
      | none, some va => endParks s gi g q va
      | none, none => popEntry (reportEntry s gi q (r.spoilt c (!q.denied.isEmpty)) c) gi

/-- The executed entry at the head of the queue. -/
def Gang.entryDone (g : Gang) : Option (ChEntry × ChRes) :=
  match g.ch.queue with
  | q :: _ => if g.engines then q.res.map fun r => (q, r) else none
  | [] => none

def execChurnEntryEnd (gang : Nat) (s : State) : Out :=
  .next <|
    match s.gangIdx gang with
    | none => s
    | some gi =>
      match s.gang? gi with
      | none => s
      | some g =>
        match g.entryDone with
        | some (q, r) => finishEntry s gi g q r
        | none => s

end Sys2Proof.Machine
end

