-- ==== Sys2Proof/Machine/Start.lean ====
section
/-! DEFINITION. Waves, Churns and gangs as they start (R29-R32, R36, R186, R207, R244). -/

namespace Sys2Proof.Machine

/-- A latch that holds nothing (R36). -/
def lostLatch : Latch := ⟨.untagged, false, true⟩

def emptySlot : Slot := ⟨0, 0, 0, 0, .empty⟩

/-- A slot as slot 0 starts (R36). -/
def startSlot (pc : D) : Slot := ⟨pc, allLanes, allLanes, 0, .ready⟩

/-- A wave at its start (R36): `vregs` vector registers, entry, save area, counter base. -/
def startWave (idx quad qslot vregs stage : Nat) (entry dsaddr rngctr : D) (floor : Nat) : Wave where
  idx := idx
  quad := quad
  qslot := qslot
  vregs := List.replicate vregs ⟨List.replicate 96 0, 0⟩
  sregs := List.replicate 64 0
  sbad := 0
  futs := List.replicate 16 ⟨.empty, 0, 0, .v⟩
  latches := List.replicate 8 lostLatch
  slot0 := startSlot entry
  slot1 := emptySlot
  floors := List.replicate 96 floor
  exited := 0
  dsp := 0
  dsaddr := dsaddr
  flags := 0
  fpen := 0
  mabs := false
  xfault := 0
  rngctr := rngctr
  tcause := 0
  tpc := 0
  tmask := 0
  tval := 0
  trap := none
  ops := []
  opSeq := 0
  arrSeq := 0
  parks := []
  bars := []
  seen := []
  views := [(.c, floor), (.m, floor), (.b, floor), (.s, floor)]
  pubs := 0
  stage := stage
  resv := []
  ended := false

/-- The Churn at a gang's start (R36, R31, R244); `VCNT` reads 64 rows and 64 columns. -/
def startChurn (has : Bool) : Churn where
  accs := if has then List.replicate 4 (List.replicate 4096 0) else []
  saccs := if has then List.replicate 2 (List.replicate 4096 0) else []
  queue := []
  frame := none
  frameAt := false
  rels := List.replicate 4 none
  mrow := 64
  ncol := 64
  crowst := 0

/-- A gang without waves or footprint, as the device itself stands for one when it translates for a context. -/
def blankGang (id ctx die : Nat) : Gang where
  id := id
  grid := 0
  ctx := ctx
  n := 1
  gx := 0
  gy := 0
  gz := 0
  dx := 1
  dy := 1
  dz := 1
  die := die
  byre := 0
  vcount := 0
  spadLen := 0
  churn := false
  priv := false
  depth := 0
  prio := 0
  queue := 0
  lrec := 0
  step := 0
  dcl := List.replicate 16 0
  rngkey := 0
  waves := []
  spad := []
  spadBad := []
  halter := some 0
  eops := []
  nextOp := 0
  ch := startChurn false
  draft := none
  exts := []
  stages := []
  troughs := []
  siloBase := 0
  siloK := 0
  st := .running
  err := false

end Sys2Proof.Machine
end

