-- ==== Sys2Proof/Machine/Launch.lean ====
section
/-! DEFINITION. `LAUNCH`, `SPAWN`, `CANCEL` (R112-R114, R116) and the acceptance of launch records by the queues (R34, R35,
R320-R323, R330). -/

namespace Sys2Proof.Machine

/-! ## Launch records (R320) -/

def recBit (b : List Byte) (i : Nat) : Bool := recNat b 28 1 / 2 ^ i % 2 == 1

def recEntry (b : List Byte) : Nat := recNat b 0 8 / 8 * 8
def recX (b : List Byte) : Nat := recNat b 8 5 + 1
def recY (b : List Byte) : Nat := recNat b 16 4 % 2 ^ 20 + 1
def recZ (b : List Byte) : Nat := recNat b 20 4 % 2 ^ 20 + 1
def recVregs (b : List Byte) : Nat := 8 * (recNat b 24 1 % 16 + 1)
def recWaves (b : List Byte) : Nat := recNat b 25 1 % 16 + 1
def recSpad (b : List Byte) : Nat := recNat b 26 2 % 512
def recChurn (b : List Byte) : Bool := recBit b 0
def recAfter (b : List Byte) : Bool := recBit b 1
def recPipe (b : List Byte) : Bool := recBit b 2
def recTqueue (b : List Byte) : Nat := recNat b 29 1 % 8
def recSilok (b : List Byte) : Nat := recNat b 30 2
def recStgtab (b : List Byte) : Nat := recNat b 40 8 / 64 * 64
def recFrec (b : List Byte) : Nat := recNat b 48 8 / 64 * 64
def recSilobase (b : List Byte) : Nat := recNat b 56 8

/-- Dimensions of a grid; a child gang is a grid of one (R15, R113). -/
def gridDims (kind : GridKind) (b : List Byte) : Nat × Nat × Nat :=
  match kind with
  | .child .. => (1, 1, 1)
  | _ => (recX b, recY b, recZ b)

def gridSize (kind : GridKind) (b : List Byte) : Nat :=
  let d := gridDims kind b
  d.1 * d.2.1 * d.2.2

/-! ## The words -/

/-- Arm a future whose operation has ended at once. -/
def armedNow (e : Env) (f : FR) (st : FState) (result : Nat) : State :=
  let w := e.w.arm f .v
  ({ e with w := w.finish f.toNat (w.fut f.toNat).serial st result }).pass

/-- Put a request into a queue of a context; its future is Pending. -/
def submit (e : Env) (f : FR) (q : Nat) (p : Pend) : State :=
  ({ e with w := e.w.arm f .v }).pass.modCtx e.g.ctx fun c =>
    { c with queues := modAt c.queues q fun l => { l with pend := l.pend ++ [p] } }

/-- A request of the issuing wave. -/
def newPend (e : Env) (f : FR) (rec : D) (comp : Option D) (sc : LScope) (kind : GridKind) (depth : Nat) : Pend where
  gang := e.g.id
  wave := e.w.idx
  f := f
  serial := (e.w.fut f.toNat).serial + 1
  recAddr := rec
  comp := comp
  scope := sc
  die := e.g.die
  kind := kind
  depth := depth
  priv := e.priv
  waits := []
  denied := none

/-- The checks of a word that arms a future and reads address pairs. -/
def chkPairs (e : Env) (f : FR) (ps : List (Nat × Src)) : Chk Unit := do
  chkArmed e f (ps.map fun p => ⟨p.1, p.2, Src.sp⟩)
  chkBusy e (ps.foldr (fun p r => cat2 (srcRegs e.w e.k p.2 2) r) ([], [])) ([], []) false
  chkPoisonS e (ps.map fun p => (srcNum e.w e.k p.2, (e.psrc p.2).2)) 1

/-- `LAUNCH` (R112); the stores that it publishes come first (R258, R261). -/
def execLaunch (sc : LScope) (d : FR) (a b : Src) (q : BitVec 3) (s : State) : Out :=
  onSplit (.launch sc d a b q) s fun e => e.run do
    chkPairs e d [(7, a), (8, b)]
    chkDrained e (BitVec.allOnes 8)
    let r := (e.psrc a).1
    let c := (e.psrc b).1
    .ok (if r.toNat % 128 != 0 || c.toNat % 16 != 0 then armedNow e d .failed 2
      else submit e d q.toNat (newPend e d r (some c) sc .launched 0))

/-- Whether the issuing grid stays on one die; its children do so too. DEDUCED (log 41). -/
def childScope (s : State) (g : Gang) : LScope :=
  match s.grid? g.grid with
  | some r => if r.scope == .die then .die else .pkg
  | none => .die

/-- `SPAWN` (R113). Which RESULT a word has that is wrong in both ways is DESIGN CHOICE (log 84): the misaligned record's. -/
def execSpawn (d : FR) (a : Src) (s : State) : Out :=
  onSplit (.spawn d a) s fun e => e.run do
    chkPairs e d [(7, a)]
    chkDrained e (BitVec.allOnes 8)
    let r := (e.psrc a).1
    let f := (e.w.fut d.toNat).serial + 1
    .ok (if r.toNat % 128 != 0 then armedNow e d .failed 2
      else if 8 ≤ e.g.depth then armedNow e d .failed 4
      else submit e d e.g.queue
        (newPend e d r none (childScope e.s e.g) (.child e.g.id e.w.idx d f) (e.g.depth + 1)))

/-- Whether the root of a grid still deals its gangs. -/
def Grid.dealing (r : Grid) : Bool := !r.early && !r.abort && !r.cancel && r.next < r.total

/-- The grid that a completion object names at its root: where two grids use one object, the first accepted. DESIGN CHOICE
(log 80). -/
def namedGrid (s : State) (ctx : Nat) (comp : D) : Option Grid :=
  s.grids.find? fun r => r.ctx == ctx && r.comp == some comp

/-- Cancel the grid of a context that a completion object names (R114, R346); answers 1 if it was still dealing. Which of two
grids with one object is named is a DESIGN CHOICE (log 80). -/
def cancelGrid (s : State) (ctx : Nat) (comp : D) : State × Nat :=
  match namedGrid s ctx comp with
  | some r => if r.abort || r.cancel || r.early then (s, 0) else (stopGrid s r.id false, r.dealing.toNat)
  | none => (s, 0)

/-- Whether the pod has other packages, whose roots may know an object that no grid of this package uses. -/
def State.hasPeers (s : State) : Bool := s.hub.podMap.any fun p => p != Config.pkg && !s.hub.dead.contains p

/-- The request that a `CANCEL` sends to the root of a pod-wide grid (R346): a grid of this package's root by its number, else
one of another package's by the object; `none` where the request ends here. DESIGN CHOICE (log 80). -/
def cancelMsg (s : State) (ctx : Nat) (comp : D) (gang wave : Nat) (f : FR) (serial : W) : Option Msg :=
  match namedGrid s ctx comp with
  | some r => if r.scope == .pod then some (.cancel r.num gang wave f serial) else none
  | none => if s.hasPeers then some (.cancelAt ctx comp gang wave f serial) else none

/-- `CANCEL` (R114). -/
def execCancel (d : FR) (a : Src) (s : State) : Out :=
  onSplit (.cancel d a) s fun e => e.run do
    chkPairs e d [(7, a)]
    let c := (e.psrc a).1
    .ok (if c.toNat % 16 != 0 then armedNow e d .failed 2
      else
        match cancelMsg e.s e.g.ctx c e.g.id e.w.idx d ((e.w.fut d.toNat).serial + 1) with
        | some m =>
          let s := ({ e with w := e.w.arm d .v }).pass
          { s with msgs := s.msgs ++ [m] }
        | none =>
          let r := (cancelGrid e.s e.g.ctx c).2
          (cancelGrid (armedNow e d .done r) e.g.ctx c).1)

/-! ## Device reads of records -/

/-- Outcome of a device read: bytes, a page to wait for, or a failure. -/
inductive DevRead
  | got (bs : List Byte)
  | park (va : Nat)
  | bad
  deriving DecidableEq, Repr

/-- Read `n` bytes within a page for a context; a poisoned granule makes the read fail. -/
def devRead1 (s : State) (g : Gang) (priv : Bool) (va n : Nat) : DevRead :=
  match translate s g ⟨false, false, priv⟩ (va % 2 ^ 64) n with
  | .ok k => if s.rangeBad 0 (.mem k) n then .bad else .got ((noteTag s g false (va % 2 ^ 64) n).mem.read k n)
  | .park => .park va
  | .fail _ => .bad

/-- Read `n` bytes that may cross one page boundary. -/
def devRead (s : State) (g : Gang) (priv : Bool) (va n : Nat) : DevRead :=
  let k := min n (2 ^ 16 - va % 2 ^ 16)
  match devRead1 s g priv va k with
  | .got bs =>
    if k == n then .got bs
    else
      match devRead1 s g priv (va + k) (n - k) with
      | .got cs => .got (bs ++ cs)
      | r => r
  | r => r

/-- Whether an address lies in a mapped page with EXEC = 1, whatever its RES bit (R320). -/
def mappedExec (s : State) (g : Gang) (va : Nat) : Bool :=
  canonical va &&
    match leafFor s g va with
    | .leaf e _ => pteBit e 3
    | _ => false

/-! ## Stage tables (R330) -/

def stNst (b : List Byte) : Nat := recNat b 0 1
def stNtr (b : List Byte) : Nat := recNat b 1 1
def stEntry (b : List Byte) (i : Nat) : Nat := recNat b (8 + 16 * i) 8
def stInit (b : List Byte) (i : Nat) : Nat := recNat b (16 + 16 * i) 1
def stTr (b : List Byte) (t : Nat) : Nat := 8 + 16 * stNst b + 8 * t
def stToff (b : List Byte) (t : Nat) : Nat := recNat b (stTr b t) 4
def stSlots (b : List Byte) (t : Nat) : Nat := recNat b (stTr b t + 4) 2
def stFrom (b : List Byte) (t : Nat) : Nat := recNat b (stTr b t + 6) 1
def stTo (b : List Byte) (t : Nat) : Nat := recNat b (stTr b t + 7) 1

/-- Bytes of the largest stage table. -/
def stageTabLen : Nat := 200

def troughOk (b : List Byte) (spad t : Nat) : Bool :=
  stToff b t % 64 == 0 && 1 ≤ stSlots b t && stSlots b t ≤ 1024 && stFrom b t != stTo b t && stFrom b t < stNst b
    && stTo b t < stNst b && stToff b t + 64 + 64 * stSlots b t ≤ spad

/-- A valid stage table. -/
def stageTabOk (s : State) (g : Gang) (rec b : List Byte) : Bool :=
  let ss := List.range (stNst b)
  let ts := List.range (stNtr b)
  1 ≤ stNst b && stNst b ≤ 8 && stNtr b ≤ 8
    && (ss.all fun i => 1 ≤ stInit b i && stInit b i ≤ 16 && mappedExec s g (stEntry b i / 8 * 8))
    && (ss.map (stInit b)).foldl (· + ·) 0 == recWaves rec
    && (ts.all fun t => troughOk b (4096 * recSpad rec) t && ts.all fun u => t == u || stTo b t != stTo b u)

/-! ## Acceptance -/

/-- What the examination of a record finds: a page to wait for, or STAT (0, 1, 4) with record and stage table. -/
inductive Exam
  | wait (va : Nat)
  | record (stat : Nat) (bytes stab : List Byte)
  deriving DecidableEq, Repr

/-- Whether a footprint fits on an empty Byre (R35). -/
def fitsEmpty (b : List Byte) : Bool := (recWaves b + 3) / 4 * recVregs b ≤ 336

/-- Checks of a record that has been read, the stage table aside. -/
def recStat (s : State) (g : Gang) (kind : GridKind) (b : List Byte) : Nat :=
  if gridSize kind b ≤ 2 ^ 40 && recSpad b ≤ 256 && mappedExec s g (recEntry b)
      && (recSilok b == 0 || recSilobase b % 2 ^ 16 == 0) then (if fitsEmpty b then 0 else 4)
  else 1

/-- Examine a record at acceptance; `denied` says that a request for it was denied (R304, R320). DEDUCED (log 40). -/
def examine (s : State) (g : Gang) (kind : GridKind) (priv denied : Bool) (va : Nat) : Exam :=
  match devRead1 s g priv va 96 with
  | .park p => if denied then .record 1 (List.replicate 96 0) [] else .wait p
  | .bad => .record 1 (List.replicate 96 0) []
  | .got b =>
    if !recPipe b then .record (recStat s g kind b) b []
    else if recStgtab b == 0 then .record 1 b []
    else
      let n := min stageTabLen (2 ^ 64 - recStgtab b)
      match devRead s g priv (recStgtab b) (min n 8) with
      | .park p => if denied then .record 1 b [] else .wait p
      | .bad => .record 1 b []
      | .got h =>
        match devRead s g priv (recStgtab b) (min n (8 + 16 * stNst h + 8 * stNtr h)) with
        | .park p => if denied then .record 1 b [] else .wait p
        | .bad => .record 1 b []
        | .got t => .record (if stageTabOk s g b t then recStat s g kind b else 1) b t

/-- The packages of the pod map (R335). -/
def podPkgs (s : State) : List PodPkg :=
  (if s.hub.podMap.isEmpty then [Config.pkg] else s.hub.podMap).map fun p => ⟨p, 0, false, false, 0, 0, 0⟩

/-- Steward and paging-handler grids are privileged throughout (R27). -/
def GridKind.isPriv : GridKind → Bool
  | .steward => true
  | .pager _ => true
  | _ => false

/-- A grid as it is accepted. -/
def newGrid (s : State) (c : Ctx) (q : Nat) (l : LQueue) (p : Pend) (stat : Nat) (bytes stab : List Byte) : Grid where
  id := s.ids
  num := Config.pkg * 2 ^ 64 + s.ids
  ctx := c.id
  queue := q
  prio := l.prio
  scope := p.scope
  die := p.die
  kind := p.kind
  priv := p.kind.isPriv
  depth := p.depth
  recAddr := p.recAddr
  comp := p.comp
  bytes := bytes
  step := c.step
  total := if stat == 1 then 0 else gridSize p.kind bytes
  next := 0
  chunks := []
  started := false
  doneg := 0
  cancg := 0
  errg := 0
  faults := 0
  first := none
  fmap := []
  relayed := none
  stat := stat
  abort := false
  cancel := false
  early := stat != 0
  pkgs := if p.scope == .pod then podPkgs s else []
  groups := []
  root := true
  recPriv := p.priv
  pos := l.accepted
  stab := stab
  exts := []
  waits := []
  denied := []

/-- Enter a grid into its queue. -/
def enterGrid (s : State) (ctx q : Nat) (r : Grid) : State :=
  let s := s.modCtx ctx fun c =>
    { c with queues := modAt c.queues q fun l => { l with grids := l.grids ++ [r.id], accepted := l.accepted + 1 } }
  { s with grids := s.grids ++ [r], ids := s.ids + 1 }

/-- The `LAUNCH` future becomes Done with the queue position (R112); that of `SPAWN` waits for the child. -/
def tellAccepted (s : State) (p : Pend) (pos : Nat) : State :=
  match p.kind with
  | .launched =>
    (match s.gangIdx p.gang with
     | some gi => s.finishFut gi p.wave (some p.f) p.serial .done pos
     | none => s)
  | _ => s

/-- The request at the head of a queue, when it can be examined. -/
def acceptHead (s : State) (ctx queue : Nat) : Option (Ctx × LQueue × Pend) :=
  match s.ctx? ctx with
  | none => none
  | some c =>
    match c.queues[queue]? with
    | none => none
    | some l =>
      match l.pend with
      | p :: _ => if l.grids.length < 64 && p.waits.isEmpty then some (c, l, p) else none
      | [] => none

def modPend (s : State) (ctx queue : Nat) (f : List Pend → List Pend) : State :=
  s.modCtx ctx fun c => { c with queues := modAt c.queues queue fun l => { l with pend := f l.pend } }

/-- The task from which a grid comes. -/
def taskOf (s : State) (k : GridKind) : Option Task :=
  match k with
  | .task d a => (s.die? d).bind fun d => d.tasks.find? fun t => t.key == a
  | _ => none

/-- The fault of a task's grid whose declared range did not translate (R301, R344): FSRC 1. -/
def rangeFault (die sub va : Nat) : FaultRep :=
  ⟨causeWord (trAccess sub va 0), BitVec.ofNat 32 (Config.pkg * 2 ^ 19 + die * 2 ^ 17), 0, BitVec.ofNat 64 va, 0, 0, 0, 1⟩

/-- End a task's grid at once if its declared ranges failed. -/
def taskFault (s : State) (p : Pend) (id : Nat) : State :=
  match (taskOf s p.kind).bind fun t => t.fail with
  | some f => faultGrid s id (rangeFault p.die f.1 f.2)
  | none => s

/-- Accept a request, with what a paging handler's or a task's grid takes from its origin (R301, R305). A record for which a
request was denied is malformed, whatever its page is by now (R304, R320). -/
def acceptOne (s : State) (queue : Nat) (c : Ctx) (l : LQueue) (p : Pend) : State :=
  let g := blankGang 0 c.id p.die
  let noWait := match p.kind with
    | .pager _ => true
    | _ => p.denied.isSome
  match examine s g p.kind p.priv noWait p.recAddr.toNat with
  | .wait va =>
    let r := addReq s p.die c.id va 4 1 (p.die * 2 ^ 17) (.accept c.id queue)
    modPend r.1 c.id queue fun ps => match ps with
      | x :: xs => { x with waits := [r.2] } :: xs
      | [] => []
  | .record stat bytes stab =>
    let stat := if p.denied.isNone then stat else if (taskOf s p.kind).any (·.fail.isSome) then 0 else 1
    let r := newGrid s c queue l p stat bytes stab
    let r := { r with exts := ((taskOf s p.kind).map (·.exts)).getD [], denied := p.denied.toList }
    let s := enterGrid (modPend s c.id queue fun ps => ps.drop 1) c.id queue r
    let s := match p.kind with
      | .task d a => s.modDie d fun d => { d with tasks := mapIf (·.key == a) (fun t => { t with grid := some r.id }) d.tasks }
      | .pager d => s.modDie d fun d => { d with busy := d.busy.map fun b => if b.1 == c.id then (b.1, r.id, b.2.2) else b }
      | _ => s
    tellAccepted (taskFault s p r.id) p l.accepted

/-- `LAUNCH_ACCEPT` (R320-R322). -/
def execLaunchAccept (ctx queue : Nat) (s : State) : Out :=
  .next <|
    match acceptHead s ctx queue with
    | some (c, l, p) => acceptOne s queue c l p
    | none => s

end Sys2Proof.Machine
end

