-- ==== Sys2Proof/Machine/Fault.lean ====
section
/-! DEFINITION. The fault queues and the fault service (R302-R305), `FLTRES` and `IDLEW` (R319). -/

namespace Sys2Proof.Machine

/-! ## Resolving a request (R304) -/

/-- What a resolution does to an operation that waits on request `id`. One that resumes sees what the resolving side has
published to its class, up to serial `see` (R298, R319). One that is cancelled no longer waits, be it that the request to cancel
came before it parked: then too the request reaches it where it is parked (R192). DESIGN CHOICE (log 91). -/
def freeOp (id page : Nat) (ok : Bool) (see : PClass → Nat) (o : EngOp) : EngOp :=
  if o.waits.contains id && !(o.cancel && o.out.isNone) then
    { o with
      waits := o.waits.filter (· != id), denied := if ok then o.denied else page :: o.denied
      floor := if ok then max o.floor (see o.pclass) else o.floor }
  else o

def freeEntry (id page : Nat) (ok : Bool) (see : PClass → Nat) (q : ChEntry) : ChEntry :=
  if q.waits.contains id && !(q.cancel && q.res.isNone) then
    { q with
      waits := q.waits.filter (· != id), denied := if ok then q.denied else page :: q.denied
      floor := if ok then max q.floor (see .m) else q.floor }
  else q

def freeTask (id page : Nat) (ok : Bool) (see : PClass → Nat) (t : Task) : Task :=
  let t := { t with op := t.op.map (freeOp id page ok see) }
  if t.waits.contains id then { t with waits := t.waits.filter (· != id), denied := if ok then t.denied else some page } else t

def freePend (id page : Nat) (ok : Bool) (p : Pend) : Pend :=
  if p.waits.contains id then { p with waits := p.waits.filter (· != id), denied := if ok then p.denied else some page } else p

def freePark (id : Nat) (ok : Bool) (p : Park) : Park :=
  if p.req == id then { p with settled := true, denied := !ok } else p

/-- A barrier arrival that waited for its object's page may be made, or is dropped (R168, R376). -/
def freeBar (id : Nat) (ok : Bool) (b : BarLanes) : BarLanes :=
  if b.waits == some id then { b with waits := none, dropped := !ok } else b

/-- The stage table of a grid message cannot be read here (R304, R336). -/
def Msg.deny (num : Nat) (m : Msg) : Msg :=
  match m with
  | .grid d n c q p b st lo hi x => .grid d n c q p b st lo hi (x || n == num)
  | m => m

/-- The lanes of a wave that a resolution with `.ok` frees walk the table again, an acquire at `.pkg` of what the resolving side
has released (R298, R319). -/
def lanesResume (s : State) (gi wi id : Nat) : State :=
  match s.wave? gi wi with
  | some w => s.acquire gi wi ((w.parks.filter fun p => p.req == id).foldl (fun m p => m ||| p.lanes) 0) 2
  | none => s

/-- One requester leaves its parked state or learns of the denial. -/
def freeWaiter (id page : Nat) (ok : Bool) (s : State) (who : Waiter) : State :=
  let onGang (g : Nat) (f : Gang → Gang) : State := { s with gangs := mapIf (·.id == g) f s.gangs }
  let see := s.viewAt 0 2
  match who with
  | .lanes g w =>
    let s := onGang g fun g => { g with waves := modAt g.waves w fun w => { w with parks := w.parks.map (freePark id ok) } }
    (match s.gangIdx g with
     | some gi => if ok then lanesResume s gi w id else s
     | none => s)
  | .bar g w =>
    let s := onGang g fun g => { g with waves := modAt g.waves w fun w => { w with bars := w.bars.map (freeBar id ok) } }
    (match s.gangIdx g with
     | some gi => if ok then arriveIfAll s gi w else s
     | none => s)
  | .silo g t =>
    (match s.gangIdx g with
     | some gi => if ok then s else siloDenied s gi t
     | none => s)
  | .op g _ => onGang g fun g => { g with eops := g.eops.map (freeOp id page ok see) }
  | .entry g _ => onGang g fun g => { g with ch := { g.ch with queue := g.ch.queue.map (freeEntry id page ok see) } }
  | .task d _ => s.modDie d fun d => { d with tasks := d.tasks.map (freeTask id page ok see) }
  | .accept c q => modPend s c q fun ps => ps.map (freePend id page ok)
  | .grid r => s.modGrid r fun r =>
      if r.waits.contains id then
        { r with waits := r.waits.filter (· != id), denied := if ok then r.denied else page :: r.denied }
      else r
  | .message n => if ok then s else { s with msgs := s.msgs.map (Msg.deny n) }

/-- Resolve a request with `.ok` or `.deny`. -/
def resolveReq (ok : Bool) (s : State) (r : FReq) : State :=
  let s := { s with reqs := s.reqs.filter fun x => x.id != r.id }
  r.waiters.foldl (freeWaiter r.id r.page ok) s

/-! ## Waking an `IDLEW` (R319) -/

/-- The split in a slot, as a word that ends there sees it. -/
def State.envAt (s : State) (gi wi : Nat) (k : Bool) : Option Env :=
  match s.gang? gi with
  | some g =>
    match g.wave? wi with
    | some w => some ⟨s, gi, wi, k, g, w, 0⟩
    | none => none
  | none => none

/-- The event of an `IDLEW` has come: its split is issued again and ends the word with value `x`. -/
def wakeIdle (s : State) (gi wi : Nat) (k : Bool) (x : W) : State :=
  s.modWave gi wi fun w => w.modSlot k fun y => { y with st := .blocked (.woken x) }

/-- The register and deadline of a split that idles, and whether a posted request wakes it. -/
def Slot.idles (x : Slot) : Option (SR × D × Bool) :=
  match x.st with
  | .blocked (.idle d t p) => some (d, t, p)
  | _ => none

/-- A request is posted to a die's queue: splits there that asked for it wake. -/
def wakePosted (s : State) (die : Nat) : State :=
  (candsWhere' s).foldl (fun s c =>
    match s.gang? c.gang with
    | some g =>
      if g.die != die then s
      else
        match g.wave? c.wave with
        | some w =>
          (match (w.slot c.slot).idles with
           | some (_, _, true) => wakeIdle s c.gang c.wave c.slot 1
           | _ => s)
        | none => s
    | none => s) s
where
  /-- Every slot of every wave. -/
  candsWhere' (s : State) : List Cur :=
    (s.gangs.zip (List.range s.gangs.length)).flatMap fun p =>
      (List.range p.1.waves.length).flatMap fun wi => [⟨p.2, wi, false⟩, ⟨p.2, wi, true⟩]

def execIdlewDeadline (gang wave : Nat) (slot : Bool) (s : State) : Out :=
  .next <|
    match s.gangIdx gang with
    | none => s
    | some gi =>
      match s.wave? gi wave with
      | none => s
      | some w =>
        match (w.slot slot).idles with
        | some (_, t, _) => wakeIdle { s with timeNs := max s.timeNs t.toNat } gi wave slot 0
        | none => s

/-! ## Posting (R303) -/

/-- Requests of a die that are posted and not resolved. -/
def postedOn (s : State) (die : Nat) : List FReq := s.reqs.filter fun r => r.die == die && r.posted

/-- Whether a request can be posted: 256 entries at most are unresolved. -/
def canPost (s : State) (r : FReq) : Bool := !r.posted && (postedOn s r.die).length < 256

/-- The 32-byte queue entry of a request. -/
def reqEntry (r : FReq) : List Byte :=
  natLe 8 r.va ++ natLe 1 (r.ctx % 64) ++ natLe 1 r.kind ++ natLe 1 r.acc ++ natLe 1 0 ++ natLe 4 r.req ++ natLe 4 r.seq
    ++ natLe 4 r.count ++ natLe 8 0

/-- The walker writes the entry into its slot of the ring and arrives on the queue's barrier object. -/
def postEntry (s : State) (r : FReq) : State :=
  arrive (s.writeLoc 0 (.mem (Config.queueKey r.die + 32 * (r.seq % 256))) (reqEntry r)) 0 (.mem (Config.queueObj r.die)) 1

def execFaultRequestPost (req : Nat) (s : State) : Out :=
  .next <|
    match s.reqs.find? fun r => r.id == req with
    | none => s
    | some r =>
      if !canPost s r then s
      else
        let seq := ((s.die? r.die).map (·.fseq)).getD 0
        let s := { s with reqs := mapIf (·.id == req) (fun x => { x with posted := true, seq := seq }) s.reqs }
        wakePosted (postEntry (s.modDie r.die fun d => { d with fseq := (d.fseq + 1) % 2 ^ 32 }) { r with seq := seq }) r.die

/-! ## The fault service (R304, R305) -/

/-- Whether a paging handler of a context runs on a die. -/
def Die.pagerBusy (d : Die) (ctx : Nat) : Bool := d.busy.any fun b => b.1 == ctx

/-- Whether the first requester is a gang of a paging handler or of the fault service. -/
def fromPager (s : State) (r : FReq) : Bool :=
  let gang := match r.waiters.head? with
    | some (.lanes g _) => some g
    | some (.bar g _) => some g
    | some (.silo g _) => some g
    | some (.op g _) => some g
    | some (.entry g _) => some g
    | _ => none
  match gang.bind fun g => s.gangs.find? (·.id == g) with
  | some g =>
    g.ctx == Config.sysCtx ||
    (match s.grid? (s.rootGrid 9 g.grid) with
     | some x => (match x.kind with | .pager _ => true | _ => false)
     | none => false)
  | none => false

/-- The request that the fault service of a die takes next: one that a handler's own gang has posted, to be denied at once; else
the lowest SEQ whose context has no handler running. -/
def nextReq (s : State) (die : Nat) : Option FReq :=
  match s.die? die with
  | none => none
  | some d =>
    let rs := (postedOn s die).filter fun r => !r.taken
    match leastBy (·.seq) (rs.filter (fromPager s)) with
    | some r => some r
    | none => leastBy (·.seq) (rs.filter fun r => !d.pagerBusy r.ctx)

/-- Whether the fault-service gang of a die is resident (R304). -/
def State.hasService (s : State) (die : Nat) : Bool := s.gangs.any fun g => g.ctx == Config.sysCtx && g.die == die

/-- The launch of a paging handler, as a request of its context's queue 7. -/
def pagerPend (va : Nat) (die : Nat) : Pend where
  gang := 0
  wave := 0
  f := 0
  serial := 0
  recAddr := BitVec.ofNat 64 va
  comp := none
  scope := .die
  die := die
  kind := .pager die
  depth := 0
  priv := true
  waits := []
  denied := none

/-- Hand a request to its context's paging handler, or deny it. DESIGN CHOICE (log 21), DEDUCED (log 58). -/
def serve (s : State) (die : Nat) (r : FReq) : State :=
  match s.ctx? r.ctx with
  | none => resolveReq false s r
  | some c =>
    if c.pghnd == 0 || fromPager s r then resolveReq false s r
    else
      let va := c.pghnd + 128 * die
      match translate s (blankGang 0 c.id die) ⟨true, false, true⟩ ((va + 64) % 2 ^ 64) 32 with
      | .ok k =>
        let s := noteTag s (blankGang 0 c.id die) true ((va + 64) % 2 ^ 64) 32
        let s := s.writeLoc 0 (.mem k) (reqEntry r)
        let s := { s with reqs := mapIf (·.id == r.id) (fun x => { x with taken := true }) s.reqs }
        let s := s.modDie die fun d => { d with busy := d.busy ++ [(c.id, 0, r.id)] }
        modPend s c.id 7 fun ps => ps ++ [pagerPend va die]
      | _ => resolveReq false s r

def execFaultServiceDispatch (die : Nat) (s : State) : Out :=
  .next <|
    if s.hub.thsd || !s.hasService die then s
    else
      match nextReq s die with
      | some r => serve s die r
      | none => s

/-- A paging-handler grid has completed: what it was given and has not resolved is denied. -/
def pagerDone (s : State) (die ctx : Nat) : State :=
  match s.die? die with
  | none => s
  | some d =>
    let mine := d.busy.filter fun b => b.1 == ctx
    let s := s.modDie die fun d => { d with busy := d.busy.filter fun b => b.1 != ctx }
    (s.reqs.filter fun r => mine.any fun b => b.2.2 == r.id).foldl (resolveReq false) s

/-! ## FLTRES and IDLEW (R317, R319) -/

/-- The checks of a privileged word without a future: operands `ps` are pairs that hold addresses, `xs` words; `val` is the check
of an operand's value, which is `ILLEGAL` too (R306). DEDUCED (log 30). -/
def chkSys (e : Env) (priv : Bool) (ps xs : List (Nat × Src)) (wr : List Nat × List Nat) (val : Chk Unit := .ok ()) :
    Chk Unit := do
  if priv then chkPriv e
  let fs : List Fld := (ps.map fun p => ⟨p.1, p.2, Src.sp⟩) ++ xs.map fun p => ⟨p.1, p.2, Src.gs⟩
  chkAll (fun x => need (latchClass e x) (trIllegal e 2 x.code false)) fs
  let rd := cat2 (ps.foldr (fun p r => cat2 (srcRegs e.w e.k p.2 2) r) ([], []))
    (xs.foldr (fun p r => cat2 (srcRegs e.w e.k p.2 1) r) ([], []))
  chkBusy e rd wr false
  val
  chkLatches e fs
  chkPoisonS e (ps.map fun p => (srcNum e.w e.k p.2, (e.psrc p.2).2)) 1
  chkPoisonS e (xs.map fun p => (srcNum e.w e.k p.2, (e.ssrc .s32 p.2).2)) 0

/-- A check of the value of a 32-bit operand; one whose latch is lost has none. -/
def needVal (e : Env) (a : Src) (ok : W → Bool) (t : Trap) : Chk Unit :=
  if (latchStop e a).isSome then .ok () else need (ok (e.ssrc .s32 a).1) t

/-- Requests of a context for a page, on every die. -/
def reqsFor (s : State) (ctx page : Nat) : List FReq := s.reqs.filter fun r => r.ctx == ctx && r.page == page

/-- `FLTRES`: a release at `.pkg` of the split's earlier stores, then the resolution. -/
def fltres (i : Instr) (ok : Bool) (a b : Src) (s : State) : Out :=
  onSplit i s fun e => e.run do
    chkSys e true [(7, a)] [(8, b)] ([], [])
    chkDrained e (BitVec.allOnes 8)
    let rs := reqsFor e.s (e.ssrc .s32 b).1.toNat ((e.psrc a).1.toNat / 2 ^ 16)
    .ok (rs.foldl (resolveReq ok) (e.pass.modWave e.gi e.wi fun w => { w with pubs := max w.pubs (e.s.fills + 1) }))

def execFltresOk (a b : Src) (s : State) : Out := fltres (.fltresOk a b) true a b s

def execFltresDeny (a b : Src) (s : State) : Out := fltres (.fltresDeny a b) false a b s

/-- The value with which a split's `IDLEW` ends, once its event has come. -/
def Slot.wokenBy (x : Slot) : Option W :=
  match x.st with
  | .blocked (.woken v) => some v
  | _ => none

/-- `IDLEW` (R319). -/
def execIdlew (d : SR) (a b : Src) (s : State) : Out :=
  onSplit (.idlew d a b) s fun e => e.run <|
    match e.slot.wokenBy with
    | some x => .ok (sclPut e e.w d x)
    | none => do
      chkSys e false [(7, a)] [(8, b)] ([], [d.toNat]) (needVal e b (fun x => !x.getLsbD 0 || e.priv) (trIllegal e 3 0 false))
      let t := (e.psrc a).1
      let p := (e.ssrc .s32 b).1.getLsbD 0
      needWait (t.toNat ≤ e.s.timeNs) (.idle d t p)
      .ok (sclPut e e.w d 0)

end Sys2Proof.Machine
end

