-- ==== Sys2Proof/Machine/Deal.lean ====
section
/-! DEFINITION. Dealing and placement of gangs, and the completion of gangs and grids (R35, R36, R113, R192, R321-R325, R330, R340,
R344, R352, R376). -/

namespace Sys2Proof.Machine

/-! ## Placement on a Byre (R35, R325) -/

/-- What a gang takes of a Byre. -/
structure Foot where
  waves : Nat
  vregs : Nat
  spad  : Nat
  churn : Bool
  deriving DecidableEq, Repr

def recFoot (b : List Byte) : Foot := ⟨recWaves b, recVregs b, 4096 * recSpad b, recChurn b⟩

def Gang.foot (g : Gang) : Foot := ⟨g.n, g.vcount, g.spadLen, g.churn⟩

/-- Gangs resident on a Byre. -/
def onByre (s : State) (die byre : Nat) : List Gang :=
  s.gangs.filter fun g => g.die == die && g.byre == byre && g.st.resident

/-- A quadrant: slots in use and vector registers taken. -/
structure QuadUse where
  slots : List Nat
  vregs : Nat
  deriving DecidableEq, Repr

def quadUse (gs : List Gang) (q : Nat) : QuadUse :=
  let ws := gs.flatMap fun g => (g.waves.filter fun w => w.quad == q).map fun w => (w.qslot, g.vcount)
  ⟨ws.map (·.1), (ws.map (·.2)).foldl (· + ·) 0⟩

/-- Place waves one by one on the quadrant that holds the fewest; answers (quadrant, slot) of each. -/
def placeWaves (vregs : Nat) : Nat → List QuadUse → Option (List (Nat × Nat))
  | 0, _ => some []
  | n + 1, qs =>
    let room := (List.range 4).filter fun q =>
      match qs[q]? with
      | some u => u.slots.length < 4 && u.vregs + vregs ≤ 336
      | none => false
    match leastBy (fun q => ((qs[q]?).map fun u => u.slots.length).getD 4) room with
    | none => none
    | some q =>
      let used := ((qs[q]?).map (·.slots)).getD []
      let slot := (((List.range 4).filter fun k => !used.contains k).head?).getD 0
      (placeWaves vregs n (modAt qs q fun u => ⟨slot :: u.slots, u.vregs + vregs⟩)).map fun r => (q, slot) :: r

/-- The places of a gang's waves on a Byre, if it fits there. -/
def fits (s : State) (die byre : Nat) (f : Foot) : Option (List (Nat × Nat)) :=
  let gs := onByre s die byre
  if die < 4 && byre < 80 && (gs.map (·.spadLen)).foldl (· + ·) 0 + f.spad ≤ 2 ^ 20 && !(f.churn && gs.any (·.churn)) then
    placeWaves f.vregs f.waves ((List.range 4).map (quadUse gs))
  else none

/-- The first Byre of a die on which a footprint fits. -/
def fitsDie (s : State) (die : Nat) (f : Foot) : Option Nat := (List.range 80).find? fun b => (fits s die b f).isSome

/-! ## Which grid is dealt next (R323, R325, R340) -/

/-- Undealt gangs that this package holds of a grid: for a pod-wide grid those received (unit 4). -/
def Grid.heldHere (r : Grid) : Nat :=
  if r.scope == .pod then ((r.chunks.filter fun c => c.unit == 4).map fun c => c.hi - c.lo).foldl (· + ·) 0
  else r.total - r.next

def Grid.over (r : Grid) : Bool := r.early || r.abort || r.cancel

/-- Whether every gang of a grid has been dealt, cancelled or discarded, as its root and this package see it. -/
def Grid.dealtAll (r : Grid) : Bool := r.over || ((!r.root || r.next == r.total) && r.heldHere == 0)

/-- Grids before `r` in its queue: those of another root package are counted among themselves (R340). -/
def State.before (s : State) (r : Grid) : List Grid :=
  s.grids.filter fun x => x.ctx == r.ctx && x.queue == r.queue && x.num / 2 ^ 64 == r.num / 2 ^ 64 && x.id < r.id

/-- Whether a grid waits until the grid before it has completed (R323); a child gang's record does not say so (R113). -/
def Grid.after (r : Grid) : Bool :=
  match r.kind with
  | .child .. => false
  | _ => recAfter r.bytes

/-- Whether a grid may start, or has started. -/
def State.eligible (s : State) (r : Grid) : Bool :=
  r.started ||
    ((s.before r).all fun x => x.dealtAll) && !(r.after && (s.before r).any fun x => x.pos + 1 == r.pos)

/-- The next gang that a die holds of a grid. -/
def Grid.nextOn (r : Grid) (die : Nat) : Option Nat :=
  if r.over then none else (r.chunks.find? fun c => c.unit == die && c.lo < c.hi).map (·.lo)

/-- Whether the dispatcher may deal a chunk of a grid to a die: the die asks for one once it holds no undealt gang and a Byre of
it has room. -/
def dealOk (s : State) (die : Nat) (r : Grid) : Bool :=
  !r.over && s.eligible r && ((s.before r).all fun x => x.dealtAll) && (r.scope != .die || r.die == die) && 0 < r.heldHere
    && !(s.grids.any fun x => (x.nextOn die).isSome) && !s.hub.thsd && (fitsDie s die (recFoot r.bytes)).isSome

/-- Turn of a (context, queue) pair after the pair served last. -/
def turnOf (s : State) (r : Grid) : Nat := (r.ctx * 8 + r.queue + 512 - (s.lastServed + 1) % 512) % 512

/-- The grid that a die is dealt from: the highest priority, in turn among equals. DEDUCED (log 57). -/
def dealPick (s : State) (die : Nat) : Option Grid :=
  leastBy (fun r => (7 - r.prio) * 512 + turnOf s r) (s.grids.filter (dealOk s die))

/-- The chunk size of R325. -/
def chunkSize (rem : Nat) : Nat := min rem (max 80 ((rem + 7) / 8))

/-- Take `n` gangs for a die out of the ranges that the package holds, in order: what is left, and the die's ranges. -/
def takeHeld (die : Nat) : Nat → List Chunk → List Chunk × List Chunk
  | _, [] => ([], [])
  | n, c :: cs =>
    if c.unit != 4 then
      let q := takeHeld die n cs
      (c :: q.1, q.2)
    else
      let k := min n (c.hi - c.lo)
      let q := takeHeld die (n - k) cs
      (if c.lo + k < c.hi then { c with lo := c.lo + k } :: q.1 else q.1,
        if 0 < k then ⟨die, c.lo, c.lo + k⟩ :: q.2 else q.2)

/-- Take a chunk for a die out of what the package holds. Where a pod-wide grid's package holds several ranges, a chunk runs on
from one to the next. DEDUCED (log 57). -/
def Grid.deal (r : Grid) (die : Nat) : Grid :=
  if r.scope == .pod then
    let q := takeHeld die (chunkSize r.heldHere) r.chunks
    { r with started := true, chunks := q.1 ++ q.2 }
  else
    let n := chunkSize r.heldHere
    { r with started := true, next := r.next + n, chunks := r.chunks ++ [⟨die, r.next, r.next + n⟩] }

def execChunkDeal (grid die : Nat) (s : State) : Out :=
  .next <|
    match dealPick s die with
    | some r =>
      if r.id == grid then { s.modGrid grid fun r => r.deal die with lastServed := r.ctx * 8 + r.queue } else s
    | none => s

/-! ## GANG_PLACE (R35, R36, R321, R325, R352) -/

/-- The stage of wave `i` (R330). -/
def stageOf (b : List Byte) (i : Nat) : Nat :=
  let upto (k : Nat) : Nat := ((List.range (k + 1)).map (stInit b)).foldl (· + ·) 0
  (((List.range (stNst b)).find? fun k => i < upto k)).getD 0

/-- The area of a wave position (R352). -/
def dsAddr (c : Ctx) (die byre quad slot : Nat) : D :=
  BitVec.ofNat 64 (c.save + 4096 * ((die * 80 + byre) * 16 + quad * 4 + slot))

def newStages (b : List Byte) : List Stage :=
  (List.range (stNst b)).map fun i => ⟨BitVec.ofNat 64 (stEntry b i / 8 * 8), stInit b i, false⟩

def newTroughs (b : List Byte) : List Trough :=
  (List.range (stNtr b)).map fun t => ⟨stToff b t, stSlots b t, stFrom b t, stTo b t, [], 0, 0, false⟩

/-- Wave `i` of a gang at its start. -/
def newWave (s : State) (r : Grid) (c : Ctx) (die byre i : Nat) (at' : Nat × Nat) : Wave :=
  let st := if recPipe r.bytes then stageOf r.stab i else 0
  let entry := if recPipe r.bytes then stEntry r.stab st / 8 * 8 else recEntry r.bytes
  startWave i at'.1 at'.2 (recVregs r.bytes) st (BitVec.ofNat 64 entry) (dsAddr c die byre at'.1 at'.2)
    (BitVec.ofNat 64 (recNat r.bytes 32 8)) (s.fills + 1)

/-- Gang `n` of a grid at its start. -/
def newGang (s : State) (r : Grid) (c : Ctx) (die byre n : Nat) (places : List (Nat × Nat)) : Gang :=
  let d := gridDims r.kind r.bytes
  { blankGang s.ids r.ctx die with
    grid := r.id, n := recWaves r.bytes, gx := n % d.1, gy := n / d.1 % d.2.1, gz := n / (d.1 * d.2.1)
    dx := d.1, dy := d.2.1, dz := d.2.2, byre := byre, vcount := recVregs r.bytes, spadLen := 4096 * recSpad r.bytes
    churn := recChurn r.bytes, priv := r.priv, depth := r.depth, prio := r.prio, queue := r.queue, lrec := r.recAddr
    step := r.step, dcl := c.dcl, rngkey := c.rngkey
    waves := (places.zip (List.range places.length)).map fun p => newWave s r c die byre p.2 p.1
    ch := startChurn (recChurn r.bytes), exts := r.exts
    stages := if recPipe r.bytes then newStages r.stab else []
    troughs := if recPipe r.bytes then newTroughs r.stab else []
    siloBase := recSilobase r.bytes, siloK := recSilok r.bytes }

/-- The first undealt gang of a die's ranges goes. -/
def dropFirst (die : Nat) : List Chunk → List Chunk
  | [] => []
  | c :: cs =>
    if c.unit == die && c.lo < c.hi then (if c.lo + 1 < c.hi then { c with lo := c.lo + 1 } :: cs else cs)
    else c :: dropFirst die cs

/-- One gang of a die's chunk has been placed. -/
def Grid.took (r : Grid) (die : Nat) : Grid := { r with chunks := dropFirst die r.chunks }

/-- Saved gangs that a die may restore. -/
def restorable (s : State) (die : Nat) : List Gang :=
  s.gangs.filter fun g => g.die == die && g.st == .saved true && (fitsDie s die g.foot).isSome

/-- Whether something that could be placed on a die comes before a gang of priority `p`; saved gangs of the same priority
come before undealt ones (R326). -/
def outranked (s : State) (die p : Nat) (saved : Bool) : Bool :=
  (s.grids.any fun r => (r.nextOn die).isSome && p < r.prio && (fitsDie s die (recFoot r.bytes)).isSome)
    || (restorable s die).any fun g => p < g.prio || (!saved && p == g.prio)

/-- The start of gang `n` on a Byre; the Byre's Churn drops older operand lines (R259). -/
def placeGang (s : State) (r : Grid) (die byre n : Nat) (places : List (Nat × Nat)) : State :=
  match s.ctx? r.ctx with
  | none => s
  | some c =>
    let g := newGang s r c die byre n places
    let s := dropObuf s g.byreId s.fills
    { s.modGrid r.id fun r => r.took die with gangs := s.gangs ++ [g], ids := s.ids + 1 }

def execGangPlace (grid die byre : Nat) (s : State) : Out :=
  .next <|
    match s.grid? grid with
    | none => s
    | some r =>
      match r.nextOn die, fits s die byre (recFoot r.bytes) with
      | some n, some places => if s.hub.thsd || outranked s die r.prio false then s else placeGang s r die byre n places
      | _, _ => s

/-! ## GANG_COMPLETE (R113, R192, R324) -/

/-- A gang whose waves have ended and whose operations have all left Pending, with its writes performed. -/
def Gang.finished (g : Gang) : Bool :=
  (g.st == .ended || g.st == .killed || g.st == .dropped) && g.quiet

/-- The `SPAWN` future of a child gang (R113). RESULT of a failed one is not stated. -/
def tellParent (s : State) (k : GridKind) (ok : Bool) : State :=
  match k with
  | .child g w f ser =>
    (match s.gangIdx g with
     | some gi =>
       if ok then s.finishFut gi w (some f) ser .done 0
       else { s.finishFut gi w (some f) ser .failed (Config.freeResult s.freeCtr) with freeCtr := s.freeCtr + 1 }
     | none => s)
  | _ => s

/-- A completed gang leaves its Byre; no state of it can be read again (R36). -/
def Gang.leave (g : Gang) : Gang :=
  { g with st := .gone, waves := [], spad := [], spadBad := [], ch := startChurn false, troughs := [], stages := [] }

/-- A gang stopped before it had completed counts in CANCG, any other in DONEG (R311). -/
def completeGang (s : State) (gi : Nat) (g : Gang) : State :=
  let dead := g.st == .killed || g.st == .dropped
  let s := ((s.keepViews g).modGang gi Gang.leave).modGrid g.grid fun r =>
    { r with
      doneg := if dead then r.doneg else r.doneg + 1
      cancg := if dead then r.cancg + 1 else r.cancg
      errg := if g.err && !dead then min (r.errg + 1) (2 ^ 32 - 1) else r.errg }
  match s.grid? g.grid with
  | some r => tellParent s r.kind (!dead && !g.err)
  | none => s

def execGangComplete (gang : Nat) (s : State) : Out :=
  .next <|
    match s.gangIdx gang with
    | none => s
    | some gi =>
      match s.gang? gi with
      | some g => if g.finished then completeGang s gi g else s
      | none => s

/-! ## GRID_COMPLETE (R320, R324, R344, R376) -/

/-- Whether gangs of a grid, or grids of their children, are still there. -/
def State.busyGrid (s : State) (id : Nat) : Bool :=
  (s.gangs.any fun g => g.grid == id && g.st != .gone)
    || s.grids.any fun r => r.id != id && s.descends id 9 r.id

/-- Whether a pod-wide grid has all its reports (R343). -/
def Grid.reportsIn (r : Grid) : Bool := !r.started || r.pkgs.all fun p => r.groups.contains (p.pkg / 16)

/-- A grid that completes now: nothing of it is left on this package, and a pod-wide one has all reports. -/
def State.gridDone (s : State) (r : Grid) : Bool :=
  r.root && !s.busyGrid r.id
    && (r.over || (r.next == r.total && r.heldHere == 0 && r.chunks.all fun c => c.hi ≤ c.lo))
    && (r.scope != .pod || r.early || r.reportsIn)

/-- Counts of a grid at completion: a pod-wide one sums the reports of its packages (R343). -/
def Grid.sum (r : Grid) (own : Nat) (f : PodPkg → Nat) : Nat :=
  if r.scope == .pod && r.started then (r.pkgs.map f).foldl (· + ·) 0 else own

def Grid.doneAll (r : Grid) : Nat := r.sum r.doneg (·.doneg)

/-- CANCG at completion: gangs that did not complete. -/
def Grid.cancAll (r : Grid) : Nat := r.total - r.doneAll

/-- Bytes 96-127 of the launch record. -/
def recTail (r : Grid) : List Byte :=
  natLe 8 r.doneAll ++ natLe 8 r.cancAll ++ natLe 4 (min (r.sum r.errg (·.errg)) (2 ^ 32 - 1)) ++ natLe 1 r.stat ++ natLe 11 0

/-- The fault record. -/
def faultBytes (r : Grid) : List Byte :=
  let h := match r.first with
    | some f =>
      natLe 4 f.tcause.toNat ++ natLe 4 f.widx.toNat ++ natLe 8 f.tpc.toNat ++ natLe 8 f.tval.toNat ++ natLe 8 f.gx
        ++ natLe 4 f.gy ++ natLe 4 f.gz
    | none => natLe 40 0
  h ++ natLe 4 (min (r.sum r.faults (·.faults)) (2 ^ 32 - 1)) ++ natLe 2 r.fmap.length ++ natLe 1 ((r.first.map (·.src)).getD 0) ++ natLe 17 0

/-- The package map. -/
def mapBytes (r : Grid) : List Byte := natLe 64 (r.fmap.foldl (fun n p => n + 2 ^ p) 0)

/-- Whether a grid reports through its record; a child gang does not (R324). -/
def GridKind.hasRecord : GridKind → Bool
  | .child .. => false
  | _ => true

/-- A completion write: address and bytes. -/
def gridWrites (r : Grid) : List (Nat × List Byte) :=
  if !r.kind.hasRecord then []
  else
    let f := recFrec r.bytes
    (r.recAddr.toNat + 96, recTail r) :: (if f == 0 then [] else [(f, faultBytes r), (f + 64, mapBytes r)])

/-- The place of a completion write of a grid; a denied page drops it. -/
def gridPlace (s : State) (r : Grid) (a n : Nat) : CPlace :=
  (compPlace s (blankGang 0 r.ctx 0) r.recPriv false a n).unlessDenied r.denied

def gridBar (s : State) (r : Grid) : CPlace :=
  match r.comp with
  | some c => gridPlace s r c.toNat 16
  | none => .none

/-- Request the pages that completion writes wait for. -/
def gridParks (s : State) (r : Grid) : List Nat → State
  | [] => s
  | va :: vas =>
    let a := addReq s 0 r.ctx va 4 2 0 (.grid r.id)
    gridParks (a.1.modGrid r.id fun x => { x with waits := a.2 :: x.waits }) r vas

/-- Take a completed grid off its queue. -/
def dropGrid (s : State) (r : Grid) : State :=
  let s := s.modCtx r.ctx fun c =>
    { c with queues := modAt c.queues r.queue fun l => { l with grids := l.grids.filter (· != r.id) } }
  { s with grids := s.grids.filter fun x => x.id != r.id }

/-- Write record, fault record and arrival, and free the queue slot. DEDUCED (log 71). -/
def completeGrid (s : State) (r : Grid) : State :=
  let s := (gridWrites r).foldl (fun s w => putBytes s 0 (gridPlace s r w.1 w.2.length) w.2) s
  let s := dropGrid (arriveAt s 0 (gridBar s r)) r
  let s := tellParent s r.kind false
  match r.kind with
  | .pager d => pagerDone s d r.ctx
  | _ => s

def endGrid (s : State) (r : Grid) : State :=
  let ps := ((gridWrites r).map fun w => gridPlace s r w.1 w.2.length) ++ [gridBar s r]
  match ps.filterMap CPlace.parks with
  | [] => completeGrid s r
  | vas => gridParks s r vas

def execGridComplete (grid : Nat) (s : State) : Out :=
  .next <|
    match s.grid? grid with
    | some r => if s.gridDone r && r.waits.isEmpty then endGrid s r else s
    | none => s

end Sys2Proof.Machine
end

