-- ==== Sys2Proof/Machine/EngUnits.lean ====
section
/-! DEFINITION. What each engine command does between two drain points (R196-R206, R293). A unit runs from a resume point,
a list of numbers that is empty at the start, and answers the next one, or `none` at the end of the command. -/

namespace Sys2Proof.Machine

abbrev Pos := List Nat

/-- Where an engine stands after a unit. -/
abbrev Unit' := EngM (Option Pos)

def fieldAt (o : EngOp) (off len : Nat) : Nat := recNat o.body off len

def ctlBits (o : EngOp) : Nat := fieldAt o 8 2

/-! ## COPY and COPYT (R196, R197) -/

/-- The bytes at positions `i`, `i + 1`, ... that a test keeps, in runs. -/
def runsOf (keep : Nat → Bool) : Nat → List (Byte × Bool) → List (Nat × List (Byte × Bool))
  | _, [] => []
  | i, b :: bs =>
    let rest := runsOf keep (i + 1) bs
    if !keep i then rest
    else
      match rest with
      | (j, cs) :: r => if j == i + 1 then (i, b :: cs) :: r else (i, [b]) :: rest
      | [] => [(i, [b])]

/-- Byte `i` of a range in a space. -/
def stepAddr (sp a i : Nat) : Nat := if sp == 0 then (a + i) % 2 ^ 64 else a + i

/-- Write runs of bytes of a range. -/
def eWriteRuns (v : EEnv) (sp a : Nat) : List (Nat × List (Byte × Bool)) → EngM Unit
  | [] => pure ()
  | r :: rs => do
    eWriteAll v sp (stepAddr sp a r.1) r.2
    eWriteRuns v sp a rs

/-- One piece of `COPY`: up to 4 KiB of a global destination, the whole of one in scratchpad. Destination bytes that are
source bytes too stay until the last piece, which makes them free (R196). Free bytes (log 7). -/
def copyUnit (v : EEnv) (dsp : Bool) (ssp dst src n : Nat) (pos : Pos) : Unit' := do
  let i := pos.headD 0
  let d := dsp.toNat
  let sp := placesOf v.s0 v.g v.priv ssp (pieces n) src n
  let olap := placesMeet sp (placesOf v.s0 v.g v.priv d (pieces n) dst n)
  let hit (j : Nat) : Bool := olap && placesMeet (placesOf v.s0 v.g v.priv d 1 (stepAddr d dst j) 1) sp
  let k := if dsp then n - i else min 4096 (n - i)
  let bs ← eRead v ssp (stepAddr ssp src i) k
  eWriteRuns v d dst (runsOf (fun j => !hit j) i bs)
  eRes n
  if n ≤ i + k then do
    if olap then do
      eWriteRuns v d dst (runsOf hit 0 (clean ((List.range n).map fun j => Config.freeByte (v.s0.freeCtr + j))))
      eMod fun s => { s with freeCtr := s.freeCtr + n }
    pure none
  else pure (some [i + k])

/-- Linear byte `p` of a `COPYT`: source and destination address. -/
def copytAt (o : EngOp) (p : Nat) : Nat × Nat :=
  let c := ctlBits o
  let n0 := fieldAt o 32 4
  let r := p / n0
  let i1 : Int := r % fieldAt o 36 2
  let i2 : Int := r / fieldAt o 36 2
  let sd := i1 * recInt o.body 40 4 + i2 * recInt o.body 44 4
  let dd := i1 * recInt o.body 48 4 + i2 * recInt o.body 52 4
  let b : Int := p % n0
  if c / 16 % 2 == 1 then
    (offAddr (c % 4) (fieldAt o 16 8) (labelOff sd + b), offAddr (c / 4 % 4) (fieldAt o 24 8) (labelOff dd + b))
  else (offAddr (c % 4) (fieldAt o 16 8) (sd + b), offAddr (c / 4 % 4) (fieldAt o 24 8) (dd + b))

/-- Copy `k` linear bytes from `p`, row piece by row piece. -/
def copytBytes (v : EEnv) (o : EngOp) : Nat → Nat → Nat → EngM Unit
  | 0, _, _ => pure ()
  | f + 1, p, k => do
    if k == 0 then pure ()
    else do
      let c := ctlBits o
      let n0 := fieldAt o 32 4
      let m := min k (n0 - p % n0)
      let a := copytAt o p
      let view := c / 64 % 2 == 1
      let bs ← eReadSpan v view (c % 4) (pieces m) a.1 m
      eWriteSpan v view (c / 4 % 4) (pieces m) a.2 bs
      eProg (p + m)
      copytBytes v o f (p + m) (k - m)

/-- Lines of the destination strips that a label copy of `rows` rows wrote. -/
def copytLines (o : EngOp) (rows : Nat) : List Nat :=
  let line (r : Nat) : Nat := (copytAt o (8 * r)).2 / 128 * 128
  (List.range rows).foldl (fun acc r => insertNat (line r) acc) []

def copytUnit (v : EEnv) (o : EngOp) (pos : Pos) : Unit' := do
  let c := ctlBits o
  let n0 := fieldAt o 32 4
  let rows := fieldAt o 36 2 * fieldAt o 38 2
  let lbl := c / 16 % 2 == 1
  eNeed (n0 ≤ 2 ^ 24 && c % 4 ≠ 3 && c / 4 % 4 ≤ 1 && (!lbl || n0 == 8)) 4
  eNeed (!lbl || (fieldAt o 16 8 % 128 == 0 && fieldAt o 24 8 % 128 == 0)) 2
  let total := n0 * rows
  let p := pos.headD 0
  let k := if c / 4 % 4 == 1 then total - p else min 4096 (total - p)
  copytBytes v o (k + 1) p k
  eProg (p + k)
  eRes (p + k)
  if p + k < total then pure (some [p + k])
  else do
    if lbl && c / 32 % 2 == 1 then eEach (eResum v (c / 4 % 4)) (copytLines o rows)
    pure none

/-! ## Binning (R198-R200) -/

/-- A bin set as its record describes it. -/
structure BinSet where
  store : Nat
  nreg  : Nat
  rlog  : Nat
  rfmt  : Nat
  bcap  : Nat
  deriving DecidableEq, Repr

def BinSet.recSize (b : BinSet) : Nat := if b.rfmt == 1 then 16 else 8

def BinSet.count (b : BinSet) (r : Nat) : Nat := (b.store + 4 * r) % 2 ^ 64

/-- Address of record `j` of region `r`. -/
def BinSet.slot (b : BinSet) (r j : Nat) : Nat :=
  (b.store + (4 * b.nreg + 127) / 128 * 128 + (r * b.bcap + j) * b.recSize) % 2 ^ 64

def binSet (v : EEnv) (a : Nat) : EngM BinSet := do
  eNeed (a % 64 == 0) 2
  let b ← eTake v 0 a 64
  pure ⟨recNat b 0 8, recNat b 8 4, recNat b 12 1, recNat b 13 1, recNat b 16 4⟩

/-- BINOPEN (R198). RESULT and PROG are free (log 48). -/
def binopenUnit (v : EEnv) (o : EngOp) : Unit' := do
  let f := fieldAt o
  eNeed (f 16 8 % 64 == 0 && f 24 8 % 128 == 0) 2
  eNeed (1 ≤ f 32 4 && f 32 4 ≤ 65536 && 6 ≤ f 36 1 && f 36 1 ≤ 16 && f 37 1 ≤ 1 && 1 ≤ f 40 4 && f 40 4 ≤ 2 ^ 24) 4
  eWriteAll v 0 (f 16 8) (clean
    (natLe 8 (f 24 8) ++ natLe 4 (f 32 4) ++ natLe 1 (f 36 1) ++ natLe 1 (f 37 1) ++ natLe 2 0 ++ natLe 4 (f 40 4)
      ++ natLe 44 0))
  eFor (f 32 4) 0 fun r => eWriteNum v 0 ((f 24 8 + 4 * r) % 2 ^ 64) 4 0
  let x ← get
  eRes (Config.freeResult x.s.freeCtr)
  eProg (Config.freeResult (x.s.freeCtr + 1))
  eMod fun s => { s with freeCtr := s.freeCtr + 2 }
  pure none

/-- A number read for an atomic access: memory as it stands, whoever wrote it last (R199, R204). -/
def eNow (v : EEnv) (a n : Nat) : EngM (Loc × List (Byte × Bool)) := do
  let l ← eLoc v 0 a n true
  let x ← get
  pure (l, sliceBytes x.s l.pos n)

/-- Append one lane's record; what is remembered is the first error code, 0 for none (R199). -/
def binOne (v : EEnv) (b : BinSet) (lbl : Bool) (x : Nat × W × W × D) : EngM Nat := do
  let r := x.2.1.toNat / 2 ^ b.rlog
  if b.nreg ≤ r then pure 7
  else do
    let q ← eNow v (b.count r) 4
    eNeed (!bytesBad q.2) 3
    let j := bytesNat q.2
    if b.bcap ≤ j then pure 6
    else do
      eWriteAll v 0 (b.slot r j) (clean (natLe 4 x.2.1.toNat ++ natLe 4 x.2.2.1.toNat))
      if lbl then eWriteAll v 0 ((b.slot r j + 8) % 2 ^ 64) (clean (natLe 8 x.2.2.2.toNat))
      eWriteNum v 0 (b.count r) 4 (j + 1)
      pure 0

/-- Append lane by lane: records appended, and the error of the lowest dropped lane. -/
def binLanes (v : EEnv) (b : BinSet) (lbl : Bool) : List (Nat × W × W × D) → EngM (Nat × Nat)
  | [] => pure (0, 0)
  | x :: xs => do
    let e ← binOne v b lbl x
    let r ← binLanes v b lbl xs
    pure (if e == 0 then (r.1 + 1, r.2) else (r.1, e))

def binappUnit (v : EEnv) (lbl : Bool) (recs : List (Nat × W × W × D)) (bset : Nat) : Unit' := do
  let b ← binSet v bset
  eNeed (!lbl || b.rfmt == 1) 4
  let r ← binLanes v b lbl recs
  eNeed (r.2 == 0) r.2
  eRes r.1
  pure none

/-- `Op(s, v)` of `BINPLAY` on words, with its flags (R200). -/
def playOp (op : Nat) (s x : W) : W × Flags :=
  match op with
  | 0 => (s + x, 0)
  | 1 => addFl .f32 ⟨false, .rne⟩ 0 s x
  | 2 => (maxWord false s x, 0)
  | 3 => (minWord false s x, 0)
  | 4 => (s ||| x, 0)
  | _ => (x, 0)

/-- Play record `j` of region `r` into the staged region at `st`; answers the strip line written for OP 6. -/
def playOne (v : EEnv) (b : BinSet) (op st r j : Nat) : EngM (Option Nat) := do
  let i ← eNum v 0 (b.slot r j) 4
  eNeed (r * 2 ^ b.rlog ≤ i && i < (r + 1) * 2 ^ b.rlog) 7
  let e := i - r * 2 ^ b.rlog
  if op == 6 then do
    let x ← eRead v 0 ((b.slot r j + 8) % 2 ^ 64) 8
    let a := st + 128 * (e / 8) + 8 * (e % 8)
    eWriteAll v 1 a x
    pure (some (st + 128 * (e / 8)))
  else do
    let a := st + 4 * e
    if op == 5 then do
      let x ← eRead v 0 ((b.slot r j + 4) % 2 ^ 64) 4
      eWriteAll v 1 a x
    else do
      let x ← eNum v 0 ((b.slot r j + 4) % 2 ^ 64) 4
      let s ← eNum v 1 a 4
      let y := playOp op (BitVec.ofNat 32 s) (BitVec.ofNat 32 x)
      eFlags y.2
      eWriteNum v 1 a 4 y.1.toNat
    pure none

def playAll (v : EEnv) (b : BinSet) (op st r : Nat) : Nat → Nat → List Nat → EngM (List Nat)
  | 0, _, ls => pure ls
  | n + 1, j, ls => do
    match ← playOne v b op st r j with
    | some l => playAll v b op st r n (j + 1) (insertNat l ls)
    | none => playAll v b op st r n (j + 1) ls

/-- The next region in [r, end) that has records; `f` bounds the search. -/
def nextRegion (v : EEnv) (b : BinSet) : Nat → Nat → EngM (Option (Nat × Nat))
  | 0, _ => pure none
  | f + 1, r => do
    let c ← eNum v 0 (b.count r) 4
    if c != 0 then pure (some (r, c)) else nextRegion v b f (r + 1)

/-- One region of `BINPLAY`. -/
def binplayUnit (v : EEnv) (o : EngOp) (pos : Pos) : Unit' := do
  let f := fieldAt o
  let op := f 36 1
  let b ← binSet v (f 16 8)
  eNeed (op ≤ 6 && (op != 6 || b.rfmt == 1) && f 32 4 % 128 == 0) 4
  eNeed (f 24 8 % (if op == 6 then 128 else 4) == 0) 2
  let n := if f 44 4 == 0 then b.nreg - f 40 4 else f 44 4
  eNeed (f 40 4 + n ≤ b.nreg) 4
  let start := pos.headD (f 40 4)
  let played := pos.getD 1 0
  match ← nextRegion v b (f 40 4 + n - start) start with
  | none => do
    let x ← get
    eRes (Config.freeResult x.s.freeCtr)
    eMod fun s => { s with freeCtr := s.freeCtr + 1 }
    pure none
  | some (r, c) => do
    let size := 2 ^ b.rlog * (if op == 6 then 16 else 4)
    let tgt := (f 24 8 + r * size) % 2 ^ 64
    let bs ← eRead v 0 tgt size
    eWriteAll v 1 (f 32 4) bs
    let ls ← playAll v b op (f 32 4) r c 0 []
    eEach (eResum v 1) ls
    let out ← eRead v 1 (f 32 4) size
    eWriteAll v 0 tgt out
    if f 37 1 % 2 == 1 then eWriteNum v 0 (b.count r) 4 0
    eProg (played + 1)
    pure (some [r + 1, played + 1])

/-! ## Streams (R201, R202) -/

/-- Element `i` of a stream, checked to exceed its predecessor (`prev` holds predecessor + 1, 0 for none). -/
def streamAt (v : EEnv) (a n i prev : Nat) : EngM (Option Nat) := do
  if n ≤ i then pure none
  else do
    let x ← eNum v 0 ((a + 4 * i) % 2 ^ 64) 4
    eNeed (prev ≤ x) 5
    pure (some x)

/-- The values of a stream in window `w` from position `i`: (value, position), then the new position and predecessor. -/
def windowOf (v : EEnv) (a n w : Nat) : Nat → Nat → Nat → EngM (List (Nat × Nat) × Nat × Nat)
  | 0, i, prev => pure ([], i, prev)
  | f + 1, i, prev => do
    match ← streamAt v a n i prev with
    | none => pure ([], i, prev)
    | some x =>
      if x / 4096 != w then pure ([], i, prev)
      else do
        let r ← windowOf v a n w f (i + 1) (x + 1)
        pure ((x, i) :: r.1, r.2)

def noPos : Nat := 2 ^ 32 - 1

/-- Merge two rising lists of (value, position) to entries (value, A position, B position). -/
def mergeEnts (xs ys : List (Nat × Nat)) (vals : List Nat) (both : Bool) : List (Nat × Nat × Nat) :=
  vals.filterMap fun k =>
    match xs.find? fun x => x.1 == k, ys.find? fun y => y.1 == k with
    | some x, some y => some (k, x.2, y.2)
    | some x, none => if both then none else some (k, x.2, noPos)
    | none, some y => if both then none else some (k, noPos, y.2)
    | none, none => none

/-- Write entries from index `e`; one beyond the capacity fails with ERRC 6. -/
def putEnts (v : EEnv) (out cap : Nat) : Nat → List (Nat × Nat × Nat) → EngM Nat
  | e, [] => pure e
  | e, x :: xs => do
    eNeed (e < cap) 6
    eWriteNum v 0 ((out + 4 * e) % 2 ^ 64) 4 x.1
    eWriteNum v 0 ((out + 4 * (cap + e)) % 2 ^ 64) 4 x.2.1
    eWriteNum v 0 ((out + 4 * (2 * cap + e)) % 2 ^ 64) 4 x.2.2
    eProg (e + 1)
    putEnts v out cap (e + 1) xs

/-- One window of `XSECT` or `SMERGEU`. The resume point holds both positions, both predecessors + 1, and the entries. -/
def streamUnit (v : EEnv) (o : EngOp) (both : Bool) (pos : Pos) : Unit' := do
  let f := fieldAt o
  let sa := f 16 8
  let sb := f 24 8
  let na := f 32 4
  let nb := f 36 4
  eNeed (sa % 4 == 0 && sb % 4 == 0 && f 40 8 % 4 == 0) 2
  let p (k : Nat) : Nat := pos.getD k 0
  let ha ← streamAt v sa na (p 0) (p 1)
  let hb ← streamAt v sb nb (p 2) (p 3)
  eRes (p 4)
  let w := match ha, hb with
    | some x, some y => some (min x y / 4096)
    | some x, none => some (x / 4096)
    | none, some y => some (y / 4096)
    | none, none => none
  match w with
  | none => pure none
  | some w => do
    let xs ← windowOf v sa na w 4097 (p 0) (p 1)
    let ys ← windowOf v sb nb w 4097 (p 2) (p 3)
    let vals := (xs.1 ++ ys.1).foldl (fun acc x => insertNat x.1 acc) []
    let e ← putEnts v (f 40 8) (f 48 4) (p 4) (mergeEnts xs.1 ys.1 vals both)
    pure (some [xs.2.1, xs.2.2, ys.2.1, ys.2.2, e])

/-- The order of keys (R165, R202): `true` when `y` stands before `x`. -/
def topBefore (kt dir : Nat) (y x : Nat × Nat) : Bool :=
  let t : VTy := if kt == 0 then .s32 else if kt == 1 then .u32 else .f32
  let a := BitVec.ofNat 32 y.2
  let b := BitVec.ofNat 32 x.2
  if keyBefore t a b then dir != 0
  else if keyBefore t b a then dir == 0
  else y.1 < x.1

/-- Insert by the order of keys. -/
def topInsert (kt dir : Nat) (x : Nat × Nat) : List (Nat × Nat) → List (Nat × Nat)
  | [] => [x]
  | y :: ys => if topBefore kt dir y x then y :: topInsert kt dir x ys else x :: y :: ys

def topkUnit (v : EEnv) (o : EngOp) : Unit' := do
  let f := fieldAt o
  eNeed (1 ≤ f 24 4 && f 24 4 ≤ 4096 && 1 ≤ f 28 2 && f 28 2 ≤ 256 && f 30 1 ≤ 2 && f 31 1 ≤ 1) 4
  eNeed (f 16 8 % 4 == 0 && f 32 8 % 4 == 0 && f 40 8 % 4 == 0) 2
  let b ← eTake v 0 (f 16 8) (4 * f 24 4)
  let keys := (List.range (f 24 4)).map fun i => (i, recNat b (4 * i) 4)
  let best := (keys.foldl (fun acc x => topInsert (f 30 1) (f 31 1) x acc) []).take (f 28 2)
  eWriteAll v 0 (f 32 8) (clean (best.flatMap fun x => natLe 4 x.1))
  eWriteAll v 0 (f 40 8) (clean (best.flatMap fun x => natLe 4 x.2))
  eProg best.length
  eRes best.length
  pure none

/-! ## Format conversion (R203) -/

/-- The rows of a batch, checked: non-decreasing from `prev`, below `nrows`. -/
def batchRows (v : EEnv) (inp nrows : Nat) : Nat → Nat → Nat → EngM (List Nat)
  | 0, _, _ => pure []
  | n + 1, i, prev => do
    let r ← eNum v 0 ((inp + 12 * i) % 2 ^ 64) 4
    eNeed (prev ≤ r && r < nrows) 5
    let rs ← batchRows v inp nrows n (i + 1) r
    pure (r :: rs)

/-- `n` ROWPTR entries from `k`: the index of the first entry whose row is at least k; `rs` are the rows of the entries from
index `i`, and `last` stands for rows beyond. All are translated before one is written, so that a failure leaves them. -/
def putRows (v : EEnv) (ptr i : Nat) (rs : List Nat) (last k n : Nat) : EngM Unit := do
  eFor n k fun k => do
    let _ ← eLoc v 0 ((ptr + 4 * k) % 2 ^ 64) 4 true
    pure ()
  eFor n k fun k =>
    let j := match findIdx (fun r => k ≤ r) rs with
      | some j => i + j
      | none => last
    eWriteNum v 0 ((ptr + 4 * k) % 2 ^ 64) 4 j

/-- One batch. The resume point holds the next entry, the last row seen, and the next ROWPTR entry. -/
def cvtBatch (v : EEnv) (o : EngOp) (i row next : Nat) : Unit' := do
  let f := fieldAt o
  let nnz := f 24 4
  let nrows := f 28 4
  let n := min 256 (nnz - i)
  let rs ← batchRows v (f 16 8) nrows n i row
  eFor n i fun k => do
    let c ← eRead v 0 ((f 16 8 + 12 * k + 4) % 2 ^ 64) 4
    eWriteAll v 0 ((f 32 8 + 4 * k) % 2 ^ 64) c
    let x ← eRead v 0 ((f 16 8 + 12 * k + 8) % 2 ^ 64) 4
    eWriteAll v 0 ((f 40 8 + 4 * k) % 2 ^ 64) x
  let top := rs.getLastD row
  if nnz ≤ i + n then do
    putRows v (f 48 8) i rs (i + n) next (nrows + 1 - next)
    eProg nrows
    eRes nrows
    pure none
  else do
    putRows v (f 48 8) i rs (i + n) next (top + 1 - next)
    eProg top
    pure (some [i + n, top, max next (top + 1)])

def cvtUnit (v : EEnv) (o : EngOp) (res : Bool) (pos : Pos) : Unit' := do
  let f := fieldAt o
  eNeed (f 16 8 % 4 == 0 && f 32 8 % 4 == 0 && f 40 8 % 4 == 0 && f 48 8 % 4 == 0) 2
  match pos with
  | [i, row, next] => cvtBatch v o i row next
  | _ =>
    if res then do
      let p := f 56 4
      eProg p
      eRes p
      if f 28 4 ≤ p then pure none
      else do
        let i ← eNum v 0 ((f 48 8 + 4 * p) % 2 ^ 64) 4
        cvtBatch v o i p (p + 1)
    else do
      eWriteNum v 0 (f 48 8) 4 0
      cvtBatch v o 0 0 1

/-- After a failure the entries of COLS and VALS from ROWPTR[PROG] on are unspecified (R203). Free bytes (log 8). -/
def cvtFree (s : State) (v : EEnv) (o : EngOp) (prog : Nat) : State :=
  let f := fieldAt o
  let put (s : State) (a : Nat) : State :=
    match translate s v.g ⟨true, false, v.priv⟩ (a % 2 ^ 64) 4 with
    | .ok k =>
      let bs := (List.range 4).map fun i => Config.freeByte (s.freeCtr + i)
      { s.writeLoc v.gi (.mem k) bs with freeCtr := s.freeCtr + 4 }
    | _ => s
  match translate s v.g ⟨false, false, v.priv⟩ ((f 48 8 + 4 * prog) % 2 ^ 64) 4 with
  | .ok k =>
    let i := s.mem.num k 4
    (List.range (f 24 4 - i)).foldl (fun s j => put (put s (f 32 8 + 4 * (i + j))) (f 40 8 + 4 * (i + j))) s
  | _ => s

/-! ## Sweep, invalidation, Hayloft fill (R204, R293) -/

/-- One word of `STSWEEP`: whether it was rebased. -/
def sweepOne (v : EEnv) (a : Nat) : EngM Unit := do
  let q ← eNow v a 8
  let w := BitVec.ofNat 64 (bytesNat q.2)
  let age := stampAge v.g.step (w.toNat / 2 ^ 8)
  if 2 ^ 22 ≤ age && age < 2 ^ 23 && !bytesBad q.2 then do
    let r := stampedRead v.g.era w
    eFlags r.2
    ePut v q.1 (clean (natLe 8 (stampedWord r.1 v.g.step.toNat (w.toNat / 16)).toNat))
    modify fun x => { x with res := x.res + 1 }
  modify fun x => { x with prog := x.prog + 1 }

def sweepUnit (v : EEnv) (o : EngOp) (pos : Pos) : Unit' := do
  let a := fieldAt o 16 8
  let n := fieldAt o 24 4
  let i := pos.headD 0
  eNeed (a % 8 == 0) 2
  let k := min 4096 (n - i)
  eFor k i fun j => sweepOne v ((a + 8 * j) % 2 ^ 64)
  pure (if i + k < n then some [i + k] else none)

/-- Drop cached copies of the lines of [key, key + n) in a die, or in the package, view lines at those addresses too, and
what stands for them. -/
def dropRange (s : State) (die : Option Nat) (key n : Nat) : State :=
  let meets (line : Nat) : Bool := line * 128 < key + n && key < line * 128 + 128
  let hit (c : CLine) : Bool :=
    (match die with | some d => c.byre / 80 == d | none => true)
      && meets (if viewLine 0 ≤ c.key then c.key - viewLine 0 else c.key)
  { s with
    l1 := s.l1.filter (!hit ·), obuf := s.obuf.filter (!hit ·), olds := s.olds.filter fun o => !meets o.line }

/-- Discard page by page what is cached of [a, a + n). The addresses translate like those of any command (R189); no memory
is accessed. -/
def rinvPages (v : EEnv) (die : Option Nat) : Nat → Nat → Nat → EngM Unit
  | 0, _, _ => pure ()
  | f + 1, a, n => do
    if n == 0 then pure ()
    else do
      let k := pageRest 0 a n
      let l ← eAddr v 0 a k false
      eMod fun s => dropRange s die l.pos k
      rinvPages v die f ((a + k) % 2 ^ 64) (n - k)

def rinvUnit (v : EEnv) (o : EngOp) : Unit' := do
  let n := fieldAt o 24 8
  rinvPages v (if ctlBits o % 2 == 0 then some v.g.die else none) (pieces n) (fieldAt o 16 8) n
  pure none

/-- The dies that a `HAYFILL` names. -/
def fillDies (v : EEnv) (o : EngOp) : List Nat :=
  let m := ctlBits o % 16
  if m == 0 then [v.g.die] else (List.range 4).filter fun d => m / 2 ^ d % 2 == 1

/-- The next 64 KiB for one die. -/
def hayUnit (v : EEnv) (o : EngOp) (pos : Pos) : Unit' := do
  let f := fieldAt o
  let len := f 32 4
  eNeed (f 24 8 % 128 == 0 && len % 128 == 0 && f 24 8 + len ≤ Config.hayBytes) 4
  let i := pos.headD 0
  let per := (len + 65535) / 65536
  match (fillDies v o)[i / max per 1]? with
  | none => pure none
  | some d =>
    if per == 0 then pure none
    else do
      let off := i % per * 65536
      let k := min 65536 (len - off)
      let bs ← eRead v 0 ((f 16 8 + off) % 2 ^ 64) k
      ePut v (.mem (Config.hayKey d (f 24 8 + off))) bs
      modify fun x => { x with prog := x.prog + k / 128, res := (x.res + k / 128) % 2 ^ 24 }
      pure (some [i + 1])

/-- Before the future leaves Pending, the filled range leaves the caches of its dies (R293). -/
def hayDone (s : State) (v : EEnv) (o : EngOp) : State :=
  (fillDies v o).foldl (fun s d => dropRange s (some d) (Config.hayKey d (fieldAt o 24 8)) (fieldAt o 32 4)) s

/-! ## All commands -/

/-- One unit of an engine command, `TASKPUT` aside. -/
def engUnit (v : EEnv) (o : EngOp) (pos : Pos) : Unit' :=
  match o.kind with
  | .copy dsp ssp dst src n => copyUnit v dsp ssp dst src n pos
  | .binapp lbl recs bset => binappUnit v lbl recs bset
  | .block op variant =>
    if o.bad then eFail 3
    else
      match op with
      | 0xB5 => copytUnit v o pos
      | 0xB6 => binopenUnit v o
      | 0xB8 => binplayUnit v o pos
      | 0xB9 => streamUnit v o true pos
      | 0xBA => streamUnit v o false pos
      | 0xBB => topkUnit v o
      | 0xBC => cvtUnit v o (variant == 1) pos
      | 0xBE => sweepUnit v o pos
      | 0xBF => rinvUnit v o
      | 0xE2 => hayUnit v o pos
      | _ => pure none
  | _ => pure none

/-- A bound on the units of a command. -/
def unitBound (o : EngOp) : Nat :=
  match o.kind with
  | .copy _ _ _ _ n => n / 4096 + 2
  | .block op _ =>
    match op with
    | 0xB5 => fieldAt o 32 4 * fieldAt o 36 2 * fieldAt o 38 2 / 4096 + 2
    | 0xB8 => 65538
    | 0xB9 => fieldAt o 32 4 + fieldAt o 36 4 + 2
    | 0xBA => fieldAt o 32 4 + fieldAt o 36 4 + 2
    | 0xBC => fieldAt o 24 4 / 256 + 2
    | 0xBE => fieldAt o 24 4 / 4096 + 2
    | 0xE2 => 4 * (fieldAt o 32 4 / 65536 + 1) + 2
    | _ => 2
  | _ => 2

/-- Whether a command has drain points before its end (R206). DEDUCED (log 50). -/
def hasDrain (o : EngOp) : Bool :=
  match o.kind with
  | .copy dsp .. => !dsp
  | .block op _ =>
    (op == 0xB5 && ctlBits o / 4 % 4 != 1) || op == 0xB8 || op == 0xB9 || op == 0xBA || op == 0xBC || op == 0xBE
      || op == 0xE2
  | _ => false

/-- The bin set that a command names (R199). -/
def binOf (o : EngOp) : Option Nat :=
  match o.kind with
  | .binapp _ _ b => some b
  | .block op _ => if op == 0xB6 || op == 0xB8 then some (fieldAt o 16 8) else none
  | _ => none

end Sys2Proof.Machine
end

