-- ==== Sys2Proof/Machine/EngRun.lean ====
section
/-! DEFINITION. Running an engine command to its end, to a drain point or to a page that is not resident, and its completion
(R192, R194, R195, R206, R376). -/

namespace Sys2Proof.Machine

/-- How a run of units ended. -/
inductive Ran
  | done
  | more
  | park (va : Nat) (write : Bool)
  | fail (errc : Nat)
  deriving DecidableEq, Repr

/-- What an operation has counted after a unit. -/
def EngOp.count (o : EngOp) (x : ESt) : EngOp := { o with prog := x.prog, res := x.res, fl := x.fl }

def opEnv (gi : Nat) (g : Gang) (s : State) (o : EngOp) (halt : Option Nat) : EEnv := ⟨gi, g, o.priv, o.pclass, o.floor, halt, s⟩

def opUnit (gi : Nat) (g : Gang) (halt : Option Nat) (s : State) (o : EngOp) : EStateM.Result EStop ESt (Option Pos) :=
  (engUnit (opEnv gi g s o halt) o o.pos).run ⟨s, o.prog, o.res, o.fl⟩

/-- Run up to `n` units from where the operation stands. A unit that meets a page that is not resident is taken back and
runs again from its start. -/
def engRun (gi : Nat) (g : Gang) : Nat → State → EngOp → State × EngOp × Ran
  | 0, s, o => (s, o, .more)
  | n + 1, s, o =>
    match opUnit gi g none s o with
    | .ok none x => (x.s, o.count x, .done)
    | .ok (some p) x => engRun gi g n x.s { o.count x with pos := p }
    | .error (.park va wr) _ => (s, o, .park va wr)
    | .error (.fail n) x => (x.s, o.count x, .fail n)

/-- Who runs an operation: the gang that its places belong to, and what its fault requests name. -/
structure OpAt where
  gi  : Nat
  g   : Gang
  who : Waiter
  req : Nat

/-- Park an operation on a page. DESIGN CHOICE (log 5). -/
def parkOp (a : OpAt) (s : State) (o : EngOp) (va : Nat) (write : Bool) : State × EngOp :=
  let r := addReq s a.g.die a.g.ctx va 2 (if write then 2 else 1) a.req a.who
  (r.1, { o with waits := [r.2], page := va / 2 ^ 16 })

/-- A failed format conversion leaves values free (R203). -/
def afterFail (a : OpAt) (s : State) (o : EngOp) : State :=
  match o.kind with
  | .block 0xBC _ => if o.bad then s else cvtFree s (opEnv a.gi a.g s o none) o o.prog
  | _ => s

/-- What a run leaves of the operation. -/
def takeRan (a : OpAt) (r : State × EngOp × Ran) : State × EngOp :=
  match r with
  | (s, o, .park va wr) => parkOp a s o va wr
  | (s, o, .fail n) => (afterFail a s o, { o with out := some (.failed, n) })
  | (s, o, _) => (s, { o with out := some (.done, 0) })

/-- End the work of an operation at the page where it had parked: what its unit does before that page stands (R192, R195). -/
def endAtPark (a : OpAt) (s : State) (o : EngOp) (st : FState) (errc : Nat) : State × EngOp :=
  let ended (o : EngOp) : EngOp := { o with waits := [], denied := [], out := some (st, errc) }
  match opUnit a.gi a.g (some o.page) s o with
  | .ok _ x => (x.s, ended (o.count x))
  | .error _ x => (x.s, ended (o.count x))

/-- Run an operation to the end of its work, if it can go on. -/
def workOp (a : OpAt) (s : State) (o : EngOp) : State × EngOp :=
  if o.out.isSome || !o.waits.isEmpty then (s, o)
  else if !o.denied.isEmpty then
    let r := endAtPark a s o .failed 8
    (afterFail a r.1 r.2, r.2)
  else takeRan a (engRun a.gi a.g (unitBound o) s o)

/-- Stop a cancelled operation: at its progress point if it is parked, else after `units` more units if it has drain points
(R192, R206). -/
def stopOp (a : OpAt) (s : State) (o : EngOp) (units : Nat) : State × EngOp :=
  if !o.waits.isEmpty then endAtPark a (dropWaiter s a.who) o .cancelled 0
  else if hasDrain o then
    match engRun a.gi a.g units s o with
    | (s, o, .more) => (s, { o with out := some (.cancelled, 0) })
    | (s, o, .park va _) => endAtPark a s { o with page := va / 2 ^ 16 } .cancelled 0
    | r => takeRan a r
  else (s, o)

/-! ## Completion -/

/-- Whether a command has a record and a BAR in its block (R193). -/
def hasRecord (o : EngOp) : Bool :=
  match o.kind with
  | .block op _ => op != 0xBD
  | _ => false

def opComp (s : State) (a : OpAt) (o : EngOp) : Comp :=
  if hasRecord o then
    ⟨(compPlace s a.g o.priv o.bsp (o.blkVa + 56) 8).unlessDenied o.denied,
      (barPlace s a.g o.priv (fieldAt o 0 8)).unlessDenied o.denied⟩
  else ⟨.none, .none⟩

/-- Make the completion of an operation that ended `st` with error code `errc`. -/
def reportOp (s : State) (a : OpAt) (o : EngOp) (c : Comp) (st : FState) (errc : Nat) : State :=
  let s := match o.kind with
    | .block 0xE2 _ => hayDone s (opEnv a.gi a.g s o none) o
    | _ => s
  let s := if hasRecord o then putRecord s a.gi c.blk (o.prog % 2 ^ 32) errc else s
  let result := if st == .failed then errc else if st == .done then o.res else 0
  arriveAt (reportFut s a.gi o.wave o.freg o.serial st result o.fl) a.gi c.bar

/-- Complete an operation whose work has ended; `none` once it is reported. -/
def endOp (a : OpAt) (s : State) (o : EngOp) : State × Option EngOp :=
  match o.out with
  | none => (s, some o)
  | some (st, errc) =>
    let c := opComp s a o
    if !o.waits.isEmpty then (s, some o)
    else
      let park (va : Nat) : State × Option EngOp :=
        let r := parkOp a s o va true
        (r.1, some r.2)
      match c.blk.parks, c.bar.parks with
      | some va, _ => park va
      | none, some va => park va
      | none, none =>
        if !o.denied.isEmpty then (reportOp s a o c .failed 8, none)
        else if c.blk.fails || c.bar.fails then (reportOp s a o c .failed 1, none)
        else (reportOp s a o c st errc, none)

end Sys2Proof.Machine
end

