-- ==== Sys2Proof/Machine/Stockyard.lean ====
section
/-! DEFINITION. The Stockyard (R205, R301, R328, R329): task records, their counts, the start and the finish of tasks. -/

namespace Sys2Proof.Machine

/-! ## Records -/

/-- Key of a record: its address in its context; one in scratchpad is told apart by its gang. -/
def taskKey (ctx va : Nat) : Nat := ctx * 2 ^ 64 + va % 2 ^ 64

def spadTaskKey (gang off : Nat) : Nat := (gang + 1) * 2 ^ 80 + off

def tkKind (b : List Byte) : Nat := recNat b 4 1 % 8
def tkSubop (b : List Byte) : Nat := recNat b 5 1
def tkNsucc (b : List Byte) : Nat := recNat b 6 2
def tkPayload (b : List Byte) : Nat := recNat b 8 8
def tkRlist (b : List Byte) : Nat := recNat b 48 8
def tkNrange (b : List Byte) : Nat := recNat b 56 4

/-- Fields within their limits. -/
def taskOk (b : List Byte) : Bool :=
  tkKind b ≤ 4 && tkNsucc b ≤ 4 && tkNrange b ≤ 16
    && (tkKind b != 3 || tkSubop b == 0xB9 || tkSubop b == 0xBA || tkSubop b == 0xBB || tkSubop b == 0xBC)

/-- Keys of the successors; a decrement at an address that is no multiple of 64 fails and reaches no record (R13). -/
def successors (t : Task) : List Nat :=
  (((List.range (tkNsucc t.bytes)).map fun i => recNat t.bytes (16 + 8 * i) 8).filter fun a => a % 64 == 0).map (taskKey t.ctx)

/-- A record of which only early decrements have come. -/
def blankTask (ctx key : Nat) : Task where
  key := key
  ctx := ctx
  bytes := []
  count := 0
  put := false
  running := false
  op := none
  grid := none
  priv := false
  waits := []
  denied := none
  exts := []
  fail := none
  fin := false

def taskAt (s : State) (die key : Nat) : Option Task := (s.die? die).bind fun d => d.tasks.find? fun t => t.key == key

def modTask (s : State) (die key : Nat) (f : Task → Task) : State :=
  s.modDie die fun d => { d with tasks := mapIf (·.key == key) f d.tasks }

/-- The device as it acts for a context on a die. -/
def dieOp (ctx die key : Nat) : OpAt := ⟨0, blankGang 0 ctx die, .task die key, 2 ^ 31 + die * 2 ^ 17⟩

/-! ## Extent tables (R301) -/

/-- Why declared ranges do not translate now: a page to wait for, or a subcode of `ACCESS` with an address. -/
inductive NoExt
  | park (va : Nat)
  | fail (sub va : Nat)
  deriving DecidableEq, Repr

/-- The page that holds an address, as an extent. -/
def pageExt (s : State) (g : Gang) (va : Nat) : Except NoExt Extent :=
  if !canonical va then .error (.fail 0 va)
  else
    match leafFor s g va with
    | .unmapped => .error (.fail 2 va)
    | .bad => .error (.fail 6 va)
    | .leaf e size =>
      match judgeLeaf s ⟨false, false, true⟩ e size va with
      | .ok _ =>
        let base := va / size * size
        .ok ⟨base, size, leafKey e size base, pteBit e 2, pteBit e 4, pteBit e 3, pteBit e 8,
          if pteBit e 7 && ptePeer e != Config.pkg then some (ptePeer e) else none⟩
      | .park => .error (.park va)
      | .fail n => .error (.fail n va)

/-- Whether a page goes on where an extent ends, with the same leaf bits. -/
def Extent.joins (x y : Extent) : Bool :=
  x.va + x.len == y.va && x.key + x.len == y.key && x.wr == y.wr && x.priv == y.priv && x.exec == y.exec && x.enc == y.enc
    && x.peer == y.peer

/-- Add a page to a table, last extent first; a page that the table holds already adds nothing. -/
def addExt (xs : List Extent) (y : Extent) : List Extent :=
  if xs.any fun x => x.va ≤ y.va && y.va + y.len ≤ x.va + x.len then xs
  else
    match xs with
    | x :: rest => if x.joins y then { x with len := x.len + y.len } :: rest else y :: xs
    | [] => [y]

/-- The pages from `va` up to `hi`. -/
def rangeExts (s : State) (g : Gang) (hi : Nat) : Nat → Nat → List Extent → Except NoExt (List Extent)
  | 0, _, xs => .ok xs
  | n + 1, va, xs =>
    if hi ≤ va then .ok xs
    else
      match pageExt s g va with
      | .ok y => rangeExts s g hi n (y.va + y.len) (addExt xs y)
      | .error r => .error r

/-- An entry of the range list. -/
def rangeEntry (s : State) (g : Gang) (priv : Bool) (va : Nat) : Except NoExt (Nat × Nat) :=
  match devRead s g priv va 16 with
  | .got b => .ok (recNat b 0 8, recNat b 8 8)
  | .park p => .error (.park p)
  | .bad =>
    match translate s g ⟨false, false, priv⟩ (va % 2 ^ 64) 1 with
    | .fail n => .error (.fail n va)
    | _ => .error (.fail 6 va)

/-- Entries `i`, `i + 1`, ... of the list, `n` of them. -/
def listExts (s : State) (g : Gang) (t : Task) : Nat → Nat → List Extent → Except NoExt (List Extent)
  | 0, _, xs => .ok xs
  | n + 1, i, xs =>
    match rangeEntry s g t.priv ((tkRlist t.bytes + 16 * i) % 2 ^ 64) with
    | .error r => .error r
    | .ok (va, len) =>
      match rangeExts s g (va + len) (len / 2 ^ 16 + 2) va xs with
      | .ok xs => listExts s g t n (i + 1) xs
      | .error r => .error r

/-- The extent table of a task: at most 64 extents, in the order found. -/
def taskExts (s : State) (g : Gang) (t : Task) : Except NoExt (List Extent) :=
  (listExts s g t (tkNrange t.bytes) 0 []).map fun xs => xs.reverse.take 64

/-! ## Starting (R328) -/

/-- A task waits for a page. -/
def taskWaits (s : State) (die : Nat) (t : Task) (va : Nat) (write : Bool) : State :=
  let r := addReq s die t.ctx va 4 (if write then 2 else 1) (die * 2 ^ 17) (.task die t.key)
  modTask r.1 die t.key fun t => { t with waits := [r.2] }

/-- The launch of a task's grid; `denied` is the page of its record, where the request for it was denied. -/
def taskPend (die : Nat) (t : Task) (denied : Option Nat) : Pend :=
  { pagerPend (tkPayload t.bytes) die with kind := .task die t.key, priv := t.priv, denied := denied }

/-- Enter a task's launch record into its queue. -/
def enterTask (s : State) (die : Nat) (t : Task) (queue : Nat) (exts : List Extent) (fail : Option (Nat × Nat))
    (denied : Option Nat) : State :=
  let s := modTask s die t.key fun t => { t with running := true, denied := none, exts := exts, fail := fail }
  modPend s t.ctx queue fun ps => ps ++ [taskPend die t denied]

def endTask (s : State) (die key : Nat) : State := modTask s die key fun t => { t with running := true, fin := true }

/-- KIND 0. A misaligned record address fails the task (R13); a denied request for the record's page ends its grid (R304). -/
def startGangTask (s : State) (die : Nat) (t : Task) : State :=
  let g := blankGang 0 t.ctx die
  if tkPayload t.bytes % 128 != 0 then endTask s die t.key
  else
  match devRead1 s g t.priv (tkPayload t.bytes) 96 with
  | .park va =>
    match t.denied with
    | some page => enterTask s die t 0 [] (some (8, page * 2 ^ 16)) (some page)
    | none => taskWaits s die t va false
  | .bad => enterTask s die t 0 [] none none
  | .got b =>
    match t.denied with
    | some page => enterTask s die t (recTqueue b) [] (some (8, page * 2 ^ 16)) none
    | none =>
      match taskExts s g t with
      | .ok xs => enterTask s die t (recTqueue b) xs none none
      | .error (.park va) => taskWaits s die t va false
      | .error (.fail n va) => enterTask s die t (recTqueue b) [] (some (n, va)) none

/-- Row number of a command task. -/
def taskOp (b : List Byte) : Nat := if tkKind b == 1 then 0xB5 else if tkKind b == 2 then 0xB8 else tkSubop b

/-- The command of a task; it sees every write before `floor`, which the starts of tasks acquire (R328). -/
def commandOf (t : Task) (floor : Nat) (body : List Byte) (bad : Bool) : EngOp where
  id := 0
  wave := 0
  freg := none
  serial := 0
  kind := .block (taskOp t.bytes) 0
  blkVa := tkPayload t.bytes
  bsp := false
  body := body
  bad := bad
  pclass := if tkKind t.bytes == 1 then .c else if tkKind t.bytes == 2 then .b else .s
  floor := floor
  priv := t.priv
  waits := []
  page := 0
  denied := []
  cancel := false
  out := none
  pos := []
  prog := 0
  res := 0
  fl := 0

/-- KIND 1 to 3. A block that cannot be read leaves nothing to report to. DEDUCED (log 59). -/
def startCommand (s : State) (die : Nat) (t : Task) : State :=
  let g := blankGang 0 t.ctx die
  let va := tkPayload t.bytes
  if va % 64 != 0 || t.denied.isSome then endTask s die t.key
  else
    match translate s g ⟨false, false, t.priv⟩ va 64 with
    | .park => taskWaits s die t va false
    | .fail _ => endTask s die t.key
    | .ok k =>
      let s := noteTag s g false va 64
      let o := commandOf t (s.fills + 1) (s.mem.read k 64) (s.rangeBad 0 (.mem k) 64)
      modTask s die t.key fun t => { t with running := true, op := some o }

/-- KIND 4. A misaligned object address fails the task (R13). -/
def startSignal (s : State) (die : Nat) (t : Task) : State :=
  if tkPayload t.bytes % 16 != 0 then endTask s die t.key
  else
  match compPlace s (blankGang 0 t.ctx die) t.priv false (tkPayload t.bytes) 16 with
  | .park va => if t.denied.isSome then endTask s die t.key else taskWaits s die t va true
  | c => endTask (arriveAt s 0 c) die t.key

/-- A task whose count has come to zero starts by its KIND. -/
def startTask (s : State) (die key : Nat) : State :=
  match taskAt s die key with
  | none => s
  | some t =>
    if !t.put || t.running || 0 < t.count || !t.waits.isEmpty then s
    else if tkKind t.bytes == 0 then startGangTask s die t
    else if tkKind t.bytes == 4 then startSignal s die t
    else startCommand s die t

/-! ## TASKPUT (R205, R328, R329) -/

/-- Records put and not finished. -/
def putCount (d : Die) : Nat := (d.tasks.filter (·.put)).length

/-- Accept a record: decrements that came before it count. -/
def putTask (s : State) (die ctx key : Nat) (b : List Byte) (priv : Bool) : State :=
  let early := ((taskAt s die key).map (·.count)).getD 0
  let t : Task := { blankTask ctx key with bytes := b, count := recNat b 0 4 + early, put := true, priv := priv }
  let s := s.modDie die fun d => { d with tasks := (d.tasks.filter fun x => x.key != key) ++ [t] }
  startTask s die key

/-- The work of a `TASKPUT`. -/
def workTask (a : OpAt) (s : State) (o : EngOp) : State × EngOp :=
  let key := if o.bsp then spadTaskKey a.g.id o.blkVa else taskKey a.g.ctx o.blkVa
  let fail (n : Nat) : State × EngOp := (s, { o with out := some (.failed, n) })
  if o.bad then fail 3
  else if !taskOk o.body then fail 4
  else if (taskAt s a.g.die key).any (·.put) then fail 4
  else if ((s.die? a.g.die).map putCount).getD 0 < 4096 then
    (putTask s a.g.die a.g.ctx key o.body o.priv, { o with out := some (.done, 0) })
  else (s, o)

/-! ## TASK_FINISH -/

/-- A decrement of a count; one whose record is not put yet is kept. -/
def countDown (s : State) (die ctx key : Nat) : State :=
  match taskAt s die key with
  | some _ => startTask (modTask s die key fun t => { t with count := t.count - 1 }) die key
  | none => s.modDie die fun d => { d with tasks := d.tasks ++ [{ blankTask ctx key with count := -1 }] }

/-- A task ends: its record is free, and its successors count down. -/
def finishTask (s : State) (die : Nat) (t : Task) : State :=
  let s := s.modDie die fun d => { d with tasks := d.tasks.filter fun x => x.key != t.key }
  (successors t).foldl (fun s k => countDown s die t.ctx k) s

/-- A command task goes on. -/
def runCommand (s : State) (die : Nat) (t : Task) (o : EngOp) : State :=
  let a := dieOp t.ctx die t.key
  let r := workOp a s o
  match endOp a r.1 r.2 with
  | (s, none) => finishTask s die t
  | (s, some o) => modTask s die t.key fun t => { t with op := some o }

/-- Whether a task has something left to do that no one else does. -/
def Task.due (s : State) (t : Task) : Bool :=
  t.put && t.count ≤ 0 && t.waits.isEmpty &&
    (t.fin || !t.running || (match t.op with | some o => o.waits.isEmpty | none => false)
      || (match t.grid with | some r => (s.grid? r).isNone | none => false))

def execTaskFinish (die task : Nat) (s : State) : Out :=
  .next <|
    match taskAt s die task with
    | none => s
    | some t =>
      if !t.due s then s
      else if !t.running then startTask s die task
      else
        match t.op with
        | some o => runCommand s die t o
        | none => finishTask s die t

end Sys2Proof.Machine
end

