-- ==== Sys2Proof/Machine/EngEnd.lean ====
section
/-! DEFINITION. ENGINE_OP_END and OP_CANCEL_STOP (R92, R192, R194, R199, R206, R376). -/

namespace Sys2Proof.Machine

/-- Commands of the asynchronous engines, system operations aside. -/
def isEngine (o : EngOp) : Bool :=
  match o.kind with
  | .copy .. | .block .. | .binapp .. => true
  | _ => false

def isTaskput (o : EngOp) : Bool :=
  match o.kind with
  | .block op _ => op == 0xBD
  | _ => false

def Gang.op? (g : Gang) (id : Nat) : Option EngOp := g.eops.find? fun o => o.id == id

/-- Whether an earlier command of the gang on the same bin set still runs (R199). -/
def binWaits (g : Gang) (o : EngOp) : Bool :=
  match binOf o with
  | some b => g.eops.any fun x => x.id < o.id && binOf x == some b
  | none => false

/-- An operation of a gang. -/
def gangOp (gi : Nat) (g : Gang) (o : EngOp) : OpAt :=
  ⟨gi, g, .op g.id o.id, match g.wave? o.wave with | some w => reqWord g w true | none => 2 ^ 31⟩

/-- Keep what has become of an operation. -/
def keepOp (s : State) (gi id : Nat) (o : Option EngOp) : State :=
  s.modGang gi fun g =>
    { g with eops := match o with
      | some o => mapIf (·.id == id) (fun _ => o) g.eops
      | none => g.eops.filter fun x => x.id != id }

/-- Run the work of an operation and, when it has ended, its completion. -/
def advanceOp (s : State) (gi : Nat) (g : Gang) (o : EngOp) : State :=
  let a := gangOp gi g o
  let r := if isTaskput o && o.out.isNone then workTask a s o else if binWaits g o then (s, o) else workOp a s o
  let e := endOp a r.1 r.2
  keepOp e.1 gi o.id e.2

/-- Whether an operation can go on by itself: it is not parked. -/
def opFree (o : EngOp) : Bool := isEngine o && o.waits.isEmpty

/-- Whether a request to cancel can act on an operation. -/
def canStop (o : EngOp) : Bool :=
  isEngine o && !isTaskput o && o.cancel && o.out.isNone && o.denied.isEmpty && (!o.waits.isEmpty || hasDrain o)

/-- Whether an operation can be saved: one of the system's, parked, at a drain point, or waiting for its bin set (R206, R312). -/
def canSaveOp (g : Gang) (o : EngOp) : Bool :=
  !isEngine o
    || (!canStop o && o.denied.isEmpty && (!o.waits.isEmpty || (o.out.isNone && (hasDrain o || binWaits g o))))

/-- Whether an operation goes on: its gang's engines run, or the gang stops and this operation cannot be saved before it has
ended (R206, R312). -/
def Gang.opRuns (g : Gang) (o : EngOp) : Bool :=
  g.engines || ((match g.st with | .stopping _ => true | _ => false) && !canSaveOp g o)

/-- The operation that an event names, with its gang. -/
def opNamed (s : State) (gang op : Nat) : Option (Nat × Gang × EngOp) :=
  match s.gangIdx gang with
  | none => none
  | some gi =>
    match s.gang? gi with
    | none => none
    | some g =>
      match g.op? op with
      | some o => if g.opRuns o then some (gi, g, o) else none
      | none => none

def execEngineOpEnd (gang op : Nat) (s : State) : Out :=
  .next <|
    match opNamed s gang op with
    | some (gi, g, o) => if opFree o then advanceOp s gi g o else s
    | none => s

def execOpCancelStop (gang op units : Nat) (s : State) : Out :=
  .next <|
    match opNamed s gang op with
    | some (gi, g, o) =>
      if canStop o then
        let a := gangOp gi g o
        let r := stopOp a s o (if binWaits g o then 0 else units)
        let e := endOp a r.1 r.2
        keepOp e.1 gi o.id e.2
      else s
    | none => s

end Sys2Proof.Machine
end

