-- ==== Sys2Proof/Machine/Preempt.lean ====
section
/-! DEFINITION. Gang-level pre-emption: save, restore, the scheduler's choice, and the reassignment of pipeline waves (R312-R315,
R326, R333). -/

namespace Sys2Proof.Machine

/-! ## Save images (R313, R352) -/

/-- Where a context's save images begin. -/
def imageBase (c : Ctx) : Nat := c.save + 20 * 2 ^ 20

/-- Bytes of a gang's image: the bound of R313, down to whole 4 KiB units. DESIGN CHOICE (log 11). -/
def imageSize (g : Gang) : Nat :=
  let n := 4096 + g.n * (g.vcount * 384 + 8192) + g.spadLen + (if g.churn then 192 * 1024 else 0)
  n / 4096 * 4096

/-- Room for `n` bytes in a context's save area. -/
def imageRoom (c : Ctx) (n : Nat) : Option Nat :=
  let starts := 0 :: c.images.map fun x => x.off + x.bytes.length
  leastBy id (starts.filter fun o =>
    o + n ≤ c.saveLen && c.images.all fun x => o + n ≤ x.off || x.off + x.bytes.length ≤ o)

/-- An image: its first 64 bytes, CHK free, and the rest private. DESIGN CHOICE (log 11). -/
def imageBytes (s : State) (g : Gang) : List Byte :=
  let free (i n : Nat) : List Byte := (List.range n).map fun k => Config.freeByte (s.freeCtr + i + k)
  natLe 8 g.lrec.toNat ++ natLe 8 g.gx ++ natLe 4 g.gy ++ natLe 4 g.gz ++ natLe 4 (imageSize g / 4096) ++ natLe 1 g.ctx
    ++ natLe 1 ((!g.stages.isEmpty).toNat + 2 * g.churn.toNat) ++ natLe 2 0 ++ free 0 8 ++ natLe 24 0
    ++ free 8 (imageSize g - 64)

/-- The device reads the areas of a gang's waves, for a context through its key (R24). -/
def openAreas (s : State) (gi : Nat) (g : Gang) : State :=
  g.waves.foldl (fun s w => s.openArea gi false w.dsaddr.toNat 4096) s

/-- A wave's own area: bytes and poisoned granules. -/
def areaOf (s : State) (w : Wave) : List Byte × List Nat :=
  let a := w.dsaddr.toNat
  (s.mem.read a 4096, (List.range 512).filter fun i => s.memBad.contains (a / 8 + i))

def putArea (s : State) (ctx a : Nat) (x : List Byte × List Nat) : State :=
  let s := sealLines s ctx a 4096
  let bad := (List.range 512).foldl (fun m i => clearBad m (a / 8 + i)) s.memBad
  { s with mem := s.mem.write a x.1, memBad := x.2.foldl (fun m i => addBad m (a / 8 + i)) bad }

/-- Write a gang's image. -/
def putImage (s : State) (c : Ctx) (gi : Nat) (g : Gang) (off : Nat) : State :=
  let s := openAreas s gi g
  let b := imageBytes s g
  let a := imageBase c + off
  let s := sealLines s c.id a b.length
  let s := { s with mem := s.mem.write a b, freeCtr := s.freeCtr + b.length }
  s.modCtx c.id fun c => { c with images := ⟨g.id, off, b, g.waves.map (areaOf s)⟩ :: c.images }

/-- Whether an image still reads as it was written. DESIGN CHOICE (log 11). -/
def imageOk (s : State) (c : Ctx) (x : SaveImg) : Bool :=
  let a := imageBase c + x.off
  (tagLines s c.id true false a x.bytes.length).mem.read a x.bytes.length == x.bytes && !s.rangeBad 0 (.mem a) x.bytes.length

/-! ## PREEMPT_SAVE (R312) -/

/-- A gang that can be saved now: stopped at word boundaries, its register operations ended, its stores accepted. -/
def Gang.canSave (g : Gang) : Bool :=
  (match g.st with | .stopping _ => true | _ => false) && (!g.runs || g.waves.all (·.ended))
    && (g.waves.all fun w => w.ops.all fun o => o.ctr == .st && o.accepted) && g.eops.all (canSaveOp g)

/-- Drain an operation: up to `units` more units. -/
def drainOp (s : State) (gi units id : Nat) : State :=
  match s.gang? gi with
  | none => s
  | some g =>
    match g.op? id with
    | none => s
    | some o =>
      if !isEngine o || !o.waits.isEmpty || binWaits g o then s
      else
        let a := gangOp gi g o
        let r :=
          match engRun gi g units s o with
          | (s, o, .more) => (s, o)
          | r => takeRan a r
        let e := endOp a r.1 r.2
        keepOp e.1 gi id e.2

/-- A saved gang: its latches are lost, and no stage is halted when it comes back. -/
def Gang.asSaved (g : Gang) (eligible : Bool) : Gang :=
  { g with
    st := .saved eligible
    waves := g.waves.map fun w => { w with latches := loseLatches w.latches }
    stages := g.stages.map fun x => { x with halted := false }
    troughs := g.troughs.map fun t => { t with stop := false } }

/-- A gang whose image finds no room goes on. -/
def Gang.resumed (g : Gang) : Gang :=
  { g with
    st := if g.waves.all (·.ended) then .ended else .running
    stages := g.stages.map fun x => { x with halted := false }
    troughs := g.troughs.map fun t => { t with stop := false } }

/-- Count a saved gang at the `CTXSAVE` that asked for it. -/
def tellSaved (s : State) (tell : Option (Nat × Nat)) : State :=
  match tell with
  | some (g, o) =>
    let inc (g : Gang) : Gang := { g with eops := mapIf (·.id == o) (fun o => { o with res := o.res + 1 }) g.eops }
    { s with gangs := mapIf (·.id == g) inc s.gangs }
  | none => s

/-- A `CTXSAVE` that finds its save area exhausted saves no further gang (R352). -/
def noRoom (s : State) (tell : Option (Nat × Nat)) : State :=
  match tell with
  | some t => { s with gangs := s.gangs.map fun g => if g.st == .stopping (some t) then g.resumed else g }
  | none => s

def saveGang (s : State) (gi units : Nat) (g : Gang) (tell : Option (Nat × Nat)) : State :=
  let s := (g.eops.map (·.id)).foldl (fun s id => drainOp s gi units id) s
  match s.gang? gi, s.ctx? g.ctx with
  | some g, some c =>
    (match imageRoom c (imageSize g) with
     | some off => tellSaved ((putImage s c gi g off).modGang gi fun g => g.asSaved tell.isNone) tell
     | none => noRoom (s.modGang gi fun g => g.resumed) tell)
  | _, _ => s

def execPreemptSave (gang units : Nat) (s : State) : Out :=
  .next <|
    match s.gangIdx gang with
    | none => s
    | some gi =>
      match s.gang? gi with
      | some g =>
        if g.canSave then saveGang s gi units g (match g.st with | .stopping t => t | _ => none) else s
      | none => s

/-! ## GANG_RESTORE (R314) -/

/-- Drop a context's translations of a Byre on which it has no gang. -/
def coldTlb (s : State) (die byre ctx : Nat) : State :=
  if (onByre s die byre).any fun g => g.ctx == ctx then s
  else
    let id := die * 80 + byre
    let mine := s.tlb.filter fun t => t.byre == id && t.ctx == ctx
    let s := mine.foldl (fun s t => shadowAdd s t.leaf t.hits) s
    { s with tlb := s.tlb.filter fun t => !(t.byre == id && t.ctx == ctx) }

/-- A wave on its new quadrant slot: the L1 starts cold. -/
def Wave.moved (w : Wave) (at' : Nat × Nat) (dsaddr : D) (floor : Nat) : Wave :=
  { w.raise allLanes floor with quad := at'.1, qslot := at'.2, dsaddr := dsaddr }

def restoreGang (s : State) (gi byre : Nat) (g : Gang) (c : Ctx) (x : SaveImg) (places : List (Nat × Nat)) : State :=
  let s := coldTlb s g.die byre g.ctx
  let addr (p : Nat × Nat) : D := dsAddr c g.die byre p.1 p.2
  let s := (places.zip x.areas).foldl (fun s p => putArea s c.id (addr p.1).toNat p.2) s
  let s := s.modCtx c.id fun c => { c with images := c.images.filter fun y => y.gang != g.id }
  let s := dropObuf s (g.die * 80 + byre) s.fills
  s.modGang gi fun g =>
    { g with
      byre := byre, st := if g.waves.all (·.ended) then .ended else .running
      waves := (g.waves.zip places).map fun p => p.1.moved p.2 (addr p.2) (s.fills + 1) }

/-- The fault of a save image that fails its check (R314, R344): FSRC 2. -/
def imageFault (g : Gang) : FaultRep :=
  let w : W := match g.waves with
    | w :: _ => widxWord g w
    | [] => 0
  ⟨causeWord (trAccess 9 0 0), w, 0, 0, g.gx, g.gy, g.gz, 2⟩

def execGangRestore (gang byre : Nat) (s : State) : Out :=
  .next <|
    match s.gangIdx gang with
    | none => s
    | some gi =>
      match s.gang? gi with
      | none => s
      | some g =>
        if g.st != .saved true || s.hub.thsd || outranked s g.die g.prio true then s
        else
          match fits s g.die byre g.foot, s.ctx? g.ctx with
          | some places, some c =>
            (match c.images.find? fun x => x.gang == g.id with
             | some x => if imageOk s c x then restoreGang s gi byre g c x places else faultGrid s g.grid (imageFault g)
             | none => faultGrid s g.grid (imageFault g))
          | _, _ => s

/-! ## SCHEDULER_PREEMPT (R326) -/

/-- What waits to be placed on a die: priority, footprint, and whether its context keeps the basic priorities (R322). -/
structure Waiting where
  prio  : Nat
  foot  : Foot
  basic : Bool

def isBasic (s : State) (ctx : Nat) : Bool := ((s.ctx? ctx).map (·.basic)).getD true

def waitingOn (s : State) (die : Nat) : List Waiting :=
  (s.grids.filter fun r => (r.nextOn die).isSome).map (fun r => ⟨r.prio, recFoot r.bytes, isBasic s r.ctx⟩)
    ++ (s.gangs.filter fun g => g.die == die && g.st == .saved true).map fun g => ⟨g.prio, g.foot, isBasic s g.ctx⟩

/-- Whether a gang may be pre-empted by the scheduler: a resident one that has not completed, no steward gang and no fault-service gang, which is of no
grid. -/
def maySaveFor (s : State) (die p : Nat) (g : Gang) : Bool :=
  g.die == die && (g.st == .running || (g.st == .ended && !g.quiet)) && g.prio < p &&
    match s.grid? g.grid with
    | some r => r.kind != .steward
    | none => false

/-- Whether a footprint would fit if a gang were gone. -/
def fitsWithout (s : State) (f : Foot) (g : Gang) : Bool :=
  (fits { s with gangs := s.gangs.filter fun x => x.id != g.id } g.die g.byre f).isSome

/-- The gang that the scheduler would save for a waiting one. DEDUCED (log 60). -/
def victim (s : State) (die : Nat) (x : Waiting) : Option Gang :=
  let gs := s.gangs.filter (maySaveFor s die x.prio)
  if (x.basic && x.prio != 7) || (fitsDie s die x.foot).isSome || !gs.any (fitsWithout s x.foot) then none
  else leastBy (fun g => g.prio * (s.ids + 1) + (s.ids - g.id)) gs

def execSchedulerPreempt (die gang : Nat) (s : State) : Out :=
  .next <|
    match s.gangIdx gang with
    | none => s
    | some gi =>
      let busy := s.gangs.any fun g => g.die == die && (match g.st with | .stopping none => true | _ => false)
      let picked := (waitingOn s die).any fun x => ((victim s die x).map (·.id)) == some gang
      if !busy && picked then s.modGang gi fun g => { g with st := .stopping none } else s

/-! ## STAGE_REASSIGN (R333) -/

/-- The input trough of a stage. -/
def Gang.input (g : Gang) (st : Nat) : Option Trough := g.troughs.find? fun t => t.dst == st

/-- Whether a stage has enough input to draw a wave. -/
def Trough.draws (t : Trough) : Bool := t.slots ≤ 2 * t.ring.length || t.silo != 0

/-- The stage that a wave of stage `a` would be given: the fullest input, the lowest stage among equals. -/
def drawStage (g : Gang) (a : Nat) : Option Nat :=
  let ok := (List.range g.stages.length).filter fun b =>
    b != a && (match g.input b with | some t => t.draws | none => false)
  ok.foldl (fun best b =>
    match best, g.input b with
    | none, _ => some b
    | some c, some t =>
      (match g.input c with
       | some u => if u.ring.length * t.slots < t.ring.length * u.slots then some b else some c
       | none => some b)
    | _, none => best) none

/-- Whether a wave may leave its stage. DEDUCED (log 61). -/
def mayReassign (g : Gang) (w : Wave) : Bool :=
  let a := w.stage
  !w.ended && w.trap.isNone && w.slot1.st == .empty && w.dsp == 0 && (w.futs.all fun f => f.st != .pending)
    && g.halter != some w.idx && 1 < (g.waves.filter fun v => v.stage == a && !v.ended).length
    && (match g.input a with | some t => t.ring.isEmpty && t.silo == 0 | none => false)
    && w.slot0.st == .ready && (match g.stages[a]? with | some x => w.slot0.pc == x.entry | none => false)

def execStageReassign (gang wave stage : Nat) (s : State) : Out :=
  .next <|
    match s.gangIdx gang with
    | none => s
    | some gi =>
      match s.gang? gi with
      | none => s
      | some g =>
        match g.wave? wave, g.stages[stage]? with
        | some w, some x =>
          if g.st == .running && mayReassign g w && drawStage g w.stage == some stage then
            s.setWave gi wave { w with stage := stage, slot0 := { w.slot0 with pc := x.entry } }
          else s
        | _, _ => s

end Sys2Proof.Machine
end

