-- ==== Sys2Proof/Machine/Forms.lean ====
section
/-! DEFINITION. The word forms without an opcode of their own: words that fail decoding (R67, R68), pair words (R62-R64)
and the fused softmax sequence (R130, R131). -/

namespace Sys2Proof.Machine

/-- A word that fails checks 1 to 4 of R67 traps with its code (R68). -/
def execIllegalWord (w : D) (sub field : Nat) (half : Bool) (s : State) : Out :=
  onSplit (.illegalWord w sub field half) s fun e => e.trap ⟨1, sub, field * 16 + half.toNat, w, e.act⟩

/-! ## Pair words -/

/-- IMM4, exactly in a type (R64). -/
def immTy (t : VTy) (n : BitVec 4) : W :=
  match t with
  | .s32 => BitVec.ofNat 32 n.toNat
  | .u32 => BitVec.ofNat 32 n.toNat
  | t => BitVec.ofNat 32 (roundFP (fmOf t) .rne false 0 (exInt n.toNat)).1

/-- What a half is: a vector word, a scalar word, or nothing. -/
inductive HalfWord
  | vec (v : VecWord)
  | scl (v : SclWord)
  | none

/-- The word with its second operand replaced by a value. -/
def VecWord.imm (v : VecWord) (x : W) : VecWord := { v with eval := fun y => v.eval { y with ops := setAt y.ops 1 (splat x false) } }

def SclWord.imm (v : SclWord) (x : W) : SclWord := { v with eval := fun xs ps ms u => v.eval (setAt xs 1 x) ps ms u }

/-- No saturation, RNE (R64). -/
def xmPlain : Xm := ⟨false, .rne⟩

def unsOf (t : VTy) : Bool := t == .u32

/-- The full-form equivalent of a half (R64): `A` = `D`. -/
def halfWord (h : Half) : HalfWord :=
  let d : VR := h.d.setWidth 7
  let a : Src := .v d
  let b : Src := h.b.getD (.k 0)
  let t := h.ty
  let u := unsOf t
  let x := immTy t h.imm
  let sd : SR := h.d.setWidth 6
  let sa : Src := .s sd
  match h.pop with
  | .vmov => .vec (wVmov h.nw d b)
  | .vmovi => .vec (.plain d h.nw [] fun _ _ => pure1 x)
  | .vadd => .vec (wVadd t h.nw d a b xmPlain)
  | .vaddi => .vec ((wVadd t h.nw d a b xmPlain).imm x)
  | .vsub => .vec (wVsub t h.nw d a b xmPlain)
  | .vsubi => .vec ((wVsub t h.nw d a b xmPlain).imm x)
  | .vmul => .vec (wVmul t h.nw d a b xmPlain)
  | .vmuli => .vec ((wVmul t h.nw d a b xmPlain).imm x)
  | .vmin => .vec (wVmin t h.nw d a b)
  | .vmax => .vec (wVmax t h.nw d a b)
  | .vand => .vec (wVand h.nw d a b)
  | .vor => .vec (wVor h.nw d a b)
  | .vxor => .vec (wVxor h.nw d a b)
  | .vshl => .vec (wVshl u h.nw d a b)
  | .vshli => .vec ((wVshl u h.nw d a b).imm x)
  | .vshr => .vec (wVshr u h.nw d a b)
  | .vshri => .vec ((wVshr u h.nw d a b).imm x)
  | .vneg => .vec (wVneg t h.nw d b false)
  | .vabs => .vec (wVabs t h.nw d b false)
  | .smov => .scl { scl1 sd h.nw b id with srcs := [(8, b, .s32)], copy := true }
  | .smovi => .scl (.plain sd h.nw [] fun _ => (x, 0))
  | .sadd => .scl (scl2 sd h.nw sa b (· + ·))
  | .saddi => .scl ((scl2 sd h.nw sa b (· + ·)).imm x)
  | .ssub => .scl (scl2 sd h.nw sa b (· - ·))
  | .ssubi => .scl ((scl2 sd h.nw sa b (· - ·)).imm x)
  | .sand => .scl (scl2 sd h.nw sa b (· &&& ·))
  | .sor => .scl (scl2 sd h.nw sa b (· ||| ·))
  | .sxor => .scl (scl2 sd h.nw sa b (· ^^^ ·))
  | .sshl => .scl (scl2 sd h.nw sa b shlWord)
  | .sshli => .scl ((scl2 sd h.nw sa b shlWord).imm x)
  | .sshr => .scl (scl2 sd h.nw sa b (shrWord u))
  | .sshri => .scl ((scl2 sd h.nw sa b (shrWord u)).imm x)
  | .smin => .scl (scl2 sd h.nw sa b (minWord u))
  | .smax => .scl (scl2 sd h.nw sa b (maxWord u))
  | .pnop => .none

/-- Footprint of a half's fields (R67 check 6), in the order `D`, `B`. -/
def halfFoot (e : Env) (k : Bool) (h : HalfWord) : Chk Unit :=
  match h with
  | .vec v => do
    need (v.d.toNat + 1 ≤ e.g.vcount) (trIllegal e 4 6 k)
    chkAll (fun x : Nat × Src × Ty =>
      match x.2.1 with
      | .v n => need (n.toNat + 1 ≤ e.g.vcount) (trIllegal e 4 (if n == v.d && x.1 == 7 then 6 else 8) k)
      | _ => .ok ()) v.srcs
  | _ => .ok ()

/-- Fields of a half as latch readers. -/
def halfFlds (h : HalfWord) : List Fld :=
  match h with
  | .vec v => v.flds
  | .scl v => v.flds
  | .none => []

/-- The class of a latch's tag in a half. -/
def halfLatchClass (e : Env) (k : Bool) (h : HalfWord) : Chk Unit :=
  chkAll (fun f => need (latchClass e f) (trIllegal e 2 8 k)) (halfFlds h)

def halfLatchStop (e : Env) (h : HalfWord) : Chk Unit :=
  chkAll (fun f => match latchStop e f.src with | some n => .error (.trap (trLatch e n)) | none => .ok ()) (halfFlds h)

/-- Registers that a half reads and writes. -/
def halfRegs (e : Env) (h : HalfWord) : (List Nat × List Nat) × (List Nat × List Nat) :=
  match h with
  | .vec v => (regsOf e.w e.k v.srcs, ([v.d.toNat], []))
  | .scl v => (regsOf e.w e.k v.srcs, ([], [v.d.toNat]))
  | .none => (([], []), ([], []))

/-- Elements that a half consumes. -/
def halfPoison (e : Env) (h : HalfWord) : List Eaten :=
  match h with
  | .vec v => byField (v.eaten e)
  | .scl v => if v.copy then [] else byField (v.eaten e)
  | .none => []

/-- A half's results: per lane, or the scalar word with its poison; its flags, and the lanes with an enabled one. -/
inductive HalfOut
  | vec (v : VecWord) (rs : List LaneOut)
  | scl (v : SclWord) (r : List W) (bad : Bool)
  | none

def halfEval (e : Env) (h : HalfWord) : HalfOut × Flags × Mask :=
  match h with
  | .vec v =>
    let rs := v.eval (e.vecIn e.act v.srcs none none none)
    (.vec v rs, allFlags rs, fpLanes e.w.fpen rs)
  | .scl v =>
    let xs := v.srcs.map fun x => e.ssrc x.2.2 x.2.1
    let r := v.eval (xs.map (·.1)) [] [] 0
    (.scl v r.1 (v.copy && xs.any (·.2)), r.2, if r.2 &&& e.w.fpen != 0 then e.act else 0)
  | .none => (.none, 0, 0)

def halfWrite (w : Wave) (k : Bool) (act : Mask) (h : HalfOut) : Wave :=
  match h with
  | .vec v rs => vecWrite w v act rs
  | .scl v r bad => sclWrite w k v r bad
  | .none => w.pushNone

/-- All checks of a pair word, class by class, half 0 before half 1 (R306, R67). DEDUCED (log 37). -/
def pairCheck (e : Env) (h0 h1 : HalfWord) : Chk Unit := do
  halfFoot e false h0
  halfFoot e true h1
  halfLatchClass e false h0
  halfLatchClass e true h1
  halfLatchStop e h0
  halfLatchStop e h1
  let r0 := halfRegs e h0
  let r1 := halfRegs e h1
  chkBusy e (cat2 r0.1 r1.1) (cat2 r0.2 r1.2) false
  chkPoisonM e.act ((halfPoison e h0 ++ halfPoison e h1).map fun f => (f.sub, f.num, f.mask))

/-- A pair word (R63): both halves read before either writes; flags join; half 0's result goes to `l1`. -/
def execPairWord (h0 h1 : Half) (s : State) : Out :=
  onSplit (.pairWord h0 h1) s fun e => e.run do
    let w0 := halfWord h0
    let w1 := halfWord h1
    pairCheck e w0 w1
    let r0 := halfEval e w0
    let r1 := halfEval e w1
    let fl := r0.2.1 ||| r1.2.1
    let w := e.w.setFlags fl
    if fl &&& e.w.fpen != 0 then .ok (e.trapAfter w (trFp (fl &&& e.w.fpen) (r0.2.2 ||| r1.2.2)))
    else .ok (e.done (halfWrite (halfWrite w e.k e.act r0.1) e.k e.act r1.1))

/-! ## The fused softmax -/

/-- The four words of a fused sequence (R130). -/
def fusedWords (g : BitVec 3) (x m y sum : VR) : List Instr :=
  [.vrmax .f32 false m (.v x) g, .vsub .f32 false y (.v x) (.v m) xmPlain, .vexp2 .f32 false y (.v y),
   .vradd .f32 false sum (.v y) g xmPlain]

def fusedVecs (g : BitVec 3) (x m y sum : VR) : List VecWord :=
  [wVrmax .f32 false m (.v x) g, wVsub .f32 false y (.v x) (.v m) xmPlain, wVexp2 .f32 false y (.v y),
   wVradd .f32 false sum (.v y) g xmPlain]

/-- Whether four instructions fuse, and with what registers (R130). -/
def fuseOf (i j k l : Instr) : Option Instr :=
  match i, j, k, l with
  | .vrmax .f32 false m (.v x) g, .vsub .f32 false y (.v x') (.v m') mx, .vexp2 .f32 false y' (.v y''),
      .vradd .f32 false s (.v y3) g' mx' =>
    if x' == x && m' == m && y' == y && y'' == y && y3 == y && g' == g && mx == xmPlain && mx' == xmPlain
        && m != x && m != y then some (.fusedSoftmax g x m y s) else none
  | _, _, _, _ => none

/-- Lanes of empty rows: every present element of their segment is −∞ (R131). -/
def emptyRows (act : Mask) (g : BitVec 3) (r : VReg) : Mask :=
  maskOf fun l =>
    act.getLsbD l &&
      (List.range (segLen g)).all fun i =>
        let k := segBase g l + i
        !act.getLsbD k || inFl .f32 (r.lane k) == (.inf true, 0)

/-- Lane results with the empty rows replaced by +0 without flags. -/
def blankRows (empty : Mask) (rs : List LaneOut) : List LaneOut :=
  (rs.zip laneList).map fun p => if empty.getLsbD p.2 then pure1 0 else p.1

/-- Run the words one after another on the wave: flags so far, and the lanes and flags of an FP trap. -/
def fusedRun (e : Env) (empty : Mask) (first : Bool) (w : Wave) : List VecWord → Except (Wave × Flags × Mask) Wave
  | [] => .ok w
  | v :: vs =>
    let x := { e with w := w }.vecIn e.act v.srcs none none none
    let rs := if first then v.eval x else blankRows empty (v.eval x)
    let fl := allFlags rs
    let hot := fpLanes e.w.fpen rs
    if hot != 0 then .error (w.setFlags fl, fl &&& e.w.fpen, hot)
    else fusedRun e empty false (vecWrite (w.setFlags fl) v e.act rs) vs

/-- Footprint of each of the four words, with that word in `TVAL`. -/
def fusedFoot (e : Env) (i : Instr) (v : VecWord) : Chk Unit := do
  let e := { e with word := (encode i).getD 0 }
  chkFoot e 6 v.d.toNat 1
  chkAll (fun x : Nat × Src × Ty => chkFootSrc e x.1 x.2.1) v.srcs

/-- The fused sequence (R131). On a trap only the flags stay. Of several traps the footprint of any word comes first, then
`POISON`, then FP in word order. DESIGN CHOICE (log 86). -/
def execFusedSoftmax (g : BitVec 3) (x m y sum : VR) (s : State) : Out :=
  onSplit (.fusedSoftmax g x m y sum) s fun e => e.run do
    let vs := fusedVecs g x m y sum
    chkAll (fun p : Instr × VecWord => fusedFoot e p.1 p.2) ((fusedWords g x m y sum).zip vs)
    chkBusy e ([x.toNat], []) ([m.toNat, y.toNat, sum.toNat], []) false
    let r := e.w.vreg x.toNat
    chkPoisonV e.act [(x.toNat, r.bad)] 0
    match fusedRun e (emptyRows e.act g r) true e.w vs with
    | .error t => .ok (e.trapAfter { e.w with flags := t.1.flags } (trFp t.2.1 t.2.2))
    | .ok w => .ok (e.done (w.modSlot e.k fun y => { y with pc := y.pc + 24 }))

end Sys2Proof.Machine
end

