-- ==== Sys2Proof/Machine/Xvec.lean ====
section
/-! DEFINITION. `XVEC` (R154-R158): lane words, their legality, their issue group by group, deferred traps. -/

namespace Sys2Proof.Machine

/-! ## The fields of a word -/

def alu2Src : Alu2 → List Src
  | .reg b => [b]
  | .imm _ => []

def addpSrc : AddP → List Src
  | .pair b => [b]
  | .sext b => [b]
  | .imm _ => []

def bflySrc : Bfly → List Src
  | .x => []
  | .lo b => [b]
  | .hi b => [b]

def maskSrc : MaskOp → List (Nat × Src × Nat)
  | .first _ a => [(7, a, 1)]
  | .and _ a b => [(7, .s a, 1), (8, .s b, 1)]
  | .or _ a b => [(7, .s a, 1), (8, .s b, 1)]
  | .andn _ a b => [(7, .s a, 1), (8, .s b, 1)]
  | .cnt .. => []
  | .low .. => []

/-- Fields of a full-form word that may name a vector register, a latch or a future: code (R68), what the field names, and
how many registers from there the word uses (R17). -/
def fieldsOf (i : Instr) : List (Nat × Src × Nat) :=
  match i with
  | .sadd _ _ _ a b | .ssub _ _ _ a b | .smul _ _ _ a b | .smulh _ _ _ a b | .sdiv _ _ _ a b
  | .srem _ _ _ a b | .smin _ _ _ a b | .smax _ _ _ a b | .sand _ _ _ a b | .sor _ _ _ a b
  | .sxor _ _ _ a b | .sandn _ _ _ a b | .sshl _ _ _ a b | .sshr _ _ _ a b | .srot _ _ _ a b =>
    (7, a, 1) :: (alu2Src b).map fun x => (8, x, 1)
  | .saddp _ a b => (7, a, 1) :: (addpSrc b).map fun x => (8, x, 1)
  | .smov _ _ a | .sclz _ _ a | .spopc _ _ a | .sbfx _ _ _ a _ _ | .sext _ _ _ a | .scvt _ _ _ a _
  | .callR _ a | .ret a | .stepadv a | .brx a | .vvote _ _ a _ | .bari _ a _ | .bar a _ | .barq _ a _
  | .trgtry _ a _ | .hpass a | .ftest _ a | .fwait _ a _ | .fcancel a | .cresolve a | .mts _ a =>
    [(7, a, 1)]
  | .scmp _ _ _ a b | .sbfi _ _ a b _ _ | .slea _ _ a b _ | .sfadd _ _ a b _ | .sfmul _ _ a b _
  | .scmpp _ _ _ a b | .vcmp _ _ _ a b | .sld _ _ a b _ | .sst _ _ a b _ | .vpref _ a b _
  | .satom _ _ a b _ | .scas _ a b _ | .bara _ a b _ | .barw a b _ | .perfcfg a b | .fltresOk a b
  | .fltresDeny a b | .idlew _ a b =>
    [(7, a, 1), (8, b, 1)]
  | .ssel _ _ a b c | .draft _ _ a b c _ =>
    [(7, a, 1), (8, b, 1), (9, c, 1)]
  | .smask _ op =>
    maskSrc op
  | .spawn d a | .cancel d a | .fsth d a _ | .accept d a | .cepi _ d a _ | .shtblSet d a =>
    [(6, .f d, 1), (7, a, 1)]
  | .launch _ d a b _ | .cscale d a b _ _ | .icinv _ d a b =>
    [(6, .f d, 1), (7, a, 1), (8, b, 1)]
  | .vadd _ _ d a b _ | .vsub _ _ d a b _ | .vmul _ _ d a b _ | .vmulh _ _ d a b | .vmin _ _ d a b
  | .vmax _ _ d a b | .vand _ d a b | .vor _ d a b | .vxor _ d a b | .vandn _ d a b | .vshl _ _ d a b
  | .vshr _ _ d a b | .vrot _ d a b | .vbfi _ d a b _ _ | .vsel _ d a b _ | .vavg _ _ d a b
  | .vdiv _ _ d a b | .vrem _ _ d a b | .vfdiv _ _ d a b _ | .vsgnj _ _ _ d a b | .vscale _ _ d a b _
  | .vpack _ _ d a b _ | .vqnt _ _ d a b _ | .vdqnt _ _ d a b _ | .vshfl _ _ d a b _ | .vbcast _ d a b _ _
  | .vrotl _ d a b _ _ | .vgumb _ d a b | .vtopk _ _ _ d a b _ | .vld _ d a b _ | .vst _ d a b _
  | .vldu _ d a b _ | .vatom _ d a b _ | .dld d a b _ | .dadd d a b _ | .daddA d a b _ | .dst d a b _
  | .lblld d a b _ | .lblst d a b _ =>
    [(6, .v d, 1), (7, a, 1), (8, b, 1)]
  | .vmad _ _ d a b c _ | .vdot4 _ _ d a b c _ | .vsad _ _ d a b c _ | .vaddc _ _ d a b c
  | .vclmp _ _ d a b c | .vfma _ _ d a b c _ | .vfms _ _ d a b c _ | .vfnma _ _ d a b c _
  | .vdot2 _ _ d a b c _ | .vlerp _ _ d a b c _ =>
    [(6, .v d, 1), (7, a, 1), (8, b, 1), (9, c, 1)]
  | .vabs _ _ d b _ | .vneg _ _ d b _ | .vclz _ d b | .vpopc _ d b | .vbfx _ _ d b _ _ | .vmov _ d b
  | .vsqrt _ _ d b _ | .vrint _ _ d b _ | .vfrac _ _ d b _ | .vclass _ _ d b | .vexpo _ _ d b
  | .vcvt _ _ _ d b _ | .vunpk _ _ d b | .vplane _ _ d b | .vunpl _ _ d b | .vbscl _ _ d b | .vrcp _ _ d b
  | .vrsq _ _ d b | .vexp2 _ _ d b | .vlog2 _ _ d b | .vsin _ _ d b | .vcos _ _ d b | .vtanh _ _ d b
  | .verf _ _ d b | .crdv _ d b _ | .cwrv d b _ =>
    [(6, .v d, 1), (8, b, 1)]
  | .vmovi _ _ d _ | .rng _ _ d =>
    [(6, .v d, 1)]
  | .vrmax _ _ d a _ | .vrmin _ _ d a _ | .vradd _ _ d a _ _ | .vbcastI _ d a _ _ _
  | .vscan _ _ _ _ _ _ d a _ | .vrdc _ _ _ _ _ d a _ | .vcprs _ _ d a _ _ | .vmatch _ d a _
  | .vsmpl _ _ d a _ | .vbern _ _ d a | .vapnd d a _ | .trgput d a _ | .trgget d a _ =>
    [(6, .v d, 1), (7, a, 1)]
  | .vbfly f _ d a _ _ =>
    (6, .v d, 1) :: (7, a, 1) :: (bflySrc f).map fun x => (8, x, 1)
  | .xvec n =>
    [(7, .v n, 2)]
  | .vldp d a b _ | .vstp d a b _ | .vcas d a b _ | .vatomp _ d a b _ =>
    [(6, .v d, 2), (7, a, 1), (8, b, 1)]
  | .vcasp d a b _ | .vldw d a b _ | .vstw d a b _ =>
    [(6, .v d, 4), (7, a, 1), (8, b, 1)]
  | .smerge _ d a b =>
    [(6, .v d, 2), (7, a, 2), (8, b, 2)]
  | .dstamp _ d a _ =>
    [(6, .v d, 2), (7, a, 1)]
  | .copy d _ _ a b c _ | .tlbinv _ d a b c =>
    [(6, .f d, 1), (7, a, 1), (8, b, 1), (9, c, 1)]
  | .copyt d b | .binopen d b | .binplay d b | .xsect d b | .smergeu d b | .topk d b | .cvtcsr d b
  | .cvtres d b | .taskput d b | .stsweep d b | .rinv d b | .cmma _ d b _ | .cmmas _ _ d b _
  | .cstore d b _ | .cload d b _ | .relld d b _ | .hayfill d b =>
    [(6, .f d, 1), (7, b.base, 1)]
  | .binapp lbl d a b c =>
    [(6, .f d, 1), (7, a, 1), (8, b, 1), (9, c, if lbl then 3 else 1)]
  | .czero d _ | .cmova _ d _ _ | .shtblFlush _ d =>
    [(6, .f d, 1)]
  | .lblsum d b _ n =>
    [(6, .f d, 1), (7, b.base, 1), (8, n, 1)]
  | .lblldAdm d b row =>
    [(6, .v d, 1), (7, b.base, 1), (8, row, 1)]
  | .perfrd _ b =>
    [(8, b, 1)]
  | .ctxsave _ d b | .ctxload _ d b =>
    [(6, .f d, 1), (8, b, 1)]
  | _ => []

/-! ## What the performance counters count of a word (R319) -/

/-- Words that use the vector pipe (R276): pair words, and those that name a vector register in `D`, compare or vote. -/
def isVecWord (i : Instr) : Bool :=
  match i with
  | .pairWord .. => true
  | .fusedSoftmax .. => true
  | .vcmp .. => true
  | .vvote .. => true
  | .xvec _ => true
  | i => (fieldsOf i).any fun f => match f.1, f.2.1 with | 6, .v _ => true | _, _ => false

/-- Words that an instruction stands for. -/
def wordsOf (i : Instr) : Nat :=
  match i with
  | .fusedSoftmax .. => 4
  | _ => 1

/-- Reads of lost latches that fall back to the register (R20). -/
def lostReads (w : Wave) (i : Instr) : Nat :=
  let lost (a : Src) : Bool :=
    match a with
    | .l n => (match w.latches[n.toNat]? with | some x => x.lost && !x.nw && x.val != .untagged | none => false)
    | _ => false
  match i with
  | .pairWord h0 h1 => ((halfFlds (halfWord h0) ++ halfFlds (halfWord h1)).filter fun f => lost f.src).length
  | i => ((fieldsOf i).filter fun f => lost f.2.1).length

/-- Events 2, 3 and 9 for a word that has issued. DESIGN CHOICE (log 63). -/
def countWord (s : State) (byre : Nat) (w : Wave) (i : Instr) : State :=
  let s := s.bump byre 2 (wordsOf i)
  let s := if isVecWord i then s.bump byre 3 (wordsOf i) else s
  s.bump byre 9 (lostReads w i)

/-! ## Legal lane words (R155) -/

/-- A word that a lane may supply. -/
inductive XWord
  | vec (v : VecWord)
  | mem (m : MemWord)

/-- The permitted opcodes: rows 0x30-0x6F without the exceptions of R120, and the vector lane loads and stores. -/
def xwordOf (w : Wave) (i : Instr) : Option XWord :=
  match i with
  | .vadd t nw d a b m => some (.vec (wVadd t nw d a b m))
  | .vsub t nw d a b m => some (.vec (wVsub t nw d a b m))
  | .vmul t nw d a b m => some (.vec (wVmul t nw d a b m))
  | .vmulh u nw d a b => some (.vec (wVmulh u nw d a b))
  | .vmad u nw d a b c sat => some (.vec (wVmad u nw d a b c sat))
  | .vmin t nw d a b => some (.vec (wVmin t nw d a b))
  | .vmax t nw d a b => some (.vec (wVmax t nw d a b))
  | .vabs t nw d b sat => some (.vec (wVabs t nw d b sat))
  | .vneg t nw d b sat => some (.vec (wVneg t nw d b sat))
  | .vand nw d a b => some (.vec (wVand nw d a b))
  | .vor nw d a b => some (.vec (wVor nw d a b))
  | .vxor nw d a b => some (.vec (wVxor nw d a b))
  | .vandn nw d a b => some (.vec (wVandn nw d a b))
  | .vshl u nw d a b => some (.vec (wVshl u nw d a b))
  | .vshr u nw d a b => some (.vec (wVshr u nw d a b))
  | .vrot nw d a b => some (.vec (wVrot nw d a b))
  | .vclz nw d b => some (.vec (wVclz nw d b))
  | .vpopc nw d b => some (.vec (wVpopc nw d b))
  | .vbfx z nw d b lo wm1 => some (.vec (wVbfx z nw d b lo wm1))
  | .vbfi nw d a b lo wm1 => some (.vec (wVbfi nw d a b lo wm1))
  | .vmov nw d b => some (.vec (wVmov nw d b))
  | .vmovi t nw d imm => some (.vec (wVmovi t nw d imm))
  | .vavg u nw d a b => some (.vec (wVavg u nw d a b))
  | .vdiv u nw d a b => some (.vec (wVdiv u nw d a b))
  | .vrem u nw d a b => some (.vec (wVrem u nw d a b))
  | .vaddc c nw d a b x => some (.vec (wVaddc c nw d a b x))
  | .vclmp t nw d a b c => some (.vec (wVclmp t nw d a b c))
  | .vclass t nw d b => some (.vec (wVclass t nw d b))
  | .vsgnj t v nw d a b => some (.vec (wVsgnj t v nw d a b))
  | .vexpo t nw d b => some (.vec (wVexpo t nw d b))
  | .vfma t nw d a b c m => some (.vec (wVfma t nw d a b c m))
  | .vfms t nw d a b c m => some (.vec (wVfms t nw d a b c m))
  | .vfnma t nw d a b c m => some (.vec (wVfnma t nw d a b c m))
  | .vfdiv t nw d a b m => some (.vec (wVfdiv t nw d a b m))
  | .vsqrt t nw d b rm => some (.vec (wVsqrt t nw d b rm))
  | .vrint t nw d b rm => some (.vec (wVrint t nw d b rm))
  | .vfrac t nw d b rm => some (.vec (wVfrac t nw d b rm))
  | .vscale t nw d a b m => some (.vec (wVscale t nw d a b m))
  | .vlerp t nw d a b c m => some (.vec (wVlerp t nw d a b c m))
  | .vdot4 x nw d a b c m => some (.vec (wVdot4 x nw d a b c m))
  | .vdot2 t nw d a b c m => some (.vec (wVdot2 t nw d a b c m))
  | .vsad u nw d a b c sat => some (.vec (wVsad u nw d a b c sat))
  | .vrcp t nw d b => some (.vec (wVrcp t nw d b))
  | .vrsq t nw d b => some (.vec (wVrsq t nw d b))
  | .vexp2 t nw d b => some (.vec (wVexp2 t nw d b))
  | .vlog2 t nw d b => some (.vec (wVlog2 t nw d b))
  | .vsin t nw d b => some (.vec (wVsin t nw d b))
  | .vcos t nw d b => some (.vec (wVcos t nw d b))
  | .vtanh t nw d b => some (.vec (wVtanh t nw d b))
  | .verf t nw d b => some (.vec (wVerf t nw d b))
  | .vcvt dt st nw d b m => some (.vec (wVcvt dt st nw d b m))
  | .vpack t nw d a b m => some (.vec (wVpack t nw d a b m))
  | .vunpk t nw d b => some (.vec (wVunpk t nw d b))
  | .vqnt q nw d a b m => some (.vec (wVqnt q nw d a b m))
  | .vdqnt q nw d a b rm => some (.vec (wVdqnt q nw d a b rm))
  | .vld t d a b i => some (.mem (mVld t d a b i))
  | .vldp d a b i => some (.mem (mVldp d a b i))
  | .vst t d a b i => some (.mem (mVst w t d a b i))
  | .vstp d a b i => some (.mem (mVstp w d a b i))
  | _ => none

/-- Special registers for privileged waves only (R28). -/
def specPriv (n : Nat) : Bool := 0x30 ≤ n && n ≤ 0x3B

/-- Words that only privileged waves issue, among them those on a privileged special register, and the returns from a handler
outside one (check 5 of R67). An `IDLEW` that asks for posted requests, which R319 turns away by an operand's value, is here an
opcode that is not permitted, FIELD 2, whoever issues it. DESIGN CHOICE (log 88). -/
def lacksPriv (e : Env) (i : Instr) : Bool :=
  match i with
  | .mfs _ _ x | .mts x _ => specPriv x.toNat && !e.priv
  | .hayfill .. | .tlbinv .. | .perfrd .. | .perfcfg .. | .ctxsave .. | .ctxload .. | .shtblSet ..
  | .shtblFlush .. | .fltresOk .. | .fltresDeny .. => !e.priv
  | .eret | .eretNext => e.w.trap.isNone
  | _ => false

/-- Check 6 of R67: the first field outside the footprint. -/
def footField (e : Env) (i : Instr) : Option Nat :=
  match i with
  | .pairWord h0 h1 =>
    (match halfFoot e false (halfWord h0), halfFoot e true (halfWord h1) with
     | .error (.trap t), _ => some (t.detail / 16)
     | _, .error (.trap t) => some (t.detail / 16)
     | _, _ => none)
  | i =>
    ((fieldsOf i).find? fun f => match f.2.1 with | .v n => e.g.vcount < n.toNat + f.2.2 | _ => false).map (·.1)

def isPairWord : Instr → Bool
  | .pairWord .. => true
  | _ => false

/-- The first field that names a latch or a future register. -/
def latchField (i : Instr) : Option Nat :=
  ((fieldsOf i).find? fun f => match f.2.1 with | .l _ => true | .f _ => true | _ => false).map (·.1)

/-- A lane word: legal with its meaning, or illegal with its FIELD (R155, R157). -/
def laneWord (e : Env) (x : D) : Except Nat XWord :=
  match decodeWord x with
  | .error r => .error r.field
  | .ok i =>
    if lacksPriv e i then .error 0
    else
      match footField e i with
      | some f => .error f
      | none =>
        if isPairWord i then .error 1
        else if x.getLsbD 51 then .error 5
        else
          match latchField i with
          | some f => .error f
          | none =>
            match xwordOf e.w i with
            | some w => .ok w
            | none => .error 2

def isLegal (e : Env) (x : D) : Bool :=
  match laneWord e x with
  | .ok _ => true
  | .error _ => false

/-- Each lane's word. -/
def laneWords (e : Env) (n : VR) : List (Nat × D) :=
  (lanesOf e.act).map fun l => (l, joinPair ((e.w.vreg n.toNat).lane l) ((e.w.vreg (n.toNat + 1)).lane l))

/-- Distinct words by the lowest lane that holds each, with their lanes. -/
def groupWords : List (Nat × D) → List (D × Mask)
  | [] => []
  | x :: xs =>
    let rest := groupWords xs
    (x.2, oneLane x.1 ||| ((rest.find? fun r => r.1 == x.2).map (·.2)).getD 0) :: rest.filter fun r => r.1 != x.2

/-! ## Issue of one lane word (R156, R157) -/

/-- Perform the outstanding operations of a wave, oldest first: the word waits for them. -/
def drainWave (gi wi : Nat) : Nat → State → State
  | 0, s => s
  | n + 1, s =>
    match s.wave? gi wi with
    | none => s
    | some w =>
      match w.ops with
      | [] => s
      | o :: _ => drainWave gi wi n (if isStoreKind o.kind then performStore s gi wi o else writeback s gi wi o allLanes false)

/-- Trap entry of a split that has acted already: the memory words that the entry would wait for are performed first.
DEDUCED (log 56). -/
def trapDrained (s : State) (gi wi : Nat) (k : Bool) (t : Trap) : State :=
  let s := match s.wave? gi wi with
    | some w => if w.trapBusy then drainWave gi wi w.ops.length s else s
    | none => s
  takeTrap s gi wi k t

/-- What the words issued so far have left: the state, the dropped lanes, the first deferred trap. -/
structure XRun where
  s     : State
  drop  : Mask
  first : Option Trap

def XRun.dropped (x : XRun) (t : Trap) (m : Mask) : XRun := { x with drop := x.drop ||| m, first := some (x.first.getD t) }

/-- A vector word on its group: the state, and an FP trap with its lanes (R91). -/
def xVec (e : Env) (v : VecWord) : Chk (State × Option Trap) := do
  let x ← vecCheck e v
  let rs := v.eval x
  let fl := allFlags rs
  let hot := fpLanes e.w.fpen rs
  let act := e.act &&& ~~~hot
  let w (w : Wave) : Wave :=
    ((w.setFlags fl).step v.draw).setVreg v.d.toNat (mergeReg (w.vreg v.d.toNat) act (rs.map (·.val)) (badLanes rs))
  .ok (e.s.modWave e.gi e.wi w, if hot == 0 then none else some (trFp (fl &&& e.w.fpen) hot))

/-- A memory word on its group. `whole` is the activity mask of the split, whose word it is (R158, R252). -/
def xMem (e : Env) (m : MemWord) (whole : Mask) : Chk State := do
  memPre e m Src.mi
  let r ← reach e m.q (laneAddrs e m)
  let pm := lanesIn r.parked
  need (pm == 0 || pm == whole || (e.w.slot !e.k).st == .empty || e.w.dsp < 32) (trDstk 1 pm)
  let s := noteGo e.s e m.q r.go
  let p := postParks s e 0 m.q.acc r.parked
  let s := if r.go.isEmpty then p.1 else p.1.modWave e.gi e.wi fun w => (w.addOp (memOp e m r.go w.opSeq)).joined whole
  .ok (if pm == 0 then s else parkLanes s e pm p.2)

def xTry (e : Env) (w : XWord) (whole : Mask) : Chk (State × Option Trap) :=
  match w with
  | .vec v => xVec e v
  | .mem m => (xMem e m whole).map fun s => (s, none)

/-- The split as one lane word sees it: with the lanes of its group. -/
def Env.narrow (e : Env) (g : Mask) : Env := { e with w := e.w.modSlot e.k fun x => { x with act := g } }

/-- The deferred trap of a word that drops lanes `m`, with the `TVAL` of the lowest of them (R157). -/
def xTval (e : Env) (w : XWord) (m : Mask) (t : Trap) : Trap :=
  match lanesOf m with
  | [] => t
  | l :: _ =>
    match xTry (e.narrow (oneLane l)) w e.act with
    | .error (.trap u) => if u.cls == t.cls then { t with tval := u.tval } else t
    | _ => t

/-- A word whose lanes are all dropped still takes its counter step (R161). DEDUCED (log 54). -/
def xStep (s : State) (who : Cur) (w : XWord) : State :=
  match w with
  | .vec v => s.modWave who.gang who.wave fun w => w.step v.draw
  | .mem _ => s

/-- Issue a word for a group. A trap drops its lanes and the rest goes on; the first word of all may leave the whole `XVEC`
waiting, a later one waits within it. -/
def xIssue (who : Cur) (x : D) (fresh : Bool) : Nat → Mask → XRun → Except Stop XRun
  | 0, _, r => .ok r
  | n + 1, g, r =>
    if g == 0 then .ok r
    else
      match r.s.envAt who.gang who.wave who.slot with
      | none => .ok r
      | some e =>
        match laneWord e x with
        | .error _ => .ok r
        | .ok w =>
          match xTry (e.narrow g) w e.act with
          | .ok (s, none) => .ok { r with s := s }
          | .ok (s, some t) => .ok (({ r with s := s }).dropped t t.tmask)
          | .error (.trap t) =>
            let m := if t.tmask &&& g == 0 then g else t.tmask &&& g
            let r := r.dropped (xTval e w m t) m
            if g &&& ~~~m == 0 then .ok { r with s := xStep r.s who w }
            else xIssue who x fresh n (g &&& ~~~m) r
          | .error (.wait y) =>
            if fresh then .error (.wait y)
            else xIssue who x fresh n g { r with s := drainWave who.gang who.wave e.w.ops.length r.s }

/-- Issue the groups in order. -/
def xIssueAll (who : Cur) (fresh : Bool) : List (D × Mask) → XRun → Except Stop XRun
  | [], r => .ok r
  | p :: ps, r => do
    let r ← xIssue who p.1 fresh 200 p.2 r
    xIssueAll who false ps r

/-! ## The whole word -/

/-- The trap of an `XVEC` that dropped lanes (R157). -/
def xTrap (e : Env) (illegal : List (D × Mask)) (r : XRun) (all : Mask) : Trap :=
  match illegal, r.first with
  | (x, _) :: _, _ =>
    let f := match laneWord e x with | .error f => f | .ok _ => 0
    ⟨9, 0, f * 16 + (r.drop != 0).toNat, x, all⟩
  | [], some t => { t with tmask := all }
  | [], none => ⟨9, 0, 0, 0, all⟩

/-- After the last word: `XFAULT`; then the trap, which shifts no latch window (R306), or the next word. DEDUCED (log 54). -/
def xEnd (e : Env) (illegal : List (D × Mask)) (r : XRun) : State :=
  let all := illegal.foldl (fun m p => m ||| p.2) r.drop
  let s := r.s.modWave e.gi e.wi fun w => { w with xfault := all }
  if all != 0 then trapDrained s e.gi e.wi e.k (xTrap e illegal r all)
  else s.modWave e.gi e.wi fun w =>
    if (w.slot e.k).st == .parked then w
    else ({ w.pushNone with latches := loseLatches w.pushNone.latches } : Wave).advance e.k

/-- Lanes of the split at issue; its state while the words issue is Ready. -/
def execXvec (n : VR) (s : State) : Out :=
  onSplit (.xvec n) s fun e => e.run do
    chkFoot e 7 n.toNat 2
    chkClear e fun o => [60, 61, 62].any o.dst.hitsS
    chkBusy e ([n.toNat, n.toNat + 1], []) ([], []) false
    chkPoisonV e.act [(n.toNat, (e.w.vreg n.toNat).bad), (n.toNat + 1, (e.w.vreg (n.toNat + 1)).bad)] 0
    let gs := groupWords (laneWords e n)
    let legal := gs.filter fun p => isLegal e p.1
    let illegal := gs.filter fun p => !isLegal e p.1
    let r ← xIssueAll ⟨e.gi, e.wi, e.k⟩ true legal ⟨e.s, 0, none⟩
    .ok (xEnd e illegal r)

end Sys2Proof.Machine
end

