-- ==== Sys2Proof/Machine/SysWords.lean ====
section
/-! DEFINITION. System words: special registers (R27-R33), clocks (R295), performance counters (R319), and the words that arm
futures with their end (R294, R299, R318). -/

namespace Sys2Proof.Machine

/-! ## Special registers (R27-R32) -/

def halfOf (x : D) (hi : Bool) : W := if hi then hi32 x else lo32 x

def setHalf (x : D) (hi : Bool) (v : W) : D := if hi then joinPair (lo32 x) v else joinPair v (hi32 x)

/-- Word `i` of a mask replaced. -/
def setMaskWord (m : Mask) (i : Nat) (v : W) : Mask :=
  maskOfWords (if i == 0 then v else maskWord m 0) (if i == 1 then v else maskWord m 1) (if i == 2 then v else maskWord m 2)

/-- The numbers of R28. -/
def specKnown (n : Nat) : Bool := n ≤ 2 || (4 ≤ n && n ≤ 0xD) || (0x10 ≤ n && n ≤ 0x2B) || (0x30 ≤ n && n ≤ 0x3B)

/-- Registers that are read-only throughout. -/
def specRo (n : Nat) : Bool := n ≤ 0xD || n == 0x24 || n == 0x25 || n == 0x27 || n == 0x3A || n == 0x3B

/-- `CTX` (R31). -/
def ctxWord (g : Gang) : W := BitVec.ofNat 32 (g.depth * 2 ^ 12 + g.prio * 2 ^ 9 + g.queue * 2 ^ 6 + g.ctx)

/-- `VCNT` (R31). -/
def vcntWord (g : Gang) : W := BitVec.ofNat 32 (if g.churn then g.ch.ncol * 2 ^ 8 + g.ch.mrow else 0x4040)

/-- `CROWST`. -/
def crowst (g : Gang) (hi : Bool) : W := if g.churn then halfOf g.ch.crowst hi else 0

/-- PHASE of a die: the package's fabric cycles, with the die's own offset since the last reset (R283). -/
def State.phase (s : State) (die : Nat) : Nat := (s.fabric + Config.phaseOffset s.hub.boots die) % 96000

/-- `HAYREF` (R31, R283): the bank that refreshes, and PHASE. -/
def hayrefWord (s : State) (die : Nat) : W := BitVec.ofNat 32 (s.phase die / 3000 * 2 ^ 17 + s.phase die)

/-- A free number of fabric cycles passes before a reading (R283). -/
def State.fabricOn (s : State) : State := { s.took with fabric := s.fabric + Config.elapsedFab s.freeCtr }

/-- A special register as it reads (R28). -/
def specRead (e : Env) (n : Nat) : W :=
  let g := e.g
  let w := e.w
  match n with
  | 0x00 => g.step
  | 0x01 => lo32 g.lrec
  | 0x02 => hi32 g.lrec
  | 0x04 => BitVec.ofNat 32 g.gx
  | 0x05 => BitVec.ofNat 32 (g.gx / 2 ^ 32 % 2 ^ 8)
  | 0x06 => BitVec.ofNat 32 g.gy
  | 0x07 => BitVec.ofNat 32 g.gz
  | 0x08 => BitVec.ofNat 32 g.dx
  | 0x09 => BitVec.ofNat 32 (g.dx / 2 ^ 32 % 2 ^ 9)
  | 0x0A => BitVec.ofNat 32 g.dy
  | 0x0B => BitVec.ofNat 32 g.dz
  | 0x0C => widxWord g w
  | 0x0D => ctxWord g
  | 0x20 => wstatWord (privileged g w) (g.halter == some w.idx) w e.k
  | 0x21 => maskWord w.xfault 0
  | 0x22 => maskWord w.xfault 1
  | 0x23 => maskWord w.xfault 2
  | 0x24 => crowst g false
  | 0x25 => crowst g true
  | 0x26 => vcntWord g
  | 0x27 => hayrefWord e.s g.die
  | 0x28 => lo32 g.rngkey
  | 0x29 => hi32 g.rngkey
  | 0x2A => lo32 w.rngctr
  | 0x2B => hi32 w.rngctr
  | 0x30 => w.tcause
  | 0x31 => lo32 w.tpc &&& ~~~(7 : W)
  | 0x32 => hi32 w.tpc
  | 0x33 => maskWord w.tmask 0
  | 0x34 => maskWord w.tmask 1
  | 0x35 => maskWord w.tmask 2
  | 0x36 => lo32 w.tval
  | 0x37 => hi32 w.tval
  | 0x38 => lo32 (e.s.tbaseOf g) &&& ~~~(7 : W)
  | 0x39 => hi32 (e.s.tbaseOf g)
  | 0x3A => lo32 w.dsaddr
  | 0x3B => hi32 w.dsaddr
  | n => if 0x10 ≤ n && n ≤ 0x1F then (g.dcl[n - 0x10]?).getD 0 else 0

/-- A write of a register that the wave owns. -/
def specWave (w : Wave) (n : Nat) (v : W) : Wave :=
  match n with
  | 0x20 => wstatWrite w v
  | 0x21 => { w with xfault := setMaskWord w.xfault 0 v }
  | 0x22 => { w with xfault := setMaskWord w.xfault 1 v }
  | 0x23 => { w with xfault := setMaskWord w.xfault 2 v }
  | 0x2A => { w with rngctr := setHalf w.rngctr false v }
  | 0x2B => { w with rngctr := setHalf w.rngctr true v }
  | 0x30 => { w with tcause := v &&& 0x00FFFFFF }
  | 0x31 => { w with tpc := setHalf w.tpc false (v &&& ~~~(7 : W)) }
  | 0x32 => { w with tpc := setHalf w.tpc true v }
  | 0x33 => { w with tmask := setMaskWord w.tmask 0 v }
  | 0x34 => { w with tmask := setMaskWord w.tmask 1 v }
  | 0x35 => { w with tmask := setMaskWord w.tmask 2 v }
  | 0x36 => { w with tval := setHalf w.tval false v }
  | 0x37 => { w with tval := setHalf w.tval true v }
  | _ => w

/-- `DCLn` as stored: a positive value becomes 0 (R30). -/
def dclStored (v : W) : W := if 0 < v.toInt then 0 else v

def isDcl (n : Nat) : Bool := 0x10 ≤ n && n ≤ 0x1F

/-- `VCNT` as stored (R31). -/
def Churn.putVcnt (c : Churn) (v : W) : Churn :=
  { c with ncol := min 64 (v.toNat / 2 ^ 8 % 2 ^ 7), mrow := min 64 (v.toNat % 2 ^ 7) }

/-- A write of a register that the gang holds a copy of. -/
def specGang (g : Gang) (n : Nat) (v : W) : Gang :=
  match n with
  | 0x26 => { g with ch := g.ch.putVcnt v }
  | 0x28 => { g with rngkey := setHalf g.rngkey false v }
  | 0x29 => { g with rngkey := setHalf g.rngkey true v }
  | n => if isDcl n then { g with dcl := setAt g.dcl (n - 0x10) (dclStored v) } else g

/-- A privileged write changes the context's value: its own `TBASE` (R28), and what gangs that start later capture (R30).
DEDUCED (log 64). -/
def specCtx (c : Ctx) (n : Nat) (v : W) : Ctx :=
  match n with
  | 0x28 => { c with rngkey := setHalf c.rngkey false v }
  | 0x29 => { c with rngkey := setHalf c.rngkey true v }
  | 0x38 => { c with tbase := setHalf c.tbase false (v &&& ~~~(7 : W)) }
  | 0x39 => { c with tbase := setHalf c.tbase true v }
  | n => if isDcl n then { c with dcl := setAt c.dcl (n - 0x10) (dclStored v) } else c

/-- Write `xs` from register `d` and the latch (R20). -/
def sclOut (e : Env) (nw : Bool) (d : SR) (xs : List W) : State :=
  e.done (sclWrite e.w e.k (SclWord.plain d nw [] fun _ => (0, 0)) xs false)

/-- The checks that both words make on a number. DEDUCED (log 30). -/
def chkSpec (e : Env) (n : Nat) : Chk Unit := do
  need (!specPriv n || e.priv) (trIllegal e 3 0 false)
  need (specKnown n) (trIllegal e 5 0 false)

/-- `MFS` (R33). -/
def execMfs (nw : Bool) (d : SR) (x : BitVec 16) (s : State) : Out :=
  onSplit (.mfs nw d x) s fun e => e.run do
    chkSpec e x.toNat
    chkBusy e ([], []) ([], [d.toNat]) false
    let e := if x.toNat == 0x27 then { e with s := e.s.fabricOn } else e
    let v := specRead e x.toNat
    .ok (sclOut e nw d [v])

/-- The write of `MTS`. -/
def specWrite (e : Env) (n : Nat) (v : W) : State :=
  let s := (({ e with w := specWave e.w n v }).pass).modGang e.gi fun g => specGang g n v
  if e.priv then s.modCtx e.g.ctx fun c => specCtx c n v else s

/-- `MTS` (R33). -/
def execMts (x : BitVec 16) (a : Src) (s : State) : Out :=
  onSplit (.mts x a) s fun e => e.run do
    let n := x.toNat
    chkSpec e n
    need (!specRo n) (trIllegal e 5 0 false)
    need (n != 0x26 || (e.g.churn && e.g.halter == some e.w.idx)) (trIllegal e 6 0 false)
    chkLatches e [⟨7, a, Src.sc⟩]
    chkBusy e (srcRegs e.w e.k a 1) ([], []) false
    let v := e.ssrc .s32 a
    chkPoisonS e [(srcNum e.w e.k a, v.2)] 0
    .ok (specWrite e n v.1)

/-! ## Clocks (R295) -/

def pairWords (x : Nat) : List W := [BitVec.ofNat 32 x, BitVec.ofNat 32 (x / 2 ^ 32)]

def execClkrdTime (d : SR) (s : State) : Out :=
  onSplit (.clkrdTime d) s fun e => e.run do
    chkBusy e ([], []) ([], [d.toNat, d.toNat + 1]) false
    let t := (e.s.timeNs + Config.elapsedNs e.s.freeCtr) % 2 ^ 64
    .ok (sclOut { e with s := { e.s.took with timeNs := t } } false d (pairWords t))

/-- A Byre's arithmetic cycles since die reset, as last read (R295). -/
def State.cycOf (s : State) (byre : Nat) : Nat := ((s.cycles.find? fun x => x.1 == byre).map (·.2)).getD 0

/-- A free number of cycles passes on a Byre before a reading. DESIGN CHOICE (log 10). -/
def State.cycOn (s : State) (byre : Nat) : State :=
  let t := (s.cycOf byre + Config.elapsedCyc s.freeCtr) % 2 ^ 64
  { s.took with cycles := (byre, t) :: s.cycles.filter fun x => x.1 != byre }

def execClkrdCyc (d : SR) (s : State) : Out :=
  onSplit (.clkrdCyc d) s fun e => e.run do
    chkBusy e ([], []) ([], [d.toNat, d.toNat + 1]) false
    let s := e.s.cycOn e.g.byreId
    .ok (sclOut { e with s := s } false d (pairWords (s.cycOf e.g.byreId)))

/-! ## Performance counters (R319) -/

/-- A counter of a Byre; at reset it counts event 0 and is zero. -/
def State.perfAt (s : State) (byre n : Nat) : Perf :=
  (s.perf.find? fun p => p.byre == byre && p.idx == n).getD ⟨byre, n, 0, 0⟩

def State.putPerf (s : State) (p : Perf) : State :=
  { s with perf := p :: s.perf.filter fun x => !(x.byre == p.byre && x.idx == p.idx) }

/-- Set a counter to an event, and zero it. -/
def setPerf (s : State) (byre n event : Nat) : State := s.putPerf ⟨byre, n, if 12 ≤ event then 0 else event, 0⟩

/-- Events that count cycles: a free number of them has passed since the last reading. DESIGN CHOICE (log 63). -/
def isCycleEvent (event : Nat) : Bool := event == 1 || event == 6 || event == 10 || event == 11

/-- A counter as it stands at a reading (R319). -/
def perfNow (s : State) (byre n : Nat) : State :=
  let p := s.perfAt byre n
  if isCycleEvent p.event then s.took.putPerf { p with count := (p.count + Config.perfCount s.freeCtr) % 2 ^ 48 } else s

def execPerfrd (d : SR) (b : Src) (s : State) : Out :=
  onSplit (.perfrd d b) s fun e => e.run do
    chkSys e true [] [(8, b)] ([], [d.toNat, d.toNat + 1]) (needVal e b (·.toNat ≤ 7) (trIllegal e 2 8 false))
    let n := (e.ssrc .s32 b).1.toNat
    let s := perfNow e.s e.g.byreId n
    .ok (sclOut { e with s := s } false d (pairWords (s.perfAt e.g.byreId n).count))

def execPerfcfg (a b : Src) (s : State) : Out :=
  onSplit (.perfcfg a b) s fun e => e.run do
    chkSys e true [] [(7, a), (8, b)] ([], []) (needVal e a (·.toNat ≤ 7) (trIllegal e 2 7 false))
    let n := (e.ssrc .s32 a).1.toNat
    .ok (setPerf e.pass e.g.byreId n (e.ssrc .s32 b).1.toNat)

/-! ## System words that arm a future (R292, R317) -/

/-- Their checks: privilege where the word is privileged, then as for `chkSys`, with `FUTURE` in its place. -/
def chkSysArm (e : Env) (priv : Bool) (f : FR) (ps xs : List (Nat × Src)) : Chk Unit := do
  if priv then chkPriv e
  let fs : List Fld := (ps.map fun p => ⟨p.1, p.2, Src.sp⟩) ++ xs.map fun p => ⟨p.1, p.2, Src.gs⟩
  chkAll (fun x => need (latchClass e x) (trIllegal e 2 x.code false)) fs
  chkArm e f
  chkSys e priv ps xs ([], [])

/-- Start a system operation. -/
def startSys (e : Env) (f : FR) (kind : EngKind) : State := startOp e f (newOp e f kind 0 false [] .v)

def pairNat (e : Env) (a : Src) : Nat := (e.psrc a).1.toNat
def wordNat (e : Env) (a : Src) : Nat := (e.ssrc .s32 a).1.toNat

def execTlbinv (sc : LScope) (d : FR) (a b c : Src) (s : State) : Out :=
  onSplit (.tlbinv sc d a b c) s fun e => e.run do
    chkSysArm e true d [(7, a)] [(8, b), (9, c)]
    .ok (startSys e d (.tlbinv sc (pairNat e a) (wordNat e b) (wordNat e c)))

/-- `ICINV` (R294), which any wave may issue, of no bytes is Done at once. -/
def execIcinv (pkg : Bool) (d : FR) (a b : Src) (s : State) : Out :=
  onSplit (.icinv pkg d a b) s fun e => e.run do
    chkSysArm e false d [(7, a)] [(8, b)]
    let n := wordNat e b
    if n == 0 then
      let w := e.w.arm d .v
      .ok ({ e with w := w.finish d.toNat (w.fut d.toNat).serial .done 0 }).pass
    else .ok (startSys e d (.icinv pkg (pairNat e a) n))

def execCtxsave (pkg : Bool) (d : FR) (b : Src) (s : State) : Out :=
  onSplit (.ctxsave pkg d b) s fun e => e.run do
    chkSysArm e true d [] [(8, b)]
    .ok (startSys e d (.ctxsave pkg (wordNat e b)))

def execCtxload (pkg : Bool) (d : FR) (b : Src) (s : State) : Out :=
  onSplit (.ctxload pkg d b) s fun e => e.run do
    chkSysArm e true d [] [(8, b)]
    .ok (startSys e d (.ctxload pkg (wordNat e b)))

def execShtblSet (d : FR) (a : Src) (s : State) : Out :=
  onSplit (.shtblSet d a) s fun e => e.run do
    chkSysArm e true d [(7, a)] []
    .ok (startSys e d (.shtblSet (pairNat e a)))

def execShtblFlush (pkg : Bool) (d : FR) (s : State) : Out :=
  onSplit (.shtblFlush pkg d) s fun e => e.run do
    chkSysArm e true d [] []
    .ok (startSys e d (.shtblFlush pkg))

/-! ## SYSTEM_OPERATION_END (R294, R299, R318) -/

/-- What a system operation has come to: a new state, and how it ended. -/
structure SysRes where
  s   : State
  out : Option (FState × Nat)

/-- Whether [x, x + n) meets [va, va + len); a length of 0 is every address. -/
def meetsRange (va len x n : Nat) : Bool := len == 0 || (x < va + len && va < x + n)

def inScope (die : Nat) (pkg : Bool) (d : Nat) : Bool := pkg || d == die

/-- An access to a global address. -/
def Acc.isGlobal (a : Acc) : Bool :=
  match a.loc with
  | .mem k => k < Config.hayKey 0 0
  | .spad _ => false

/-- Whether an access of a context in the scope has still to be performed in a range. -/
def rangeBusy (s : State) (inside : Nat → Bool) (ctx va len : Nat) : Bool :=
  s.gangs.any fun g => g.ctx == ctx && inside g.die &&
    g.waves.any fun w => w.ops.any fun o => o.accs.any fun a => a.isGlobal && meetsRange va len a.va (accLen o.kind)

/-- Running tasks of a context whose extent tables meet a range. -/
def tasksMeeting (s : State) (inside : Nat → Bool) (ctx va len : Nat) : Nat :=
  ((s.dies.zip (List.range s.dies.length)).map fun p =>
    if inside p.2 then
      (p.1.tasks.filter fun t => t.ctx == ctx && t.running && t.exts.any fun x => meetsRange va len x.va x.len).length
    else 0).sum

/-- `TLBINV`. The other packages of a pod add a free number of tasks. DEDUCED (log 51). -/
def runTlbinv (s : State) (die : Nat) (sc : LScope) (va len ctx : Nat) : SysRes :=
  let inside := inScope die (sc != .die)
  if rangeBusy s inside ctx va len then ⟨s, none⟩
  else
    let hit (t : TlbEnt) : Bool := t.ctx == ctx && inside (t.byre / 80) && meetsRange va len t.va t.size
    let n := tasksMeeting s inside ctx va len
    let n := if sc == .pod && s.hub.podMap.any (· != Config.pkg) then n + Config.freeResult s.freeCtr else n
    let s := (s.tlb.filter hit).foldl (fun s t => shadowAdd s t.leaf t.hits) s.took
    ⟨{ s with tlb := s.tlb.filter fun t => !hit t }, some (.done, n)⟩

/-- `ICINV` (R294). -/
def runIcinv (s : State) (g : Gang) (pkg : Bool) (va len : Nat) : SysRes :=
  let hi := va + len
  let drop (s : State) (i : Nat) : State :=
    match codeSpan s g (max va ((va / 2 ^ 16 + i) * 2 ^ 16)) hi with
    | some (k, n) =>
      { s with icache := s.icache.filter fun c => !(inScope g.die pkg (c.byre / 80) && meetsRange k n (128 * c.key) 128) }
    | none => s
  ⟨(List.range ((hi - 1) / 2 ^ 16 - va / 2 ^ 16 + 1)).foldl drop s, some (.done, 0)⟩

/-- Gangs of the steward, of paging handlers and of the fault service. -/
def isSystem (s : State) (g : Gang) : Bool :=
  g.ctx == Config.sysCtx ||
  match s.grid? (s.rootGrid 9 g.grid) with
  | some r => (match r.kind with | .steward => true | .pager _ => true | _ => false)
  | none => false

/-- Ask a gang to stop for a `CTXSAVE`, be it one whose waves have ended while its operations run; one already saved is not placed
again. -/
def askSave (me op : Nat) (g : Gang) : Gang :=
  match g.st with
  | .running => { g with st := .stopping (some (me, op)) }
  | .ended => if g.quiet then g else { g with st := .stopping (some (me, op)) }
  | .stopping none => { g with st := .stopping (some (me, op)) }
  | .saved _ => { g with st := .saved false }
  | _ => g

/-- Whether a gang still stops for an operation. -/
def Gang.stopsFor (g : Gang) (me op : Nat) : Bool :=
  match g.st with
  | .stopping (some (a, b)) => a == me && b == op
  | _ => false

/-- `CTXSAVE`: first it asks the gangs to stop, then it waits for them. DEDUCED (log 60). -/
def runCtxsave (s : State) (gi : Nat) (g : Gang) (o : EngOp) (pkg : Bool) (ctx : Nat) : SysRes :=
  if o.pos == [] then
    let mine (x : Gang) : Bool := x.ctx == ctx && inScope g.die pkg x.die && x.id != g.id && !isSystem s x
    let s := { s with gangs := mapIf mine (askSave g.id o.id) s.gangs }
    ⟨keepOp s gi o.id (some { o with pos := [1] }), none⟩
  else if s.gangs.any fun x => x.stopsFor g.id o.id then ⟨s, none⟩
  else ⟨s, some (.done, o.res)⟩

/-- `CTXLOAD`. -/
def runCtxload (s : State) (die : Nat) (pkg : Bool) (ctx : Nat) : SysRes :=
  let mine (x : Gang) : Bool := x.ctx == ctx && inScope die pkg x.die && x.st == .saved false
  ⟨{ s with gangs := mapIf mine (fun x => { x with st := .saved true }) s.gangs }, some (.done, (s.gangs.filter mine).length)⟩

/-- `SHTBL.set`. -/
def runShset (s : State) (a : Nat) : SysRes :=
  if a % 2 ^ 16 != 0 then ⟨s, some (.failed, 2)⟩ else ⟨{ s with shbase := a }, some (.done, 0)⟩

/-- `SHTBL.flush`. -/
def runShflush (s : State) (die : Nat) (pkg : Bool) : SysRes :=
  let hit (t : TlbEnt) : Bool := inScope die pkg (t.byre / 80)
  let n := (s.tlb.filter hit).length
  let s := (s.tlb.filter hit).foldl (fun s t => shadowAdd s t.leaf t.hits) s
  ⟨{ s with tlb := mapIf hit (fun t => { t with hits := 0 }) s.tlb }, some (.done, n)⟩

def runSys (s : State) (gi : Nat) (g : Gang) (o : EngOp) : SysRes :=
  let checked (ctx : Nat) (r : SysRes) : SysRes := if 63 < ctx then ⟨s, some (.failed, 4)⟩ else r
  match o.kind with
  | .tlbinv sc va len ctx => checked ctx (runTlbinv s g.die sc va len ctx)
  | .icinv pkg va len => runIcinv s g pkg va len
  | .ctxsave pkg ctx => checked ctx (runCtxsave s gi g o pkg ctx)
  | .ctxload pkg ctx => checked ctx (runCtxload s g.die pkg ctx)
  | .shtblSet a => runShset s a
  | .shtblFlush pkg => runShflush s g.die pkg
  | _ => ⟨s, none⟩

/-- Whether a system operation can still take a step towards its end. -/
def sysMoves (s : State) (g : Gang) (o : EngOp) : Bool :=
  match o.kind with
  | .tlbinv sc va len ctx => 63 < ctx || !rangeBusy s (inScope g.die (sc != .die)) ctx va len
  | .ctxsave _ ctx => 63 < ctx || o.pos == [] || !s.gangs.any fun x => x.stopsFor g.id o.id
  | _ => !isEngine o

def execSystemOperationEnd (gang op : Nat) (s : State) : Out :=
  .next <|
    match s.gangIdx gang with
    | none => s
    | some gi =>
      match s.gang? gi with
      | none => s
      | some g =>
        match g.op? op with
        | none => s
        | some o =>
          if isEngine o then s
          else
            let r := runSys s gi g o
            match r.out with
            | some (st, n) => reportFut (keepOp r.s gi op none) gi o.wave o.freg o.serial st n 0
            | none => r.s

end Sys2Proof.Machine
end

