-- ==== Sys2Proof/Machine/Host.lean ====
section
/-! DEFINITION. The host's side: hub registers, bring-up, the launch port, contexts, attestation and BAR2 accesses (R349-R354). -/

namespace Sys2Proof.Machine

/-! ## Hub registers (R350, R355) -/

/-- `HSTAT`. -/
def hstatWord (h : Hub) : Nat :=
  h.ready.toNat + 2 * h.fail.toNat + 4 * h.lperr.toNat + 8 * h.lpbusy.toNat + 16 * h.throt.toNat + 32 * h.thsd.toNat
    + h.stage % 256 * 2 ^ 8

def montKind (n : Nat) : Nat := if n % 16 < 4 then 0 else if n % 16 < 8 then 1 else 2

/-- `MONTn`. -/
def montWord (h : Hub) (n : Nat) : Nat := ((h.mont[n]?).getD 0).toNat + montKind n * 2 ^ 16 + n / 16 * 2 ^ 20

/-- What a host read of a hub register returns. -/
def hubRead (h : Hub) (off : Nat) : D :=
  BitVec.ofNat 64 <|
    if off == 0 then hstatWord h
    else if off == 0x20 then h.lpstat.toNat
    else if 0x100 ≤ off && off < 0x200 && off % 4 == 0 then montWord h ((off - 0x100) / 4)
    else if off == 0x200 then h.pcap.toNat
    else 0

def State.modHub (s : State) (f : Hub → Hub) : State := { s with hub := f s.hub }

/-- `LPERR` is cleared where a 1 is written. -/
def Hub.putHstat (h : Hub) (v : W) : Hub := { h with lperr := h.lperr && !v.getLsbD 2 }

/-- `PCAP` as stored: 0, or the nearest value from 800 to 3,200 (R355). -/
def capStored (v : Nat) : Nat := if v == 0 then 0 else max 800 (min 3200 v)

def Hub.putPcap (h : Hub) (v : W) : Hub := { h with pcap := BitVec.ofNat 12 (capStored (v.toNat % 2 ^ 12)) }

def execHstatWrite (v : W) (s : State) : Out := .next (s.modHub fun h => h.putHstat v)

def execPcapWrite (v : W) (s : State) : Out := .next (s.modHub fun h => h.putPcap v)

/-- `LPARG` stores what is written; the host writes nothing else that keeps a plain value. -/
def execHubRegisterWrite (off : Nat) (v : D) (s : State) : Out :=
  .next (if off == 0x18 then s.modHub fun h => { h with lparg := v } else s)

/-! ## BRING_UP (R351) -/

/-- Whether a stage of bring-up runs. -/
def Hub.bringing (h : Hub) : Bool := 1 ≤ h.stage && h.stage ≤ 7 && !h.ready && !h.fail

/-- A stage has failed: no context can be created, and the launch port answers nothing. -/
def Hub.failed (h : Hub) : Hub := { h with stage := 0xFF, fail := true }

/-- The pod map as stored: the packages named, this one among them. DESIGN CHOICE (log 67). -/
def mapOf (podMap : List Nat) : List Nat := (podMap.filter (· < 512)).foldl (fun m p => insertNat p m) [Config.pkg]

/-- The wave of a die's fault-service gang, which waits between its events (R304). -/
def serviceWave (die : Nat) : Wave :=
  let entry := BitVec.ofNat 64 Config.serviceEntry
  { startWave 0 0 0 8 0 entry (BitVec.ofNat 64 (Config.serviceArea die)) 0 0 with
    slot0 := { startSlot entry with st := .blocked .service } }

/-- The fault-service gang of a die (R304, R305): privileged, of no grid, under the system context. DESIGN CHOICE (log 21): it
stands on Byre 0 with the smallest footprint. -/
def serviceGang (id die : Nat) : Gang :=
  { blankGang id Config.sysCtx die with
    grid := 2 ^ 64, vcount := 8, priv := true, lrec := BitVec.ofNat 64 (Config.serviceRec die), waves := [serviceWave die] }

/-- The barrier object of a fault queue: EXPECT 1, PUB V, SCOPE `.die`. DESIGN CHOICE (log 21) for EXPECT. -/
def queueBytes : List Byte := natLe 4 0 ++ natLe 4 1 ++ natLe 4 (256 + 4) ++ natLe 4 0

/-- The launch record of a die's fault service: ARG holds the address of its queue (R305). -/
def serviceBytes (die : Nat) : List Byte := natLe 8 Config.serviceEntry ++ natLe 56 0 ++ natLe 8 (Config.queueKey die)

/-- Stage 6 on one die: its queue and record in the system region, and its gang. -/
def placeService (s : State) (die : Nat) : State :=
  { s with
    mem := (s.mem.write (Config.queueObj die) queueBytes).write (Config.serviceRec die) (serviceBytes die)
    gangs := s.gangs ++ [serviceGang s.ids die]
    ids := s.ids + 1 }

/-- Whether a place is neither in this package's device memory nor in a Hayloft. -/
def isAway (k : Nat) : Bool := Config.devBytes ≤ k && k < Config.hayKey 0 0

/-- Stage 5: device memory, LLC, Hayloft and their ECC hold zero without poison. -/
def clearMemory (s : State) : State :=
  { s with
    mem := s.mem.filter fun c => isAway c.1
    memBad := s.memBad.filter fun g => isAway (8 * g)
    olds := s.olds.filter fun o => isAway (128 * o.line)
    tags := [], llc := [] }

/-- The running stage ends, and the next begins. Stages 2 to 4 change nothing that the model holds. -/
def stageEnd (podMap : List Nat) (s : State) : State :=
  let next (s : State) : State := s.modHub fun h => { h with stage := h.stage + 1 }
  match s.hub.stage with
  | 5 => next ((clearMemory s).modHub fun h => { h with podMap := mapOf podMap })
  | 6 => next ((List.range 4).foldl placeService s)
  | 7 => { s.modHub fun h => { h with ready := true } with timeNs := 0 }
  | _ => next s

/-- Power-on or a fundamental reset: nothing is kept but the fuses and the model's own choice of steps and counts. -/
def restart (s : State) : State :=
  { State.reset with
    hub := { Hub.reset with stage := 1, boots := s.hub.boots + 1, rollback := s.hub.rollback }
    freeCtr := s.freeCtr, ids := s.ids, agenda := s.agenda }

/-- Stage 1 ends: the image's signature holds, and its version is not below the fused counter (R354). -/
def imageEnd (signed : Bool) (version : W) (h : Hub) : Hub :=
  if signed && h.rollback ≤ version then { h with stage := 2, version := version } else h.failed

def execBringUp (what : BringUp) (podMap : List Nat) (s : State) : Out :=
  .next <|
    match what with
    | .start => restart s
    | .image signed version => if s.hub.bringing && s.hub.stage == 1 then s.modHub (imageEnd signed version) else s
    | .go => if s.hub.bringing && s.hub.stage != 1 then stageEnd podMap s else s
    | .fail => if s.hub.bringing then s.modHub Hub.failed else s

/-! ## The launch port (R352) -/

def lpOpen (h : Hub) : Bool := h.ready && !h.lpbusy

/-- A write to `LPCMD` that is not accepted. -/
def lpRefuse (s : State) : State := s.modHub fun h => { h with lperr := true }

/-- A command starts; it will end with `stat`. -/
def lpStart (s : State) (cmd : D) (stat : Nat) : State :=
  s.modHub fun h => { h with lpcmd := cmd, lpbusy := true, result := BitVec.ofNat 32 stat }

/-- A write of command `code` to `LPCMD`: `run` gives its effect and its `LPSTAT`. -/
def lpWrite (code : Nat) (cmd : D) (s : State) (run : State → State × Nat) : State :=
  if cmd.toNat % 16 != code then s
  else if !lpOpen s.hub then lpRefuse s
  else
    let r := run s
    lpStart r.1 cmd r.2

def cmdCtx (cmd : D) : Nat := cmd.toNat / 2 ^ 8 % 2 ^ 6

def execLaunchPortReject (cmd : D) (s : State) : Out :=
  .next <|
    if !lpOpen s.hub then lpRefuse s
    else if 1 ≤ cmd.toNat % 16 && cmd.toNat % 16 ≤ 4 then s
    else lpStart s cmd 1

/-! ## Create -/

/-- Whether a range of device memory is below the system region. -/
def inDevice (a n : Nat) : Bool := a + n ≤ Config.sysBase

/-- Bytes of device memory as the hub reads them at a physical address. -/
def hubBytes (s : State) (a n : Nat) : State × List Byte :=
  let s := tagLines s 0 false false a n
  (s, s.mem.read a n)

/-- A context record within its limits. -/
def ctxOk (b : List Byte) : Bool :=
  recNat b 44 1 ≤ 63 && recNat b 0 8 % 512 == 0 && recNat b 16 8 % 2 ^ 16 == 0 && recNat b 112 8 % 128 == 0
    && inDevice (recNat b 16 8) (20 * 2 ^ 20 + recNat b 24 8)

/-- Priority of queue `q`. -/
def ctxPrio (b : List Byte) (q : Nat) : Nat := if recNat b 45 3 == 0 then q else recNat b 45 3 / 2 ^ (3 * q) % 8

/-- A context from its record; a positive `DCLn` is stored as 0 (R30). -/
def newCtx (b : List Byte) (keyGen : Nat) : Ctx where
  id := recNat b 44 1
  ptroot := recNat b 0 8
  tbase := BitVec.ofNat 64 (recNat b 8 8 / 8 * 8)
  save := recNat b 16 8
  saveLen := recNat b 24 8
  images := []
  rngkey := BitVec.ofNat 64 (recNat b 32 8)
  step := BitVec.ofNat 32 (recNat b 40 4)
  dcl := (List.range 16).map fun i => dclStored (BitVec.ofNat 32 (recNat b (48 + 4 * i) 4))
  pghnd := recNat b 112 8
  basic := recNat b 45 3 == 0
  queues := (List.range 8).map fun q => ⟨[], [], 0, ctxPrio b q⟩
  keyGen := keyGen

/-- Create: the record's place, its fields, then whether the context exists. DEDUCED (log 66). -/
def createCtx (s : State) : State × Nat :=
  let a := s.hub.lparg.toNat
  if a % 256 != 0 || !inDevice a 256 || s.rangeBad 0 (.mem a) 256 then (s, 1)
  else
    let r := hubBytes s a 256
    if !ctxOk r.2 then (r.1, 1)
    else if (r.1.ctx? (recNat r.2 44 1)).isSome then (r.1, 2)
    else ({ r.1 with ctxs := r.1.ctxs ++ [newCtx r.2 (s.ids + 1)], ids := s.ids + 1 }, 0)

def execCreate (cmd : D) (s : State) : Out := .next (lpWrite 1 cmd s createCtx)

/-! ## Start steward -/

def stewardPend (va : D) : Pend where
  gang := 0
  wave := 0
  f := 0
  serial := 0
  recAddr := va
  comp := none
  scope := .die
  die := 0
  kind := .steward
  depth := 0
  priv := true
  waits := []
  denied := none

/-- Start steward: a footprint that never fits is not malformed (R320), so the grid is accepted and completes with STAT 4. -/
def startSteward (s : State) (ctx : Nat) : State × Nat :=
  if s.hub.thsd then (s, 4)
  else
    match s.ctx? ctx with
    | none => (s, 2)
    | some c =>
      let va := s.hub.lparg
      if va.toNat % 128 != 0 then (s, 1)
      else
        match examine s (blankGang 0 ctx 0) .steward true true va.toNat, c.queues[7]? with
        | .record stat bytes stab, some l =>
          if stat == 1 then (s, 1)
          else if 64 ≤ l.grids.length then (s, 5)
          else (enterGrid s ctx 7 (newGrid s c 7 l (stewardPend va) stat bytes stab), 0)
        | _, _ => (s, 1)

def execStartSteward (cmd : D) (s : State) : Out := .next (lpWrite 2 cmd s fun s => startSteward s (cmdCtx cmd))

/-! ## Destroy -/

/-- Cancel every grid of a context; waiting requests, tasks and paging handlers not yet started go with them. DEDUCED (log 66). -/
def destroyCtx (s : State) (ctx : Nat) : State × Nat :=
  if (s.ctx? ctx).isNone then (s, 2)
  else
    let here := ((s.ctx? ctx).map fun c => c.queues.flatMap (·.pend)).getD []
    let s := dropPends s fun p => here.contains p
    let s := s.modCtx ctx fun c => { c with pghnd := 0, images := [] }
    let s := (s.grids.filter fun r => r.ctx == ctx).foldl (fun s r => stopGrid s r.id false) s
    let s := { s with dies := s.dies.map fun d => { d with tasks := d.tasks.filter fun t => t.ctx != ctx } }
    let waits (s : State) (d : Nat) : Bool := (s.die? d).any fun x => x.busy.any fun b => b.1 == ctx && b.2.1 == 0
    (sweepReqs ((List.range 4).foldl (fun s d => if waits s d then pagerDone s d ctx else s) s), 0)

def execDestroy (cmd : D) (s : State) : Out := .next (lpWrite 3 cmd s fun s => destroyCtx s (cmdCtx cmd))

/-- Whether every gang of a context has stopped, and what it launched is complete. -/
def ctxStopped (s : State) (ctx : Nat) : Bool :=
  (s.gangs.all fun g => g.ctx != ctx || g.st == .gone) && s.grids.all fun r => r.ctx != ctx || !r.root

/-- A context is gone, its key zeroed. -/
def dropCtx (s : State) (ctx : Nat) : State :=
  sweepReqs { s with
    ctxs := s.ctxs.filter fun c => c.id != ctx, grids := s.grids.filter fun r => r.ctx != ctx }

/-! ## Attest (R354) -/

/-- Contexts that are resident. -/
def ctxMask (s : State) : Nat := (s.ctxs.map fun c => 2 ^ c.id).foldl (· ||| ·) 0

/-- An attestation report. -/
def reportBytes (s : State) (nonce : List Byte) : List Byte :=
  let hash (boot i n : Nat) : List Byte := (List.range n).map fun k => Config.imageByte boot (i + k)
  nonce ++ hash s.hub.boots 128 64 ++ hash 0 192 128 ++ natLe 4 s.hub.version.toNat ++ natLe 8 (ctxMask s)
    ++ (List.range 4627).map (Config.signByte s.freeCtr)

def attest (s : State) : State × Nat :=
  let a := s.hub.lparg.toNat
  if !inDevice a (128 + 4959) || s.rangeBad 0 (.mem a) 128 then (s, 1)
  else
    let r := hubBytes s a 128
    let s := tagLines r.1 0 false true (a + 128) 4959
    ((s.writeLoc 0 (.mem (a + 128)) (reportBytes s r.2)).took, 0)

def execAttest (cmd : D) (s : State) : Out := .next (lpWrite 4 cmd s attest)

/-! ## LAUNCH_PORT_COMMAND_END -/

/-- Whether the running command can end: a Destroy waits for its gangs. -/
def lpDone (s : State) : Bool :=
  s.hub.lpbusy && (s.hub.lpcmd.toNat % 16 != 3 || s.hub.result != 0 || ctxStopped s (cmdCtx s.hub.lpcmd))

def execLaunchPortCommandEnd (s : State) : Out :=
  .next <|
    if lpDone s then
      let t := if s.hub.lpcmd.toNat % 16 == 3 && s.hub.result == 0 then dropCtx s (cmdCtx s.hub.lpcmd) else s
      t.modHub fun h => { h with lpstat := h.result, lpbusy := false }
    else s

/-! ## BAR2 (R349) -/

/-- A byte of device memory as the host reads it. -/
def hostByte (s : State) (a : Nat) : Byte :=
  if Config.sysBase ≤ a then 0
  else
    match s.tags.find? fun t => t.line == a / 128 with
    | some t => (storedOf s t).getD (a % 128) 0
    | none => s.mem.get a

def execHostRead (addr len : Nat) (s : State) : Out :=
  .next { s with hostData := (List.range len).map fun i => hostByte s (addr + i) }

/-- Stored bytes come to stand in plain view before the host replaces some of them: the LLC drops its copy. -/
def dropLine (s : State) (line : Nat) : State :=
  let s := { s with llc := s.llc.filter (· != line) }
  match s.tags.find? fun t => t.line == line with
  | some t => ({ s with mem := s.mem.write (128 * line) (storedOf s t) }).dropTag line
  | none => s

def execHostWrite (addr : Nat) (bytes : List Byte) (s : State) : Out :=
  let bs := bytes.take (Config.sysBase - addr)
  let s := (List.range ((addr + bs.length + 127) / 128 - addr / 128)).foldl (fun s i => dropLine s (addr / 128 + i)) s
  .next (if bs.isEmpty then s else storeAs s 0 320 .h ((bs.zip (List.range bs.length)).map fun p => ⟨.mem (addr + p.2), p.1, false⟩))

end Sys2Proof.Machine
end

