-- ==== Sys2Proof/Machine/Clock.lean ====
section
/-! DEFINITION. Clocks, power, monitors, scrubbers, refresh, counter wraps and bit errors (R175, R278, R280, R283, R284, R299,
R355). The clock's speed changes time only: a die keeps whether it is stretched and how many steps it is lowered. -/

namespace Sys2Proof.Machine

/-! ## Supply (R355) -/

def execSupplySag (die : Nat) (s : State) : Out := .next (s.modDie die fun d => { d with sag := true, recover := false })

/-- The clock is still stretched until it is restored. -/
def execSupplyRecovery (die : Nat) (s : State) : Out :=
  .next (s.modDie die fun d => if d.sag then { d with sag := false, recover := true } else d)

def execClockRestore (die : Nat) (s : State) : Out := .next (s.modDie die fun d => { d with recover := false })

/-! ## Throttling -/

/-- One step of 125 MHz. -/
def Die.lower (d : Die) : Die := { d with throttle := d.throttle + 1 }

def execThermalThrottle (die : Nat) (s : State) : Out :=
  .next (if (s.die? die).isSome then (s.modDie die Die.lower).modHub fun h => { h with throt := true } else s)

def execPowerCapThrottle (s : State) : Out :=
  .next (({ s with dies := s.dies.map Die.lower }).modHub fun h => { h with throt := true })

/-- A die's clock returns to nominal; `THROT` clears when no die is held below. -/
def execThrottleRecovery (die : Nat) (s : State) : Out :=
  let s := s.modDie die fun d => { d with throttle := 0 }
  .next (s.modHub fun h => { h with throt := s.dies.any fun d => d.throttle != 0 })

/-! ## Thermal shutdown -/

/-- The fault of a grid that thermal shutdown ends (R344): FSRC 5. -/
def thermalFault : FaultRep := ⟨0, BitVec.ofNat 32 (Config.pkg * 2 ^ 19), 0, 0, 0, 0, 0, 5⟩

def isChildGrid (r : Grid) : Bool :=
  match r.kind with
  | .child .. => true
  | _ => false

/-- Every grid ends; children end with theirs. -/
def execThermalShutdown (s : State) : Out :=
  let ends := s.grids.filter fun r => !isChildGrid r && !r.early && !r.abort
  .next (ends.foldl (fun s r => faultGrid s r.id thermalFault) (s.modHub fun h => { h with thsd := true }))

/-- Whether every temperature monitor reads below 100 °C. -/
def Hub.cool (h : Hub) : Bool := (List.range 64).all fun n => montKind n != 0 || ((h.mont[n]?).getD 0).toInt < 800

/-- Shutdown ends once the package is cool. DEDUCED (log 68). -/
def execThermalShutdownExit (s : State) : Out :=
  .next (if s.hub.cool then s.modHub fun h => { h with thsd := false } else s)

def execMonitorRefresh (n : Nat) (value : BitVec 16) (s : State) : Out :=
  .next (s.modHub fun h => { h with mont := setAt h.mont n value })

/-! ## Scrubbing, refresh, counters -/

/-- The scrubber corrects what can be corrected: no value changes (R278). -/
def execScratchpadScrub (_gang _word : Nat) (s : State) : Out := .next s

/-- The same for HBM4E (R284). -/
def execPatrolScrub (_granule : Nat) (s : State) : Out := .next s

/-- The package's fabric clock runs on until the next bank of a die's Hayloft refreshes (R283). -/
def execHayloftRefresh (die : Nat) (s : State) : Out :=
  .next (if (s.die? die).isSome then { s with fabric := s.fabric + (3000 - s.phase die % 3000) } else s)

/-- The `n`-th TLB entry of a Byre. -/
def tlbAt (s : State) (byre n : Nat) : Option TlbEnt := (s.tlb.filter fun t => t.byre == byre)[n]?

/-- 256 hits move from an entry's counter to the shadow table (R299). -/
def execTlbHitCounterWrap (byre entry : Nat) (s : State) : Out :=
  .next <|
    match tlbAt s byre entry with
    | some t =>
      if t.hits < 256 then s
      else
        let s := shadowAdd s t.leaf 256
        { s with tlb := mapIf (· == t) (fun x => { x with hits := x.hits - 256 }) s.tlb }
    | none => s

/-! ## Bit errors (R175, R278, R280, R282, R284) -/

/-- A correctable error changes nothing; an uncorrectable one poisons the granule; an L1 line with an error is discarded.
DEDUCED (log 69). -/
def execMemoryBitError (site : ErrSite) (uncorrectable : Bool) (s : State) : Out :=
  .next <|
    match site with
    | .scratch gang word =>
      (match s.gangIdx gang with
       | some gi =>
         let inside := (s.gang? gi).any fun g => 8 * word < g.spadLen
         if uncorrectable && inside then s.setBad gi (.spad word) true else s
       | none => s)
    | .granule key =>
      let own := key < Config.devBytes || (Config.hayKey 0 0 ≤ key && key < Config.hayKey 4 0)
      if uncorrectable && own then s.setBad 0 (.mem (key / 8)) true else s
    | .l1 byre line => { s with l1 := s.l1.filter fun c => !(c.byre == byre && c.key == line) }

end Sys2Proof.Machine
end

