-- ==== Sys2Proof/Machine/Issue.lean ====
section
/-! DEFINITION. Choosing and fetching the word to issue (R20, R23, R67, R109, R130, R302, R304, R334). -/

namespace Sys2Proof.Machine

/-! ## Which splits may issue -/

/-- Lanes of a slot that still wait on an unresolved request (R304). -/
def Wave.unsettled (w : Wave) (m : Mask) : Bool := w.parks.any fun p => !p.settled && p.lanes &&& m != 0

/-- Whether a word at a trough can go on, so far as its trough tells. -/
def troughMoves (g : Gang) (w : Wave) (t : Nat) (get : Bool) : Bool :=
  !g.halted w.stage &&
    match (g.troughIdx t).bind g.trough? with
    | none => false
    | some x =>
      if get then w.resv.contains t || reserved g t < x.ring.length || (x.stop && x.ring.isEmpty && x.silo == 0)
      else (g.stopping && w.stage == 0) || x.ring.length < x.slots || (0 < g.siloK && x.silo < siloQuota g)

/-- Whether what a Blocked split waits for has come (R23). -/
def whySat (s : State) (gi : Nat) (g : Gang) (w : Wave) (y : Why) : Bool :=
  match y with
  | .future f => (w.fut f.toNat).st != .pending
  | .ctr c n => w.ctr c ≤ n
  | .room c => w.ctr c < 63
  | .dest ids => !w.ops.any fun o => ids.contains o.id
  | .barw obj gen => BitVec.ofNat 32 (s.numLoc gi (obj.add 12) 4) != gen
  | .halter => halterTurn g w
  | .fwait v f ser =>
    (match g.wave? v with
     | some v => !((v.fut f.toNat).st == .pending && (v.fut f.toNat).serial == ser)
     | none => true)
  | .queueFull => g.ch.unf < 16
  | .churnBusy => g.ch.unf == 0
  | .troughEmpty t => troughMoves g w t true
  | .troughFull t => troughMoves g w t false
  | .fence cols n => !w.ops.any fun o => o.id < n && holdsFence cols o
  | .publish n all => !w.ops.any fun o => o.id < n && holdsArrival all.toNat o
  | .arrivals wide => !s.owing gi wide
  | .lost _ => true
  | .idle _ _ _ => false
  | .woken _ => true
  | .yielded => false
  | .service => false

/-- A split that can issue: Ready, Blocked on something that has come, or Parked with all its requests resolved. -/
def canIssue (s : State) (gi : Nat) (g : Gang) (w : Wave) (k : Bool) : Bool :=
  g.runs && !w.ended && w.mayIssue k &&
    match (w.slot k).st with
    | .ready => true
    | .blocked y => whySat s gi g w y
    | .parked => !w.unsettled (w.slot k).act
    | _ => false

/-- Quadrant of a wave, as a number in the package. -/
def quadKey (g : Gang) (w : Wave) : Nat := g.byreId * 4 + w.quad

/-- A candidate: quadrant, place in it (R334), split. -/
structure Cand where
  quad  : Nat
  place : Nat
  who   : Cur
  deriving DecidableEq, Repr

def candOf (gi wi : Nat) (g : Gang) (w : Wave) (k : Bool) : Cand := ⟨quadKey g w, w.qslot * 2 + k.toNat, ⟨gi, wi, k⟩⟩

/-- Splits that pass a test, over all waves. -/
def candsWhere (s : State) (f : Nat → Gang → Wave → Bool → Bool) : List Cand :=
  (s.gangs.zip (List.range s.gangs.length)).flatMap fun p =>
    (p.1.waves.zip (List.range p.1.waves.length)).flatMap fun q =>
      ([false, true].filter fun k => f p.2 p.1 q.1 k).map fun k => candOf p.2 q.2 p.1 q.1 k

/-- Splits that can issue; a split that yielded counts where its quadrant has no other (R109). -/
def candidates (s : State) : List Cand :=
  let hot := candsWhere s (canIssue s)
  let cold := candsWhere s fun _ g w k => g.runs && !w.ended && w.mayIssue k && (w.slot k).st == .blocked .yielded
  hot ++ cold.filter fun c => !hot.any fun h => h.quad == c.quad

def lastIssuer (s : State) (q : Nat) : Option (Cur × Nat) := (s.issuers.find? fun x => x.1 == q).map (·.2)

/-- The choice within a quadrant: the last issuer for up to 4 words, then the next place in turn (R334). The precedence of a
candidate that has been issuable for 40 cycles is a matter of time, which the model does not count; an agenda may name any
candidate. DESIGN CHOICE (log 18). -/
def pickIn (s : State) (q : Nat) (cs : List Cand) : Option Cur :=
  match lastIssuer s q with
  | some (who, n) =>
    let place := (cs.find? fun c => c.who == who).map (·.place)
    if place.isSome && n < 4 then some who
    else
      let at' := match s.gang? who.gang with
        | some g => (match g.wave? who.wave with | some w => w.qslot * 2 + who.slot.toNat | none => 0)
        | none => 0
      (leastBy (fun c => (c.place + 8 - (at' + 1)) % 8) cs).map (·.who)
  | none => (leastBy (·.place) cs).map (·.who)

/-- The quadrant of the split that issued last. -/
def curQuad (s : State) : Nat :=
  match s.gang? s.cur.gang with
  | some g => (match g.wave? s.cur.wave with | some w => quadKey g w | none => 0)
  | none => 0

/-- The next split to issue: quadrants take turns. DESIGN CHOICE (log 18). -/
def pick (s : State) : Option Cur :=
  let cs := candidates s
  let q := curQuad s
  match leastBy (fun c : Cand => (c.quad + 1280 - (q + 1)) % 1280) cs with
  | some c => pickIn s c.quad (cs.filter fun d => d.quad == c.quad)
  | none => none

/-! ## Fetching -/

/-- What issuing leads to: an instruction to run, or a state in which nothing ran. -/
inductive Issued
  | run (i : Instr) (s : State)
  | done (s : State)
  deriving DecidableEq, Repr

/-- The instruction of a fetched word. -/
def instrOf (w : D) : Instr :=
  match decodeWord w with
  | .ok i => i
  | .error r => .illegalWord w r.sub r.field r.half

def isVrmax : Instr → Bool
  | .vrmax .. => true
  | _ => false

/-- The three words after a `VRMAX`, or the first fetch among them that fails, with its address (R130). DEDUCED (log 42). -/
def ahead (s : State) (e : Env) : Nat → D → Except (Fetch × D) (List D)
  | 0, _ => .ok []
  | n + 1, pc =>
    match fetch (fillFetch s e.g e.w pc) e.g e.w pc with
    | .word x => (ahead s e n (pc + 8)).map fun xs => x :: xs
    | r => .error (r, pc)

/-- A fetch that fails: the split parks at its word, or traps (R302, R308). -/
def fetchStop (e : Env) (r : Fetch) (pc : D) : State :=
  match r with
  | .fail n => e.trap (trAccess n pc.toNat e.act)
  | _ => parkAll e 1 8 pc.toNat

/-- Fetch and decode at the split's PC. -/
def fetchRun (e : Env) : Issued :=
  let pc := e.slot.pc
  let e := { e with s := fillFetch e.s e.g e.w pc }
  match fetch e.s e.g e.w pc with
  | .word x =>
    let s := noteFetch e.s e.g e.w pc
    let i := instrOf x
    if !isVrmax i then .run i s
    else
      match ahead s e 3 (pc + 8) with
      | .error r => .done (fetchStop { e with s := s } r.1 r.2)
      | .ok [a, b, c] => .run ((fuseOf i (instrOf a) (instrOf b) (instrOf c)).getD i) s
      | .ok _ => .run i s
  | r => .done (fetchStop e r pc)

/-- The latches of a wave whose quadrant has issued another split's word since are lost (R20). Splits are told apart by wave and
slot: one popped or exchanged into the slot of the last issuer counts as that split. DESIGN CHOICE (log 82). -/
def loseIfOther (s : State) (who : Cur) (g : Gang) (w : Wave) : Wave :=
  match lastIssuer s (quadKey g w) with
  | some (c, _) => if c == who then w else { w with latches := loseLatches w.latches }
  | none => { w with latches := loseLatches w.latches }

def lowVa (ps : List Park) : Nat := match leastBy (fun p => lowLane p.lanes) ps with | some p => p.va | none => 0

/-- What a split that issues again finds first. A Parked one whose requests are resolved leaves the parked state, and a denied one
traps (R304); one whose release can never be made takes the trap that is due (R347). -/
def unpark (s : State) (who : Cur) (w : Wave) : Except State State :=
  let sl := w.slot who.slot
  match sl.st with
  | .blocked (.lost va) => .error (trapDrained s who.gang who.wave who.slot (trAccess 7 va sl.act))
  | .parked =>
    let mine := w.parks.filter fun p => p.lanes &&& sl.act != 0
    let w := { w with parks := w.parks.filter fun p => p.lanes &&& sl.act == 0 }
    let s := s.setWave who.gang who.wave (w.modSlot who.slot fun x => { x with st := .ready })
    let no := mine.filter (·.denied)
    if no.isEmpty then .ok s
    else
      .error (trapDrained s who.gang who.wave who.slot
        (trAccess 8 (lowVa no) ((no.foldl (fun m p => m ||| p.lanes) 0) &&& sl.act)))
  | _ => .ok s

def mayIssueNow (s : State) (who : Cur) : Bool := (candidates s).any fun c => c.who == who

/-- Prepare the issue of a split's next word. -/
def prepare (s : State) (who : Cur) (stale : Bool) : Issued :=
  match s.gang? who.gang with
  | none => .done s
  | some g =>
    match g.wave? who.wave with
    | none => .done s
    | some w =>
      if !mayIssueNow s who then .done s
      else
        let s := { s with cur := who, stale := stale }
        match unpark s who w with
        | .error t => .done { t with stale := false }
        | .ok s =>
          let s := s.modWave who.gang who.wave (loseIfOther s who g)
          match s.env? 0 with
          | some e =>
            (match fetchRun e with
             | .run i t => .run i t
             | .done t => .done { t with stale := false })
          | none => .done { s with stale := false }

/-! ## After the word -/

/-- Splits of a quadrant that yielded are Ready once another split has issued (R109). -/
def endYields (s : State) (q : Nat) (who : Cur) : State :=
  let un (x : Slot) : Slot := if x.st == .blocked .yielded then { x with st := .ready } else x
  let one (gi : Nat) (g : Gang) (w : Wave) : Wave :=
    if quadKey g w != q then w
    else
      let w := if (⟨gi, w.idx, false⟩ : Cur) == who then w else { w with slot0 := un w.slot0 }
      if (⟨gi, w.idx, true⟩ : Cur) == who then w else { w with slot1 := un w.slot1 }
  let has := (s.gangs.any fun g => g.waves.any fun w =>
    quadKey g w == q && (w.slot0.st == .blocked .yielded || w.slot1.st == .blocked .yielded))
  if !has then s
  else
    { s with gangs := (s.gangs.zip (List.range s.gangs.length)).map fun p =>
        { p.1 with waves := p.1.waves.map (one p.2 p.1) } }

/-- Whether a split waits at the word it tried. -/
def waitsAt (s : State) (who : Cur) : Bool :=
  match s.wave? who.gang who.wave with
  | some w => (match (w.slot who.slot).st with | .blocked .yielded => false | .blocked _ => true | _ => false)
  | none => false

/-- Bookkeeping after a word: a word that waits has not issued, so the latches stand as before; else the split is the
quadrant's last issuer. -/
def finishIssue (before after : State) (who : Cur) (i : Instr) : State :=
  let after := { after with stale := false }
  match before.gang? who.gang with
  | none => after
  | some g =>
    match g.wave? who.wave with
    | none => after
    | some w =>
      if waitsAt after who then after.modWave who.gang who.wave fun x => { x with latches := w.latches }
      else
        let q := quadKey g w
        let n := match lastIssuer before q with
          | some (c, n) => if c == who then (if n < 4 then n + 1 else 1) else 1
          | none => 1
        let t := countWord after g.byreId (loseIfOther before who g w) i
        endYields { t with issuers := (q, who, n) :: t.issuers.filter fun x => x.1 != q } q who

end Sys2Proof.Machine
end

