-- ==== Sys2Proof/Machine/Pod.lean ====
section
/-! DEFINITION. Pod-wide grids (R335-R346) and Bexyar (R347). What the other packages of the pod do comes as parameters of the
events and as messages in `msgs`. -/

namespace Sys2Proof.Machine

def State.numGrid (s : State) (num : Nat) : Option Grid := s.grids.find? fun r => r.num == num

def send (s : State) (ms : List Msg) : State := { s with msgs := s.msgs ++ ms }

/-- Take message `i` out. -/
def dropMsg (s : State) (i : Nat) : State := { s with msgs := s.msgs.take i ++ s.msgs.drop (i + 1) }

/-- Root package of a grid number. -/
def rootOf (num : Nat) : Nat := num / 2 ^ 64

/-- Destination and root of a message from a root to a package. -/
def Msg.route : Msg → Option (Nat × Nat)
  | .grid d n .. => some (d, rootOf n)
  | .chunk d n .. => some (d, rootOf n)
  | .endDeal d n .. => some (d, rootOf n)
  | _ => none

/-- Whether message `i` is the oldest of its root and destination (R340). -/
def inOrder (s : State) (i : Nat) : Bool :=
  match s.msgs[i]? with
  | some m => !(s.msgs.take i).any fun x => x.route == m.route
  | none => false

def modPkg (r : Grid) (pkg : Nat) (f : PodPkg → PodPkg) : Grid := { r with pkgs := mapIf (·.pkg == pkg) f r.pkgs }

/-! ## Dealing at the root (R337-R340) -/

/-- Size of a chunk for a package (R339). -/
def podChunk (rem np : Nat) : Nat := min rem (max 320 ((rem + 2 * np - 1) / (2 * np)))

/-- Whether the root may deal a grid: the grids before it have left the root, or completed where it says AFTER (R340). -/
def rootEligible (s : State) (r : Grid) : Bool :=
  ((s.before r).all fun x => x.over || x.next == x.total) && !(r.after && (s.before r).any fun x => x.pos + 1 == r.pos)

/-- End-of-deal notices once nothing remains. -/
def dealtOut (s : State) (id : Nat) : State :=
  match s.grid? id with
  | some r => if r.next == r.total then send s (noticesOf r false false) else s
  | none => s

/-- The initial chunks, in ascending package number. -/
def initial (r : Grid) : List Nat → Grid × List Msg
  | [] => (r, [])
  | p :: ps =>
    let n := podChunk (r.total - r.next) r.pkgs.length
    let m := Msg.grid p r.num r.ctx r.queue r.prio r.bytes r.step r.next (r.next + n) false
    let q := initial (modPkg { r with next := r.next + n } p fun x => { x with given := n }) ps
    (q.1, m :: q.2)

def broadcast (s : State) (r : Grid) : State :=
  let ps := r.pkgs.foldl (fun acc p => insertNat p.pkg acc) []
  let q := initial { r with started := true } ps
  dealtOut (send (s.modGrid r.id fun _ => q.1) q.2) r.id

def execRootBroadcast (grid : Nat) (s : State) : Out :=
  .next <|
    match s.grid? grid with
    | some r =>
      if r.scope == .pod && r.root && !r.started && !r.over && !s.hub.thsd && rootEligible s r then broadcast s r else s
    | none => s

/-- The root answers a package's request: a chunk, or the end-of-deal notice (R339, R346). -/
def answer (s : State) (r : Grid) (pkg : Nat) : State :=
  if r.over || r.next == r.total then send s [.endDeal pkg r.num r.abort r.cancel]
  else
    let n := podChunk (r.total - r.next) r.pkgs.length
    let s := s.modGrid r.id fun r => modPkg { r with next := r.next + n } pkg fun x => { x with given := x.given + n }
    dealtOut (send s [.chunk pkg r.num r.next (r.next + n)]) r.id

/-- Whether a message is a request of this package for a chunk of a grid. -/
def Msg.asks (num : Nat) (m : Msg) : Bool :=
  match m with
  | .chunkReq n p => p == Config.pkg && n == num
  | _ => false

/-- Whether a chunk of a grid, its grid message, or a request for one is on its way to this package. -/
def chunkComing (s : State) (num : Nat) : Bool :=
  s.msgs.any fun m =>
    match m with
    | .chunk d n .. => d == Config.pkg && n == num
    | m => m.isGrid num || m.asks num

/-- A chunk or the end-of-deal notice answers this package's request. -/
def answered (s : State) (num : Nat) : State := { s with msgs := s.msgs.filter fun m => !m.asks num }

/-- Whether a package knows that no chunk will follow. -/
def Grid.told (r : Grid) (pkg : Nat) : Bool := r.pkgs.any fun p => p.pkg == pkg && p.told

/-- A request of this package (R339). -/
def askChunk (s : State) (r : Grid) : State :=
  if r.over || !r.started || 320 ≤ r.heldHere || chunkComing s r.num then s
  else if r.root then (if r.next == r.total then s else answer s r Config.pkg)
  else if r.told Config.pkg then s
  else send s [.chunkReq r.num Config.pkg]

def execPodChunkRequest (grid pkg : Nat) (s : State) : Out :=
  .next <|
    match s.grid? grid with
    | some r =>
      if r.scope != .pod then s
      else if pkg == Config.pkg then askChunk s r
      else if r.root && r.started && r.pkgs.any (fun p => p.pkg == pkg && !p.told && !p.reported) then answer s r pkg
      else s
    | none => s

/-! ## What a package receives (R336, R337, R345, R346) -/

/-- This package holds a further chunk. One that reaches it after the grid has ended is only counted (R346). -/
def takeChunk (r : Grid) (lo hi : Nat) : Grid :=
  if hi ≤ lo then r
  else
    { r with
      chunks := if r.over then r.chunks else r.chunks ++ [⟨4, lo, hi⟩]
      total := if r.root then r.total else r.total + (hi - lo)
      next := if r.root then r.next else r.next + (hi - lo) }

/-- A grid of another package's root, as this package begins to dispatch it (R336, R337). -/
def foreignGrid (s : State) (c : Ctx) (num queue prio : Nat) (bytes stab : List Byte) (step : W) : Grid :=
  let p : Pend := { pagerPend 0 0 with scope := .pod, kind := .launched, priv := false }
  { newGrid s c queue ⟨[], [], 0, prio⟩ p 0 bytes stab with
    num := num, step := step, total := 0, started := true, root := false, pkgs := [⟨Config.pkg, 0, false, false, 0, 0, 0⟩] }

/-- A fault that the pod itself finds: FSRC 3 or 4 (R344). -/
def podFault (pkg src : Nat) : FaultRep := ⟨0x704, BitVec.ofNat 32 (pkg * 2 ^ 19), 0, 0, 0, 0, 0, src⟩

/-- The stage table of a record as this package reads it: a page that is not resident parks. One that cannot be read, or whose
request was denied, is empty. DEDUCED (log 62). -/
def stageTab (s : State) (ctx : Nat) (bytes : List Byte) (denied : Bool) : DevRead :=
  if !recPipe bytes then .got []
  else
    match devRead s (blankGang 0 ctx 0) false (recStgtab bytes) (min stageTabLen (2 ^ 64 - recStgtab bytes)) with
    | .park va => if denied then .got [] else .park va
    | .bad => .got []
    | r => r

/-- Whether a grid message waits for a request that it has posted. -/
def State.msgWaits (s : State) (num : Nat) : Bool := s.reqs.any fun q => q.waiters.contains (.message num)

/-- A grid that this package declines: the context is not resident. It ends here at once with a fault, so that the gangs given
to it count in CANCG, and the root is told (R336, R345). -/
def declineGrid (s : State) (num ctx queue prio : Nat) (bytes : List Byte) (step : W) (lo hi : Nat) : State :=
  let c : Ctx := ⟨ctx, 0, 0, 0, 0, [], 0, 0, [], 0, false, [], 0⟩
  let r := foreignGrid s c num queue prio bytes [] step
  let f := podFault Config.pkg 4
  let r := takeChunk { r with abort := true, stat := 2, faults := 1, first := some f, fmap := [Config.pkg] } lo hi
  send { s with grids := s.grids ++ [r], ids := s.ids + 1 } [.fault num Config.pkg f]

/-- A grid message reaches this package. A page of the stage table that is not resident is asked for (R303, R336). -/
def recvGrid (s : State) (i num ctx queue prio : Nat) (bytes : List Byte) (step : W) (lo hi : Nat) (denied : Bool) : State :=
  match s.numGrid num with
  | some r => (dropMsg s i).modGrid r.id fun r => takeChunk r lo hi
  | none =>
    match s.ctx? ctx with
    | none => declineGrid (dropMsg s i) num ctx queue prio bytes step lo hi
    | some c =>
      match stageTab s ctx bytes denied with
      | .park va => if s.msgWaits num then s else (addReq s 0 ctx va 4 1 0 (.message num)).1
      | .bad => s
      | .got stab =>
        let s := dropMsg s i
        { s with grids := s.grids ++ [takeChunk (foreignGrid s c num queue prio bytes stab step) lo hi], ids := s.ids + 1 }

def takeGrid (s : State) (msg : Nat) : State :=
  match s.msgs[msg]? with
  | some (.grid d num ctx queue prio bytes step lo hi denied) =>
    if !inOrder s msg then s
    else if d != Config.pkg || (s.numGrid num).isNone && rootOf num == Config.pkg then dropMsg s msg
    else recvGrid s msg num ctx queue prio bytes step lo hi denied
  | _ => s

/-- Whether another package of the pod may be the root of a grid number. -/
def otherRoot (s : State) (num : Nat) : Bool := rootOf num != Config.pkg && s.hub.podMap.contains (rootOf num)

def execGridMessage (m : GridMsg) (s : State) : Out :=
  .next <|
    match m with
    | .here i => takeGrid s i
    | .other num ctx queue prio bytes step lo hi =>
      if otherRoot s num && (s.numGrid num).isNone && !s.msgs.any (Msg.isGrid num) && queue < 8 && prio < 8 && bytes.length == 96
          && hi ≤ gridSize .launched bytes then
        takeGrid (send s [.grid Config.pkg num ctx queue prio bytes step lo hi false]) s.msgs.length
      else s

def takeChunkMsg (s : State) (msg : Nat) : State :=
  match s.msgs[msg]? with
  | some (.chunk d num lo hi) =>
    if !inOrder s msg then s
    else if d != Config.pkg then dropMsg s msg
    else
      match s.numGrid num with
      | some r => (dropMsg s msg).modGrid r.id fun r => takeChunk r lo hi
      | none => dropMsg s msg
  | _ => s

/-- Whether a grid of another package's root is here, or its message is on its way. -/
def knownGrid (s : State) (num : Nat) : Bool := (s.numGrid num).isSome || s.msgs.any (Msg.isGrid num)

/-- A chunk of another package's root comes as the answer to this package's request (R339). -/
def execPodChunk (m : ChunkMsg) (s : State) : Out :=
  .next <|
    match m with
    | .here i => takeChunkMsg s i
    | .other num lo hi =>
      if otherRoot s num && s.msgs.any (Msg.asks num) && (s.numGrid num).any (fun r => hi ≤ gridSize .launched r.bytes) then
        let s := answered s num
        takeChunkMsg (send s [.chunk Config.pkg num lo hi]) s.msgs.length
      else s

def takeEnd (s : State) (msg : Nat) : State :=
  match s.msgs[msg]? with
  | some (.endDeal d num abort cancel) =>
    if !inOrder s msg then s
    else
      match s.numGrid num with
      | none => dropMsg s msg
      | some r =>
        let s := (dropMsg s msg).modGrid r.id fun r => modPkg r d fun x => { x with told := true }
        if d == Config.pkg && !r.root then
          let s := answered s num
          if abort || cancel then stopGrid s r.id abort else s
        else s
  | _ => s

def execEndOfDeal (m : DealMsg) (s : State) : Out :=
  .next <|
    match m with
    | .here i => takeEnd s i
    | .other num abort cancel =>
      if otherRoot s num && knownGrid s num then
        takeEnd (send s [.endDeal Config.pkg num abort cancel]) s.msgs.length
      else s

/-! ## Reports (R343) -/

/-- Packages of the pod map in a group. -/
def groupPkgs (s : State) (group : Nat) : List Nat :=
  (if s.hub.podMap.isEmpty then [Config.pkg] else s.hub.podMap).filter fun p => p / 16 == group

/-- Whether this package is its group's dispatcher (R335). -/
def isGroupHead (s : State) : Bool := leastBy id (groupPkgs s (Config.pkg / 16)) == some Config.pkg

/-- Gangs of a grid that this package has been given. -/
def givenHere (r : Grid) : Nat := if r.root then ((r.pkgs.find? (·.pkg == Config.pkg)).map (·.given)).getD 0 else r.total

/-- Whether this package can report: it has the end-of-deal notice, which the root's own package has once the root deals no
more; nothing is undealt, nothing of the grid is left. -/
def mayReport (s : State) (r : Grid) : Bool :=
  r.scope == .pod && r.started && !(r.pkgs.any fun p => p.pkg == Config.pkg && p.reported) && !s.busyGrid r.id
    && !chunkComing s r.num && (r.over || r.chunks.isEmpty)
    && (if r.root then r.over || r.next == r.total else r.told Config.pkg)

/-- The first fault of this package's own: at the root the grid's first may be another's. -/
def ownFirst (r : Grid) : Option FaultRep :=
  match r.first with
  | some f => if f.widx.toNat / 2 ^ 19 % 512 == Config.pkg then some f else none
  | none => none

/-- This package reports. -/
def ownReport (s : State) (r : Grid) : State :=
  let m := Msg.report r.num Config.pkg r.doneg (givenHere r - r.doneg) r.errg r.faults (ownFirst r)
  let s := send (s.modGrid r.id fun r => modPkg r Config.pkg fun x => { x with reported := true }) [m]
  if r.root || isGroupHead s then s else { s with grids := s.grids.filter fun x => x.id != r.id }

/-- Whether package `pkg` may report now to the dispatchers here. At the root it has the notice, and its counts add up to what
it was given, its faults to no less than those already counted for it; a package of this group reports to the group's dispatcher,
which has relayed the notice. A fault report has come before. DEDUCED (log 62). -/
def reportOk (s : State) (r : Grid) (pkg doneg cancg errg faults : Nat) : Bool :=
  r.started && errg ≤ doneg && (faults == 0 || r.first.isSome || r.relayed.isSome) &&
    if r.root then r.pkgs.any fun p => p.pkg == pkg && !p.reported && p.told && p.given == doneg + cancg && p.faults ≤ faults
    else
      r.told Config.pkg && isGroupHead s && (groupPkgs s (Config.pkg / 16)).contains pkg
        && !s.msgs.any fun m => match m with | .report n p .. => n == r.num && p == pkg | _ => false

/-- Another package's report reaches its group. -/
def otherReport (s : State) (r : Grid) (pkg doneg cancg errg faults : Nat) : State :=
  if reportOk s r pkg doneg cancg errg faults then
    send (s.modGrid r.id fun r => modPkg r pkg fun x => { x with reported := true })
      [.report r.num pkg doneg cancg errg faults none]
  else s

def execPackageReport (grid pkg doneg cancg errg faults : Nat) (s : State) : Out :=
  .next <|
    match s.grid? grid with
    | some r =>
      if pkg == Config.pkg then (if mayReport s r then ownReport s r else s)
      else otherReport s r pkg doneg cancg errg faults
    | none => s

/-- A report, by package. -/
structure Rep where
  pkg    : Nat
  doneg  : Nat
  cancg  : Nat
  errg   : Nat
  faults : Nat
  first  : Option FaultRep
  deriving DecidableEq, Repr

def repOf (num group : Nat) (m : Msg) : Option Rep :=
  match m with
  | .report n p d c e f x => if n == num && p / 16 == group then some ⟨p, d, c, e, f, x⟩ else none
  | _ => none

/-- The root takes one package's counts; the faults that it has reported one by one are among them. -/
def takeRep (r : Grid) (x : Rep) : Grid :=
  let r := modPkg r x.pkg fun p => { p with doneg := x.doneg, errg := x.errg, faults := max p.faults x.faults }
  { r with
    first := match r.first with
      | some f => some f
      | none => x.first
    fmap := if x.faults == 0 then r.fmap else insertNat x.pkg r.fmap }

/-- Merge the reports of a group's packages, with the first fault that reached the group. -/
def mergeGroup (s : State) (r : Grid) (group : Nat) (reps : List Rep) : State :=
  let s := { s with msgs := s.msgs.filter fun m => (repOf r.num group m).isNone }
  if r.root then
    s.modGrid r.id fun r => { reps.foldl takeRep r with groups := insertNat group r.groups }
  else
    let sum (f : Rep → Nat) : Nat := (reps.map f).foldl (· + ·) 0
    let first := r.relayed <|> r.first <|> (reps.filterMap (·.first)).head?
    let m := Msg.group r.num group (sum (·.doneg)) (sum (·.cancg)) (sum (·.errg)) (sum (·.faults)) first
      ((reps.filter fun x => x.faults != 0).map (·.pkg))
    send { s with grids := s.grids.filter fun x => x.id != r.id } [m]

/-- Whether all reports of a group are in where they are merged. -/
def groupReady (s : State) (r : Grid) (group : Nat) : Bool :=
  let reps := s.msgs.filterMap (repOf r.num group)
  let in' (p : Nat) : Bool :=
    reps.any (fun x => x.pkg == p) || (r.root && s.hub.dead.contains p && r.pkgs.any fun x => x.pkg == p && x.reported)
  let mine := r.root || (group == Config.pkg / 16 && isGroupHead s)
  let ps := groupPkgs s group
  r.scope == .pod && r.started && mine && !r.groups.contains group && !ps.isEmpty && ps.all in'

def execGroupReport (grid group : Nat) (s : State) : Out :=
  .next <|
    match s.grid? grid with
    | none => s
    | some r => if groupReady s r group then mergeGroup s r group (s.msgs.filterMap (repOf r.num group)) else s

/-! ## Faults and cancellation (R345, R346) -/

/-- A fault report reaches the root: the first stands and ends the grid, and each is counted for its package (R345). -/
def rootFault (s : State) (id pkg : Nat) (rep : FaultRep) : State :=
  (stopGrid s id true).modGrid id fun r =>
    { modPkg r pkg fun x => { x with faults := x.faults + 1 } with
      first := match r.first with
        | some f => some f
        | none => some rep
      fmap := insertNat pkg r.fmap }

/-- The group's dispatcher keeps the first fault that reaches the group, its own package's among them, and relays the report
(R343). -/
def relayFault (s : State) (id pkg : Nat) (rep : FaultRep) : State :=
  s.modGrid id fun r => { r with relayed := some (r.relayed.getD (r.first.getD rep)), fmap := insertNat pkg r.fmap }

def takeFault (s : State) (msg : Nat) : State :=
  match s.msgs[msg]? with
  | some (.fault num pkg rep) =>
    (match s.numGrid num with
     | some r =>
       if r.root then rootFault (dropMsg s msg) r.id pkg rep
       else if isGroupHead s && pkg / 16 == Config.pkg / 16 then relayFault (dropMsg s msg) r.id pkg rep
       else dropMsg s msg
     | none => dropMsg s msg)
  | _ => s

/-- Whether package `pkg` may have sent a fault report that passes here: it runs the grid and has not reported yet. -/
def faultOk (s : State) (r : Grid) (pkg src : Nat) : Bool :=
  pkg != Config.pkg && s.hub.podMap.contains pkg && r.started && (src ≤ 2 || src == 4 || src == 5)
    && if r.root then r.pkgs.any fun p => p.pkg == pkg && !p.reported
       else isGroupHead s && pkg / 16 == Config.pkg / 16

def execPodFaultReport (m : FaultMsg) (s : State) : Out :=
  .next <|
    match m with
    | .here i => takeFault s i
    | .other num pkg tcause widx tpc tval gx gy gz src =>
      match s.numGrid num with
      | some r =>
        let rep : FaultRep := if src == 4 then podFault pkg 4 else ⟨tcause, widx, tpc, tval, gx, gy, gz, src⟩
        if faultOk s r pkg src then takeFault (send s [.fault num pkg rep]) s.msgs.length else s
      | none => s

/-- The `CANCEL` future of a request of this package becomes Done. -/
def tellCancel (s : State) (gang wave : Nat) (f : FR) (ser : W) (n : Nat) : State :=
  match s.gangIdx gang with
  | some gi => s.finishFut gi wave (some f) ser .done n
  | none => s

/-- A request of this package reaches the root that this package is. -/
def takeCancel (s : State) (msg : Nat) : State :=
  match s.msgs[msg]? with
  | some (.cancel num gang wave f ser) =>
    let t := dropMsg s msg
    (match s.numGrid num with
     | some r =>
       if !r.root || r.over then tellCancel t gang wave f ser 0
       else stopGrid (tellCancel t gang wave f ser r.dealing.toNat) r.id false
     | none => tellCancel t gang wave f ser 0)
  | _ => s

/-- Package `pkg` asks this root, which accepts a grid's cancellation once and answers (R346). -/
def otherCancel (s : State) (pkg ctx : Nat) (comp : D) : State :=
  match namedGrid s ctx comp with
  | some r =>
    if r.scope != .pod || !r.root || !r.pkgs.any (fun p => p.pkg == pkg) then s
    else
      let n := if r.over then 0 else r.dealing.toNat
      send (if r.over then s else stopGrid s r.id false) [.cancelled pkg ctx comp n]
  | none => s

/-- The answer to request `msg` of this package comes: RESULT 1 where some root still held undealt gangs. -/
def cancelAnswer (s : State) (msg : Nat) (still : Bool) : State :=
  match s.msgs[msg]? with
  | some (.cancelAt _ _ gang wave f ser) => tellCancel (dropMsg s msg) gang wave f ser still.toNat
  | _ => s

def execPodCancelRequest (m : CancelMsg) (s : State) : Out :=
  .next <|
    match m with
    | .here i => takeCancel s i
    | .other pkg ctx comp => if pkg == Config.pkg then s else otherCancel s pkg ctx comp
    | .answer i still => cancelAnswer s i still

/-! ## Bexyar (R347) -/

/-- Retries in a row at a port. -/
def retriesOf (h : Hub) (port : Nat) : Nat := ((h.retries.find? fun x => x.1 == port).map (·.2)).getD 0

/-- Port numbers. -/
def portCount : Nat := 32

/-- A retry at a port, and whether its flit passes: a flit that passes ends the run of retries. -/
def execBexyarFlitRetry (retry : FlitRetry) (s : State) : Out :=
  .next <|
    let port := retry.port
    if port < portCount && !s.hub.ports.contains port && retriesOf s.hub port < 16 then
      let n := if retry.passes then 0 else retriesOf s.hub port + 1
      { s with hub := { s.hub with retries := (port, n) :: s.hub.retries.filter fun x => x.1 != port } }
    else s

/-- Whether a place lies in one of some peers' memories. -/
def inPeer (ps : List Nat) (l : Loc) : Bool :=
  match l with
  | .mem k => ps.any fun p => Config.peerKey p 0 ≤ k && k < Config.peerKey (p + 1) 0
  | .spad _ => false

/-- Words that write memory: stores, and atomics with or without a result. -/
def writesMem (k : MemKind) : Bool :=
  match k with
  | .load _ | .loadU _ | .loadN _ | .dld | .value => false
  | _ => true

/-- The accesses of an outstanding operation that are lost with some peers. -/
def MemOp.lost (ps : List Nat) (o : MemOp) : List Acc :=
  if writesMem o.kind then o.accs.filter fun a => inPeer ps a.loc else []

/-- Whether an outstanding release waits for a lost store (R273). -/
def Wave.lostRel (w : Wave) (ps : List Nat) (o : MemOp) : Bool :=
  isRel o && 4 ≤ o.scope.toNat && w.ops.any fun q => q.id ≤ o.id && q.act &&& o.act != 0 && !(q.lost ps).isEmpty

/-- The wave without the lost stores, and without the releases that waited for them; the lanes of a lost atomic keep their
register. DEDUCED (log 56). -/
def Wave.loseStores (w : Wave) (ps : List Nat) : Wave :=
  let keep (o : MemOp) : Option MemOp :=
    let ls := o.lost ps
    if w.lostRel ps o then none
    else if ls.isEmpty then some o
    else
      let as := o.accs.filter fun a => !inPeer ps a.loc
      if as.isEmpty then none
      else some { o with accs := as, left := ls.foldl (fun m a => m &&& ~~~oneLane a.lane) o.left }
  { w with ops := w.ops.filterMap keep }

/-- SCOPE of the barrier object at which a `BARA` arrives. -/
def barScope (e : Env) (a : Src) (i : I25) : Nat :=
  let va := addrVal i (baseVal e a i).1 0
  let at' (l : Loc) : Nat := objScope e.s e.gi l
  if isSpadForm i then at' (.spad va)
  else
    match translate e.s e.g ⟨true, false, e.priv⟩ va 16 with
    | .ok k => at' (.mem k)
    | _ => 0

/-- Scope of the release or fence at which a split waits for its earlier stores. -/
def fenceScope (e : Env) : Nat :=
  match fetch e.s e.g e.w e.slot.pc with
  | .word x =>
    (match instrOf x with
     | .fence sc _ => sc.toNat
     | .xfence sc _ _ => sc.toNat
     | .launch sc .. => if sc == .pod then 4 else 0
     | .spawn .. => if (e.s.grid? e.g.grid).any (·.scope == .pod) then 4 else 0
     | .bara _ a _ i => barScope e a i
     | _ => 0)
  | _ => 0

/-- The outstanding operations for which a split waits at `.pod` or `.sys`: at a fence, at a word that drains before it releases,
at a barrier whose arrival is still to be made, or by a release of its own that a lost store precedes. -/
def awaited (ps : List Nat) (e : Env) : List MemOp :=
  let rels := e.w.ops.filter fun o => o.slot == e.k && e.w.lostRel ps o
  (e.w.ops.filter fun q => rels.any fun o => q.id ≤ o.id && q.act &&& o.act != 0) ++
    match e.slot.st with
    | .blocked (.fence cols n) => if 4 ≤ fenceScope e then e.w.ops.filter fun o => o.id < n && holdsFence cols o else []
    | .blocked (.publish n all) => if 4 ≤ fenceScope e then e.w.ops.filter fun o => o.id < n && holdsArrival all.toNat o else []
    | .barWait =>
      let bars := e.w.bars.filter fun b => b.lanes &&& e.act != 0 && !b.arrived && 4 ≤ objScope e.s e.gi b.obj
      e.w.ops.filter fun o => bars.any fun b => holdsArrival (objPub e.s e.gi b.obj) o
    | _ => []

/-- The lowest address of a lost store for which a split waits. -/
def lostFor (ps : List Nat) (e : Env) : Option Nat :=
  (leastBy (·.va) ((awaited ps e).flatMap (MemOp.lost ps))).map (·.va)

/-- A split that waits for a lost store traps; one that cannot issue now, since its wave handles a trap, does so when it can. -/
def loseSplit (s : State) (gi wi : Nat) (x : Bool × Nat) : State :=
  match s.wave? gi wi with
  | none => s
  | some w =>
    if w.ended then s
    else if w.mayIssue x.1 then trapDrained s gi wi x.1 (trAccess 7 x.2 (w.slot x.1).act)
    else s.setWave gi wi (w.modSlot x.1 fun y => { y with st := .blocked (.lost x.2) })

/-- A wave whose stores are lost: the splits that wait for them at `.pod` or `.sys` trap (R347). DEDUCED (log 56). -/
def loseWave (ps : List Nat) (s : State) (at' : Nat × Nat) : State :=
  match s.wave? at'.1 at'.2 with
  | none => s
  | some w =>
    let hits := [false, true].filterMap fun k =>
      if (w.slot k).st == .empty then none else ((s.envAt at'.1 at'.2 k).bind (lostFor ps)).map fun va => (k, va)
    hits.foldl (fun s x => loseSplit s at'.1 at'.2 x) (s.setWave at'.1 at'.2 (w.loseStores ps))

/-- Packages to which no path remains (R347). -/
def losePkgs (s : State) (ps : List Nat) : State :=
  let ps := ps.filter fun p => p != Config.pkg && s.hub.podMap.contains p && !s.hub.dead.contains p
  if ps.isEmpty then s
  else
    let s := { s with hub := { s.hub with dead := s.hub.dead ++ ps } }
    let all := (s.gangs.zip (List.range s.gangs.length)).flatMap fun g => (List.range g.1.waves.length).map fun w => (g.2, w)
    all.foldl (loseWave ps) s

def execBexyarPortDown (port : Nat) (unreachable : List Nat) (s : State) : Out :=
  .next <|
    if port < portCount && !s.hub.ports.contains port && retriesOf s.hub port == 16 then
      let s := { s with hub := { s.hub with ports := port :: s.hub.ports } }
      losePkgs s (if s.hub.ports.length == portCount then s.hub.podMap else unreachable)
    else s

/-- After 10 ms without a package's report (R347). -/
def execPodReportTimeout (grid pkg : Nat) (s : State) : Out :=
  .next <|
    match s.grid? grid with
    | some r =>
      if r.root && r.started && s.hub.dead.contains pkg && r.pkgs.any fun p => p.pkg == pkg && !p.reported then
        (rootFault s r.id pkg (podFault pkg 3)).modGrid r.id fun r => modPkg r pkg fun x => { x with reported := true }
      else s
    | none => s

end Sys2Proof.Machine
end

