-- ==== Sys2Proof/Machine/Dispatch.lean ====
section
/-! DEFINITION. The meaning of every instruction: one arm per constructor, each one direct call. -/

namespace Sys2Proof.Machine

def exec (i : Instr) (s : State) : Host.Outcome State Fault Refusal :=
  match i with
  | .illegalWord w sub field half => Sys2Proof.Machine.execIllegalWord w sub field half s
  | .pairWord h0 h1 => Sys2Proof.Machine.execPairWord h0 h1 s
  | .fusedSoftmax g x m y sum => Sys2Proof.Machine.execFusedSoftmax g x m y sum s
  | .sadd uns nw d a b => Sys2Proof.Machine.execSadd uns nw d a b s
  | .ssub uns nw d a b => Sys2Proof.Machine.execSsub uns nw d a b s
  | .smul uns nw d a b => Sys2Proof.Machine.execSmul uns nw d a b s
  | .smulh uns nw d a b => Sys2Proof.Machine.execSmulh uns nw d a b s
  | .sdiv uns nw d a b => Sys2Proof.Machine.execSdiv uns nw d a b s
  | .srem uns nw d a b => Sys2Proof.Machine.execSrem uns nw d a b s
  | .smin uns nw d a b => Sys2Proof.Machine.execSmin uns nw d a b s
  | .smax uns nw d a b => Sys2Proof.Machine.execSmax uns nw d a b s
  | .sand uns nw d a b => Sys2Proof.Machine.execSand uns nw d a b s
  | .sor uns nw d a b => Sys2Proof.Machine.execSor uns nw d a b s
  | .sxor uns nw d a b => Sys2Proof.Machine.execSxor uns nw d a b s
  | .sandn uns nw d a b => Sys2Proof.Machine.execSandn uns nw d a b s
  | .sshl uns nw d a b => Sys2Proof.Machine.execSshl uns nw d a b s
  | .sshr uns nw d a b => Sys2Proof.Machine.execSshr uns nw d a b s
  | .srot uns nw d a b => Sys2Proof.Machine.execSrot uns nw d a b s
  | .smov nw d a => Sys2Proof.Machine.execSmov nw d a s
  | .smovi nw d imm => Sys2Proof.Machine.execSmovi nw d imm s
  | .smoviP d imm => Sys2Proof.Machine.execSmoviP d imm s
  | .scmp cc nw d a b => Sys2Proof.Machine.execScmp cc nw d a b s
  | .ssel nw d a b c => Sys2Proof.Machine.execSsel nw d a b c s
  | .sclz nw d a => Sys2Proof.Machine.execSclz nw d a s
  | .spopc nw d a => Sys2Proof.Machine.execSpopc nw d a s
  | .sbfx zx nw d a lo wm1 => Sys2Proof.Machine.execSbfx zx nw d a lo wm1 s
  | .sbfi nw d a b lo wm1 => Sys2Proof.Machine.execSbfi nw d a b lo wm1 s
  | .saddp d a b => Sys2Proof.Machine.execSaddp d a b s
  | .slea zx d a b sh => Sys2Proof.Machine.execSlea zx d a b sh s
  | .sleaPc d off => Sys2Proof.Machine.execSleaPc d off s
  | .sext m nw d a => Sys2Proof.Machine.execSext m nw d a s
  | .scvt m nw d a rm => Sys2Proof.Machine.execScvt m nw d a rm s
  | .sfadd nw d a b rm => Sys2Proof.Machine.execSfadd nw d a b rm s
  | .sfmul nw d a b rm => Sys2Proof.Machine.execSfmul nw d a b rm s
  | .smask nw op => Sys2Proof.Machine.execSmask nw op s
  | .scmpp cc nw d a b => Sys2Proof.Machine.execScmpp cc nw d a b s
  | .brv neg a join target => Sys2Proof.Machine.execBrv neg a join target s
  | .bra off => Sys2Proof.Machine.execBra off s
  | .call d off => Sys2Proof.Machine.execCall d off s
  | .callR d a => Sys2Proof.Machine.execCallR d a s
  | .ret a => Sys2Proof.Machine.execRet a s
  | .trap code => Sys2Proof.Machine.execTrap code s
  | .waitc c n => Sys2Proof.Machine.execWaitc c n s
  | .spawn d a => Sys2Proof.Machine.execSpawn d a s
  | .launch sc d a b q => Sys2Proof.Machine.execLaunch sc d a b q s
  | .cancel d a => Sys2Proof.Machine.execCancel d a s
  | .stepadv a => Sys2Proof.Machine.execStepadv a s
  | .brx a => Sys2Proof.Machine.execBrx a s
  | .vadd t nw d a b m => Sys2Proof.Machine.execVadd t nw d a b m s
  | .vsub t nw d a b m => Sys2Proof.Machine.execVsub t nw d a b m s
  | .vmul t nw d a b m => Sys2Proof.Machine.execVmul t nw d a b m s
  | .vmulh uns nw d a b => Sys2Proof.Machine.execVmulh uns nw d a b s
  | .vmad uns nw d a b c sat => Sys2Proof.Machine.execVmad uns nw d a b c sat s
  | .vmin t nw d a b => Sys2Proof.Machine.execVmin t nw d a b s
  | .vmax t nw d a b => Sys2Proof.Machine.execVmax t nw d a b s
  | .vabs t nw d b sat => Sys2Proof.Machine.execVabs t nw d b sat s
  | .vneg t nw d b sat => Sys2Proof.Machine.execVneg t nw d b sat s
  | .vand nw d a b => Sys2Proof.Machine.execVand nw d a b s
  | .vor nw d a b => Sys2Proof.Machine.execVor nw d a b s
  | .vxor nw d a b => Sys2Proof.Machine.execVxor nw d a b s
  | .vandn nw d a b => Sys2Proof.Machine.execVandn nw d a b s
  | .vshl uns nw d a b => Sys2Proof.Machine.execVshl uns nw d a b s
  | .vshr uns nw d a b => Sys2Proof.Machine.execVshr uns nw d a b s
  | .vrot nw d a b => Sys2Proof.Machine.execVrot nw d a b s
  | .vclz nw d b => Sys2Proof.Machine.execVclz nw d b s
  | .vpopc nw d b => Sys2Proof.Machine.execVpopc nw d b s
  | .vbfx zx nw d b lo wm1 => Sys2Proof.Machine.execVbfx zx nw d b lo wm1 s
  | .vbfi nw d a b lo wm1 => Sys2Proof.Machine.execVbfi nw d a b lo wm1 s
  | .vsel nw d a b c => Sys2Proof.Machine.execVsel nw d a b c s
  | .vcmp t cc d a b => Sys2Proof.Machine.execVcmp t cc d a b s
  | .vmov nw d b => Sys2Proof.Machine.execVmov nw d b s
  | .vmovi t nw d imm => Sys2Proof.Machine.execVmovi t nw d imm s
  | .vdot4 e nw d a b c m => Sys2Proof.Machine.execVdot4 e nw d a b c m s
  | .vsad uns nw d a b c sat => Sys2Proof.Machine.execVsad uns nw d a b c sat s
  | .vavg uns nw d a b => Sys2Proof.Machine.execVavg uns nw d a b s
  | .vdiv uns nw d a b => Sys2Proof.Machine.execVdiv uns nw d a b s
  | .vrem uns nw d a b => Sys2Proof.Machine.execVrem uns nw d a b s
  | .vaddc carry nw d a b c => Sys2Proof.Machine.execVaddc carry nw d a b c s
  | .vclmp t nw d a b c => Sys2Proof.Machine.execVclmp t nw d a b c s
  | .vfma t nw d a b c m => Sys2Proof.Machine.execVfma t nw d a b c m s
  | .vfms t nw d a b c m => Sys2Proof.Machine.execVfms t nw d a b c m s
  | .vfnma t nw d a b c m => Sys2Proof.Machine.execVfnma t nw d a b c m s
  | .vfdiv t nw d a b m => Sys2Proof.Machine.execVfdiv t nw d a b m s
  | .vsqrt t nw d b rm => Sys2Proof.Machine.execVsqrt t nw d b rm s
  | .vrint t nw d b rm => Sys2Proof.Machine.execVrint t nw d b rm s
  | .vfrac t nw d b rm => Sys2Proof.Machine.execVfrac t nw d b rm s
  | .vclass t nw d b => Sys2Proof.Machine.execVclass t nw d b s
  | .vsgnj t var nw d a b => Sys2Proof.Machine.execVsgnj t var nw d a b s
  | .vscale t nw d a b m => Sys2Proof.Machine.execVscale t nw d a b m s
  | .vexpo t nw d b => Sys2Proof.Machine.execVexpo t nw d b s
  | .vrmax t nw d a g => Sys2Proof.Machine.execVrmax t nw d a g s
  | .vrmin t nw d a g => Sys2Proof.Machine.execVrmin t nw d a g s
  | .vradd t nw d a g m => Sys2Proof.Machine.execVradd t nw d a g m s
  | .vdot2 t nw d a b c m => Sys2Proof.Machine.execVdot2 t nw d a b c m s
  | .vlerp t nw d a b c m => Sys2Proof.Machine.execVlerp t nw d a b c m s
  | .vcvt dt st nw d b m => Sys2Proof.Machine.execVcvt dt st nw d b m s
  | .vpack t nw d a b m => Sys2Proof.Machine.execVpack t nw d a b m s
  | .vunpk t nw d b => Sys2Proof.Machine.execVunpk t nw d b s
  | .vqnt q nw d a b m => Sys2Proof.Machine.execVqnt q nw d a b m s
  | .vdqnt q nw d a b rm => Sys2Proof.Machine.execVdqnt q nw d a b rm s
  | .vplane h nw d b => Sys2Proof.Machine.execVplane h nw d b s
  | .vunpl h nw d b => Sys2Proof.Machine.execVunpl h nw d b s
  | .vbscl q nw d b => Sys2Proof.Machine.execVbscl q nw d b s
  | .vrcp t nw d b => Sys2Proof.Machine.execVrcp t nw d b s
  | .vrsq t nw d b => Sys2Proof.Machine.execVrsq t nw d b s
  | .vexp2 t nw d b => Sys2Proof.Machine.execVexp2 t nw d b s
  | .vlog2 t nw d b => Sys2Proof.Machine.execVlog2 t nw d b s
  | .vsin t nw d b => Sys2Proof.Machine.execVsin t nw d b s
  | .vcos t nw d b => Sys2Proof.Machine.execVcos t nw d b s
  | .vtanh t nw d b => Sys2Proof.Machine.execVtanh t nw d b s
  | .verf t nw d b => Sys2Proof.Machine.execVerf t nw d b s
  | .vshfl beat nw d a b m => Sys2Proof.Machine.execVshfl beat nw d a b m s
  | .vbcast nw d a b g m => Sys2Proof.Machine.execVbcast nw d a b g m s
  | .vbcastI nw d a k g m => Sys2Proof.Machine.execVbcastI nw d a k g m s
  | .vbfly f nw d a j m => Sys2Proof.Machine.execVbfly f nw d a j m s
  | .vrotl nw d a b g m => Sys2Proof.Machine.execVrotl nw d a b g m s
  | .vvote op d a m => Sys2Proof.Machine.execVvote op d a m s
  | .vscan t op excl g x nw d a m => Sys2Proof.Machine.execVscan t op excl g x nw d a m s
  | .vrdc t op g x nw d a m => Sys2Proof.Machine.execVrdc t op g x nw d a m s
  | .vcprs g nw d a b m => Sys2Proof.Machine.execVcprs g nw d a b m s
  | .xvec n => Sys2Proof.Machine.execXvec n s
  | .vmatch nw d a m => Sys2Proof.Machine.execVmatch nw d a m s
  | .rng flt nw d => Sys2Proof.Machine.execRng flt nw d s
  | .vgumb nw d a b => Sys2Proof.Machine.execVgumb nw d a b s
  | .vsmpl g nw d a m => Sys2Proof.Machine.execVsmpl g nw d a m s
  | .vtopk t g nw d a b m => Sys2Proof.Machine.execVtopk t g nw d a b m s
  | .vbern t nw d a => Sys2Proof.Machine.execVbern t nw d a s
  | .vld t d a b im => Sys2Proof.Machine.execVld t d a b im s
  | .vst t d a b im => Sys2Proof.Machine.execVst t d a b im s
  | .vldp d a b im => Sys2Proof.Machine.execVldp d a b im s
  | .vstp d a b im => Sys2Proof.Machine.execVstp d a b im s
  | .sld t d a b im => Sys2Proof.Machine.execSld t d a b im s
  | .sst t d a b im => Sys2Proof.Machine.execSst t d a b im s
  | .vldu t d a b im => Sys2Proof.Machine.execVldu t d a b im s
  | .vpref llc a b im => Sys2Proof.Machine.execVpref llc a b im s
  | .vatom op d a b im => Sys2Proof.Machine.execVatom op d a b im s
  | .vcas d a b im => Sys2Proof.Machine.execVcas d a b im s
  | .vatomp op d a b im => Sys2Proof.Machine.execVatomp op d a b im s
  | .vcasp d a b im => Sys2Proof.Machine.execVcasp d a b im s
  | .satom op d a b im => Sys2Proof.Machine.execSatom op d a b im s
  | .scas d a b im => Sys2Proof.Machine.execScas d a b im s
  | .vapnd d a im => Sys2Proof.Machine.execVapnd d a im s
  | .vldw d a b im => Sys2Proof.Machine.execVldw d a b im s
  | .vstw d a b im => Sys2Proof.Machine.execVstw d a b im s
  | .dld d a b im => Sys2Proof.Machine.execDld d a b im s
  | .dadd d a b im => Sys2Proof.Machine.execDadd d a b im s
  | .daddA d a b im => Sys2Proof.Machine.execDaddA d a b im s
  | .smerge nw d a b => Sys2Proof.Machine.execSmerge nw d a b s
  | .dst d a b im => Sys2Proof.Machine.execDst d a b im s
  | .dstamp nw d a cls => Sys2Proof.Machine.execDstamp nw d a cls s
  | .fence scope cols => Sys2Proof.Machine.execFence scope cols s
  | .xfence scope f t => Sys2Proof.Machine.execXfence scope f t s
  | .bari d a im => Sys2Proof.Machine.execBari d a im s
  | .bara d a b im => Sys2Proof.Machine.execBara d a b im s
  | .barw a b im => Sys2Proof.Machine.execBarw a b im s
  | .bar a im => Sys2Proof.Machine.execBar a im s
  | .barq d a im => Sys2Proof.Machine.execBarq d a im s
  | .trgput d a im => Sys2Proof.Machine.execTrgput d a im s
  | .trgget d a im => Sys2Proof.Machine.execTrgget d a im s
  | .trgtry d a im => Sys2Proof.Machine.execTrgtry d a im s
  | .hpass a => Sys2Proof.Machine.execHpass a s
  | .ftest d a => Sys2Proof.Machine.execFtest d a s
  | .fwait d a im => Sys2Proof.Machine.execFwait d a im s
  | .fcancel a => Sys2Proof.Machine.execFcancel a s
  | .fsth d a im => Sys2Proof.Machine.execFsth d a im s
  | .copy d dsp ssp a b c disp => Sys2Proof.Machine.execCopy d dsp ssp a b c disp s
  | .copyt d b => Sys2Proof.Machine.execCopyt d b s
  | .binopen d b => Sys2Proof.Machine.execBinopen d b s
  | .binapp lbl d a b c => Sys2Proof.Machine.execBinapp lbl d a b c s
  | .binplay d b => Sys2Proof.Machine.execBinplay d b s
  | .xsect d b => Sys2Proof.Machine.execXsect d b s
  | .smergeu d b => Sys2Proof.Machine.execSmergeu d b s
  | .topk d b => Sys2Proof.Machine.execTopk d b s
  | .cvtcsr d b => Sys2Proof.Machine.execCvtcsr d b s
  | .cvtres d b => Sys2Proof.Machine.execCvtres d b s
  | .taskput d b => Sys2Proof.Machine.execTaskput d b s
  | .stsweep d b => Sys2Proof.Machine.execStsweep d b s
  | .rinv d b => Sys2Proof.Machine.execRinv d b s
  | .cmma z d b acc => Sys2Proof.Machine.execCmma z d b acc s
  | .cmmas p z d b acc => Sys2Proof.Machine.execCmmas p z d b acc s
  | .cstore d b acc => Sys2Proof.Machine.execCstore d b acc s
  | .cload d b acc => Sys2Proof.Machine.execCload d b acc s
  | .czero d acc => Sys2Proof.Machine.execCzero d acc s
  | .cmova add d dst src => Sys2Proof.Machine.execCmova add d dst src s
  | .cspec nw d v0 b0 v1 b1 => Sys2Proof.Machine.execCspec nw d v0 b0 v1 b1 s
  | .cresolve a => Sys2Proof.Machine.execCresolve a s
  | .relld d b slot => Sys2Proof.Machine.execRelld d b slot s
  | .lblsum d b slot n => Sys2Proof.Machine.execLblsum d b slot n s
  | .draft nw d a b c sh => Sys2Proof.Machine.execDraft nw d a b c sh s
  | .accept d a => Sys2Proof.Machine.execAccept d a s
  | .crdv nw d b acc => Sys2Proof.Machine.execCrdv nw d b acc s
  | .cwrv d b acc => Sys2Proof.Machine.execCwrv d b acc s
  | .cscale d a b acc rm => Sys2Proof.Machine.execCscale d a b acc rm s
  | .cepi relu d a acc => Sys2Proof.Machine.execCepi relu d a acc s
  | .lblld d a b im => Sys2Proof.Machine.execLblld d a b im s
  | .lblldAdm d b row => Sys2Proof.Machine.execLblldAdm d b row s
  | .lblst d a b im => Sys2Proof.Machine.execLblst d a b im s
  | .cquery nw d => Sys2Proof.Machine.execCquery nw d s
  | .mfs nw d x => Sys2Proof.Machine.execMfs nw d x s
  | .mts x a => Sys2Proof.Machine.execMts x a s
  | .hayfill d b => Sys2Proof.Machine.execHayfill d b s
  | .tlbinv sc d a b c => Sys2Proof.Machine.execTlbinv sc d a b c s
  | .icinv pkg d a b => Sys2Proof.Machine.execIcinv pkg d a b s
  | .clkrdTime d => Sys2Proof.Machine.execClkrdTime d s
  | .clkrdCyc d => Sys2Proof.Machine.execClkrdCyc d s
  | .perfrd d b => Sys2Proof.Machine.execPerfrd d b s
  | .perfcfg a b => Sys2Proof.Machine.execPerfcfg a b s
  | .ctxsave pkg d b => Sys2Proof.Machine.execCtxsave pkg d b s
  | .ctxload pkg d b => Sys2Proof.Machine.execCtxload pkg d b s
  | .shtblSet d a => Sys2Proof.Machine.execShtblSet d a s
  | .shtblFlush pkg d => Sys2Proof.Machine.execShtblFlush pkg d s
  | .fltresOk a b => Sys2Proof.Machine.execFltresOk a b s
  | .fltresDeny a b => Sys2Proof.Machine.execFltresDeny a b s
  | .idlew d a b => Sys2Proof.Machine.execIdlew d a b s
  | .engineOpEnd gang op => Sys2Proof.Machine.execEngineOpEnd gang op s
  | .opCancelStop gang op units => Sys2Proof.Machine.execOpCancelStop gang op units s
  | .churnEntryExecute gang => Sys2Proof.Machine.execChurnEntryExecute gang s
  | .churnEntryEnd gang => Sys2Proof.Machine.execChurnEntryEnd gang s
  | .systemOperationEnd gang op => Sys2Proof.Machine.execSystemOperationEnd gang op s
  | .loadWriteback gang wave op lanes stale => Sys2Proof.Machine.execLoadWriteback gang wave op lanes stale s
  | .storePerformed gang wave op => Sys2Proof.Machine.execStorePerformed gang wave op s
  | .launchAccept ctx queue => Sys2Proof.Machine.execLaunchAccept ctx queue s
  | .chunkDeal grid die => Sys2Proof.Machine.execChunkDeal grid die s
  | .gangPlace grid die byre => Sys2Proof.Machine.execGangPlace grid die byre s
  | .gangRestore gang byre => Sys2Proof.Machine.execGangRestore gang byre s
  | .gangComplete gang => Sys2Proof.Machine.execGangComplete gang s
  | .gridComplete grid => Sys2Proof.Machine.execGridComplete grid s
  | .preemptSave gang units => Sys2Proof.Machine.execPreemptSave gang units s
  | .taskFinish die task => Sys2Proof.Machine.execTaskFinish die task s
  | .siloRefill gang trough => Sys2Proof.Machine.execSiloRefill gang trough s
  | .faultRequestPost req => Sys2Proof.Machine.execFaultRequestPost req s
  | .faultServiceDispatch die => Sys2Proof.Machine.execFaultServiceDispatch die s
  | .rootBroadcast grid => Sys2Proof.Machine.execRootBroadcast grid s
  | .gridMessage msg => Sys2Proof.Machine.execGridMessage msg s
  | .podChunkRequest grid pkg => Sys2Proof.Machine.execPodChunkRequest grid pkg s
  | .podChunk msg => Sys2Proof.Machine.execPodChunk msg s
  | .endOfDeal msg => Sys2Proof.Machine.execEndOfDeal msg s
  | .packageReport grid pkg doneg cancg errg faults => Sys2Proof.Machine.execPackageReport grid pkg doneg cancg errg faults s
  | .groupReport grid group => Sys2Proof.Machine.execGroupReport grid group s
  | .podFaultReport msg => Sys2Proof.Machine.execPodFaultReport msg s
  | .podCancelRequest msg => Sys2Proof.Machine.execPodCancelRequest msg s
  | .idlewDeadline gang wave slot => Sys2Proof.Machine.execIdlewDeadline gang wave slot s
  | .clockRestore die => Sys2Proof.Machine.execClockRestore die s
  | .tlbHitCounterWrap byre entry => Sys2Proof.Machine.execTlbHitCounterWrap byre entry s
  | .join => Sys2Proof.Machine.execJoin s
  | .exit => Sys2Proof.Machine.execExit s
  | .eret => Sys2Proof.Machine.execEret s
  | .eretNext => Sys2Proof.Machine.execEretNext s
  | .yield => Sys2Proof.Machine.execYield s
  | .nop => Sys2Proof.Machine.execNop s
  | .htake => Sys2Proof.Machine.execHtake s
  | .schedulerPreempt die gang => Sys2Proof.Machine.execSchedulerPreempt die gang s
  | .stageReassign gang wave stage => Sys2Proof.Machine.execStageReassign gang wave stage s
  | .bringUp what podMap => Sys2Proof.Machine.execBringUp what podMap s
  | .create cmd => Sys2Proof.Machine.execCreate cmd s
  | .startSteward cmd => Sys2Proof.Machine.execStartSteward cmd s
  | .destroy cmd => Sys2Proof.Machine.execDestroy cmd s
  | .attest cmd => Sys2Proof.Machine.execAttest cmd s
  | .hstatWrite v => Sys2Proof.Machine.execHstatWrite v s
  | .pcapWrite v => Sys2Proof.Machine.execPcapWrite v s
  | .hubRegisterWrite off v => Sys2Proof.Machine.execHubRegisterWrite off v s
  | .hostRead addr len => Sys2Proof.Machine.execHostRead addr len s
  | .hostWrite addr bytes => Sys2Proof.Machine.execHostWrite addr bytes s
  | .supplySag die => Sys2Proof.Machine.execSupplySag die s
  | .supplyRecovery die => Sys2Proof.Machine.execSupplyRecovery die s
  | .thermalThrottle die => Sys2Proof.Machine.execThermalThrottle die s
  | .powerCapThrottle => Sys2Proof.Machine.execPowerCapThrottle s
  | .thermalShutdown => Sys2Proof.Machine.execThermalShutdown s
  | .thermalShutdownExit => Sys2Proof.Machine.execThermalShutdownExit s
  | .monitorRefresh n value => Sys2Proof.Machine.execMonitorRefresh n value s
  | .scratchpadScrub gang word => Sys2Proof.Machine.execScratchpadScrub gang word s
  | .patrolScrub granule => Sys2Proof.Machine.execPatrolScrub granule s
  | .hayloftRefresh die => Sys2Proof.Machine.execHayloftRefresh die s
  | .bexyarFlitRetry retry => Sys2Proof.Machine.execBexyarFlitRetry retry s
  | .bexyarPortDown port unreachable => Sys2Proof.Machine.execBexyarPortDown port unreachable s
  | .podReportTimeout grid pkg => Sys2Proof.Machine.execPodReportTimeout grid pkg s
  | .launchPortCommandEnd => Sys2Proof.Machine.execLaunchPortCommandEnd s
  | .launchPortReject cmd => Sys2Proof.Machine.execLaunchPortReject cmd s
  | .memoryBitError site uncorrectable => Sys2Proof.Machine.execMemoryBitError site uncorrectable s
  | .throttleRecovery die => Sys2Proof.Machine.execThrottleRecovery die s

end Sys2Proof.Machine
end

