-- ==== Sys2Proof/Machine/Events.lean ====
section
/-! DEFINITION. The device's own steps: which rows of the table are events, and the fixed order in which pending steps of the
device run when `agenda` names nothing. -/

namespace Sys2Proof.Machine

/-- Rows that are fetched words are no events. -/
def isEvent (i : Instr) : Bool :=
  match i with
  | .engineOpEnd .. | .opCancelStop .. | .churnEntryExecute .. | .churnEntryEnd .. | .systemOperationEnd .. => true
  | .loadWriteback .. | .storePerformed .. | .launchAccept .. | .chunkDeal .. | .gangPlace .. | .gangRestore .. => true
  | .gangComplete .. | .gridComplete .. | .preemptSave .. | .taskFinish .. | .siloRefill .. | .faultRequestPost .. => true
  | .faultServiceDispatch .. | .rootBroadcast .. | .gridMessage .. | .podChunkRequest .. | .podChunk .. => true
  | .endOfDeal .. | .packageReport .. | .groupReport .. | .podFaultReport .. | .podCancelRequest .. => true
  | .schedulerPreempt .. | .stageReassign .. | .idlewDeadline .. | .bringUp .. | .create .. | .startSteward .. => true
  | .destroy .. | .attest .. | .hstatWrite .. | .pcapWrite .. | .hubRegisterWrite .. | .hostRead .. | .hostWrite .. => true
  | .supplySag .. | .supplyRecovery .. | .clockRestore .. | .thermalThrottle .. | .powerCapThrottle => true
  | .thermalShutdown | .thermalShutdownExit | .monitorRefresh .. | .scratchpadScrub .. | .patrolScrub .. => true
  | .hayloftRefresh .. | .tlbHitCounterWrap .. | .bexyarFlitRetry .. | .bexyarPortDown .. | .podReportTimeout .. => true
  | .launchPortCommandEnd | .launchPortReject .. | .memoryBitError .. | .throttleRecovery .. => true
  | _ => false

/-- The first step that some enumeration offers. -/
def firstOf {α : Type} (f : α → Option Instr) : List α → Option Instr
  | [] => none
  | x :: xs =>
    match f x with
    | some i => some i
    | none => firstOf f xs

/-- The oldest outstanding operation of a wave that may be performed. -/
def waveEvent (gang : Nat) (w : Wave) : Option Instr :=
  firstOf (fun o =>
    if isStoreKind o.kind then
      if o.ctr == .st && !o.accepted then some (.storePerformed gang w.idx o.id)
      else if w.mayPerform o then some (.storePerformed gang w.idx o.id) else none
    else if w.mayPerform o then some (.loadWriteback gang w.idx o.id allLanes false) else none) w.ops

/-- Operations and entries of a gang that can go on. -/
def opEvent (s : State) (g : Gang) (o : EngOp) : Option Instr :=
  if !isEngine o then (if sysMoves s g o then some (.systemOperationEnd g.id o.id) else none)
  else if !g.opRuns o then none
  else if canStop o then some (.opCancelStop g.id o.id 0)
  else if !opFree o || (binWaits g o && o.out.isNone) then none
  else if isTaskput o && o.out.isNone && ((s.die? g.die).map putCount).getD 0 == 4096 then none
  else some (.engineOpEnd g.id o.id)

def churnEvent (g : Gang) : Option Instr :=
  match g.entryDue, g.entryDone with
  | some q, _ => if q.cancel || q.waits.isEmpty then some (.churnEntryExecute g.id) else none
  | _, some (q, _) => if q.waits.isEmpty then some (.churnEntryEnd g.id) else none
  | _, _ => none

/-- The next step of a gang's units. -/
def gangEvent (s : State) (g : Gang) : Option Instr :=
  if g.st == .gone then none
  else if g.canSave && (s.ctx? g.ctx).isSome then some (.preemptSave g.id 0)
  else if g.finished then some (.gangComplete g.id)
  else
    match firstOf (waveEvent g.id) g.waves, churnEvent g, firstOf (opEvent s g) g.eops with
    | some i, _, _ => some i
    | none, some i, _ => some i
    | none, none, some i => some i
    | none, none, none =>
      (List.range g.troughs.length).find? (refills s g) |>.map fun t => .siloRefill g.id t

/-- Fault requests that can be posted. -/
def reqEvent (s : State) (r : FReq) : Option Instr := if canPost s r then some (.faultRequestPost r.id) else none

/-- A placement on a die: a saved gang first. -/
def placeEvent (s : State) (die : Nat) : Option Instr :=
  if s.hub.thsd then none
  else
    let saved := (restorable s die).filter fun g => !outranked s die g.prio true
    let place (r : Grid) : Option Instr :=
      match r.nextOn die, fitsDie s die (recFoot r.bytes) with
      | some _, some b =>
        if outranked s die r.prio false || (s.ctx? r.ctx).isNone then none else some (.gangPlace r.id die b)
      | _, _ => none
    match saved with
    | g :: _ => (fitsDie s die g.foot).map fun b => .gangRestore g.id b
    | [] => firstOf place s.grids

/-- The next step of a die's fault service, Stockyard and scheduler. -/
def dieEvent (s : State) (die : Nat) : Option Instr :=
  match s.die? die with
  | none => none
  | some d =>
    if !s.hub.thsd && s.hasService die && (nextReq s die).isSome then some (.faultServiceDispatch die)
    else if d.recover then some (.clockRestore die)
    else
      match d.tasks.find? (Task.due s), dealPick s die with
      | some t, _ => some (.taskFinish die t.key)
      | none, some r => some (.chunkDeal r.id die)
      | none, none => placeEvent s die

/-- Requests at the heads of a context's queues. -/
def acceptEvent (s : State) (c : Ctx) : Option Instr :=
  ((List.range 8).find? fun q => (acceptHead s c.id q).isSome).map fun q => .launchAccept c.id q

/-- The next step of a grid as a whole. -/
def gridEvent (s : State) (r : Grid) : Option Instr :=
  if s.gridDone r && r.waits.isEmpty then some (.gridComplete r.id)
  else if r.scope != .pod then none
  else if r.root && !r.started && !r.over && !s.hub.thsd && rootEligible s r then some (.rootBroadcast r.id)
  else if !(r.over || !r.started || 320 ≤ r.heldHere || chunkComing s r.num)
      && (if r.root then r.next != r.total else !r.told Config.pkg) then some (.podChunkRequest r.id Config.pkg)
  else if mayReport s r then some (.packageReport r.id Config.pkg 0 0 0 0)
  else if groupReady s r (Config.pkg / 16) then some (.groupReport r.id (Config.pkg / 16))
  else none

/-- Message `i`, if it can be taken. -/
def msgEvent (s : State) (i : Nat) : Option Instr :=
  match s.msgs[i]? with
  | some (.grid _ num ..) => if inOrder s i && !s.msgWaits num then some (.gridMessage (.here i)) else none
  | some (.chunk ..) => if inOrder s i then some (.podChunk (.here i)) else none
  | some (.endDeal ..) => if inOrder s i then some (.endOfDeal (.here i)) else none
  | some (.fault ..) => some (.podFaultReport (.here i))
  | some (.cancel ..) => some (.podCancelRequest (.here i))
  | _ => none

/-- A hit counter that has wrapped. -/
def tlbEvent (s : State) : Option Instr :=
  firstOf (fun (t : TlbEnt) =>
    if 256 ≤ t.hits then
      (findIdx (fun x => x == t) (s.tlb.filter fun x => x.byre == t.byre)).map fun n => .tlbHitCounterWrap t.byre n
    else none) s.tlb

/-- The first that some unit offers. -/
def orElse (a : Option Instr) (b : Unit → Option Instr) : Option Instr :=
  match a with
  | some i => some i
  | none => b ()

/-- The next step of the device by itself. DESIGN CHOICE (logs 18, 19). -/
def nextEvent (s : State) : Option Instr :=
  orElse (firstOf (gangEvent s) s.gangs) fun _ =>
  orElse (firstOf (reqEvent s) s.reqs) fun _ =>
  orElse (firstOf (dieEvent s) (List.range s.dies.length)) fun _ =>
  orElse (firstOf (acceptEvent s) s.ctxs) fun _ =>
  orElse (firstOf (gridEvent s) s.grids) fun _ =>
  orElse (firstOf (msgEvent s) (List.range s.msgs.length)) fun _ =>
  orElse (tlbEvent s) fun _ => if lpDone s then some .launchPortCommandEnd else none

/-- When nothing else moves, time passes until a deadline (R319). -/
def idleEvent (s : State) : Option Instr :=
  firstOf (fun g => firstOf (fun w =>
    match w.slot0.idles, w.slot1.idles with
    | some _, _ => some (.idlewDeadline g.id w.idx false)
    | none, some _ => some (.idlewDeadline g.id w.idx true)
    | none, none => none) g.waves) s.gangs

end Sys2Proof.Machine
end

