-- ==== Sys2Proof/Machine/Step.lean ====
section
/-! DEFINITION. One step of the machine: the next entry of `agenda`, else the device's own pending step, else the next word
in the issue order of R334; and where a program's word is placed. -/

namespace Sys2Proof.Machine

/-- Issue one word of a split. -/
def issueWord (s : State) (who : Cur) (stale : Bool) : Out :=
  match prepare s who stale with
  | .done t => .next t
  | .run i t =>
    match exec i t with
    | .next u => .next (finishIssue s u who i)
    | .fault f => .fault f
    | .refused r => .refused r

/-- One step. -/
def step (s : State) : Host.Outcome State Fault Refusal :=
  match s.agenda with
  | .event i :: rest => if isEvent i then exec i { s with agenda := rest } else .next { s with agenda := rest }
  | .issue who stale :: rest => issueWord { s with agenda := rest } who stale
  | [] =>
    match nextEvent s with
    | some i => exec i s
    | none =>
      match pick s with
      | some who => issueWord s who false
      | none =>
        match idleEvent s with
        | some i => exec i s
        | none => .next s

/-- The split that issues next, with the key of its PC, where its word can be fetched. -/
def State.fetchAt (s : State) : Option (Cur × Nat) :=
  match pick s with
  | none => none
  | some who =>
    match s.gang? who.gang with
    | none => none
    | some g =>
      match g.wave? who.wave with
      | none => none
      | some w =>
        match translate s g (fetchWant g w) (w.slot who.slot).pc.toNat 8 with
        | .ok k => some (who, k)
        | _ => none

/-- A place for one program: a privileged one-wave gang with every footprint resource whose code page is an extent.
DESIGN CHOICE (log 17). -/
def placedGang (id : Nat) : Gang :=
  { blankGang id 0 0 with
    vcount := 128, spadLen := 2 ^ 20, churn := true, priv := true
    waves := [startWave 0 0 0 128 0 0x10000 0x4000 0 0]
    ch := startChurn true
    exts := [⟨0x10000, 0x10000, 0x10000, true, false, true, false, none⟩] }

/-- The context of that gang, where there is none: its handler lies at 0x10800. DESIGN CHOICE (log 17). -/
def placedCtx : Ctx :=
  ⟨0, 0, 0x10800, 0, 0, [], 0, 0, List.replicate 16 0, 0, true, (List.range 8).map fun q => ⟨[], [], 0, q⟩, 0⟩

/-- The bytes of a table word, stored at a place. -/
def placeWord (s : State) (key nbits w : Nat) : State :=
  { s with mem := s.mem.write key (natLe 8 (w % 2 ^ nbits)), memBad := clearBad s.memBad (key / 8) }

/-- The state in which the next step fetches and runs the instruction whose bits are `w`: its word is stored at the PC of
the split that issues next; where none can issue, the word comes with a gang that a launch would have placed. -/
def State.withFetchWord (s : State) (nbits w : Nat) : State :=
  match s.fetchAt with
  | some (who, k) => { placeWord s k nbits w with agenda := [.issue who false] }
  | none =>
    { placeWord s 0x10000 nbits w with
      ctxs := if (s.ctx? 0).isNone then s.ctxs ++ [placedCtx] else s.ctxs
      gangs := s.gangs ++ [placedGang s.ids]
      ids := s.ids + 1
      agenda := [.issue ⟨s.gangs.length, 0, false⟩ false] }

end Sys2Proof.Machine
end

