-- ==== Sys2Proof/Safety.lean ====
section
/-! DEFINITION. What a safe run is: the machine goes on, with its memories in canonical form. -/

namespace Sys2Proof.Machine

/-- All memories of a state are in canonical form. -/
def State.memOk (s : State) : Bool := s.mem.wf && s.gangs.all fun g => g.spad.wf

/-- A step that neither faults nor is refused. -/
def goesOn (s : State) : Prop := ∃ t, step s = .next t

end Sys2Proof.Machine
end

