-- ==== Sys2Proof/Certificates/Slice0/Obligations.lean ====
section
/-! DEFINITION. The statements for the provers. Each docstring names the rules of the manual that its statement rests on; where
a clause is the model's choice, the docstring says so and names the log entry. Statements about words speak of the issuing
split `e` of a state, of which `e.s = s`: `Claims.Issues i s e`. -/

namespace Sys2Proof.Claims

open Sys2Proof.Machine

/-! ## Vocabulary -/

/-- `e` is the issuing split of `s`, about to run instruction `i`. -/
def Issues (i : Instr) (s : State) (e : Env) : Prop := s.env? ((encode i).getD 0) = some e

/-- All of these checks pass. -/
def Passes (cs : List (Chk Unit)) : Prop := ∀ c ∈ cs, c = .ok ()

/-- The latch window after one word that leaves `x` (R20). -/
def shifted (w : Wave) (x : LatchVal) (nw : Bool) : List Latch := ⟨x, nw, false⟩ :: w.latches.take 7

/-- A wave whose slot `k` has its word behind it: PC + 8, Ready; nothing else differs. -/
def onward (w : Wave) (k : Bool) : Wave :=
  if k then { w with slot1 := { w.slot1 with pc := w.slot1.pc + 8, st := .ready } }
  else { w with slot0 := { w.slot0 with pc := w.slot0.pc + 8, st := .ready } }

/-- The wave after a word without destination (R101): the split is past it, one untagged latch entry. -/
def passed (e : Env) : Wave := { onward e.w e.k with latches := shifted e.w .untagged false }

/-- The wave with slot `k` at `pc`, Ready, after a word without destination. -/
def movedTo (e : Env) (pc : D) : Wave :=
  if e.k then { e.w with latches := shifted e.w .untagged false, slot1 := { e.w.slot1 with pc := pc, st := .ready } }
  else { e.w with latches := shifted e.w .untagged false, slot0 := { e.w.slot0 with pc := pc, st := .ready } }

/-- The machine with wave `w` in the issuing wave's place. Where the word has written the mask views, the lanes it removed
from ACT are dealt with as R22 says (`MaskViews`). -/
def landed (s : State) (e : Env) (w : Wave) : State := afterMask (s.setWave e.gi e.wi w) e.gi e.wi e.k e.act

/-- The words of the vector rows whose results are one vector register (R118, R146): each with its data. -/
def vecOf : Instr → Option VecWord
  | .vadd t nw d a b m => some (wVadd t nw d a b m)
  | .vsub t nw d a b m => some (wVsub t nw d a b m)
  | .vmul t nw d a b m => some (wVmul t nw d a b m)
  | .vmulh u nw d a b => some (wVmulh u nw d a b)
  | .vmad u nw d a b c sat => some (wVmad u nw d a b c sat)
  | .vmin t nw d a b => some (wVmin t nw d a b)
  | .vmax t nw d a b => some (wVmax t nw d a b)
  | .vabs t nw d b sat => some (wVabs t nw d b sat)
  | .vneg t nw d b sat => some (wVneg t nw d b sat)
  | .vand nw d a b => some (wVand nw d a b)
  | .vor nw d a b => some (wVor nw d a b)
  | .vxor nw d a b => some (wVxor nw d a b)
  | .vandn nw d a b => some (wVandn nw d a b)
  | .vshl u nw d a b => some (wVshl u nw d a b)
  | .vshr u nw d a b => some (wVshr u nw d a b)
  | .vrot nw d a b => some (wVrot nw d a b)
  | .vclz nw d b => some (wVclz nw d b)
  | .vpopc nw d b => some (wVpopc nw d b)
  | .vbfx z nw d b lo wm1 => some (wVbfx z nw d b lo wm1)
  | .vbfi nw d a b lo wm1 => some (wVbfi nw d a b lo wm1)
  | .vmov nw d b => some (wVmov nw d b)
  | .vmovi t nw d imm => some (wVmovi t nw d imm)
  | .vavg u nw d a b => some (wVavg u nw d a b)
  | .vdiv u nw d a b => some (wVdiv u nw d a b)
  | .vrem u nw d a b => some (wVrem u nw d a b)
  | .vaddc c nw d a b x => some (wVaddc c nw d a b x)
  | .vclmp t nw d a b c => some (wVclmp t nw d a b c)
  | .vclass t nw d b => some (wVclass t nw d b)
  | .vsgnj t v nw d a b => some (wVsgnj t v nw d a b)
  | .vsel nw d a b c => some (wVsel nw d a b c)
  | .vcprs g nw d a c m => some (wVcprs g nw d a c m)
  | .vexpo t nw d b => some (wVexpo t nw d b)
  | .vfma t nw d a b c m => some (wVfma t nw d a b c m)
  | .vfms t nw d a b c m => some (wVfms t nw d a b c m)
  | .vfnma t nw d a b c m => some (wVfnma t nw d a b c m)
  | .vfdiv t nw d a b m => some (wVfdiv t nw d a b m)
  | .vsqrt t nw d b rm => some (wVsqrt t nw d b rm)
  | .vrint t nw d b rm => some (wVrint t nw d b rm)
  | .vfrac t nw d b rm => some (wVfrac t nw d b rm)
  | .vscale t nw d a b m => some (wVscale t nw d a b m)
  | .vlerp t nw d a b c m => some (wVlerp t nw d a b c m)
  | .vrmax t nw d a g => some (wVrmax t nw d a g)
  | .vrmin t nw d a g => some (wVrmin t nw d a g)
  | .vradd t nw d a g m => some (wVradd t nw d a g m)
  | .vdot4 e nw d a b c m => some (wVdot4 e nw d a b c m)
  | .vdot2 t nw d a b c m => some (wVdot2 t nw d a b c m)
  | .vsad u nw d a b c sat => some (wVsad u nw d a b c sat)
  | .vrcp t nw d b => some (wVrcp t nw d b)
  | .vrsq t nw d b => some (wVrsq t nw d b)
  | .vexp2 t nw d b => some (wVexp2 t nw d b)
  | .vlog2 t nw d b => some (wVlog2 t nw d b)
  | .vsin t nw d b => some (wVsin t nw d b)
  | .vcos t nw d b => some (wVcos t nw d b)
  | .vtanh t nw d b => some (wVtanh t nw d b)
  | .verf t nw d b => some (wVerf t nw d b)
  | .vcvt dt st nw d b m => some (wVcvt dt st nw d b m)
  | .vpack t nw d a b m => some (wVpack t nw d a b m)
  | .vunpk t nw d b => some (wVunpk t nw d b)
  | .vqnt q nw d a b m => some (wVqnt q nw d a b m)
  | .vdqnt q nw d a b rm => some (wVdqnt q nw d a b rm)
  | .vplane h nw d b => some (wVplane h nw d b)
  | .vunpl h nw d b => some (wVunpl h nw d b)
  | .vbscl q nw d b => some (wVbscl q nw d b)
  | .vshfl beat nw d a b m => some (wVshfl beat nw d a b m)
  | .vbcast nw d a b g m => some (wVbcast nw d a b g m)
  | .vbcastI nw d a k g m => some (wVbcastI nw d a k g m)
  | .vrotl nw d a b g m => some (wVrotl nw d a b g m)
  | .vbfly f nw d a j m => some (wVbfly f nw d a j m)
  | .vmatch nw d a m => some (wVmatch nw d a m)
  | .vscan t op excl g x nw d a m => some (wVscan t op excl g x nw d a m)
  | .vrdc t op g x nw d a m => some (wVrdc t op g x nw d a m)
  | .rng flt nw d => some (wRng flt nw d)
  | .vgumb nw d a b => some (wVgumb nw d a b)
  | .vbern t nw d a => some (wVbern t nw d a)
  | .vsmpl g nw d a m => some (wVsmpl g nw d a m)
  | .vtopk t g nw d a b m => some (wVtopk t g nw d a b m)
  | _ => none

/-- The words of the scalar rows (R97-R100), but for division and `SMOV`: each with its data. -/
def sclOf : Instr → Option SclWord
  | .sadd _ nw d a b => some (aluWord nw d a b fun x y => x + y)
  | .ssub _ nw d a b => some (aluWord nw d a b fun x y => x - y)
  | .smul _ nw d a b => some (aluWord nw d a b fun x y => x * y)
  | .smulh u nw d a b => some (aluWord nw d a b (mulHigh u))
  | .smin u nw d a b => some (aluWord nw d a b (minWord u))
  | .smax u nw d a b => some (aluWord nw d a b (maxWord u))
  | .sand _ nw d a b => some (aluWord nw d a b fun x y => x &&& y)
  | .sor _ nw d a b => some (aluWord nw d a b fun x y => x ||| y)
  | .sxor _ nw d a b => some (aluWord nw d a b fun x y => x ^^^ y)
  | .sandn _ nw d a b => some (aluWord nw d a b fun x y => x &&& ~~~y)
  | .sshl _ nw d a b => some (aluWord nw d a b shlWord)
  | .sshr u nw d a b => some (aluWord nw d a b (shrWord u))
  | .srot _ nw d a b => some (aluWord nw d a b rotWord)
  | .smovi nw d imm => some (.plain d nw [] fun _ => (imm, 0))
  | .smoviP d imm => some (pairWordOf d [] [] fun _ _ => imm.signExtend 64)
  | .scmp c nw d a b => some (scl2 d nw a b fun x y => if scond c 32 x.toNat y.toNat then 1 else 0)
  | .ssel nw d a b c => some (.plain d nw [(7, a, .s32), (8, b, .s32), (9, c, .s32)] fun xs =>
      match xs with
      | [x, y, z] => (if z != 0 then x else y, 0)
      | _ => (0, 0))
  | .sclz nw d a => some (scl1 d nw a fun x => BitVec.ofNat 32 (clz32 x))
  | .spopc nw d a => some (scl1 d nw a fun x => BitVec.ofNat 32 (popCount 32 x.toNat))
  | .sbfx z nw d a lo wm1 => some (scl1 d nw a fun x => extractField z x lo wm1)
  | .sbfi nw d a b lo wm1 => some (scl2 d nw a b fun x y => insertField x y lo wm1)
  | .saddp d a (.pair b) => some (pairWordOf d [] [(7, a), (8, b)] fun _ ps => pair0 ps + pair1 ps)
  | .saddp d a (.sext b) => some (pairWordOf d [(8, b, .s32)] [(7, a)] fun xs ps => pair0 ps + (word0 xs).signExtend 64)
  | .saddp d a (.imm x) => some (pairWordOf d [] [(7, a)] fun _ ps => pair0 ps + x.signExtend 64)
  | .slea z d a b sh => some (pairWordOf d [(8, b, .s32)] [(7, a)] fun xs ps =>
      pair0 ps + ((if z then (word0 xs).setWidth 64 else (word0 xs).signExtend 64) <<< sh.toNat))
  | .sext m nw d a => some (if m.wide then pairWordOf d [(7, a, .s32)] [] fun xs _ => extVal m (word0 xs)
      else scl1 d nw a fun x => lo32 (extVal m x))
  | .scvt m nw d a rm => some (.plain d nw [(7, a, if m == 0 then .s32 else if m == 1 then .u32 else .f32)]
      fun xs => scvtVal m rm (word0 xs))
  | .sfadd nw d a b rm => some (sfWord d nw a b rm (exAdd rm))
  | .sfmul nw d a b rm => some (sfWord d nw a b rm exMul)
  | .smask nw op => some (smaskWord nw op)
  | .scmpp c nw d a b => some
      ⟨d, nw, [], [(7, a), (8, b)], [], Src.gs, 1, false, false, false,
        fun _ ps _ _ => ([if scond c 64 (pair0 ps).toNat (pair1 ps).toNat then 1 else 0], 0)⟩
  | _ => none

/-- The data of a division (R97). -/
def divOf : Instr → Option (SclWord × Src × Alu2)
  | .sdiv u nw d a b => some ({ aluWord nw d a b (divWord u) with div := true }, a, b)
  | .srem u nw d a b => some ({ aluWord nw d a b (remWord u) with div := true }, a, b)
  | _ => none

/-- The wave after a scalar word that writes results `r` (R20, R22, R58, R89, R161). -/
def afterScl (e : Env) (v : SclWord) (r : List W × Flags) (bad : Bool) : Wave :=
  let w : Wave := { e.w with flags := e.w.flags ||| r.2, rngctr := if v.draw then e.w.rngctr + 1 else e.w.rngctr }
  let w2 := w.setSregs e.k v.d.toNat r.1 bad
  { onward (if v.nw then w else w2) e.k with
    latches := shifted e.w (.scl v.d (w2.sreg e.k v.d.toNat) bad) v.nw }

end Sys2Proof.Claims

open Sys2Proof Sys2Proof.Machine Sys2Proof.Claims

/-! ## Words that write a vector register -/

/-- A word of the vector rows whose checks pass (R306) and which raises no enabled flag writes, in the lanes of ACT, its
results and their poison into `D`, unless `NW` is 1; leaves them in `l0`; adds its flags; takes one counter step if it draws;
sets MABS if an exited lane is in its member set; and the split goes on. Nothing else of the machine changes. `VSEL` and
`VCPRS` read a mask triple beside their sources (R128, R145). -/
def Obligations.VectorWordCompletes : Prop :=
  ∀ (i : Instr) (v : VecWord) (s : State) (e : Env) (x : VecIn),
    vecOf i = some v → Issues i s e → vecCheck e v = .ok x → fpLanes e.w.fpen (v.eval x) = 0 →
    let rs := v.eval x
    let r := mergeReg (e.w.vreg v.d.toNat) e.act (rs.map (·.val)) (badLanes rs)
    Machine.exec i s = .next (s.setWave e.gi e.wi
      { onward e.w e.k with
        vregs := if v.nw then e.w.vregs else setAt e.w.vregs v.d.toNat r
        latches := shifted e.w (.vec v.d r) v.nw
        flags := e.w.flags ||| allFlags rs
        mabs := e.w.mabs || (v.memb.isSome && x.mset &&& e.w.exited != 0)
        rngctr := if v.draw then e.w.rngctr + 1 else e.w.rngctr })

/-- `VCMP` and `VVOTE` write scalar registers (R127, R149): the lanes of ACT whose comparison holds as a mask; the vote of the
member set. -/
def Obligations.VectorToScalarCompletes : Prop :=
  ∀ (s : State) (e : Env) (x : VecIn) (d : SR) (a b : Src),
    (∀ (t : VTy) (cc : VCond), Issues (.vcmp t cc d a b) s e →
      toSclCheck e (srcs2 (vty t) a b) none [d.toNat, d.toNat + 1, d.toNat + 2] = .ok x →
      (∀ l, l < 96 → e.act.getLsbD l = true → (cmpLane t cc (x.op 0 l) (x.op 1 l)).2 &&& e.w.fpen = 0) →
      let hit := maskOf fun l => e.act.getLsbD l && (cmpLane t cc (x.op 0 l) (x.op 1 l)).1
      let fl := laneList.foldl (fun f l => f ||| if e.act.getLsbD l then (cmpLane t cc (x.op 0 l) (x.op 1 l)).2 else 0) 0
      let w : Wave := { e.w with flags := e.w.flags ||| fl }
      let w := w.setSregs e.k d.toNat [maskWord hit 0, maskWord hit 1, maskWord hit 2] false
      Machine.exec (.vcmp t cc d a b) s = .next (landed s e
        { onward w e.k with latches := shifted e.w (.scl d (w.sreg e.k d.toNat) false) false })) ∧
    (∀ (op : VoteOp) (m : Member), Issues (.vvote op d a m) s e →
      toSclCheck e [(7, a, .s32)] (some m) ((List.range (if op == .ballot then 3 else 1)).map (d.toNat + ·)) = .ok x →
      let w : Wave := { e.w with mabs := e.w.mabs || x.gone != 0 }
      let w := w.setSregs e.k d.toNat (voteWords op x) false
      Machine.exec (.vvote op d a m) s = .next (landed s e
        { onward w e.k with latches := shifted e.w (.scl d (w.sreg e.k d.toNat) false) false }))

/-- A word that raises an enabled flag writes no register and no latch, keeps the flags it has determined and traps with the
enabled ones in `DETAIL` and the lanes that raised one in `TMASK` (R91); a draw still steps the counter (R161). So do the
vector words, `VCMP`, `SMERGE`, the scalar words and the pair words. A vector division by zero in a lane of ACT raises `DIV0`
with the lowest such lane's dividend, and writes nothing (R122, R307). In a wave with a load into `s0`-`s3` outstanding the
model's word waits before it traps (log 56): the clauses with an effect of the word say what happens where none is. -/
def Obligations.ArithmeticTraps : Prop :=
  (∀ (i : Instr) (v : VecWord) (s : State) (e : Env) (x : VecIn),
     vecOf i = some v → Issues i s e → vecCheck e v = .ok x → fpLanes e.w.fpen (v.eval x) ≠ 0 →
     e.w.trapBusy = false →
     let rs := v.eval x
     Machine.exec i s = .next (takeTrap (s.setWave e.gi e.wi
       { e.w with
         flags := e.w.flags ||| allFlags rs
         mabs := e.w.mabs || (v.memb.isSome && x.mset &&& e.w.exited != 0)
         rngctr := if v.draw then e.w.rngctr + 1 else e.w.rngctr }) e.gi e.wi e.k
       ⟨12, 0, (allFlags rs &&& e.w.fpen).toNat, 0, fpLanes e.w.fpen rs⟩)) ∧
  (∀ (i : Instr) (u nw : Bool) (d : VR) (a b : Src) (s : State) (e : Env),
     i ∈ [Instr.vdiv u nw d a b, .vrem u nw d a b] → Issues i s e →
     let x := e.vsrc (uty u) a
     let y := e.vsrc (uty u) b
     let z := maskOf fun l => e.act.getLsbD l && y.lane l == 0
     Passes [chkFoot e 6 d.toNat 1, chkFootSrc e 7 a, chkFootSrc e 8 b, chkLatches e [⟨7, a, Src.gv⟩, ⟨8, b, Src.gv⟩],
       chkBusy e (regsOf e.w e.k (srcs2 (uty u) a b)) ([d.toNat], []) false] →
     (x.bad ||| y.bad) &&& e.act = 0 → z ≠ 0 →
     Machine.exec i s = .next (takeTrap s e.gi e.wi e.k ⟨11, 0, 0, (x.lane (lowLane z)).setWidth 64, z⟩)) ∧
  (∀ (t : VTy) (cc : VCond) (d : SR) (a b : Src) (s : State) (e : Env) (x : VecIn),
     Issues (.vcmp t cc d a b) s e →
     toSclCheck e (srcs2 (vty t) a b) none [d.toNat, d.toNat + 1, d.toNat + 2] = .ok x →
     let fl (l : Nat) : Flags := if e.act.getLsbD l then (cmpLane t cc (x.op 0 l) (x.op 1 l)).2 else 0
     let all := laneList.foldl (fun f l => f ||| fl l) 0
     let hot := maskOf fun l => fl l &&& e.w.fpen != 0
     hot ≠ 0 → e.w.trapBusy = false →
     Machine.exec (.vcmp t cc d a b) s = .next (takeTrap (s.setWave e.gi e.wi { e.w with flags := e.w.flags ||| all })
       e.gi e.wi e.k ⟨12, 0, (all &&& e.w.fpen).toNat, 0, hot⟩)) ∧
  (∀ (nw : Bool) (d : VR) (a b : Src) (s : State) (e : Env),
     Issues (.smerge nw d a b) s e → smergeCheck e d a b = .ok () →
     let x := e.vpair a
     let y := e.vpair b
     let fl (l : Nat) : Flags :=
       if e.act.getLsbD l then (mergeLane e.g.era (x.1.lane l, x.2.lane l) (y.1.lane l, y.2.lane l)).2.2 else 0
     let all := laneList.foldl (fun f l => f ||| fl l) 0
     let hot := maskOf fun l => fl l &&& e.w.fpen != 0
     hot ≠ 0 → e.w.trapBusy = false →
     Machine.exec (.smerge nw d a b) s = .next (takeTrap (s.setWave e.gi e.wi { e.w with flags := e.w.flags ||| all })
       e.gi e.wi e.k ⟨12, 0, (all &&& e.w.fpen).toNat, 0, hot⟩)) ∧
  (∀ (i : Instr) (v : SclWord) (s : State) (e : Env) (x : SclIn),
     sclOf i = some v → Issues i s e → sclCheck e v = .ok x →
     let fl := (v.eval x.xs x.ps x.ms (drawUnit e.g e.w 0 0)).2
     fl &&& e.w.fpen ≠ 0 → e.w.trapBusy = false →
     Machine.exec i s = .next (takeTrap (s.setWave e.gi e.wi
       { e.w with flags := e.w.flags ||| fl, rngctr := if v.draw then e.w.rngctr + 1 else e.w.rngctr })
       e.gi e.wi e.k ⟨12, 0, (fl &&& e.w.fpen).toNat, 0, e.act⟩)) ∧
  (∀ (h0 h1 : Half) (s : State) (e : Env),
     Issues (.pairWord h0 h1) s e → pairCheck e (halfWord h0) (halfWord h1) = .ok () →
     let x := halfEval e (halfWord h0)
     let y := halfEval e (halfWord h1)
     let fl := x.2.1 ||| y.2.1
     fl &&& e.w.fpen ≠ 0 → e.w.trapBusy = false →
     Machine.exec (.pairWord h0 h1) s = .next (takeTrap (s.setWave e.gi e.wi { e.w with flags := e.w.flags ||| fl })
       e.gi e.wi e.k ⟨12, 0, (fl &&& e.w.fpen).toNat, 0, x.2.2 ||| y.2.2⟩))

/-! ## Values of integer words -/

/-- The scalar and vector integer functions of R97 and R121 as arithmetic. A saturating integer result is the clamp of the
exact one, a plain result the exact one modulo 2^32 (R118). The integer operations of R173 as arithmetic on the old value and
the operand. -/
def Obligations.IntegerFunctions : Prop :=
  (∀ x y : W,
     (mulHigh true x y).toNat = x.toNat * y.toNat / 2 ^ 32 ∧
     (mulHigh false x y).toInt = x.toInt * y.toInt / 2 ^ 32 ∧
     (y ≠ 0 → (divWord true x y).toNat = x.toNat / y.toNat ∧ (remWord true x y).toNat = x.toNat % y.toNat) ∧
     (y ≠ 0 → ¬(x = 0x80000000 ∧ y = 0xFFFFFFFF) →
       (divWord false x y).toInt = x.toInt.tdiv y.toInt ∧ (remWord false x y).toInt = x.toInt.tmod y.toInt) ∧
     (divWord false 0x80000000 0xFFFFFFFF = 0x80000000 ∧ remWord false 0x80000000 0xFFFFFFFF = 0) ∧
     (minWord true x y).toNat = min x.toNat y.toNat ∧ (maxWord true x y).toNat = max x.toNat y.toNat ∧
     (minWord false x y).toInt = min x.toInt y.toInt ∧ (maxWord false x y).toInt = max x.toInt y.toInt ∧
     (shlWord x y).toNat = x.toNat * 2 ^ (y.toNat % 32) % 2 ^ 32 ∧
     (shrWord true x y).toNat = x.toNat / 2 ^ (y.toNat % 32) ∧
     (shrWord false x y).toInt = x.toInt / 2 ^ (y.toNat % 32) ∧
     (∀ b, b < 32 → (rotWord x y).getLsbD b = x.getLsbD ((b + y.toNat % 32) % 32))) ∧
  (∀ (z : Int),
     (satInt false true z).toInt = max (-2 ^ 31) (min (2 ^ 31 - 1) z) ∧
     ((satInt true true z).toNat : Int) = max 0 (min (2 ^ 32 - 1) z) ∧
     (∀ uns, ((satInt uns false z).toNat : Int) = z % 2 ^ 32)) ∧
  (∀ (x y : W) (p q : D),
     (atomOp .add x y).1.toNat = (x.toNat + y.toNat) % 2 ^ 32 ∧ (atomOp .smin x y).1.toInt = min x.toInt y.toInt ∧
     (atomOp .smax x y).1.toInt = max x.toInt y.toInt ∧ (atomOp .exch x y).1 = y ∧
     (atomOp .and x y).1 = x &&& y ∧ (atomOp .or x y).1 = x ||| y ∧ (atomOp .xor x y).1 = x ^^^ y ∧
     (atomOpP .add p q).toNat = (p.toNat + q.toNat) % 2 ^ 64 ∧ (atomOpP .umin p q).toNat = min p.toNat q.toNat ∧
     (atomOpP .umax p q).toNat = max p.toNat q.toNat ∧ atomOpP .exch p q = q)

/-- Lane results of integer `VADD`, `VSUB`, `VMUL` and of `VAVG` and `VADDC` (R121), and some others of that table; `VADDC`
adds bit 0 of `C` and gives the sum or its carry. What a write of a vector register keeps
(R16, R49): lanes outside ACT keep value and poison; lanes of ACT take the new ones. -/
def Obligations.VectorIntegerLanes : Prop :=
  (∀ (nw : Bool) (d : VR) (a b c : Src) (m : Xm) (u : Bool) (x : VecIn) (l : Nat),
     l < 96 → x.act.getLsbD l = true →
     let t : VTy := if u then .u32 else .s32
     let val (i : Nat) : Int := if u then ((x.op i l).toNat : Int) else (x.op i l).toInt
     ((wVadd t nw d a b m).eval x)[l]? = some ⟨satInt u m.sat (val 0 + val 1), 0, false⟩ ∧
     ((wVsub t nw d a b m).eval x)[l]? = some ⟨satInt u m.sat (val 0 - val 1), 0, false⟩ ∧
     ((wVmul t nw d a b m).eval x)[l]? = some ⟨satInt u m.sat (val 0 * val 1), 0, false⟩ ∧
     ((wVmad u nw d a b c m.sat).eval x)[l]? = some ⟨satInt u m.sat (val 0 * val 1 + val 2), 0, false⟩ ∧
     ((wVavg u nw d a b).eval x)[l]? = some ⟨satInt u false ((val 0 + val 1 + 1) / 2), 0, false⟩ ∧
     ((wVand nw d a b).eval x)[l]? = some ⟨x.op 0 l &&& x.op 1 l, 0, false⟩ ∧
     (let sum := (x.op 0 l).toNat + (x.op 1 l).toNat + (x.op 2 l).toNat % 2;
       ((wVaddc false nw d a b c).eval x)[l]? = some ⟨BitVec.ofNat 32 sum, 0, false⟩ ∧
       ((wVaddc true nw d a b c).eval x)[l]? = some ⟨BitVec.ofNat 32 (sum / 2 ^ 32), 0, false⟩) ∧
     ((wVandn nw d a b).eval x)[l]? = some ⟨x.op 0 l &&& ~~~x.op 1 l, 0, false⟩ ∧
     ((wVmov nw d b).eval x)[l]? = some ⟨x.op 0 l, 0, x.bad 0 l⟩) ∧
  (∀ (r : VReg) (m bad : Mask) (vals : List W) (l : Nat),
     l < 96 → r.lanes.length = 96 → vals.length = 96 →
     (m.getLsbD l = false →
       (mergeReg r m vals bad).lane l = r.lane l ∧ (mergeReg r m vals bad).bad.getLsbD l = r.bad.getLsbD l) ∧
     (m.getLsbD l = true →
       (mergeReg r m vals bad).lane l = vals.getD l 0 ∧ (mergeReg r m vals bad).bad.getLsbD l = bad.getLsbD l))

/-- A finite or infinite FP32 pattern rounds to itself in every mode, without a flag (R70, R72-R76): its exact value is read
and rounded back to the same bits, the sign of a zero included. -/
def Obligations.Fp32RoundsToItself : Prop :=
  ∀ (rm : Rm) (u : Nat) (x : W), u < 2 ^ 16 → (inFl .f32 x).1.isNan = false →
    (inFl .f32 x).2 = 0 ∧ roundFP32 rm u (inFl .f32 x).1 = (x, 0)

/-! ## Scalar words -/

/-- A scalar word whose checks pass and which raises no enabled flag writes its results into `D` and the registers above it,
unless `NW` is 1, leaves the lowest in `l0`, adds its flags and goes on; nothing else changes (R20, R58, R95-R100). -/
def Obligations.ScalarWordCompletes : Prop :=
  ∀ (i : Instr) (v : SclWord) (s : State) (e : Env) (x : SclIn),
    sclOf i = some v → Issues i s e → sclCheck e v = .ok x →
    let r := v.eval x.xs x.ps x.ms (drawUnit e.g e.w 0 0)
    r.2 &&& e.w.fpen = 0 →
    Machine.exec i s = .next (landed s e (afterScl e v r x.bad))

/-- Scalar registers and the mask views (R18, R22): a register reads what was written, with its mark, and no other register
changes; a write of `s60`, `s61` or `s62` keeps, among the 32 lanes of that view, those of ACT whose bit is set, and a
read gives them. Where a word has so removed lanes from ACT, they are exited at the top level (RPC 0); below it a split
left without lanes acts as at its join, and any other keeps the removed lanes in UM. -/
def Obligations.MaskViews : Prop :=
  (∀ (w : Wave) (k : Bool) (n : Nat) (x : W) (bad : Bool), n < 64 → w.sregs.length = 64 →
    let y := w.setSreg k n x bad
    ((n < 60 ∨ n = 63) →
      y.sreg k n = x ∧ y.sregBad n = bad ∧ y.slot0 = w.slot0 ∧ y.slot1 = w.slot1 ∧
      ∀ m, m ≠ n → m < 64 → y.sreg k m = w.sreg k m ∧ y.sregBad m = w.sregBad m) ∧
    (60 ≤ n → n ≤ 62 →
      y.sregs = w.sregs ∧ y.sbad = w.sbad ∧ y.slot (!k) = w.slot (!k) ∧
      (∀ l, l < 96 → (y.slot k).act.getLsbD l
        = ((w.slot k).act.getLsbD l && (decide (l / 32 ≠ n - 60) || x.getLsbD (l % 32)))) ∧
      (∀ b, b < 32 → (y.sreg k n).getLsbD b = ((w.slot k).act.getLsbD (32 * (n - 60) + b) && x.getLsbD b)))) ∧
  (∀ (s : State) (gi wi : Nat) (k : Bool) (before : Mask) (w : Wave), s.wave? gi wi = some w → w.ended = false →
    let x := w.slot k
    let gone := before &&& ~~~x.act
    (gone = 0 → afterMask s gi wi k before = s) ∧
    (gone ≠ 0 → x.rpc = 0 → afterMask s gi wi k before = exitLanes s gi wi k gone) ∧
    (gone ≠ 0 → x.rpc ≠ 0 → x.act = 0 →
      afterMask s gi wi k before = settle (s.putSplits gi wi ((s.splits gi w).reachJoin k x.rpc)) gi wi) ∧
    (gone ≠ 0 → x.rpc ≠ 0 → x.act ≠ 0 → afterMask s gi wi k before = s))

/-- `SDIV` and `SREM` complete on a divisor that is not zero (R97). A zero divisor, in a register or as the immediate, raises
`DIV0` with subcode 0 and the dividend in `TVAL`; `D` is not written (R97, R307). -/
def Obligations.ScalarDivision : Prop :=
  (∀ (i : Instr) (v : SclWord) (a : Src) (b : Alu2) (s : State) (e : Env) (x : SclIn),
     divOf i = some (v, a, b) → Issues i s e → sclCheck e v = .ok x → immZero e a b = .ok () →
     Machine.exec i s = .next (landed s e (afterScl e v (v.eval x.xs x.ps x.ms 0) false))) ∧
  (∀ (u nw : Bool) (d : SR) (a : Src) (b : Alu2) (s : State) (e : Env),
     (∃ x, sclCheck e (aluWord nw d a b (divWord u)) = .ok x) →
     (match b with
       | .reg b => (e.ssrc .s32 b).1 = 0
       | .imm x => x = 0) →
     let trapped := takeTrap s e.gi e.wi e.k ⟨11, 0, 0, (e.ssrc .s32 a).1.setWidth 64, e.act⟩
     (Issues (.sdiv u nw d a b) s e → Machine.exec (.sdiv u nw d a b) s = .next trapped) ∧
     (Issues (.srem u nw d a b) s e → Machine.exec (.srem u nw d a b) s = .next trapped))

/-- `SMOV` copies a register, poison and all, or the status word of a future that has left Pending (R19, R96, R98); `SLEA.pc`
writes its own address plus the offset (R98). -/
def Obligations.MovesComplete : Prop :=
  ∀ (nw : Bool) (d : SR) (s : State) (e : Env),
    (∀ n : SR, Issues (.smov nw d (.s n)) s e → chkBusy e ([], [n.toNat]) ([], [d.toNat]) false = .ok () →
      Machine.exec (.smov nw d (.s n)) s = .next (landed s e
        (afterScl e (.plain d nw [] fun _ => (0, 0)) ([e.w.sreg e.k n.toNat], 0) (e.w.sregBad n.toNat)))) ∧
    (∀ f : FR, Issues (.smov nw d (.f f)) s e → chkBusy e ([], []) ([], [d.toNat]) false = .ok () →
      (e.w.fut f.toNat).st ∈ [FState.done, .failed, .cancelled] →
      Machine.exec (.smov nw d (.f f)) s = .next (landed s e
        (afterScl { e with w := observe e f.toNat } (.plain d nw [] fun _ => (0, 0)) ([(e.w.fut f.toNat).status], 0) false))) ∧
    (∀ off : BitVec 34, Issues (.sleaPc d off) s e →
      chkBusy e ([], []) ([], [d.toNat, d.toNat + 1]) false = .ok () →
      let a := e.slot.pc + off.signExtend 64
      Machine.exec (.sleaPc d off) s = .next (landed s e
        (afterScl e (.plain d false [] fun _ => (0, 0)) ([lo32 a, hi32 a], 0) false)))
namespace Sys2Proof.Claims

open Sys2Proof.Machine

/-- Line `line` of device memory stands as an access of gang `g`'s device areas leaves it: under the key of its context, or in
the system context under none (R24, R305, R316). -/
def UnderKey (s : State) (g : Gang) (line : Nat) : Prop :=
  match s.tags.find? fun t => t.line == line with
  | some t => g.ctx ≠ Config.sysCtx ∧ t.ctx = g.ctx ∧ t.gen = s.genOf g.ctx
  | none => g.ctx = Config.sysCtx

/-- The issuing wave past its word, with future register `f` armed by it (R19, R190). -/
def armedWave (e : Env) (f : FR) (c : PClass) : Wave :=
  { passed e with futs := setAt e.w.futs f.toNat ⟨.pending, 0, (e.w.fut f.toNat).serial + 1, c⟩ }

/-- The issuing wave past its word, with future register `f` armed and ended at once. -/
def endedWave (e : Env) (f : FR) (st : FState) (result : Nat) : Wave :=
  { passed e with futs := setAt e.w.futs f.toNat ⟨st, statusWord result st, (e.w.fut f.toNat).serial + 1, .v⟩ }

/-- The wave after a word that writes scalar register `d` alone, with its latch entry; `w` holds what else the word changed. -/
def oneScl (e : Env) (w : Wave) (d : SR) (x : W) (nw bad : Bool) : Wave :=
  let w2 := w.setSreg e.k d.toNat x bad
  { onward (if nw then w else w2) e.k with latches := shifted e.w (.scl d (w2.sreg e.k d.toNat) bad) nw }

end Sys2Proof.Claims

/-! ## Control words -/

/-- `BRA`, `CALL`, `CALL.r`, `RET` and `BRX` move the whole split to their target and keep ACT, UM and RPC; the calls write
the address of the next word into pair `D` first, after `A` was read (R101, R102). A target held in a pair whose bits [2:0]
are not zero raises `ALIGN` with subcode 1 and the target in `TVAL`; the split's PC is the branch's in `TPC` (R102, R307). -/
def Obligations.BranchesComplete : Prop :=
  (∀ (d : SR) (a : Src) (off : BitVec 34) (tgt : D) (s : State) (e : Env),
     let pc := e.slot.pc
     let called (t : D) : Wave :=
       let w := (movedTo e t).setSregs e.k d.toNat [lo32 (pc + 8), hi32 (pc + 8)] false
       { w with latches := shifted e.w (.scl d (w.sreg e.k d.toNat) false) false }
     (Issues (.bra off) s e →
       Machine.exec (.bra off) s = .next (s.setWave e.gi e.wi (movedTo e (pc + off.signExtend 64 * 8)))) ∧
     (Issues (.call d off) s e → chkBusy e ([], []) ([], [d.toNat, d.toNat + 1]) false = .ok () →
       Machine.exec (.call d off) s = .next (landed s e (called (pc + off.signExtend 64 * 8)))) ∧
     (Issues (.callR d a) s e → chkTarget e a [d.toNat, d.toNat + 1] = .ok tgt →
       Machine.exec (.callR d a) s = .next (landed s e (called tgt))) ∧
     (Issues (.ret a) s e → chkTarget e a [] = .ok tgt →
       Machine.exec (.ret a) s = .next (s.setWave e.gi e.wi (movedTo e tgt))) ∧
     (Issues (.brx a) s e → chkTarget e a [] = .ok tgt →
       Machine.exec (.brx a) s = .next (s.setWave e.gi e.wi (movedTo e tgt)))) ∧
  (∀ (i : Instr) (d n : SR) (s : State) (e : Env),
     i ∈ [Instr.callR d (.s n), .ret (.s n), .brx (.s n)] → Issues i s e →
     chkBusy e ([], [n.toNat, n.toNat + 1]) ([], if i = .callR d (.s n) then [d.toNat, d.toNat + 1] else []) false = .ok () →
     e.w.sregBad n.toNat = false → e.w.sregBad (n.toNat + 1) = false → (e.w.pair e.k n.toNat).toNat % 8 ≠ 0 →
     Machine.exec i s = .next (takeTrap s e.gi e.wi e.k ⟨5, 1, 0, e.w.pair e.k n.toNat, e.act⟩))

/-- `BRV` (R104): the predicate is the triple, or its complement, among the lanes of ACT; a uniform branch moves on or to its
target; a divergent one needs room for what it pushes, traps `DSTK` with subcode 0 without it, and otherwise leaves the
not-taken lanes in its slot and gives the taken ones the free slot or a kind-0 entry, above a frame if the join is new. The
rules of R25, R105 and R106 (`settle`) then act. -/
def Obligations.BranchOnLanes : Prop :=
  ∀ (neg : Bool) (a : SR) (join : BitVec 18) (target : BitVec 16) (s : State) (e : Env),
    Issues (.brv neg a join target) s e →
    chkBusy e ([], [a.toNat, a.toNat + 1, a.toNat + 2]) ([], []) false = .ok () → tripleBad e.w a = false →
    let t := e.w.triple e.k a.toNat
    let p := (if neg then ~~~t else t) &&& e.act
    let me := e.slot
    let j := me.pc + join.signExtend 64 * 8
    let tgt := me.pc + target.signExtend 64 * 8
    let same := join.signExtend 64 * 8 + me.pc = me.rpc
    let um := if same then me.um else me.act
    let rpc := if same then me.rpc else j
    let needs := (if same then 0 else 1) + (if (e.w.slot (!e.k)).st = .empty then 0 else 1)
    let x := s.splits e.gi e.w
    let frames : List Entry := if same then x.stk else ⟨0, j, me.rpc, 0, me.um⟩ :: x.stk
    let rest : Slot := { me with pc := me.pc + 8, act := me.act &&& ~~~p, um := um, rpc := rpc, st := .ready }
    let taken : Slot := { me with pc := tgt, act := p, um := um, rpc := rpc, st := .ready }
    let y : Splits :=
      if (e.w.slot (!e.k)).st = .empty then (({ x with stk := frames } : Splits).set e.k rest).set (!e.k) taken
      else ({ x with stk := ⟨0, tgt, rpc, p, um⟩ :: frames } : Splits).set e.k rest
    (p = e.act → Machine.exec (.brv neg a join target) s = .next (s.setWave e.gi e.wi (movedTo e tgt))) ∧
    (p ≠ e.act → p = 0 → Machine.exec (.brv neg a join target) s = .next (s.setWave e.gi e.wi (passed e))) ∧
    (p ≠ e.act → p ≠ 0 → 32 < e.w.dsp + needs →
      Machine.exec (.brv neg a join target) s = .next (takeTrap s e.gi e.wi e.k ⟨7, 0, 0, 0, e.act⟩)) ∧
    (p ≠ e.act → p ≠ 0 → e.w.dsp + needs ≤ 32 →
      Machine.exec (.brv neg a join target) s = .next
        (settle ((s.setWave e.gi e.wi { e.w with latches := shifted e.w .untagged false }).putSplits e.gi e.wi y) e.gi e.wi))

/-- `JOIN` (R105): away from the split's RPC it only shifts the latches; at it, no lane of UM live elsewhere means the merge,
a live entry on top means the split ends, else it waits. The merge of R105: the split goes on past the join with the lanes of
UM that have not exited; UM and RPC come from the placeholder at the join, else from the topmost frame for it, else the split
is at the top level. A partner waiting at the join goes. `EXIT` exits every lane of ACT (R106): afterwards the wave counts
them as exited. -/
def Obligations.JoinsAndExits : Prop :=
  (∀ (s : State) (e : Env), Issues .join s e →
     let p := e.slot.pc
     let x := s.splits e.gi e.w
     let base := s.setWave e.gi e.wi { e.w with latches := shifted e.w .untagged false }
     let go (y : Splits) : State := settle (base.putSplits e.gi e.wi y) e.gi e.wi
     (e.slot.rpc ≠ p → Machine.exec .join s = .next (s.setWave e.gi e.wi (passed e))) ∧
     (e.slot.rpc = p → x.liveElse e.k p = 0 → Machine.exec .join s = .next (go (x.merge e.k p))) ∧
     (e.slot.rpc = p → x.liveElse e.k p ≠ 0 → topIsLive x = true →
       Machine.exec .join s = .next (go (x.set e.k { e.slot with pc := 0, act := 0, um := 0, rpc := 0, st := .empty }))) ∧
     (e.slot.rpc = p → x.liveElse e.k p ≠ 0 → topIsLive x = false →
       Machine.exec .join s = .next (go (x.set e.k { e.slot with st := .joinWait })))) ∧
  (∀ (x : Splits) (k : Bool) (p : D),
     let y := x.merge k p
     (y.slot k).pc = p + 8 ∧ (y.slot k).act = (x.slot k).um &&& ~~~x.exited ∧ (y.slot k).st = .ready ∧
     y.exited = x.exited ∧
     (((x.slot (!k)).isJoiner = true ∧ (x.slot (!k)).pc = p) → (y.slot (!k)).st = .empty) ∧
     (((x.slot (!k)).isPlace = true ∧ (x.slot (!k)).pc = p) →
       (y.slot k).um = (x.slot (!k)).um ∧ (y.slot k).rpc = (x.slot (!k)).rpc ∧ (y.slot (!k)).st = .empty ∧ y.stk = x.stk) ∧
     (¬((x.slot (!k)).isPlace = true ∧ (x.slot (!k)).pc = p) →
       (∀ f rest, takeFrame p x.stk = some (f, rest) →
         (y.slot k).um = f.um ∧ (y.slot k).rpc = f.rpc ∧ y.stk = rest) ∧
       (takeFrame p x.stk = none →
         (y.slot k).um = (y.slot k).act ∧ (y.slot k).rpc = 0 ∧ y.stk = x.stk))) ∧
  (∀ (s : State) (e : Env), Issues .exit s e →
     ∃ t w, Machine.exec .exit s = .next t ∧ t.wave? e.gi e.wi = some w ∧ e.act &&& ~~~w.exited = 0)

/-- `TRAP` outside a handler (R110): class 0x0D, SUB `X`[7:0], DETAIL `X`[15:8], `TVAL` 0, `TPC` its own word; the handler at
`TBASE` runs privileged on the lanes of `TMASK`, which are those of ACT (R95). -/
def Obligations.SoftwareTrap : Prop :=
  ∀ (code : BitVec 16) (s : State) (e : Env),
    Issues (.trap code) s e → e.w.trap = none → e.w.trapBusy = false → s.tbaseOf e.g ≠ 0 →
    ∃ t g w, Machine.exec (.trap code) s = .next t ∧ t.gang? e.gi = some g ∧ g.wave? e.wi = some w ∧
      w.tcause = BitVec.ofNat 32 (0x0D + code.toNat % 256 * 256 + code.toNat / 256 * 65536) ∧
      w.tval = 0 ∧ w.tpc = e.slot.pc &&& ~~~7 ∧ w.tmask = e.act ∧
      (w.slot e.k).pc = s.tbaseOf e.g ∧ (w.slot e.k).act = w.tmask ∧ privileged g w = true

/-- Trap entry (R309): with a handler and outside one, the trap registers are written, the split is kept, every latch is lost,
`s0`-`s3` go to the trap save area and `s0:s1` hold its address, and the slot runs the handler on the lanes of `TMASK` with
RPC 0. The rest of the wave, every other wave, the contexts, grids and requests are unchanged. Device memory outside the 16
bytes is as an access under the context's key finds it (R24, R316): unchanged outside their lines, and in a line that already
stands under that key. While a load into `s0`-`s3` is outstanding the split waits at its word (log 56). -/
def Obligations.TrapEntry : Prop :=
  ∀ (s : State) (gi wi : Nat) (k : Bool) (tr : Trap) (g : Gang) (w : Wave),
    s.gang? gi = some g → g.wave? wi = some w → s.tbaseOf g ≠ 0 → w.trap = none →
    let save := (w.dsaddr + 2048).toNat
    let x := w.slot k
    (w.trapBusy = true →
      takeTrap s gi wi k tr = s.setWave gi wi (w.setSlot k { x with st := .blocked (w.waitOn MemOp.hitsSaved) })) ∧
    (w.trapBusy = false →
      let t := takeTrap s gi wi k tr
      t.wave? gi wi = some (({ w with
        tcause := BitVec.ofNat 32 (tr.cls % 256 + tr.sub % 256 * 256 + tr.detail % 256 * 65536)
        tpc := x.pc &&& ~~~7, tmask := tr.tmask, tval := tr.tval
        trap := some ⟨k, x.pc, x.act, x.um, x.rpc, tr.tmask, decide ((w.slot (!k)).st ≠ .empty), w.dsp⟩
        latches := w.latches.map fun l => { l with lost := true }
        sregs := lo32 (w.dsaddr + 2048) :: hi32 (w.dsaddr + 2048) :: w.sregs.drop 2
        sbad := w.sbad &&& ~~~3 } : Wave).setSlot k
          { x with pc := s.tbaseOf g, act := tr.tmask, um := tr.tmask, rpc := 0, st := .ready }) ∧
      (∀ gj wj, (gj, wj) ≠ (gi, wi) → t.wave? gj wj = s.wave? gj wj) ∧
      t.ctxs = s.ctxs ∧ t.grids = s.grids ∧ t.reqs = s.reqs ∧
      (s.mem.wf = true → w.sregs.length = 64 → ∀ i b, i < 4 → b < 4 →
        t.mem.get (save + 4 * i + b) = ((w.sregs.getD i 0).extractLsb' (8 * b) 8)) ∧
      (s.mem.wf = true → ∀ a, a < save ∨ save + 16 ≤ a →
        t.mem.get a = (s.openArea gi true save 16).mem.get a ∧
        ((a < save / 128 * 128 ∨ (save + 143) / 128 * 128 ≤ a) → t.mem.get a = s.mem.get a) ∧
        ((∀ line, save / 128 ≤ line → 128 * line < save + 16 → UnderKey s g line) → t.mem.get a = s.mem.get a)) ∧
      (∀ q, q ≠ save / 8 → q ≠ save / 8 + 1 → t.memBad.contains q = s.memBad.contains q))

/-- A trap with `TBASE` 0, or inside a handler, ends the grid (R310, R311): every live gang of it and of its children stops,
one whose waves have ended but which has not completed too; a saved gang is discarded. The grid turns aborted with STAT 2 unless it has ended or a cancel came first, and the fault is counted in it; the first
one stands (R344, R345). In a child gang it is the grid from which the child descends that ends (log 41). Inside a handler
`TRAP` with SUB 0xFD ends the wave and SUB 0xFE the gang, with an error (R310). -/
def Obligations.EndsByTrap : Prop :=
  (∀ (s : State) (gi wi : Nat) (k : Bool) (tr : Trap) (g : Gang) (w : Wave),
     s.gang? gi = some g → g.wave? wi = some w → (s.tbaseOf g = 0 ∨ w.trap ≠ none) →
     let root := s.rootGrid 9 g.grid
     let t := takeTrap s gi wi k tr
     (∀ gj h, s.gang? gj = some h → s.descends root 9 h.grid = true → h.st.live = true →
       ∃ h', t.gang? gj = some h' ∧ h'.id = h.id ∧ (∀ v ∈ h'.waves, v.ended = true) ∧
         h'.st = (match h.st with | .saved _ => GangSt.dropped | _ => .killed) ∧ ∀ o ∈ h'.eops, o.cancel = true) ∧
     (∀ r, s.grid? root = some r →
       ∃ r', t.grid? root = some r' ∧ r'.faults = r.faults + 1 ∧
         r'.first = some (r.first.getD ⟨BitVec.ofNat 32 (tr.cls % 256 + tr.sub % 256 * 256 + tr.detail % 256 * 65536),
           widxWord g w, (w.slot k).pc &&& ~~~7, tr.tval, g.gx, g.gy, g.gz, 0⟩) ∧
         (r.early = false → r'.abort = true ∧ (r.abort = false → r.cancel = false → r'.stat = 2))) ∧
     (∀ r, s.grid? g.grid = some r → r.kind = .launched → root = g.grid)) ∧
  (∀ (code : BitVec 16) (s : State) (e : Env), Issues (.trap code) s e → e.w.trap ≠ none →
     (code.toNat % 256 = 0xFD →
       ∃ t w, Machine.exec (.trap code) s = .next t ∧ t.wave? e.gi e.wi = some w ∧ w.ended = true ∧ w.exited = allLanes ∧
         w.slot0.st = .empty ∧ w.slot1.st = .empty ∧ w.dsp = 0) ∧
     (code.toNat % 256 = 0xFE →
       ∃ t g, Machine.exec (.trap code) s = .next t ∧ t.gang? e.gi = some g ∧ g.st = .ended ∧ g.err = true ∧
         (∀ w ∈ g.waves, w.ended = true) ∧ ∀ o ∈ g.eops, o.cancel = true))

/-- `ERET` and `ERET.next` (R111): in a handler the trapping split takes back its PC, ACT, UM and RPC without the lanes exited
since, at `TPC` or at `TPC` + 8 as `TPC` then reads; `s0`-`s3` are reloaded from the trap save area under the context's key
and every latch is lost (R20, R309); the wave runs a handler no more. Outside a handler both raise `ILLEGAL` with subcode 3.
The word waits while an outstanding word of the wave would reach what it reads or writes (log 56). -/
def Obligations.ReturnFromTrap : Prop :=
  ∀ (next : Bool) (s : State) (e : Env),
    let i := if next then Instr.eretNext else Instr.eret
    Issues i s e →
    (e.w.trap = none →
      Machine.exec i s = .next (takeTrap s e.gi e.wi e.k ⟨1, 3, 0, (encode i).getD 0, e.act⟩)) ∧
    (e.w.trap ≠ none → e.w.returnBusy = true →
      Machine.exec i s = .next (settle (s.setWave e.gi e.wi
        (e.w.modSlot e.k fun x => { x with st := .blocked (e.w.waitOn e.w.holdsReturn) })) e.gi e.wi)) ∧
    (∀ sv, e.w.trap = some sv → e.w.returnBusy = false → sv.act &&& ~~~e.w.exited ≠ 0 →
      let pc := (e.w.tpc &&& ~~~7) + (if next then 8 else 0)
      let a := (e.w.dsaddr + 2048).toNat
      let o := (s.setWave e.gi e.wi { e.w with latches := shifted e.w .untagged false }).openArea e.gi false a 16
      ∃ w, Machine.exec i s = .next (settle (o.setWave e.gi e.wi w) e.gi e.wi true) ∧
        w.trap = none ∧ (∀ l ∈ w.latches, l.lost = true) ∧
        w.slot sv.slot = { e.w.slot sv.slot with
          pc := pc, act := sv.act &&& ~~~e.w.exited, um := sv.um &&& ~~~e.w.exited, rpc := sv.rpc, st := .ready } ∧
        (∀ n, n < 4 → w.sregs[n]? = some (BitVec.ofNat 32 (o.mem.num (a + 4 * n) 4))) ∧
        (∀ n, 4 ≤ n → w.sregs[n]? = e.w.sregs[n]?))

/-- `WAITC` passes once its counter is at most n, else its split blocks (R108); `YIELD` passes and changes no register and no
mask; its split stands back until another of its quadrant has issued (R109), and whether the wave is descheduled meanwhile is a
free choice, for which it has no memory word with a register destination outstanding (log 65); `NOP` has no effect (R66); `STEPADV` adds to the gang's and
the context's STEP (R115); `HTAKE` takes a halter that is free or its own, in turn, and `HPASS` hands it on, both as R186 says. -/
def Obligations.WaitsAndHalterComplete : Prop :=
  ∀ (c : Ctr) (n : BitVec 6) (a : SR) (s : State) (e : Env),
    let here := s.setWave e.gi e.wi (passed e)
    (Issues (.waitc c n) s e → e.w.ctr c ≤ n.toNat → Machine.exec (.waitc c n) s = .next here) ∧
    (Issues (.waitc c n) s e → n.toNat < e.w.ctr c →
      Machine.exec (.waitc c n) s = .next (settle (s.setWave e.gi e.wi
        (e.w.modSlot e.k fun x => { x with st := .blocked (.ctr c n.toNat) })) e.gi e.wi)) ∧
    (let y := (passed e).modSlot e.k fun x => { x with st := .blocked .yielded };
      Issues .yield s e →
      ((∃ o ∈ e.w.ops, o.dst ≠ .none) → Machine.exec .yield s = .next (s.setWave e.gi e.wi y)) ∧
      ((∀ o ∈ e.w.ops, o.dst = .none) → Machine.exec .yield s = .next (s.took.setWave e.gi e.wi
        (if Config.deschedules s.freeCtr then y.rested (s.fills + 1) else y)))) ∧
    (Issues .nop s e → Machine.exec .nop s = .next here) ∧
    (Issues (.stepadv (.s a)) s e → chkBusy e ([], [a.toNat]) ([], []) false = .ok () → e.w.sregBad a.toNat = false →
      let x := e.w.sreg e.k a.toNat
      Machine.exec (.stepadv (.s a)) s = .next
        ((here.modGang e.gi fun g => { g with step := g.step + x }).modCtx e.g.ctx fun c => { c with step := c.step + x })) ∧
    (Issues .htake s e → halterTurn e.g e.w = true →
      Machine.exec .htake s = .next (here.modGang e.gi fun g => { g with halter := some e.w.idx })) ∧
    (Issues (.hpass (.s a)) s e → e.g.halter = some e.w.idx → chkBusy e ([], [a.toNat]) ([], []) false = .ok () →
      e.w.sregBad a.toNat = false → ∀ v, e.g.wave? (e.w.sreg e.k a.toNat).toNat = some v → v.ended = false →
      Machine.exec (.hpass (.s a)) s = .next
        (here.modGang e.gi fun g => { g with halter := some (e.w.sreg e.k a.toNat).toNat }))

/-- `LAUNCH`, `SPAWN` and `CANCEL` (R112-R114, R116) arm their future. An aligned launch, and a spawn below depth 8, enter a
request into the queue; a misaligned address makes the future Failed with RESULT 2 and queues nothing, depth 8 RESULT 4. A
`CANCEL` of an object that names no pod-wide grid is Done at once, and its grid stops; one that names a pod-wide grid, or one
that only another package may know, goes to the root as a message. That the words wait for the wave's earlier operations,
that `CANCEL` is Done at once, and which grid an object names, are the model's readings (logs 27, 40, 80). -/
def Obligations.LaunchWordsComplete : Prop :=
  ∀ (sc : LScope) (d : FR) (a b : Src) (q : BitVec 3) (s : State) (e : Env),
    let r := (e.psrc a).1
    let c := (e.psrc b).1
    let here := s.setWave e.gi e.wi (armedWave e d .v)
    let queued (n : Nat) (p : Pend) : State := here.modCtx e.g.ctx fun c =>
      { c with queues := modAt c.queues n fun l => { l with pend := l.pend ++ [p] } }
    (Issues (.launch sc d a b q) s e → Passes [chkPairs e d [(7, a), (8, b)], chkDrained e (BitVec.allOnes 8)] →
      (r.toNat % 128 = 0 ∧ c.toNat % 16 = 0 →
        Machine.exec (.launch sc d a b q) s = .next (queued q.toNat (newPend e d r (some c) sc .launched 0))) ∧
      (¬(r.toNat % 128 = 0 ∧ c.toNat % 16 = 0) →
        Machine.exec (.launch sc d a b q) s = .next (s.setWave e.gi e.wi (endedWave e d .failed 2)))) ∧
    (Issues (.spawn d a) s e → Passes [chkPairs e d [(7, a)], chkDrained e (BitVec.allOnes 8)] →
      (r.toNat % 128 = 0 → e.g.depth < 8 →
        Machine.exec (.spawn d a) s = .next (queued e.g.queue (newPend e d r none (childScope s e.g)
          (.child e.g.id e.w.idx d ((e.w.fut d.toNat).serial + 1)) (e.g.depth + 1)))) ∧
      (r.toNat % 128 ≠ 0 → Machine.exec (.spawn d a) s = .next (s.setWave e.gi e.wi (endedWave e d .failed 2))) ∧
      (r.toNat % 128 = 0 → 8 ≤ e.g.depth →
        Machine.exec (.spawn d a) s = .next (s.setWave e.gi e.wi (endedWave e d .failed 4)))) ∧
    (Issues (.cancel d a) s e → Passes [chkPairs e d [(7, a)]] →
      (r.toNat % 16 ≠ 0 → Machine.exec (.cancel d a) s = .next (s.setWave e.gi e.wi (endedWave e d .failed 2))) ∧
      (let m := cancelMsg s e.g.ctx r e.g.id e.w.idx d ((e.w.fut d.toNat).serial + 1);
        r.toNat % 16 = 0 →
        (∀ x, m = some x → Machine.exec (.cancel d a) s = .next { here with msgs := s.msgs ++ [x] }) ∧
        (m = none → Machine.exec (.cancel d a) s = .next (cancelGrid
          (s.setWave e.gi e.wi (endedWave e d .done (cancelGrid s e.g.ctx r).2)) e.g.ctx r).1)))

namespace Sys2Proof.Claims

open Sys2Proof.Machine

/-- The memory words of rows 0x80-0x92, 0x94 and of `FSTH` that start one outstanding operation (R169, R170, R173, R174,
R178, R190): each with its data and the class of its index. `DLD` and `DADD` stand here while no floating-point trap is
enabled. -/
def memOf (e : Env) : Instr → Option (MemWord × (Src → Bool))
  | .vld t d a b i => some (vecLoad d a b i (ldSize t) 1 (.load t) false, Src.mi)
  | .vldp d a b i => some (vecLoad d a b i 8 2 (.loadN 2) false, Src.mi)
  | .vldw d a b i => some (vecLoad d a b i 16 4 (.loadN 4) false, Src.mi)
  | .vldu t d a b i => some (vecLoad d a b i (ldSize t) 1 (.loadU t) true, Src.sz)
  | .vst t d a b i => some (vecStore e.w d a b i (stSize t) 1, Src.mi)
  | .vstp d a b i => some (vecStore e.w d a b i 8 2, Src.mi)
  | .vstw d a b i => some (vecStore e.w d a b i 16 4, Src.mi)
  | .sld t d a b i => some (sclLoad t d a b i, Src.sz)
  | .sst t d a b i => some (sclStore e t d a b i, Src.sz)
  | .vatom op d a b i => some (vecAtom e.w d a b i (.atom op) 1 false, Src.mi)
  | .vcas d a b i => some (vecAtom e.w d a b i .cas 1 true, Src.mi)
  | .vatomp op d a b i => some (vecAtom e.w d a b i (.atomP op) 2 false, Src.mi)
  | .vcasp d a b i => some (vecAtom e.w d a b i .casP 2 true, Src.mi)
  | .satom op d a b i => some (sclAtom e d a b i (.atom op) false, Src.sz)
  | .scas d a b i => some (sclAtom e d a b i .cas true, Src.sz)
  | .vapnd d a i => some (mVapnd d a i, Src.mi)
  | .dld d a b i => if e.w.fpen = 0 then some (vecLoad d a b i 8 1 .dld false, Src.mi) else none
  | .dadd d a b i => if e.w.fpen = 0 then some (mDadd e.w .dadd d a b i, Src.mi) else none
  | .daddA d a b i => some (mDadd e.w .daddA d a b i, Src.mi)
  | .dst d a b i => some (mDst e d a b i, Src.mi)
  | .fsth d a i => some (mFsth e d a i, Src.sz)
  | _ => none

/-- The wave past a memory word, with its operation outstanding. -/
def begun (e : Env) (o : MemOp) : Wave := { passed e with ops := e.w.ops ++ [o], opSeq := e.w.opSeq + 1 }

/-- The issuing split's machine once its word is past; `s` holds what else the word changed. -/
def herePast (e : Env) (s : State) : State := s.setWave e.gi e.wi (passed e)

/-- Where operation `op` of wave `wi` of the gang with serial `g` stands, outstanding and free to be performed (R169). -/
def Outstanding (s : State) (gang wi op gi : Nat) (g : Gang) (w : Wave) (o : MemOp) : Prop :=
  s.gangIdx gang = some gi ∧ s.gang? gi = some g ∧ g.wave? wi = some w ∧ w.ops.find? (·.id == op) = some o ∧
    w.mayPerform o = true

/-- The last byte that a list of stored bytes holds for a place. -/
def lastByte (bs : List StByte) (l : Loc) : Option Byte := (bs.reverse.find? fun b => b.loc == l).map (·.byte)

/-- No line of a resident wave's divergence stack holds a byte of an object (R24, R181). -/
def ClearOfStacks (s : State) (o : Loc) : Prop :=
  ∀ k, o = .mem k → ∀ g ∈ s.gangs, ∀ w ∈ g.waves,
    k + 16 ≤ w.dsaddr.toNat / 128 * 128 ∨ (w.dsaddr.toNat + 64 * w.dsp + 127) / 128 * 128 ≤ k

/-- What a load, or a word whose value is fixed at issue, returns to one lane from place `l` of memory: its elements, each with
its mark (R169, R170, R175, R178). -/
def loaded (u : State) (gi : Nat) (o : MemOp) (a : Acc) : List (W × Bool) :=
  let el (x : W) (l : Loc) (n : Nat) : W × Bool := (x, u.rangeBad gi l n)
  match o.kind with
  | .load t | .loadU t => [el (extTy t (u.numLoc gi a.loc (accLen (.load t)))) a.loc (accLen (.load t))]
  | .loadN n => (List.range n).map fun k =>
      el (BitVec.ofNat 32 (u.numLoc gi (a.loc.add (4 * k)) 4)) (a.loc.add (4 * k)) 4
  | .dld => [el (stampedRead o.era (BitVec.ofNat 64 (u.numLoc gi a.loc 8))).1 a.loc 8]
  | _ => [(a.x.setWidth 32, a.bad.getLsbD 0), (a.x.extractLsb' 32 32, a.bad.getLsbD 1)]

/-- The flags that the lanes of a load raise: those of `DLD` (R178). -/
def loadedFlags (u : State) (gi : Nat) (o : MemOp) : Flags :=
  if o.kind = .dld then o.accs.foldl (fun f a => f ||| (stampedRead o.era (BitVec.ofNat 64 (u.numLoc gi a.loc 8))).2) 0 else 0

/-- The access whose value lane `l` receives: `VLDU` reads once for every lane. -/
def accOf (o : MemOp) (l : Nat) : Option Acc :=
  match o.kind with
  | .loadU _ => o.accs.head?
  | _ => o.accs.find? (·.lane == l)

/-- Every access of an operation is of a lane that is still to return; `VLDU` has one for all of them. -/
def AllLeft (o : MemOp) : Prop := (∃ t, o.kind = .loadU t) ∨ ∀ a ∈ o.accs, o.left.getLsbD a.lane = true

/-- Operation `o` has left wave `w`, which now is `w'` on a machine with `n` line fills: nothing else does for a plain load; after an
acquire later loads of its lanes ignore lines filled before it at `.die` and wider, and take over what the gang has acquired
else (R259, R271). -/
def Left (s : State) (gi n : Nat) (w w' : Wave) (o : MemOp) : Prop :=
  w'.ops.map (fun q => { q with floor := 0 }) = (w.ops.filter (·.id != o.id)).map (fun q => { q with floor := 0 }) ∧
  (isAcq o = false → w'.ops = w.ops.filter (·.id != o.id) ∧ w'.floors = w.floors) ∧
  (isAcq o = true → w.floors.length = 96 → ∀ l, l < 96 → o.act.getLsbD l = true →
    (if isWide o = true then n + 1 else s.floorAt gi 0) ≤ w'.floors.getD l 0)

/-- Nothing but its registers and counters waits for a wave's outstanding operations: no lane of it stands at a barrier, and
no handler of it has lost its last lane. -/
def Quiet (w : Wave) : Prop := w.bars = [] ∧ ∀ sv, w.trap = some sv → sv.lanes &&& ~~~w.exited ≠ 0

end Sys2Proof.Claims

/-! ## Memory words -/

/-- A memory word whose checks pass and whose pages are resident starts its operation and goes on (R168-R170, R173, R174,
R178, R190): it leaves an untagged latch entry and, beside the wave, only what a translation leaves behind (R299, R316). No
byte of memory and no register changes before the operation is performed. `VPREF` never traps on its addresses and changes no
register, counter, flag or memory value (R170); `.llc` leaves the L1 as it is. -/
def Obligations.MemoryWordCompletes : Prop :=
  (∀ (i : Instr) (m : MemWord) (cls : Src → Bool) (s : State) (e : Env) (r : Reached),
     memOf e i = some (m, cls) → Issues i s e → memCheck e m cls = .ok r → r.parked = [] → e.act ≠ 0 →
     Machine.exec i s = .next ((noteGo s e m.q r.go).setWave e.gi e.wi (begun e (memOp e m r.go e.w.opSeq)))) ∧
  (∀ (llc : Bool) (a b : Src) (i : I25) (s : State) (e : Env),
     Issues (.vpref llc a b i) s e → chkFootSrc e 8 b = .ok () →
     ∃ t, Machine.exec (.vpref llc a b i) s = .next t ∧ t.gangs = (herePast e s).gangs ∧ t.mem = s.mem ∧
       t.memBad = s.memBad ∧ t.tlb = s.tlb ∧ t.reqs = s.reqs ∧ (llc = true → t = herePast e s))

/-- What a memory word changes beside its wave when it issues is the TLB, the shadow table and the counters (R299, R319): gangs
with their scratchpads, grids, contexts and the rest stay; device memory with the keys of its lines and what the LLC holds too,
where no shadow table is kept. A scratchpad or Hayloft form changes nothing. -/
def Obligations.MemoryWordFrame : Prop :=
  ∀ (s : State) (e : Env) (q : Ask) (go : List (Nat × Nat × Loc)),
    let t := noteGo s e q go
    t.gangs = s.gangs ∧ t.grids = s.grids ∧ t.ctxs = s.ctxs ∧ t.dies = s.dies ∧ t.reqs = s.reqs ∧ t.hub = s.hub ∧
    t.l1 = s.l1 ∧ t.obuf = s.obuf ∧ t.icache = s.icache ∧ t.fills = s.fills ∧ t.memBad = s.memBad ∧ t.timeNs = s.timeNs ∧
    t.cur = s.cur ∧ t.agenda = s.agenda ∧ t.msgs = s.msgs ∧
    ((isSpadForm q.i = true ∨ isHay q.i = true) → t = s) ∧
    (s.shbase = 0 → t.mem = s.mem ∧ t.tags = s.tags ∧ t.olds = s.olds ∧ t.llc = s.llc)

/-- The checks of R168 on the addresses of a memory word, in their order: a global address that is not canonical traps `ACCESS`
with subcode 0; one that is not a multiple of the access size `ALIGN` with subcode 0; a scratchpad or Hayloft access past the
bound `ACCESS` with subcode 1; one that translation denies `ACCESS` with the subcode of R308. `TMASK` holds the lanes that fail,
with the subcode of the lowest of them, or ACT where the word acts once, and `TVAL` the lowest one's address (R95, R168). What
translation through a leaf gives: its permission bits first, then RES (R297, R302, R308). When every page that a memory word
needs is absent, the whole split parks at its word (R25, R302): PC, ACT, UM and RPC stay, no operation starts, no latch moves,
and each page has a request on the gang's die. -/
def Obligations.MemoryWordStops : Prop :=
  (∀ (i : Instr) (m : MemWord) (cls : Src → Bool) (s : State) (e : Env) (x : Nat × Nat) (xs : List (Nat × Nat)),
     memOf e i = some (m, cls) → Issues i s e → memPre e m cls = .ok () →
     let glob : Bool := !isSpadForm m.q.i && !isHay m.q.i
     let as := laneAddrs e m
     let fails (bad : Nat × Nat → Bool) : Prop := as.filter bad = x :: xs
     let none' (bad : Nat × Nat → Bool) : Prop := ∀ y ∈ as, bad y = false
     let far (y : Nat × Nat) : Bool := !canonical y.2
     let odd (y : Nat × Nat) : Bool := y.2 % m.q.align != 0
     let out (y : Nat × Nat) : Bool := (if isSpadForm m.q.i then e.g.spadLen else Config.hayBytes) < y.2 + m.q.size
     let lanes : Mask := if m.q.once then e.act else maskOf fun l => (x :: xs).any fun y => y.1 == l
     let stops (cls sub : Nat) : Prop :=
       Machine.exec i s = .next (takeTrap s e.gi e.wi e.k ⟨cls, sub, 0, BitVec.ofNat 64 x.2, lanes⟩)
     let sound : Prop := (glob = true → none' far) ∧ none' odd
     (glob = true → fails far → stops 4 0) ∧
     ((glob = true → none' far) → fails odd → stops 5 0) ∧
     (glob = false → sound → fails out → stops 4 1) ∧
     (∀ sub, glob = true → sound →
       let tr (y : Nat × Nat) : Tr := translate s e.g ⟨m.q.write, false, e.priv⟩ y.2 m.q.size
       (as.find? fun y => (trFailSub (tr y)).isSome) = some x → fails (fun y => trFailSub (tr y) == some sub) → stops 4 sub)) ∧
  (∀ (s : State) (g : Gang) (want : Want) (va n : Nat),
     let tr := translate s g want va n
     (canonical va = false → tr = .fail 0) ∧
     (canonical va = true → extentFor g va n = none →
       (s.stale = false → leafFor s g va = s.walkFor g.ctx va) ∧
       (leafFor s g va = .unmapped → tr = .fail 2) ∧ (leafFor s g va = .bad → tr = .fail 6) ∧
       ∀ x size, leafFor s g va = .leaf x size →
         let wr : Prop := want.write = true ∧ pteBit x 2 = false
         let pv : Prop := pteBit x 4 = true ∧ want.priv = false
         let ex : Prop := want.exec = true ∧ pteBit x 3 = false
         let here : Prop := pteBit x 7 = false ∨ ptePeer x = Config.pkg ∨ s.reachable (ptePeer x) = true
         (wr → tr = .fail 3) ∧ (¬wr → pv → tr = .fail 4) ∧ (¬wr → ¬pv → ex → tr = .fail 5) ∧
         (¬wr → ¬pv → ¬ex → pteBit x 5 = false → tr = .park) ∧
         (¬wr → ¬pv → ¬ex → pteBit x 5 = true → (here → tr = .ok (leafKey x size va)) ∧ (¬here → tr = .fail 7)))) ∧
  (∀ (i : Instr) (m : MemWord) (cls : Src → Bool) (s : State) (e : Env) (r : Reached),
     memOf e i = some (m, cls) → Issues i s e → memCheck e m cls = .ok r → r.parked ≠ [] →
     (m.q.once = true ∨ lanesIn r.parked = e.act) → e.act ≠ 0 →
     ∃ t w, Machine.exec i s = .next t ∧ t.wave? e.gi e.wi = some w ∧
       w.slot e.k = { e.slot with st := .parked } ∧ w.slot (!e.k) = e.w.slot (!e.k) ∧
       w.ops.map (fun o => { o with act := 0 }) = e.w.ops.map (fun o => { o with act := 0 }) ∧ w.latches = e.w.latches ∧ w.vregs = e.w.vregs ∧ w.sregs = e.w.sregs ∧
       ∀ p ∈ r.parked, ∃ q ∈ t.reqs, q.die = e.g.die ∧ q.ctx = e.g.ctx ∧ q.page = p.2 / 2 ^ 16)

/-- A load of any width and order, performed from memory for every lane that is left (R169, R170, R175, R176, R178): each lane's
elements of `D` and the registers above it are the zero- or sign-extended values, or the stamped value read, and take their
places' marks; `VLDU` gives one value to every lane; a scalar load writes scalar registers, and where these are mask views what it
takes from ACT is dealt with as `MaskViews` says, in the split that then stands in the slot (log 81); `DLD` adds its flags. Other
lanes and registers stay; memory is as accesses to its lines find it (R316), so unchanged where none of them lies in a page with a
key; the operation has left the wave, and an acquire binds later loads (`Left`; how is the model's reading: log 72). `BARA` and
`BARQ` so return what they read at issue. No earlier store of the wave stands in its queue here, and nothing else waits for the
word. -/
def Obligations.LoadPerformed : Prop :=
  ∀ (s : State) (gang wi op gi : Nat) (g : Gang) (w : Wave) (o : MemOp),
    Outstanding s gang wi op gi g w o → Quiet w → isPlainLoad o.kind = true → AllLeft o → (∀ q ∈ w.ops, opBytes q = []) →
    let u := noteAccs s g false (accLen o.kind) o.accs
    let same (t' : State) (w' : Wave) : Prop :=
      t'.wave? gi wi = some w' ∧ t'.mem = u.mem ∧ t'.memBad = s.memBad ∧ t'.gangs.map (·.spad) = s.gangs.map (·.spad) ∧
      w'.flags = w.flags ||| loadedFlags u gi o ∧ Left s gi t'.fills w w' o
    ((∀ a ∈ o.accs, a.enc = none) → u = s) ∧
    (∀ (d : VR) (n : Nat), o.dst = .vec d n → o.kind ≠ .value → d.toNat + n ≤ w.vregs.length →
      (∀ k, k < n → (w.vreg (d.toNat + k)).lanes.length = 96) →
      ∃ t' w', Machine.exec (.loadWriteback gang wi op allLanes false) s = .next t' ∧ same t' w' ∧
        (∀ l k, l < 96 → k < n →
          let r := w'.vreg (d.toNat + k)
          (∀ a x, o.left.getLsbD l = true → accOf o l = some a → (loaded u gi o a)[k]? = some x →
            r.lane l = x.1 ∧ r.bad.getLsbD l = x.2) ∧
          (o.left.getLsbD l = false →
            r.lane l = (w.vreg (d.toNat + k)).lane l ∧ r.bad.getLsbD l = (w.vreg (d.toNat + k)).bad.getLsbD l)) ∧
        (∀ m, (m < d.toNat ∨ d.toNat + n ≤ m) → w'.vreg m = w.vreg m) ∧
        w'.sregs = w.sregs ∧ w'.sbad = w.sbad ∧ w'.slot0 = w.slot0 ∧ w'.slot1 = w.slot1) ∧
    (∀ (d : SR) (n : Nat) (a : Acc), o.dst = .scl d n → o.accs = [a] → (∀ t, o.kind ≠ .loadU t) →
      let v := retScl w o.slot d.toNat ((loaded u gi o a).take n)
      ∃ t' w', Machine.exec (.loadWriteback gang wi op allLanes false) s
          = .next (opDone (afterMask t' gi wi o.slot (w.slot o.slot).act) gi wi) ∧ same t' w' ∧
        w'.vregs = w.vregs ∧ w'.sregs = v.sregs ∧ w'.sbad = v.sbad ∧ w'.slot0 = v.slot0 ∧ w'.slot1 = v.slot1)

/-- A store, `LBLST`, `DADD` or `DADD.A` is performed at memory (R171, R178, R246, R265). A store, once accepted: each byte that
the operation holds for a place of physical memory is there, the highest lane's where lanes meet, and every other byte keeps its
value, its line read as the access finds it (R316); so does every scratchpad if the operation names none of its places; `LBLST`
stores the label and clears SVALID of its line. A scratchpad store changes no physical memory. The operation has left the wave.
A global store that is not accepted yet is accepted first, after every earlier store of the wave, the store of a `DADD` among
them; nothing else changes (R108). `DADD.A` is one atomic access per lane (`AtomicLane`), at the memory side. `DADD` reads the
words of all its lanes, then stores their sums under `STEP`, and returns the sums; a poisoned word stays and returns its raw
value, marked (R175). -/
def Obligations.StorePerformed : Prop :=
  (∀ (s : State) (gang wi op gi : Nat) (g : Gang) (w : Wave) (o : MemOp),
     Outstanding s gang wi op gi g w o → Quiet w → isPlainStore o.kind = true → (o.ctr = .st → o.accepted = true) →
     isAcq o = false → s.mem.wf = true →
     let u := noteAccs s g true (accLen o.kind) o.accs
     ((∀ a ∈ o.accs, a.enc = none) → u = s) ∧
     (o.kind = .lblst → opBytes o
       = o.accs.flatMap fun a => storeBytes a.loc 8 a.x.toNat a.bad ++ [⟨svalidAt a.loc, 0, false⟩]) ∧
     ∃ t w', Machine.exec (.storePerformed gang wi op) s = .next t ∧ t.wave? gi wi = some w' ∧
       (∀ k, t.mem.get k = (lastByte (opBytes o) (.mem k)).getD (u.mem.get k)) ∧
       ((∀ a ∈ o.accs, a.loc.isSpad = false) → t.gangs.map (·.spad) = s.gangs.map (·.spad)) ∧
       ((∀ a ∈ o.accs, a.loc.isSpad = true) → t.mem = s.mem ∧
         (g.spad.wf = true → g.spadBad = [] → ∀ x, t.getByte gi (.spad x) = (lastByte (opBytes o) (.spad x)).getD (s.getByte gi (.spad x)))) ∧
       w'.vregs = w.vregs ∧ w'.sregs = w.sregs ∧ w'.ops = w.ops.filter (·.id != op)) ∧
  (∀ (s : State) (gang wi op gi : Nat) (w : Wave) (o : MemOp),
     s.gangIdx gang = some gi → s.wave? gi wi = some w → w.ops.find? (·.id == op) = some o → isStoreKind o.kind = true →
     o.ctr = .st → o.accepted = false →
     (∀ q ∈ w.ops, q.id < o.id → (q.ctr = .st ∨ (q.kind = .dadd ∧ q.ctr = .vl)) → q.accepted = true) →
     Machine.exec (.storePerformed gang wi op) s = .next (s.setWave gi wi
       { w with ops := w.ops.map fun q => if q.id = op then { q with accepted := true } else q })) ∧
  (∀ (s : State) (gang wi op gi : Nat) (g : Gang) (w : Wave) (o : MemOp),
     Outstanding s gang wi op gi g w o → Quiet w → o.kind = .daddA → (o.ctr = .st → o.accepted = true) → isAcq o = false →
     let v := (atomLanes (noteAccs s g true 8 o.accs) gi g { o with scope := if isWide o then o.scope else 2 } o.accs).1
     ∃ t w', Machine.exec (.storePerformed gang wi op) s = .next t ∧ t.wave? gi wi = some w' ∧ t.mem = v.mem ∧
       t.memBad = v.memBad ∧ t.gangs.map (·.spad) = v.gangs.map (·.spad) ∧
       w'.vregs = w.vregs ∧ w'.sregs = w.sregs ∧ w'.flags = w.flags ∧ w'.ops = w.ops.filter (·.id != op)) ∧
  (∀ (s : State) (gang wi op gi : Nat) (g : Gang) (w : Wave) (o : MemOp) (d : VR) (m : Mask) (stale : Bool),
     Outstanding s gang wi op gi g w o → Quiet w → o.kind = .dadd → o.dst = .vec d 1 → isAcq o = false →
     d.toNat < w.vregs.length → (w.vreg d.toNat).lanes.length = 96 → s.mem.wf = true →
     (o.accs.map (·.lane)).Nodup → (∀ a ∈ o.accs, a.lane < 96 ∧ o.left.getLsbD a.lane = true) →
     let u := noteAccs s g true 8 o.accs
     let v := o.accs.foldl (fun s a => atomLine s g.byreId o a.loc) u
     let old (a : Acc) : D := BitVec.ofNat 64 (atomNum v gi g o a.loc 8)
     let bad (a : Acc) : Bool := s.rangeBad gi a.loc 8
     let sum (a : Acc) : D × W × Flags := stampedAdd o.era (old a) (a.x.setWidth 32)
     let bytes := o.accs.flatMap fun a => if bad a then [] else storeBytes a.loc 8 (sum a).1.toNat 0
     (∀ a ∈ o.accs, (isWide o = true ∨ a.loc.isSpad = true) → old a = BitVec.ofNat 64 (u.numLoc gi a.loc 8)) ∧
     ∃ t w', Machine.exec (.loadWriteback gang wi op m stale) s = .next t ∧ t.wave? gi wi = some w' ∧
       (∀ k, t.mem.get k = (lastByte bytes (.mem k)).getD (u.mem.get k)) ∧
       ((∀ a ∈ o.accs, a.loc.isSpad = false) → t.gangs.map (·.spad) = s.gangs.map (·.spad)) ∧
       (∀ a ∈ o.accs, (w'.vreg d.toNat).lane a.lane = (if bad a then hi32 (old a) else (sum a).2.1) ∧
         (w'.vreg d.toNat).bad.getLsbD a.lane = bad a) ∧
       (∀ l, (∀ a ∈ o.accs, a.lane ≠ l) → (w'.vreg d.toNat).lane l = (w.vreg d.toNat).lane l) ∧
       (∀ n, n ≠ d.toNat → w'.vreg n = w.vreg n) ∧ w'.sregs = w.sregs ∧
       w'.flags = w.flags ||| o.accs.foldl (fun f a => f ||| if bad a then 0 else (sum a).2.2) 0 ∧
       w'.ops = w.ops.filter (·.id != op))

/-- One lane of an atomic access, at a place of memory or of the scratchpad (R173, R178, R266, R280): the location takes
`Op(old, x)`, or the new value where the comparison holds, or the stamped sum of `DADD.A`; the lane returns the old value with its
mark, `DADD.A` nothing; no other byte changes. The old value is the location's, but that an atomic at `.wave` or `.gang` reads a line that its Byre's L1 holds. A
poisoned location stays, and its mark is returned (R175). -/
def Obligations.AtomicLane : Prop :=
  ∀ (s : State) (gi : Nat) (g : Gang) (o : MemOp) (a : Acc), s.gang? gi = some g → s.memOk = true →
    let n := accLen o.kind
    let r := atomLane s gi g o a
    let old := atomNum (atomLine s g.byreId o a.loc) gi g o a.loc n
    let bad := s.rangeBad gi a.loc n
    let now := r.1.numLoc gi a.loc n
    let lo := BitVec.ofNat 32 old
    let hi := BitVec.ofNat 32 (old / 2 ^ 32)
    ((a.loc.isSpad = true ∨ isWide o = true
        ∨ ∀ i k, i < n → a.loc.add i = .mem k → lineOf s g.byreId k o.floor = none) → old = s.numLoc gi a.loc n) ∧
    (bad = true → r.1.mem = s.mem ∧ r.1.memBad = s.memBad ∧ r.1.gangs = s.gangs ∧ r.2.fl = 0) ∧
    (∀ l, (∀ i, i < n → l ≠ a.loc.add i) → r.1.getByte gi l = s.getByte gi l) ∧
    (∀ op, o.kind = .atom op → r.2.els = [(lo, bad)] ∧
      (bad = false → now = (atomOp op lo (a.x.setWidth 32)).1.toNat ∧ r.2.fl = (atomOp op lo (a.x.setWidth 32)).2)) ∧
    (∀ op, o.kind = .atomP op → r.2.els = [(lo, bad), (hi, bad)] ∧
      (bad = false → now = (atomOpP op (BitVec.ofNat 64 old) (a.x.setWidth 64)).toNat)) ∧
    (o.kind = .cas → r.2.els = [(lo, bad)] ∧
      (bad = false → now = if old = (a.x.setWidth 32).toNat then a.y.toNat % 2 ^ 32 else s.numLoc gi a.loc n)) ∧
    (o.kind = .casP → r.2.els = [(lo, bad), (hi, bad)] ∧
      (bad = false → now = if old = (a.x.setWidth 64).toNat then a.y.toNat else s.numLoc gi a.loc n)) ∧
    (o.kind = .daddA → r.2.els = [] ∧ r.2.fl = 0 ∧
      (bad = false → now = (stampedAdd o.era (BitVec.ofNat 64 old) (a.x.setWidth 32)).1.toNat))

/-- `VAPND` (R174): its operation holds the lanes of ACT in ascending order, all at one place and without data; performed, it
adds the number of lanes to the counter modulo 2^32 in one access and gives the lane of rank r the old value plus r, in `D`.
No other byte of memory, and no other lane or register of the wave, changes. -/
def Obligations.AppendCounts : Prop :=
  (∀ (d : VR) (a : Src) (i : I25) (s : State) (e : Env) (r : Reached),
     Issues (.vapnd d a i) s e → memCheck e (mVapnd d a i) Src.mi = .ok r → r.parked = [] →
     let o := memOp e (mVapnd d a i) r.go e.w.opSeq
     o.kind = .apnd ∧ o.dst = .vec d 1 ∧ o.accs.map (·.lane) = lanesOf e.act ∧ (∀ x ∈ o.accs, ∀ y ∈ o.accs, x.loc = y.loc) ∧
     ∀ x ∈ o.accs, x.x = 0 ∧ x.y = 0 ∧ o.left.getLsbD x.lane = true) ∧
  (∀ (s : State) (gang wi op gi : Nat) (g : Gang) (w : Wave) (o : MemOp) (d : VR) (l : Loc) (m : Mask) (stale : Bool),
     Outstanding s gang wi op gi g w o → Quiet w → o.kind = .apnd → o.dst = .vec d 1 → d.toNat < w.vregs.length →
     (w.vreg d.toNat).lanes.length = 96 → s.memOk = true → s.rangeBad gi l 4 = false → o.accs ≠ [] →
     (∀ a ∈ o.accs, a.loc = l ∧ o.left.getLsbD a.lane = true) → (o.accs.map (·.lane)).Nodup →
     let u := noteAccs s g true 4 o.accs
     let c := atomNum (atomLine u g.byreId o l) gi g o l 4
     ((∀ a ∈ o.accs, a.enc = none) → u = s) ∧
     ((isWide o = true ∨ l.isSpad = true) → c = u.numLoc gi l 4) ∧
     ∃ t w', Machine.exec (.loadWriteback gang wi op m stale) s = .next t ∧ t.wave? gi wi = some w' ∧
       t.numLoc gi l 4 = (c + o.accs.length) % 2 ^ 32 ∧
       (∀ x, (∀ i, i < 4 → x ≠ l.add i) → t.getByte gi x = u.getByte gi x) ∧
       (∀ n a, o.accs[n]? = some a → (w'.vreg d.toNat).lane a.lane = BitVec.ofNat 32 (c + n) ∧
         (w'.vreg d.toNat).bad.getLsbD a.lane = false) ∧
       (∀ l, (∀ a ∈ o.accs, a.lane ≠ l) → (w'.vreg d.toNat).lane l = (w.vreg d.toNat).lane l) ∧
       (∀ n, n ≠ d.toNat → w'.vreg n = w.vreg n) ∧ w'.sregs = w.sregs)

/-- `SMERGE` and `DSTAMP` (R178, R179): both write a register pair under ACT with one latch entry, of the even one. `SMERGE` adds
its flags and takes here no floating-point trap; `DSTAMP` stamps with `STEP` and copies the value, mark and all. -/
def Obligations.StampedRegisterWords : Prop :=
  ∀ (nw : Bool) (d : VR) (a b : Src) (cls : BitVec 4) (s : State) (e : Env),
    let write (lo hi : List W) (bad : Mask) (fl : Flags) : State :=
      let r0 := mergeReg (e.w.vreg d.toNat) e.act lo 0
      let r1 := mergeReg (e.w.vreg (d.toNat + 1)) e.act hi bad
      s.setWave e.gi e.wi { onward e.w e.k with
        vregs := if nw then e.w.vregs else setAt (setAt e.w.vregs d.toNat r0) (d.toNat + 1) r1
        flags := e.w.flags ||| fl, latches := shifted e.w (.vec d r0) nw }
    (Issues (.smerge nw d a b) s e → smergeCheck e d a b = .ok () →
      let x := e.vpair a
      let y := e.vpair b
      let rs := laneList.map fun l =>
        if e.act.getLsbD l then mergeLane e.g.era (x.1.lane l, x.2.lane l) (y.1.lane l, y.2.lane l) else (0, 0, 0)
      let fl := rs.foldl (fun f r => f ||| r.2.2) 0
      fl &&& e.w.fpen = 0 →
      Machine.exec (.smerge nw d a b) s = .next (write (rs.map (·.1)) (rs.map (·.2.1)) 0 fl)) ∧
    (Issues (.dstamp nw d a cls) s e →
      Passes [chkFoot e 6 d.toNat 2, chkFootSrc e 7 a, chkLatches e [⟨7, a, Src.gv⟩],
        chkBusy e (srcRegs e.w e.k a 1) ([d.toNat, d.toNat + 1], []) false] →
      Machine.exec (.dstamp nw d a cls) s = .next
        (write (List.replicate 96 (BitVec.ofNat 32 (e.g.step.toNat % 2 ^ 24 * 2 ^ 8 + cls.toNat * 2 ^ 4)))
          (e.vsrc .s32 a).lanes (e.vsrc .s32 a).bad 0))

/-! ## Fences, barriers, troughs -/

/-- `FENCE` goes on once every earlier load and returning atomic has returned, every earlier release has been performed, and
every earlier store of its colours (R180, R270); `XFENCE` likewise, with the stores of every colour where its first class is V
and with none where it is another; before that their splits block. An `XFENCE` from V waits first for the writes that waves of
its scope made before an arrival which the wave may have observed (R184). Both take over what the agents of their scope have
acquired, and at `.die` or wider later plain loads of the split ignore older L1 lines (R259, R271). That the words wait at the
issue, and for what, is the model's reading (log 27); how later loads come to ignore older lines too (log 72). -/
def Obligations.FencesComplete : Prop :=
  ∀ (scope : BitVec 3) (cols : BitVec 8) (f t : PClass) (s : State) (e : Env),
    let drained (m : BitVec 8) : Prop :=
      ∀ o ∈ e.w.ops, o.id < e.upto → isPlainStore o.kind = true ∧ isRel o = false ∧ m.getLsbD o.col.toNat = false
    let acquired : State := (herePast e s).acquire e.gi e.wi e.act scope.toNat
    let raised : State := if scope.toNat < 2 then acquired
      else acquired.modWave e.gi e.wi fun w => w.raise e.act (s.fills + 1)
    (Issues (.fence scope cols) s e → drained cols → Machine.exec (.fence scope cols) s = .next raised) ∧
    (Issues (.fence scope cols) s e → ¬drained cols →
      Machine.exec (.fence scope cols) s = .next (settle (s.setWave e.gi e.wi
        (e.w.modSlot e.k fun x => { x with st := .blocked (.fence cols e.upto) })) e.gi e.wi)) ∧
    (let wide : Bool := 2 ≤ scope.toNat
     let cols' : BitVec 8 := if f = .v then 0xFF else 0
     let arrived : Prop := f = .v → s.owing e.gi wide = false
     let waits (y : Why) : State := settle (s.setWave e.gi e.wi (e.w.modSlot e.k fun x => { x with st := .blocked y })) e.gi e.wi
     Issues (.xfence scope f t) s e →
       (arrived → drained cols' → Machine.exec (.xfence scope f t) s = .next (crossTo raised e f t scope.toNat)) ∧
       (arrived → ¬drained cols' → Machine.exec (.xfence scope f t) s = .next (waits (.fence cols' e.upto))) ∧
       (¬arrived → Machine.exec (.xfence scope f t) s = .next (waits (.arrivals wide))))

/-- The barrier words at a place that they reach (R182, R26). `BARI` keeps GEN and PHASE; `BARA` returns the old GEN and then
arrives; `BARW` goes on when GEN differs from its operand; `BAR` leaves its split in BarWait; `BARQ` returns GEN and
ARRIVED. A `BARA` waits for the operations that its arrival follows, as the arrival of a `BAR` does: on an object that publishes
for all earlier ones of the wave (a release: R184), else for its earlier releases and acquires at `.gang` and wider (R258). Which
those are is the model's reading (log 27), and that a poisoned object stays as it is (log 43). -/
def Obligations.BarrierWordsComplete : Prop :=
  ∀ (d : SR) (a b : Src) (i : I25) (s : State) (e : Env) (l : Loc),
    let reached (o : OneAsk) : Prop := chkOnePlace e o = .ok (.at' l)
    let noted (o : OneAsk) : State := (noteOne e o).s
    let ctr : Ctr := if isSpadForm i then .sp else .vl
    (let o := { barAsk a i true none with rd := ([], [d.toNat, d.toNat + 1]), pre := eatScl e.w d.toNat 2 };
      Issues (.bari d a i) s e → reached o →
      let c := (e.w.sreg e.k (d.toNat + 1)).toNat
      Machine.exec (.bari d a i) s = .next (if (noted o).rangeBad e.gi l 16 then herePast e (noted o)
        else (herePast e (noted o)).putObj e.gi l 0 [0, (e.w.sreg e.k d.toNat).toNat,
          c / 256 % 64 * 256 + min (c % 8) 5 * 2 + (noted o).objNum e.gi l 8 % 2])) ∧
    (let o := { barAsk a i true (some b) with wr := ([], [d.toNat]) };
      Issues (.bara d a b i) s e → Passes [chkCtr e ctr] → reached o →
      let pub := objPub (noted o) e.gi l
      let held : Prop := ∃ q ∈ e.w.ops, q.id < e.upto ∧ holdsArrival pub q = true
      let gen := BitVec.ofNat 64 ((noted o).objNum e.gi l 12)
      (¬held → Machine.exec (.bara d a b i) s = .next (arrive
        ((sawPhase ((noted o).setWave e.gi e.wi (begun e (valueOp (noteOne e o) o l d 1 gen ((noted o).rangeBad e.gi l 16))))
          e.gi e.wi e.act l).modWave e.gi e.wi fun w => { w with arrSeq := e.upto }) e.gi l (e.ssrc .s32 b).1.toNat)) ∧
      (held → Machine.exec (.bara d a b i) s = .next (settle (s.setWave e.gi e.wi
        (e.w.modSlot e.k fun x => { x with st := .blocked (.publish e.upto (pub != 0)) })) e.gi e.wi))) ∧
    (let o := barAsk a i false (some b);
      Issues (.barw a b i) s e → reached o →
      (BitVec.ofNat 32 ((noted o).objNum e.gi l 12) ≠ (e.ssrc .s32 b).1 →
        Machine.exec (.barw a b i) s = .next (sawPhase (herePast e (noted o)) e.gi e.wi e.act l)) ∧
      (BitVec.ofNat 32 ((noted o).objNum e.gi l 12) = (e.ssrc .s32 b).1 →
        Machine.exec (.barw a b i) s = .next (settle (s.setWave e.gi e.wi
          (e.w.modSlot e.k fun x => { x with st := .blocked (.barw l (e.ssrc .s32 b).1) })) e.gi e.wi))) ∧
    (let o := barAsk a i true none;
      Issues (.bar a i) s e → reached o →
      Machine.exec (.bar a i) s = .next (settle ((noted o).setWave e.gi e.wi
        (({ e.w with
            latches := shifted e.w .untagged false
            bars := ⟨e.act, e.slot.pc, l, addrVal i (baseVal e a i).1 0, false, none, false⟩ ::
              (e.w.bars.map fun x => { x with lanes := x.lanes &&& ~~~e.act }).filter fun x => x.lanes != 0 } : Wave).modSlot
          e.k fun x => { x with st := .barWait })) e.gi e.wi)) ∧
    (let o := { barAsk a i false none with wr := ([], [d.toNat, d.toNat + 1]) };
      Issues (.barq d a i) s e → Passes [chkCtr e ctr] → reached o →
      let x := joinPair (BitVec.ofNat 32 ((noted o).objNum e.gi l 12)) (BitVec.ofNat 32 ((noted o).objNum e.gi l 0))
      Machine.exec (.barq d a i) s = .next
        (sawPhase ((noted o).setWave e.gi e.wi (begun e (valueOp (noteOne e o) o l d 2 x ((noted o).rangeBad e.gi l 16))))
          e.gi e.wi e.act l))

/-- `Arrive(n)` of R182 on an object free of poison; an arrival of 0 changes nothing, and a phase that completes leaves the
object's must-be-zero bits zero (R69, R181). That ARRIVED + n is taken modulo 2^32 before it is compared with EXPECT is the
model's reading (log 43), as is what a poisoned object does, of which nothing is said here. The premises on
canonical memories and on stacks clear of the object are the invariant `MemoryCanonicalStep` and the separation that R24 gives. -/
def Obligations.ArriveCounts : Prop :=
  ∀ (s : State) (gi : Nat) (g : Gang) (obj : Loc) (n : Nat),
    s.gang? gi = some g → s.memOk = true → s.rangeBad gi obj 16 = false → ClearOfStacks s obj →
    let t := arrive s gi obj n
    let arrived := s.objNum gi obj 0
    let expect := s.objNum gi obj 4
    let gen := s.objNum gi obj 12
    let sum := (arrived + n) % 2 ^ 32
    let full : Prop := n ≠ 0 ∧ expect ≤ sum
    let word := s.objNum gi obj 8
    t.objNum gi obj 4 = expect ∧
    (full → t.objNum gi obj 12 = (gen + 1) % 2 ^ 32 ∧ 
      t.objNum gi obj 8 = word / 256 % 64 * 256 + word / 2 % 8 * 2 + (gen + 1) % 2 ∧
      t.objNum gi obj 0 = if expect = 0 then 0 else sum - expect) ∧
    (¬full → (n = 0 → t = s) ∧ t.objNum gi obj 12 = gen ∧ t.objNum gi obj 8 = word ∧ t.objNum gi obj 0 = sum)

/-- Trough words at a declared trough (R185): `TRGPUT` appends words 0-15 to the ring while it has a free slot and the silo is
empty; `TRGGET` takes the oldest slot, for a wave that holds a reservation or where one is unreserved; `TRGTRY` reserves
or answers 0. A take, and a `TRGTRY` that answers 1, acquire at `.gang` (R259). A full trough without a silo blocks `TRGPUT`; with
one the slot goes to the silo's memory (R332), and a silo at its quota traps `SILO`. The stage is neither halted nor stopping here.
Which place of the slot array a slot has (`putHeader`), and which of the silo (`siloVa`), is the model's choice (log 16); how an
acquire binds later loads is its reading (log 72). -/
def Obligations.TroughWordsComplete : Prop :=
  ∀ (d : VR) (c : SR) (a : Src) (i : I25) (s : State) (e : Env) (off t : Nat) (x : Trough),
    let ask := trgAsk a i
    let put := { ask with rd := ([d.toNat], []) }
    let get := { ask with wr := ([d.toNat], []) }
    let try' := { ask with wr := ([], [c.toNat]) }
    e.g.troughIdx off = some t → e.g.trough? t = some x → e.g.halted e.w.stage = false → e.g.stopping = false →
    isSpadForm i = true →
    (Issues (.trgput d a i) s e → Passes [chkFoot e 6 d.toNat 1, chkDrained e 0xFF] →
      chkOnePlace e put = .ok (.at' (.spad off)) →
      (x.silo = 0 → x.ring.length < x.slots →
        Machine.exec (.trgput d a i) s = .next (putHeader ((herePast e s).modGang e.gi fun g =>
          { g with troughs := modAt g.troughs t fun y => { y with ring := y.ring ++ [slotOf (e.w.vreg d.toNat)] } }) e.gi t 1 0)) ∧
      (¬(x.silo = 0 ∧ x.ring.length < x.slots) → e.g.siloK = 0 →
        Machine.exec (.trgput d a i) s = .next (settle (s.setWave e.gi e.wi
          (e.w.modSlot e.k fun y => { y with st := .blocked (.troughFull x.toff) })) e.gi e.wi)) ∧
      (¬(x.silo = 0 ∧ x.ring.length < x.slots) → x.silo < 16 * e.g.siloK →
        let va := siloVa e.g t x x.silo
        ∀ k, translate s e.g ⟨true, false, e.priv⟩ va 64 = .ok k →
        Machine.exec (.trgput d a i) s = .next (putHeader
          (storePut (noteAccess (modTrough (herePast e s) e.gi t fun y => { y with silo := y.silo + 1 }) e.g
            ⟨true, false, e.priv⟩ va 64) e.gi 320 none (slotBytes (.mem k) (slotOf (e.w.vreg d.toNat)))) e.gi t 1 0)) ∧
      (¬(x.silo = 0 ∧ x.ring.length < x.slots) → e.g.siloK ≠ 0 → 16 * e.g.siloK ≤ x.silo →
        Machine.exec (.trgput d a i) s = .next (takeTrap s e.gi e.wi e.k ⟨8, 0, 0, BitVec.ofNat 64 x.toff, e.act⟩))) ∧
    (Issues (.trgget d a i) s e → Passes [chkFoot e 6 d.toNat 1] → chkOnePlace e get = .ok (.at' (.spad off)) →
      ∀ v rest, x.ring = v :: rest →
      (x.toff ∈ e.w.resv ∨ reserved e.g x.toff < x.ring.length) →
      Machine.exec (.trgget d a i) s = .next (putHeader ((s.setWave e.gi e.wi (s.acquired e.gi { passed e with
          vregs := setAt e.w.vregs d.toNat (takeSlot (e.w.vreg d.toNat) e.act v)
          resv := e.w.resv.filter (· != x.toff) } e.act 0)).modGang e.gi fun g =>
          { g with troughs := modAt g.troughs t fun y => { y with ring := rest } }) e.gi t 0 1)) ∧
    (Issues (.trgtry c a i) s e → chkOnePlace e try' = .ok (.at' (.spad off)) →
      let got : Bool := e.w.resv.contains off || decide (reserved e.g off < x.ring.length)
      let w : Wave := { onward (e.w.setSreg e.k c.toNat (if got then 1 else 0) false) e.k with
        latches := shifted e.w .untagged false
        resv := if got then insertNat off e.w.resv else e.w.resv }
      Machine.exec (.trgtry c a i) s = .next (landed s e (if got then s.acquired e.gi w e.act 0 else w)))

/-! ## Futures and engines -/

/-- `FTEST`, `FWAIT` and `FCANCEL` (R191): a Pending future tests as 0; a future that has left Pending yields its status word and
its operation's writes count as observed (R180); `FWAIT` yields 0 for a superseded or consumed arming, blocks on a Pending
one; `FCANCEL` consumes an ended future, leaves an Empty one, and asks for the cancellation of a Pending one's operation. -/
def Obligations.FutureWordsComplete : Prop :=
  ∀ (d : SR) (f : FR) (a : Src) (i : I25) (s : State) (e : Env),
    let x := e.w.fut f.toNat
    (Issues (.ftest d (.f f)) s e → chkBusy e ([], []) ([], [d.toNat]) false = .ok () →
      (x.st = .pending → Machine.exec (.ftest d (.f f)) s = .next (landed s e (oneScl e e.w d 0 false false))) ∧
      (x.st ≠ .pending → x.st ≠ .empty → Machine.exec (.ftest d (.f f)) s
        = .next (landed s e (oneScl e (observe e f.toNat) d x.status false false))) ∧
      (x.st = .empty → Machine.exec (.ftest d (.f f)) s
        = .next (takeTrap s e.gi e.wi e.k ⟨10, 0, 0, BitVec.ofNat 64 (0xC0 + f.toNat), e.act⟩))) ∧
    (∀ l n, Issues (.fwait d a i) s e → isSpadForm i = true → Passes [chkCtr e .sp] →
      chkOnePlace e { handleAsk a i false with wr := ([], [d.toNat]) } = .ok (.at' l) → loadHandle e l = .ok n →
      let h := handleOf n
      (∀ v, e.g.wave? h.wave = some v →
        let y := v.fut h.freg.toNat
        (y.serial ≠ h.ser ∨ y.st = .empty → Machine.exec (.fwait d a i) s
          = .next (landed s e (oneScl e e.w d 0 false false))) ∧
        (y.serial = h.ser → y.st = .pending → Machine.exec (.fwait d a i) s = .next (settle (s.setWave e.gi e.wi
          (e.w.modSlot e.k fun z => { z with st := .blocked (.fwait h.wave h.freg h.ser) })) e.gi e.wi)) ∧
        (y.serial = h.ser → y.st ∈ [FState.done, .failed, .cancelled] → Machine.exec (.fwait d a i) s
          = .next (landed s e (oneScl e (s.futSeen e.gi e.w e.act y.cls) d y.status false false)))) ∧
      (e.g.wave? h.wave = none → Machine.exec (.fwait d a i) s
        = .next (takeTrap s e.gi e.wi e.k ⟨10, 2, 0, BitVec.ofNat 64 n, e.act⟩))) ∧
    (Issues (.fcancel (.f f)) s e →
      (x.st = .empty → Machine.exec (.fcancel (.f f)) s = .next (herePast e s)) ∧
      (x.st = .pending → Machine.exec (.fcancel (.f f)) s
        = .next ((herePast e s).modGang e.gi fun g => askCancel g e.w.idx f x.serial)) ∧
      (x.st ∈ [FState.done, .failed, .cancelled] → Machine.exec (.fcancel (.f f)) s = .next (s.setWave e.gi e.wi
        { passed e with futs := setAt e.w.futs f.toNat { x with st := .empty, status := 0 } })))

namespace Sys2Proof.Claims

open Sys2Proof.Machine

/-- The block-form commands of rows 0xB5-0xBF and 0xE2: future, block, `OP`, variant and class of path (R188, R255). -/
def blockOf : Instr → Option (FR × Blk × Nat × Nat × PClass)
  | .copyt d b => some (d, b, 0xB5, 0, .c)
  | .binopen d b => some (d, b, 0xB6, 0, .b)
  | .binplay d b => some (d, b, 0xB8, 0, .b)
  | .xsect d b => some (d, b, 0xB9, 0, .s)
  | .smergeu d b => some (d, b, 0xBA, 0, .s)
  | .topk d b => some (d, b, 0xBB, 0, .s)
  | .cvtcsr d b => some (d, b, 0xBC, 0, .s)
  | .cvtres d b => some (d, b, 0xBC, 1, .s)
  | .taskput d b => some (d, b, 0xBD, 0, .s)
  | .stsweep d b => some (d, b, 0xBE, 0, .s)
  | .rinv d b => some (d, b, 0xBF, 0, .s)
  | .hayfill d b => some (d, b, 0xE2, 0, .c)
  | _ => none

/-- The checks of a block operand of `size` bytes before its address (R188, R189). -/
def blockPre (e : Env) (b : Blk) : List (Chk Unit) :=
  [chkBusy e (srcRegs e.w e.k b.base (if b.bsp then 1 else 2)) ([], []) false,
    chkPoisonS e [(srcNum e.w e.k b.base, blkBad e b)] 1]

/-- The block of `size` bytes is reached at `l`. -/
def BlockAt (e : Env) (b : Blk) (size : Nat) (l : Loc) : Prop := chkBlkAt e b size = .ok (.at' l)

/-- The machine after a block was read from memory. -/
def blockNoted (e : Env) (b : Blk) (size : Nat) : State :=
  if b.bsp then e.s else noteAccess e.s e.g ⟨false, false, e.priv⟩ (blkVa e b) size

/-- The word is past, its future is Pending, and the gang holds the new engine operation. -/
def opStarted (e : Env) (s : State) (f : FR) (o : EngOp) : State :=
  (s.setWave e.gi e.wi (armedWave e f o.pclass)).modGang e.gi fun g =>
    { g with eops := g.eops ++ [o], nextOp := g.nextOp + 1 }

/-- The word is past, its future is Pending, and the gang's Churn queue holds the new entry. -/
def entryStarted (e : Env) (s : State) (f : FR) (q : ChEntry) : State :=
  (s.setWave e.gi e.wi (armedWave e f .m)).modGang e.gi fun g =>
    { g with nextOp := g.nextOp + 1, ch := { g.ch with queue := g.ch.queue ++ [q] } }

/-- The tile-form words (R210). -/
def tileOf : Instr → Option (FR × Blk × ChKind)
  | .cmma z d b acc => some (d, b, .mma none z acc.toNat)
  | .cmmas p z d b acc => some (d, b, .mma (some p) z acc.toNat)
  | .cstore d b acc => some (d, b, .store acc.toNat)
  | .cload d b acc => some (d, b, .load acc.toNat)
  | _ => none

/-- Queued Churn words without a tile block: future, entry, and their operand checks (R221, R244, R245). -/
def queuedOf (e : Env) : Instr → Option (FR × ChKind × List (Chk Unit))
  | .czero d acc => some (d, .zero acc.toNat, [chkQueued e d []])
  | .cmova add d dst src => some (d, .mova add dst.toNat src.toNat, [chkQueued e d []])
  | .cscale d a b acc rm => some (d, .scale acc.toNat (e.ssrc .f32 a).1 (e.ssrc .f32 b).1 rm,
      [chkQueued e d [⟨7, a, Src.gs⟩, ⟨8, b, Src.gs⟩],
        chkBusy e (cat2 (srcRegs e.w e.k a 1) (srcRegs e.w e.k b 1)) ([], []) false,
        chkPoisonS e [(0, (e.ssrc .f32 a).2), (0, (e.ssrc .f32 b).2)] 3])
  | .cepi relu d a acc => some (d, .epi acc.toNat relu (if a = .x .zero then none else some (e.psrc a).1.toNat),
      [chkQueued e d [⟨7, a, Src.spz⟩], chkBusy e (srcRegs e.w e.k a 2) ([], []) false,
        chkPoisonS e [(srcNum e.w e.k a, (e.psrc a).2)] 1])
  | .relld d b slot => some (d, .relld slot.toNat (blkVa e b) b.bsp, [chkStripe e d b [] ([], [])])
  | .lblsum d b slot n => some (d, .lblsum slot.toNat (blkVa e b) b.bsp (e.ssrc .s32 n).1.toNat,
      [chkStripe e d b [⟨8, n, Src.gs⟩] (srcRegs e.w e.k n 1), chkPoisonS e [(0, (e.ssrc .s32 n).2)] 3])
  | _ => none

/-- Churn and label words, which only the halter's wave of a gang with a Churn may issue (R208). -/
def isChurnWord : Instr → Bool
  | .cmma .. | .cmmas .. | .cstore .. | .cload .. | .czero .. | .cmova .. | .cscale .. | .cepi .. | .relld .. | .lblsum ..
  | .accept .. | .cspec .. | .cresolve .. | .crdv .. | .cwrv .. | .draft .. | .lblld .. | .lblldAdm .. | .lblst .. => true
  | _ => false

/-- Privileged words (R27, R317). -/
def isPrivWord : Instr → Bool
  | .hayfill .. | .tlbinv .. | .perfrd .. | .perfcfg .. | .ctxsave .. | .ctxload .. | .shtblSet .. | .shtblFlush ..
  | .fltresOk .. | .fltresDeny .. => true
  | _ => false

/-- The words of row 0xE0 that arm a future: their operand pairs and words, and the operation (R294, R299, R318). -/
def sysOf (e : Env) : Instr → Option (FR × List (Nat × Src) × List (Nat × Src) × EngKind)
  | .tlbinv sc d a b c => some (d, [(7, a)], [(8, b), (9, c)],
      .tlbinv sc (e.psrc a).1.toNat (e.ssrc .s32 b).1.toNat (e.ssrc .s32 c).1.toNat)
  | .icinv pkg d a b => some (d, [(7, a)], [(8, b)], .icinv pkg (e.psrc a).1.toNat (e.ssrc .s32 b).1.toNat)
  | .ctxsave pkg d b => some (d, [], [(8, b)], .ctxsave pkg (e.ssrc .s32 b).1.toNat)
  | .ctxload pkg d b => some (d, [], [(8, b)], .ctxload pkg (e.ssrc .s32 b).1.toNat)
  | .shtblSet d a => some (d, [(7, a)], [], .shtblSet (e.psrc a).1.toNat)
  | .shtblFlush pkg d => some (d, [], [], .shtblFlush pkg)
  | _ => none

/-- The wave after a word that writes scalar registers `d`, `d + 1`, … with one latch entry. -/
def someScl (e : Env) (d : SR) (xs : List W) (nw : Bool) : Wave :=
  let w2 := e.w.setSregs e.k d.toNat xs false
  { onward (if nw then e.w else w2) e.k with latches := shifted e.w (.scl d (w2.sreg e.k d.toNat) false) nw }

/-- The wave after a half of a pair word has written what it computes from the operands before the pair (R63). -/
def afterHalf (e : Env) (w : Wave) (h : HalfWord) : Wave := halfWrite w e.k e.act (halfEval e h).1

end Sys2Proof.Claims

/-! ## Engine words -/

/-- A block-form command whose checks pass arms its future and starts its operation with the block as it then reads (R188-R190,
R193); `HAYFILL` in a privileged wave only (R293). `COPY` and `BINAPP` start their operation from registers (R196, R199); a
poisoned count, index, value or label of a lane of ACT raises `POISON` with subcode 3, the first such field's register in `TVAL`
and those lanes in `TMASK`, and leaves the future Failed with RESULT 3 (R176, R189). Arming a Pending future raises `FUTURE`
with subcode 1 and changes neither the register nor the older operation (R19, R189): nothing but the trap entry happens. With a
load into `s0`-`s3` outstanding a word with a poisoned count, index, value or label waits before it does anything (log 56). -/
def Obligations.EngineWordsStart : Prop :=
  (∀ (i : Instr) (f : FR) (b : Blk) (op variant : Nat) (c : PClass) (s : State) (e : Env) (l : Loc),
     blockOf i = some (f, b, op, variant, c) → Issues i s e → (isPrivWord i = true → e.priv = true) →
     Passes (chkArmed e f [⟨7, b.base, blkBaseCls b⟩] :: blockPre e b) → BlockAt e b 64 l →
     let e' := { e with s := blockNoted e b 64 }
     Machine.exec i s = .next (opStarted e (blockNoted e b 64) f
       (newOp e f (.block op variant) (blkVa e b) b.bsp (blkBytes e' l 64) c))) ∧
  (∀ (d : FR) (lbl dsp : Bool) (ssp : BitVec 2) (a b c : Src) (disp : BitVec 12) (s : State) (e : Env),
     let failed (cls : PClass) : State := s.setWave e.gi e.wi
       { e.w with futs := setAt e.w.futs d.toNat ⟨.failed, statusWord 3 .failed, (e.w.fut d.toNat).serial + 1, cls⟩ }
     (Issues (.copy d dsp ssp a b c disp) s e →
       let sspad : Bool := ssp == 1
       let x := copyBase e dsp a
       let y := copyBase e sspad b
       let n := e.ssrc .s32 c
       Passes [chkArmed e d [⟨7, a, copyCls dsp⟩, ⟨8, b, copyCls sspad⟩, ⟨9, c, Src.gs⟩],
         chkBusy e (cat2 (srcRegs e.w e.k a (if dsp then 1 else 2))
           (cat2 (srcRegs e.w e.k b (if sspad then 1 else 2)) (srcRegs e.w e.k c 1))) ([], []) false,
         chkPoisonS e [(srcNum e.w e.k a, x.2), (srcNum e.w e.k b, y.2)] 1] →
       (n.2 = false → Machine.exec (.copy d dsp ssp a b c disp) s = .next (opStarted e s d
         (newOp e d (.copy dsp ssp.toNat (if dsp then x.1 + disp.toNat else (x.1 + disp.toNat) % 2 ^ 64) y.1 n.1.toNat)
           0 false [] .c))) ∧
       (n.2 = true → e.w.trapBusy = false → Machine.exec (.copy d dsp ssp a b c disp) s = .next
         (takeTrap (failed .c) e.gi e.wi e.k ⟨6, 3, 0, BitVec.ofNat 64 (srcNum e.w e.k c), e.act⟩))) ∧
     (Issues (.binapp lbl d a b c) s e →
       let y := labelRegs e c
       let index := (e.vsrc .s32 b).bad &&& e.act
       let value := ((e.vsrc .s32 c).bad ||| if lbl then y.1.bad ||| y.2.bad else 0) &&& e.act
       Passes [chkFootSrc e 8 b, chkBinVal e lbl c, chkArmed e d [⟨7, a, Src.sp⟩, ⟨8, b, Src.gv⟩, ⟨9, c, Src.vc⟩],
         chkBusy e (cat2 (srcRegs e.w e.k a 2)
           (cat2 (srcRegs e.w e.k b 1) (srcRegs e.w e.k c (if lbl then 3 else 1)))) ([], []) false,
         chkPoisonS e [(srcNum e.w e.k a, (e.psrc a).2)] 1] →
       (index = 0 → value = 0 → Machine.exec (.binapp lbl d a b c) s = .next (opStarted e s d
         (newOp e d (.binapp lbl ((lanesOf e.act).map (binRec e lbl b c)) (e.psrc a).1.toNat) 0 false [] .b))) ∧
       (index ||| value ≠ 0 → e.w.trapBusy = false → Machine.exec (.binapp lbl d a b c) s = .next
         (takeTrap (failed .b) e.gi e.wi e.k
           ⟨6, 3, 0, BitVec.ofNat 64 (srcNum e.w e.k (if index = 0 then c else b)), index ||| value⟩)))) ∧
  (∀ (i : Instr) (f : FR) (b : Blk) (op variant : Nat) (c : PClass) (s : State) (e : Env),
     blockOf i = some (f, b, op, variant, c) → Issues i s e → (isPrivWord i = true → e.priv = true) →
     latchClass e ⟨7, b.base, blkBaseCls b⟩ = true → (e.w.fut f.toNat).st = .pending →
     Machine.exec i s = .next (takeTrap s e.gi e.wi e.k ⟨10, 1, 0, BitVec.ofNat 64 (0xC0 + f.toNat), e.act⟩))

/-! ## Churn words -/

/-- A tile-form word whose checks pass, with room in the queue, arms its future and queues its entry with the tile block as it
then reads and with `VCNT` (R209-R212, R216). The queued words without a tile block, and `ACCEPT` (R209, R221, R244, R245,
R250): a draft frame accepted up to its count sets each live wave's counter to the recorded one plus n times S. A queued word
that finds 16 unfinished entries waits at its word (R209). -/
def Obligations.ChurnWordsQueue : Prop :=
  (∀ (i : Instr) (f : FR) (b : Blk) (kind : ChKind) (s : State) (e : Env) (l : Loc),
     tileOf i = some (f, b, kind) → Issues i s e →
     Passes (chkQueued e f [⟨7, b.base, blkBaseCls b⟩] :: blockPre e b) → BlockAt e b 128 l → e.g.ch.unf < 16 →
     let bs := blkBytes e l 128
     Machine.exec i s = .next (entryStarted e (blockNoted e b 128) f { newEntry e (some f) kind with
       blkVa := blkVa e b, bsp := b.bsp, hasBlk := true, blk := bs.map (·.1), bad := bytesBad (bs.take 120) })) ∧
  ((∀ (i : Instr) (f : FR) (kind : ChKind) (cs : List (Chk Unit)) (s : State) (e : Env),
     queuedOf e i = some (f, kind, cs) → Issues i s e → Passes cs → e.g.ch.unf < 16 →
     Machine.exec i s = .next (entryStarted e s f (newEntry e (some f) kind))) ∧
   (∀ (d : FR) (a : Src) (s : State) (e : Env),
     Issues (.accept d a) s e → Passes [chkQueued e d [⟨7, a, Src.gs⟩], chkBusy e (srcRegs e.w e.k a 1) ([], []) false] →
     (e.ssrc .s32 a).2 = false → e.g.ch.unf < 16 →
     let n := (e.ssrc .s32 a).1.toNat
     (∀ f, e.g.draft = some f → e.g.ch.frameAt = false → n ≤ f.nd →
       Machine.exec (.accept d a) s = .next ((entryStarted e s d
         (newEntry e (some d) (.accept true f.lbase.toNat f.seq.toNat n f.nd))).modGang e.gi fun g =>
           { g with
             draft := none
             waves := (g.waves.zip f.qs).map fun p =>
               if p.1.ended || p.1.exited == allLanes then p.1
               else { p.1 with rngctr := p.2 + BitVec.ofNat 64 (n * f.s) } })) ∧
     ((e.g.draft = none ∨ e.g.ch.frameAt = true ∨ ∃ f, e.g.draft = some f ∧ f.nd < n) →
       Machine.exec (.accept d a) s = .next
         (entryStarted e s d (newEntry e (some d) (.accept false 0 0 0 0)))))) ∧
  (∀ (i : Instr) (f : FR) (kind : ChKind) (cs : List (Chk Unit)) (s : State) (e : Env),
     queuedOf e i = some (f, kind, cs) → Issues i s e → Passes cs → 16 ≤ e.g.ch.unf →
     Machine.exec i s = .next (settle (s.setWave e.gi e.wi
       (e.w.modSlot e.k fun x => { x with st := .blocked .queueFull })) e.gi e.wi))

/-- The speculation words, the bank words, `CQUERY` and `DRAFT` (R222-R225, R249). `CSPEC` answers 1 where no frame was open and
0 where one was; `CRDV` and `CWRV` act at once on an idle Churn, lane l on element (index + l) mod 4096; `CQUERY` reads 0 in
a gang without a Churn; `DRAFT` answers 1, or 0 while a frame is open, or 2 for a bad count or an unaligned base. -/
def Obligations.FrameAndBankWords : Prop :=
  ∀ (nw v0 v1 : Bool) (b0 b1 acc : BitVec 2) (d : SR) (v : VR) (a b c : Src) (n : BitVec 8) (s : State) (e : Env),
    (Issues (.cspec nw d v0 b0 v1 b1) s e → e.g.ch.unf < 16 →
      Passes [chkChurn e, chkBusy e ([], []) ([], [d.toNat]) false] →
      let opens : Bool := !e.g.ch.frameAt
      let q := newEntry e none (.spec (if v0 then some b0 else none) (if v1 then some b1 else none) opens)
      Machine.exec (.cspec nw d v0 b0 v1 b1) s = .next (landed (s.modGang e.gi fun g =>
          { g with nextOp := g.nextOp + 1, ch := { g.ch with queue := g.ch.queue ++ [q], frameAt := true } })
        e (oneScl e e.w d (if opens then 1 else 0) nw false))) ∧
    (Issues (.cresolve a) s e → e.g.ch.unf < 16 →
      Passes [chkChurn e, chkFutSrc e a, chkLatches e [⟨7, a, Src.gsf⟩], chkBusy e (srcRegs e.w e.k a 1) ([], []) true,
        chkPoisonS e [(srcNum e.w e.k a, (e.ssrc .s32 a).2)] 3] →
      let w := match a with
        | .f f => observe e f.toNat
        | _ => e.w
      Machine.exec (.cresolve a) s = .next ((s.setWave e.gi e.wi (passed { e with w := w })).modGang e.gi fun g =>
        { g with
          nextOp := g.nextOp + 1
          ch := { g.ch with
            queue := g.ch.queue ++ [newEntry { e with w := w } none (.resolve (e.ssrc .s32 a).1)], frameAt := false } })) ∧
    (Issues (.crdv nw v b acc) s e → e.g.ch.unf = 0 →
      Passes [chkFoot e 6 v.toNat 1, chkChurn e, chkLatches e [⟨8, b, Src.gs⟩],
        chkBusy e (srcRegs e.w e.k b 1) ([v.toNat], []) false, chkPoisonS e [(srcNum e.w e.k b, (e.ssrc .s32 b).2)] 3] →
      let r := mergeReg (e.w.vreg v.toNat) e.act
        (laneList.map fun l => (e.g.ch.bank acc.toNat).getD (((e.ssrc .s32 b).1.toNat + l) % 4096) 0) 0
      Machine.exec (.crdv nw v b acc) s = .next (s.setWave e.gi e.wi { onward e.w e.k with
        vregs := if nw then e.w.vregs else setAt e.w.vregs v.toNat r
        latches := shifted e.w (.vec v r) nw })) ∧
    (Issues (.cwrv v b acc) s e → e.g.ch.unf = 0 →
      Passes [chkFoot e 6 v.toNat 1, chkChurn e, chkLatches e [⟨8, b, Src.gs⟩],
        chkBusy e (cat2 ([v.toNat], []) (srcRegs e.w e.k b 1)) ([], []) false] →
      (e.w.vreg v.toNat).bad &&& e.act = 0 → (e.ssrc .s32 b).2 = false →
      Machine.exec (.cwrv v b acc) s = .next ((herePast e s).modGang e.gi fun g => { g with
        ch := g.ch.setBank acc.toNat
          (bankPut (g.ch.bank acc.toNat) (e.ssrc .s32 b).1 (e.w.vreg v.toNat) (lanesOf e.act)) })) ∧
    (Issues (.cquery nw d) s e → chkBusy e ([], []) ([], [d.toNat]) false = .ok () →
      Machine.exec (.cquery nw d) s = .next (landed s e
        (oneScl e e.w d (if e.g.churn then queryWord e.g.ch else 0) nw false))) ∧
    (Issues (.draft nw d a b c n) s e →
      Passes [chkChurn e, chkLatches e [⟨7, a, Src.sp⟩, ⟨8, b, Src.gs⟩, ⟨9, c, Src.gs⟩],
        chkBusy e (cat2 (srcRegs e.w e.k a 2) (cat2 (srcRegs e.w e.k b 1) (srcRegs e.w e.k c 1))) ([], [d.toNat]) false,
        chkPoisonS e [(srcNum e.w e.k a, (e.psrc a).2)] 1,
        chkPoisonS e [(srcNum e.w e.k b, (e.ssrc .s32 b).2), (srcNum e.w e.k c, (e.ssrc .s32 c).2)] 3] →
      let x := (e.psrc a).1
      let z := (e.ssrc .s32 c).1
      let ill : Prop := z = 0 ∨ 64 < z.toNat ∨ x.toNat % 128 ≠ 0
      let answered (t : State) (r : W) : State := landed t e (oneScl e e.w d r nw false)
      (e.g.draft ≠ none → Machine.exec (.draft nw d a b c n) s = .next (answered s 0)) ∧
      (e.g.draft = none → ill → Machine.exec (.draft nw d a b c n) s = .next (answered s 2)) ∧
      (e.g.draft = none → ¬ill → Machine.exec (.draft nw d a b c n) s = .next (answered (s.modGang e.gi fun g =>
        { g with draft := some ⟨x, (e.ssrc .s32 b).1, z.toNat, n.toNat, e.g.waves.map (·.rngctr)⟩ }) 1)))

/-- The label words (R246): `LBLLD` and `LBLST` start an operation on the lanes' labels; `LBLLD.adm` without a filter admits the
lanes below N when its row lies below M, and with a relation slot that holds no record admits none. -/
def Obligations.LabelWordsComplete : Prop :=
  (∀ (store : Bool) (d : VR) (a b : Src) (im : I25) (s : State) (e : Env) (as : List (Nat × Nat)) (r : Reached),
    let i := if store then Instr.lblst d a b im else .lblld d a b im
    let m := if store then { vecStore e.w d a b im 8 2 with kind := .lblst } else vecLoad d a b im 8 2 (.loadN 2) false
    Issues i s e → Passes [memFoot e m, chkChurn e, memPre e m Src.mi] → labelLanes e im a b = .ok as → memReach e m as = .ok r →
    r.parked = [] → e.act ≠ 0 →
    Machine.exec i s = .next ((noteGo s e m.q r.go).setWave e.gi e.wi (begun e (memOp e m r.go e.w.opSeq)))) ∧
  (∀ (d : VR) (b : Blk) (row : Src) (s : State) (e : Env) (l : Loc),
    Issues (.lblldAdm d b row) s e →
    Passes ([chkFoot e 6 d.toNat 1, chkChurn e, chkLatches e [⟨7, b.base, blkBaseCls b⟩, ⟨8, row, Src.gs⟩],
      chkBusy e (cat2 (srcRegs e.w e.k b.base (if b.bsp then 1 else 2)) (srcRegs e.w e.k row 1)) ([d.toNat], []) false,
      chkPoisonS e [(srcNum e.w e.k b.base, blkBad e b)] 1, chkPoisonS e [(srcNum e.w e.k row, (e.ssrc .s32 row).2)] 3,
      chkIdle e]) →
    BlockAt e b 128 l → bytesBad ((blkBytes e l 128).take 120) = false →
    let blk := (blkBytes e l 128).map (·.1)
    let x := (e.ssrc .s32 row).1.toNat
    let answer (f : Nat → Bool) : State :=
      let r := mergeReg (e.w.vreg d.toNat) e.act (laneList.map fun l => if f l then 1 else 0) 0
      s.setWave e.gi e.wi { passed e with vregs := setAt e.w.vregs d.toNat r }
    (recNat blk 8 4 / 2 % 2 = 0 → Machine.exec (.lblldAdm d b row) s = .next (answer fun l =>
      e.act.getLsbD l && decide (x < recNat blk 12 2) && decide (l < min (recNat blk 14 2) 64))) ∧
    (recNat blk 8 4 / 2 % 2 = 1 →
      ((e.g.ch.rels[recNat blk 8 4 / 4 % 4]?).join = none ∨ admLanes e blk x = []) →
      Machine.exec (.lblldAdm d b row) s = .next (answer fun _ => false)) ∧
    (∀ r, recNat blk 8 4 / 2 % 2 = 1 → (e.g.ch.rels[recNat blk 8 4 / 4 % 4]?).join = some r → admLanes e blk x ≠ [] →
      Machine.exec (.lblldAdm d b row) s = .next (e.run (admDecide e d blk (relOf r) x (admLanes e blk x)))))

/-- Admission of a label pair by a relation (R233), from its atoms: the null label never; else some term all of whose atoms
hold. -/
def Obligations.AdmissionOfLabels : Prop :=
  ∀ (r : Rel) (q k : Nat),
    (q = 2 ^ 64 - 1 ∨ k = 2 ^ 64 - 1 → admitL r q k = false) ∧
    (q ≠ 2 ^ 64 - 1 → k ≠ 2 ^ 64 - 1 →
      (admitL r q k = true ↔ ∃ t ∈ r.terms, ∀ a ∈ t.2,
        let x : Int := fieldVal r.layout a.fq q
        let y : Int := fieldVal r.layout a.fk k
        (a.kind = 0 → cmpLbl a.cmp x (y + a.c) = true) ∧
        (a.kind = 1 → 0 ≤ x - y + a.c ∧ x - y + a.c ≤ a.w) ∧
        (a.kind = 2 → ∀ b, (fieldVal r.layout a.fk k).testBit b = true → (fieldVal r.layout a.fq q).testBit b = true) ∧
        (2 < a.kind → cmpLbl a.cmp (if a.side then y else x) a.c = true)))

/-! ## System words -/

/-- `MFS` and `MTS` (R27-R33): a special register that the wave may read goes to `D`; before a read of `HAYREF` a free number
of fabric cycles passes (log 10). A register that the wave may write takes the operand as R28 to R32 store it; a privileged
write changes the context's value too (R30; for which registers: log 64), and `VCNT` needs the halter. What a special register
reads after a privileged `MTS` wrote it (R29-R32): the value written, in its writable bits; `WSTAT` keeps its other bits;
`VCNT` clamps its fields at 64; a positive `DCLn` reads 0. -/
def Obligations.SpecialRegisterWords : Prop :=
  (∀ (nw : Bool) (d : SR) (x : BitVec 16) (a : Src) (s : State) (e : Env),
     let n := x.toNat
     let mayUse : Prop := specKnown n = true ∧ (specPriv n = true → e.priv = true)
     (Issues (.mfs nw d x) s e → mayUse → chkBusy e ([], []) ([], [d.toNat]) false = .ok () →
       let e' : Env := if n = 0x27
         then { e with s := { s.took with fabric := s.fabric + Config.elapsedFab s.freeCtr } } else e
       Machine.exec (.mfs nw d x) s = .next (landed e'.s e (someScl e d [specRead e' n] nw))) ∧
     (Issues (.mts x a) s e → mayUse → specRo n = false → (n = 0x26 → e.g.churn = true ∧ e.g.halter = some e.w.idx) →
       Passes [chkLatches e [⟨7, a, Src.sc⟩], chkBusy e (srcRegs e.w e.k a 1) ([], []) false] → (e.ssrc .s32 a).2 = false →
       let v := (e.ssrc .s32 a).1
       let t := (s.setWave e.gi e.wi (passed { e with w := specWave e.w n v })).modGang e.gi fun g => specGang g n v
       Machine.exec (.mts x a) s = .next (if e.priv then t.modCtx e.g.ctx fun c => specCtx c n v else t))) ∧
  (∀ (w : Wave) (g : Gang) (e : Env) (v : W),
     let after (n : Nat) : W := specRead
       { e with s := e.s.modCtx g.ctx fun c => specCtx c n v, w := specWave w n v, g := specGang g n v } n
     (∀ n ∈ [0x21, 0x22, 0x23, 0x28, 0x29, 0x2A, 0x2B, 0x32, 0x33, 0x34, 0x35, 0x36, 0x37], after n = v) ∧
     after 0x31 = v &&& ~~~7 ∧ after 0x30 = v &&& 0x00FFFFFF ∧
     (∀ c, e.s.ctx? g.ctx = some c → after 0x38 = v &&& ~~~7 ∧ after 0x39 = v) ∧
     (after 0x20 &&& 0xBFF = v &&& 0xBFF ∧
       after 0x20 &&& ~~~0xBFF = specRead { e with w := w, g := g } 0x20 &&& ~~~0xBFF) ∧
     (g.churn = true →
       after 0x26 = BitVec.ofNat 32 (min 64 (v.toNat / 2 ^ 8 % 2 ^ 7) * 2 ^ 8 + min 64 (v.toNat % 2 ^ 7))) ∧
     (∀ n, 0x10 ≤ n → n ≤ 0x1F → g.dcl.length = 16 → after n = if 0 < v.toInt then 0 else v))

/-- `CLKRD`, `PERFRD` and `PERFCFG` (R295, R319): a Byre's counter of arithmetic cycles and its performance counters belong to
the Byre; how much time has passed, and how much a counter of cycles has counted since its last reading, are free values (logs
10, 63): these clauses hold for every value of them. `PERFCFG` zeroes the counter that it sets. `FLTRES` resolves every request
of the context for the page, once the wave's earlier operations are performed, and publishes the wave's writes (R304, R317, R319); `IDLEW` goes on with 0 once its
deadline has passed, else its split idles (R319); once its event has come it ends with that event's value. That the word itself
waits for the earlier operations is the model's reading (log 27). -/
def Obligations.ClockAndFaultWords : Prop :=
  (∀ (d : SR) (a b : Src) (s : State) (e : Env),
     (Issues (.clkrdTime d) s e → chkBusy e ([], []) ([], [d.toNat, d.toNat + 1]) false = .ok () →
       let t := (s.timeNs + Config.elapsedNs s.freeCtr) % 2 ^ 64
       Machine.exec (.clkrdTime d) s = .next (landed { s with freeCtr := s.freeCtr + 1, timeNs := t } e
         (someScl e d [BitVec.ofNat 32 t, BitVec.ofNat 32 (t / 2 ^ 32)] false))) ∧
     (Issues (.clkrdCyc d) s e → chkBusy e ([], []) ([], [d.toNat, d.toNat + 1]) false = .ok () →
       let n := e.g.byreId
       let t := (s.cycOf n + Config.elapsedCyc s.freeCtr) % 2 ^ 64
       Machine.exec (.clkrdCyc d) s = .next (landed
         { s.took with cycles := (n, t) :: s.cycles.filter fun x => x.1 != n } e
         (someScl e d [BitVec.ofNat 32 t, BitVec.ofNat 32 (t / 2 ^ 32)] false))) ∧
     (Issues (.perfrd d b) s e → chkSys e true [] [(8, b)] ([], [d.toNat, d.toNat + 1]) = .ok () →
       (e.ssrc .s32 b).1.toNat ≤ 7 →
       let p := s.perfAt e.g.byreId (e.ssrc .s32 b).1.toNat
       let t := (p.count + Config.perfCount s.freeCtr) % 2 ^ 48
       let read (u : State) (c : Nat) : State :=
         landed u e (someScl e d [BitVec.ofNat 32 c, BitVec.ofNat 32 (c / 2 ^ 32)] false)
       (p.event ∈ [1, 6, 10, 11] →
         Machine.exec (.perfrd d b) s = .next (read (s.took.putPerf { p with count := t }) t)) ∧
       (p.event ∉ [1, 6, 10, 11] → Machine.exec (.perfrd d b) s = .next (read s p.count))) ∧
     (Issues (.perfcfg a b) s e → chkSys e true [] [(7, a), (8, b)] ([], []) = .ok () → (e.ssrc .s32 a).1.toNat ≤ 7 →
       Machine.exec (.perfcfg a b) s
         = .next ((herePast e s).putPerf ⟨e.g.byreId, (e.ssrc .s32 a).1.toNat,
             if 12 ≤ (e.ssrc .s32 b).1.toNat then 0 else (e.ssrc .s32 b).1.toNat, 0⟩))) ∧
  (∀ (ok : Bool) (d : SR) (a b : Src) (s : State) (e : Env),
     (let i := if ok then Instr.fltresOk a b else .fltresDeny a b;
       Issues i s e → Passes [chkSys e true [(7, a)] [(8, b)] ([], []), chkDrained e (BitVec.allOnes 8)] →
       Machine.exec i s = .next ((s.reqs.filter fun r =>
         r.ctx == (e.ssrc .s32 b).1.toNat && r.page == (e.psrc a).1.toNat / 2 ^ 16).foldl (resolveReq ok)
           (s.setWave e.gi e.wi { passed e with pubs := max e.w.pubs (s.fills + 1) }))) ∧
     (∀ v, Issues (.idlew d a b) s e → e.slot.st = .blocked (.woken v) →
       Machine.exec (.idlew d a b) s = .next (landed s e (oneScl e e.w d v false false))) ∧
     (Issues (.idlew d a b) s e → (∀ v, e.slot.st ≠ .blocked (.woken v)) →
       chkSys e false [(7, a)] [(8, b)] ([], [d.toNat]) = .ok () → ((e.ssrc .s32 b).1.getLsbD 0 = true → e.priv = true) →
       ((e.psrc a).1.toNat ≤ s.timeNs → Machine.exec (.idlew d a b) s
         = .next (landed s e (oneScl e e.w d 0 false false))) ∧
       (s.timeNs < (e.psrc a).1.toNat → Machine.exec (.idlew d a b) s = .next (settle (s.setWave e.gi e.wi
         (e.w.modSlot e.k fun x => { x with st := .blocked (.idle d (e.psrc a).1 ((e.ssrc .s32 b).1.getLsbD 0)) })) e.gi e.wi))))

/-- The system words that arm a future start their operation, all but `ICINV` in privileged waves only (R294, R299, R317, R318);
`ICINV` of no bytes is Done at once. -/
def Obligations.SystemCommandsStart : Prop :=
  ∀ (i : Instr) (f : FR) (ps xs : List (Nat × Src)) (kind : EngKind) (s : State) (e : Env),
    sysOf e i = some (f, ps, xs, kind) → Issues i s e → chkSysArm e (isPrivWord i) f ps xs = .ok () →
    ((∀ pkg va, kind ≠ .icinv pkg va 0) →
      Machine.exec i s = .next (opStarted e s f (newOp e f kind 0 false [] .v))) ∧
    ((∃ pkg va, kind = .icinv pkg va 0) → Machine.exec i s = .next (s.setWave e.gi e.wi (endedWave e f .done 0)))

/-! ## Word forms -/

/-- A word that fails decoding traps `ILLEGAL` with the subcode and `DETAIL` of its failure and the word in `TVAL`, on the
lanes of ACT (R67, R68). An unprivileged wave that issues a privileged word traps `ILLEGAL` with subcode 3, and nothing else
happens (R27, R68, R317). A special register for privileged waves traps an unprivileged one with subcode 3; an unlisted
number, or a write of a read-only one, with subcode 5 (R27, R28, R33, R68). A Churn or label word issued without the halter,
or in a gang without a Churn, raises `ILLEGAL` with subcode 6, once the checks that R306 puts before that one have passed
(R208, R68). -/
def Obligations.IllegalWordsTrap : Prop :=
  (∀ (x : D) (sub field : Nat) (half : Bool) (s : State) (e : Env), Issues (.illegalWord x sub field half) s e →
     Machine.exec (.illegalWord x sub field half) s
       = .next (takeTrap s e.gi e.wi e.k ⟨1, sub, field * 16 + half.toNat, x, e.act⟩)) ∧
  (∀ (i : Instr) (s : State) (e : Env), isPrivWord i = true → Issues i s e → e.priv = false →
     Machine.exec i s = .next (takeTrap s e.gi e.wi e.k ⟨1, 3, 0, (encode i).getD 0, e.act⟩)) ∧
  (∀ (i : Instr) (nw : Bool) (d : SR) (x : BitVec 16) (a : Src) (s : State) (e : Env),
     let n := x.toNat
     let trap (sub : Nat) : State := takeTrap s e.gi e.wi e.k ⟨1, sub, 0, (encode i).getD 0, e.act⟩
     (i = .mfs nw d x ∨ i = .mts x a) → Issues i s e →
     (specPriv n = true → e.priv = false → Machine.exec i s = .next (trap 3)) ∧
     (specKnown n = false → Machine.exec i s = .next (trap 5)) ∧
     (i = .mts x a → (specPriv n = true → e.priv = true) → specRo n = true → Machine.exec i s = .next (trap 5))) ∧
  (∀ (i : Instr) (s : State) (e : Env),
     isChurnWord i = true → Issues i s e → (e.g.churn = false ∨ e.g.halter ≠ some e.w.idx) →
     (∀ p ∈ Machine.fieldsOf i, (∀ n, p.2.1 ≠ .l n) ∧ ∀ n : VR, p.2.1 = .v n → n.toNat + p.2.2 ≤ e.g.vcount) →
     Machine.exec i s = .next (takeTrap s e.gi e.wi e.k ⟨1, 6, 0, (encode i).getD 0, e.act⟩))

/-- A pair word (R63): both halves read before either writes, the flags of both join, half 0's result is in `l1` and half 1's in
`l0`; the split is one word on. -/
def Obligations.PairWordCompletes : Prop :=
  ∀ (h0 h1 : Half) (s : State) (e : Env),
    Issues (.pairWord h0 h1) s e → pairCheck e (halfWord h0) (halfWord h1) = .ok () →
    let fl := (halfEval e (halfWord h0)).2.1 ||| (halfEval e (halfWord h1)).2.1
    fl &&& e.w.fpen = 0 →
    let w0 : Wave := { e.w with flags := e.w.flags ||| fl }
    let w := afterHalf e (afterHalf e w0 (halfWord h0)) (halfWord h1)
    Machine.exec (.pairWord h0 h1) s = .next (landed s e (onward w e.k))

/-- The fused softmax sequence (R130, R131) when no word of it traps: the four words' results, flags and latches, with the empty
rows blanked, and the split four words on. -/
def Obligations.FusedSequenceCompletes : Prop :=
  ∀ (g : BitVec 3) (x m y sum : VR) (s : State) (e : Env) (w : Wave),
    let i := Instr.fusedSoftmax g x m y sum
    Issues i s e →
    Passes [chkAll (fun p : Instr × VecWord => fusedFoot e p.1 p.2) ((fusedWords g x m y sum).zip (fusedVecs g x m y sum)),
      chkBusy e ([x.toNat], []) ([m.toNat, y.toNat, sum.toNat], []) false] →
    (e.w.vreg x.toNat).bad &&& e.act = 0 →
    fusedRun e (emptyRows e.act g (e.w.vreg x.toNat)) true e.w (fusedVecs g x m y sum) = .ok w →
    let onFour (q : Slot) : Slot := { q with pc := q.pc + 32, st := .ready }
    Machine.exec i s = .next (s.setWave e.gi e.wi
      (if e.k then { w with slot1 := onFour w.slot1 } else { w with slot0 := onFour w.slot0 }))

/-- `XVEC` on a register pair whose lane words are all legal and pass their checks (R154-R158): the words issue group by group,
`XFAULT` becomes 0, the split goes on and every latch is lost. The groups' own effect is the model's `xIssueAll`. -/
def Obligations.ExchangeWordCompletes : Prop :=
  ∀ (n : VR) (s : State) (e : Env) (r : XRun),
    Issues (.xvec n) s e →
    Passes [chkFoot e 7 n.toNat 2, chkBusy e ([n.toNat, n.toNat + 1], []) ([], []) false] →
    (∀ o ∈ e.w.ops, o.dst.hitsS 60 = false ∧ o.dst.hitsS 61 = false ∧ o.dst.hitsS 62 = false) →
    (e.w.vreg n.toNat).bad &&& e.act = 0 → (e.w.vreg (n.toNat + 1)).bad &&& e.act = 0 →
    (∀ p ∈ groupWords (laneWords e n), isLegal e p.1 = true) →
    xIssueAll ⟨e.gi, e.wi, e.k⟩ true (groupWords (laneWords e n)) ⟨s, 0, none⟩ = .ok r → r.drop = 0 →
    ∀ w, r.s.wave? e.gi e.wi = some w → (w.slot e.k).st ≠ .parked →
    ∃ w', Machine.exec (.xvec n) s = .next (r.s.setWave e.gi e.wi w') ∧ w'.xfault = 0 ∧
      (∀ l ∈ w'.latches, l.lost = true) ∧ (w'.slot e.k).pc = (w.slot e.k).pc + 8 ∧ (w'.slot e.k).st = .ready ∧
      w'.vregs = w.vregs ∧ w'.sregs = w.sregs ∧ w'.flags = w.flags ∧ w'.ops = w.ops

namespace Sys2Proof.Claims

open Sys2Proof.Machine

/-- Split `who` is the next to issue in `s`, which stands at `t` once the choice is taken: `agenda` names it, or nothing
else is due and it is next in the order of R334. -/
def IssuesNext (s : State) (who : Cur) (t : State) : Prop :=
  (∃ rest, s.agenda = .issue who false :: rest ∧ t = { s with agenda := rest }) ∨
    (s.agenda = [] ∧ nextEvent s = none ∧ pick s = some who ∧ t = s)

/-- Gang `gang` of the machine, with its place. -/
def GangAt (s : State) (gang gi : Nat) (g : Gang) : Prop := s.gangIdx gang = some gi ∧ s.gang? gi = some g

/-- A future that stands Pending for arming `ser`. -/
def PendingAt (w : Wave) (f : FR) (ser : W) : Prop :=
  f.toNat < w.futs.length ∧ (w.fut f.toNat).st = .pending ∧ (w.fut f.toNat).serial = ser

/-- What an operation's report leaves in its future register (R19, R190, R194). -/
def reported (w : Wave) (f : FR) (st : FState) (result : Nat) : Future :=
  ⟨st, statusWord result st, (w.fut f.toNat).serial, (w.fut f.toNat).cls⟩

end Sys2Proof.Claims

/-! ## Words and their decoding -/

/-- Bit 63 selects the form (R50), and a full-form word is its fields at their places (R51): the fields are read from those
bits, and the word is their sum. Whatever decodes with bit 63 = 0 is no pair word, and with bits [63:62] = 0b10 it is one;
0b11 raises `ILLEGAL` with subcode 2 and FIELD 1. -/
def Obligations.WordForms : Prop :=
  ∀ (w : D),
    (w.getLsbD 63 = false →
      decodeWord w = decodeRaw (Raw.ofWord w) ∧ (∀ h0 h1, decodeWord w ≠ .ok (.pairWord h0 h1)) ∧
      (let r := Raw.ofWord w
       w.toNat = r.op.toNat * 2 ^ 55 + r.mod.toNat * 2 ^ 52 + r.nw.toNat * 2 ^ 51 + r.d.toNat * 2 ^ 43 + r.a.toNat * 2 ^ 34
         + r.b.toNat * 2 ^ 25 + r.c.toNat * 2 ^ 16 + r.x.toNat)) ∧
    (w.getLsbD 63 = true → w.getLsbD 62 = false → ∀ i, decodeWord w = .ok i → ∃ h0 h1, i = .pairWord h0 h1) ∧
    (w.getLsbD 63 = true → w.getLsbD 62 = true →
      decodeWord w = .error ⟨2, 1, false⟩ ∧ instrOf w = .illegalWord w 2 1 false ∧
      ∀ s e, Issues (.illegalWord w 2 1 false) s e →
        Machine.exec (.illegalWord w 2 1 false) s = .next (takeTrap s e.gi e.wi e.k ⟨1, 2, 16, w, e.act⟩))

/-- `NOP` (R66): of the words with its opcode only 0x1780_0000_0000_0000 decodes to it; any other `MOD` gives subcode 1, any
other field subcode 2. Whatever the wave holds, it advances the PC, leaves an untagged latch entry and changes nothing
else. It is no legal `XVEC` word. -/
def Obligations.NopWord : Prop :=
  (∀ w : D, w.getLsbD 63 = false → (Raw.ofWord w).op = 0x2F →
    (decodeWord w = .ok .nop ↔ w = 0x1780000000000000) ∧
    ((Raw.ofWord w).mod ≠ 0 → decodeWord w = .error ⟨1, 4, false⟩) ∧
    ((Raw.ofWord w).mod = 0 → w ≠ 0x1780000000000000 → ∃ f, decodeWord w = .error ⟨2, f, false⟩)) ∧
  (∀ s e, Issues .nop s e → Machine.exec .nop s = .next (s.setWave e.gi e.wi (passed e))) ∧
  (∀ e, isLegal e 0x1780000000000000 = false)

/-- Words that the manual's examples print, one or more of every family: each decodes to the instruction that the example
spells out (R50-R64, R166, R188). -/
def Obligations.WordsDecode : Prop :=
  decodeWord 0x0044_1A10_0000_0064 = .ok (.sadd false false 3 (.s 4) (.imm 100)) ∧
  decodeWord 0x1000_0240_0002_0002 = .ok (.brv false 16 2 2) ∧
  decodeWord 0x1780_0000_0000_0000 = .ok .nop ∧
  decodeWord 0x2820_1005_188D_0000 = .ok (.vfma .f32 false 2 (.v 1) (.s 12) (.s 13) ⟨false, .rne⟩) ∧
  decodeWord 0x3891_4028_0000_8503 = .ok (.vbcastI false 40 (.v 10) 3 5 .all) ∧
  decodeWord 0x3C00_0050_0000_0000 = .ok (.xvec 20) ∧
  decodeWord 0x4204_6345_A280_0004 = .ok (.sld (some .b32) 12 (.x .zero) (.x .zero) (.spad 0 false 4)) ∧
  decodeWord 0x4080_1A19_A040_0000 = .ok (.vst .b32 3 (.s 6) (.x .lid) (.glob false 2 0 0 0 0)) ∧
  decodeWord 0x5090_0000_0000_0001 = .ok (.xfence 1 .c .v) ∧
  decodeWord 0x5A06_0345_08E5_4000 = .ok (.copy 0 true 0 (.x .zero) (.s 4) (.k 5) 0) ∧
  decodeWord 0x6016_0A20_0000_0000 = .ok (.cmma true 1 ⟨false, .s 8, 0⟩ 0) ∧
  decodeWord 0x6406_1220_0000_2000 = .ok (.relld 2 ⟨false, .s 8, 0⟩ 1) ∧
  decodeWord 0x7004_2000_0000_0020 = .ok (.mfs false 4 0x20) ∧
  decodeWord 0x7080_0214_0000_0020 = .ok (.mts 0x20 (.s 5)) ∧
  decodeWord 0x7196_0A21_148C_0000 = .ok (.tlbinv .pkg 1 (.s 8) (.s 10) (.s 12)) ∧
  decodeWord 0x8340_3470_0800_8001 = .ok (.pairWord ⟨.vadd, .f32, false, 3, some (.s 14), 0⟩ ⟨.vaddi, .s32, false, 4, none, 1⟩)

/-- Decoding and encoding agree: a well-formed term's word decodes to it with every operand, and a word that decodes is the
word of a well-formed term. -/
def Obligations.EncodingRoundTrip : Prop :=
  (∀ (i : Instr) (x : D), i.wf = true → encode i = some x → decodeWord x = .ok i) ∧
  (∀ (i : Instr) (x : D), decodeWord x = .ok i → i.wf = true ∧ encode i = some x)

/-! ## The step -/

/-- A step runs the decoded word: where the next split to issue is not Parked, the eight bytes at the place of its PC are the
word (R10, R67), and its instruction is run on the machine as the fetch leaves it: the latches lost where another split has
issued since (R20), the line under its key and in the instruction cache. After it come the issue order's own notes (R334).
A word that fails to decode runs as `illegalWord`, a `VRMAX` that begins the fused sequence as that sequence (R130). A fetch that
translation denies, from a page with EXEC = 0 among others, traps `ACCESS` with the subcode and the word's address (R308). A split
whose store is lost to a peer has a trap due instead of its word (R347; log 56). -/
def Obligations.StepRunsDecodedWord : Prop :=
  ∀ (s t : State) (who : Cur) (g : Gang) (w : Wave) (key : Nat) (u : State),
    IssuesNext s who t → t.gang? who.gang = some g → g.wave? who.wave = some w → mayIssueNow t who = true →
    (w.slot who.slot).st ≠ .parked → (∀ va, (w.slot who.slot).st ≠ .blocked (.lost va)) →
    let pc := (w.slot who.slot).pc
    let v := loseIfOther t who g w
    let h : Gang := { g with waves := modAt g.waves who.wave fun _ => v }
    let t1 := ({ t with cur := who, stale := false }).setWave who.gang who.wave v
    let t2 := fillFetch t1 h v pc
    let t3 := noteFetch t2 h v pc
    (∀ sub, translate t2 h ⟨false, true, privileged g w⟩ pc.toNat 8 = .fail sub → step s = .next
      { takeTrap t2 who.gang who.wave who.slot ⟨4, sub, 0, pc, (w.slot who.slot).act⟩ with stale := false }) ∧
    (translate t2 h ⟨false, true, privileged g w⟩ pc.toNat 8 = .ok key →
    let word := BitVec.ofNat 64 (t2.mem.num key 8)
    let i := instrOf word
    (∀ j, decodeWord word = .ok j → i = j) ∧
    (isVrmax i = false → Machine.exec i t3 = .next u → step s = .next (finishIssue t u who i)) ∧
    (∀ a b c, isVrmax i = true →
      ahead t3 ⟨t2, who.gang, who.wave, who.slot, h, v, 0⟩ 3 (pc + 8) = .ok [a, b, c] →
      let j := (fuseOf i (instrOf a) (instrOf b) (instrOf c)).getD i
      Machine.exec j t3 = .next u → step s = .next (finishIssue t u who j)))

/-- A step runs the event that `agenda` names, else the first that the device owes, else, where no split can issue, a deadline.
The order of what `agenda` does not name is the model's choice (logs 18, 19). -/
def Obligations.StepRunsEvents : Prop :=
  ∀ (s : State) (i : Instr),
    (∀ rest, s.agenda = .event i :: rest → isEvent i = true → step s = Machine.exec i { s with agenda := rest }) ∧
    (s.agenda = [] → nextEvent s = some i → step s = Machine.exec i s) ∧
    (s.agenda = [] → nextEvent s = none → pick s = none → idleEvent s = some i → step s = Machine.exec i s)

/-- The machine never stops: from every state a step gives a next state. Every trap, wait and park is a next state (R23, R309);
no word is refused. -/
def Obligations.StepGoesOn : Prop := ∀ s : State, ∃ t, step s = .next t

/-- Every step keeps the canonical form of device memory and of every scratchpad (addresses rising, no zero listed). -/
def Obligations.MemoryCanonicalStep : Prop :=
  ∀ s t : State, s.memOk = true → step s = .next t → t.memOk = true

/-- Reset: memory is canonical and reads zero without poison (R351 stage 5), `HSTAT` reads 0 (R350), `PCAP` and the monitors'
`VALUE` read 0 (R355), and no context, grid or gang exists. That `LPSTAT` reads 0, and that memory reads zero before stage 5, is
the model's choice (logs 1, 3). -/
def Obligations.ResetState : Prop :=
  State.reset.memOk = true ∧ (∀ a, State.reset.mem.get a = 0) ∧ (∀ a n, State.reset.rangeBad 0 (.mem a) n = false) ∧
  hubRead State.reset.hub 0 = 0 ∧ hubRead State.reset.hub 0x20 = 0 ∧ hubRead State.reset.hub 0x200 = 0 ∧
  (∀ n, n < 64 → hubRead State.reset.hub (0x100 + 4 * n) = BitVec.ofNat 64 (montKind n * 2 ^ 16 + n / 16 * 2 ^ 20)) ∧
  State.reset.ctxs = [] ∧ State.reset.grids = [] ∧ State.reset.gangs = []

/-- `GANG_PLACE` (R35, R36, R321, R352): where nothing on the die comes first and the footprint fits, the next gang of the
die's chunk starts on the Byre. Vector registers read +0, scalar registers 0, slot 0 is Ready at the entry with every lane
and RPC 0, slot 1 Empty, futures Empty, latches lost, special registers at their reset values; scratchpad and accumulators
read zero. -/
def Obligations.GangStarts : Prop :=
  ∀ (s : State) (r : Grid) (c : Ctx) (die byre n : Nat) (places : List (Nat × Nat)),
    s.grid? r.id = some r → r.nextOn die = some n → fits s die byre (recFoot r.bytes) = some places → s.hub.thsd = false →
    outranked s die r.prio false = false → s.ctx? r.ctx = some c →
    ∃ t g, Machine.exec (.gangPlace r.id die byre) s = .next t ∧ t.gangs = s.gangs ++ [g] ∧
      t.grids = mapIf (fun x => x.id == r.id) (fun x => x.took die) s.grids ∧ t.mem = s.mem ∧
      g.grid = r.id ∧ g.die = die ∧ g.byre = byre ∧ g.waves.length = places.length ∧ g.spad = [] ∧ g.spadBad = [] ∧
      g.halter = some 0 ∧ g.st = .running ∧ g.step = r.step ∧ g.dcl = c.dcl ∧ g.rngkey = c.rngkey ∧ t.tbaseOf g = c.tbase ∧
      (n < gridSize r.kind r.bytes → g.gx + g.dx * (g.gy + g.dy * g.gz) = n) ∧
      (∀ b ∈ g.ch.accs ++ g.ch.saccs, ∀ x ∈ b, x = 0) ∧ g.ch.mrow = 64 ∧ g.ch.ncol = 64 ∧ g.ch.crowst = 0 ∧
      ∀ w ∈ g.waves,
        w.vregs = List.replicate (recVregs r.bytes) ⟨List.replicate 96 0, 0⟩ ∧ w.sregs = List.replicate 64 0 ∧ w.sbad = 0 ∧
        w.slot0.act = allLanes ∧ w.slot0.um = allLanes ∧ w.slot0.rpc = 0 ∧ w.slot0.st = .ready ∧
        (recPipe r.bytes = false → w.slot0.pc = BitVec.ofNat 64 (recEntry r.bytes)) ∧
        w.slot1.st = .empty ∧ w.dsp = 0 ∧ w.exited = 0 ∧ (∀ f ∈ w.futs, f.st = .empty) ∧ w.futs.length = 16 ∧
        w.latches.length = 8 ∧ (∀ l ∈ w.latches, l.lost = true) ∧
        w.flags = 0 ∧ w.fpen = 0 ∧ w.mabs = false ∧ w.xfault = 0 ∧ w.rngctr = BitVec.ofNat 64 (recNat r.bytes 32 8) ∧
        w.tcause = 0 ∧ w.tpc = 0 ∧ w.tmask = 0 ∧ w.tval = 0 ∧ w.trap = none ∧ w.ops = []

/-! ## Events: engines -/

/-- Engine, Churn and system operations (R192, R194, R209, R221, R318, R376). An operation whose work has ended reports: its
future leaves Pending with RESULT or error code, its flags are set unless it was cancelled, and it leaves the gang. One
that was cancelled while parked has stopped. `CZERO` clears its bank; an executed entry without a block reports to its
future and leaves the queue. `CTXLOAD` makes the saved gangs eligible, `SHTBL.set` takes an aligned base and fails with
error code 2 on another. -/
def Obligations.EngineEventsComplete : Prop :=
  ∀ (s : State) (gang gi op units : Nat) (g : Gang), GangAt s gang gi g → g.engines = true →
    (∀ o f st n w, g.op? op = some o → isEngine o = true → hasRecord o = false → o.waits = [] → o.denied = [] →
      o.out = some (st, n) → o.freg = some f → g.wave? o.wave = some w → PendingAt w f o.serial →
      ∃ t h v, Machine.exec (.engineOpEnd gang op) s = .next t ∧ t.gang? gi = some h ∧ h.wave? o.wave = some v ∧
        h.eops = g.eops.filter (·.id != op) ∧ t.mem = s.mem ∧
        v.fut f.toNat = reported w f st (if st = .failed then n else if st = .done then o.res else 0) ∧
        v.flags = if st = .cancelled then w.flags else w.flags ||| o.fl) ∧
    (∀ o, g.op? op = some o → opFree o = true → Machine.exec (.engineOpEnd gang op) s = .next (advanceOp s gi g o)) ∧
    (∀ o, g.op? op = some o → canStop o = true →
      let a := gangOp gi g o
      let r := stopOp a s o (if binWaits g o then 0 else units)
      Machine.exec (.opCancelStop gang op units) s
        = .next (keepOp (endOp a r.1 r.2).1 gi o.id (endOp a r.1 r.2).2) ∧
      (o.waits ≠ [] → r.2.out = some (.cancelled, 0) ∧ r.2.waits = [])) ∧
    (∀ q acc, g.entryDue = some q → q.kind = .zero acc → q.cancel = false → q.denied = [] → q.waits = [] →
      g.ch.frame = none → acc < g.ch.accs.length → (g.ch.accs.getD acc []).length = 4096 →
      ∃ t h, Machine.exec (.churnEntryExecute gang) s = .next t ∧ t.gang? gi = some h ∧
        h.ch.accs.getD acc [] = List.replicate 4096 0 ∧ (∀ b, b ≠ acc → h.ch.accs[b]? = g.ch.accs[b]?) ∧ t.mem = s.mem ∧
        ∃ p rest, h.ch.queue = p :: rest ∧ p.id = q.id ∧ p.res.map (·.st) = some .done) ∧
    (∀ q, g.entryDue = some q → Machine.exec (.churnEntryExecute gang) s = .next (runEntry s gi g q)) ∧
    (∀ q r, g.entryDone = some (q, r) → Machine.exec (.churnEntryEnd gang) s = .next (finishEntry s gi g q r)) ∧
    (∀ q r f w, g.entryDone = some (q, r) → g.ch.frame = none → q.hasBlk = false → q.denied = [] → q.waits = [] →
      q.freg = some f → g.wave? q.wave = some w → PendingAt w f q.serial →
      ∃ t h v, Machine.exec (.churnEntryEnd gang) s = .next t ∧ t.gang? gi = some h ∧ h.wave? q.wave = some v ∧
        h.ch.queue = g.ch.queue.drop 1 ∧ v.fut f.toNat = reported w f r.st r.result) ∧
    (∀ o st n, g.op? op = some o → isEngine o = false → (runSys s gi g o).out = some (st, n) →
      Machine.exec (.systemOperationEnd gang op) s
        = .next (reportFut (keepOp (runSys s gi g o).s gi op none) gi o.wave o.freg o.serial st n 0)) ∧
    (∀ o pkg ctx, o.kind = .ctxload pkg ctx → ctx ≤ 63 →
      let mine (x : Gang) : Prop := x.ctx = ctx ∧ (pkg = true ∨ x.die = g.die) ∧ x.st = .saved false
      (runSys s gi g o).out = some (.done, (s.gangs.filter fun x => decide (mine x)).length) ∧
      (runSys s gi g o).s = { s with gangs := s.gangs.map fun x => if mine x then { x with st := .saved true } else x }) ∧
    (∀ o a, o.kind = .shtblSet a →
      (a % 2 ^ 16 = 0 → (runSys s gi g o).out = some (.done, 0) ∧ (runSys s gi g o).s = { s with shbase := a }) ∧
      (a % 2 ^ 16 ≠ 0 → (runSys s gi g o).out = some (.failed, 2) ∧ (runSys s gi g o).s = s))

/-! ## Events: dispatch -/

/-- Acceptance, dealing and completion (R112, R320-R325, R328). An accepted launch enters its queue and its future is Done with
the queue position; a die that asks, which holds no undealt gang, is dealt min(rem, max(80, ⌈rem / 8⌉)) gangs of the grid that
comes first; a finished gang leaves and is counted; a grid with nothing left writes its record and arrives. A task that is due
starts, and ends. The overflow engine moves the oldest slot of a silo to the end of its trough's ring (R332); where slots lie in the
silo (`siloVa`) and in the slot array (`putHeader`) is the model's choice (log 16). The choice among grids, and where the engines
take their places, are the model's readings (log 57). -/
def Obligations.DispatchEventsComplete : Prop :=
  ∀ (s : State),
    (∀ ctx q c l p stat bytes stab, acceptHead s ctx q = some (c, l, p) → p.kind = .launched → p.denied = none →
      examine s (blankGang 0 c.id p.die) .launched p.priv false p.recAddr.toNat = .record stat bytes stab →
      Machine.exec (.launchAccept ctx q) s = .next (tellAccepted
        (enterGrid (modPend s c.id q fun ps => ps.drop 1) c.id q (newGrid s c q l p stat bytes stab)) p l.accepted)) ∧
    (∀ r die, dealPick s die = some r →
      Machine.exec (.chunkDeal r.id die) s
        = .next { s.modGrid r.id fun x => x.deal die with lastServed := r.ctx * 8 + r.queue } ∧
      r ∈ s.grids ∧ r.over = false ∧ s.hub.thsd = false ∧ (∀ x ∈ s.grids, x.nextOn die = none) ∧
      (r.scope ≠ .pod →
        let rem := r.total - r.next
        let n := min rem (max 80 ((rem + 7) / 8))
        r.deal die
          = { r with started := true, next := r.next + n, chunks := r.chunks ++ [⟨die, r.next, r.next + n⟩] })) ∧
    (∀ gang gi g r, GangAt s gang gi g → g.finished = true → s.grid? g.grid = some r →
      ∃ t h r', Machine.exec (.gangComplete gang) s = .next t ∧ t.gang? gi = some h ∧ h.st = .gone ∧ h.waves = [] ∧
        h.spad = [] ∧ t.grid? g.grid = some r' ∧
        (g.st ∈ [GangSt.killed, .dropped] → r'.cancg = r.cancg + 1 ∧ r'.doneg = r.doneg ∧ r'.errg = r.errg) ∧
        (g.st ∉ [GangSt.killed, .dropped] → r'.cancg = r.cancg ∧ r'.doneg = r.doneg + 1 ∧
          r'.errg = if g.err then min (r.errg + 1) (2 ^ 32 - 1) else r.errg)) ∧
    (∀ r, s.grid? r.id = some r → s.gridDone r = true → r.waits = [] →
      (∀ x ∈ gridWrites r, ∀ va, gridPlace s r x.1 x.2.length ≠ .park va) → (∀ va, gridBar s r ≠ .park va) →
      Machine.exec (.gridComplete r.id) s = .next (completeGrid s r) ∧ (completeGrid s r).grid? r.id = none) ∧
    (∀ r : Grid, recNat (recTail r) 0 8 = r.doneAll % 2 ^ 64 ∧ recNat (recTail r) 8 8 = r.cancAll % 2 ^ 64 ∧
      recNat (recTail r) 16 4 = min (r.sum r.errg (·.errg)) (2 ^ 32 - 1) ∧ recNat (recTail r) 20 1 = r.stat % 256) ∧
    (∀ die key t, taskAt s die key = some t → t.due s = true →
      (t.running = false → Machine.exec (.taskFinish die key) s = .next (startTask s die key)) ∧
      (t.running = true → t.op = none → Machine.exec (.taskFinish die key) s = .next (finishTask s die t))) ∧
    (∀ gang gi g n x k, GangAt s gang gi g → refills s g n = true → g.trough? n = some x →
      translate s g ⟨false, false, g.priv⟩ (siloVa g n x 0) 64 = .ok k →
      let u := noteAccess s g ⟨false, false, g.priv⟩ (siloVa g n x 0) 64
      Machine.exec (.siloRefill gang n) s = .next (putHeader (modTrough u gi n fun y =>
        { y with silo := y.silo - 1, shead := (y.shead + 1) % siloQuota g, ring := y.ring ++ [readSlot u gi (.mem k)] })
          gi n 0 0))

/-! ## Events: pre-emption and faults -/

/-- Pre-emption and the fault service (R303-R305, R312-R314, R319, R326, R333). A gang without running operations is saved
where its image finds room, else it goes on; an image that fails its check ends the grid; the scheduler's choice begins to
stop; a wave drawn to another stage starts at its entry. A posted request takes the die's sequence number, writes its entry
into its slot of the die's ring and arrives on the queue's barrier object; the fault-service gang takes it; a request of a
context without a paging handler, or of a handler's own gang, is denied; a deadline that has come wakes `IDLEW` with 0. The
image's contents, the gang that stands for the fault service, the readings of R312 and R326, and when a wave may be reassigned,
are the model's (logs 11, 21, 60, 61); so is that time reaches a deadline when nothing else moves (log 10). -/
def Obligations.PreemptionAndFaultEvents : Prop :=
  ∀ (s : State),
    (∀ gang gi g c units tell, GangAt s gang gi g → g.canSave = true → g.st = .stopping tell → g.eops = [] →
      s.ctx? g.ctx = some c →
      (∀ off, imageRoom c (imageSize g) = some off → Machine.exec (.preemptSave gang units) s
        = .next (tellSaved ((putImage s c gi g off).modGang gi fun g => g.asSaved tell.isNone) tell)) ∧
      (imageRoom c (imageSize g) = none → Machine.exec (.preemptSave gang units) s
        = .next (noRoom (s.modGang gi fun g => g.resumed) tell))) ∧
    (∀ gang gi g c byre places x, GangAt s gang gi g → g.st = .saved true → s.hub.thsd = false →
      outranked s g.die g.prio true = false → fits s g.die byre g.foot = some places → s.ctx? g.ctx = some c →
      c.images.find? (fun x => x.gang == g.id) = some x →
      Machine.exec (.gangRestore gang byre) s = .next
        (if imageOk s c x then restoreGang s gi byre g c x places else faultGrid s g.grid (imageFault g))) ∧
    (∀ gang gi g die x, GangAt s gang gi g → (∀ h ∈ s.gangs, h.die = die → h.st ≠ .stopping none) →
      x ∈ waitingOn s die → (victim s die x).map (·.id) = some gang →
      Machine.exec (.schedulerPreempt die gang) s = .next (s.modGang gi fun g => { g with st := .stopping none })) ∧
    (∀ gang gi g wi stage w x, GangAt s gang gi g → g.st = .running → g.wave? wi = some w → g.stages[stage]? = some x →
      mayReassign g w = true → drawStage g w.stage = some stage →
      Machine.exec (.stageReassign gang wi stage) s
        = .next (s.setWave gi wi { w with stage := stage, slot0 := { w.slot0 with pc := x.entry } })) ∧
    (∀ req r d, s.reqs.find? (fun r => r.id == req) = some r → canPost s r = true → s.die? r.die = some d →
      let t : State := { s with
        reqs := mapIf (fun x => x.id == req) (fun x => { x with posted := true, seq := d.fseq }) s.reqs
        dies := modAt s.dies r.die fun d => { d with fseq := (d.fseq + 1) % 2 ^ 32 } }
      let entry := natLe 8 r.va ++ natLe 1 (r.ctx % 64) ++ natLe 1 r.kind ++ natLe 1 r.acc ++ natLe 1 0 ++ natLe 4 r.req
        ++ natLe 4 d.fseq ++ natLe 4 r.count ++ natLe 8 0
      Machine.exec (.faultRequestPost req) s = .next (wakePosted
        (arrive (t.writeLoc 0 (.mem (Config.queueKey r.die + 32 * (d.fseq % 256))) entry) 0 (.mem (Config.queueObj r.die)) 1)
        r.die)) ∧
    (∀ die r, s.hub.thsd = false → s.hasService die = true → nextReq s die = some r →
      Machine.exec (.faultServiceDispatch die) s = .next (serve s die r) ∧
      ((∀ c, s.ctx? r.ctx = some c → c.pghnd = 0) ∨ fromPager s r = true → serve s die r = resolveReq false s r)) ∧
    (∀ gang gi g wi w k d deadline p, GangAt s gang gi g → g.wave? wi = some w →
      (w.slot k).st = .blocked (.idle d deadline p) →
      Machine.exec (.idlewDeadline gang wi k) s = .next (({ s with timeNs := max s.timeNs deadline.toNat }).setWave gi wi
        (w.modSlot k fun x => { x with st := .blocked (.woken 0) }))) ∧
    (∀ byre n t, tlbAt s byre n = some t → 256 ≤ t.hits →
      Machine.exec (.tlbHitCounterWrap byre n) s = .next { shadowAdd s t.leaf 256 with
        tlb := mapIf (· == t) (fun x => { x with hits := x.hits - 256 }) (shadowAdd s t.leaf 256).tlb })

/-! ## Events: pod-wide grids -/

/-- Pod-wide grids at their root and at a package (R335-R347). The root sends the initial chunks; a package's request is
answered with min(rem, max(320, ⌈rem / 2 np⌉)) gangs or the end-of-deal notice; a package takes a chunk once it is the oldest
message of its root, and asks for more when it holds fewer than 320 undealt gangs; reports are merged by group; the first fault
to reach the root stands and ends the grid, and each is counted for its package. What another package sends arrives as a message. When a package may report, and how
the pod's messages reach the model, are its readings (log 62). -/
def Obligations.PodEventsComplete : Prop :=
  ∀ (s : State),
    (∀ r, s.grid? r.id = some r → r.scope = .pod → r.root = true → r.started = false → r.over = false → s.hub.thsd = false →
      rootEligible s r = true → Machine.exec (.rootBroadcast r.id) s = .next (broadcast s r)) ∧
    (∀ i d num ctx q prio bytes step lo hi x, s.msgs[i]? = some (.grid d num ctx q prio bytes step lo hi x) →
      inOrder s i = true → d = Config.pkg → rootOf num ≠ Config.pkg → s.numGrid num = none →
      (s.ctx? ctx = none →
        ∃ t r, Machine.exec (.gridMessage (.here i)) s = .next t ∧ t.grids = s.grids ++ [r] ∧
          t.msgs = (dropMsg s i).msgs ++ [.fault num Config.pkg (podFault Config.pkg 4)] ∧ r.num = num ∧ r.root = false ∧
          r.abort = true ∧ r.first = some (podFault Config.pkg 4) ∧ r.heldHere = 0 ∧ r.total = hi - lo) ∧
      (∀ c stab, s.ctx? ctx = some c → stageTab s ctx bytes x = .got stab →
        ∃ t r, Machine.exec (.gridMessage (.here i)) s = .next t ∧ t.grids = s.grids ++ [r] ∧ t.msgs = (dropMsg s i).msgs ∧
          r.num = num ∧ r.root = false ∧ r.started = true ∧ r.step = step ∧ r.bytes = bytes ∧ r.prio = prio ∧ r.stab = stab ∧
          (lo < hi → r.heldHere = hi - lo ∧ r.total = hi - lo)) ∧
      (∀ c va, s.ctx? ctx = some c → stageTab s ctx bytes x = .park va → s.msgWaits num = false →
        Machine.exec (.gridMessage (.here i)) s = .next (addReq s 0 ctx va 4 1 0 (.message num)).1)) ∧
    (∀ num ctx q prio bytes step lo hi, otherRoot s num = true →
      (s.numGrid num = none → s.msgs.any (Msg.isGrid num) = false → q < 8 → prio < 8 → bytes.length = 96 →
        hi ≤ gridSize .launched bytes →
        Machine.exec (.gridMessage (.other num ctx q prio bytes step lo hi)) s
          = Machine.exec (.gridMessage (.here s.msgs.length))
              (send s [.grid Config.pkg num ctx q prio bytes step lo hi false])) ∧
      (∀ r, s.numGrid num = some r → s.msgs.any (Msg.asks num) = true → hi ≤ gridSize .launched r.bytes →
        let t := answered s num
        Machine.exec (.podChunk (.other num lo hi)) s
          = Machine.exec (.podChunk (.here t.msgs.length)) (send t [.chunk Config.pkg num lo hi])) ∧
      (∀ abort cancel, knownGrid s num = true → Machine.exec (.endOfDeal (.other num abort cancel)) s
        = Machine.exec (.endOfDeal (.here s.msgs.length)) (send s [.endDeal Config.pkg num abort cancel]))) ∧
    (∀ num pkg tc widx tpc tval gx gy gz src r, s.numGrid num = some r → faultOk s r pkg src = true →
      Machine.exec (.podFaultReport (.other num pkg tc widx tpc tval gx gy gz src)) s
        = Machine.exec (.podFaultReport (.here s.msgs.length)) (send s [.fault num pkg
            (if src = 4 then podFault pkg 4 else ⟨tc, widx, tpc, tval, gx, gy, gz, src⟩)])) ∧
    (∀ r pkg, s.grid? r.id = some r → r.scope = .pod → pkg ≠ Config.pkg → r.root = true → r.started = true →
      (∃ p ∈ r.pkgs, p.pkg = pkg ∧ p.told = false ∧ p.reported = false) →
      Machine.exec (.podChunkRequest r.id pkg) s = .next (answer s r pkg) ∧
      (r.over = true ∨ r.next = r.total →
        answer s r pkg = { s with msgs := s.msgs ++ [.endDeal pkg r.num r.abort r.cancel] }) ∧
      (r.over = false → r.next < r.total →
        let rem := r.total - r.next
        let n := min rem (max 320 ((rem + 2 * r.pkgs.length - 1) / (2 * r.pkgs.length)))
        .chunk pkg r.num r.next (r.next + n) ∈ (answer s r pkg).msgs)) ∧
    (∀ r, s.grid? r.id = some r → r.scope = .pod → r.root = false → r.started = true → r.over = false → r.heldHere < 320 →
      chunkComing s r.num = false → r.told Config.pkg = false →
      Machine.exec (.podChunkRequest r.id Config.pkg) s
        = .next { s with msgs := s.msgs ++ [.chunkReq r.num Config.pkg] }) ∧
    (∀ i d num lo hi r, s.msgs[i]? = some (.chunk d num lo hi) → inOrder s i = true → d = Config.pkg →
      s.numGrid num = some r →
      Machine.exec (.podChunk (.here i)) s = .next ((dropMsg s i).modGrid r.id fun r => takeChunk r lo hi)) ∧
    (∀ i d num abort cancel r, s.msgs[i]? = some (.endDeal d num abort cancel) → inOrder s i = true →
      s.numGrid num = some r →
      let t := (dropMsg s i).modGrid r.id fun r => modPkg r d fun x => { x with told := true }
      let u := { t with msgs := t.msgs.filter fun m => !m.asks num }
      Machine.exec (.endOfDeal (.here i)) s = .next
        (if d = Config.pkg ∧ r.root = false then (if abort = true ∨ cancel = true then stopGrid u r.id abort else u) else t)) ∧
    (∀ r a b c d, s.grid? r.id = some r → mayReport s r = true →
      Machine.exec (.packageReport r.id Config.pkg a b c d) s = .next (ownReport s r) ∧
      .report r.num Config.pkg r.doneg (givenHere r - r.doneg) r.errg r.faults (ownFirst r) ∈ (ownReport s r).msgs) ∧
    (∀ r pkg a b c d, s.grid? r.id = some r → pkg ≠ Config.pkg → reportOk s r pkg a b c d = true →
      ∃ t, Machine.exec (.packageReport r.id pkg a b c d) s = .next t ∧ t.msgs = s.msgs ++ [.report r.num pkg a b c d none]) ∧
    (∀ r group, s.grid? r.id = some r → groupReady s r group = true →
      Machine.exec (.groupReport r.id group) s = .next (mergeGroup s r group (s.msgs.filterMap (repOf r.num group)))) ∧
    (∀ i num pkg rep r, s.msgs[i]? = some (.fault num pkg rep) → s.numGrid num = some r → r.root = true →
      (∀ x ∈ s.grids, x.id = r.id → x = r) →
      ∃ t r', Machine.exec (.podFaultReport (.here i)) s = .next t ∧ t.grid? r.id = some r' ∧
        r'.first = some (r.first.getD rep) ∧ pkg ∈ r'.fmap ∧ (r.early = false → r'.abort = true) ∧
        r'.pkgs = mapIf (fun x => x.pkg == pkg) (fun x => { x with faults := x.faults + 1 }) r.pkgs) ∧
    (∀ i num gang wave f ser r, s.msgs[i]? = some (.cancel num gang wave f ser) → s.numGrid num = some r →
      r.root = true → r.over = false → ∀ gi, s.gangIdx gang = some gi →
      Machine.exec (.podCancelRequest (.here i)) s = .next (stopGrid
        ((dropMsg s i).finishFut gi wave (some f) ser .done (if r.next < r.total then 1 else 0)) r.id false)) ∧
    (∀ pkg ctx comp r, pkg ≠ Config.pkg → namedGrid s ctx comp = some r → r.scope = .pod → r.root = true → r.over = false →
      (∃ p ∈ r.pkgs, p.pkg = pkg) →
      Machine.exec (.podCancelRequest (.other pkg ctx comp)) s = .next (send (stopGrid s r.id false)
        [.cancelled pkg ctx comp (if r.next < r.total then 1 else 0)])) ∧
    (∀ i still ctx comp gang wave f ser gi, s.msgs[i]? = some (.cancelAt ctx comp gang wave f ser) →
      s.gangIdx gang = some gi →
      Machine.exec (.podCancelRequest (.answer i still)) s
        = .next ((dropMsg s i).finishFut gi wave (some f) ser .done (if still then 1 else 0))) ∧
    (∀ port ok, port < 32 → port ∉ s.hub.ports → retriesOf s.hub port < 16 →
      ∃ t, Machine.exec (.bexyarFlitRetry ⟨port, ok⟩) s = .next t ∧
        retriesOf t.hub port = (if ok then 0 else retriesOf s.hub port + 1) ∧
        (∀ p, p ≠ port → retriesOf t.hub p = retriesOf s.hub p) ∧ t.gangs = s.gangs ∧ t.mem = s.mem ∧ t.grids = s.grids) ∧
    (∀ port, port < 32 → port ∉ s.hub.ports → retriesOf s.hub port = 16 → s.hub.ports.length < 31 →
      Machine.exec (.bexyarPortDown port []) s = .next { s with hub := { s.hub with ports := port :: s.hub.ports } }) ∧
    (∀ r pkg, s.grid? r.id = some r → r.root = true → r.started = true → pkg ∈ s.hub.dead →
      (∃ p ∈ r.pkgs, p.pkg = pkg ∧ p.reported = false) →
      Machine.exec (.podReportTimeout r.id pkg) s = .next ((rootFault s r.id pkg (podFault pkg 3)).modGrid r.id fun r =>
        modPkg r pkg fun x => { x with reported := true }))

/-! ## Events: hub and host -/

/-- Bring-up, the launch port, the hub registers and the host's window (R349-R354). Power-on begins bring-up with memory zero and
nothing placed, and keeps the fuses; an image whose signature does not hold, or that is older than the fused counter, or a
stage that fails, sets STAGE to 0xFF and FAIL; stage 6 makes a fault-service gang resident on each die; stage 7 ends READY. A
command written while the port is busy or before READY sets the sticky LPERR; LPERR clears where a 1 is written. `PCAP` stores
0 or the nearest value from 800 to 3,200 (the clamp is R355's; that 0 is kept is log 68's). A hub register write at 0x18 sets
`LPARG`; at every other offset that event changes nothing: the host's writes to `HSTAT`, `LPCMD` and `PCAP`, at 0x000, 0x010 and
0x200, are events of their own (log 20). A host write is read back; bytes of the system region read 0 and are not written. Stage 5
leaves device memory and Hayloft zero and without poison. That bring-up comes as events, that memory is zero from the start, and
what a stage leaves elsewhere, are the model's choices (logs 3, 66, 67). -/
def Obligations.HostEventsComplete : Prop :=
  ∀ (s : State),
    (∀ m : List Nat,
     let failed : State := { s with hub := { s.hub with stage := 0xFF, fail := true } }
     (∃ t, Machine.exec (.bringUp .start m) s = .next t ∧ t.mem = [] ∧ t.memBad = [] ∧ t.gangs = [] ∧ t.ctxs = [] ∧
       t.timeNs = 0 ∧ t.hub.stage = 1 ∧ t.hub.ready = false ∧ t.hub.fail = false ∧ t.hub.rollback = s.hub.rollback) ∧
     (s.hub.bringing = true →
       Machine.exec (.bringUp .fail m) s = .next failed ∧
       (∀ signed v, s.hub.stage = 1 → Machine.exec (.bringUp (.image signed v) m) s = .next
         (if signed = true ∧ s.hub.rollback ≤ v then { s with hub := { s.hub with stage := 2, version := v } } else failed)) ∧
       (s.hub.stage ∈ [2, 3, 4] → Machine.exec (.bringUp .go m) s
         = .next { s with hub := { s.hub with stage := s.hub.stage + 1 } }) ∧
       (s.hub.stage = 5 → ∃ t, Machine.exec (.bringUp .go m) s = .next t ∧ t.hub.stage = 6 ∧
         (∀ p, p ∈ t.hub.podMap ↔ p = Config.pkg ∨ p ∈ m ∧ p < 512) ∧
         (s.mem.wf = true → ∀ k, (k < Config.devBytes ∨ Config.hayKey 0 0 ≤ k) →
           t.mem.get k = 0 ∧ t.memBad.contains (k / 8) = false)) ∧
       (s.hub.stage = 6 → ∃ t, Machine.exec (.bringUp .go m) s = .next t ∧ t.hub.stage = 7 ∧
         ∀ d, d < 4 → t.hasService d = true) ∧
       (s.hub.stage = 7 → Machine.exec (.bringUp .go m) s
         = .next { s with hub := { s.hub with ready := true }, timeNs := 0 }))) ∧
    (∀ (cmd : D) (code : Nat) (i : Instr), cmd.toNat % 16 = code →
      (i, code) ∈ [(Instr.create cmd, 1), (.startSteward cmd, 2), (.destroy cmd, 3), (.attest cmd, 4)] →
      (s.hub.ready = false ∨ s.hub.lpbusy = true →
        Machine.exec i s = .next { s with hub := { s.hub with lperr := true } }) ∧
      (s.hub.ready = true → s.hub.lpbusy = false →
        let r := if code = 1 then createCtx s else if code = 2 then startSteward s (cmd.toNat / 256 % 64)
          else if code = 3 then destroyCtx s (cmd.toNat / 256 % 64) else attest s
        Machine.exec i s = .next { r.1 with
          hub := { r.1.hub with lpcmd := cmd, lpbusy := true, result := BitVec.ofNat 32 r.2 } })) ∧
    (∀ cmd : D, s.hub.ready = false ∨ s.hub.lpbusy = true →
      Machine.exec (.launchPortReject cmd) s = .next { s with hub := { s.hub with lperr := true } }) ∧
    (s.hub.lpbusy = true → s.hub.lpcmd.toNat % 16 ≠ 3 →
      Machine.exec .launchPortCommandEnd s = .next { s with hub := { s.hub with lpstat := s.hub.result, lpbusy := false } }) ∧
    (s.hub.lpbusy = true → s.hub.lpcmd.toNat % 16 = 3 → s.hub.result = 0 → ctxStopped s (cmdCtx s.hub.lpcmd) = true →
      ∃ t, Machine.exec .launchPortCommandEnd s = .next t ∧ t.hub.lpstat = 0 ∧ t.hub.lpbusy = false ∧
        t.ctx? (cmdCtx s.hub.lpcmd) = none) ∧
    (∀ v : W,
      Machine.exec (.hstatWrite v) s
        = .next { s with hub := { s.hub with lperr := s.hub.lperr && !v.getLsbD 2 } } ∧
      (∃ t, Machine.exec (.pcapWrite v) s = .next t ∧ t.hub.pcap.toNat = capStored (v.toNat % 2 ^ 12) ∧
        (t.hub.pcap = 0 ∨ 800 ≤ t.hub.pcap.toNat ∧ t.hub.pcap.toNat ≤ 3200))) ∧
    (∀ v : D, Machine.exec (.hubRegisterWrite 0x18 v) s = .next { s with hub := { s.hub with lparg := v } } ∧
      ∀ off, off ≠ 0x18 → Machine.exec (.hubRegisterWrite off v) s = .next s) ∧
    (∀ a n, ∃ t, Machine.exec (.hostRead a n) s = .next t ∧ t.hostData.length = n ∧ t.mem = s.mem ∧ t.gangs = s.gangs ∧
      (∀ i, i < n → Config.sysBase ≤ a + i → t.hostData[i]? = some 0) ∧
      (s.tags = [] → ∀ i, i < n → a + i < Config.sysBase → t.hostData[i]? = some (s.mem.get (a + i)))) ∧
    (∀ a bs, s.mem.wf = true → s.tags = [] →
      ∃ t, Machine.exec (.hostWrite a bs) s = .next t ∧ t.gangs = s.gangs ∧
        ∀ k, t.mem.get k = if a ≤ k ∧ k < a + bs.length ∧ k < Config.sysBase then bs.getD (k - a) 0 else s.mem.get k)

/-! ## Events: clocks, power, errors -/

/-- Supply, throttling, shutdown, monitors, scrubbers, refresh and bit errors (R175, R278-R284, R299, R355). A sag stretches the
clock until supply recovers and the clock is restored; a throttle lowers it by a step and sets THROT, which clears when no
die is held below (how far a recovery raises a clock is the model's: log 68); thermal shutdown ends every grid and bars placement
until every temperature monitor reads below 100 °C (the exit's reading is the model's: log 68). A Hayloft refresh is the event in
which the fabric count moves on to the start of the die's next bank (the model's choice: log 10). A scrub changes no value; an
uncorrectable error poisons its granule, a correctable one changes nothing; an error in an L1 line drops the line (which errors
and scrubs come as events, and where, is the model's choice: log 69). -/
def Obligations.ClockAndErrorEvents : Prop :=
  ∀ (s : State) (die : Nat) (d : Die), s.die? die = some d →
    (∃ t, Machine.exec (.supplySag die) s = .next t ∧ t.die? die = some { d with sag := true, recover := false }) ∧
    (d.sag = true → ∃ t, Machine.exec (.supplyRecovery die) s = .next t ∧
      t.die? die = some { d with sag := false, recover := true }) ∧
    (∃ t, Machine.exec (.clockRestore die) s = .next t ∧ t.die? die = some { d with recover := false }) ∧
    (∃ t, Machine.exec (.thermalThrottle die) s = .next t ∧ t.die? die = some { d with throttle := d.throttle + 1 } ∧
      t.hub = { s.hub with throt := true }) ∧
    (∃ t, Machine.exec .powerCapThrottle s = .next t ∧ t.hub = { s.hub with throt := true } ∧
      ∀ n x, s.die? n = some x → t.die? n = some { x with throttle := x.throttle + 1 }) ∧
    (∃ t, Machine.exec (.throttleRecovery die) s = .next t ∧ t.die? die = some { d with throttle := 0 } ∧
      (t.hub.throt = true ↔ ∃ x ∈ t.dies, x.throttle ≠ 0)) ∧
    (∃ t, Machine.exec .thermalShutdown s = .next t ∧ t.hub.thsd = true ∧ t.mem = s.mem ∧
      ∀ r ∈ s.grids, r.kind = .launched → r.early = false → ∃ x ∈ t.grids, x.id = r.id ∧ x.over = true) ∧
    ((∀ n, n < 64 → montKind n = 0 → ((s.hub.mont[n]?).getD 0).toInt < 800) →
      Machine.exec .thermalShutdownExit s = .next { s with hub := { s.hub with thsd := false } }) ∧
    (∀ n v, s.hub.mont.length = 64 → n < 64 → ∃ t, Machine.exec (.monitorRefresh n v) s = .next t ∧
      montWord t.hub n = v.toNat + montKind n * 2 ^ 16 + n / 16 * 2 ^ 20) ∧
    (∀ g n, Machine.exec (.scratchpadScrub g n) s = .next s ∧ Machine.exec (.patrolScrub n) s = .next s) ∧
    (∃ n, Machine.exec (.hayloftRefresh die) s = .next { s with fabric := s.fabric + n } ∧
      ({ s with fabric := s.fabric + n }).phase die = (s.phase die / 3000 + 1) % 32 * 3000) ∧
    (∀ site, (∀ byre line, site ≠ .l1 byre line) → Machine.exec (.memoryBitError site false) s = .next s) ∧
    (∀ key, key < Config.devBytes → ∃ t, Machine.exec (.memoryBitError (.granule key) true) s = .next t ∧
      t.locBad 0 (.mem key) = true ∧ t.mem = s.mem ∧ ∀ k, k / 8 ≠ key / 8 → t.locBad 0 (.mem k) = s.locBad 0 (.mem k)) ∧
    (∀ gang gi g word, GangAt s gang gi g → 8 * word < g.spadLen →
      ∃ t, Machine.exec (.memoryBitError (.scratch gang word) true) s = .next t ∧ t.locBad gi (.spad (8 * word)) = true) ∧
    (∀ byre line u, ∃ t, Machine.exec (.memoryBitError (.l1 byre line) u) s = .next t ∧ t.mem = s.mem ∧
      ∀ c ∈ t.l1, ¬(c.byre = byre ∧ c.key = line))
end

