-- ==== Sys2Proof/Laws/State.lean ====
section
/-! SUPPORT. One lemma per field per named update of the state, true by `rfl`: what an update of one part leaves of every
other. -/

namespace Sys2Proof.Machine

/-! `modGang` -/

@[simp] theorem State.modGang_hub (s : State) (gi : Nat) (f : Gang → Gang) : (s.modGang gi f).hub = s.hub := rfl
@[simp] theorem State.modGang_ctxs (s : State) (gi : Nat) (f : Gang → Gang) : (s.modGang gi f).ctxs = s.ctxs := rfl
@[simp] theorem State.modGang_grids (s : State) (gi : Nat) (f : Gang → Gang) : (s.modGang gi f).grids = s.grids := rfl
@[simp] theorem State.modGang_gangs (s : State) (gi : Nat) (f : Gang → Gang) : (s.modGang gi f).gangs = modAt s.gangs gi f := rfl
@[simp] theorem State.modGang_dies (s : State) (gi : Nat) (f : Gang → Gang) : (s.modGang gi f).dies = s.dies := rfl
@[simp] theorem State.modGang_reqs (s : State) (gi : Nat) (f : Gang → Gang) : (s.modGang gi f).reqs = s.reqs := rfl
@[simp] theorem State.modGang_msgs (s : State) (gi : Nat) (f : Gang → Gang) : (s.modGang gi f).msgs = s.msgs := rfl
@[simp] theorem State.modGang_mem (s : State) (gi : Nat) (f : Gang → Gang) : (s.modGang gi f).mem = s.mem := rfl
@[simp] theorem State.modGang_memBad (s : State) (gi : Nat) (f : Gang → Gang) : (s.modGang gi f).memBad = s.memBad := rfl
@[simp] theorem State.modGang_tags (s : State) (gi : Nat) (f : Gang → Gang) : (s.modGang gi f).tags = s.tags := rfl
@[simp] theorem State.modGang_l1 (s : State) (gi : Nat) (f : Gang → Gang) : (s.modGang gi f).l1 = s.l1 := rfl
@[simp] theorem State.modGang_icache (s : State) (gi : Nat) (f : Gang → Gang) : (s.modGang gi f).icache = s.icache := rfl
@[simp] theorem State.modGang_obuf (s : State) (gi : Nat) (f : Gang → Gang) : (s.modGang gi f).obuf = s.obuf := rfl
@[simp] theorem State.modGang_olds (s : State) (gi : Nat) (f : Gang → Gang) : (s.modGang gi f).olds = s.olds := rfl
@[simp] theorem State.modGang_llc (s : State) (gi : Nat) (f : Gang → Gang) : (s.modGang gi f).llc = s.llc := rfl
@[simp] theorem State.modGang_pubs (s : State) (gi : Nat) (f : Gang → Gang) : (s.modGang gi f).pubs = s.pubs := rfl
@[simp] theorem State.modGang_fills (s : State) (gi : Nat) (f : Gang → Gang) : (s.modGang gi f).fills = s.fills := rfl
@[simp] theorem State.modGang_tlb (s : State) (gi : Nat) (f : Gang → Gang) : (s.modGang gi f).tlb = s.tlb := rfl
@[simp] theorem State.modGang_shbase (s : State) (gi : Nat) (f : Gang → Gang) : (s.modGang gi f).shbase = s.shbase := rfl
@[simp] theorem State.modGang_perf (s : State) (gi : Nat) (f : Gang → Gang) : (s.modGang gi f).perf = s.perf := rfl
@[simp] theorem State.modGang_issuers (s : State) (gi : Nat) (f : Gang → Gang) : (s.modGang gi f).issuers = s.issuers := rfl
@[simp] theorem State.modGang_cycles (s : State) (gi : Nat) (f : Gang → Gang) : (s.modGang gi f).cycles = s.cycles := rfl
@[simp] theorem State.modGang_timeNs (s : State) (gi : Nat) (f : Gang → Gang) : (s.modGang gi f).timeNs = s.timeNs := rfl
@[simp] theorem State.modGang_fabric (s : State) (gi : Nat) (f : Gang → Gang) : (s.modGang gi f).fabric = s.fabric := rfl
@[simp] theorem State.modGang_hostData (s : State) (gi : Nat) (f : Gang → Gang) : (s.modGang gi f).hostData = s.hostData := rfl
@[simp] theorem State.modGang_ids (s : State) (gi : Nat) (f : Gang → Gang) : (s.modGang gi f).ids = s.ids := rfl
@[simp] theorem State.modGang_lastServed (s : State) (gi : Nat) (f : Gang → Gang) : (s.modGang gi f).lastServed = s.lastServed := rfl
@[simp] theorem State.modGang_freeCtr (s : State) (gi : Nat) (f : Gang → Gang) : (s.modGang gi f).freeCtr = s.freeCtr := rfl
@[simp] theorem State.modGang_stale (s : State) (gi : Nat) (f : Gang → Gang) : (s.modGang gi f).stale = s.stale := rfl
@[simp] theorem State.modGang_cur (s : State) (gi : Nat) (f : Gang → Gang) : (s.modGang gi f).cur = s.cur := rfl
@[simp] theorem State.modGang_agenda (s : State) (gi : Nat) (f : Gang → Gang) : (s.modGang gi f).agenda = s.agenda := rfl

/-! `modWave` -/

@[simp] theorem State.modWave_hub (s : State) (gi wi : Nat) (f : Wave → Wave) : (s.modWave gi wi f).hub = s.hub := rfl
@[simp] theorem State.modWave_ctxs (s : State) (gi wi : Nat) (f : Wave → Wave) : (s.modWave gi wi f).ctxs = s.ctxs := rfl
@[simp] theorem State.modWave_grids (s : State) (gi wi : Nat) (f : Wave → Wave) : (s.modWave gi wi f).grids = s.grids := rfl
@[simp] theorem State.modWave_gangs (s : State) (gi wi : Nat) (f : Wave → Wave) : (s.modWave gi wi f).gangs = modAt s.gangs gi fun g => { g with waves := modAt g.waves wi f } := rfl
@[simp] theorem State.modWave_dies (s : State) (gi wi : Nat) (f : Wave → Wave) : (s.modWave gi wi f).dies = s.dies := rfl
@[simp] theorem State.modWave_reqs (s : State) (gi wi : Nat) (f : Wave → Wave) : (s.modWave gi wi f).reqs = s.reqs := rfl
@[simp] theorem State.modWave_msgs (s : State) (gi wi : Nat) (f : Wave → Wave) : (s.modWave gi wi f).msgs = s.msgs := rfl
@[simp] theorem State.modWave_mem (s : State) (gi wi : Nat) (f : Wave → Wave) : (s.modWave gi wi f).mem = s.mem := rfl
@[simp] theorem State.modWave_memBad (s : State) (gi wi : Nat) (f : Wave → Wave) : (s.modWave gi wi f).memBad = s.memBad := rfl
@[simp] theorem State.modWave_tags (s : State) (gi wi : Nat) (f : Wave → Wave) : (s.modWave gi wi f).tags = s.tags := rfl
@[simp] theorem State.modWave_l1 (s : State) (gi wi : Nat) (f : Wave → Wave) : (s.modWave gi wi f).l1 = s.l1 := rfl
@[simp] theorem State.modWave_icache (s : State) (gi wi : Nat) (f : Wave → Wave) : (s.modWave gi wi f).icache = s.icache := rfl
@[simp] theorem State.modWave_obuf (s : State) (gi wi : Nat) (f : Wave → Wave) : (s.modWave gi wi f).obuf = s.obuf := rfl
@[simp] theorem State.modWave_olds (s : State) (gi wi : Nat) (f : Wave → Wave) : (s.modWave gi wi f).olds = s.olds := rfl
@[simp] theorem State.modWave_llc (s : State) (gi wi : Nat) (f : Wave → Wave) : (s.modWave gi wi f).llc = s.llc := rfl
@[simp] theorem State.modWave_pubs (s : State) (gi wi : Nat) (f : Wave → Wave) : (s.modWave gi wi f).pubs = s.pubs := rfl
@[simp] theorem State.modWave_fills (s : State) (gi wi : Nat) (f : Wave → Wave) : (s.modWave gi wi f).fills = s.fills := rfl
@[simp] theorem State.modWave_tlb (s : State) (gi wi : Nat) (f : Wave → Wave) : (s.modWave gi wi f).tlb = s.tlb := rfl
@[simp] theorem State.modWave_shbase (s : State) (gi wi : Nat) (f : Wave → Wave) : (s.modWave gi wi f).shbase = s.shbase := rfl
@[simp] theorem State.modWave_perf (s : State) (gi wi : Nat) (f : Wave → Wave) : (s.modWave gi wi f).perf = s.perf := rfl
@[simp] theorem State.modWave_issuers (s : State) (gi wi : Nat) (f : Wave → Wave) : (s.modWave gi wi f).issuers = s.issuers := rfl
@[simp] theorem State.modWave_cycles (s : State) (gi wi : Nat) (f : Wave → Wave) : (s.modWave gi wi f).cycles = s.cycles := rfl
@[simp] theorem State.modWave_timeNs (s : State) (gi wi : Nat) (f : Wave → Wave) : (s.modWave gi wi f).timeNs = s.timeNs := rfl
@[simp] theorem State.modWave_fabric (s : State) (gi wi : Nat) (f : Wave → Wave) : (s.modWave gi wi f).fabric = s.fabric := rfl
@[simp] theorem State.modWave_hostData (s : State) (gi wi : Nat) (f : Wave → Wave) : (s.modWave gi wi f).hostData = s.hostData := rfl
@[simp] theorem State.modWave_ids (s : State) (gi wi : Nat) (f : Wave → Wave) : (s.modWave gi wi f).ids = s.ids := rfl
@[simp] theorem State.modWave_lastServed (s : State) (gi wi : Nat) (f : Wave → Wave) : (s.modWave gi wi f).lastServed = s.lastServed := rfl
@[simp] theorem State.modWave_freeCtr (s : State) (gi wi : Nat) (f : Wave → Wave) : (s.modWave gi wi f).freeCtr = s.freeCtr := rfl
@[simp] theorem State.modWave_stale (s : State) (gi wi : Nat) (f : Wave → Wave) : (s.modWave gi wi f).stale = s.stale := rfl
@[simp] theorem State.modWave_cur (s : State) (gi wi : Nat) (f : Wave → Wave) : (s.modWave gi wi f).cur = s.cur := rfl
@[simp] theorem State.modWave_agenda (s : State) (gi wi : Nat) (f : Wave → Wave) : (s.modWave gi wi f).agenda = s.agenda := rfl

/-! `setWave` -/

@[simp] theorem State.setWave_hub (s : State) (gi wi : Nat) (w : Wave) : (s.setWave gi wi w).hub = s.hub := rfl
@[simp] theorem State.setWave_ctxs (s : State) (gi wi : Nat) (w : Wave) : (s.setWave gi wi w).ctxs = s.ctxs := rfl
@[simp] theorem State.setWave_grids (s : State) (gi wi : Nat) (w : Wave) : (s.setWave gi wi w).grids = s.grids := rfl
@[simp] theorem State.setWave_gangs (s : State) (gi wi : Nat) (w : Wave) : (s.setWave gi wi w).gangs = modAt s.gangs gi fun g => { g with waves := modAt g.waves wi fun _ => w } := rfl
@[simp] theorem State.setWave_dies (s : State) (gi wi : Nat) (w : Wave) : (s.setWave gi wi w).dies = s.dies := rfl
@[simp] theorem State.setWave_reqs (s : State) (gi wi : Nat) (w : Wave) : (s.setWave gi wi w).reqs = s.reqs := rfl
@[simp] theorem State.setWave_msgs (s : State) (gi wi : Nat) (w : Wave) : (s.setWave gi wi w).msgs = s.msgs := rfl
@[simp] theorem State.setWave_mem (s : State) (gi wi : Nat) (w : Wave) : (s.setWave gi wi w).mem = s.mem := rfl
@[simp] theorem State.setWave_memBad (s : State) (gi wi : Nat) (w : Wave) : (s.setWave gi wi w).memBad = s.memBad := rfl
@[simp] theorem State.setWave_tags (s : State) (gi wi : Nat) (w : Wave) : (s.setWave gi wi w).tags = s.tags := rfl
@[simp] theorem State.setWave_l1 (s : State) (gi wi : Nat) (w : Wave) : (s.setWave gi wi w).l1 = s.l1 := rfl
@[simp] theorem State.setWave_icache (s : State) (gi wi : Nat) (w : Wave) : (s.setWave gi wi w).icache = s.icache := rfl
@[simp] theorem State.setWave_obuf (s : State) (gi wi : Nat) (w : Wave) : (s.setWave gi wi w).obuf = s.obuf := rfl
@[simp] theorem State.setWave_olds (s : State) (gi wi : Nat) (w : Wave) : (s.setWave gi wi w).olds = s.olds := rfl
@[simp] theorem State.setWave_llc (s : State) (gi wi : Nat) (w : Wave) : (s.setWave gi wi w).llc = s.llc := rfl
@[simp] theorem State.setWave_pubs (s : State) (gi wi : Nat) (w : Wave) : (s.setWave gi wi w).pubs = s.pubs := rfl
@[simp] theorem State.setWave_fills (s : State) (gi wi : Nat) (w : Wave) : (s.setWave gi wi w).fills = s.fills := rfl
@[simp] theorem State.setWave_tlb (s : State) (gi wi : Nat) (w : Wave) : (s.setWave gi wi w).tlb = s.tlb := rfl
@[simp] theorem State.setWave_shbase (s : State) (gi wi : Nat) (w : Wave) : (s.setWave gi wi w).shbase = s.shbase := rfl
@[simp] theorem State.setWave_perf (s : State) (gi wi : Nat) (w : Wave) : (s.setWave gi wi w).perf = s.perf := rfl
@[simp] theorem State.setWave_issuers (s : State) (gi wi : Nat) (w : Wave) : (s.setWave gi wi w).issuers = s.issuers := rfl
@[simp] theorem State.setWave_cycles (s : State) (gi wi : Nat) (w : Wave) : (s.setWave gi wi w).cycles = s.cycles := rfl
@[simp] theorem State.setWave_timeNs (s : State) (gi wi : Nat) (w : Wave) : (s.setWave gi wi w).timeNs = s.timeNs := rfl
@[simp] theorem State.setWave_fabric (s : State) (gi wi : Nat) (w : Wave) : (s.setWave gi wi w).fabric = s.fabric := rfl
@[simp] theorem State.setWave_hostData (s : State) (gi wi : Nat) (w : Wave) : (s.setWave gi wi w).hostData = s.hostData := rfl
@[simp] theorem State.setWave_ids (s : State) (gi wi : Nat) (w : Wave) : (s.setWave gi wi w).ids = s.ids := rfl
@[simp] theorem State.setWave_lastServed (s : State) (gi wi : Nat) (w : Wave) : (s.setWave gi wi w).lastServed = s.lastServed := rfl
@[simp] theorem State.setWave_freeCtr (s : State) (gi wi : Nat) (w : Wave) : (s.setWave gi wi w).freeCtr = s.freeCtr := rfl
@[simp] theorem State.setWave_stale (s : State) (gi wi : Nat) (w : Wave) : (s.setWave gi wi w).stale = s.stale := rfl
@[simp] theorem State.setWave_cur (s : State) (gi wi : Nat) (w : Wave) : (s.setWave gi wi w).cur = s.cur := rfl
@[simp] theorem State.setWave_agenda (s : State) (gi wi : Nat) (w : Wave) : (s.setWave gi wi w).agenda = s.agenda := rfl

/-! `modCtx` -/

@[simp] theorem State.modCtx_hub (s : State) (c : Nat) (f : Ctx → Ctx) : (s.modCtx c f).hub = s.hub := rfl
@[simp] theorem State.modCtx_ctxs (s : State) (c : Nat) (f : Ctx → Ctx) : (s.modCtx c f).ctxs = mapIf (·.id == c) f s.ctxs := rfl
@[simp] theorem State.modCtx_grids (s : State) (c : Nat) (f : Ctx → Ctx) : (s.modCtx c f).grids = s.grids := rfl
@[simp] theorem State.modCtx_gangs (s : State) (c : Nat) (f : Ctx → Ctx) : (s.modCtx c f).gangs = s.gangs := rfl
@[simp] theorem State.modCtx_dies (s : State) (c : Nat) (f : Ctx → Ctx) : (s.modCtx c f).dies = s.dies := rfl
@[simp] theorem State.modCtx_reqs (s : State) (c : Nat) (f : Ctx → Ctx) : (s.modCtx c f).reqs = s.reqs := rfl
@[simp] theorem State.modCtx_msgs (s : State) (c : Nat) (f : Ctx → Ctx) : (s.modCtx c f).msgs = s.msgs := rfl
@[simp] theorem State.modCtx_mem (s : State) (c : Nat) (f : Ctx → Ctx) : (s.modCtx c f).mem = s.mem := rfl
@[simp] theorem State.modCtx_memBad (s : State) (c : Nat) (f : Ctx → Ctx) : (s.modCtx c f).memBad = s.memBad := rfl
@[simp] theorem State.modCtx_tags (s : State) (c : Nat) (f : Ctx → Ctx) : (s.modCtx c f).tags = s.tags := rfl
@[simp] theorem State.modCtx_l1 (s : State) (c : Nat) (f : Ctx → Ctx) : (s.modCtx c f).l1 = s.l1 := rfl
@[simp] theorem State.modCtx_icache (s : State) (c : Nat) (f : Ctx → Ctx) : (s.modCtx c f).icache = s.icache := rfl
@[simp] theorem State.modCtx_obuf (s : State) (c : Nat) (f : Ctx → Ctx) : (s.modCtx c f).obuf = s.obuf := rfl
@[simp] theorem State.modCtx_olds (s : State) (c : Nat) (f : Ctx → Ctx) : (s.modCtx c f).olds = s.olds := rfl
@[simp] theorem State.modCtx_llc (s : State) (c : Nat) (f : Ctx → Ctx) : (s.modCtx c f).llc = s.llc := rfl
@[simp] theorem State.modCtx_pubs (s : State) (c : Nat) (f : Ctx → Ctx) : (s.modCtx c f).pubs = s.pubs := rfl
@[simp] theorem State.modCtx_fills (s : State) (c : Nat) (f : Ctx → Ctx) : (s.modCtx c f).fills = s.fills := rfl
@[simp] theorem State.modCtx_tlb (s : State) (c : Nat) (f : Ctx → Ctx) : (s.modCtx c f).tlb = s.tlb := rfl
@[simp] theorem State.modCtx_shbase (s : State) (c : Nat) (f : Ctx → Ctx) : (s.modCtx c f).shbase = s.shbase := rfl
@[simp] theorem State.modCtx_perf (s : State) (c : Nat) (f : Ctx → Ctx) : (s.modCtx c f).perf = s.perf := rfl
@[simp] theorem State.modCtx_issuers (s : State) (c : Nat) (f : Ctx → Ctx) : (s.modCtx c f).issuers = s.issuers := rfl
@[simp] theorem State.modCtx_cycles (s : State) (c : Nat) (f : Ctx → Ctx) : (s.modCtx c f).cycles = s.cycles := rfl
@[simp] theorem State.modCtx_timeNs (s : State) (c : Nat) (f : Ctx → Ctx) : (s.modCtx c f).timeNs = s.timeNs := rfl
@[simp] theorem State.modCtx_fabric (s : State) (c : Nat) (f : Ctx → Ctx) : (s.modCtx c f).fabric = s.fabric := rfl
@[simp] theorem State.modCtx_hostData (s : State) (c : Nat) (f : Ctx → Ctx) : (s.modCtx c f).hostData = s.hostData := rfl
@[simp] theorem State.modCtx_ids (s : State) (c : Nat) (f : Ctx → Ctx) : (s.modCtx c f).ids = s.ids := rfl
@[simp] theorem State.modCtx_lastServed (s : State) (c : Nat) (f : Ctx → Ctx) : (s.modCtx c f).lastServed = s.lastServed := rfl
@[simp] theorem State.modCtx_freeCtr (s : State) (c : Nat) (f : Ctx → Ctx) : (s.modCtx c f).freeCtr = s.freeCtr := rfl
@[simp] theorem State.modCtx_stale (s : State) (c : Nat) (f : Ctx → Ctx) : (s.modCtx c f).stale = s.stale := rfl
@[simp] theorem State.modCtx_cur (s : State) (c : Nat) (f : Ctx → Ctx) : (s.modCtx c f).cur = s.cur := rfl
@[simp] theorem State.modCtx_agenda (s : State) (c : Nat) (f : Ctx → Ctx) : (s.modCtx c f).agenda = s.agenda := rfl

/-! `modGrid` -/

@[simp] theorem State.modGrid_hub (s : State) (r : Nat) (f : Grid → Grid) : (s.modGrid r f).hub = s.hub := rfl
@[simp] theorem State.modGrid_ctxs (s : State) (r : Nat) (f : Grid → Grid) : (s.modGrid r f).ctxs = s.ctxs := rfl
@[simp] theorem State.modGrid_grids (s : State) (r : Nat) (f : Grid → Grid) : (s.modGrid r f).grids = mapIf (·.id == r) f s.grids := rfl
@[simp] theorem State.modGrid_gangs (s : State) (r : Nat) (f : Grid → Grid) : (s.modGrid r f).gangs = s.gangs := rfl
@[simp] theorem State.modGrid_dies (s : State) (r : Nat) (f : Grid → Grid) : (s.modGrid r f).dies = s.dies := rfl
@[simp] theorem State.modGrid_reqs (s : State) (r : Nat) (f : Grid → Grid) : (s.modGrid r f).reqs = s.reqs := rfl
@[simp] theorem State.modGrid_msgs (s : State) (r : Nat) (f : Grid → Grid) : (s.modGrid r f).msgs = s.msgs := rfl
@[simp] theorem State.modGrid_mem (s : State) (r : Nat) (f : Grid → Grid) : (s.modGrid r f).mem = s.mem := rfl
@[simp] theorem State.modGrid_memBad (s : State) (r : Nat) (f : Grid → Grid) : (s.modGrid r f).memBad = s.memBad := rfl
@[simp] theorem State.modGrid_tags (s : State) (r : Nat) (f : Grid → Grid) : (s.modGrid r f).tags = s.tags := rfl
@[simp] theorem State.modGrid_l1 (s : State) (r : Nat) (f : Grid → Grid) : (s.modGrid r f).l1 = s.l1 := rfl
@[simp] theorem State.modGrid_icache (s : State) (r : Nat) (f : Grid → Grid) : (s.modGrid r f).icache = s.icache := rfl
@[simp] theorem State.modGrid_obuf (s : State) (r : Nat) (f : Grid → Grid) : (s.modGrid r f).obuf = s.obuf := rfl
@[simp] theorem State.modGrid_olds (s : State) (r : Nat) (f : Grid → Grid) : (s.modGrid r f).olds = s.olds := rfl
@[simp] theorem State.modGrid_llc (s : State) (r : Nat) (f : Grid → Grid) : (s.modGrid r f).llc = s.llc := rfl
@[simp] theorem State.modGrid_pubs (s : State) (r : Nat) (f : Grid → Grid) : (s.modGrid r f).pubs = s.pubs := rfl
@[simp] theorem State.modGrid_fills (s : State) (r : Nat) (f : Grid → Grid) : (s.modGrid r f).fills = s.fills := rfl
@[simp] theorem State.modGrid_tlb (s : State) (r : Nat) (f : Grid → Grid) : (s.modGrid r f).tlb = s.tlb := rfl
@[simp] theorem State.modGrid_shbase (s : State) (r : Nat) (f : Grid → Grid) : (s.modGrid r f).shbase = s.shbase := rfl
@[simp] theorem State.modGrid_perf (s : State) (r : Nat) (f : Grid → Grid) : (s.modGrid r f).perf = s.perf := rfl
@[simp] theorem State.modGrid_issuers (s : State) (r : Nat) (f : Grid → Grid) : (s.modGrid r f).issuers = s.issuers := rfl
@[simp] theorem State.modGrid_cycles (s : State) (r : Nat) (f : Grid → Grid) : (s.modGrid r f).cycles = s.cycles := rfl
@[simp] theorem State.modGrid_timeNs (s : State) (r : Nat) (f : Grid → Grid) : (s.modGrid r f).timeNs = s.timeNs := rfl
@[simp] theorem State.modGrid_fabric (s : State) (r : Nat) (f : Grid → Grid) : (s.modGrid r f).fabric = s.fabric := rfl
@[simp] theorem State.modGrid_hostData (s : State) (r : Nat) (f : Grid → Grid) : (s.modGrid r f).hostData = s.hostData := rfl
@[simp] theorem State.modGrid_ids (s : State) (r : Nat) (f : Grid → Grid) : (s.modGrid r f).ids = s.ids := rfl
@[simp] theorem State.modGrid_lastServed (s : State) (r : Nat) (f : Grid → Grid) : (s.modGrid r f).lastServed = s.lastServed := rfl
@[simp] theorem State.modGrid_freeCtr (s : State) (r : Nat) (f : Grid → Grid) : (s.modGrid r f).freeCtr = s.freeCtr := rfl
@[simp] theorem State.modGrid_stale (s : State) (r : Nat) (f : Grid → Grid) : (s.modGrid r f).stale = s.stale := rfl
@[simp] theorem State.modGrid_cur (s : State) (r : Nat) (f : Grid → Grid) : (s.modGrid r f).cur = s.cur := rfl
@[simp] theorem State.modGrid_agenda (s : State) (r : Nat) (f : Grid → Grid) : (s.modGrid r f).agenda = s.agenda := rfl

/-! `modDie` -/

@[simp] theorem State.modDie_hub (s : State) (d : Nat) (f : Die → Die) : (s.modDie d f).hub = s.hub := rfl
@[simp] theorem State.modDie_ctxs (s : State) (d : Nat) (f : Die → Die) : (s.modDie d f).ctxs = s.ctxs := rfl
@[simp] theorem State.modDie_grids (s : State) (d : Nat) (f : Die → Die) : (s.modDie d f).grids = s.grids := rfl
@[simp] theorem State.modDie_gangs (s : State) (d : Nat) (f : Die → Die) : (s.modDie d f).gangs = s.gangs := rfl
@[simp] theorem State.modDie_dies (s : State) (d : Nat) (f : Die → Die) : (s.modDie d f).dies = modAt s.dies d f := rfl
@[simp] theorem State.modDie_reqs (s : State) (d : Nat) (f : Die → Die) : (s.modDie d f).reqs = s.reqs := rfl
@[simp] theorem State.modDie_msgs (s : State) (d : Nat) (f : Die → Die) : (s.modDie d f).msgs = s.msgs := rfl
@[simp] theorem State.modDie_mem (s : State) (d : Nat) (f : Die → Die) : (s.modDie d f).mem = s.mem := rfl
@[simp] theorem State.modDie_memBad (s : State) (d : Nat) (f : Die → Die) : (s.modDie d f).memBad = s.memBad := rfl
@[simp] theorem State.modDie_tags (s : State) (d : Nat) (f : Die → Die) : (s.modDie d f).tags = s.tags := rfl
@[simp] theorem State.modDie_l1 (s : State) (d : Nat) (f : Die → Die) : (s.modDie d f).l1 = s.l1 := rfl
@[simp] theorem State.modDie_icache (s : State) (d : Nat) (f : Die → Die) : (s.modDie d f).icache = s.icache := rfl
@[simp] theorem State.modDie_obuf (s : State) (d : Nat) (f : Die → Die) : (s.modDie d f).obuf = s.obuf := rfl
@[simp] theorem State.modDie_olds (s : State) (d : Nat) (f : Die → Die) : (s.modDie d f).olds = s.olds := rfl
@[simp] theorem State.modDie_llc (s : State) (d : Nat) (f : Die → Die) : (s.modDie d f).llc = s.llc := rfl
@[simp] theorem State.modDie_pubs (s : State) (d : Nat) (f : Die → Die) : (s.modDie d f).pubs = s.pubs := rfl
@[simp] theorem State.modDie_fills (s : State) (d : Nat) (f : Die → Die) : (s.modDie d f).fills = s.fills := rfl
@[simp] theorem State.modDie_tlb (s : State) (d : Nat) (f : Die → Die) : (s.modDie d f).tlb = s.tlb := rfl
@[simp] theorem State.modDie_shbase (s : State) (d : Nat) (f : Die → Die) : (s.modDie d f).shbase = s.shbase := rfl
@[simp] theorem State.modDie_perf (s : State) (d : Nat) (f : Die → Die) : (s.modDie d f).perf = s.perf := rfl
@[simp] theorem State.modDie_issuers (s : State) (d : Nat) (f : Die → Die) : (s.modDie d f).issuers = s.issuers := rfl
@[simp] theorem State.modDie_cycles (s : State) (d : Nat) (f : Die → Die) : (s.modDie d f).cycles = s.cycles := rfl
@[simp] theorem State.modDie_timeNs (s : State) (d : Nat) (f : Die → Die) : (s.modDie d f).timeNs = s.timeNs := rfl
@[simp] theorem State.modDie_fabric (s : State) (d : Nat) (f : Die → Die) : (s.modDie d f).fabric = s.fabric := rfl
@[simp] theorem State.modDie_hostData (s : State) (d : Nat) (f : Die → Die) : (s.modDie d f).hostData = s.hostData := rfl
@[simp] theorem State.modDie_ids (s : State) (d : Nat) (f : Die → Die) : (s.modDie d f).ids = s.ids := rfl
@[simp] theorem State.modDie_lastServed (s : State) (d : Nat) (f : Die → Die) : (s.modDie d f).lastServed = s.lastServed := rfl
@[simp] theorem State.modDie_freeCtr (s : State) (d : Nat) (f : Die → Die) : (s.modDie d f).freeCtr = s.freeCtr := rfl
@[simp] theorem State.modDie_stale (s : State) (d : Nat) (f : Die → Die) : (s.modDie d f).stale = s.stale := rfl
@[simp] theorem State.modDie_cur (s : State) (d : Nat) (f : Die → Die) : (s.modDie d f).cur = s.cur := rfl
@[simp] theorem State.modDie_agenda (s : State) (d : Nat) (f : Die → Die) : (s.modDie d f).agenda = s.agenda := rfl

/-! `modHub` -/

@[simp] theorem State.modHub_hub (s : State) (f : Hub → Hub) : (s.modHub f).hub = f s.hub := rfl
@[simp] theorem State.modHub_ctxs (s : State) (f : Hub → Hub) : (s.modHub f).ctxs = s.ctxs := rfl
@[simp] theorem State.modHub_grids (s : State) (f : Hub → Hub) : (s.modHub f).grids = s.grids := rfl
@[simp] theorem State.modHub_gangs (s : State) (f : Hub → Hub) : (s.modHub f).gangs = s.gangs := rfl
@[simp] theorem State.modHub_dies (s : State) (f : Hub → Hub) : (s.modHub f).dies = s.dies := rfl
@[simp] theorem State.modHub_reqs (s : State) (f : Hub → Hub) : (s.modHub f).reqs = s.reqs := rfl
@[simp] theorem State.modHub_msgs (s : State) (f : Hub → Hub) : (s.modHub f).msgs = s.msgs := rfl
@[simp] theorem State.modHub_mem (s : State) (f : Hub → Hub) : (s.modHub f).mem = s.mem := rfl
@[simp] theorem State.modHub_memBad (s : State) (f : Hub → Hub) : (s.modHub f).memBad = s.memBad := rfl
@[simp] theorem State.modHub_tags (s : State) (f : Hub → Hub) : (s.modHub f).tags = s.tags := rfl
@[simp] theorem State.modHub_l1 (s : State) (f : Hub → Hub) : (s.modHub f).l1 = s.l1 := rfl
@[simp] theorem State.modHub_icache (s : State) (f : Hub → Hub) : (s.modHub f).icache = s.icache := rfl
@[simp] theorem State.modHub_obuf (s : State) (f : Hub → Hub) : (s.modHub f).obuf = s.obuf := rfl
@[simp] theorem State.modHub_olds (s : State) (f : Hub → Hub) : (s.modHub f).olds = s.olds := rfl
@[simp] theorem State.modHub_llc (s : State) (f : Hub → Hub) : (s.modHub f).llc = s.llc := rfl
@[simp] theorem State.modHub_pubs (s : State) (f : Hub → Hub) : (s.modHub f).pubs = s.pubs := rfl
@[simp] theorem State.modHub_fills (s : State) (f : Hub → Hub) : (s.modHub f).fills = s.fills := rfl
@[simp] theorem State.modHub_tlb (s : State) (f : Hub → Hub) : (s.modHub f).tlb = s.tlb := rfl
@[simp] theorem State.modHub_shbase (s : State) (f : Hub → Hub) : (s.modHub f).shbase = s.shbase := rfl
@[simp] theorem State.modHub_perf (s : State) (f : Hub → Hub) : (s.modHub f).perf = s.perf := rfl
@[simp] theorem State.modHub_issuers (s : State) (f : Hub → Hub) : (s.modHub f).issuers = s.issuers := rfl
@[simp] theorem State.modHub_cycles (s : State) (f : Hub → Hub) : (s.modHub f).cycles = s.cycles := rfl
@[simp] theorem State.modHub_timeNs (s : State) (f : Hub → Hub) : (s.modHub f).timeNs = s.timeNs := rfl
@[simp] theorem State.modHub_fabric (s : State) (f : Hub → Hub) : (s.modHub f).fabric = s.fabric := rfl
@[simp] theorem State.modHub_hostData (s : State) (f : Hub → Hub) : (s.modHub f).hostData = s.hostData := rfl
@[simp] theorem State.modHub_ids (s : State) (f : Hub → Hub) : (s.modHub f).ids = s.ids := rfl
@[simp] theorem State.modHub_lastServed (s : State) (f : Hub → Hub) : (s.modHub f).lastServed = s.lastServed := rfl
@[simp] theorem State.modHub_freeCtr (s : State) (f : Hub → Hub) : (s.modHub f).freeCtr = s.freeCtr := rfl
@[simp] theorem State.modHub_stale (s : State) (f : Hub → Hub) : (s.modHub f).stale = s.stale := rfl
@[simp] theorem State.modHub_cur (s : State) (f : Hub → Hub) : (s.modHub f).cur = s.cur := rfl
@[simp] theorem State.modHub_agenda (s : State) (f : Hub → Hub) : (s.modHub f).agenda = s.agenda := rfl

/-! `took` -/

@[simp] theorem State.took_hub (s : State) : (s.took).hub = s.hub := rfl
@[simp] theorem State.took_ctxs (s : State) : (s.took).ctxs = s.ctxs := rfl
@[simp] theorem State.took_grids (s : State) : (s.took).grids = s.grids := rfl
@[simp] theorem State.took_gangs (s : State) : (s.took).gangs = s.gangs := rfl
@[simp] theorem State.took_dies (s : State) : (s.took).dies = s.dies := rfl
@[simp] theorem State.took_reqs (s : State) : (s.took).reqs = s.reqs := rfl
@[simp] theorem State.took_msgs (s : State) : (s.took).msgs = s.msgs := rfl
@[simp] theorem State.took_mem (s : State) : (s.took).mem = s.mem := rfl
@[simp] theorem State.took_memBad (s : State) : (s.took).memBad = s.memBad := rfl
@[simp] theorem State.took_tags (s : State) : (s.took).tags = s.tags := rfl
@[simp] theorem State.took_l1 (s : State) : (s.took).l1 = s.l1 := rfl
@[simp] theorem State.took_icache (s : State) : (s.took).icache = s.icache := rfl
@[simp] theorem State.took_obuf (s : State) : (s.took).obuf = s.obuf := rfl
@[simp] theorem State.took_olds (s : State) : (s.took).olds = s.olds := rfl
@[simp] theorem State.took_llc (s : State) : (s.took).llc = s.llc := rfl
@[simp] theorem State.took_pubs (s : State) : (s.took).pubs = s.pubs := rfl
@[simp] theorem State.took_fills (s : State) : (s.took).fills = s.fills := rfl
@[simp] theorem State.took_tlb (s : State) : (s.took).tlb = s.tlb := rfl
@[simp] theorem State.took_shbase (s : State) : (s.took).shbase = s.shbase := rfl
@[simp] theorem State.took_perf (s : State) : (s.took).perf = s.perf := rfl
@[simp] theorem State.took_issuers (s : State) : (s.took).issuers = s.issuers := rfl
@[simp] theorem State.took_cycles (s : State) : (s.took).cycles = s.cycles := rfl
@[simp] theorem State.took_timeNs (s : State) : (s.took).timeNs = s.timeNs := rfl
@[simp] theorem State.took_fabric (s : State) : (s.took).fabric = s.fabric := rfl
@[simp] theorem State.took_hostData (s : State) : (s.took).hostData = s.hostData := rfl
@[simp] theorem State.took_ids (s : State) : (s.took).ids = s.ids := rfl
@[simp] theorem State.took_lastServed (s : State) : (s.took).lastServed = s.lastServed := rfl
@[simp] theorem State.took_freeCtr (s : State) : (s.took).freeCtr = s.freeCtr + 1 := rfl
@[simp] theorem State.took_stale (s : State) : (s.took).stale = s.stale := rfl
@[simp] theorem State.took_cur (s : State) : (s.took).cur = s.cur := rfl
@[simp] theorem State.took_agenda (s : State) : (s.took).agenda = s.agenda := rfl

/-! `dropTag` -/

@[simp] theorem State.dropTag_hub (s : State) (line : Nat) : (s.dropTag line).hub = s.hub := rfl
@[simp] theorem State.dropTag_ctxs (s : State) (line : Nat) : (s.dropTag line).ctxs = s.ctxs := rfl
@[simp] theorem State.dropTag_grids (s : State) (line : Nat) : (s.dropTag line).grids = s.grids := rfl
@[simp] theorem State.dropTag_gangs (s : State) (line : Nat) : (s.dropTag line).gangs = s.gangs := rfl
@[simp] theorem State.dropTag_dies (s : State) (line : Nat) : (s.dropTag line).dies = s.dies := rfl
@[simp] theorem State.dropTag_reqs (s : State) (line : Nat) : (s.dropTag line).reqs = s.reqs := rfl
@[simp] theorem State.dropTag_msgs (s : State) (line : Nat) : (s.dropTag line).msgs = s.msgs := rfl
@[simp] theorem State.dropTag_mem (s : State) (line : Nat) : (s.dropTag line).mem = s.mem := rfl
@[simp] theorem State.dropTag_memBad (s : State) (line : Nat) : (s.dropTag line).memBad = s.memBad := rfl
@[simp] theorem State.dropTag_l1 (s : State) (line : Nat) : (s.dropTag line).l1 = s.l1 := rfl
@[simp] theorem State.dropTag_icache (s : State) (line : Nat) : (s.dropTag line).icache = s.icache := rfl
@[simp] theorem State.dropTag_obuf (s : State) (line : Nat) : (s.dropTag line).obuf = s.obuf := rfl
@[simp] theorem State.dropTag_olds (s : State) (line : Nat) : (s.dropTag line).olds = s.olds := rfl
@[simp] theorem State.dropTag_llc (s : State) (line : Nat) : (s.dropTag line).llc = s.llc := rfl
@[simp] theorem State.dropTag_pubs (s : State) (line : Nat) : (s.dropTag line).pubs = s.pubs := rfl
@[simp] theorem State.dropTag_fills (s : State) (line : Nat) : (s.dropTag line).fills = s.fills := rfl
@[simp] theorem State.dropTag_tlb (s : State) (line : Nat) : (s.dropTag line).tlb = s.tlb := rfl
@[simp] theorem State.dropTag_shbase (s : State) (line : Nat) : (s.dropTag line).shbase = s.shbase := rfl
@[simp] theorem State.dropTag_perf (s : State) (line : Nat) : (s.dropTag line).perf = s.perf := rfl
@[simp] theorem State.dropTag_issuers (s : State) (line : Nat) : (s.dropTag line).issuers = s.issuers := rfl
@[simp] theorem State.dropTag_cycles (s : State) (line : Nat) : (s.dropTag line).cycles = s.cycles := rfl
@[simp] theorem State.dropTag_timeNs (s : State) (line : Nat) : (s.dropTag line).timeNs = s.timeNs := rfl
@[simp] theorem State.dropTag_fabric (s : State) (line : Nat) : (s.dropTag line).fabric = s.fabric := rfl
@[simp] theorem State.dropTag_hostData (s : State) (line : Nat) : (s.dropTag line).hostData = s.hostData := rfl
@[simp] theorem State.dropTag_ids (s : State) (line : Nat) : (s.dropTag line).ids = s.ids := rfl
@[simp] theorem State.dropTag_lastServed (s : State) (line : Nat) : (s.dropTag line).lastServed = s.lastServed := rfl
@[simp] theorem State.dropTag_freeCtr (s : State) (line : Nat) : (s.dropTag line).freeCtr = s.freeCtr := rfl
@[simp] theorem State.dropTag_stale (s : State) (line : Nat) : (s.dropTag line).stale = s.stale := rfl
@[simp] theorem State.dropTag_cur (s : State) (line : Nat) : (s.dropTag line).cur = s.cur := rfl
@[simp] theorem State.dropTag_agenda (s : State) (line : Nat) : (s.dropTag line).agenda = s.agenda := rfl

/-! `setTag` -/

@[simp] theorem State.setTag_hub (s : State) (ctx line : Nat) (b : Option (List Byte)) : (s.setTag ctx line b).hub = s.hub := rfl
@[simp] theorem State.setTag_ctxs (s : State) (ctx line : Nat) (b : Option (List Byte)) : (s.setTag ctx line b).ctxs = s.ctxs := rfl
@[simp] theorem State.setTag_grids (s : State) (ctx line : Nat) (b : Option (List Byte)) : (s.setTag ctx line b).grids = s.grids := rfl
@[simp] theorem State.setTag_gangs (s : State) (ctx line : Nat) (b : Option (List Byte)) : (s.setTag ctx line b).gangs = s.gangs := rfl
@[simp] theorem State.setTag_dies (s : State) (ctx line : Nat) (b : Option (List Byte)) : (s.setTag ctx line b).dies = s.dies := rfl
@[simp] theorem State.setTag_reqs (s : State) (ctx line : Nat) (b : Option (List Byte)) : (s.setTag ctx line b).reqs = s.reqs := rfl
@[simp] theorem State.setTag_msgs (s : State) (ctx line : Nat) (b : Option (List Byte)) : (s.setTag ctx line b).msgs = s.msgs := rfl
@[simp] theorem State.setTag_mem (s : State) (ctx line : Nat) (b : Option (List Byte)) : (s.setTag ctx line b).mem = s.mem := rfl
@[simp] theorem State.setTag_memBad (s : State) (ctx line : Nat) (b : Option (List Byte)) : (s.setTag ctx line b).memBad = s.memBad := rfl
@[simp] theorem State.setTag_l1 (s : State) (ctx line : Nat) (b : Option (List Byte)) : (s.setTag ctx line b).l1 = s.l1 := rfl
@[simp] theorem State.setTag_icache (s : State) (ctx line : Nat) (b : Option (List Byte)) : (s.setTag ctx line b).icache = s.icache := rfl
@[simp] theorem State.setTag_obuf (s : State) (ctx line : Nat) (b : Option (List Byte)) : (s.setTag ctx line b).obuf = s.obuf := rfl
@[simp] theorem State.setTag_olds (s : State) (ctx line : Nat) (b : Option (List Byte)) : (s.setTag ctx line b).olds = s.olds := rfl
@[simp] theorem State.setTag_llc (s : State) (ctx line : Nat) (b : Option (List Byte)) : (s.setTag ctx line b).llc = s.llc := rfl
@[simp] theorem State.setTag_pubs (s : State) (ctx line : Nat) (b : Option (List Byte)) : (s.setTag ctx line b).pubs = s.pubs := rfl
@[simp] theorem State.setTag_fills (s : State) (ctx line : Nat) (b : Option (List Byte)) : (s.setTag ctx line b).fills = s.fills := rfl
@[simp] theorem State.setTag_tlb (s : State) (ctx line : Nat) (b : Option (List Byte)) : (s.setTag ctx line b).tlb = s.tlb := rfl
@[simp] theorem State.setTag_shbase (s : State) (ctx line : Nat) (b : Option (List Byte)) : (s.setTag ctx line b).shbase = s.shbase := rfl
@[simp] theorem State.setTag_perf (s : State) (ctx line : Nat) (b : Option (List Byte)) : (s.setTag ctx line b).perf = s.perf := rfl
@[simp] theorem State.setTag_issuers (s : State) (ctx line : Nat) (b : Option (List Byte)) : (s.setTag ctx line b).issuers = s.issuers := rfl
@[simp] theorem State.setTag_cycles (s : State) (ctx line : Nat) (b : Option (List Byte)) : (s.setTag ctx line b).cycles = s.cycles := rfl
@[simp] theorem State.setTag_timeNs (s : State) (ctx line : Nat) (b : Option (List Byte)) : (s.setTag ctx line b).timeNs = s.timeNs := rfl
@[simp] theorem State.setTag_fabric (s : State) (ctx line : Nat) (b : Option (List Byte)) : (s.setTag ctx line b).fabric = s.fabric := rfl
@[simp] theorem State.setTag_hostData (s : State) (ctx line : Nat) (b : Option (List Byte)) : (s.setTag ctx line b).hostData = s.hostData := rfl
@[simp] theorem State.setTag_ids (s : State) (ctx line : Nat) (b : Option (List Byte)) : (s.setTag ctx line b).ids = s.ids := rfl
@[simp] theorem State.setTag_lastServed (s : State) (ctx line : Nat) (b : Option (List Byte)) : (s.setTag ctx line b).lastServed = s.lastServed := rfl
@[simp] theorem State.setTag_freeCtr (s : State) (ctx line : Nat) (b : Option (List Byte)) : (s.setTag ctx line b).freeCtr = s.freeCtr := rfl
@[simp] theorem State.setTag_stale (s : State) (ctx line : Nat) (b : Option (List Byte)) : (s.setTag ctx line b).stale = s.stale := rfl
@[simp] theorem State.setTag_cur (s : State) (ctx line : Nat) (b : Option (List Byte)) : (s.setTag ctx line b).cur = s.cur := rfl
@[simp] theorem State.setTag_agenda (s : State) (ctx line : Nat) (b : Option (List Byte)) : (s.setTag ctx line b).agenda = s.agenda := rfl

/-! `push` on a wave -/

@[simp] theorem Wave.push_idx (w : Wave) (v : LatchVal) (nw : Bool) : (w.push v nw).idx = w.idx := rfl
@[simp] theorem Wave.push_quad (w : Wave) (v : LatchVal) (nw : Bool) : (w.push v nw).quad = w.quad := rfl
@[simp] theorem Wave.push_qslot (w : Wave) (v : LatchVal) (nw : Bool) : (w.push v nw).qslot = w.qslot := rfl
@[simp] theorem Wave.push_vregs (w : Wave) (v : LatchVal) (nw : Bool) : (w.push v nw).vregs = w.vregs := rfl
@[simp] theorem Wave.push_sregs (w : Wave) (v : LatchVal) (nw : Bool) : (w.push v nw).sregs = w.sregs := rfl
@[simp] theorem Wave.push_sbad (w : Wave) (v : LatchVal) (nw : Bool) : (w.push v nw).sbad = w.sbad := rfl
@[simp] theorem Wave.push_futs (w : Wave) (v : LatchVal) (nw : Bool) : (w.push v nw).futs = w.futs := rfl
@[simp] theorem Wave.push_latches (w : Wave) (v : LatchVal) (nw : Bool) : (w.push v nw).latches = ⟨v, nw, false⟩ :: w.latches.take 7 := rfl
@[simp] theorem Wave.push_slot0 (w : Wave) (v : LatchVal) (nw : Bool) : (w.push v nw).slot0 = w.slot0 := rfl
@[simp] theorem Wave.push_slot1 (w : Wave) (v : LatchVal) (nw : Bool) : (w.push v nw).slot1 = w.slot1 := rfl
@[simp] theorem Wave.push_exited (w : Wave) (v : LatchVal) (nw : Bool) : (w.push v nw).exited = w.exited := rfl
@[simp] theorem Wave.push_dsp (w : Wave) (v : LatchVal) (nw : Bool) : (w.push v nw).dsp = w.dsp := rfl
@[simp] theorem Wave.push_dsaddr (w : Wave) (v : LatchVal) (nw : Bool) : (w.push v nw).dsaddr = w.dsaddr := rfl
@[simp] theorem Wave.push_flags (w : Wave) (v : LatchVal) (nw : Bool) : (w.push v nw).flags = w.flags := rfl
@[simp] theorem Wave.push_fpen (w : Wave) (v : LatchVal) (nw : Bool) : (w.push v nw).fpen = w.fpen := rfl
@[simp] theorem Wave.push_mabs (w : Wave) (v : LatchVal) (nw : Bool) : (w.push v nw).mabs = w.mabs := rfl
@[simp] theorem Wave.push_xfault (w : Wave) (v : LatchVal) (nw : Bool) : (w.push v nw).xfault = w.xfault := rfl
@[simp] theorem Wave.push_rngctr (w : Wave) (v : LatchVal) (nw : Bool) : (w.push v nw).rngctr = w.rngctr := rfl
@[simp] theorem Wave.push_tcause (w : Wave) (v : LatchVal) (nw : Bool) : (w.push v nw).tcause = w.tcause := rfl
@[simp] theorem Wave.push_tpc (w : Wave) (v : LatchVal) (nw : Bool) : (w.push v nw).tpc = w.tpc := rfl
@[simp] theorem Wave.push_tmask (w : Wave) (v : LatchVal) (nw : Bool) : (w.push v nw).tmask = w.tmask := rfl
@[simp] theorem Wave.push_tval (w : Wave) (v : LatchVal) (nw : Bool) : (w.push v nw).tval = w.tval := rfl
@[simp] theorem Wave.push_trap (w : Wave) (v : LatchVal) (nw : Bool) : (w.push v nw).trap = w.trap := rfl
@[simp] theorem Wave.push_ops (w : Wave) (v : LatchVal) (nw : Bool) : (w.push v nw).ops = w.ops := rfl
@[simp] theorem Wave.push_opSeq (w : Wave) (v : LatchVal) (nw : Bool) : (w.push v nw).opSeq = w.opSeq := rfl
@[simp] theorem Wave.push_parks (w : Wave) (v : LatchVal) (nw : Bool) : (w.push v nw).parks = w.parks := rfl
@[simp] theorem Wave.push_bars (w : Wave) (v : LatchVal) (nw : Bool) : (w.push v nw).bars = w.bars := rfl
@[simp] theorem Wave.push_seen (w : Wave) (v : LatchVal) (nw : Bool) : (w.push v nw).seen = w.seen := rfl
@[simp] theorem Wave.push_stage (w : Wave) (v : LatchVal) (nw : Bool) : (w.push v nw).stage = w.stage := rfl
@[simp] theorem Wave.push_resv (w : Wave) (v : LatchVal) (nw : Bool) : (w.push v nw).resv = w.resv := rfl
@[simp] theorem Wave.push_floors (w : Wave) (v : LatchVal) (nw : Bool) : (w.push v nw).floors = w.floors := rfl
@[simp] theorem Wave.push_views (w : Wave) (v : LatchVal) (nw : Bool) : (w.push v nw).views = w.views := rfl
@[simp] theorem Wave.push_arrSeq (w : Wave) (v : LatchVal) (nw : Bool) : (w.push v nw).arrSeq = w.arrSeq := rfl
@[simp] theorem Wave.push_pubs (w : Wave) (v : LatchVal) (nw : Bool) : (w.push v nw).pubs = w.pubs := rfl
@[simp] theorem Wave.push_ended (w : Wave) (v : LatchVal) (nw : Bool) : (w.push v nw).ended = w.ended := rfl

/-! `setFlags` on a wave -/

@[simp] theorem Wave.setFlags_idx (w : Wave) (fl : Flags) : (w.setFlags fl).idx = w.idx := rfl
@[simp] theorem Wave.setFlags_quad (w : Wave) (fl : Flags) : (w.setFlags fl).quad = w.quad := rfl
@[simp] theorem Wave.setFlags_qslot (w : Wave) (fl : Flags) : (w.setFlags fl).qslot = w.qslot := rfl
@[simp] theorem Wave.setFlags_vregs (w : Wave) (fl : Flags) : (w.setFlags fl).vregs = w.vregs := rfl
@[simp] theorem Wave.setFlags_sregs (w : Wave) (fl : Flags) : (w.setFlags fl).sregs = w.sregs := rfl
@[simp] theorem Wave.setFlags_sbad (w : Wave) (fl : Flags) : (w.setFlags fl).sbad = w.sbad := rfl
@[simp] theorem Wave.setFlags_futs (w : Wave) (fl : Flags) : (w.setFlags fl).futs = w.futs := rfl
@[simp] theorem Wave.setFlags_latches (w : Wave) (fl : Flags) : (w.setFlags fl).latches = w.latches := rfl
@[simp] theorem Wave.setFlags_slot0 (w : Wave) (fl : Flags) : (w.setFlags fl).slot0 = w.slot0 := rfl
@[simp] theorem Wave.setFlags_slot1 (w : Wave) (fl : Flags) : (w.setFlags fl).slot1 = w.slot1 := rfl
@[simp] theorem Wave.setFlags_exited (w : Wave) (fl : Flags) : (w.setFlags fl).exited = w.exited := rfl
@[simp] theorem Wave.setFlags_dsp (w : Wave) (fl : Flags) : (w.setFlags fl).dsp = w.dsp := rfl
@[simp] theorem Wave.setFlags_dsaddr (w : Wave) (fl : Flags) : (w.setFlags fl).dsaddr = w.dsaddr := rfl
@[simp] theorem Wave.setFlags_flags (w : Wave) (fl : Flags) : (w.setFlags fl).flags = w.flags ||| fl := rfl
@[simp] theorem Wave.setFlags_fpen (w : Wave) (fl : Flags) : (w.setFlags fl).fpen = w.fpen := rfl
@[simp] theorem Wave.setFlags_mabs (w : Wave) (fl : Flags) : (w.setFlags fl).mabs = w.mabs := rfl
@[simp] theorem Wave.setFlags_xfault (w : Wave) (fl : Flags) : (w.setFlags fl).xfault = w.xfault := rfl
@[simp] theorem Wave.setFlags_rngctr (w : Wave) (fl : Flags) : (w.setFlags fl).rngctr = w.rngctr := rfl
@[simp] theorem Wave.setFlags_tcause (w : Wave) (fl : Flags) : (w.setFlags fl).tcause = w.tcause := rfl
@[simp] theorem Wave.setFlags_tpc (w : Wave) (fl : Flags) : (w.setFlags fl).tpc = w.tpc := rfl
@[simp] theorem Wave.setFlags_tmask (w : Wave) (fl : Flags) : (w.setFlags fl).tmask = w.tmask := rfl
@[simp] theorem Wave.setFlags_tval (w : Wave) (fl : Flags) : (w.setFlags fl).tval = w.tval := rfl
@[simp] theorem Wave.setFlags_trap (w : Wave) (fl : Flags) : (w.setFlags fl).trap = w.trap := rfl
@[simp] theorem Wave.setFlags_ops (w : Wave) (fl : Flags) : (w.setFlags fl).ops = w.ops := rfl
@[simp] theorem Wave.setFlags_opSeq (w : Wave) (fl : Flags) : (w.setFlags fl).opSeq = w.opSeq := rfl
@[simp] theorem Wave.setFlags_parks (w : Wave) (fl : Flags) : (w.setFlags fl).parks = w.parks := rfl
@[simp] theorem Wave.setFlags_bars (w : Wave) (fl : Flags) : (w.setFlags fl).bars = w.bars := rfl
@[simp] theorem Wave.setFlags_seen (w : Wave) (fl : Flags) : (w.setFlags fl).seen = w.seen := rfl
@[simp] theorem Wave.setFlags_stage (w : Wave) (fl : Flags) : (w.setFlags fl).stage = w.stage := rfl
@[simp] theorem Wave.setFlags_resv (w : Wave) (fl : Flags) : (w.setFlags fl).resv = w.resv := rfl
@[simp] theorem Wave.setFlags_floors (w : Wave) (fl : Flags) : (w.setFlags fl).floors = w.floors := rfl
@[simp] theorem Wave.setFlags_views (w : Wave) (fl : Flags) : (w.setFlags fl).views = w.views := rfl
@[simp] theorem Wave.setFlags_arrSeq (w : Wave) (fl : Flags) : (w.setFlags fl).arrSeq = w.arrSeq := rfl
@[simp] theorem Wave.setFlags_pubs (w : Wave) (fl : Flags) : (w.setFlags fl).pubs = w.pubs := rfl
@[simp] theorem Wave.setFlags_ended (w : Wave) (fl : Flags) : (w.setFlags fl).ended = w.ended := rfl

/-! `setMabs` on a wave -/

@[simp] theorem Wave.setMabs_idx (w : Wave) (b : Bool) : (w.setMabs b).idx = w.idx := rfl
@[simp] theorem Wave.setMabs_quad (w : Wave) (b : Bool) : (w.setMabs b).quad = w.quad := rfl
@[simp] theorem Wave.setMabs_qslot (w : Wave) (b : Bool) : (w.setMabs b).qslot = w.qslot := rfl
@[simp] theorem Wave.setMabs_vregs (w : Wave) (b : Bool) : (w.setMabs b).vregs = w.vregs := rfl
@[simp] theorem Wave.setMabs_sregs (w : Wave) (b : Bool) : (w.setMabs b).sregs = w.sregs := rfl
@[simp] theorem Wave.setMabs_sbad (w : Wave) (b : Bool) : (w.setMabs b).sbad = w.sbad := rfl
@[simp] theorem Wave.setMabs_futs (w : Wave) (b : Bool) : (w.setMabs b).futs = w.futs := rfl
@[simp] theorem Wave.setMabs_latches (w : Wave) (b : Bool) : (w.setMabs b).latches = w.latches := rfl
@[simp] theorem Wave.setMabs_slot0 (w : Wave) (b : Bool) : (w.setMabs b).slot0 = w.slot0 := rfl
@[simp] theorem Wave.setMabs_slot1 (w : Wave) (b : Bool) : (w.setMabs b).slot1 = w.slot1 := rfl
@[simp] theorem Wave.setMabs_exited (w : Wave) (b : Bool) : (w.setMabs b).exited = w.exited := rfl
@[simp] theorem Wave.setMabs_dsp (w : Wave) (b : Bool) : (w.setMabs b).dsp = w.dsp := rfl
@[simp] theorem Wave.setMabs_dsaddr (w : Wave) (b : Bool) : (w.setMabs b).dsaddr = w.dsaddr := rfl
@[simp] theorem Wave.setMabs_flags (w : Wave) (b : Bool) : (w.setMabs b).flags = w.flags := rfl
@[simp] theorem Wave.setMabs_fpen (w : Wave) (b : Bool) : (w.setMabs b).fpen = w.fpen := rfl
@[simp] theorem Wave.setMabs_mabs (w : Wave) (b : Bool) : (w.setMabs b).mabs = (w.mabs || b) := rfl
@[simp] theorem Wave.setMabs_xfault (w : Wave) (b : Bool) : (w.setMabs b).xfault = w.xfault := rfl
@[simp] theorem Wave.setMabs_rngctr (w : Wave) (b : Bool) : (w.setMabs b).rngctr = w.rngctr := rfl
@[simp] theorem Wave.setMabs_tcause (w : Wave) (b : Bool) : (w.setMabs b).tcause = w.tcause := rfl
@[simp] theorem Wave.setMabs_tpc (w : Wave) (b : Bool) : (w.setMabs b).tpc = w.tpc := rfl
@[simp] theorem Wave.setMabs_tmask (w : Wave) (b : Bool) : (w.setMabs b).tmask = w.tmask := rfl
@[simp] theorem Wave.setMabs_tval (w : Wave) (b : Bool) : (w.setMabs b).tval = w.tval := rfl
@[simp] theorem Wave.setMabs_trap (w : Wave) (b : Bool) : (w.setMabs b).trap = w.trap := rfl
@[simp] theorem Wave.setMabs_ops (w : Wave) (b : Bool) : (w.setMabs b).ops = w.ops := rfl
@[simp] theorem Wave.setMabs_opSeq (w : Wave) (b : Bool) : (w.setMabs b).opSeq = w.opSeq := rfl
@[simp] theorem Wave.setMabs_parks (w : Wave) (b : Bool) : (w.setMabs b).parks = w.parks := rfl
@[simp] theorem Wave.setMabs_bars (w : Wave) (b : Bool) : (w.setMabs b).bars = w.bars := rfl
@[simp] theorem Wave.setMabs_seen (w : Wave) (b : Bool) : (w.setMabs b).seen = w.seen := rfl
@[simp] theorem Wave.setMabs_stage (w : Wave) (b : Bool) : (w.setMabs b).stage = w.stage := rfl
@[simp] theorem Wave.setMabs_resv (w : Wave) (b : Bool) : (w.setMabs b).resv = w.resv := rfl
@[simp] theorem Wave.setMabs_floors (w : Wave) (b : Bool) : (w.setMabs b).floors = w.floors := rfl
@[simp] theorem Wave.setMabs_views (w : Wave) (b : Bool) : (w.setMabs b).views = w.views := rfl
@[simp] theorem Wave.setMabs_arrSeq (w : Wave) (b : Bool) : (w.setMabs b).arrSeq = w.arrSeq := rfl
@[simp] theorem Wave.setMabs_pubs (w : Wave) (b : Bool) : (w.setMabs b).pubs = w.pubs := rfl
@[simp] theorem Wave.setMabs_ended (w : Wave) (b : Bool) : (w.setMabs b).ended = w.ended := rfl

/-! `setVreg` on a wave -/

@[simp] theorem Wave.setVreg_idx (w : Wave) (n : Nat) (r : VReg) : (w.setVreg n r).idx = w.idx := rfl
@[simp] theorem Wave.setVreg_quad (w : Wave) (n : Nat) (r : VReg) : (w.setVreg n r).quad = w.quad := rfl
@[simp] theorem Wave.setVreg_qslot (w : Wave) (n : Nat) (r : VReg) : (w.setVreg n r).qslot = w.qslot := rfl
@[simp] theorem Wave.setVreg_vregs (w : Wave) (n : Nat) (r : VReg) : (w.setVreg n r).vregs = setAt w.vregs n r := rfl
@[simp] theorem Wave.setVreg_sregs (w : Wave) (n : Nat) (r : VReg) : (w.setVreg n r).sregs = w.sregs := rfl
@[simp] theorem Wave.setVreg_sbad (w : Wave) (n : Nat) (r : VReg) : (w.setVreg n r).sbad = w.sbad := rfl
@[simp] theorem Wave.setVreg_futs (w : Wave) (n : Nat) (r : VReg) : (w.setVreg n r).futs = w.futs := rfl
@[simp] theorem Wave.setVreg_latches (w : Wave) (n : Nat) (r : VReg) : (w.setVreg n r).latches = w.latches := rfl
@[simp] theorem Wave.setVreg_slot0 (w : Wave) (n : Nat) (r : VReg) : (w.setVreg n r).slot0 = w.slot0 := rfl
@[simp] theorem Wave.setVreg_slot1 (w : Wave) (n : Nat) (r : VReg) : (w.setVreg n r).slot1 = w.slot1 := rfl
@[simp] theorem Wave.setVreg_exited (w : Wave) (n : Nat) (r : VReg) : (w.setVreg n r).exited = w.exited := rfl
@[simp] theorem Wave.setVreg_dsp (w : Wave) (n : Nat) (r : VReg) : (w.setVreg n r).dsp = w.dsp := rfl
@[simp] theorem Wave.setVreg_dsaddr (w : Wave) (n : Nat) (r : VReg) : (w.setVreg n r).dsaddr = w.dsaddr := rfl
@[simp] theorem Wave.setVreg_flags (w : Wave) (n : Nat) (r : VReg) : (w.setVreg n r).flags = w.flags := rfl
@[simp] theorem Wave.setVreg_fpen (w : Wave) (n : Nat) (r : VReg) : (w.setVreg n r).fpen = w.fpen := rfl
@[simp] theorem Wave.setVreg_mabs (w : Wave) (n : Nat) (r : VReg) : (w.setVreg n r).mabs = w.mabs := rfl
@[simp] theorem Wave.setVreg_xfault (w : Wave) (n : Nat) (r : VReg) : (w.setVreg n r).xfault = w.xfault := rfl
@[simp] theorem Wave.setVreg_rngctr (w : Wave) (n : Nat) (r : VReg) : (w.setVreg n r).rngctr = w.rngctr := rfl
@[simp] theorem Wave.setVreg_tcause (w : Wave) (n : Nat) (r : VReg) : (w.setVreg n r).tcause = w.tcause := rfl
@[simp] theorem Wave.setVreg_tpc (w : Wave) (n : Nat) (r : VReg) : (w.setVreg n r).tpc = w.tpc := rfl
@[simp] theorem Wave.setVreg_tmask (w : Wave) (n : Nat) (r : VReg) : (w.setVreg n r).tmask = w.tmask := rfl
@[simp] theorem Wave.setVreg_tval (w : Wave) (n : Nat) (r : VReg) : (w.setVreg n r).tval = w.tval := rfl
@[simp] theorem Wave.setVreg_trap (w : Wave) (n : Nat) (r : VReg) : (w.setVreg n r).trap = w.trap := rfl
@[simp] theorem Wave.setVreg_ops (w : Wave) (n : Nat) (r : VReg) : (w.setVreg n r).ops = w.ops := rfl
@[simp] theorem Wave.setVreg_opSeq (w : Wave) (n : Nat) (r : VReg) : (w.setVreg n r).opSeq = w.opSeq := rfl
@[simp] theorem Wave.setVreg_parks (w : Wave) (n : Nat) (r : VReg) : (w.setVreg n r).parks = w.parks := rfl
@[simp] theorem Wave.setVreg_bars (w : Wave) (n : Nat) (r : VReg) : (w.setVreg n r).bars = w.bars := rfl
@[simp] theorem Wave.setVreg_seen (w : Wave) (n : Nat) (r : VReg) : (w.setVreg n r).seen = w.seen := rfl
@[simp] theorem Wave.setVreg_stage (w : Wave) (n : Nat) (r : VReg) : (w.setVreg n r).stage = w.stage := rfl
@[simp] theorem Wave.setVreg_resv (w : Wave) (n : Nat) (r : VReg) : (w.setVreg n r).resv = w.resv := rfl
@[simp] theorem Wave.setVreg_floors (w : Wave) (n : Nat) (r : VReg) : (w.setVreg n r).floors = w.floors := rfl
@[simp] theorem Wave.setVreg_views (w : Wave) (n : Nat) (r : VReg) : (w.setVreg n r).views = w.views := rfl
@[simp] theorem Wave.setVreg_arrSeq (w : Wave) (n : Nat) (r : VReg) : (w.setVreg n r).arrSeq = w.arrSeq := rfl
@[simp] theorem Wave.setVreg_pubs (w : Wave) (n : Nat) (r : VReg) : (w.setVreg n r).pubs = w.pubs := rfl
@[simp] theorem Wave.setVreg_ended (w : Wave) (n : Nat) (r : VReg) : (w.setVreg n r).ended = w.ended := rfl

/-! `setFut` on a wave -/

@[simp] theorem Wave.setFut_idx (w : Wave) (f : Nat) (x : Future) : (w.setFut f x).idx = w.idx := rfl
@[simp] theorem Wave.setFut_quad (w : Wave) (f : Nat) (x : Future) : (w.setFut f x).quad = w.quad := rfl
@[simp] theorem Wave.setFut_qslot (w : Wave) (f : Nat) (x : Future) : (w.setFut f x).qslot = w.qslot := rfl
@[simp] theorem Wave.setFut_vregs (w : Wave) (f : Nat) (x : Future) : (w.setFut f x).vregs = w.vregs := rfl
@[simp] theorem Wave.setFut_sregs (w : Wave) (f : Nat) (x : Future) : (w.setFut f x).sregs = w.sregs := rfl
@[simp] theorem Wave.setFut_sbad (w : Wave) (f : Nat) (x : Future) : (w.setFut f x).sbad = w.sbad := rfl
@[simp] theorem Wave.setFut_futs (w : Wave) (f : Nat) (x : Future) : (w.setFut f x).futs = setAt w.futs f x := rfl
@[simp] theorem Wave.setFut_latches (w : Wave) (f : Nat) (x : Future) : (w.setFut f x).latches = w.latches := rfl
@[simp] theorem Wave.setFut_slot0 (w : Wave) (f : Nat) (x : Future) : (w.setFut f x).slot0 = w.slot0 := rfl
@[simp] theorem Wave.setFut_slot1 (w : Wave) (f : Nat) (x : Future) : (w.setFut f x).slot1 = w.slot1 := rfl
@[simp] theorem Wave.setFut_exited (w : Wave) (f : Nat) (x : Future) : (w.setFut f x).exited = w.exited := rfl
@[simp] theorem Wave.setFut_dsp (w : Wave) (f : Nat) (x : Future) : (w.setFut f x).dsp = w.dsp := rfl
@[simp] theorem Wave.setFut_dsaddr (w : Wave) (f : Nat) (x : Future) : (w.setFut f x).dsaddr = w.dsaddr := rfl
@[simp] theorem Wave.setFut_flags (w : Wave) (f : Nat) (x : Future) : (w.setFut f x).flags = w.flags := rfl
@[simp] theorem Wave.setFut_fpen (w : Wave) (f : Nat) (x : Future) : (w.setFut f x).fpen = w.fpen := rfl
@[simp] theorem Wave.setFut_mabs (w : Wave) (f : Nat) (x : Future) : (w.setFut f x).mabs = w.mabs := rfl
@[simp] theorem Wave.setFut_xfault (w : Wave) (f : Nat) (x : Future) : (w.setFut f x).xfault = w.xfault := rfl
@[simp] theorem Wave.setFut_rngctr (w : Wave) (f : Nat) (x : Future) : (w.setFut f x).rngctr = w.rngctr := rfl
@[simp] theorem Wave.setFut_tcause (w : Wave) (f : Nat) (x : Future) : (w.setFut f x).tcause = w.tcause := rfl
@[simp] theorem Wave.setFut_tpc (w : Wave) (f : Nat) (x : Future) : (w.setFut f x).tpc = w.tpc := rfl
@[simp] theorem Wave.setFut_tmask (w : Wave) (f : Nat) (x : Future) : (w.setFut f x).tmask = w.tmask := rfl
@[simp] theorem Wave.setFut_tval (w : Wave) (f : Nat) (x : Future) : (w.setFut f x).tval = w.tval := rfl
@[simp] theorem Wave.setFut_trap (w : Wave) (f : Nat) (x : Future) : (w.setFut f x).trap = w.trap := rfl
@[simp] theorem Wave.setFut_ops (w : Wave) (f : Nat) (x : Future) : (w.setFut f x).ops = w.ops := rfl
@[simp] theorem Wave.setFut_opSeq (w : Wave) (f : Nat) (x : Future) : (w.setFut f x).opSeq = w.opSeq := rfl
@[simp] theorem Wave.setFut_parks (w : Wave) (f : Nat) (x : Future) : (w.setFut f x).parks = w.parks := rfl
@[simp] theorem Wave.setFut_bars (w : Wave) (f : Nat) (x : Future) : (w.setFut f x).bars = w.bars := rfl
@[simp] theorem Wave.setFut_seen (w : Wave) (f : Nat) (x : Future) : (w.setFut f x).seen = w.seen := rfl
@[simp] theorem Wave.setFut_stage (w : Wave) (f : Nat) (x : Future) : (w.setFut f x).stage = w.stage := rfl
@[simp] theorem Wave.setFut_resv (w : Wave) (f : Nat) (x : Future) : (w.setFut f x).resv = w.resv := rfl
@[simp] theorem Wave.setFut_floors (w : Wave) (f : Nat) (x : Future) : (w.setFut f x).floors = w.floors := rfl
@[simp] theorem Wave.setFut_views (w : Wave) (f : Nat) (x : Future) : (w.setFut f x).views = w.views := rfl
@[simp] theorem Wave.setFut_arrSeq (w : Wave) (f : Nat) (x : Future) : (w.setFut f x).arrSeq = w.arrSeq := rfl
@[simp] theorem Wave.setFut_pubs (w : Wave) (f : Nat) (x : Future) : (w.setFut f x).pubs = w.pubs := rfl
@[simp] theorem Wave.setFut_ended (w : Wave) (f : Nat) (x : Future) : (w.setFut f x).ended = w.ended := rfl

/-! Slots -/

@[simp] theorem Wave.slot_false (w : Wave) : w.slot false = w.slot0 := rfl
@[simp] theorem Wave.slot_true (w : Wave) : w.slot true = w.slot1 := rfl
@[simp] theorem Wave.setSlot_false (w : Wave) (x : Slot) : w.setSlot false x = { w with slot0 := x } := rfl
@[simp] theorem Wave.setSlot_true (w : Wave) (x : Slot) : w.setSlot true x = { w with slot1 := x } := rfl
@[simp] theorem Wave.modSlot_false (w : Wave) (f : Slot → Slot) : w.modSlot false f = { w with slot0 := f w.slot0 } := rfl
@[simp] theorem Wave.modSlot_true (w : Wave) (f : Slot → Slot) : w.modSlot true f = { w with slot1 := f w.slot1 } := rfl

theorem Wave.setSlot_slot (w : Wave) (k : Bool) (x : Slot) : (w.setSlot k x).slot k = x := by cases k <;> rfl

theorem Wave.setSlot_other (w : Wave) (k : Bool) (x : Slot) : (w.setSlot k x).slot (!k) = w.slot (!k) := by cases k <;> rfl

theorem Wave.advance_slot (w : Wave) (k : Bool) :
    (w.advance k).slot k = { w.slot k with pc := (w.slot k).pc + 8, st := .ready } := by cases k <;> rfl

/-! Lists -/

@[simp] theorem setAt_length {α : Type} (xs : List α) (i : Nat) (y : α) : (setAt xs i y).length = xs.length := by
  induction xs generalizing i with
  | nil => rfl
  | cons x xs ih => cases i <;> simp [setAt, ih]

theorem setAt_get {α : Type} (xs : List α) (i : Nat) (y : α) (h : i < xs.length) : (setAt xs i y)[i]? = some y := by
  induction xs generalizing i with
  | nil => simp at h
  | cons x xs ih =>
    cases i with
    | zero => rfl
    | succ i => simpa [setAt] using ih i (by simpa using h)

theorem setAt_get_other {α : Type} (xs : List α) (i j : Nat) (y : α) (h : j ≠ i) : (setAt xs i y)[j]? = xs[j]? := by
  induction xs generalizing i j with
  | nil => rfl
  | cons x xs ih =>
    cases i with
    | zero => cases j with
      | zero => exact absurd rfl h
      | succ j => rfl
    | succ i => cases j with
      | zero => rfl
      | succ j => simpa [setAt] using ih i j (by omega)

@[simp] theorem modAt_length {α : Type} (xs : List α) (i : Nat) (f : α → α) : (modAt xs i f).length = xs.length := by
  induction xs generalizing i with
  | nil => rfl
  | cons x xs ih => cases i <;> simp [modAt, ih]

theorem modAt_get {α : Type} (xs : List α) (i : Nat) (f : α → α) : (modAt xs i f)[i]? = xs[i]?.map f := by
  induction xs generalizing i with
  | nil => rfl
  | cons x xs ih => cases i with
    | zero => rfl
    | succ i => simpa [modAt] using ih i

theorem modAt_get_other {α : Type} (xs : List α) (i j : Nat) (f : α → α) (h : j ≠ i) : (modAt xs i f)[j]? = xs[j]? := by
  induction xs generalizing i j with
  | nil => rfl
  | cons x xs ih =>
    cases i with
    | zero => cases j with
      | zero => exact absurd rfl h
      | succ j => rfl
    | succ i => cases j with
      | zero => rfl
      | succ j => simpa [modAt] using ih i j (by omega)

theorem modAt_modAt {α : Type} (xs : List α) (i : Nat) (f g : α → α) : modAt (modAt xs i f) i g = modAt xs i fun x => g (f x) := by
  induction xs generalizing i with
  | nil => rfl
  | cons x xs ih => cases i with
    | zero => rfl
    | succ i => simpa [modAt] using ih i

theorem modAt_mem {α : Type} (xs : List α) (i : Nat) (f : α → α) (y : α) (h : y ∈ modAt xs i f) :
    y ∈ xs ∨ ∃ x ∈ xs, y = f x := by
  induction xs generalizing i with
  | nil => simp [modAt] at h
  | cons x xs ih =>
    cases i with
    | zero =>
      simp only [modAt, List.mem_cons] at h
      rcases h with h | h
      · exact .inr ⟨x, by simp, h⟩
      · exact .inl (by simp [h])
    | succ i =>
      simp only [modAt, List.mem_cons] at h
      rcases h with h | h
      · exact .inl (by simp [h])
      · rcases ih i h with h | ⟨z, hz, rfl⟩
        · exact .inl (by simp [h])
        · exact .inr ⟨z, by simp [hz], rfl⟩

theorem mapIf_mem {α : Type} (p : α → Bool) (f : α → α) (xs : List α) (y : α) (h : y ∈ mapIf p f xs) :
    y ∈ xs ∨ ∃ x ∈ xs, y = f x := by
  simp only [mapIf, List.mem_map] at h
  obtain ⟨x, hx, rfl⟩ := h
  split
  · exact .inr ⟨x, hx, rfl⟩
  · exact .inl hx

/-! Gangs and waves -/

theorem State.gang?_modGang (s : State) (gi : Nat) (f : Gang → Gang) : (s.modGang gi f).gang? gi = (s.gang? gi).map f :=
  modAt_get s.gangs gi f

theorem State.gang?_modGang_other (s : State) (gi gj : Nat) (f : Gang → Gang) (h : gj ≠ gi) :
    (s.modGang gi f).gang? gj = s.gang? gj := modAt_get_other s.gangs gi gj f h

theorem State.gang?_setWave (s : State) (gi wi : Nat) (w : Wave) :
    (s.setWave gi wi w).gang? gi = (s.gang? gi).map fun g => { g with waves := modAt g.waves wi fun _ => w } :=
  modAt_get s.gangs gi _

theorem State.wave?_setWave (s : State) (gi wi : Nat) (w v : Wave) (h : s.wave? gi wi = some v) :
    (s.setWave gi wi w).wave? gi wi = some w := by
  unfold State.wave? at *
  rw [State.gang?_setWave]
  cases hg : s.gang? gi with
  | none => simp [hg] at h
  | some g =>
    simp only [hg, Gang.wave?] at h
    simp [Gang.wave?, modAt_get, h]

theorem State.setWave_setWave (s : State) (gi wi : Nat) (w v : Wave) : (s.setWave gi wi w).setWave gi wi v = s.setWave gi wi v := by
  simp [State.setWave, State.modWave, State.modGang, modAt_modAt]

/-! `bump` -/

@[simp] theorem State.bump_hub (s : State) (b e n : Nat) : (s.bump b e n).hub = s.hub := rfl
@[simp] theorem State.bump_ctxs (s : State) (b e n : Nat) : (s.bump b e n).ctxs = s.ctxs := rfl
@[simp] theorem State.bump_grids (s : State) (b e n : Nat) : (s.bump b e n).grids = s.grids := rfl
@[simp] theorem State.bump_gangs (s : State) (b e n : Nat) : (s.bump b e n).gangs = s.gangs := rfl
@[simp] theorem State.bump_dies (s : State) (b e n : Nat) : (s.bump b e n).dies = s.dies := rfl
@[simp] theorem State.bump_reqs (s : State) (b e n : Nat) : (s.bump b e n).reqs = s.reqs := rfl
@[simp] theorem State.bump_msgs (s : State) (b e n : Nat) : (s.bump b e n).msgs = s.msgs := rfl
@[simp] theorem State.bump_mem (s : State) (b e n : Nat) : (s.bump b e n).mem = s.mem := rfl
@[simp] theorem State.bump_memBad (s : State) (b e n : Nat) : (s.bump b e n).memBad = s.memBad := rfl
@[simp] theorem State.bump_tags (s : State) (b e n : Nat) : (s.bump b e n).tags = s.tags := rfl
@[simp] theorem State.bump_l1 (s : State) (b e n : Nat) : (s.bump b e n).l1 = s.l1 := rfl
@[simp] theorem State.bump_icache (s : State) (b e n : Nat) : (s.bump b e n).icache = s.icache := rfl
@[simp] theorem State.bump_obuf (s : State) (b e n : Nat) : (s.bump b e n).obuf = s.obuf := rfl
@[simp] theorem State.bump_olds (s : State) (b e n : Nat) : (s.bump b e n).olds = s.olds := rfl
@[simp] theorem State.bump_llc (s : State) (b e n : Nat) : (s.bump b e n).llc = s.llc := rfl
@[simp] theorem State.bump_pubs (s : State) (b e n : Nat) : (s.bump b e n).pubs = s.pubs := rfl
@[simp] theorem State.bump_fills (s : State) (b e n : Nat) : (s.bump b e n).fills = s.fills := rfl
@[simp] theorem State.bump_tlb (s : State) (b e n : Nat) : (s.bump b e n).tlb = s.tlb := rfl
@[simp] theorem State.bump_shbase (s : State) (b e n : Nat) : (s.bump b e n).shbase = s.shbase := rfl
@[simp] theorem State.bump_perf (s : State) (b e n : Nat) : (s.bump b e n).perf = mapIf (fun p => p.byre == b && p.event == e) (fun p => { p with count := (p.count + n) % 2 ^ 48 }) s.perf := rfl
@[simp] theorem State.bump_issuers (s : State) (b e n : Nat) : (s.bump b e n).issuers = s.issuers := rfl
@[simp] theorem State.bump_cycles (s : State) (b e n : Nat) : (s.bump b e n).cycles = s.cycles := rfl
@[simp] theorem State.bump_timeNs (s : State) (b e n : Nat) : (s.bump b e n).timeNs = s.timeNs := rfl
@[simp] theorem State.bump_fabric (s : State) (b e n : Nat) : (s.bump b e n).fabric = s.fabric := rfl
@[simp] theorem State.bump_hostData (s : State) (b e n : Nat) : (s.bump b e n).hostData = s.hostData := rfl
@[simp] theorem State.bump_ids (s : State) (b e n : Nat) : (s.bump b e n).ids = s.ids := rfl
@[simp] theorem State.bump_lastServed (s : State) (b e n : Nat) : (s.bump b e n).lastServed = s.lastServed := rfl
@[simp] theorem State.bump_freeCtr (s : State) (b e n : Nat) : (s.bump b e n).freeCtr = s.freeCtr := rfl
@[simp] theorem State.bump_stale (s : State) (b e n : Nat) : (s.bump b e n).stale = s.stale := rfl
@[simp] theorem State.bump_cur (s : State) (b e n : Nat) : (s.bump b e n).cur = s.cur := rfl
@[simp] theorem State.bump_agenda (s : State) (b e n : Nat) : (s.bump b e n).agenda = s.agenda := rfl

/-! `raise` -/

@[simp] theorem Wave.raise_idx (w : Wave) (m : Mask) (n : Nat) : (w.raise m n).idx = w.idx := rfl
@[simp] theorem Wave.raise_quad (w : Wave) (m : Mask) (n : Nat) : (w.raise m n).quad = w.quad := rfl
@[simp] theorem Wave.raise_qslot (w : Wave) (m : Mask) (n : Nat) : (w.raise m n).qslot = w.qslot := rfl
@[simp] theorem Wave.raise_vregs (w : Wave) (m : Mask) (n : Nat) : (w.raise m n).vregs = w.vregs := rfl
@[simp] theorem Wave.raise_sregs (w : Wave) (m : Mask) (n : Nat) : (w.raise m n).sregs = w.sregs := rfl
@[simp] theorem Wave.raise_sbad (w : Wave) (m : Mask) (n : Nat) : (w.raise m n).sbad = w.sbad := rfl
@[simp] theorem Wave.raise_futs (w : Wave) (m : Mask) (n : Nat) : (w.raise m n).futs = w.futs := rfl
@[simp] theorem Wave.raise_latches (w : Wave) (m : Mask) (n : Nat) : (w.raise m n).latches = w.latches := rfl
@[simp] theorem Wave.raise_slot0 (w : Wave) (m : Mask) (n : Nat) : (w.raise m n).slot0 = w.slot0 := rfl
@[simp] theorem Wave.raise_slot1 (w : Wave) (m : Mask) (n : Nat) : (w.raise m n).slot1 = w.slot1 := rfl
@[simp] theorem Wave.raise_exited (w : Wave) (m : Mask) (n : Nat) : (w.raise m n).exited = w.exited := rfl
@[simp] theorem Wave.raise_dsp (w : Wave) (m : Mask) (n : Nat) : (w.raise m n).dsp = w.dsp := rfl
@[simp] theorem Wave.raise_dsaddr (w : Wave) (m : Mask) (n : Nat) : (w.raise m n).dsaddr = w.dsaddr := rfl
@[simp] theorem Wave.raise_flags (w : Wave) (m : Mask) (n : Nat) : (w.raise m n).flags = w.flags := rfl
@[simp] theorem Wave.raise_fpen (w : Wave) (m : Mask) (n : Nat) : (w.raise m n).fpen = w.fpen := rfl
@[simp] theorem Wave.raise_mabs (w : Wave) (m : Mask) (n : Nat) : (w.raise m n).mabs = w.mabs := rfl
@[simp] theorem Wave.raise_xfault (w : Wave) (m : Mask) (n : Nat) : (w.raise m n).xfault = w.xfault := rfl
@[simp] theorem Wave.raise_rngctr (w : Wave) (m : Mask) (n : Nat) : (w.raise m n).rngctr = w.rngctr := rfl
@[simp] theorem Wave.raise_tcause (w : Wave) (m : Mask) (n : Nat) : (w.raise m n).tcause = w.tcause := rfl
@[simp] theorem Wave.raise_tpc (w : Wave) (m : Mask) (n : Nat) : (w.raise m n).tpc = w.tpc := rfl
@[simp] theorem Wave.raise_tmask (w : Wave) (m : Mask) (n : Nat) : (w.raise m n).tmask = w.tmask := rfl
@[simp] theorem Wave.raise_tval (w : Wave) (m : Mask) (n : Nat) : (w.raise m n).tval = w.tval := rfl
@[simp] theorem Wave.raise_trap (w : Wave) (m : Mask) (n : Nat) : (w.raise m n).trap = w.trap := rfl
@[simp] theorem Wave.raise_ops (w : Wave) (m : Mask) (n : Nat) : (w.raise m n).ops = w.ops := rfl
@[simp] theorem Wave.raise_opSeq (w : Wave) (m : Mask) (n : Nat) : (w.raise m n).opSeq = w.opSeq := rfl
@[simp] theorem Wave.raise_parks (w : Wave) (m : Mask) (n : Nat) : (w.raise m n).parks = w.parks := rfl
@[simp] theorem Wave.raise_bars (w : Wave) (m : Mask) (n : Nat) : (w.raise m n).bars = w.bars := rfl
@[simp] theorem Wave.raise_seen (w : Wave) (m : Mask) (n : Nat) : (w.raise m n).seen = w.seen := rfl
@[simp] theorem Wave.raise_views (w : Wave) (m : Mask) (n : Nat) : (w.raise m n).views = w.views := rfl
@[simp] theorem Wave.raise_arrSeq (w : Wave) (m : Mask) (n : Nat) : (w.raise m n).arrSeq = w.arrSeq := rfl
@[simp] theorem Wave.raise_pubs (w : Wave) (m : Mask) (n : Nat) : (w.raise m n).pubs = w.pubs := rfl
@[simp] theorem Wave.raise_stage (w : Wave) (m : Mask) (n : Nat) : (w.raise m n).stage = w.stage := rfl
@[simp] theorem Wave.raise_resv (w : Wave) (m : Mask) (n : Nat) : (w.raise m n).resv = w.resv := rfl
@[simp] theorem Wave.raise_ended (w : Wave) (m : Mask) (n : Nat) : (w.raise m n).ended = w.ended := rfl

/-! `joined` -/

@[simp] theorem Wave.joined_idx (w : Wave) (m : Mask) : (w.joined m).idx = w.idx := rfl
@[simp] theorem Wave.joined_quad (w : Wave) (m : Mask) : (w.joined m).quad = w.quad := rfl
@[simp] theorem Wave.joined_qslot (w : Wave) (m : Mask) : (w.joined m).qslot = w.qslot := rfl
@[simp] theorem Wave.joined_vregs (w : Wave) (m : Mask) : (w.joined m).vregs = w.vregs := rfl
@[simp] theorem Wave.joined_sregs (w : Wave) (m : Mask) : (w.joined m).sregs = w.sregs := rfl
@[simp] theorem Wave.joined_sbad (w : Wave) (m : Mask) : (w.joined m).sbad = w.sbad := rfl
@[simp] theorem Wave.joined_futs (w : Wave) (m : Mask) : (w.joined m).futs = w.futs := rfl
@[simp] theorem Wave.joined_latches (w : Wave) (m : Mask) : (w.joined m).latches = w.latches := rfl
@[simp] theorem Wave.joined_slot0 (w : Wave) (m : Mask) : (w.joined m).slot0 = w.slot0 := rfl
@[simp] theorem Wave.joined_slot1 (w : Wave) (m : Mask) : (w.joined m).slot1 = w.slot1 := rfl
@[simp] theorem Wave.joined_exited (w : Wave) (m : Mask) : (w.joined m).exited = w.exited := rfl
@[simp] theorem Wave.joined_dsp (w : Wave) (m : Mask) : (w.joined m).dsp = w.dsp := rfl
@[simp] theorem Wave.joined_dsaddr (w : Wave) (m : Mask) : (w.joined m).dsaddr = w.dsaddr := rfl
@[simp] theorem Wave.joined_flags (w : Wave) (m : Mask) : (w.joined m).flags = w.flags := rfl
@[simp] theorem Wave.joined_fpen (w : Wave) (m : Mask) : (w.joined m).fpen = w.fpen := rfl
@[simp] theorem Wave.joined_mabs (w : Wave) (m : Mask) : (w.joined m).mabs = w.mabs := rfl
@[simp] theorem Wave.joined_xfault (w : Wave) (m : Mask) : (w.joined m).xfault = w.xfault := rfl
@[simp] theorem Wave.joined_rngctr (w : Wave) (m : Mask) : (w.joined m).rngctr = w.rngctr := rfl
@[simp] theorem Wave.joined_tcause (w : Wave) (m : Mask) : (w.joined m).tcause = w.tcause := rfl
@[simp] theorem Wave.joined_tpc (w : Wave) (m : Mask) : (w.joined m).tpc = w.tpc := rfl
@[simp] theorem Wave.joined_tmask (w : Wave) (m : Mask) : (w.joined m).tmask = w.tmask := rfl
@[simp] theorem Wave.joined_tval (w : Wave) (m : Mask) : (w.joined m).tval = w.tval := rfl
@[simp] theorem Wave.joined_trap (w : Wave) (m : Mask) : (w.joined m).trap = w.trap := rfl
@[simp] theorem Wave.joined_opSeq (w : Wave) (m : Mask) : (w.joined m).opSeq = w.opSeq := rfl
@[simp] theorem Wave.joined_parks (w : Wave) (m : Mask) : (w.joined m).parks = w.parks := rfl
@[simp] theorem Wave.joined_bars (w : Wave) (m : Mask) : (w.joined m).bars = w.bars := rfl
@[simp] theorem Wave.joined_seen (w : Wave) (m : Mask) : (w.joined m).seen = w.seen := rfl
@[simp] theorem Wave.joined_views (w : Wave) (m : Mask) : (w.joined m).views = w.views := rfl
@[simp] theorem Wave.joined_arrSeq (w : Wave) (m : Mask) : (w.joined m).arrSeq = w.arrSeq := rfl
@[simp] theorem Wave.joined_pubs (w : Wave) (m : Mask) : (w.joined m).pubs = w.pubs := rfl
@[simp] theorem Wave.joined_stage (w : Wave) (m : Mask) : (w.joined m).stage = w.stage := rfl
@[simp] theorem Wave.joined_resv (w : Wave) (m : Mask) : (w.joined m).resv = w.resv := rfl
@[simp] theorem Wave.joined_ended (w : Wave) (m : Mask) : (w.joined m).ended = w.ended := rfl

/-! `keepViews` -/

@[simp] theorem State.keepViews_hub (s : State) (g : Gang) : (s.keepViews g).hub = s.hub := rfl
@[simp] theorem State.keepViews_ctxs (s : State) (g : Gang) : (s.keepViews g).ctxs = s.ctxs := rfl
@[simp] theorem State.keepViews_grids (s : State) (g : Gang) : (s.keepViews g).grids = s.grids := rfl
@[simp] theorem State.keepViews_gangs (s : State) (g : Gang) : (s.keepViews g).gangs = s.gangs := rfl
@[simp] theorem State.keepViews_dies (s : State) (g : Gang) : (s.keepViews g).dies = s.dies := rfl
@[simp] theorem State.keepViews_reqs (s : State) (g : Gang) : (s.keepViews g).reqs = s.reqs := rfl
@[simp] theorem State.keepViews_msgs (s : State) (g : Gang) : (s.keepViews g).msgs = s.msgs := rfl
@[simp] theorem State.keepViews_mem (s : State) (g : Gang) : (s.keepViews g).mem = s.mem := rfl
@[simp] theorem State.keepViews_memBad (s : State) (g : Gang) : (s.keepViews g).memBad = s.memBad := rfl
@[simp] theorem State.keepViews_tags (s : State) (g : Gang) : (s.keepViews g).tags = s.tags := rfl
@[simp] theorem State.keepViews_l1 (s : State) (g : Gang) : (s.keepViews g).l1 = s.l1 := rfl
@[simp] theorem State.keepViews_icache (s : State) (g : Gang) : (s.keepViews g).icache = s.icache := rfl
@[simp] theorem State.keepViews_obuf (s : State) (g : Gang) : (s.keepViews g).obuf = s.obuf := rfl
@[simp] theorem State.keepViews_olds (s : State) (g : Gang) : (s.keepViews g).olds = s.olds := rfl
@[simp] theorem State.keepViews_llc (s : State) (g : Gang) : (s.keepViews g).llc = s.llc := rfl
@[simp] theorem State.keepViews_fills (s : State) (g : Gang) : (s.keepViews g).fills = s.fills := rfl
@[simp] theorem State.keepViews_tlb (s : State) (g : Gang) : (s.keepViews g).tlb = s.tlb := rfl
@[simp] theorem State.keepViews_shbase (s : State) (g : Gang) : (s.keepViews g).shbase = s.shbase := rfl
@[simp] theorem State.keepViews_perf (s : State) (g : Gang) : (s.keepViews g).perf = s.perf := rfl
@[simp] theorem State.keepViews_issuers (s : State) (g : Gang) : (s.keepViews g).issuers = s.issuers := rfl
@[simp] theorem State.keepViews_cycles (s : State) (g : Gang) : (s.keepViews g).cycles = s.cycles := rfl
@[simp] theorem State.keepViews_timeNs (s : State) (g : Gang) : (s.keepViews g).timeNs = s.timeNs := rfl
@[simp] theorem State.keepViews_fabric (s : State) (g : Gang) : (s.keepViews g).fabric = s.fabric := rfl
@[simp] theorem State.keepViews_hostData (s : State) (g : Gang) : (s.keepViews g).hostData = s.hostData := rfl
@[simp] theorem State.keepViews_ids (s : State) (g : Gang) : (s.keepViews g).ids = s.ids := rfl
@[simp] theorem State.keepViews_lastServed (s : State) (g : Gang) : (s.keepViews g).lastServed = s.lastServed := rfl
@[simp] theorem State.keepViews_freeCtr (s : State) (g : Gang) : (s.keepViews g).freeCtr = s.freeCtr := rfl
@[simp] theorem State.keepViews_stale (s : State) (g : Gang) : (s.keepViews g).stale = s.stale := rfl
@[simp] theorem State.keepViews_cur (s : State) (g : Gang) : (s.keepViews g).cur = s.cur := rfl
@[simp] theorem State.keepViews_agenda (s : State) (g : Gang) : (s.keepViews g).agenda = s.agenda := rfl

end Sys2Proof.Machine
end

