-- ==== Sys2Proof/Laws/Memory.lean ====
section
/-! SUPPORT. The canonical form of memory: every operation keeps it, equal reads mean equal lists, and a read after a write gives what
was written there and what was before elsewhere. -/

namespace Sys2Proof.Machine

theorem Memory.get_of_lt (m : Memory) (n a : Nat) (h : Memory.wfFrom n m = true) (ha : a < n) : m.get a = 0 := by
  cases m with
  | nil => rfl
  | cons c m =>
    simp only [Memory.wfFrom, Bool.and_eq_true, decide_eq_true_eq] at h
    have h1 : (c.1 == a) = false := by simp; omega
    have h2 : a < c.1 := by omega
    simp [Memory.get, h1, h2]

theorem Memory.wfFrom_mono (m : Memory) (n k : Nat) (h : Memory.wfFrom n m = true) (hk : k ≤ n) : Memory.wfFrom k m = true := by
  cases m with
  | nil => rfl
  | cons c m =>
    simp only [Memory.wfFrom, Bool.and_eq_true, decide_eq_true_eq] at *
    exact ⟨⟨by omega, h.1.2⟩, h.2⟩

theorem Memory.put_wfFrom (m : Memory) (n a : Nat) (b : Byte) (h : Memory.wfFrom n m = true) (ha : n ≤ a) :
    Memory.wfFrom n (m.put a b) = true := by
  induction m generalizing n with
  | nil => by_cases hb : b = 0#8 <;> simp [Memory.put, hb, Memory.wfFrom, ha]
  | cons c m ih =>
    simp only [Memory.wfFrom, Bool.and_eq_true, decide_eq_true_eq, bne_iff_ne, ne_eq] at h
    obtain ⟨⟨hc, h0⟩, ht⟩ := h
    have h0 : ¬ c.2 = 0#8 := h0
    by_cases h1 : a < c.1
    · by_cases hb : b = 0#8
      · simp [Memory.put, h1, hb, Memory.wfFrom, hc, h0, ht]
      · simp [Memory.put, h1, hb, Memory.wfFrom, ha, h0, ht]
    · by_cases h2 : c.1 = a
      · by_cases hb : b = 0#8
        · simpa [Memory.put, h2, hb] using Memory.wfFrom_mono m (c.1 + 1) n ht (by omega)
        · subst h2; simp [Memory.put, hb, Memory.wfFrom, ha, ht]
      · have := ih (c.1 + 1) ht (by omega)
        simp [Memory.put, h1, h2, Memory.wfFrom, hc, h0, this]

/-- A write of one byte keeps the canonical form. -/
theorem Memory.put_wf (m : Memory) (a : Nat) (b : Byte) (h : m.wf = true) : (m.put a b).wf = true :=
  Memory.put_wfFrom m 0 a b h (Nat.zero_le a)

theorem Memory.get_put_from (m : Memory) (n a k : Nat) (b : Byte) (h : Memory.wfFrom n m = true) :
    (m.put a b).get k = if k = a then b else m.get k := by
  induction m generalizing n with
  | nil =>
    by_cases hb : b = 0#8
    · by_cases hk : k = a <;> simp [Memory.put, hb, Memory.get, hk]
    · by_cases hk : k = a
      · simp [Memory.put, hb, Memory.get, hk]
      · have : (a == k) = false := by simp; omega
        simp [Memory.put, hb, Memory.get, hk, this]
  | cons c m ih =>
    simp only [Memory.wfFrom, Bool.and_eq_true, decide_eq_true_eq, bne_iff_ne, ne_eq] at h
    obtain ⟨⟨hc, h0⟩, ht⟩ := h
    have h0 : ¬ c.2 = 0#8 := h0
    have hbt : b = 0#8 → (b == 0) = true := fun h => by simp [h]
    have hbf : ¬ b = 0#8 → (b == 0) = false := fun h => by simp [h]
    by_cases h1 : a < c.1
    · by_cases hk : k = a
      · subst hk
        have h2 : (c.1 == k) = false := by simp; omega
        by_cases hb : b = 0#8
        · simp [Memory.put, h1, hb, Memory.get, h2]
        · simp [Memory.put, h1, hb, Memory.get]
      · have h2 : (a == k) = false := by simp; omega
        by_cases hb : b = 0#8
        · simp [Memory.put, h1, hb, hk]
        · simp only [Memory.put, h1, if_true, hk, if_false, hbf hb, Bool.false_eq_true, Memory.get, h2]
          by_cases h3 : k < a
          · have h4 : (c.1 == k) = false := by simp; omega
            have h5 : k < c.1 := by omega
            simp [h3, h4, h5]
          · simp [h3]
    · by_cases h2 : c.1 = a
      · have h3 : (c.1 == a) = true := by simp [h2]
        by_cases hb : b = 0#8
        · simp only [Memory.put, h1, if_false, h3, if_true, hbt hb]
          by_cases hk : k = a
          · rw [if_pos hk, hb]
            exact Memory.get_of_lt m (c.1 + 1) k ht (by omega)
          · rw [if_neg hk]
            have h4 : (c.1 == k) = false := by simp; omega
            simp only [Memory.get, h4, Bool.false_eq_true, if_false]
            split
            · exact Memory.get_of_lt m (c.1 + 1) k ht (by omega)
            · rfl
        · simp only [Memory.put, h1, if_false, h3, if_true, hbf hb, Bool.false_eq_true]
          by_cases hk : k = a
          · simp [Memory.get, hk]
          · have h4 : (c.1 == k) = false := by simp; omega
            have h5 : (a == k) = false := by simp; omega
            simp [Memory.get, hk, h5, h2]
      · have h3 : (c.1 == a) = false := by simp [h2]
        simp only [Memory.put, h1, if_false, h3, Bool.false_eq_true]
        by_cases h4 : c.1 = k
        · have : ¬ k = a := by omega
          simp [Memory.get, h4, this]
        · have h5 : (c.1 == k) = false := by simp [h4]
          simp only [Memory.get, h5, Bool.false_eq_true, if_false]
          by_cases h6 : k < c.1
          · have : ¬ k = a := by omega
            simp [h6, this]
          · simpa [h6] using ih (c.1 + 1) ht

/-- A byte reads as written, and every other byte as before. -/
theorem Memory.get_put (m : Memory) (a k : Nat) (b : Byte) (h : m.wf = true) :
    (m.put a b).get k = if k = a then b else m.get k := Memory.get_put_from m 0 a k b h

/-- A write of a run of bytes keeps the canonical form. -/
theorem Memory.write_wf (m : Memory) (a : Nat) (bs : List Byte) (h : m.wf = true) : (m.write a bs).wf = true := by
  induction bs generalizing m a with
  | nil => exact h
  | cons b bs ih => exact ih (m.put a b) (a + 1) (Memory.put_wf m a b h)

/-- A run of bytes reads as written, and every byte outside it as before. -/
theorem Memory.get_write (m : Memory) (a k : Nat) (bs : List Byte) (h : m.wf = true) :
    (m.write a bs).get k = if a ≤ k ∧ k < a + bs.length then bs.getD (k - a) 0 else m.get k := by
  induction bs generalizing m a with
  | nil =>
    have : ¬ (a ≤ k ∧ k < a + 0) := by omega
    simp [Memory.write]
  | cons b bs ih =>
    rw [Memory.write, ih (m.put a b) (a + 1) (Memory.put_wf m a b h), Memory.get_put m a k b h]
    by_cases h1 : k = a
    · have h2 : ¬ (a + 1 ≤ k ∧ k < a + 1 + bs.length) := by omega
      have h3 : a ≤ k ∧ k < a + (b :: bs).length := by simp; omega
      rw [if_neg h2, if_pos h1, if_pos h3, h1]; simp
    · by_cases h2 : a + 1 ≤ k ∧ k < a + 1 + bs.length
      · have h3 : a ≤ k ∧ k < a + (b :: bs).length := by simp; omega
        rw [if_pos h2, if_pos h3]
        have h4 : k - a = (k - (a + 1)) + 1 := by omega
        rw [h4, List.getD_cons_succ]
      · have h3 : ¬ (a ≤ k ∧ k < a + (b :: bs).length) := by simp; omega
        rw [if_neg h2, if_neg h1, if_neg h3]

@[simp] theorem Memory.read_length (m : Memory) (a n : Nat) : (m.read a n).length = n := by
  induction n generalizing a with
  | zero => rfl
  | succ n ih => simp [Memory.read, ih]

theorem Memory.read_get (m : Memory) (a n i : Nat) (h : i < n) : (m.read a n)[i]? = some (m.get (a + i)) := by
  induction n generalizing a i with
  | zero => omega
  | succ n ih =>
    cases i with
    | zero => rfl
    | succ i =>
      simp only [Memory.read, List.getElem?_cons_succ]
      rw [ih (a + 1) i (by omega)]
      congr 2; omega

/-- A read depends on the bytes it covers alone. -/
theorem Memory.read_congr (m k : Memory) (a n : Nat) (h : ∀ i, i < n → m.get (a + i) = k.get (a + i)) : m.read a n = k.read a n := by
  induction n generalizing a with
  | zero => rfl
  | succ n ih =>
    simp only [Memory.read]
    rw [show m.get a = k.get a from h 0 (by omega), ih (a + 1) fun i hi => by
      have := h (i + 1) (by omega)
      rwa [show a + (i + 1) = a + 1 + i by omega] at this]

/-- A run of bytes reads back whole. -/
theorem Memory.read_write (m : Memory) (a : Nat) (bs : List Byte) (h : m.wf = true) : (m.write a bs).read a bs.length = bs := by
  apply List.ext_getElem?
  intro i
  by_cases hi : i < bs.length
  · rw [Memory.read_get _ _ _ _ hi, Memory.get_write m a (a + i) bs h, if_pos (by omega)]
    simp [List.getD_eq_getElem?_getD, hi]
  · rw [List.getElem?_eq_none (by simp; omega), List.getElem?_eq_none (by omega)]

/-- A read of bytes that a write does not touch. -/
theorem Memory.read_write_other (m : Memory) (a b n : Nat) (bs : List Byte) (h : m.wf = true) (hd : b + n ≤ a ∨ a + bs.length ≤ b) :
    (m.write a bs).read b n = m.read b n :=
  Memory.read_congr _ _ b n fun i hi => by rw [Memory.get_write m a (b + i) bs h, if_neg (by omega)]

/-! ## Little-endian numbers -/

@[simp] theorem natLe_length (k n : Nat) : (natLe k n).length = k := by
  induction k generalizing n with
  | zero => rfl
  | succ k ih => simp [natLe, ih]

theorem leNat_natLe (k n : Nat) : leNat (natLe k n) = n % 2 ^ (8 * k) := by
  induction k generalizing n with
  | zero => simp [natLe, leNat, Nat.mod_one]
  | succ k ih =>
    have : leNat (natLe (k + 1) n) = n % 256 + 256 * leNat (natLe k (n / 256)) := by simp [natLe, leNat]
    rw [this, ih, show 8 * (k + 1) = 8 + 8 * k by omega, Nat.pow_add, show 2 ^ 8 = 256 from rfl, Nat.mod_mul]

/-- A number written little-endian reads back, modulo its width. -/
theorem Memory.num_write (m : Memory) (a k n : Nat) (h : m.wf = true) : (m.write a (natLe k n)).num a k = n % 2 ^ (8 * k) := by
  have := Memory.read_write m a (natLe k n) h
  rw [natLe_length] at this
  rw [Memory.num, this, leNat_natLe]

/-- Equal reads mean equal memories in canonical form. -/
theorem Memory.ext_from (m k : Memory) (n : Nat) (hm : Memory.wfFrom n m = true) (hk : Memory.wfFrom n k = true)
    (h : ∀ a, m.get a = k.get a) : m = k := by
  induction m generalizing k n with
  | nil =>
    cases k with
    | nil => rfl
    | cons c k =>
      have h0 := h c.1
      simp only [Memory.wfFrom, Bool.and_eq_true, bne_iff_ne, ne_eq] at hk
      simp [Memory.get] at h0
      exact absurd h0.symm hk.1.2
  | cons c m ih =>
    simp only [Memory.wfFrom, Bool.and_eq_true, decide_eq_true_eq, bne_iff_ne, ne_eq] at hm
    cases k with
    | nil =>
      have h0 := h c.1
      simp [Memory.get] at h0
      exact absurd h0 hm.1.2
    | cons d k =>
      simp only [Memory.wfFrom, Bool.and_eq_true, decide_eq_true_eq, bne_iff_ne, ne_eq] at hk
      have hcd : c.1 = d.1 := by
        rcases Nat.lt_trichotomy c.1 d.1 with hl | hl | hl
        · have h0 := h c.1
          have h1 : (d.1 == c.1) = false := by simp; omega
          simp [Memory.get, h1, hl] at h0
          exact absurd h0 hm.1.2
        · exact hl
        · have h0 := h d.1
          have h1 : (c.1 == d.1) = false := by simp; omega
          simp [Memory.get, h1, hl] at h0
          exact absurd h0.symm hk.1.2
      have hb : c.2 = d.2 := by
        have h0 := h c.1
        simpa [Memory.get, hcd] using h0
      have : m = k := by
        apply ih k (c.1 + 1) hm.2 (by rw [hcd]; exact hk.2)
        intro a
        by_cases ha : a < c.1 + 1
        · rw [Memory.get_of_lt m _ a hm.2 ha, Memory.get_of_lt k (d.1 + 1) a hk.2 (by omega)]
        · have h0 := h a
          have h1 : (c.1 == a) = false := by simp; omega
          have h2 : (d.1 == a) = false := by simp; omega
          have h3 : ¬ a < c.1 := by omega
          have h4 : ¬ a < d.1 := by omega
          simpa [Memory.get, h1, h2, h3, h4] using h0
      rw [this, Prod.ext hcd hb]

theorem Memory.ext (m k : Memory) (hm : m.wf = true) (hk : k.wf = true) (h : ∀ a, m.get a = k.get a) : m = k :=
  Memory.ext_from m k 0 hm hk h

/-! ## Dropping cells -/

theorem Memory.filter_wfFrom (p : Host.Cell → Bool) (m : Memory) (n : Nat) (h : Memory.wfFrom n m = true) :
    Memory.wfFrom n (m.filter p) = true := by
  induction m generalizing n with
  | nil => rfl
  | cons c m ih =>
    simp only [Memory.wfFrom, Bool.and_eq_true, decide_eq_true_eq] at h
    by_cases hp : p c = true
    · simp only [List.filter_cons, hp, if_true, Memory.wfFrom, Bool.and_eq_true, decide_eq_true_eq]
      exact ⟨h.1, ih (c.1 + 1) h.2⟩
    · simpa [List.filter_cons, hp] using ih n (Memory.wfFrom_mono m (c.1 + 1) n h.2 (by omega))

/-- Dropping cells keeps the canonical form. -/
theorem Memory.filter_wf (p : Host.Cell → Bool) (m : Memory) (h : m.wf = true) : Memory.wf (m.filter p) = true :=
  Memory.filter_wfFrom p m 0 h

/-- A byte whose cell no test lets through reads zero. -/
theorem Memory.get_filter_out (p : Host.Cell → Bool) (m : Memory) (a : Nat) (h : ∀ b, p (a, b) = false) :
    Memory.get (m.filter p) a = 0 := by
  induction m with
  | nil => rfl
  | cons c m ih =>
    by_cases hp : p c = true
    · have hc : (c.1 == a) = false := by
        simp only [beq_eq_false_iff_ne, ne_eq]; rintro rfl; simp [h c.2] at hp
      simp [hp, Memory.get, hc, ih]
    · simpa [List.filter_cons, hp] using ih

/-! ## Poison marks -/

theorem insertNat_mem (n x : Nat) (xs : List Nat) : x ∈ insertNat n xs ↔ x = n ∨ x ∈ xs := by
  induction xs with
  | nil => simp [insertNat]
  | cons y ys ih =>
    simp only [insertNat]
    split
    · simp
    · split
      · rename_i h1 h2
        have : n = y := by simpa using h2
        subst this; simp
      · simp only [List.mem_cons, ih]; tauto

theorem addBad_mem (bad : List Nat) (g x : Nat) : x ∈ addBad bad g ↔ x = g ∨ x ∈ bad := insertNat_mem g x bad

theorem clearBad_mem (bad : List Nat) (g x : Nat) : x ∈ clearBad bad g ↔ x ∈ bad ∧ x ≠ g := by simp [clearBad]

end Sys2Proof.Machine
end

