-- ==== Sys2Proof/Laws/Ops.lean ====
section
/-! SUPPORT. What the shared operations of the machine can do: the issuing split, the way a word ends, traps and returns, and
that each of them keeps the canonical form of every memory (`State.memOk`). -/

namespace Sys2Proof.Machine

/-! ## List updates -/

theorem modAt_forall {α : Type} (p : α → Prop) (f : α → α) (hf : ∀ x, p x → p (f x)) (xs : List α) (i : Nat)
    (h : ∀ x ∈ xs, p x) : ∀ x ∈ modAt xs i f, p x := by
  induction xs generalizing i with
  | nil => simp [modAt]
  | cons y ys ih =>
    rw [List.forall_mem_cons] at h
    cases i with
    | zero => simp only [modAt, List.forall_mem_cons]; exact ⟨hf y h.1, h.2⟩
    | succ i => simp only [modAt, List.forall_mem_cons]; exact ⟨h.1, ih i h.2⟩

theorem map_forall {α : Type} (p : α → Prop) (f : α → α) (hf : ∀ x, p x → p (f x)) (xs : List α) (h : ∀ x ∈ xs, p x) :
    ∀ x ∈ xs.map f, p x := by
  intro x hx
  obtain ⟨y, hy, rfl⟩ := List.mem_map.1 hx
  exact hf y (h y hy)

theorem mapIf_forall {α : Type} (p : α → Prop) (q : α → Bool) (f : α → α) (hf : ∀ x, p x → p (f x)) (xs : List α)
    (h : ∀ x ∈ xs, p x) : ∀ x ∈ mapIf q f xs, p x :=
  map_forall p _ (fun x hx => by by_cases hq : q x <;> simp [hq, hx, hf]) xs h

/-- A fold keeps what every step of it keeps. -/
theorem foldl_keeps {σ α : Type} (p : σ → Prop) (f : σ → α → σ) (hf : ∀ s x, p s → p (f s x)) (xs : List α) (s : σ)
    (h : p s) : p (xs.foldl f s) := by
  induction xs generalizing s with
  | nil => exact h
  | cons x xs ih => exact ih (f s x) (hf s x h)

/-! ## Reading what was written -/

theorem State.modGang_gang? (s : State) (gi : Nat) (f : Gang → Gang) : (s.modGang gi f).gang? gi = (s.gang? gi).map f :=
  modAt_get s.gangs gi f

theorem State.modGang_gang?_other (s : State) (gi gj : Nat) (f : Gang → Gang) (h : gj ≠ gi) :
    (s.modGang gi f).gang? gj = s.gang? gj := modAt_get_other s.gangs gi gj f h

theorem State.modWave_wave? (s : State) (gi wi : Nat) (f : Wave → Wave) : (s.modWave gi wi f).wave? gi wi = (s.wave? gi wi).map f := by
  simp only [State.wave?, State.modWave, State.modGang_gang?]
  cases s.gang? gi with
  | none => rfl
  | some g => exact modAt_get g.waves wi f

theorem State.setWave_wave? (s : State) (gi wi : Nat) (w v : Wave) (h : s.wave? gi wi = some v) :
    (s.setWave gi wi w).wave? gi wi = some w := by simp [State.setWave, State.modWave_wave?, h]

@[simp] theorem Wave.slot_setSlot (w : Wave) (k : Bool) (x : Slot) : (w.setSlot k x).slot k = x := by cases k <;> rfl

@[simp] theorem Wave.slot_setSlot_not (w : Wave) (k : Bool) (x : Slot) : (w.setSlot k x).slot (!k) = w.slot (!k) := by cases k <;> rfl

/-! ## The issuing split -/

/-- A word's meaning with an issuing split goes on. -/
theorem onSplit_some (i : Instr) (s : State) (f : Env → State) (e : Env) (h : s.env? ((encode i).getD 0) = some e) :
    onSplit i s f = .next (f e) := by unfold onSplit; rw [h]

/-- A word's meaning answers a next state, the effect on the issuing split; or there is no such split, and it faults. -/
theorem onSplit_cases (i : Instr) (s : State) (f : Env → State) :
    (∃ e, s.env? ((encode i).getD 0) = some e ∧ onSplit i s f = .next (f e)) ∨
      (s.env? ((encode i).getD 0) = none ∧ onSplit i s f = .fault .noSplit) := by
  cases h : s.env? ((encode i).getD 0) with
  | some e => exact .inl ⟨e, rfl, onSplit_some i s f e h⟩
  | none => exact .inr ⟨rfl, by unfold onSplit; rw [h]⟩

theorem onSplit_next (i : Instr) (s t : State) (f : Env → State) (h : onSplit i s f = .next t) :
    ∃ e, s.env? ((encode i).getD 0) = some e ∧ t = f e := by
  obtain ⟨e, he, hf⟩ | ⟨_, hf⟩ := onSplit_cases i s f
  · exact ⟨e, he, by rw [hf] at h; exact (Host.Outcome.next.inj h).symm⟩
  · rw [hf] at h; cases h

/-- What the issuing split is. -/
theorem env?_eq (s : State) (word : D) (e : Env) (h : s.env? word = some e) :
    e.s = s ∧ e.gi = s.cur.gang ∧ e.wi = s.cur.wave ∧ e.k = s.cur.slot ∧ e.word = word ∧ s.gang? s.cur.gang = some e.g ∧
      e.g.wave? s.cur.wave = some e.w := by
  simp only [State.env?] at h
  split at h
  · split at h
    · cases h; simp_all
    · cases h
  · cases h

/-! ## How a word ends -/

/-- A word that passes its checks has its effect. -/
theorem Env.run_ok (e : Env) (t : State) : e.run (.ok t) = t := rfl

/-- A word that fails a check traps or waits, and nothing else. -/
theorem Env.run_cases (e : Env) (c : Chk State) :
    (∃ t, c = .ok t ∧ e.run c = t) ∨ (∃ t, c = .error (.trap t) ∧ e.run c = e.stop (.trap t)) ∨
      (∃ y, c = .error (.wait y) ∧ e.run c = e.stop (.wait y)) := by
  cases c with
  | ok t => exact .inl ⟨t, rfl, rfl⟩
  | error x => cases x with
    | trap t => exact .inr (.inl ⟨t, rfl, rfl⟩)
    | wait y => exact .inr (.inr ⟨y, rfl, rfl⟩)

/-! ## Canonical memories: the plain updates -/

theorem memOk_iff (s : State) : s.memOk = true ↔ s.mem.wf = true ∧ ∀ g ∈ s.gangs, g.spad.wf = true := by simp [State.memOk]

/-- A state with the same memory and gangs. -/
theorem memOk_congr (s t : State) (hm : t.mem = s.mem) (hg : t.gangs = s.gangs) (h : s.memOk = true) : t.memOk = true := by
  rw [memOk_iff] at *; rw [hm, hg]; exact h

/-- A state with the same gangs and a canonical memory. -/
theorem memOk_mem (s t : State) (hm : t.mem.wf = true) (hg : t.gangs = s.gangs) (h : s.memOk = true) : t.memOk = true := by
  rw [memOk_iff] at *; rw [hg]; exact ⟨hm, h.2⟩

theorem memOk_wf (s : State) (h : s.memOk = true) : s.mem.wf = true := ((memOk_iff s).1 h).1

theorem gang?_wf (s : State) (h : s.memOk = true) (gi : Nat) (g : Gang) (hg : s.gang? gi = some g) : g.spad.wf = true :=
  ((memOk_iff s).1 h).2 g (List.mem_of_getElem? hg)

theorem modGang_memOk (s : State) (gi : Nat) (f : Gang → Gang) (hf : ∀ g, g.spad.wf = true → (f g).spad.wf = true)
    (h : s.memOk = true) : (s.modGang gi f).memOk = true := by
  rw [memOk_iff] at *
  exact ⟨h.1, modAt_forall _ f hf s.gangs gi h.2⟩

theorem mapGangs_memOk (s : State) (p : Gang → Bool) (f : Gang → Gang) (hf : ∀ g, g.spad.wf = true → (f g).spad.wf = true)
    (h : s.memOk = true) : ({ s with gangs := mapIf p f s.gangs } : State).memOk = true := by
  rw [memOk_iff] at *
  exact ⟨h.1, mapIf_forall _ p f hf s.gangs h.2⟩

theorem addGang_memOk (s : State) (g : Gang) (hg : g.spad.wf = true) (h : s.memOk = true) :
    ({ s with gangs := s.gangs ++ [g] } : State).memOk = true := by
  rw [memOk_iff] at *
  refine ⟨h.1, fun x hx => ?_⟩
  obtain hx | hx := List.mem_append.1 hx
  · exact h.2 x hx
  · exact List.mem_singleton.1 hx ▸ hg

theorem modWave_memOk (s : State) (gi wi : Nat) (f : Wave → Wave) (h : s.memOk = true) : (s.modWave gi wi f).memOk = true :=
  modGang_memOk s gi _ (fun _ hg => hg) h

theorem setWave_memOk (s : State) (gi wi : Nat) (w : Wave) (h : s.memOk = true) : (s.setWave gi wi w).memOk = true :=
  modWave_memOk s gi wi _ h

theorem modCtx_memOk (s : State) (id : Nat) (f : Ctx → Ctx) (h : s.memOk = true) : (s.modCtx id f).memOk = true :=
  memOk_congr s _ rfl rfl h

theorem modGrid_memOk (s : State) (id : Nat) (f : Grid → Grid) (h : s.memOk = true) : (s.modGrid id f).memOk = true :=
  memOk_congr s _ rfl rfl h

theorem modDie_memOk (s : State) (d : Nat) (f : Die → Die) (h : s.memOk = true) : (s.modDie d f).memOk = true :=
  memOk_congr s _ rfl rfl h

theorem put_memOk (e : Env) (w : Wave) (h : e.s.memOk = true) : (e.put w).memOk = true := setWave_memOk e.s _ _ w h

theorem block_memOk (e : Env) (y : Why) (h : e.s.memOk = true) : (e.block y).memOk = true := put_memOk e _ h

theorem finishFut_memOk (s : State) (gi wi : Nat) (f : Option FR) (ser : W) (st : FState) (n : Nat) (h : s.memOk = true) :
    (s.finishFut gi wi f ser st n).memOk = true := by
  cases f with
  | none => exact h
  | some f => exact modWave_memOk s gi wi _ h

theorem sweepReqs_memOk (s : State) (h : s.memOk = true) : (sweepReqs s).memOk = true := memOk_congr s _ rfl rfl h

theorem dropWaiter_memOk (s : State) (who : Waiter) (h : s.memOk = true) : (dropWaiter s who).memOk = true :=
  sweepReqs_memOk _ (memOk_congr s _ rfl rfl h)

/-! ## Canonical memories: bytes, lines, keys -/

theorem putByte_memOk (s : State) (gi : Nat) (l : Loc) (b : Byte) (h : s.memOk = true) : (s.putByte gi l b).memOk = true := by
  cases l with
  | mem k => exact memOk_mem s _ (Memory.put_wf _ _ _ (memOk_wf s h)) rfl h
  | spad o => exact modGang_memOk s gi _ (fun g hg => Memory.put_wf _ _ _ hg) h

theorem setBad_memOk (s : State) (gi : Nat) (l : Loc) (b : Bool) (h : s.memOk = true) : (s.setBad gi l b).memOk = true := by
  cases l with
  | mem k => exact memOk_congr s _ rfl rfl h
  | spad o => exact modGang_memOk s gi _ (fun _ hg => hg) h

theorem storePut_memOk (s : State) (gi byre : Nat) (c : Option PClass) (bs : List StByte) (h : s.memOk = true) :
    (storePut s gi byre c bs).memOk = true := by
  refine foldl_keeps (fun t : State => t.memOk = true) _ (fun t g ht => ?_) _ _
    (foldl_keeps (fun t : State => t.memOk = true) _ (fun t b ht => ?_) _ _ h)
  · split
    · exact setBad_memOk t gi g _ ht
    · split
      · exact setBad_memOk t gi g _ ht
      · exact ht
  · split
    · have := putByte_memOk t gi b.loc b.byte ht
      split
      · exact memOk_congr _ _ rfl rfl this
      · exact this
    · exact ht

theorem storeAs_memOk (s : State) (gi byre : Nat) (c : PClass) (bs : List StByte) (h : s.memOk = true) :
    (storeAs s gi byre c bs).memOk = true :=
  storePut_memOk _ _ _ _ _ (foldl_keeps (fun t : State => t.memOk = true) (fun t n => keepOld t c n)
    (fun t n ht => memOk_congr t (keepOld t c n) rfl rfl ht) _ s h)

theorem writeLoc_memOk (s : State) (gi : Nat) (l : Loc) (bs : List Byte) (h : s.memOk = true) : (s.writeLoc gi l bs).memOk = true :=
  storePut_memOk s gi _ _ _ h

theorem dropTag_memOk (s : State) (line : Nat) (h : s.memOk = true) : (s.dropTag line).memOk = true := memOk_congr s _ rfl rfl h

theorem setTag_memOk (s : State) (ctx line : Nat) (x : Option (List Byte)) (h : s.memOk = true) :
    (s.setTag ctx line x).memOk = true := memOk_congr s _ rfl rfl h

theorem fillFrom_memOk (s : State) (ctx : Nat) (enc : Bool) (line : Nat) (x : List Byte) (w : Bool) (h : s.memOk = true) :
    (fillFrom s ctx enc line x w).memOk = true := by
  have hm (b : List Byte) : ({ s with mem := s.mem.write (128 * line) b } : State).memOk = true :=
    memOk_mem s _ (Memory.write_wf s.mem (128 * line) b (memOk_wf s h)) rfl h
  have ho (b : List Byte) :
      ({ s with olds := s.olds.filter fun o => o.line != line, mem := s.mem.write (128 * line) b } : State).memOk = true :=
    memOk_congr _ _ rfl rfl (hm b)
  cases enc
  · exact dropTag_memOk _ line (ho x)
  · exact setTag_memOk _ ctx line _ (ho (plainOf s ctx line x))

theorem llcFill_eq (s : State) (line : Nat) : ∃ l n, s.llcFill line = { s with llc := l, freeCtr := n } := by
  unfold State.llcFill
  dsimp only
  split
  · exact ⟨s.llc, s.freeCtr, rfl⟩
  · split <;> exact ⟨_, _, rfl⟩

theorem llcFill_memOk (s : State) (line : Nat) (h : s.memOk = true) : (s.llcFill line).memOk = true := by
  obtain ⟨l, n, e⟩ := llcFill_eq s line
  exact e ▸ memOk_congr s _ rfl rfl h

theorem keyLine_memOk (s : State) (ctx : Nat) (enc w : Bool) (line : Nat) (h : s.memOk = true) :
    (keyLine s ctx enc w line).memOk = true := by
  unfold keyLine
  split
  · split
    · exact h
    · split
      · split
        · exact setTag_memOk _ _ _ _ h
        · exact h
      · exact fillFrom_memOk _ _ _ _ _ _ h
  · split
    · split
      · exact setTag_memOk _ _ _ _ h
      · exact h
    · split
      · split
        · split
          · exact setTag_memOk _ _ _ _ h
          · exact dropTag_memOk _ _ h
        · exact h
      · exact fillFrom_memOk _ _ _ _ _ _ h

theorem accessLine_memOk (s : State) (ctx : Nat) (enc w : Bool) (line : Nat) (h : s.memOk = true) :
    (accessLine s ctx enc w line).memOk = true := llcFill_memOk _ _ (keyLine_memOk s ctx enc w line h)

theorem shadowAdd_memOk (s : State) (leaf : D) (n : Nat) (h : s.memOk = true) : (shadowAdd s leaf n).memOk = true := by
  unfold shadowAdd
  dsimp only
  split
  · exact h
  · have := accessLine_memOk s 0 false true ((s.shbase + 4 * (pteAddr leaf.toNat / 2 ^ 16)) / 128) h
    split
    · exact this
    · exact memOk_mem (accessLine s 0 false true ((s.shbase + 4 * (pteAddr leaf.toNat / 2 ^ 16)) / 128)) _
        (Memory.write_wf _ _ _ (memOk_wf _ this)) rfl this

theorem evictTlb_memOk (s : State) (byre size : Nat) (h : s.memOk = true) : (evictTlb s byre size).memOk = true := by
  unfold evictTlb
  generalize (if size == 2 ^ 25 then 64 else 1024) = cap
  dsimp only
  split
  · exact h
  · split
    · rename_i t _
      exact shadowAdd_memOk { s.took with tlb := s.tlb.filter (· != t) } _ _ (memOk_congr s _ rfl rfl h)
    · exact h

theorem tlb_memOk (s : State) (x : List TlbEnt) : ({ s with tlb := x } : State).memOk = s.memOk := rfl

theorem touchTlb_memOk (s : State) (byre ctx va e size : Nat) (h : s.memOk = true) : (touchTlb s byre ctx va e size).memOk = true := by
  have fill (t : State) (ht : t.memOk = true) : (evictTlb (t.bump byre 5 1) byre size).memOk = true :=
    evictTlb_memOk _ _ _ (memOk_congr t _ rfl rfl ht)
  unfold touchTlb
  dsimp only
  split
  · split
    · exact h
    · rw [tlb_memOk]
      exact fill _ (shadowAdd_memOk s _ _ h)
  · rw [tlb_memOk]
    exact fill s h

theorem tagLines_memOk (s : State) (ctx : Nat) (enc w : Bool) (key n : Nat) (h : s.memOk = true) :
    (tagLines s ctx enc w key n).memOk = true :=
  foldl_keeps (fun t : State => t.memOk = true) _ (fun t _ ht => accessLine_memOk t _ _ _ _ ht) _ _ h

theorem sealLines_memOk (s : State) (ctx key n : Nat) (h : s.memOk = true) : (sealLines s ctx key n).memOk = true :=
  foldl_keeps (fun t : State => t.memOk = true) _ (fun t _ ht => llcFill_memOk _ _ (setTag_memOk t _ _ _ ht)) _ _ h

theorem openArea_memOk (s : State) (gi : Nat) (w : Bool) (key n : Nat) (h : s.memOk = true) : (s.openArea gi w key n).memOk = true := by
  unfold State.openArea
  split
  · exact tagLines_memOk _ _ _ _ _ _ h
  · exact h

/-- Joining or opening a fault request keeps the memories canonical. -/
theorem addReq_memOk (s : State) (die ctx va kind acc req : Nat) (who : Waiter) (h : s.memOk = true) :
    (addReq s die ctx va kind acc req who).1.memOk = true := by
  unfold addReq
  dsimp only
  split
  · refine memOk_mem s _ ?_ rfl h
    dsimp only
    split
    · exact Memory.write_wf _ _ _ (memOk_wf s h)
    · exact memOk_wf s h
  · exact memOk_congr s _ rfl rfl h

/-! ## Canonical memories: splits, ends, traps -/

theorem writeStack_wf (m : Memory) (a : Nat) (xs : List Entry) (h : m.wf = true) : (writeStack m a xs).wf = true := by
  induction xs generalizing m with
  | nil => exact h
  | cons x xs ih =>
    simp only [writeStack]
    exact ih _ (Memory.write_wf m _ _ h)

theorem putSplits_memOk (s : State) (gi wi : Nat) (x : Splits) (h : s.memOk = true) : (s.putSplits gi wi x).memOk = true := by
  unfold State.putSplits
  split
  · rename_i w _
    have h1 := openArea_memOk s gi true w.dsaddr.toNat (64 * x.stk.length) h
    exact setWave_memOk _ _ _ _ (memOk_mem (s.openArea gi true w.dsaddr.toNat (64 * x.stk.length)) _
      (writeStack_wf _ _ _ (memOk_wf _ h1)) rfl h1)
  · exact h

theorem stopped_spad (g : Gang) : g.stopped.spad = g.spad := by
  have hk : g.kill.spad = g.spad := by
    simp only [Gang.kill, Gang.dropFrames]
    split <;> rfl
  simp only [Gang.stopped]
  split
  · rfl
  · split <;> exact hk

theorem dropPends_memOk (s : State) (gone : Pend → Bool) (h : s.memOk = true) : (dropPends s gone).memOk = true := by
  rw [memOk_iff] at *
  refine ⟨h.1, map_forall _ _ (fun g hg => foldl_keeps (fun g : Gang => g.spad.wf = true) _ (fun g p hg => ?_) _ g hg) s.gangs h.2⟩
  split
  · split <;> exact hg
  · split <;> exact hg
  · exact hg

theorem stopGrid_memOk (s : State) (id : Nat) (abort : Bool) (h : s.memOk = true) : (stopGrid s id abort).memOk = true := by
  refine sweepReqs_memOk _ ?_
  have h := dropPends_memOk s (spawnedIn s fun r => s.descends id 9 r) h
  rw [memOk_iff] at *
  refine ⟨h.1, map_forall _ _ (fun g hg => ?_) _ h.2⟩
  dsimp only
  split
  · rw [stopped_spad]; exact hg
  · exact hg

theorem faultGrid_memOk (s : State) (id : Nat) (r : FaultRep) (h : s.memOk = true) : (faultGrid s id r).memOk = true := by
  have h1 := modGrid_memOk _ (s.rootGrid 9 id) (fun x => x.addFault r) (stopGrid_memOk s (s.rootGrid 9 id) true h)
  unfold faultGrid
  dsimp only
  split
  · split
    · exact h1
    · exact memOk_congr _ _ rfl rfl h1
  · exact h1

theorem takeTrap_memOk (s : State) (gi wi : Nat) (k : Bool) (t : Trap) (h : s.memOk = true) : (takeTrap s gi wi k t).memOk = true := by
  unfold takeTrap
  split
  · exact h
  · split
    · exact h
    · rename_i w _
      dsimp only
      split
      · exact faultGrid_memOk _ _ _ h
      · split
        · exact setWave_memOk _ _ _ _ h
        · have h1 := openArea_memOk s gi true (w.dsaddr + 2048).toNat 16 h
          exact setWave_memOk _ _ _ _ (memOk_mem (s.openArea gi true (w.dsaddr + 2048).toNat 16) _
            (Memory.write_wf _ _ _ (memOk_wf _ h1)) rfl h1)

theorem trapReturn_memOk (s : State) (gi wi : Nat) (pc : D) (h : s.memOk = true) : (trapReturn s gi wi pc).memOk = true := by
  unfold trapReturn
  split
  · exact h
  · split
    · exact h
    · have h1 (a : Nat) := openArea_memOk s gi false a 16 h
      dsimp only
      split
      · split
        · exact putSplits_memOk _ _ _ _ (setWave_memOk _ _ _ _ (h1 _))
        · exact setWave_memOk _ _ _ _ (h1 _)
      · exact setWave_memOk _ _ _ _ (h1 _)

/-! ## Canonical memories: barrier objects -/

theorem dropCopies_memOk (s : State) (o : Loc) (h : s.memOk = true) : (dropCopies s o).memOk = true := by
  cases o with
  | mem k => exact memOk_congr s _ rfl rfl h
  | spad o => exact h

theorem putObj_memOk (s : State) (gi : Nat) (o : Loc) (off : Nat) (ws : List Nat) (h : s.memOk = true) :
    (s.putObj gi o off ws).memOk = true := dropCopies_memOk _ _ (writeLoc_memOk s gi _ _ h)

theorem sawPhase_memOk (s : State) (gi wi : Nat) (m : Mask) (o : Loc) (h : s.memOk = true) : (sawPhase s gi wi m o).memOk = true := by
  unfold sawPhase
  split
  · have h1 := modWave_memOk s gi wi (fun w => s.phaseSeen gi o w m) h
    dsimp only
    split
    · exact memOk_congr _ _ rfl rfl h1
    · exact h1
  · exact h

theorem releaseWave_memOk (s : State) (obj : Loc) (gi wi : Nat) (h : s.memOk = true) : (releaseWave s obj gi wi).memOk = true := by
  unfold releaseWave
  split
  · exact h
  · split
    · exact h
    · exact sawPhase_memOk _ _ _ _ _ (modWave_memOk _ _ _ _ (putSplits_memOk _ _ _ _ h))

theorem releaseAll_memOk (s : State) (gi : Nat) (obj : Loc) (h : s.memOk = true) : (releaseAll s gi obj).memOk = true := by
  refine foldl_keeps (fun t : State => t.memOk = true) _ (fun t gj ht => ?_) _ _ h
  split
  · exact ht
  · split
    · exact foldl_keeps (fun t : State => t.memOk = true) _ (fun t wj ht => releaseWave_memOk t _ _ _ ht) _ _ ht
    · exact ht

theorem completePhase_memOk (s : State) (gi : Nat) (obj : Loc) (h : s.memOk = true) : (completePhase s gi obj).memOk = true :=
  releaseAll_memOk _ _ _ (putObj_memOk s _ _ _ _ h)

/-- `Arrive(n)` keeps the memories canonical. -/
theorem arrive_memOk (s : State) (gi : Nat) (obj : Loc) (n : Nat) (h : s.memOk = true) : (arrive s gi obj n).memOk = true := by
  unfold arrive
  split
  · exact h
  · dsimp only
    split
    · exact completePhase_memOk _ _ _ (putObj_memOk s _ _ _ _ h)
    · split
      · exact completePhase_memOk _ _ _ (putObj_memOk s _ _ _ _ h)
      · exact putObj_memOk s _ _ _ _ h

/-! ## Canonical memories: settling a wave -/

theorem arriveIfAll_memOk (s : State) (gi wi : Nat) (h : s.memOk = true) : (arriveIfAll s gi wi).memOk = true := by
  unfold arriveIfAll
  split
  · split
    · exact h
    · dsimp only
      split
      · exact h
      · split
        · exact arrive_memOk _ _ _ _ (setWave_memOk _ _ _ _ h)
        · exact setWave_memOk _ _ _ _ (addReq_memOk _ _ _ _ _ _ _ _ h)
        · exact setWave_memOk _ _ _ _ h
  · exact h

theorem settleWave_memOk (s : State) (gi wi : Nat) (x : Bool) (h : s.memOk = true) : (settleWave s gi wi x).memOk = true := by
  unfold settleWave
  split
  · exact h
  · split
    · exact h
    · split
      · exact putSplits_memOk _ _ _ _ h
      · dsimp only
        split
        · exact modWave_memOk _ _ _ _ (putSplits_memOk _ _ _ _ h)
        · exact putSplits_memOk _ _ _ _ h

theorem settleGang_memOk (s : State) (gi : Nat) (h : s.memOk = true) : (settleGang s gi).memOk = true := by
  refine modGang_memOk s gi _ (fun g hg => ?_) h
  have hd (g : Gang) : g.dropFrames.spad = g.spad := by unfold Gang.dropFrames; split <;> rfl
  have key (x : Gang) (hx : x.spad.wf = true) : (if !x.waves.all (·.ended) then x
      else match x.st with
        | .running => { x.dropFrames with st := .ended }
        | .stopping _ => if x.dropFrames.quiet then { x.dropFrames with st := .ended } else x.dropFrames
        | _ => x : Gang).spad.wf = true := by
    repeat' split
    all_goals first | exact hx | exact (hd x).symm ▸ hx
  exact key _ (by split <;> exact hg)

/-- What follows a change of a wave's splits keeps the memories canonical. -/
theorem settle_memOk (s : State) (gi wi : Nat) (x : Bool) (h : s.memOk = true) : (settle s gi wi x).memOk = true :=
  settleGang_memOk _ _ (arriveIfAll_memOk _ _ _ (settleWave_memOk s gi wi x h))

theorem handlerDone_memOk (s : State) (gi wi : Nat) (h : s.memOk = true) : (handlerDone s gi wi).memOk = true := by
  unfold handlerDone
  split
  · exact h
  · split
    · exact h
    · split
      · exact h
      · split
        · exact h
        · exact trapReturn_memOk _ _ _ _ h

theorem exitLanes_memOk (s : State) (gi wi : Nat) (k : Bool) (m : Mask) (h : s.memOk = true) : (exitLanes s gi wi k m).memOk = true := by
  unfold exitLanes
  split
  · exact h
  · exact settle_memOk _ _ _ _ (handlerDone_memOk _ _ _ (putSplits_memOk _ _ _ _ h))

theorem afterMask_memOk (s : State) (gi wi : Nat) (k : Bool) (m : Mask) (h : s.memOk = true) : (afterMask s gi wi k m).memOk = true := by
  unfold afterMask
  split
  · exact h
  · dsimp only
    split
    · exact h
    · split
      · exact exitLanes_memOk _ _ _ _ _ h
      · split
        · exact settle_memOk _ _ _ _ (putSplits_memOk _ _ _ _ h)
        · exact h

theorem done_memOk (e : Env) (w : Wave) (h : e.s.memOk = true) : (e.done w).memOk = true :=
  afterMask_memOk _ _ _ _ _ (put_memOk e _ h)

/-- A word that stops keeps the memories canonical. -/
theorem stop_memOk (e : Env) (x : Stop) (h : e.s.memOk = true) : (e.stop x).memOk = true := by
  cases x with
  | trap t => exact takeTrap_memOk _ _ _ _ _ h
  | wait y => exact settle_memOk _ _ _ _ (block_memOk e y h)

/-- A word keeps the memories canonical if its own effect does. -/
theorem run_memOk (e : Env) (c : Chk State) (h : e.s.memOk = true) (hc : ∀ t, c = .ok t → t.memOk = true) :
    (e.run c).memOk = true := by
  cases c with
  | ok t => exact hc t rfl
  | error x => exact stop_memOk e x h

theorem onSplit_memOk (i : Instr) (s t : State) (f : Env → State) (h : s.memOk = true) (hn : onSplit i s f = .next t)
    (hf : ∀ e, e.s = s → e.s.memOk = true → (f e).memOk = true) : t.memOk = true := by
  obtain ⟨e, he, rfl⟩ := onSplit_next i s t f hn
  have hs := (env?_eq s _ e he).1
  exact hf e hs (hs ▸ h)

/-! ## Taking a trap -/

/-- Without a handler, or inside one, a trap ends the grid (R311). -/
theorem takeTrap_ends (s : State) (gi wi : Nat) (k : Bool) (t : Trap) (g : Gang) (w : Wave) (hg : s.gang? gi = some g)
    (hw : g.wave? wi = some w) (h : s.tbaseOf g = 0 ∨ w.trap.isSome = true) :
    takeTrap s gi wi k t = faultGrid s g.grid (faultRepOf g w t ((w.slot k).pc &&& ~~~(7 : D))) := by
  have : (s.tbaseOf g == 0 || w.trap.isSome) = true := by simpa using h
  unfold takeTrap
  simp only [hg, hw]
  exact if_pos this

theorem setTag_eq (s : State) (ctx line : Nat) (x : Option (List Byte)) :
    s.setTag ctx line x = { s with tags := ⟨line, ctx, s.genOf ctx, x⟩ :: s.tags.filter fun t => t.line != line } := rfl

/-- What a fill of a line changes. -/
theorem fillFrom_frame (t : State) (ctx : Nat) (b : Bool) (line : Nat) (x : List Byte) (w : Bool) :
    ∃ m tags olds, fillFrom t ctx b line x w = { t with mem := m, tags := tags, olds := olds } := by
  cases b
  · exact ⟨t.mem.write (128 * line) x, t.tags.filter fun y => y.line != line, t.olds.filter fun o => o.line != line, rfl⟩
  · simp only [fillFrom, if_true, setTag_eq]
    exact ⟨_, _, _, rfl⟩

/-- What an access to a line under its key changes. -/
theorem accessLine_frame (s : State) (ctx : Nat) (enc w : Bool) (line : Nat) :
    ∃ m tags olds llc n,
      accessLine s ctx enc w line = { s with mem := m, tags := tags, olds := olds, llc := llc, freeCtr := n } := by
  have key : ∃ m tags olds, keyLine s ctx enc w line = { s with mem := m, tags := tags, olds := olds } := by
    unfold keyLine
    repeat' split
    all_goals first
      | exact fillFrom_frame ..
      | exact ⟨s.mem, s.tags, s.olds, rfl⟩
      | exact ⟨s.mem, _, s.olds, rfl⟩
  obtain ⟨m, g, o, hk⟩ := key
  obtain ⟨l, n, hl⟩ := llcFill_eq (keyLine s ctx enc w line) line
  exact ⟨m, g, o, l, n, by rw [accessLine, hl, hk]⟩

theorem openArea_frame (s : State) (gi : Nat) (w : Bool) (key n : Nat) :
    ∃ m tags olds llc c,
      s.openArea gi w key n = { s with mem := m, tags := tags, olds := olds, llc := llc, freeCtr := c } := by
  unfold State.openArea
  split
  · refine foldl_keeps
      (fun u : State => ∃ m tags olds llc c, u = { s with mem := m, tags := tags, olds := olds, llc := llc, freeCtr := c }) _
      (fun u x ⟨m, g, o, l, c, hu⟩ => ?_) _ _ ⟨s.mem, s.tags, s.olds, s.llc, s.freeCtr, rfl⟩
    subst hu
    exact accessLine_frame _ _ _ _ _
  · exact ⟨s.mem, s.tags, s.olds, s.llc, s.freeCtr, rfl⟩

/-- With a handler and outside one, only the wave, memory, its poison marks and the keys of lines change (R309). -/
theorem takeTrap_frame (s : State) (gi wi : Nat) (k : Bool) (t : Trap) (g : Gang) (w : Wave) (hg : s.gang? gi = some g)
    (hw : g.wave? wi = some w) (h0 : (s.tbaseOf g == 0) = false) (h1 : w.trap = none) :
    ∃ v m b tags olds llc c, takeTrap s gi wi k t =
      ({ s with mem := m, memBad := b, tags := tags, olds := olds, llc := llc, freeCtr := c } : State).setWave gi wi v := by
  obtain ⟨m, tags, olds, llc, c, ht⟩ := openArea_frame s gi true (w.dsaddr + 2048).toNat 16
  simp only [takeTrap, hg, hw, h0, h1, Option.isSome_none, Bool.or_self, Bool.false_eq_true, if_false]
  split
  · exact ⟨_, s.mem, s.memBad, s.tags, s.olds, s.llc, s.freeCtr, rfl⟩
  · rw [ht]; exact ⟨_, _, _, _, _, _, _, rfl⟩

end Sys2Proof.Machine
end

