-- ==== Sys2Proof/Laws/Access.lean ====
section
/-! SUPPORT. Memory words at their issue (bookkeeping of lines and pages, parking, starting an operation) and operations as they
are performed: each keeps the canonical form of every memory. -/

namespace Sys2Proof.Machine

/-! ## At issue -/

theorem noteTag_memOk (s : State) (g : Gang) (w : Bool) (va n : Nat) (h : s.memOk = true) : (noteTag s g w va n).memOk = true := by
  unfold noteTag
  split
  · exact tagLines_memOk _ _ _ _ _ _ h
  · exact h

theorem noteTlb_memOk (s : State) (g : Gang) (va n : Nat) (h : s.memOk = true) : (noteTlb s g va n).memOk = true := by
  unfold noteTlb
  split
  · exact h
  · split
    · exact touchTlb_memOk _ _ _ _ _ _ h
    · exact h

theorem noteAccess_memOk (s : State) (g : Gang) (w : Want) (va n : Nat) (h : s.memOk = true) : (noteAccess s g w va n).memOk = true :=
  noteTag_memOk _ _ _ _ _ (noteTlb_memOk _ _ _ _ h)

theorem noteGo_memOk (s : State) (e : Env) (q : Ask) (go : List (Nat × Nat × Loc)) (h : s.memOk = true) :
    (noteGo s e q go).memOk = true := by
  unfold noteGo
  split
  · exact h
  · exact foldl_keeps (fun t : State => t.memOk = true) _ (fun t x ht => noteTlb_memOk t _ _ _ ht) _ _ h

theorem postParks_memOk (s : State) (e : Env) (kind acc : Nat) (xs : List (Nat × Nat)) (h : s.memOk = true) :
    (postParks s e kind acc xs).1.memOk = true := by
  refine foldl_keeps (fun r : State × List Park => r.1.memOk = true) _ (fun r x hr => ?_) xs (s, []) h
  unfold postPark
  dsimp only
  split
  · exact hr
  · exact addReq_memOk _ _ _ _ _ _ _ _ hr

theorem parkLanes_memOk (s : State) (e : Env) (m : Mask) (ps : List Park) (h : s.memOk = true) : (parkLanes s e m ps).memOk = true := by
  unfold parkLanes
  split
  · exact h
  · exact putSplits_memOk _ _ _ _ (setWave_memOk _ _ _ _ h)

theorem parkAll_memOk (e : Env) (kind acc va : Nat) (h : e.s.memOk = true) : (parkAll e kind acc va).memOk = true :=
  parkLanes_memOk _ _ _ _ (addReq_memOk _ _ _ _ _ _ _ _ h)

/-- A memory word that passes its checks keeps the memories canonical. -/
theorem memApply_memOk (e : Env) (m : MemWord) (r : Reached) (h : e.s.memOk = true) : (memApply e m r).memOk = true := by
  have h1 := postParks_memOk _ e 0 m.q.acc r.parked (noteGo_memOk e.s e m.q r.go h)
  have key (t : State) (pm : Mask) (ps : List Park) (v : Wave) (f : Wave → Wave) (ht : t.memOk = true) :
      (if (pm == e.act) = true then parkLanes t e pm ps
        else (if (pm == 0) = true then t.setWave e.gi e.wi v else parkLanes (t.setWave e.gi e.wi v) e pm ps).modWave e.gi e.wi f).memOk
        = true := by
    split
    · exact parkLanes_memOk _ _ _ _ ht
    · refine modWave_memOk _ _ _ _ ?_
      split
      · exact setWave_memOk _ _ _ _ ht
      · exact parkLanes_memOk _ _ _ _ (setWave_memOk _ _ _ _ ht)
  exact key _ _ _ _ _ h1

theorem memRun_memOk (e : Env) (m : MemWord) (idx : Src → Bool) (t : State) (h : e.s.memOk = true) (ht : memRun e m idx = .ok t) :
    t.memOk = true := by
  unfold memRun at ht
  cases hc : memCheck e m idx with
  | error x => rw [hc] at ht; cases ht
  | ok r =>
    rw [hc] at ht
    cases ht
    exact memApply_memOk e m r h

/-! ## As they are performed -/

theorem putLine_frame (s : State) (byre line : Nat) (b : List Byte) (n : Nat) :
    (putLine s byre line b n).mem = s.mem ∧ (putLine s byre line b n).gangs = s.gangs := by
  unfold putLine
  dsimp only
  split <;> exact ⟨rfl, rfl⟩

theorem fillLine_frame (s : State) (byre : Nat) (l : Loc) : (fillLine s byre l).mem = s.mem ∧ (fillLine s byre l).gangs = s.gangs := by
  cases l with
  | spad o => exact ⟨rfl, rfl⟩
  | mem k =>
    have key (t : State) (h : t.mem = s.mem ∧ t.gangs = s.gangs) (x line n : Nat) (b : List Byte) :
        (dropOlds (putLine t byre x b n) line).mem = s.mem ∧ (dropOlds (putLine t byre x b n) line).gangs = s.gangs :=
      ⟨(putLine_frame t byre x b n).1.trans h.1, (putLine_frame t byre x b n).2.trans h.2⟩
    unfold fillLine
    dsimp only
    split
    · exact key { s with fills := s.fills + 1 } ⟨rfl, rfl⟩ _ _ _ _
    · exact key { s.bump byre 4 1 with fills := s.fills + 1 } ⟨rfl, rfl⟩ _ _ _ _

theorem fillLine_memOk (s : State) (byre : Nat) (l : Loc) (h : s.memOk = true) : (fillLine s byre l).memOk = true :=
  memOk_congr s _ (fillLine_frame s byre l).1 (fillLine_frame s byre l).2 h

theorem fillLines_memOk (s : State) (byre : Nat) (ls : List Loc) (h : s.memOk = true) : (fillLines s byre ls).memOk = true :=
  foldl_keeps (fun t : State => t.memOk = true) _ (fun t _ ht => fillLine_memOk t byre _ ht) _ _ h

theorem fillLoad_memOk (s : State) (byre floor : Nat) (stale : Bool) (ls : List Loc) (h : s.memOk = true) :
    (fillLoad s byre floor stale ls).memOk = true := by
  unfold fillLoad
  split
  · exact fillLines_memOk _ _ _ h
  · refine foldl_keeps (fun t : State => t.memOk = true) _ (fun t k ht => ?_) _ _ h
    split
    · exact ht
    · exact memOk_congr (t.bump byre 4 1) _ (putLine_frame _ _ _ _ _).1 (putLine_frame _ _ _ _ _).2 (memOk_congr t _ rfl rfl ht)
    · exact fillLine_memOk _ _ _ ht

theorem putNum_memOk (s : State) (gi byre : Nat) (l : Loc) (n v : Nat) (h : s.memOk = true) : (putNum s gi byre l n v).memOk = true :=
  storeAs_memOk _ _ _ _ _ h

theorem atomLine_memOk (s : State) (byre : Nat) (o : MemOp) (l : Loc) (h : s.memOk = true) : (atomLine s byre o l).memOk = true := by
  unfold atomLine
  split
  · exact h
  · split
    · exact memOk_congr s _ rfl rfl h
    · split
      · exact h
      · exact fillLine_memOk _ _ _ h

theorem atomLane_memOk (s : State) (gi : Nat) (g : Gang) (o : MemOp) (a : Acc) (h : s.memOk = true) :
    (atomLane s gi g o a).1.memOk = true := by
  have h1 := atomLine_memOk s g.byreId o a.loc h
  unfold atomLane
  dsimp only
  split
  · split
    · exact h1
    · exact putNum_memOk _ _ _ _ _ _ h1
  · exact h1

theorem atomLanes_memOk (s : State) (gi : Nat) (g : Gang) (o : MemOp) (as : List Acc) (h : s.memOk = true) :
    (atomLanes s gi g o as).1.memOk = true := by
  induction as generalizing s with
  | nil => exact h
  | cons a as ih => exact ih _ (atomLane_memOk s gi g o a h)

theorem apndAll_memOk (s : State) (gi : Nat) (g : Gang) (o : MemOp) (as : List Acc) (h : s.memOk = true) :
    (apndAll s gi g o as).1.memOk = true := by
  cases as with
  | nil => exact h
  | cons a as =>
    have h1 := atomLine_memOk s g.byreId o a.loc h
    unfold apndAll
    dsimp only
    split
    · exact h1
    · exact putNum_memOk _ _ _ _ _ _ h1

theorem daddAll_memOk (s : State) (gi : Nat) (g : Gang) (o : MemOp) (as : List Acc) (h : s.memOk = true) :
    (daddAll s gi g o as).1.memOk = true :=
  storeAs_memOk _ _ _ _ _ (foldl_keeps (fun t : State => t.memOk = true) _ (fun t _ ht => atomLine_memOk t _ _ _ ht) as s h)

theorem noteAccs_memOk (s : State) (g : Gang) (w : Bool) (n : Nat) (as : List Acc) (h : s.memOk = true) :
    (noteAccs s g w n as).memOk = true := by
  refine foldl_keeps (fun t : State => t.memOk = true) _ (fun t a ht => ?_) _ _ h
  split
  · exact tagLines_memOk _ _ _ _ _ _ ht
  · exact ht

theorem access_memOk (s : State) (gi : Nat) (g : Gang) (w : Wave) (o : MemOp) (m : Mask) (stale : Bool) (h : s.memOk = true) :
    (access s gi g w o m stale).1.memOk = true := by
  have hn (b : Bool) (n : Nat) (as : List Acc) := noteAccs_memOk s g b n as h
  have hl (n : Nat) (as : List Acc) (c st : Bool) (ls : List Loc) :
      (if c then noteAccs s g false n as else fillLoad (noteAccs s g false n as) g.byreId o.floor st ls).memOk = true := by
    split
    · exact hn _ _ _
    · exact fillLoad_memOk _ _ _ _ _ (hn _ _ _)
  unfold access
  dsimp only
  split
  · exact hl _ _ _ _ _
  · exact apndAll_memOk _ _ _ _ _ (hn _ _ _)
  · exact daddAll_memOk _ _ _ _ _ (hn _ _ _)
  · split
    · exact hl _ _ _ _ _
    · exact atomLanes_memOk _ _ _ _ _ (hn _ _ _)

theorem opDone_memOk (s : State) (gi wi : Nat) (h : s.memOk = true) : (opDone s gi wi).memOk = true := by
  unfold opDone
  split
  · exact h
  · split
    · split
      · exact h
      · exact settle_memOk _ _ _ _ (handlerDone_memOk _ _ _ h)
    · split
      · exact h
      · exact arriveIfAll_memOk _ _ _ h

/-- Performing lanes of a load, an atomic or a stamped access keeps the memories canonical. -/
theorem writeback_memOk (s : State) (gi wi : Nat) (o : MemOp) (m : Mask) (stale : Bool) (h : s.memOk = true) :
    (writeback s gi wi o m stale).memOk = true := by
  unfold writeback
  split
  · exact h
  · split
    · exact h
    · rename_i g _ _ w _
      dsimp only
      have h1 := access_memOk s gi g w o (retLanes o m) stale h
      split
      · exact h
      · refine opDone_memOk _ _ _ ?_
        split
        · exact setWave_memOk _ _ _ _ h1
        · exact afterMask_memOk _ _ _ _ _ (setWave_memOk _ _ _ _ h1)

/-- Performing a store keeps the memories canonical. -/
theorem performStore_memOk (s : State) (gi wi : Nat) (o : MemOp) (h : s.memOk = true) : (performStore s gi wi o).memOk = true := by
  unfold performStore
  split
  · exact h
  · rename_i g _
    dsimp only
    refine opDone_memOk _ _ _ (modWave_memOk _ _ _ _ ?_)
    split
    · exact atomLanes_memOk _ _ _ _ _ (noteAccs_memOk s g true 8 o.accs h)
    · exact storeAs_memOk _ _ _ _ _ (noteAccs_memOk s g true (accLen o.kind) o.accs h)

end Sys2Proof.Machine
end

