-- ==== Sys2Proof/Laws/Encoding.lean ====
section
/-! SUPPORT. The parts of an encoding, each with its round trip: words and their fields, source and destination fields, codes of
`MOD` and `X`, address immediates, block operands. -/

namespace Sys2Proof

/-! ## Words and fields (R51) -/

theorem toNat_extract {n : Nat} (x : BitVec n) (s l : Nat) : (x.extractLsb' s l).toNat = x.toNat / 2 ^ s % 2 ^ l := by
  rw [BitVec.extractLsb'_toNat, Nat.shiftRight_eq_div_pow]

theorem bit_toNat {n : Nat} (x : BitVec n) (i : Nat) : (x.getLsbD i).toNat = x.toNat / 2 ^ i % 2 := by
  have : x.getLsbD i = x.toNat.testBit i := rfl
  rw [this, Nat.testBit_eq_decide_div_mod_eq]
  rcases Nat.mod_two_eq_zero_or_one (x.toNat / 2 ^ i) with h | h <;> rw [h] <;> rfl

@[simp] theorem Raw.ofWord_toWord (r : Raw) : Raw.ofWord r.toWord = r := by
  obtain ⟨op, mod, nw, d, a, b, c, x⟩ := r
  simp only [Raw.ofWord, Raw.toWord, Raw.mk.injEq]
  have h1 := op.isLt; have h2 := mod.isLt; have h3 := d.isLt; have h4 := a.isLt; have h5 := b.isLt; have h6 := c.isLt
  have h7 := x.isLt
  have h8 : nw.toNat < 2 := by cases nw <;> decide
  refine ⟨?_, ?_, ?_, ?_, ?_, ?_, ?_, ?_⟩
  case refine_3 =>
    have h : ∀ p q : Bool, p.toNat = q.toNat → p = q := by decide
    apply h
    rw [bit_toNat, BitVec.toNat_ofNat]
    norm_num only at *
    omega
  all_goals
    apply BitVec.eq_of_toNat_eq
    simp only [toNat_extract, BitVec.toNat_ofNat]
    norm_num only at *
    omega

theorem Raw.toWord_bit63 (r : Raw) : r.toWord.getLsbD 63 = false := by
  obtain ⟨op, mod, nw, d, a, b, c, x⟩ := r
  have h1 := op.isLt; have h2 := mod.isLt; have h3 := d.isLt; have h4 := a.isLt; have h5 := b.isLt; have h6 := c.isLt
  have h7 := x.isLt
  have h8 : nw.toNat < 2 := by cases nw <;> decide
  simp only [Raw.toWord]
  rw [BitVec.getLsbD_ofNat, Nat.testBit_lt_two_pow (by norm_num only at *; omega), Bool.and_false]

/-- The fields of a word with bit 63 clear make it up. -/
theorem Raw.toNat_ofWord (w : D) (h : w.getLsbD 63 = false) :
    w.toNat = (Raw.ofWord w).op.toNat * 2 ^ 55 + (Raw.ofWord w).mod.toNat * 2 ^ 52 + (Raw.ofWord w).nw.toNat * 2 ^ 51
      + (Raw.ofWord w).d.toNat * 2 ^ 43 + (Raw.ofWord w).a.toNat * 2 ^ 34 + (Raw.ofWord w).b.toNat * 2 ^ 25
      + (Raw.ofWord w).c.toNat * 2 ^ 16 + (Raw.ofWord w).x.toNat := by
  have hw := w.isLt
  have h63 : w.toNat / 2 ^ 63 % 2 = 0 := by rw [← bit_toNat, h]; rfl
  have hn := bit_toNat w 51
  simp only [Raw.ofWord, hn, toNat_extract]
  norm_num only at *
  omega

@[simp] theorem Raw.toWord_ofWord (w : D) (h : w.getLsbD 63 = false) : (Raw.ofWord w).toWord = w := by
  apply BitVec.eq_of_toNat_eq
  rw [Raw.toWord, BitVec.toNat_ofNat, ← Raw.toNat_ofWord w h, Nat.mod_eq_of_lt w.isLt]

/-! ## Source and destination fields (R53, R54) -/

@[simp] theorem LaneSpecial.ofCode_code (x : LaneSpecial) : LaneSpecial.ofCode x.code = some x := by cases x <;> rfl

@[simp] theorem Src.dec_enc (s : Src) : Src.dec s.enc = some s := by
  cases s with
  | v n => revert n; decide
  | s n => revert n; decide
  | f n => revert n; decide
  | x n => cases n <;> decide
  | k n => revert n; decide
  | l n => revert n; decide

theorem Src.enc_dec (f : BitVec 9) (s : Src) (h : Src.dec f = some s) : s.enc = f := by
  have key : ∀ f : BitVec 9, (match Src.dec f with | some s => decide (s.enc = f) | none => true) = true := by decide +kernel
  have := key f
  rw [h] at this
  exact of_decide_eq_true this

theorem srcF_ok_iff (cls : Src → Bool) (f : BitVec 9) (code : Nat) (s : Src) :
    srcF cls f code = .ok s ↔ f = s.enc ∧ cls s = true := by
  unfold srcF
  constructor
  · intro h
    split at h
    · rename_i s' hs
      split at h
      · cases h; exact ⟨(Src.enc_dec _ _ hs).symm, by assumption⟩
      · cases h
    · cases h
  · rintro ⟨rfl, h⟩; simp [h]

@[simp] theorem srcF_enc (cls : Src → Bool) (s : Src) (code : Nat) (h : cls s = true) : srcF cls s.enc code = .ok s := by
  rw [srcF_ok_iff]; exact ⟨rfl, h⟩

theorem VR.dec_enc : ∀ d : VR, d.enc.toNat < 0x80 ∧ d.enc.extractLsb' 0 7 = d := by decide +kernel
theorem SR.dec_enc : ∀ d : SR, isS8 d.enc.toNat = true ∧ d.enc.extractLsb' 0 6 = d := by decide +kernel
theorem FR.dec_enc : ∀ d : FR, 0xC0 ≤ d.enc.toNat ∧ d.enc.toNat < 0xD0 ∧ d.enc.extractLsb' 0 4 = d := by decide +kernel
theorem SR.dec_enc9 : ∀ d : SR, isS8 d.enc9.toNat = true ∧ d.enc9.extractLsb' 0 6 = d := by decide +kernel

theorem VR.enc_dec : ∀ f : BitVec 8, f.toNat < 0x80 → VR.enc (f.extractLsb' 0 7) = f := by decide +kernel
theorem SR.enc_dec : ∀ f : BitVec 8, isS8 f.toNat = true → SR.enc (f.extractLsb' 0 6) = f := by decide +kernel
theorem FR.enc_dec : ∀ f : BitVec 8, 0xC0 ≤ f.toNat → f.toNat < 0xD0 → FR.enc (f.extractLsb' 0 4) = f := by decide +kernel
theorem SR.enc9_dec : ∀ f : BitVec 9, isS8 f.toNat = true → SR.enc9 (f.extractLsb' 0 6) = f := by decide +kernel

/-- A vector destination. -/
theorem dV_ok_iff (r : Raw) (d : VR) : dV r = .ok d ↔ r.d = d.enc := by
  unfold dV
  constructor
  · intro h; split at h
    · cases h; exact (VR.enc_dec _ ‹_›).symm
    · cases h
  · intro h; rw [h, if_pos (VR.dec_enc d).1, (VR.dec_enc d).2]

theorem dVc_ok_iff (ok : VR → Bool) (r : Raw) (d : VR) : dVc ok r = .ok d ↔ r.d = d.enc ∧ ok d = true := by
  unfold dVc
  constructor
  · intro h; split at h
    · rename_i hc
      simp only [Bool.and_eq_true, decide_eq_true_eq] at hc
      cases h; exact ⟨(VR.enc_dec _ hc.1).symm, hc.2⟩
    · cases h
  · rintro ⟨h, ho⟩; simp [h, (VR.dec_enc d).1, (VR.dec_enc d).2, ho]

/-- A scalar destination. -/
theorem dS_ok_iff (r : Raw) (d : SR) : dS r = .ok d ↔ r.d = d.enc := by
  unfold dS
  constructor
  · intro h; split at h
    · cases h; exact (SR.enc_dec _ ‹_›).symm
    · cases h
  · intro h; rw [h, if_pos (SR.dec_enc d).1, (SR.dec_enc d).2]

theorem dSc_ok_iff (ok : SR → Bool) (r : Raw) (d : SR) : dSc ok r = .ok d ↔ r.d = d.enc ∧ ok d = true := by
  unfold dSc
  constructor
  · intro h; split at h
    · rename_i hc
      simp only [Bool.and_eq_true] at hc
      cases h; exact ⟨(SR.enc_dec _ hc.1).symm, hc.2⟩
    · cases h
  · rintro ⟨h, ho⟩; simp [h, (SR.dec_enc d).1, (SR.dec_enc d).2, ho]

/-- A future destination. -/
theorem dF_ok_iff (r : Raw) (d : FR) : dF r = .ok d ↔ r.d = d.enc := by
  unfold dF
  constructor
  · intro h; split at h
    · rename_i hc
      simp only [Bool.and_eq_true, decide_eq_true_eq] at hc
      cases h; exact (FR.enc_dec _ hc.1 hc.2).symm
    · cases h
  · intro h; simp [h, FR.dec_enc d]

/-- A mask triple in a source field. -/
theorem maskF_ok_iff (f : BitVec 9) (code : Nat) (d : SR) : maskF f code = .ok d ↔ f = d.enc9 ∧ SR.isMask d = true := by
  unfold maskF
  constructor
  · intro h; split at h
    · rename_i hc
      simp only [Bool.and_eq_true] at hc
      cases h; exact ⟨(SR.enc9_dec _ hc.1).symm, hc.2⟩
    · cases h
  · rintro ⟨rfl, h⟩; simp [SR.dec_enc9 d, h]

theorem chk_ok_iff (ok : Bool) (f : Nat) (u : Unit) : chk ok f = .ok u ↔ ok = true := by
  cases ok <;> simp [chk]

/-! ## Codes of `MOD` and `X` -/

@[simp] theorem VTy.ofCode_code (t : VTy) : VTy.ofCode t.code = some t := by cases t <;> rfl
@[simp] theorem Ty.ofCode_code (t : Ty) : Ty.ofCode t.code = some t := by cases t <;> rfl
@[simp] theorem Rm.ofCode_code (m : Rm) : Rm.ofCode m.code = some m := by cases m <;> rfl
@[simp] theorem Cop.ofCode_code (c : Cop) : Cop.ofCode c.code = some c := by cases c <;> rfl

theorem VTy.code_lt (t : VTy) : t.code < 8 := by cases t <;> decide
theorem Ty.code_lt (t : Ty) : t.code < 16 := by cases t <;> decide
theorem Rm.code_lt (m : Rm) : m.code < 8 := by cases m <;> decide
theorem Cop.code_lt (c : Cop) : c.code < 8 := by cases c <;> decide

theorem VTy.code_ofCode (n : Nat) (t : VTy) (h : VTy.ofCode n = some t) : t.code = n := by
  unfold VTy.ofCode at h; split at h <;> cases h <;> rfl

theorem Ty.code_ofCode (n : Nat) (t : Ty) (h : Ty.ofCode n = some t) : t.code = n := by
  unfold Ty.ofCode at h; split at h <;> cases h <;> rfl

theorem Rm.code_ofCode (n : Nat) (m : Rm) (h : Rm.ofCode n = some m) : m.code = n := by
  unfold Rm.ofCode at h; split at h <;> cases h <;> rfl

theorem Cop.code_ofCode (n : Nat) (c : Cop) (h : Cop.ofCode n = some c) : c.code = n := by
  unfold Cop.ofCode at h; split at h <;> cases h <;> rfl

theorem mTy_ok_iff (ok : VTy → Bool) (r : Raw) (t : VTy) : mTy ok r = .ok t ↔ r.mod.toNat = t.code ∧ ok t = true := by
  unfold mTy
  constructor
  · intro h
    split at h
    · rename_i t' ht
      split at h
      · cases h; exact ⟨(VTy.code_ofCode _ _ ht).symm, by assumption⟩
      · cases h
    · cases h
  · rintro ⟨h, ho⟩; simp [h, ho]

theorem m01_ok_iff (r : Raw) (b : Bool) : m01 r = .ok b ↔ r.mod.toNat = b.toNat := by
  have key : ∀ (m : BitVec 3) (b : Bool),
      (if m == 0 then (.ok false : Dec Bool) else if m == 1 then .ok true else badMod) = .ok b ↔ m.toNat = b.toNat := by decide
  exact key r.mod b

theorem mIs_ok_iff (n : Nat) (r : Raw) (u : Unit) : mIs n r = .ok u ↔ r.mod.toNat = n := by
  unfold mIs
  by_cases h : r.mod.toNat = n <;> simp [h, badMod]

theorem xmF_ok_iff (hi : Nat) (ok : Xm → Bool) (r : Raw) (m : Xm) (hhi : hi < 256) :
    xmF hi ok r = .ok m ↔ r.x = m.enc hi ∧ ok m = true := by
  have hx := r.x.isLt
  have hr := m.rm.code_lt
  have hs : m.sat.toNat < 2 := by cases m.sat <;> decide
  have hbit := bit_toNat r.x 3
  unfold xmF
  constructor
  · intro h
    split at h
    · rename_i rm hrm
      have hc := Rm.code_ofCode _ _ hrm
      simp only at h
      split at h
      · rename_i hk
        simp only [Bool.and_eq_true, beq_iff_eq] at hk
        cases h
        refine ⟨?_, hk.2⟩
        apply BitVec.eq_of_toNat_eq
        simp only [Xm.enc, BitVec.toNat_ofNat, hbit, hc]
        norm_num only at *
        omega
      · cases h
    · cases h
  · rintro ⟨h, ho⟩
    have hv : r.x.toNat = hi * 256 + m.sat.toNat * 8 + m.rm.code := by
      rw [h, Xm.enc, BitVec.toNat_ofNat]; norm_num only at *; omega
    have h1 : r.x.toNat % 8 = m.rm.code := by omega
    have h2 : r.x.getLsbD 3 = m.sat := by
      have : (r.x.getLsbD 3).toNat = m.sat.toNat := by rw [hbit]; omega
      revert this; cases r.x.getLsbD 3 <;> cases m.sat <;> simp
    rw [h1, Rm.ofCode_code]
    simp only [h2]
    have h3 : r.x.toNat / 256 = hi := by omega
    have h4 : r.x.toNat / 16 % 16 = 0 := by omega
    have ho' : ok ⟨m.sat, m.rm⟩ = true := ho
    simp [h3, h4, ho']

/-! ## Immediates and blocks (R59, R166, R188) -/

@[simp] theorem i34_parts (i : BitVec 34) (op : BitVec 8) (mod : BitVec 3) (nw : Bool) (d : BitVec 8) (a : BitVec 9) :
    (⟨op, mod, nw, d, a, i34b i, i34c i, i34x i⟩ : Raw).i34 = i := by
  apply BitVec.eq_of_toNat_eq
  have h := i.isLt
  simp only [Raw.i34, i34b, i34c, i34x, toNat_extract, BitVec.toNat_ofNat]
  norm_num only at *
  omega

theorem i34b_i34 (r : Raw) : i34b r.i34 = r.b := by
  apply BitVec.eq_of_toNat_eq
  have h1 := r.b.isLt; have h2 := r.c.isLt; have h3 := r.x.isLt
  simp only [Raw.i34, i34b, toNat_extract, BitVec.toNat_ofNat]
  norm_num only at *
  omega

theorem i34c_i34 (r : Raw) : i34c r.i34 = r.c := by
  apply BitVec.eq_of_toNat_eq
  have h1 := r.b.isLt; have h2 := r.c.isLt; have h3 := r.x.isLt
  simp only [Raw.i34, i34c, toNat_extract, BitVec.toNat_ofNat]
  norm_num only at *
  omega

theorem i34x_i34 (r : Raw) : i34x r.i34 = r.x := by
  apply BitVec.eq_of_toNat_eq
  have h1 := r.b.isLt; have h2 := r.c.isLt; have h3 := r.x.isLt
  simp only [Raw.i34, i34x, toNat_extract, BitVec.toNat_ofNat]
  norm_num only at *
  omega

theorem bool_eq_of_toNat {p q : Bool} (h : p.toNat = q.toNat) : p = q := by revert p q; decide

/-- An address immediate is read back (R166). -/
@[simp] theorem I25.dec_enc (i : I25) : I25.dec i.encC i.encX = some i := by
  cases i with
  | spad scale ord disp =>
    have h1 := scale.isLt; have h2 := disp.isLt
    have h3 : ord.toNat < 2 := by cases ord <;> decide
    have hs : (I25.encC (.spad scale ord disp)).extractLsb' 7 2 = 1 := by
      apply BitVec.eq_of_toNat_eq
      show _ = 1
      simp only [toNat_extract, I25.encC, BitVec.toNat_ofNat]
      norm_num only at *
      omega
    have hc : (I25.encC (.spad scale ord disp)).extractLsb' 5 2 = scale := by
      apply BitVec.eq_of_toNat_eq
      simp only [toNat_extract, I25.encC, BitVec.toNat_ofNat]
      norm_num only at *
      omega
    have ho : (I25.encC (.spad scale ord disp)).getLsbD 4 = ord := by
      apply bool_eq_of_toNat
      simp only [bit_toNat, I25.encC, BitVec.toNat_ofNat]
      norm_num only at *
      omega
    have hd : BitVec.ofNat 20 ((I25.encC (.spad scale ord disp)).toNat % 16 * 65536 + (I25.encX (.spad scale ord disp)).toNat)
        = disp := by
      apply BitVec.eq_of_toNat_eq
      simp only [I25.encC, I25.encX, BitVec.toNat_ofNat]
      norm_num only at *
      omega
    simp only [I25.dec, hs, hc, ho, hd]
    rfl
  | glob hay scale col ord scope disp =>
    have h1 := scale.isLt; have h2 := col.isLt; have h3 := ord.isLt; have h4 := scope.isLt; have h5 := disp.isLt
    obtain ⟨y, hy, hy2⟩ : ∃ y : Nat, y = (if hay then 256 else 0) ∧ (y = 0 ∧ hay = false ∨ y = 256 ∧ hay = true) := by
      cases hay <;> simp
    have hs : ((I25.encC (.glob hay scale col ord scope disp)).extractLsb' 7 2).toNat = y / 128 := by
      simp only [toNat_extract, I25.encC, BitVec.toNat_ofNat, ← hy]
      norm_num only at *
      omega
    have hc : (I25.encC (.glob hay scale col ord scope disp)).extractLsb' 5 2 = scale := by
      apply BitVec.eq_of_toNat_eq
      simp only [toNat_extract, I25.encC, BitVec.toNat_ofNat, ← hy]
      norm_num only at *
      omega
    have hl : (I25.encC (.glob hay scale col ord scope disp)).extractLsb' 2 3 = col := by
      apply BitVec.eq_of_toNat_eq
      simp only [toNat_extract, I25.encC, BitVec.toNat_ofNat, ← hy]
      norm_num only at *
      omega
    have ho : (I25.encC (.glob hay scale col ord scope disp)).extractLsb' 0 2 = ord := by
      apply BitVec.eq_of_toNat_eq
      simp only [toNat_extract, I25.encC, BitVec.toNat_ofNat, ← hy]
      norm_num only at *
      omega
    have hp : (I25.encX (.glob hay scale col ord scope disp)).extractLsb' 13 3 = scope := by
      apply BitVec.eq_of_toNat_eq
      simp only [toNat_extract, I25.encX, BitVec.toNat_ofNat]
      norm_num only at *
      omega
    have hd : (I25.encX (.glob hay scale col ord scope disp)).extractLsb' 0 12 = disp := by
      apply BitVec.eq_of_toNat_eq
      simp only [toNat_extract, I25.encX, BitVec.toNat_ofNat]
      norm_num only at *
      omega
    have hx : (I25.encX (.glob hay scale col ord scope disp)).getLsbD 12 = false := by
      apply bool_eq_of_toNat
      simp only [bit_toNat, I25.encX, BitVec.toNat_ofNat, Bool.toNat_false]
      norm_num only at *
      omega
    have hs2 : (I25.encC (.glob hay scale col ord scope disp)).extractLsb' 7 2 = if hay then 2 else 0 := by
      apply BitVec.eq_of_toNat_eq
      rw [hs]
      rcases hy2 with ⟨h, h'⟩ | ⟨h, h'⟩ <;> rw [h, h'] <;> rfl
    simp only [I25.dec, hs2, hc, hl, ho, hp, hd, hx]
    cases hay <;> rfl

/-- Fields `C` and `X` that hold an address immediate are its encoding. -/
theorem I25.enc_dec (c : BitVec 9) (x : BitVec 16) (i : I25) (h : I25.dec c x = some i) : i.encC = c ∧ i.encX = x := by
  have hc := c.isLt; have hx := x.isLt
  have b7 := toNat_extract c 7 2
  unfold I25.dec at h
  simp only at h
  split at h
  · rename_i hs
    have hs : c.extractLsb' 7 2 = 1 := by simpa using hs
    have h4 := bit_toNat c 4
    cases h
    have b7 : c.toNat / 2 ^ 7 % 2 ^ 2 = 1 := by rw [← b7, hs]; rfl
    constructor <;> apply BitVec.eq_of_toNat_eq <;>
      simp only [I25.encC, I25.encX, toNat_extract, BitVec.toNat_ofNat, h4] <;> norm_num only at * <;> omega
  · rename_i hs
    split at h
    · cases h
    · rename_i hn
      simp only [Bool.or_eq_true, beq_iff_eq, not_or, Bool.not_eq_true] at hn
      have h12 : x.toNat / 2 ^ 12 % 2 = 0 := by rw [← bit_toNat, hn.2]; rfl
      have hlt := (c.extractLsb' 7 2).isLt
      have ne1 : (c.extractLsb' 7 2).toNat ≠ 1 := fun he => hs (by simp [BitVec.eq_of_toNat_eq (y := 1#2) he])
      have ne3 : (c.extractLsb' 7 2).toNat ≠ 3 := fun he => hn.1 (BitVec.eq_of_toNat_eq he)
      cases h
      obtain ⟨y, hy, hy2⟩ : ∃ y : Nat, y = (if c.extractLsb' 7 2 == 2 then 256 else 0) ∧
          y = (c.extractLsb' 7 2).toNat * 128 := by
        by_cases he : c.extractLsb' 7 2 = 2
        · exact ⟨256, by simp [he], by rw [he]; rfl⟩
        · have : (c.extractLsb' 7 2).toNat ≠ 2 := fun h => he (BitVec.eq_of_toNat_eq h)
          exact ⟨0, (if_neg fun h => he (beq_iff_eq.mp h)).symm, by norm_num only at *; omega⟩
      constructor <;> apply BitVec.eq_of_toNat_eq <;>
        simp only [I25.encC, I25.encX, toNat_extract, BitVec.toNat_ofNat, ← hy] <;> norm_num only at * <;> omega

@[simp] theorem Member.mall_lt (m : Member) : m.mall < 2 := by cases m <;> simp [Member.mall]

/-- A block form's `X`: BSP, slot or bank, displacement (R188, R210). -/
theorem Blk.x_parts (b : Blk) (s : BitVec 2) :
    (b.x s).getLsbD 15 = b.bsp ∧ (b.x s).extractLsb' 13 2 = s ∧ (b.x s).getLsbD 12 = false ∧ (b.x s).extractLsb' 0 12 = b.disp := by
  have h1 := s.isLt; have h2 := b.disp.isLt
  have h3 : b.bsp.toNat < 2 := by cases b.bsp <;> decide
  refine ⟨?_, ?_, ?_, ?_⟩
  · apply bool_eq_of_toNat
    simp only [bit_toNat, Blk.x, BitVec.toNat_ofNat]
    norm_num only at *
    omega
  · apply BitVec.eq_of_toNat_eq
    simp only [toNat_extract, Blk.x, BitVec.toNat_ofNat]
    norm_num only at *
    omega
  · apply bool_eq_of_toNat
    simp only [bit_toNat, Blk.x, BitVec.toNat_ofNat, Bool.toNat_false]
    norm_num only at *
    omega
  · apply BitVec.eq_of_toNat_eq
    simp only [toNat_extract, Blk.x, BitVec.toNat_ofNat]
    norm_num only at *
    omega

end Sys2Proof
end

