-- ==== Sys2Proof/Laws/Lanes.lean ====
section
/-! SUPPORT. Lanes and masks: what `maskOf`, `lanesOf` and the lane-by-lane results of vector words hold in each lane. -/

namespace Sys2Proof.Machine

theorem laneList_eq : laneList = List.range 96 := by decide

@[simp] theorem mem_laneList (l : Nat) : l ∈ laneList ↔ l < 96 := by rw [laneList_eq]; exact List.mem_range

@[simp] theorem laneList_length : laneList.length = 96 := by rw [laneList_eq]; exact List.length_range

theorem laneList_get (l : Nat) (h : l < 96) : laneList[l]? = some l := by rw [laneList_eq]; simp [h]

theorem oneBit (i l : Nat) (hl : l < 96) : (BitVec.ofNat 96 (2 ^ i)).getLsbD l = decide (i = l) := by
  rw [BitVec.getLsbD_ofNat, Nat.testBit_two_pow, decide_eq_true hl, Bool.true_and]

theorem maskFold_getLsbD (p : Nat → Bool) (xs : List Nat) (l : Nat) (hl : l < 96) :
    (xs.foldr (fun l acc => if p l then acc ||| BitVec.ofNat 96 (2 ^ l) else acc) (0 : Mask)).getLsbD l
      = (decide (l ∈ xs) && p l) := by
  induction xs with
  | nil => simp
  | cons x xs ih =>
    simp only [List.foldr_cons, List.mem_cons]
    by_cases hp : p x = true
    · rw [if_pos hp, BitVec.getLsbD_or, ih, oneBit x l hl]
      by_cases h : x = l
      · subst h; simp [hp]
      · have h2 : ¬ l = x := fun h' => h h'.symm
        simp [h, h2]
    · rw [if_neg hp, ih]
      by_cases h : l = x
      · subst h; simp [hp]
      · simp [h]

/-- A mask made from a test holds exactly the lanes that meet it. -/
theorem maskOf_getLsbD (p : Nat → Bool) (l : Nat) (hl : l < 96) : (maskOf p).getLsbD l = p l := by
  rw [maskOf, maskFold_getLsbD p laneList l hl]; simp [hl]

/-- Two masks with the same lanes are one. -/
theorem mask_ext (a b : Mask) (h : ∀ l, l < 96 → a.getLsbD l = b.getLsbD l) : a = b := BitVec.eq_of_getLsbD_eq fun i hi => h i hi

theorem maskOf_false : maskOf (fun _ => false) = 0 := mask_ext _ _ fun l hl => by rw [maskOf_getLsbD _ _ hl]; simp

@[simp] theorem mem_lanesOf (m : Mask) (l : Nat) : l ∈ lanesOf m ↔ l < 96 ∧ m.getLsbD l = true := by simp [lanesOf]

/-- The lane results of a word that works lane by lane. -/
theorem lanesOut_get (f : VecIn → Nat → LaneOut) (x : VecIn) (l : Nat) (hl : l < 96) :
    (lanesOut f x)[l]? = some (if x.act.getLsbD l then f x l else pure1 0) := by
  simp [lanesOut, laneList_get l hl]

@[simp] theorem lanesOut_length (f : VecIn → Nat → LaneOut) (x : VecIn) : (lanesOut f x).length = 96 := by simp [lanesOut]

theorem fpLanes_getLsbD (m : Flags) (rs : List LaneOut) (l : Nat) (hl : l < 96) :
    (fpLanes m rs).getLsbD l = (match rs[l]? with | some r => r.fl &&& m != 0 | none => false) := maskOf_getLsbD _ l hl

theorem badLanes_getLsbD (rs : List LaneOut) (l : Nat) (hl : l < 96) :
    (badLanes rs).getLsbD l = (match rs[l]? with | some r => r.bad | none => false) := maskOf_getLsbD _ l hl

/-- While no floating-point trap is enabled no lane raises one (R91). -/
@[simp] theorem fpLanes_zero (rs : List LaneOut) : fpLanes 0 rs = 0 := mask_ext _ _ fun l hl => by
  rw [fpLanes_getLsbD 0 rs l hl]
  cases rs[l]? <;> simp

end Sys2Proof.Machine
end

