-- ==== Sys2Proof/Tests/Slice0.lean ====
section
/-! SUPPORT. Tests: an ill-formed term for each well-formedness check, words written out from the manual's encodings and examples,
values from the manual's worked tables, and for every statement states and operands that meet its hypotheses. -/

set_option Elab.async false

namespace Sys2Proof.Tests

open Sys2Proof.Machine Sys2Proof.Claims

/-! ## Small machines -/

/-- A wave of eight vector registers at its start, in slot 0. -/
def wave0 : Wave := startWave 0 0 0 8 0 0x10000 0x4000 0 0

/-- A code page and a data page (R301). -/
def pages : List Extent :=
  [⟨0x10000, 0x10000, 0x10000, true, false, true, false, none⟩, ⟨0x20000, 0x10000, 0x20000, true, false, false, false, none⟩]

/-- A privileged gang of that one wave, with a Churn. -/
def gangOf (w : Wave) : Gang := { placedGang 0 with vcount := 8, waves := [w], exts := pages }

/-- The machine after reset with one gang, and its context. -/
def one (g : Gang) : State := { State.reset with gangs := [g], ctxs := [placedCtx] }

/-- The issuing split of `one g`, about to run `i`. -/
def envOf (g : Gang) (i : Instr) : Env := ⟨one g, 0, 0, false, g, (g.waves.head?).getD wave0, (encode i).getD 0⟩

/-- `s8:s9` hold a data address, `s10:s11` another, `s12:s13` a misaligned one, `s14:s15` one that no page maps. -/
def based (w : Wave) : Wave :=
  { w with sregs := setAt (setAt (setAt (setAt w.sregs 8 0x20000) 10 0x20100) 12 0x20004) 14 0x90000 }

/-- The wave with only lane 0 in ACT. -/
def lane0 (w : Wave) : Wave := { w with slot0 := { w.slot0 with act := 1, um := 1 } }

/-- A check passes with a result that meets `p`. -/
def okAnd {α : Type} (c : Chk α) (p : α → Bool) : Bool :=
  match c with
  | .ok x => p x
  | .error _ => false

theorem okAnd_elim {α : Type} {c : Chk α} {p : α → Bool} (h : okAnd c p = true) : ∃ x, c = .ok x ∧ p x = true := by
  cases c with
  | ok x => exact ⟨x, rfl, h⟩
  | error y => simp [okAnd] at h

theorem isOk_elim {α : Type} {c : Chk α} (h : okAnd c (fun _ => true) = true) : ∃ x, c = .ok x :=
  let ⟨x, hx, _⟩ := okAnd_elim h
  ⟨x, hx⟩

end Sys2Proof.Tests

/-! ## Well-formedness: one ill-formed term for each check -/

namespace Sys2Proof.Tests

open Sys2Proof.Machine Sys2Proof.Claims

/-- Operand classes, pairs and triples, modifiers, bit fields, segments, the address immediate and block operands each refuse a
term, and pair words break each of their rules (R57, R60, R62, R98, R129, R166, R188). -/
def illFormed : List Instr :=
  let m : Xm := ⟨false, .rne⟩
  let i : I25 := .glob false 0 0 0 0 0
  let h (p : PairOp) (t : VTy) (nw : Bool) (d : BitVec 8) (b : Option Src) (x : BitVec 4) : Half := ⟨p, t, nw, d, b, x⟩
  [.sadd false false 3 (.v 4) (.imm 1),                                   -- class GS: a vector register
   .sadd false false 3 (.s 4) (.reg (.x .lid)),                           -- class GS: a lane special
   .smov false 3 (.v 1),                                                  -- class GS or F
   .smoviP 3 0,                                                           -- odd pair
   .saddp 2 (.s 5) (.imm 0),                                              -- odd source pair
   .vadd .s32 false 1 (.f 2) (.v 3) m,                                    -- class GV: a future
   .vadd .s32 false 1 (.v 2) (.v 3) ⟨false, .rz⟩,                         -- integer words do not round
   .vabs .u32 false 1 (.v 2) false,                                       -- type
   .vabs .f32 false 1 (.v 2) true,                                        -- SAT of a floating type
   .vfma .s32 false 1 (.v 2) (.v 3) (.v 4) m,                             -- floating types only
   .vcmp .s32 .un 4 (.v 1) (.v 2),                                        -- UN of an integer type
   .vcmp .s32 .eq 58 (.v 1) (.v 2),                                       -- a triple above s57
   .vsel false 1 (.v 2) (.v 3) 61,                                        -- a triple within the views
   .sbfx true false 3 (.s 4) 31 1,                                        -- a field beyond bit 31
   .vmovi .f16 false 1 0x10000,                                           -- an immediate beyond its type
   .vrmax .f32 false 1 (.v 2) 7,                                          -- segment code 7
   .vcvt .s32 .f32 false 1 (.v 2) ⟨false, .sr⟩,                           -- SR towards an integer
   .vqnt .l6 false 1 (.v 2) (.v 3) ⟨false, .sr⟩,                          -- SR towards L6
   .vplane .h4 false 1 (.k 0),                                            -- a constant read as an H format
   .vshfl true false 1 (.v 2) (.v 3) (.triple 59),                        -- member triple
   .vbfly .x false 1 (.v 2) 0 .all,                                       -- butterfly distance 0
   .vscan .f32 .and false 0 m false 1 (.v 2) .all,                        -- bitwise over a floating type
   .xvec 5,                                                               -- odd vector pair
   .scvt 0 false 3 (.s 4) .sr,                                            -- scalar conversion with SR
   .smask true (.and 4 8 12),                                             -- NW with a triple
   .vld .b32 1 (.s 5) (.v 2) i,                                           -- base of a global operand: odd pair
   .vld .b32 1 (.s 4) (.v 2) (.glob false 0 0 2 0 0),                     -- ORD of a load
   .vld .b32 1 (.s 4) (.v 2) (.glob false 0 3 0 0 0),                     -- COL of a load
   .vld .b32 1 (.s 4) (.v 2) (.glob false 0 0 0 2 0),                     -- SCOPE without ORD
   .vatom .add 1 (.s 4) (.v 2) (.glob false 0 0 1 6 0),                   -- SCOPE above 5
   .vst .b32 1 (.s 4) (.v 2) (.glob true 0 0 0 0 0),                      -- a store to the Hayloft
   .vapnd 1 (.s 4) (.glob false 1 0 0 0 0),                               -- SCALE without an index
   .trgput 1 (.s 4) i,                                                    -- a trough outside the scratchpad
   .vldw 125 (.s 4) (.v 2) i,                                             -- four registers from v125
   .vldp 1 (.s 4) (.v 2) i,                                               -- odd vector pair of a load
   .fence 6 0,                                                            -- SCOPE above 5
   .copyt 1 ⟨false, .s 5, 0⟩,                                             -- block base: odd pair
   .copy 1 false 3 (.s 4) (.s 6) (.k 0) 0,                                -- space code 3
   .cspec false 4 true 1 true 1,                                          -- two maps onto one bank
   .cmma true 1 ⟨false, .x .zero, 0⟩ 0,                                   -- tile base
   .mts 0x20 (.k 0),                                                      -- class S
   .clkrdTime 3,                                                          -- odd pair
   .pairWord (h .vadd .s32 false 1 (some (.v 5)) 0) (h .vadd .s32 false 2 (some (.v 9)) 0),  -- one bank twice
   .pairWord (h .vmov .s32 false 1 (some (.v 2)) 0) (h .vmov .s32 false 1 (some (.v 3)) 0),  -- one destination twice
   .pairWord (h .vand .u32 false 1 (some (.v 2)) 0) (h .pnop .s32 false 0 none 0),           -- type of a half
   .pairWord (h .pnop .s32 true 0 none 0) (h .pnop .s32 false 0 none 0),                     -- NW of PNOP
   .pairWord (h .vmov .s32 false 0x85 (some (.v 2)) 0) (h .pnop .s32 false 0 none 0),        -- class of a half's D
   .pairWord (h .smov .s32 false 0x85 (some (.v 2)) 0) (h .pnop .s32 false 0 none 0),        -- class of a half's B
   .pairWord (h .vmov .s32 false 1 (some (.v 2)) 3) (h .pnop .s32 false 0 none 0)]           -- IMM4 beside B

theorem test_ill_formed_terms_are_refused : ∀ i ∈ illFormed, i.wf = false := by decide +kernel

theorem test_ill_formed_terms_have_neighbours :
    (Instr.sadd false false 3 (.s 4) (.imm 1)).wf = true ∧ (Instr.smoviP 2 0).wf = true ∧
    (Instr.vld .b32 1 (.s 4) (.v 2) (.glob false 0 0 1 2 0)).wf = true ∧ (Instr.vldw 124 (.s 4) (.v 2) (.spad 0 false 0)).wf = true ∧
    (Instr.sbfx true false 3 (.s 4) 31 0).wf = true ∧ (Instr.vcmp .f32 .un 57 (.v 1) (.v 2)).wf = true := by decide

/-! ## Decoding: words of the manual's own examples, and words written out field by field -/

/-- A full-form word from its fields (R51): OP, MOD, NW, D, A, B, C, X. -/
def wordOf (op md nw d a b c x : Nat) : D :=
  BitVec.ofNat 64 (op * 2 ^ 55 + md * 2 ^ 52 + nw * 2 ^ 51 + d * 2 ^ 43 + a * 2 ^ 34 + b * 2 ^ 25 + c * 2 ^ 16 + x)

/-- Words printed in the manual's examples, family by family, with the instruction that each stands for. -/
def printed : List (D × Instr) :=
  [(0x00441A1000000064, .sadd false false 3 (.s 4) (.imm 100)),
   (0x1000024000020002, .brv false 16 2 2),
   (0x1780000000000000, .nop),
   (0x28201005188D0000, .vfma .f32 false 2 (.v 1) (.s 12) (.s 13) ⟨false, .rne⟩),
   (0x18201C0200000000, .vadd .f32 false 3 (.l 0) (.l 0) ⟨false, .rne⟩),
   (0x18002815C0000000, .vadd .s32 false 5 (.v 5) (.k 0) ⟨false, .rne⟩),
   (0x1E802815C2000000, .vshl false false 5 (.v 5) (.k 1)),
   (0x3891402800008503, .vbcastI false 40 (.v 10) 3 5 .all),
   (0x3C00005000000000, .xvec 20),
   (0x7004200000000020, .mfs false 4 0x20),
   (0x7080021400000020, .mts 0x20 (.s 5)),
   (0x42046345A2800004, .sld (some .b32) 12 (.x .zero) (.x .zero) (.spad 0 false 4)),
   (0x40801A19A0400000, .vst .b32 3 (.s 6) (.x .lid) (.glob false 2 0 0 0 0)),
   (0x5090000000000001, .xfence 1 .c .v),
   (0x5A06034508E54000, .copy 0 true 0 (.x .zero) (.s 4) (.k 5) 0),
   (0x60160A2000000000, .cmma true 1 ⟨false, .s 8, 0⟩ 0),
   (0x6406122000002000, .relld 2 ⟨false, .s 8, 0⟩ 1),
   (0x6586222400000000, .accept 4 (.s 9)),
   (0x71060A2000000000, .hayfill 1 ⟨false, .s 8, 0⟩),
   (0x7284A00000000000, .clkrdTime 20),
   (0x7580022114000000, .fltresOk (.s 8) (.s 10)),
   (0x71960A21148C0000, .tlbinv .pkg 1 (.s 8) (.s 10) (.s 12)),
   (0x15A60A2114000002, .launch .pod 1 (.s 8) (.s 10) 2),
   (0x67061A51A2000000, .cscale 3 (.s 20) (.x .zero) 0 .rne),
   (0x6106223000000000, .cstore 4 ⟨false, .s 12, 0⟩ 0),
   (0x4910124002606000, .daddA 2 (.s 16) (.v 1) (.glob false 3 0 0 3 0)),
   (0x48801A4002600000, .dld 3 (.s 16) (.v 1) (.glob false 3 0 0 0 0)),
   (0x5D860A8000000000, .topk 1 ⟨false, .s 32, 0⟩),
   (0x3E905829A4008600, .vtopk .u32 6 false 11 (.v 10) (.x .ones) .all),
   (0x5280028800000000, .bar (.s 34) (.glob false 0 0 0 0 0)),
   (0x0E95E2F150000000, .smask false (.and 60 60 40)),
   (0x44404A400C406000, .vatom .or 9 (.s 16) (.v 6) (.glob false 2 0 0 3 0)),
   (0x4700522000006000, .vapnd 10 (.s 8) (.glob false 0 0 0 3 0)),
   (0x520002293E000000, .barw (.s 10) (.s 31) (.glob false 0 0 0 0 0)),
   (0x2920008042010000, .vfnma .f32 false 0 (.v 32) (.v 33) (.v 1) ⟨false, .rne⟩),
   (0x3881008542BC0500, .vbcast false 32 (.v 33) (.s 33) 5 (.triple 60)),
   (0x22A54099A2000300, .vcmp .f32 .le 40 (.v 38) (.x .zero)),
   (0x34A138004C000000, .vrsq .f32 false 39 (.v 38)),
   (0x5C860AB000008000, .xsect 1 ⟨true, .s 44, 0⟩),
   (0x09053B454EA80000, .ssel false 39 (.x .zero) (.s 39) (.s 40)),
   (0x4604C345A2800080, .satom .add 24 (.x .zero) (.x .zero) (.spad 0 false 128)),
   (0x8340347008008001, .pairWord ⟨.vadd, .f32, false, 3, some (.s 14), 0⟩ ⟨.vaddi, .s32, false, 4, none, 1⟩)]

theorem test_printed_words_decode : ∀ p ∈ printed, decodeWord p.1 = .ok p.2 := by decide +kernel

/-- Scalar and control words, by the fields of their rows (R97-R116). -/
def laidOutScalar : List (D × Instr) :=
  [(wordOf 0x00 0 0 0x83 0x084 0x085 0 0, .sadd false false 3 (.s 4) (.reg (.s 5))),
   (wordOf 0x01 5 1 0x83 0x084 0 0 0xFFFF, .ssub true true 3 (.s 4) (.imm 0xFFFF)),
   (wordOf 0x02 1 0 0x83 0x084 0x0E1 0 0, .smul true false 3 (.s 4) (.reg (.k 1))),
   (wordOf 0x03 0 0 0x83 0x084 0x085 0 0, .smulh false false 3 (.s 4) (.reg (.s 5))),
   (wordOf 0x04 1 0 0x83 0x084 0x085 0 0, .sdiv true false 3 (.s 4) (.reg (.s 5))),
   (wordOf 0x05 4 0 0x83 0x084 0 0 7, .srem false false 3 (.s 4) (.imm 7)),
   (wordOf 0x06 0 0 0x83 0x084 0x085 0 0, .smin false false 3 (.s 4) (.reg (.s 5))),
   (wordOf 0x07 1 0 0x83 0x084 0x085 0 0, .smax true false 3 (.s 4) (.reg (.s 5))),
   (wordOf 0x08 0 0 0x83 0x084 0x085 0 0, .sand false false 3 (.s 4) (.reg (.s 5))),
   (wordOf 0x09 0 0 0x83 0x084 0x0D2 0 0, .sor false false 3 (.s 4) (.reg (.x .ones))),
   (wordOf 0x0A 0 0 0x83 0x084 0x085 0 0, .sxor false false 3 (.s 4) (.reg (.s 5))),
   (wordOf 0x0B 0 0 0x83 0x084 0x100 0 0, .sandn false false 3 (.s 4) (.reg (.l 0))),
   (wordOf 0x0C 4 0 0x83 0x084 0 0 31, .sshl false false 3 (.s 4) (.imm 31)),
   (wordOf 0x0D 0 0 0x83 0x084 0x085 0 0, .sshr false false 3 (.s 4) (.reg (.s 5))),
   (wordOf 0x0E 0 0 0x83 0x084 0x085 0 0, .srot false false 3 (.s 4) (.reg (.s 5))),
   (wordOf 0x0F 0 0 0x83 0x0C7 0 0 0, .smov false 3 (.f 7)),
   (wordOf 0x10 0 0 0x83 0 0x040 0x001 0x0002, .smovi false 3 0x80010002),
   (wordOf 0x10 1 0 0x84 0 0x100 0x000 0x0001, .smoviP 4 0x200000001),
   (wordOf 0x11 3 0 0x83 0x084 0x085 0 0, .scmp .sle false 3 (.s 4) (.s 5)),
   (wordOf 0x13 0 0 0x83 0x084 0 0 0, .sclz false 3 (.s 4)),
   (wordOf 0x14 0 0 0x83 0x084 0 0 0, .spopc false 3 (.s 4)),
   (wordOf 0x15 1 0 0x83 0x084 0 0 0x0064, .sbfx true false 3 (.s 4) 4 3),
   (wordOf 0x16 0 0 0x83 0x084 0x085 0 0x0064, .sbfi false 3 (.s 4) (.s 5) 4 3),
   (wordOf 0x17 1 0 0x84 0x086 0x089 0 0, .saddp 4 (.s 6) (.sext (.s 9))),
   (wordOf 0x18 1 0 0x84 0x086 0x089 0 3, .slea true 4 (.s 6) (.s 9) 3),
   (wordOf 0x18 2 0 0x84 0 0 0 8, .sleaPc 4 8),
   (wordOf 0x19 5 0 0x84 0x083 0 0 0, .sext .u32 false 4 (.s 3)),
   (wordOf 0x1A 2 0 0x83 0x084 0 0 1, .scvt 2 false 3 (.s 4) .rz),
   (wordOf 0x1B 2 0 0x83 0x084 0x085 0 0, .sfadd false 3 (.s 4) (.s 5) .rne),
   (wordOf 0x1C 2 0 0x83 0x084 0x085 0 3, .sfmul false 3 (.s 4) (.s 5) .rd),
   (wordOf 0x1E 0 0 0x83 0x084 0x086 0 0, .scmpp .eq false 3 (.s 4) (.s 6)),
   (wordOf 0x21 0 0 0 0 0x1FF 0x1FF 0xFFFE, .bra (-2)),
   (wordOf 0x22 0 0 0 0 0 0 0, .join),
   (wordOf 0x23 0 0 0xB0 0 0 0 4, .call 48 4),
   (wordOf 0x23 1 0 0xB0 0x0B2 0 0 0, .callR 48 (.s 50)),
   (wordOf 0x24 0 0 0 0x0B0 0 0 0, .ret (.s 48)),
   (wordOf 0x25 0 0 0 0 0 0 0, .exit),
   (wordOf 0x26 0 0 0 0 0 0 0x00FD, .trap 0xFD),
   (wordOf 0x27 0 0 0 0 0 0 0, .eret),
   (wordOf 0x27 1 0 0 0 0 0 0, .eretNext),
   (wordOf 0x28 2 0 0 0 0 0 63, .waitc .st 63),
   (wordOf 0x29 0 0 0 0 0 0 0, .yield),
   (wordOf 0x2A 0 0 0xC1 0x088 0 0 0, .spawn 1 (.s 8)),
   (wordOf 0x2C 0 0 0xC1 0x088 0 0 0, .cancel 1 (.s 8)),
   (wordOf 0x2D 0 0 0 0x088 0 0 0, .stepadv (.s 8)),
   (wordOf 0x2E 0 0 0 0x088 0 0 0, .brx (.s 8))]

theorem test_scalar_words_decode : ∀ p ∈ laidOutScalar, instrOf p.1 = p.2 := by decide +kernel

/-- Vector words (R121-R138). -/
def laidOutVector : List (D × Instr) :=
  [(wordOf 0x31 0 0 5 1 2 0 8, .vsub .s32 false 5 (.v 1) (.v 2) ⟨true, .rne⟩),
   (wordOf 0x32 3 0 5 1 2 0 4, .vmul .f16 false 5 (.v 1) (.v 2) ⟨false, .sr⟩),
   (wordOf 0x33 1 0 5 1 2 0 0, .vmulh true false 5 (.v 1) (.v 2)),
   (wordOf 0x34 0 0 5 1 2 3 8, .vmad false false 5 (.v 1) (.v 2) (.v 3) true),
   (wordOf 0x35 1 0 5 1 2 0 0, .vmin .u32 false 5 (.v 1) (.v 2)),
   (wordOf 0x36 2 0 5 1 2 0 0, .vmax .f32 false 5 (.v 1) (.v 2)),
   (wordOf 0x37 0 0 5 0 2 0 8, .vabs .s32 false 5 (.v 2) true),
   (wordOf 0x38 4 0 5 0 2 0 0, .vneg .bf16 false 5 (.v 2) false),
   (wordOf 0x39 0 0 5 1 2 0 0, .vand false 5 (.v 1) (.v 2)),
   (wordOf 0x3A 0 0 5 1 2 0 0, .vor false 5 (.v 1) (.v 2)),
   (wordOf 0x3B 0 0 5 1 2 0 0, .vxor false 5 (.v 1) (.v 2)),
   (wordOf 0x3C 0 1 5 1 2 0 0, .vandn true 5 (.v 1) (.v 2)),
   (wordOf 0x3E 1 0 5 1 2 0 0, .vshr true false 5 (.v 1) (.v 2)),
   (wordOf 0x3F 0 0 5 1 2 0 0, .vrot false 5 (.v 1) (.v 2)),
   (wordOf 0x40 0 0 5 0 2 0 0, .vclz false 5 (.v 2)),
   (wordOf 0x41 0 0 5 0 2 0 0, .vpopc false 5 (.v 2)),
   (wordOf 0x42 0 0 5 0 2 0 0x03E0, .vbfx false false 5 (.v 2) 0 31),
   (wordOf 0x43 0 0 5 1 2 0 0x001F, .vbfi false 5 (.v 1) (.v 2) 31 0),
   (wordOf 0x44 0 0 5 1 2 0x088 0, .vsel false 5 (.v 1) (.v 2) 8),
   (wordOf 0x46 0 0 5 0 0x0D0 0 0, .vmov false 5 (.x .lid)),
   (wordOf 0x47 0 0 5 0 0 0x001 0x0002, .vmovi .s32 false 5 0x10002),
   (wordOf 0x48 2 0 5 1 2 3 0, .vdot4 .s8u8 false 5 (.v 1) (.v 2) (.v 3) ⟨false, .rne⟩),
   (wordOf 0x49 1 0 5 1 2 3 0, .vsad true false 5 (.v 1) (.v 2) (.v 3) false),
   (wordOf 0x4A 0 0 5 1 2 0 0, .vavg false false 5 (.v 1) (.v 2)),
   (wordOf 0x4B 1 0 5 1 2 0 0, .vdiv true false 5 (.v 1) (.v 2)),
   (wordOf 0x4C 0 0 5 1 2 0 0, .vrem false false 5 (.v 1) (.v 2)),
   (wordOf 0x4D 1 0 5 1 2 3 0, .vaddc true false 5 (.v 1) (.v 2) (.v 3)),
   (wordOf 0x4E 2 0 5 1 2 3 0, .vclmp .f32 false 5 (.v 1) (.v 2) (.v 3)),
   (wordOf 0x51 2 0 5 1 2 3 0, .vfms .f32 false 5 (.v 1) (.v 2) (.v 3) ⟨false, .rne⟩),
   (wordOf 0x53 2 0 5 1 2 0 2, .vfdiv .f32 false 5 (.v 1) (.v 2) ⟨false, .ru⟩),
   (wordOf 0x54 2 0 5 0 2 0 0, .vsqrt .f32 false 5 (.v 2) .rne),
   (wordOf 0x55 2 0 5 0 2 0 1, .vrint .f32 false 5 (.v 2) .rz),
   (wordOf 0x56 2 0 5 0 2 0 0, .vfrac .f32 false 5 (.v 2) .rne),
   (wordOf 0x57 2 0 5 0 2 0 0, .vclass .f32 false 5 (.v 2)),
   (wordOf 0x58 2 0 5 1 2 0 0x0100, .vsgnj .f32 .neg false 5 (.v 1) (.v 2)),
   (wordOf 0x59 2 0 5 1 2 0 0, .vscale .f32 false 5 (.v 1) (.v 2) ⟨false, .rne⟩),
   (wordOf 0x5A 2 0 5 0 2 0 0, .vexpo .f32 false 5 (.v 2)),
   (wordOf 0x5B 2 0 5 1 0 0 0x0600, .vrmax .f32 false 5 (.v 1) 6),
   (wordOf 0x5C 2 0 5 1 0 0 0x0500, .vrmin .f32 false 5 (.v 1) 5),
   (wordOf 0x5D 2 0 5 1 0 0 0x0000, .vradd .f32 false 5 (.v 1) 0 ⟨false, .rne⟩),
   (wordOf 0x5E 4 0 5 1 2 3 0, .vdot2 .bf16 false 5 (.v 1) (.v 2) (.v 3) ⟨false, .rne⟩),
   (wordOf 0x5F 2 0 5 1 2 3 0, .vlerp .f32 false 5 (.v 1) (.v 2) (.v 3) ⟨false, .rne⟩),
   (wordOf 0x60 0 0 5 0 2 0 0x0320, .vcvt .f16 .f32 false 5 (.v 2) ⟨false, .rne⟩),
   (wordOf 0x61 5 0 5 1 2 0 0x0100, .vpack (.e4m3 true) false 5 (.v 1) (.v 2) ⟨false, .rne⟩),
   (wordOf 0x62 6 0 5 0 2 0 0x0300, .vunpk (.e5m2 3) false 5 (.v 2)),
   (wordOf 0x63 0 0 5 1 2 0 0x0500, .vqnt .e4m3 false 5 (.v 1) (.v 2) ⟨false, .rne⟩),
   (wordOf 0x64 0 0 5 1 2 0 0x0600, .vdqnt .e5m2 false 5 (.v 1) (.v 2) .rne),
   (wordOf 0x65 0 0 5 0 2 0 0x0E00, .vplane .h4 false 5 (.v 2)),
   (wordOf 0x66 0 0 5 0 2 0 0x0E00, .vunpl .h4 false 5 (.v 2)),
   (wordOf 0x67 0 0 5 0 2 0 0x0500, .vbscl .e4m3 false 5 (.v 2)),
   (wordOf 0x68 2 0 5 0 2 0 0, .vrcp .f32 false 5 (.v 2)),
   (wordOf 0x6A 2 0 5 0 2 0 0, .vexp2 .f32 false 5 (.v 2)),
   (wordOf 0x6B 2 0 5 0 2 0 0, .vlog2 .f32 false 5 (.v 2)),
   (wordOf 0x6C 2 0 5 0 2 0 0, .vsin .f32 false 5 (.v 2)),
   (wordOf 0x6D 2 0 5 0 2 0 0, .vcos .f32 false 5 (.v 2)),
   (wordOf 0x6E 2 0 5 0 2 0 0, .vtanh .f32 false 5 (.v 2)),
   (wordOf 0x6F 2 0 5 0 2 0 0, .verf .f32 false 5 (.v 2))]

theorem test_vector_words_decode : ∀ p ∈ laidOutVector, instrOf p.1 = p.2 := by decide +kernel

/-- Cross-lane and memory words (R144-R160, R166-R186). -/
def laidOutLanesMemory : List (D × Instr) :=
  [(wordOf 0x70 1 0 5 1 2 0 0x8000, .vshfl true false 5 (.v 1) (.v 2) .all),
   (wordOf 0x72 0 0 5 1 0 0 0x8010, .vbfly .x false 5 (.v 1) 16 .all),
   (wordOf 0x73 0 0 5 1 2 0x088 0x0000, .vrotl false 5 (.v 1) (.v 2) 0 (.triple 8)),
   (wordOf 0x74 3 0 0x88 1 0 0 0x8000, .vvote .ballot 8 (.v 1) .all),
   (wordOf 0x75 0 0 5 1 0 0 0xC000, .vscan .s32 .add true 0 ⟨false, .rne⟩ false 5 (.v 1) .all),
   (wordOf 0x76 1 0 5 1 0 0 0x8E00, .vrdc .u32 .max 6 ⟨false, .rne⟩ false 5 (.v 1) .all),
   (wordOf 0x77 0 0 5 1 0x088 0 0x8000, .vcprs 0 false 5 (.v 1) 8 .all),
   (wordOf 0x79 0 0 5 1 0 0 0x8000, .vmatch false 5 (.v 1) .all),
   (wordOf 0x7A 2 0 5 0 0 0 0, .rng true false 5),
   (wordOf 0x7B 2 0 5 1 2 0 0, .vgumb false 5 (.v 1) (.v 2)),
   (wordOf 0x7C 2 0 5 1 0 0 0x8000, .vsmpl 0 false 5 (.v 1) .all),
   (wordOf 0x7E 2 0 5 1 0 0 0, .vbern .f32 false 5 (.v 1)),
   (wordOf 0x80 2 0 5 0x088 2 0x0A0 0x0004, .vld .s8 5 (.s 8) (.v 2) (.spad 1 false 4)),
   (wordOf 0x82 0 0 4 0x088 2 0x101 0x4FFF, .illegalWord (wordOf 0x82 0 0 4 0x088 2 0x101 0x4FFF) 2 9 false),
   (wordOf 0x82 0 0 4 0x088 2 0x001 0x4FFF, .vldp 4 (.s 8) (.v 2) (.glob false 0 0 1 2 0xFFF)),
   (wordOf 0x83 0 0 4 0x088 2 0x01E 0x4000, .vstp 4 (.s 8) (.v 2) (.glob false 0 7 2 2 0)),
   (wordOf 0x84 5 0 0x84 0x088 0x0D1 0 0, .sld none 4 (.s 8) (.x .zero) (.glob false 0 0 0 0 0)),
   (wordOf 0x85 1 0 0x84 0x088 0x0D1 0 0, .sst (some .b8) 4 (.s 8) (.x .zero) (.glob false 0 0 0 0 0)),
   (wordOf 0x86 0 0 5 0x088 0x089 0x100 0, .vldu .b32 5 (.s 8) (.s 9) (.glob true 0 0 0 0 0)),
   (wordOf 0x87 1 0 0 0x088 2 0 0, .vpref true (.s 8) (.v 2) (.glob false 0 0 0 0 0)),
   (wordOf 0x89 0 0 4 0x088 2 0 0x6000, .vcas 4 (.s 8) (.v 2) (.glob false 0 0 0 3 0)),
   (wordOf 0x8A 2 0 4 0x088 2 0x003 0x4000, .vatomp .umax 4 (.s 8) (.v 2) (.glob false 0 0 3 2 0)),
   (wordOf 0x8B 0 0 4 0x088 2 0 0x2000, .vcasp 4 (.s 8) (.v 2) (.glob false 0 0 0 1 0)),
   (wordOf 0x8D 0 0 0x84 0x088 0x0D1 0 0xA000, .scas 4 (.s 8) (.x .zero) (.glob false 0 0 0 5 0)),
   (wordOf 0x8F 0 0 4 0x088 2 0 0, .vldw 4 (.s 8) (.v 2) (.glob false 0 0 0 0 0)),
   (wordOf 0x90 0 0 4 0x088 2 0 0, .vstw 4 (.s 8) (.v 2) (.glob false 0 0 0 0 0)),
   (wordOf 0x92 0 0 5 0x088 2 0 0, .dadd 5 (.s 8) (.v 2) (.glob false 0 0 0 0 0)),
   (wordOf 0x93 0 0 4 0x002 0x006 0 0, .smerge false 4 (.v 2) (.v 6)),
   (wordOf 0x94 0 0 4 0x088 2 0 0, .dst 4 (.s 8) (.v 2) (.glob false 0 0 0 0 0)),
   (wordOf 0x95 0 0 4 0x001 0 0 0xF, .dstamp false 4 (.v 1) 15),
   (wordOf 0xA0 2 0 0 0 0 0 0x00FF, .fence 2 0xFF),
   (wordOf 0xA2 0 0 0x84 0x088 0 0x080 0x0010, .bari 4 (.s 8) (.spad 0 false 16)),
   (wordOf 0xA3 0 0 0x84 0x088 0x0E0 0 0, .bara 4 (.s 8) (.k 0) (.glob false 0 0 0 0 0)),
   (wordOf 0xA6 0 0 0x84 0x088 0 0 0, .barq 4 (.s 8) (.glob false 0 0 0 0 0)),
   (wordOf 0xA7 0 0 5 0x088 0 0x080 0x0040, .trgput 5 (.s 8) (.spad 0 false 64)),
   (wordOf 0xA8 0 0 5 0x088 0 0x080 0x0040, .trgget 5 (.s 8) (.spad 0 false 64)),
   (wordOf 0xA9 0 0 0x84 0x088 0 0x080 0x0040, .trgtry 4 (.s 8) (.spad 0 false 64)),
   (wordOf 0xAA 0 0 0 0 0 0 0, .htake),
   (wordOf 0xAB 0 0 0 0x084 0 0 0, .hpass (.s 4))]

theorem test_lane_and_memory_words_decode : ∀ p ∈ laidOutLanesMemory, instrOf p.1 = p.2 := by decide +kernel

/-- Engine, Churn, label and system words (R188-R206, R210-R250, R294-R319), and two illegal words (R65, R67). -/
def laidOutEngines : List (D × Instr) :=
  [(wordOf 0xB0 0 0 0x84 0x0C3 0 0 0, .ftest 4 (.f 3)),
   (wordOf 0xB1 0 0 0x84 0x088 0 0x080 0x0008, .fwait 4 (.s 8) (.spad 0 false 8)),
   (wordOf 0xB2 0 0 0 0x0C3 0 0 0, .fcancel (.f 3)),
   (wordOf 0xB3 0 0 0xC3 0x088 0 0x080 0x0008, .fsth 3 (.s 8) (.spad 0 false 8)),
   (wordOf 0xB5 0 0 0xC1 0x088 0 0 0x8040, .copyt 1 ⟨true, .s 8, 0x40⟩),
   (wordOf 0xB6 0 0 0xC1 0x088 0 0 0, .binopen 1 ⟨false, .s 8, 0⟩),
   (wordOf 0xB7 1 0 0xC1 0x088 2 4 0, .binapp true 1 (.s 8) (.v 2) (.v 4)),
   (wordOf 0xB8 0 0 0xC1 0x088 0 0 0, .binplay 1 ⟨false, .s 8, 0⟩),
   (wordOf 0xBA 0 0 0xC1 0x088 0 0 0, .smergeu 1 ⟨false, .s 8, 0⟩),
   (wordOf 0xBC 0 0 0xC1 0x088 0 0 0, .cvtcsr 1 ⟨false, .s 8, 0⟩),
   (wordOf 0xBC 1 0 0xC1 0x088 0 0 0, .cvtres 1 ⟨false, .s 8, 0⟩),
   (wordOf 0xBD 0 0 0xC1 0x088 0 0 0, .taskput 1 ⟨false, .s 8, 0⟩),
   (wordOf 0xBE 0 0 0xC1 0x088 0 0 0, .stsweep 1 ⟨false, .s 8, 0⟩),
   (wordOf 0xBF 0 0 0xC1 0x088 0 0 0, .rinv 1 ⟨false, .s 8, 0⟩),
   (wordOf 0xC1 3 0 0xC1 0x088 0 0 0x4000, .cmmas .s14 true 1 ⟨false, .s 8, 0⟩ 2),
   (wordOf 0xC3 0 0 0xC1 0x088 0 0 0x2000, .cload 1 ⟨false, .s 8, 0⟩ 1),
   (wordOf 0xC4 0 0 0xC1 0 0 0 0x6000, .czero 1 3),
   (wordOf 0xC5 1 0 0xC1 0 0 0 0x2800, .cmova true 1 1 1),
   (wordOf 0xC6 0 0 0x84 0 0 0 0x0005, .cspec false 4 true 2 false 0),
   (wordOf 0xC7 0 0 0 0x0C1 0 0 0, .cresolve (.f 1)),
   (wordOf 0xC9 0 0 0xC1 0x088 0x089 0 0x2000, .lblsum 1 ⟨false, .s 8, 0⟩ 1 (.s 9)),
   (wordOf 0xCA 0 0 0x84 0x088 0x08A 0x08B 3, .draft false 4 (.s 8) (.s 10) (.s 11) 3),
   (wordOf 0xCC 0 0 5 0 0x089 0 0x2000, .crdv false 5 (.s 9) 1),
   (wordOf 0xCD 0 0 5 0 0x089 0 0x2000, .cwrv 5 (.s 9) 1),
   (wordOf 0xCF 1 0 0xC1 0x088 0 0 0x2000, .cepi true 1 (.s 8) 1),
   (wordOf 0xD0 0 0 4 0x088 2 0 0, .lblld 4 (.s 8) (.v 2) (.glob false 0 0 0 0 0)),
   (wordOf 0xD0 1 0 4 0x088 0x089 0 0, .lblldAdm 4 ⟨false, .s 8, 0⟩ (.s 9)),
   (wordOf 0xD1 0 0 4 0x088 2 0 0, .lblst 4 (.s 8) (.v 2) (.glob false 0 0 0 0 0)),
   (wordOf 0xD2 0 0 0x84 0 0 0 0, .cquery false 4),
   (wordOf 0xE4 1 0 0xC1 0x088 0x08A 0 0, .icinv true 1 (.s 8) (.s 10)),
   (wordOf 0xE5 1 0 0x84 0 0 0 0, .clkrdCyc 4),
   (wordOf 0xE6 0 0 0x84 0 0x089 0 0, .perfrd 4 (.s 9)),
   (wordOf 0xE7 0 0 0 0x088 0x089 0 0, .perfcfg (.s 8) (.s 9)),
   (wordOf 0xE8 1 0 0xC1 0 0x089 0 0, .ctxsave true 1 (.s 9)),
   (wordOf 0xE9 0 0 0xC1 0 0x089 0 0, .ctxload false 1 (.s 9)),
   (wordOf 0xEA 0 0 0xC1 0x088 0 0 0, .shtblSet 1 (.s 8)),
   (wordOf 0xEA 2 0 0xC1 0 0 0 0, .shtblFlush true 1),
   (wordOf 0xEB 1 0 0 0x088 0x089 0 0, .fltresDeny (.s 8) (.s 9)),
   (wordOf 0xEC 0 0 0x84 0x088 0x08A 0 0, .idlew 4 (.s 8) (.s 10)),
   (wordOf 0x30 5 0 0 0 0 0 0, .illegalWord (wordOf 0x30 5 0 0 0 0 0 0) 1 4 false),
   (wordOf 0x7F 0 0 0 0 0 0 0, .illegalWord (wordOf 0x7F 0 0 0 0 0 0 0) 0 2 false)]

theorem test_engine_and_system_words_decode : ∀ p ∈ laidOutEngines, instrOf p.1 = p.2 := by decide +kernel

theorem test_third_form_is_illegal : instrOf 0xC000000000000000 = .illegalWord 0xC000000000000000 2 1 false := by decide +kernel

theorem test_table_words : decodeTableWord 64 0x00441A1000000064 = some (.sadd false false 3 (.s 4) (.imm 100)) ∧
    decodeTableWord 64 0 = none := by decide +kernel

end Sys2Proof.Tests
/-! ## States that meet the statements' hypotheses: vector and scalar words -/

namespace Sys2Proof.Tests

open Sys2Proof.Machine Sys2Proof.Claims

theorem passes_of {cs : List (Chk Unit)} (h : (cs.all fun c => decide (c = .ok ())) = true) : Passes cs :=
  fun c hc => of_decide_eq_true (List.all_eq_true.mp h c hc)

theorem issues_one (i : Instr) (g : Gang) (w : Wave) (h : g.waves = [w]) : Issues i (one g) (envOf g i) := by
  simp [Issues, State.env?, State.gang?, Gang.wave?, one, envOf, State.reset, h]

theorem issues_gangOf (i : Instr) (w : Wave) : Issues i (one (gangOf w)) (envOf (gangOf w) i) := issues_one i (gangOf w) w rfl

theorem issues_st (i : Instr) (s : State) (g : Gang) (w : Wave) (hs : s.gangs = [g]) (hc : s.cur = ⟨0, 0, false⟩) (hg : g.waves = [w]) :
    Issues i s { envOf g i with s := s } := by
  simp [Issues, State.env?, State.gang?, Gang.wave?, envOf, hs, hc, hg]

/-- One word of every integer row of `vecOf`. -/
def vecSamples : List Instr :=
  let m : Xm := ⟨false, .rne⟩
  let a : Src := .v 1
  let b : Src := .v 2
  let c : Src := .v 3
  [.vadd .s32 false 5 a b m, .vsub .u32 false 5 a b ⟨true, .rne⟩, .vmul .s32 true 5 a (.s 3) m, .vmulh true false 5 a b,
   .vmad false false 5 a b c true, .vmin .s32 false 5 a b, .vmax .f32 false 5 a b, .vabs .s32 false 5 b true, .vneg .f32 false 5 b false,
   .vand false 5 a b, .vor false 5 a b, .vxor false 5 a b, .vandn false 5 a b, .vshl true false 5 a (.k 4), .vshr false false 5 a b,
   .vrot false 5 a b, .vclz false 5 b, .vpopc false 5 b, .vbfx true false 5 b 31 0, .vbfi false 5 a b 0 31, .vmov false 5 b,
   .vmovi .s32 false 5 7, .vavg true false 5 a b, .vdiv true false 5 a (.k 0), .vrem false false 5 a (.k 0), .vaddc true false 5 a b c,
   .vclmp .s32 false 5 a b c, .vsel false 5 a b 57]

/-- One word of every row of `vecOf` that rounds or converts. -/
def vecSamplesFloat : List Instr :=
  let m : Xm := ⟨false, .rne⟩
  let a : Src := .v 1
  let b : Src := .v 2
  let c : Src := .v 3
  [.vclass .f32 false 5 b, .vsgnj .f32 .neg false 5 a b, .vexpo .f32 false 5 (.k 0), .vfma .f32 false 5 a b c m, .vfms .f16 false 5 a b c m,
   .vfnma .bf16 false 5 a b c m, .vfdiv .f32 false 5 a (.k 0) m, .vsqrt .f32 false 5 b .rne, .vrint .f32 false 5 b .rz,
   .vfrac .f32 false 5 b .rne, .vscale .f32 false 5 a b m, .vlerp .f32 false 5 a b c m, .vrmax .f32 false 5 a 0, .vrmin .f32 false 5 a 6,
   .vradd .f32 false 5 a 5 m, .vdot4 .s8 false 5 a b c m, .vdot2 .f16 false 5 a b c m, .vsad true false 5 a b c false,
   .vrcp .f32 false 5 (.k 0), .vrsq .f32 false 5 (.k 0), .vexp2 .f32 false 5 b, .vlog2 .f32 false 5 (.k 0), .vsin .f32 false 5 b,
   .vcos .f32 false 5 b, .vtanh .f32 false 5 b, .verf .f32 false 5 b, .vcvt .f16 .f32 false 5 b m, .vpack .f16 false 5 a b m,
   .vunpk (.f16 true) false 5 b, .vqnt .e4m3 false 5 a b m, .vdqnt .e5m2 false 5 a b .rne, .vplane .h4 false 5 b, .vunpl .h4 false 5 b,
   .vbscl .e4m3 false 5 b]

/-- One word of every cross-lane and sampling row of `vecOf`. -/
def vecSamplesLanes : List Instr :=
  let m : Xm := ⟨false, .rne⟩
  let a : Src := .v 1
  let b : Src := .v 2
  [.vshfl true false 5 a b .all, .vbcast false 5 a b 0 (.triple 60), .vbcastI false 5 a 95 6 .all, .vrotl false 5 a b 0 .all,
   .vbfly .x false 5 a 1 .all, .vmatch false 5 a .all, .vscan .s32 .add true 0 m false 5 a .all, .vrdc .s32 .max 6 m false 5 a .all,
   .rng true false 5, .vgumb false 5 a b, .vbern .f32 false 5 a, .vsmpl 0 false 5 (.k 0) .all, .vtopk .u32 6 false 5 a (.k 4) .all, .vcprs 5 false 5 a 60 .all]

/-- The hypotheses of `VectorWordCompletes` for one word, but for its flags. -/
def vecMeets (i : Instr) : Bool :=
  i.wf &&
  match vecOf i with
  | some v => okAnd (vecCheck (envOf (gangOf wave0) i) v) fun _ => true
  | none => false

/-- No trap is enabled in `wave0`, so the flags trap nothing: every hypothesis holds together. -/
theorem vecMeets_elim (i : Instr) (h : vecMeets i = true) :
    ∃ v s e x, vecOf i = some v ∧ Issues i s e ∧ vecCheck e v = .ok x ∧ fpLanes e.w.fpen (v.eval x) = 0 := by
  simp only [vecMeets, Bool.and_eq_true] at h
  cases hv : vecOf i with
  | none => simp [hv] at h
  | some v =>
    rw [hv] at h
    obtain ⟨x, hx⟩ := isOk_elim h.2
    exact ⟨v, one (gangOf wave0), envOf (gangOf wave0) i, x, rfl, issues_gangOf i wave0, hx, fpLanes_zero _⟩

theorem test_vec_samples_meet : ∀ i ∈ vecSamples ++ vecSamplesFloat ++ vecSamplesLanes, vecMeets i = true := by decide +kernel

theorem test_witness_VectorWordCompletes : ∀ i ∈ vecSamples ++ vecSamplesFloat ++ vecSamplesLanes,
    ∃ v s e x, vecOf i = some v ∧ Issues i s e ∧ vecCheck e v = .ok x ∧ fpLanes e.w.fpen (v.eval x) = 0 :=
  fun i hi => vecMeets_elim i (test_vec_samples_meet i hi)

theorem test_witness_VectorToScalarCompletes_vcmp :
    let i := Instr.vcmp .f32 .lt 57 (.v 1) (.v 2)
    let e := envOf (gangOf wave0) i
    ∃ x, Issues i (one (gangOf wave0)) e ∧ toSclCheck e (srcs2 (vty .f32) (.v 1) (.v 2)) none [57, 58, 59] = .ok x ∧
      ∀ l, l < 96 → e.act.getLsbD l = true → (cmpLane .f32 .lt (x.op 0 l) (x.op 1 l)).2 &&& e.w.fpen = 0 :=
  let ⟨x, hx⟩ := isOk_elim (by decide +kernel)
  ⟨x, issues_gangOf _ wave0, hx, fun l _ _ => BitVec.and_zero⟩

theorem test_witness_VectorToScalarCompletes_vvote : ∀ op ∈ [VoteOp.any, .all, .uni, .ballot],
    ∃ s e x, Issues (.vvote op 8 (.v 1) .all) s e ∧
      toSclCheck e [(7, .v 1, .s32)] (some .all) ((List.range (if op == .ballot then 3 else 1)).map (8 + ·)) = .ok x := by
  have h : ∀ op ∈ [VoteOp.any, .all, .uni, .ballot], okAnd (toSclCheck (envOf (gangOf wave0) (.vvote op 8 (.v 1) .all))
      [(7, .v 1, .s32)] (some .all) ((List.range (if op == .ballot then 3 else 1)).map (8 + ·))) (fun _ => true) = true := by
    decide +kernel
  intro op hop
  obtain ⟨x, hx⟩ := isOk_elim (h op hop)
  exact ⟨_, _, x, issues_gangOf _ wave0, hx⟩

/-- A wave on lane 0 with every trap enabled, 1.0 in `s4` and the largest finite number in `s5`. -/
def hot : Wave := { lane0 wave0 with fpen := 0x1F, sregs := setAt (setAt wave0.sregs 4 0x3F800000) 5 0x7F7FFFFF }

/-- A vector division by zero; and by an integer zero. -/
theorem test_witness_ArithmeticTraps_vector :
    let i := Instr.vfdiv .f32 false 5 (.k 0) (.x .zero) ⟨false, .rne⟩
    let e := envOf (gangOf hot) i
    let v := wVfdiv .f32 false 5 (.k 0) (.x .zero) ⟨false, .rne⟩
    ∃ x, vecOf i = some v ∧ Issues i (one (gangOf hot)) e ∧ vecCheck e v = .ok x ∧ fpLanes e.w.fpen (v.eval x) ≠ 0 ∧
      e.w.trapBusy = false :=
  let ⟨x, hx, hf⟩ := okAnd_elim (p := fun x => fpLanes 0x1F ((wVfdiv .f32 false 5 (.k 0) (.x .zero) ⟨false, .rne⟩).eval x) != 0)
    (by decide +kernel)
  ⟨x, rfl, issues_gangOf _ _, hx, bne_iff_ne.mp hf, rfl⟩

theorem test_witness_ArithmeticTraps_div0 : ∀ i ∈ [Instr.vdiv true false 5 (.s 4) (.v 2), .vrem false false 5 (.s 4) (.v 2)],
    let e := envOf (gangOf wave0) i
    Issues i (one (gangOf wave0)) e ∧
    Passes [chkFoot e 6 5 1, chkFootSrc e 7 (.s 4), chkFootSrc e 8 (.v 2), chkLatches e [⟨7, .s 4, Src.gv⟩, ⟨8, .v 2, Src.gv⟩],
      chkBusy e (regsOf e.w e.k (srcs2 (uty true) (.s 4) (.v 2))) ([5], []) false] ∧
    ((e.vsrc (uty true) (.s 4)).bad ||| (e.vsrc (uty true) (.v 2)).bad) &&& e.act = 0 ∧
    maskOf (fun l => e.act.getLsbD l && (e.vsrc (uty true) (.v 2)).lane l == 0) ≠ 0 := by
  intro i hi
  refine ⟨issues_gangOf _ _, passes_of ?_, ?_⟩ <;> revert i <;> decide +kernel

/-- A comparison of a NaN, `SMERGE` of one, an overflowing scalar sum, and a pair word with an overflowing half. -/
theorem test_witness_ArithmeticTraps_others :
    (let w : Wave := { hot with sregs := setAt hot.sregs 6 0x7FC00000 };
      let i := Instr.vcmp .f32 .lt 40 (.s 6) (.s 4);
      let e := envOf (gangOf w) i;
      ∃ x, Issues i (one (gangOf w)) e ∧ toSclCheck e (srcs2 (vty .f32) (.s 6) (.s 4)) none [40, 41, 42] = .ok x ∧
        (cmpLane .f32 .lt (x.op 0 0) (x.op 1 0)).2 &&& e.w.fpen ≠ 0 ∧ e.act.getLsbD 0 = true ∧ e.w.trapBusy = false) ∧
    (let w : Wave := { hot with vregs := setAt hot.vregs 3 ⟨List.replicate 96 0x7F800001, 0⟩ };
      let i := Instr.smerge false 4 (.v 2) (.v 6);
      let e := envOf (gangOf w) i;
      Issues i (one (gangOf w)) e ∧ smergeCheck e 4 (.v 2) (.v 6) = .ok () ∧ e.act.getLsbD 0 = true ∧ e.w.trapBusy = false ∧
        (mergeLane e.g.era ((e.vpair (.v 2)).1.lane 0, (e.vpair (.v 2)).2.lane 0)
          ((e.vpair (.v 6)).1.lane 0, (e.vpair (.v 6)).2.lane 0)).2.2 &&& e.w.fpen ≠ 0) ∧
    (let i := Instr.sfadd false 3 (.s 5) (.s 5) .rne;
      let e := envOf (gangOf hot) i;
      let v := sfWord 3 false (.s 5) (.s 5) .rne (exAdd .rne);
      ∃ x, sclOf i = some v ∧ Issues i (one (gangOf hot)) e ∧ sclCheck e v = .ok x ∧
        (v.eval x.xs x.ps x.ms (drawUnit e.g e.w 0 0)).2 &&& e.w.fpen ≠ 0 ∧ e.w.trapBusy = false) ∧
    (let h0 : Half := ⟨.vadd, .f32, false, 3, some (.s 5), 0⟩;
      let h1 : Half := ⟨.vaddi, .s32, false, 4, none, 1⟩;
      let w : Wave := { hot with vregs := setAt hot.vregs 3 ⟨List.replicate 96 0x7F7FFFFF, 0⟩ };
      let e := envOf (gangOf w) (.pairWord h0 h1);
      Issues (.pairWord h0 h1) (one (gangOf w)) e ∧ pairCheck e (halfWord h0) (halfWord h1) = .ok () ∧ e.w.trapBusy = false ∧
        ((halfEval e (halfWord h0)).2.1 ||| (halfEval e (halfWord h1)).2.1) &&& e.w.fpen ≠ 0) := by
  refine ⟨?_, ⟨issues_gangOf _ _, ?_⟩, ?_, issues_gangOf _ _, ?_⟩
  · obtain ⟨x, hx, hf⟩ := okAnd_elim (p := fun x => (cmpLane .f32 .lt (x.op 0 0) (x.op 1 0)).2 &&& 0x1F != 0)
      (c := toSclCheck (envOf (gangOf { hot with sregs := setAt hot.sregs 6 0x7FC00000 }) (.vcmp .f32 .lt 40 (.s 6) (.s 4)))
        (srcs2 (vty .f32) (.s 6) (.s 4)) none [40, 41, 42]) (by decide +kernel)
    exact ⟨x, issues_gangOf _ _, hx, bne_iff_ne.mp hf, by decide, rfl⟩
  · decide +kernel
  · obtain ⟨x, hx, hf⟩ := okAnd_elim
      (p := fun x => ((sfWord 3 false (.s 5) (.s 5) .rne (exAdd .rne)).eval x.xs x.ps x.ms
        (drawUnit (gangOf hot) hot 0 0)).2 &&& 0x1F != 0)
      (c := sclCheck (envOf (gangOf hot) (.sfadd false 3 (.s 5) (.s 5) .rne)) (sfWord 3 false (.s 5) (.s 5) .rne (exAdd .rne)))
      (by decide +kernel)
    exact ⟨x, rfl, issues_gangOf _ _, hx, bne_iff_ne.mp hf, rfl⟩
  · decide +kernel

/-- The signed division of R97 at its corner, a high product of negative words, a rotation, and a clamp (R97, R118). -/
theorem test_integer_values :
    divWord false 0x80000000 0xFFFFFFFF = 0x80000000 ∧ divWord false 0xFFFFFFF9 2 = 0xFFFFFFFD ∧ remWord false 0xFFFFFFF9 2 = 0xFFFFFFFF ∧
    mulHigh false 0xFFFFFFFF 0xFFFFFFFF = 0 ∧ mulHigh true 0xFFFFFFFF 0xFFFFFFFF = 0xFFFFFFFE ∧ rotWord 0x80000001 33 = 0xC0000000 ∧
    satInt false true (2 ^ 40) = 0x7FFFFFFF ∧ satInt true true (-1) = 0 := by decide

theorem test_witness_VectorIntegerLanes :
    (∃ (x : VecIn) (l : Nat), l < 96 ∧ x.act.getLsbD l = true) ∧
    (∃ (r : VReg) (m : Mask) (vals : List W) (l k : Nat), l < 96 ∧ k < 96 ∧ r.lanes.length = 96 ∧ vals.length = 96 ∧
      m.getLsbD l = false ∧ m.getLsbD k = true) :=
  ⟨⟨⟨[], allLanes, 0, 0, 0, fun _ _ => 0, fun _ => 0⟩, 95, by decide, by decide⟩,
    zeroReg, 1, List.replicate 96 7, 95, 0, by decide +kernel⟩

theorem test_witness_Fp32RoundsToItself : (inFl .f32 0x80000000).1.isNan = false ∧ (inFl .f32 0x7F800000).1.isNan = false ∧
    (inFl .f32 0x00000001).1.isNan = false := by decide +kernel

/-- One word of every row of `sclOf`. -/
def sclSamples : List Instr :=
  let a : Src := .s 4
  let b : Alu2 := .reg (.s 5)
  [.sadd false false 3 a b, .ssub false true 3 a b, .smul false false 3 a b, .smulh false false 3 a b, .smin false false 3 a b,
   .smax true false 3 a b, .sand false false 3 a b, .sor false false 3 a b, .sxor false false 3 a b, .sandn false false 60 a b,
   .sshl false false 3 a (.imm 31), .sshr true false 3 a b, .srot false false 3 a b, .smovi false 62 5, .smoviP 4 (-1),
   .scmp .ult false 3 a (.k 2), .ssel false 3 a (.s 5) (.s 6), .sclz false 3 a, .spopc false 3 a, .sbfx true false 3 a 0 31,
   .sbfi false 3 a (.s 5) 31 0, .saddp 4 (.s 6) (.pair (.s 8)), .saddp 4 (.s 6) (.sext (.s 9)), .saddp 4 (.s 6) (.imm 0xFFF8),
   .slea true 4 (.s 6) (.s 9) 3, .sext .s32 false 4 a, .sext .u8 false 3 a, .scvt 0 false 3 a .rne, .scvt 2 false 3 a .rz,
   .sfadd false 3 a (.s 5) .rne, .sfmul false 3 a (.s 5) .sr, .smask false (.and 60 60 40), .smask false (.cnt 3 8), .smask false (.low 3 60),
   .smask false (.first 8 a), .scmpp .slt false 3 (.s 6) (.s 8)]

def sclMeets (i : Instr) : Bool :=
  i.wf &&
  match sclOf i with
  | some v => okAnd (sclCheck (envOf (gangOf wave0) i) v) fun _ => true
  | none => false

theorem test_scl_samples_meet : ∀ i ∈ sclSamples, sclMeets i = true := by decide +kernel

theorem test_witness_ScalarWordCompletes : ∀ i ∈ sclSamples, ∃ v s e x, sclOf i = some v ∧ Issues i s e ∧ sclCheck e v = .ok x ∧
    (v.eval x.xs x.ps x.ms (drawUnit e.g e.w 0 0)).2 &&& e.w.fpen = 0 := by
  intro i hi
  have h := test_scl_samples_meet i hi
  simp only [sclMeets, Bool.and_eq_true] at h
  cases hv : sclOf i with
  | none => simp [hv] at h
  | some v =>
    rw [hv] at h
    obtain ⟨x, hx⟩ := isOk_elim h.2
    exact ⟨v, one (gangOf wave0), envOf (gangOf wave0) i, x, rfl, issues_gangOf i wave0, hx, BitVec.and_zero⟩

/-- A lane removed at the top level, the last lanes of a split below it, and some lanes of one. -/
theorem test_witness_MaskViews :
    wave0.sregs.length = 64 ∧ (one (gangOf wave0)).wave? 0 0 = some wave0 ∧ wave0.ended = false ∧
    (let x := (lane0 wave0).slot false; allLanes &&& ~~~x.act ≠ 0 ∧ x.rpc = 0) ∧
    (let w : Wave := { wave0 with slot0 := { wave0.slot0 with rpc := 0x10010, act := 0 } };
      let x := w.slot false; allLanes &&& ~~~x.act ≠ 0 ∧ x.rpc ≠ 0 ∧ x.act = 0) ∧
    (let w : Wave := { wave0 with slot0 := { wave0.slot0 with rpc := 0x10010, act := 2 } };
      let x := w.slot false; allLanes &&& ~~~x.act ≠ 0 ∧ x.rpc ≠ 0 ∧ x.act ≠ 0) := by
  refine ⟨by decide, rfl, rfl, ?_⟩
  decide

/-- A divisor that is not zero; a zero register and a zero immediate. -/
theorem test_witness_ScalarDivision : ∀ i ∈ [Instr.sdiv true false 3 (.s 4) (.imm 7), .srem false false 3 (.s 4) (.imm 7)],
    ∃ v a b s e x, divOf i = some (v, a, b) ∧ Issues i s e ∧ sclCheck e v = .ok x ∧ immZero e a b = .ok () := by
  have h : ∀ i ∈ [Instr.sdiv true false 3 (.s 4) (.imm 7), .srem false false 3 (.s 4) (.imm 7)],
      (match divOf i with
        | some (v, a, b) => okAnd (sclCheck (envOf (gangOf wave0) i) v) fun _ => decide (immZero (envOf (gangOf wave0) i) a b = .ok ())
        | none => false) = true := by decide +kernel
  intro i hi
  have h := h i hi
  cases hd : divOf i with
  | none => simp [hd] at h
  | some d =>
    obtain ⟨v, a, b⟩ := d
    rw [hd] at h
    obtain ⟨x, hx, hz⟩ := okAnd_elim h
    exact ⟨v, a, b, one (gangOf wave0), envOf (gangOf wave0) i, x, rfl, issues_gangOf i wave0, hx, of_decide_eq_true hz⟩

theorem test_witness_ScalarDivision_zero :
    let i := Instr.sdiv true false 3 (.s 4) (.reg (.s 5))
    let j := Instr.srem false false 3 (.s 4) (.imm 0)
    (∃ x, sclCheck (envOf (gangOf wave0) i) (aluWord false 3 (.s 4) (.reg (.s 5)) (divWord true)) = .ok x) ∧
    ((envOf (gangOf wave0) i).ssrc .s32 (.s 5)).1 = 0 ∧ Issues i (one (gangOf wave0)) (envOf (gangOf wave0) i) ∧
    (∃ x, sclCheck (envOf (gangOf wave0) j) (aluWord false 3 (.s 4) (.imm 0) (divWord false)) = .ok x) ∧
    Issues j (one (gangOf wave0)) (envOf (gangOf wave0) j) :=
  ⟨isOk_elim (by decide +kernel), by decide, issues_gangOf _ wave0, isOk_elim (by decide +kernel), issues_gangOf _ wave0⟩

/-- A future that is Done. -/
def futDone (w : Wave) : Wave := { w with futs := setAt w.futs 3 ⟨.done, 0x80000001, 1, .v⟩ }

def futPending (w : Wave) : Wave := { w with futs := setAt w.futs 3 ⟨.pending, 0, 1, .v⟩ }

theorem test_witness_MovesComplete :
    (let e := envOf (gangOf wave0) (.smov false 60 (.s 4));
      Issues (.smov false 60 (.s 4)) (one (gangOf wave0)) e ∧ chkBusy e ([], [4]) ([], [60]) false = .ok ()) ∧
    (let w := futDone wave0;
      let e := envOf (gangOf w) (.smov false 4 (.f 3));
      Issues (.smov false 4 (.f 3)) (one (gangOf w)) e ∧ chkBusy e ([], []) ([], [4]) false = .ok () ∧
        (e.w.fut 3).st ∈ [FState.done, .failed, .cancelled]) ∧
    (let e := envOf (gangOf wave0) (.sleaPc 4 8);
      Issues (.sleaPc 4 8) (one (gangOf wave0)) e ∧ chkBusy e ([], []) ([], [4, 5]) false = .ok ()) :=
  ⟨⟨issues_gangOf _ _, by decide⟩, ⟨issues_gangOf _ _, by decide, by decide⟩, ⟨issues_gangOf _ _, by decide⟩⟩

end Sys2Proof.Tests
/-! ## States that meet the statements' hypotheses: control, traps, launches -/

namespace Sys2Proof.Tests

open Sys2Proof.Machine Sys2Proof.Claims

/-- The wave with `s8:s9`, `s10:s11`, `s12:s13` and `s14:s15` set as `based` says. -/
def bwave : Wave := based wave0

abbrev bgang : Gang := gangOf bwave

/-- Branch targets: `s8:s9` is aligned, `s12:s13` below is not. -/
def odd (w : Wave) : Wave := { w with sregs := setAt w.sregs 12 0x20003 }

theorem test_witness_BranchesComplete :
    (let i := Instr.bra (-2); Issues i (one bgang) (envOf bgang i)) ∧
    (let i := Instr.call 58 4; Issues i (one bgang) (envOf bgang i) ∧ chkBusy (envOf bgang i) ([], []) ([], [58, 59]) false = .ok ()) ∧
    (let i := Instr.callR 8 (.s 8); Issues i (one bgang) (envOf bgang i) ∧ ∃ tgt, chkTarget (envOf bgang i) (.s 8) [8, 9] = .ok tgt) ∧
    (let i := Instr.ret (.s 8); Issues i (one bgang) (envOf bgang i) ∧ ∃ tgt, chkTarget (envOf bgang i) (.s 8) [] = .ok tgt) ∧
    (let i := Instr.brx (.s 8); Issues i (one bgang) (envOf bgang i) ∧ ∃ tgt, chkTarget (envOf bgang i) (.s 8) [] = .ok tgt) :=
  ⟨issues_gangOf _ _, ⟨issues_gangOf _ _, by decide +kernel⟩, ⟨issues_gangOf _ _, isOk_elim (by decide +kernel)⟩,
    ⟨issues_gangOf _ _, isOk_elim (by decide +kernel)⟩, ⟨issues_gangOf _ _, isOk_elim (by decide +kernel)⟩⟩

theorem test_witness_BranchesComplete_align : ∀ i ∈ [Instr.callR 8 (.s 12), .ret (.s 12), .brx (.s 12)],
    let e := envOf (gangOf (odd bwave)) i
    Issues i (one (gangOf (odd bwave))) e ∧
    chkBusy e ([], [12, 13]) ([], if i = .callR 8 (.s 12) then [8, 9] else []) false = .ok () ∧
    e.w.sregBad 12 = false ∧ e.w.sregBad 13 = false ∧ (e.w.pair e.k 12).toNat % 8 ≠ 0 := by
  intro i hi
  refine ⟨issues_gangOf _ _, ?_⟩
  revert i
  decide +kernel

/-- All lanes, no lane, and some lanes; with a full stack, an empty slot 1, and room. -/
theorem test_witness_BranchOnLanes :
    let i := Instr.brv false 8 2 2
    let mk (x : W) (dsp : Nat) : Env := envOf (gangOf { wave0 with sregs := setAt (setAt (setAt wave0.sregs 8 x) 9 x) 10 x, dsp := dsp }) i
    let ok (e : Env) : Prop := Issues i e.s e ∧ chkBusy e ([], [8, 9, 10]) ([], []) false = .ok () ∧ tripleBad e.w 8 = false
    let p (e : Env) : Mask := e.w.triple e.k 8 &&& e.act
    let needs (e : Env) : Nat := (if BitVec.signExtend 64 (2 : BitVec 18) * 8 + e.slot.pc = e.slot.rpc then 0 else 1)
      + (if (e.w.slot (!e.k)).st = .empty then 0 else 1)
    (ok (mk 0xFFFFFFFF 0) ∧ p (mk 0xFFFFFFFF 0) = (mk 0xFFFFFFFF 0).act) ∧
    (ok (mk 0 0) ∧ p (mk 0 0) ≠ (mk 0 0).act ∧ p (mk 0 0) = 0) ∧
    (ok (mk 1 32) ∧ p (mk 1 32) ≠ (mk 1 32).act ∧ p (mk 1 32) ≠ 0 ∧ 32 < (mk 1 32).w.dsp + needs (mk 1 32)) ∧
    (ok (mk 1 31) ∧ p (mk 1 31) ≠ (mk 1 31).act ∧ p (mk 1 31) ≠ 0 ∧ (mk 1 31).w.dsp + needs (mk 1 31) ≤ 32) := by
  refine ⟨⟨⟨issues_gangOf _ _, ?_⟩, ?_⟩, ⟨⟨issues_gangOf _ _, ?_⟩, ?_⟩, ⟨⟨issues_gangOf _ _, ?_⟩, ?_⟩, ⟨⟨issues_gangOf _ _, ?_⟩, ?_⟩⟩ <;> decide +kernel

/-- A split away from its join; one at it with its partner waiting there; one with a live partner in the other slot. -/
theorem test_witness_JoinsAndExits :
    (let e := envOf (gangOf wave0) .join; Issues .join (one (gangOf wave0)) e ∧ e.slot.rpc ≠ e.slot.pc) ∧
    (let w : Wave := { wave0 with slot0 := ⟨0x10000, 1, 3, 0x10000, .ready⟩, slot1 := ⟨0x10000, 2, 3, 0x10000, .joinWait⟩ };
      let e := envOf (gangOf w) .join; Issues .join (one (gangOf w)) e ∧ e.slot.rpc = e.slot.pc ∧
        ((one (gangOf w)).splits e.gi e.w).liveElse e.k e.slot.pc = 0) ∧
    (let w : Wave := { wave0 with slot0 := ⟨0x10000, 1, 3, 0x10000, .ready⟩, slot1 := ⟨0x10008, 2, 3, 0x10000, .ready⟩ };
      let e := envOf (gangOf w) .join; Issues .join (one (gangOf w)) e ∧ e.slot.rpc = e.slot.pc ∧
        ((one (gangOf w)).splits e.gi e.w).liveElse e.k e.slot.pc ≠ 0 ∧ topIsLive ((one (gangOf w)).splits e.gi e.w) = false) ∧
    (let w : Wave := { wave0 with slot0 := ⟨0x10000, 1, 3, 0x10000, .ready⟩, slot1 := ⟨0x10008, 4, 4, 0x10000, .ready⟩, dsp := 1 };
      let e := envOf (gangOf w) .join;
      let s : State := { one (gangOf w) with mem := Memory.write [] 0x4000 (bytesOfEntry ⟨0, 0x10008, 0x10000, 2, 3⟩), tags := [⟨0x4000 / 128, 0, 0, none⟩] };
      let e := { e with s := s }; Issues .join s e ∧ e.slot.rpc = e.slot.pc ∧
        (s.splits e.gi e.w).liveElse e.k e.slot.pc ≠ 0 ∧ topIsLive (s.splits e.gi e.w) = true) ∧
    (let e := envOf (gangOf wave0) .exit; Issues .exit (one (gangOf wave0)) e) := by
  refine ⟨⟨issues_gangOf _ _, by decide +kernel⟩, ⟨issues_gangOf _ _, by decide +kernel⟩, ⟨issues_gangOf _ _, by decide +kernel⟩, ⟨issues_st _ _ _ _ rfl rfl rfl, ?_⟩, issues_gangOf _ _⟩
  decide +kernel

theorem test_witness_JoinsAndExits_merge :
    (let x : Splits := ⟨⟨0x10000, 1, 3, 0x10000, .ready⟩, ⟨0x10000, 0, 5, 0x10020, .joinWait⟩, [], 0⟩;
      (x.slot (!false)).isPlace = true ∧ (x.slot (!false)).pc = 0x10000) ∧
    (let x : Splits := ⟨⟨0x10000, 1, 3, 0x10000, .ready⟩, ⟨0x10000, 2, 3, 0x10000, .joinWait⟩, [⟨0, 0x10000, 0x10020, 0, 7⟩], 0⟩;
      ¬((x.slot (!false)).isPlace = true ∧ (x.slot (!false)).pc = 0x10000) ∧ (x.slot (!false)).isJoiner = true ∧
        takeFrame 0x10000 x.stk = some (⟨0, 0x10000, 0x10020, 0, 7⟩, []) ∧ takeFrame 0x10000 [] = none) := by decide +kernel

/-- The nested case of R105's text: a wave inside an inner join merges there and goes on to the outer one. -/
theorem test_merge_takes_the_frame :
    let x : Splits := ⟨⟨0x10000, 1, 3, 0x10000, .ready⟩, ⟨0x10000, 2, 3, 0x10000, .joinWait⟩, [⟨0, 0x10000, 0x10020, 0, 7⟩], 0⟩
    let y := x.merge false 0x10000
    y.s0.pc = 0x10008 ∧ y.s0.act = 3 ∧ y.s0.um = 7 ∧ y.s0.rpc = 0x10020 ∧ y.s1.st = .empty ∧ y.stk = [] := by decide +kernel

theorem test_witness_SoftwareTrap :
    let e := envOf (gangOf wave0) (.trap 0x1234)
    Issues (.trap 0x1234) (one (gangOf wave0)) e ∧ e.w.trap = none ∧ e.w.trapBusy = false ∧ (one (gangOf wave0)).tbaseOf e.g ≠ 0 :=
  ⟨issues_gangOf _ _, rfl, rfl, by decide +kernel⟩

/-- `TRAP 0x1234` on a small machine, by R110 and R309: cause, saved PC, handler address, and `s1:s0` at the save area. -/
theorem test_trap_saves_and_enters :
    (match Machine.exec (.trap 0x1234) (one (gangOf wave0)) with
      | .next t => (t.wave? 0 0).map fun w => (w.tcause, w.tpc, w.slot0.pc, w.sreg false 0, w.tmask == allLanes)
      | _ => none) = some (0x0012340D, 0x10000, 0x10800, 0x4800, true) := by decide +kernel

/-- An outstanding global load of the wave; one into `s2`. -/
def loadOp : MemOp :=
  ⟨0, false, allLanes, .load .b32, .vl, .vec 7 1, [⟨0, .mem 0x20000, none, 0x20000, 0, 0, 0⟩], 1, 0, 0, 0, 0, 0, [], false⟩

def loading (w : Wave) : Wave := { w with ops := [loadOp], opSeq := 1 }

def loadingS2 (w : Wave) : Wave := { w with ops := [{ loadOp with dst := .scl 2 1 }], opSeq := 1 }

/-- No line under a key, and the save area's line under the context's. -/
theorem test_witness_TrapEntry :
    let g := gangOf wave0
    let s : State := { one g with tags := [⟨0x4800 / 128, 0, 0, none⟩] }
    (one g).gang? 0 = some g ∧ g.wave? 0 = some wave0 ∧ (one g).tbaseOf g ≠ 0 ∧ wave0.trap = none ∧
      wave0.sregs.length = 64 ∧ wave0.trapBusy = false ∧ (loadingS2 wave0).trapBusy = true ∧ (one g).mem.wf = true ∧
      (∀ line, 0x4800 / 128 ≤ line → 128 * line < 0x4810 → UnderKey s g line) := by
  refine ⟨rfl, rfl, by decide +kernel, rfl, by decide +kernel, rfl, by decide +kernel, rfl, fun line h1 h2 => ?_⟩
  obtain rfl : line = 0x4800 / 128 := by omega
  exact ⟨by decide, rfl, by decide⟩

/-- A launched die-scope grid that runs, number `id`, of gang index space 4. -/
def grid0 (id : Nat) : Grid where
  id := id
  num := id
  ctx := 0
  queue := 0
  prio := 0
  scope := .die
  die := 0
  kind := .launched
  priv := false
  depth := 0
  recAddr := 0x20000
  comp := some 0x20100
  bytes := List.replicate 128 0
  step := 0
  total := 4
  next := 4
  chunks := []
  started := true
  doneg := 0
  cancg := 0
  errg := 0
  faults := 0
  first := none
  fmap := []
  relayed := none
  stat := 0
  abort := false
  cancel := false
  early := false
  pkgs := []
  groups := []
  root := false
  recPriv := false
  pos := 0
  stab := []
  exts := []
  waits := []
  denied := []

/-- A trap's saved split. -/
def inTrap : TrapSave := ⟨false, 0x10040, 3, 3, 0, 3, false, 0⟩

def trapped (w : Wave) : Wave := { w with trap := some inTrap, tpc := 0x10040 }

/-- A gang without a handler, in a launched grid. -/
def bareGang : Gang := gangOf wave0

def bareState : State := { one bareGang with grids := [grid0 0], ctxs := [{ placedCtx with tbase := 0 }] }

theorem test_witness_EndsByTrap :
    bareState.gang? 0 = some bareGang ∧ bareGang.wave? 0 = some wave0 ∧ (bareState.tbaseOf bareGang = 0 ∨ wave0.trap ≠ none) ∧
      bareState.descends (bareState.rootGrid 9 bareGang.grid) 9 bareGang.grid = true ∧ bareGang.st.live = true ∧
      bareState.grid? (bareState.rootGrid 9 bareGang.grid) = some (grid0 0) ∧
      bareState.grid? bareGang.grid = some (grid0 0) ∧ (grid0 0).kind = .launched :=
  ⟨rfl, rfl, .inl (by decide +kernel), by decide +kernel, rfl, by decide +kernel, by decide +kernel, rfl⟩

theorem test_witness_EndsByTrap_handler (code : BitVec 16) (h : code = 0xFD ∨ code = 0xFE) :
    Issues (.trap code) (one (gangOf (trapped wave0))) (envOf (gangOf (trapped wave0)) (.trap code)) ∧
      (trapped wave0).trap ≠ none ∧ (code.toNat % 256 = 0xFD ∨ code.toNat % 256 = 0xFE) := by
  have h2 : (trapped wave0).trap ≠ none := by simp [trapped]
  have h3 : code.toNat % 256 = 0xFD ∨ code.toNat % 256 = 0xFE := by rcases h with rfl | rfl <;> decide
  exact ⟨issues_gangOf _ (trapped wave0), h2, h3⟩

theorem test_witness_ReturnFromTrap : ∀ next : Bool,
    let i := if next then Instr.eretNext else Instr.eret
    (let e := envOf (gangOf wave0) i; Issues i (one (gangOf wave0)) e ∧ e.w.trap = none) ∧
    (let e := envOf (gangOf (trapped wave0)) i;
      Issues i (one (gangOf (trapped wave0))) e ∧ e.w.trap = some inTrap ∧ e.w.returnBusy = false ∧
        inTrap.act &&& ~~~e.w.exited ≠ 0) ∧
    (let w := trapped (loadingS2 wave0); let e := envOf (gangOf w) i;
      Issues i (one (gangOf w)) e ∧ e.w.trap ≠ none ∧ e.w.returnBusy = true) :=
  fun next => ⟨⟨issues_gangOf _ _, rfl⟩, ⟨issues_gangOf _ _, rfl, by cases next <;> decide +kernel⟩,
    ⟨issues_gangOf _ _, by simp [envOf, gangOf, trapped], by cases next <;> decide +kernel⟩⟩

/-- `ERET.next` returns past the trapping word with the lanes that have not exited (R111). -/
theorem test_eret_next_returns :
    (match Machine.exec .eretNext (one (gangOf (trapped { wave0 with exited := 1 }))) with
      | .next t => (t.wave? 0 0).map fun w => (w.slot0.pc, w.slot0.act, w.trap.isNone)
      | _ => none) = some (0x10048, 2, true) := by decide +kernel

theorem test_witness_WaitsAndHalterComplete :
    (let e := envOf bgang (.waitc .vl 0); Issues (.waitc .vl 0) (one bgang) e ∧ e.w.ctr .vl ≤ (0 : BitVec 6).toNat) ∧
    (let g := gangOf (loading bwave); let e := envOf g (.waitc .vl 0); Issues (.waitc .vl 0) (one g) e ∧ (0 : BitVec 6).toNat < e.w.ctr .vl) ∧
    (Issues .yield (one bgang) (envOf bgang .yield) ∧ ∀ o ∈ (envOf bgang .yield).w.ops, o.dst = .none) ∧
    (let g := gangOf (loading bwave); Issues .yield (one g) (envOf g .yield) ∧ ∃ o ∈ (envOf g .yield).w.ops, o.dst ≠ .none) ∧ Issues .nop (one bgang) (envOf bgang .nop) ∧
    (let e := envOf bgang (.stepadv (.s 8)); Issues (.stepadv (.s 8)) (one bgang) e ∧ chkBusy e ([], [8]) ([], []) false = .ok () ∧
      e.w.sregBad 8 = false) ∧
    (let e := envOf bgang .htake; Issues .htake (one bgang) e ∧ halterTurn e.g e.w = true) ∧
    (let e := envOf bgang (.hpass (.s 0)); Issues (.hpass (.s 0)) (one bgang) e ∧ e.g.halter = some e.w.idx ∧
      chkBusy e ([], [0]) ([], []) false = .ok () ∧ e.w.sregBad 0 = false ∧
      e.g.wave? (e.w.sreg e.k 0).toNat = some bwave ∧ bwave.ended = false) :=
  ⟨⟨issues_gangOf _ _, by decide +kernel⟩, ⟨issues_gangOf _ _, by decide +kernel⟩, ⟨issues_gangOf _ _, fun _ h => nomatch h⟩,
    ⟨issues_gangOf _ _, loadOp, .head _, by decide⟩, issues_gangOf _ _,
    ⟨issues_gangOf _ _, by decide +kernel, by decide +kernel⟩, ⟨issues_gangOf _ _, by decide +kernel⟩,
    ⟨issues_gangOf _ _, rfl, by decide +kernel, by decide +kernel, rfl, rfl⟩⟩

/-- A pod-wide grid of context 0 whose completion object is at 0x20100. -/
def podGrid : Grid := { grid0 3 with scope := .pod, num := 5 * 2 ^ 64 + 3 }

theorem test_witness_LaunchWordsComplete_launch : ∀ b ∈ [Src.s 10, .s 12],
    let i := Instr.launch .pkg 1 (.s 8) b 2
    Issues i (one bgang) (envOf bgang i) ∧ Passes [chkPairs (envOf bgang i) 1 [(7, .s 8), (8, b)], chkDrained (envOf bgang i) (BitVec.allOnes 8)] ∧
      ((envOf bgang i).psrc (.s 8)).1.toNat % 128 = 0 := by
  intro b hb
  refine ⟨issues_gangOf _ _, passes_of ?_, ?_⟩ <;> revert b <;> decide +kernel

theorem test_witness_LaunchWordsComplete_addresses :
    (bwave.pair false 10).toNat % 16 = 0 ∧ (bwave.pair false 12).toNat % 16 ≠ 0 ∧ (bwave.pair false 12).toNat % 128 ≠ 0 := by decide +kernel

theorem test_witness_LaunchWordsComplete_spawn : ∀ depth ∈ [0, 8],
    let g : Gang := { bgang with depth := depth }
    let i := Instr.spawn 1 (.s 8)
    Issues i (one g) (envOf g i) ∧ Passes [chkPairs (envOf g i) 1 [(7, .s 8)], chkDrained (envOf g i) (BitVec.allOnes 8)] ∧
      ((envOf g i).psrc (.s 8)).1.toNat % 128 = 0 ∧ (g.depth < 8 ∨ 8 ≤ g.depth) := by
  intro d hd
  refine ⟨issues_one _ _ bwave rfl, passes_of ?_, by revert d; decide +kernel, by show d < 8 ∨ 8 ≤ d; omega⟩
  revert d; decide +kernel

theorem test_witness_LaunchWordsComplete_cancel :
    let i := Instr.cancel 1 (.s 10)
    let s : State := { one bgang with grids := [podGrid] }
    Issues i (one bgang) (envOf bgang i) ∧ Passes [chkPairs (envOf bgang i) 1 [(7, .s 10)]] ∧
      ((envOf bgang i).psrc (.s 10)).1.toNat % 16 = 0 ∧
      cancelMsg (one bgang) bgang.ctx ((envOf bgang i).psrc (.s 10)).1 bgang.id 0 1 1 = none ∧
      (cancelMsg s bgang.ctx ((envOf bgang i).psrc (.s 10)).1 bgang.id 0 1 1).isSome = true ∧
      Issues i s { envOf bgang i with s := s } :=
  ⟨issues_gangOf _ _, passes_of (by decide +kernel), by decide +kernel, by decide +kernel, by decide +kernel, issues_st _ _ _ bwave rfl rfl rfl⟩

end Sys2Proof.Tests
/-! ## States that meet the statements' hypotheses: memory, fences, barriers, troughs -/

namespace Sys2Proof.Tests

open Sys2Proof.Machine Sys2Proof.Claims

/-- One lane, with the addresses of `based`. -/
def mwave : Wave := lane0 bwave

abbrev mgang : Gang := gangOf mwave

/-- One word of every row of `memOf`, in device memory or scratchpad. -/
def memSamples : List Instr :=
  let a : Src := .s 8
  let z : Src := .x .zero
  let b : Src := .v 2
  let g : I25 := .glob false 0 0 0 0 0
  let p : I25 := .spad 0 false 64
  let at3 : I25 := .glob false 0 0 3 3 0
  [.vld .b32 5 a b g, .vld .s8 5 z b p, .vldp 4 a b g, .vldw 4 a b g, .vldu .u16 5 a z g, .vst .b32 5 a b g, .vst .b8 5 z (.x .lid) p,
   .vstp 4 a b g, .vstw 4 a b g, .sld (some .b32) 20 a z g, .sld none 20 z z p, .sst (some .b16) 20 a z g, .sst none 20 a z g,
   .vatom .add 5 a b at3, .vcas 4 a b at3, .vatomp .umin 4 a b at3, .vcasp 4 a b at3, .satom .fadd 20 a z at3, .scas 20 a z at3,
   .vapnd 5 a at3, .dld 5 a b g, .dadd 5 a b g, .daddA 5 a b at3, .dst 4 a b g, .fsth 3 z p]

def memMeets (i : Instr) : Bool :=
  i.wf &&
  match memOf (envOf mgang i) i with
  | some (m, cls) => okAnd (memCheck (envOf mgang i) m cls) fun r => r.parked.isEmpty
  | none => false

theorem test_mem_samples_meet : ∀ i ∈ memSamples, memMeets i = true := by decide +kernel

theorem test_witness_MemoryWordCompletes : ∀ i ∈ memSamples, ∃ m cls s e r, memOf e i = some (m, cls) ∧ Issues i s e ∧
    memCheck e m cls = .ok r ∧ r.parked = [] ∧ e.act ≠ 0 := by
  intro i hi
  have h := test_mem_samples_meet i hi
  simp only [memMeets, Bool.and_eq_true] at h
  have ha : (envOf mgang i).act ≠ 0 := show (1 : Mask) ≠ 0 by decide
  cases hm : memOf (envOf mgang i) i with
  | none => simp [hm] at h
  | some x =>
    rw [hm] at h
    obtain ⟨r, hr, hp⟩ := okAnd_elim h.2
    exact ⟨x.1, x.2, one mgang, envOf mgang i, r, hm, issues_gangOf i mwave, hr, List.isEmpty_iff.mp hp, ha⟩

theorem test_witness_MemoryWordCompletes_vpref : ∀ llc,
    let i := Instr.vpref llc (.s 14) (.v 2) (.glob false 0 0 0 0 0)
    Issues i (one mgang) (envOf mgang i) ∧ chkFootSrc (envOf mgang i) 8 (.v 2) = .ok () :=
  fun _ => ⟨issues_gangOf _ _, rfl⟩

/-- A scratchpad form and a Hayloft form; and no shadow table. -/
theorem test_witness_MemoryWordFrame :
    isSpadForm (.spad 0 false 64) = true ∧ isHay (.glob true 0 0 0 0 0) = true ∧ (one mgang).shbase = 0 := ⟨rfl, rfl, rfl⟩

/-- A misaligned address and one that is not canonical, in lane 0 alone; a scratchpad and a Hayloft access past the bound. -/
theorem test_witness_MemoryWordStops_address :
    let far : Gang := gangOf { mwave with sregs := setAt mwave.sregs 9 0x80000000 }
    let small : Gang := { mgang with spadLen := 64 }
    let hay : Gang := gangOf { mwave with sregs := setAt mwave.sregs 9 1 }
    (∀ p ∈ [(far, Src.s 8, 0x8000000000020000), (mgang, .s 12, 0x20004)],
      let i := Instr.vldp 4 p.2.1 (.x .zero) (.glob false 0 0 0 0 0)
      let e := envOf p.1 i
      ∃ m cls, memOf e i = some (m, cls) ∧ Issues i (one p.1) e ∧ memPre e m cls = .ok () ∧ laneAddrs e m = [(0, p.2.2)] ∧
        m.q.align = 8) ∧
    (∀ p ∈ [(small, Src.x .zero, I25.spad 0 false 64, 64, 64), (hay, .s 8, .glob true 0 0 0 0 0, 0x100020000, Config.hayBytes)],
      let i := Instr.vldp 4 p.2.1 (.x .zero) p.2.2.1
      let e := envOf p.1 i
      ∃ m cls, memOf e i = some (m, cls) ∧ Issues i (one p.1) e ∧ memPre e m cls = .ok () ∧
        laneAddrs e m = [(0, p.2.2.2.1)] ∧ p.2.2.2.1 % m.q.align = 0 ∧
        (if isSpadForm m.q.i then e.g.spadLen else Config.hayBytes) = p.2.2.2.2 ∧ p.2.2.2.2 < p.2.2.2.1 + m.q.size) := by
  refine ⟨fun p hp => ?_, fun p hp => ?_⟩ <;> simp only [List.mem_cons, List.not_mem_nil, or_false] at hp <;>
    rcases hp with rfl | rfl <;>
    exact ⟨_, _, rfl, issues_one _ _ _ rfl, by decide +kernel, by decide +kernel, by decide +kernel⟩

/-- A context whose page table at 0x100000 maps the addresses below 2^25 to a block that is not resident. -/
def ctx0 : Ctx := ⟨0, 0x100000, 0x10800, 0x200000, 0x1000000, [], 0, 0, [], 0, true, List.replicate 8 ⟨[], [], 0, 0⟩, 0⟩

def tables : Memory := [(0x100000, 0x01), (0x100002, 0x11), (0x110000, 0x01), (0x110002, 0x12), (0x120000, 0x07)]

def absentGang : Gang := { mgang with exts := [] }

def absent0 : State := { one absentGang with ctxs := [ctx0], mem := tables }

/-- The state with the table entry that translates its block held as bytes `xs`. -/
def leafState (xs : Memory) : State :=
  { absent0 with mem := [(0x100000, 0x01), (0x100002, 0x11), (0x110000, 0x01), (0x110002, 0x12)] ++ xs }

/-- What R297, R302 and R308 give an access through each leaf; the entry is the last byte, or the last two. -/
theorem test_leaf_checks : ∀ p ∈ [([], false, false, Tr.fail 2), ([(0x120000, 0xC3)], false, false, .fail 6),
      ([(0x120000, 0x23)], true, false, .fail 3), ([(0x120000, 0x33)], false, false, .fail 4),
      ([(0x120000, 0x23)], false, true, .fail 5), ([(0x120000, 0x03)], false, false, .park),
      ([(0x120000, 0x23)], false, false, .ok 0x20000), ([(0x120000, 0xA3), (0x120006, 0x01)], false, false, .fail 7)],
    canonical 0x20000 = true ∧ extentFor absentGang 0x20000 8 = none ∧
      translate (leafState p.1) absentGang ⟨p.2.1, p.2.2.1, false⟩ 0x20000 8 = p.2.2.2 := by decide +kernel

/-- A word whose address no page maps. -/
theorem test_witness_MemoryWordStops_page :
    let i := Instr.vld .b32 5 (.s 14) (.x .zero) (.glob false 0 0 0 0 0)
    let e := envOf mgang i
    ∃ m cls, memOf e i = some (m, cls) ∧ Issues i (one mgang) e ∧ memPre e m cls = .ok () ∧ laneAddrs e m = [(0, 0x90000)] ∧
      canonical 0x90000 = true ∧ 0x90000 % m.q.align = 0 ∧ trFailSub (translate (one mgang) mgang ⟨m.q.write, false, e.priv⟩ 0x90000 m.q.size) = some 2 :=
  ⟨_, _, rfl, issues_gangOf _ _, by decide +kernel, by decide +kernel, by decide +kernel⟩

theorem test_witness_MemoryWordStops_park :
    let i := Instr.vld .b32 5 (.s 8) (.v 2) (.glob false 0 0 0 0 0)
    let e : Env := { envOf absentGang i with s := absent0 }
    ∃ m cls r, memOf e i = some (m, cls) ∧ Issues i absent0 e ∧ memCheck e m cls = .ok r ∧ r.parked ≠ [] ∧
      (m.q.once = true ∨ lanesIn r.parked = e.act) ∧ e.act ≠ 0 := by
  have h : okAnd (memCheck { envOf absentGang (.vld .b32 5 (.s 8) (.v 2) (.glob false 0 0 0 0 0)) with s := absent0 }
      (vecLoad 5 (.s 8) (.v 2) (.glob false 0 0 0 0 0) (ldSize .b32) 1 (.load .b32) false) Src.mi)
      (fun r => !r.parked.isEmpty && lanesIn r.parked == 1) = true := by decide +kernel
  obtain ⟨r, hr, hp⟩ := okAnd_elim h
  simp only [Bool.and_eq_true, Bool.not_eq_true', beq_iff_eq] at hp
  exact ⟨_, _, r, rfl, issues_st _ absent0 absentGang mwave rfl rfl rfl, hr, fun h => by simp [h] at hp, .inr hp.2,
    show (1 : Mask) ≠ 0 by decide⟩

/-- Outstanding loads of every form: one element, a pair, an acquire, one value for all lanes, a stamped value, a scalar, a mask
view, and the value of a barrier word. -/
def loadOps : List MemOp :=
  let o : MemOp := { loadOp with act := 1 }
  let s : MemOp := { o with dst := .scl 20 1 }
  [o, { o with kind := .loadN 2, dst := .vec 6 2 }, { o with ord := 1, scope := 2 }, { o with kind := .loadU .s16, left := allLanes },
   { o with kind := .dld }, s, { s with kind := .loadN 2, dst := .scl 60 2 }, { s with kind := .value, dst := .scl 20 2 }]

def holding (o : MemOp) (w : Wave) : Wave := { w with ops := [o], opSeq := 1 }

theorem outstanding_holding (o : MemOp) (hid : o.id = 0) (hp : (holding o mwave).mayPerform o = true) :
    Outstanding (one (gangOf (holding o mwave))) 0 0 0 0 (gangOf (holding o mwave)) (holding o mwave) o ∧ Quiet (holding o mwave) :=
  ⟨⟨rfl, rfl, rfl, by simp [holding, hid], hp⟩, rfl, fun _ h => nomatch h⟩

theorem test_witness_LoadPerformed : ∀ o ∈ loadOps,
    (Outstanding (one (gangOf (holding o mwave))) 0 0 0 0 (gangOf (holding o mwave)) (holding o mwave) o ∧ Quiet (holding o mwave)) ∧
    isPlainLoad o.kind = true ∧ AllLeft o ∧ (∀ q ∈ (holding o mwave).ops, opBytes q = []) ∧ (∀ a ∈ o.accs, a.enc = none) ∧
    (match o.dst with
      | .none => False
      | .vec d n => o.kind ≠ .value ∧ d.toNat + n ≤ mwave.vregs.length ∧ ∀ k ∈ List.range n, (mwave.vreg (d.toNat + k)).lanes.length = 96
      | .scl _ _ => (∃ a, o.accs = [a]) ∧ ∀ t ∈ [LdTy.b32, .u8, .s8, .u16, .s16], o.kind ≠ .loadU t) := by
  intro o ho
  have h : o.id = 0 ∧ (holding o mwave).mayPerform o = true := by revert o; decide +kernel
  refine ⟨outstanding_holding o h.1 h.2, ?_⟩
  simp only [loadOps, List.mem_cons, List.not_mem_nil, or_false] at ho
  rcases ho with rfl | rfl | rfl | rfl | rfl | rfl | rfl | rfl
  · exact ⟨rfl, .inr (by decide), by decide, by decide, by decide, by decide, by decide +kernel⟩
  · exact ⟨rfl, .inr (by decide), by decide, by decide, by decide, by decide, by decide +kernel⟩
  · exact ⟨rfl, .inr (by decide), by decide, by decide, by decide, by decide, by decide +kernel⟩
  · exact ⟨rfl, .inl ⟨.s16, rfl⟩, by decide, by decide, by decide, by decide, by decide +kernel⟩
  · exact ⟨rfl, .inr (by decide), by decide, by decide, by decide, by decide, by decide +kernel⟩
  · exact ⟨rfl, .inr (by decide), by decide, by decide, ⟨_, rfl⟩, by decide⟩
  · exact ⟨rfl, .inr (by decide), by decide, by decide, ⟨_, rfl⟩, by decide⟩
  · exact ⟨rfl, .inr (by decide), by decide, by decide, ⟨_, rfl⟩, by decide⟩

/-- A pair load whose high word is poisoned, and `VLDU.s16` of 0x8001 in every lane (R170, R175). -/
theorem test_load_forms :
    (let o : MemOp := { loadOp with act := 1, kind := .loadN 2, dst := .vec 6 2 };
      let s := one (gangOf (holding o mwave));
      match Machine.exec (.loadWriteback 0 0 0 allLanes false) { s with mem := [(0x20000, 1), (0x20004, 2)], memBad := [0x20000 / 8] } with
      | .next t => (t.wave? 0 0).map fun w => ((w.vreg 6).lane 0, (w.vreg 7).lane 0, (w.vreg 7).bad, w.ops.length)
      | _ => none) = some (1, 2, 1, 0) ∧
    (let o : MemOp := { loadOp with act := 1, kind := .loadU .s16, left := allLanes };
      match Machine.exec (.loadWriteback 0 0 0 allLanes false) { one (gangOf (holding o mwave)) with mem := [(0x20000, 1), (0x20001, 0x80)] } with
      | .next t => (t.wave? 0 0).map fun w => ((w.vreg 7).lane 0, (w.vreg 7).lane 95)
      | _ => none) = some (0xFFFF8001, 0xFFFF8001) := by decide +kernel

/-- An outstanding store of one word, accepted or not. -/
def storeOp (acc : Bool) : MemOp :=
  ⟨0, false, 1, .store 4, .st, .none, [⟨0, .mem 0x20000, none, 0x20000, 0x12345678, 0, 0⟩], 1, 0, 0, 0, 0, 0, [], acc⟩

def storing (acc : Bool) (w : Wave) : Wave := { w with ops := [storeOp acc], opSeq := 1 }

/-- One to the scratchpad. -/
def spadStore : MemOp := { storeOp false with ctr := .sp, accs := [⟨0, .spad 64, none, 64, 0x12345678, 0, 0⟩] }

/-- A label store, a `DADD.A` and a `DADD`, outstanding. -/
theorem test_witness_StorePerformed_kinds :
    (∀ o ∈ [{ storeOp true with kind := .lblst }, { storeOp true with kind := .daddA }, { loadOp with act := 1, kind := .dadd }],
      (Outstanding (one (gangOf (holding o mwave))) 0 0 0 0 (gangOf (holding o mwave)) (holding o mwave) o ∧ Quiet (holding o mwave)) ∧
      isAcq o = false ∧ (o.accs.map (·.lane)).Nodup ∧ ∀ a ∈ o.accs, a.lane < 96 ∧ o.left.getLsbD a.lane = true ∧ a.enc = none) ∧
    isPlainStore .lblst = true ∧ (storeOp true).accepted = true ∧ loadOp.dst = .vec 7 1 ∧ (7 : VR).toNat < mwave.vregs.length ∧
    (mwave.vreg 7).lanes.length = 96 ∧ (∀ w, (one (gangOf w)).mem.wf = true) ∧ isWide { storeOp true with kind := .daddA, scope := 3 } = true := by
  refine ⟨fun o ho => ?_, rfl, rfl, rfl, by decide, by decide +kernel, fun _ => rfl, rfl⟩
  have h : (o.id = 0 ∧ (holding o mwave).mayPerform o = true) ∧ isAcq o = false ∧ (o.accs.map (·.lane)).Nodup ∧
      ∀ a ∈ o.accs, a.lane < 96 ∧ o.left.getLsbD a.lane = true ∧ a.enc = none := by revert o; decide +kernel
  exact ⟨outstanding_holding o h.1.1 h.1.2, h.2⟩

theorem test_witness_StorePerformed :
    (let w := storing true mwave;
     let g := gangOf w;
     (one g).gangIdx 0 = some 0 ∧ (one g).gang? 0 = some g ∧ g.wave? 0 = some w ∧ w.ops.find? (·.id == 0) = some (storeOp true) ∧
     w.mayPerform (storeOp true) = true ∧ Quiet w ∧ (storeOp true).kind = .store 4 ∧ (storeOp true).accepted = true ∧
     isAcq (storeOp true) = false ∧ (one g).mem.wf = true ∧ ∀ a ∈ (storeOp true).accs, a.loc.isSpad = false ∧ a.enc = none) ∧
    (∀ a ∈ spadStore.accs, a.loc.isSpad = true) ∧ spadStore.ctr ≠ .st ∧ mgang.spad.wf = true ∧ mgang.spadBad = [] ∧
    (let w := storing false mwave;
     (one (gangOf w)).wave? 0 0 = some w ∧ w.ops.find? (·.id == 0) = some (storeOp false) ∧ isStoreKind (storeOp false).kind = true ∧
     (storeOp false).ctr = .st ∧ (storeOp false).accepted = false ∧ ∀ q ∈ w.ops, ¬ q.id < (storeOp false).id) :=
  ⟨⟨rfl, rfl, rfl, rfl, by decide, ⟨rfl, fun _ h => nomatch h⟩, rfl, rfl, rfl, rfl, by decide⟩, by decide, by decide, rfl, rfl, rfl, rfl, rfl, rfl, rfl, by decide⟩

/-- A location free of poison, in memory and in the scratchpad; a poisoned one; and a state without L1 lines. -/
theorem test_witness_AtomicLane :
    (one mgang).gang? 0 = some mgang ∧ (one mgang).memOk = true ∧
    (one mgang).rangeBad 0 (.mem 0x20000) (accLen (.atom .add)) = false ∧ (one mgang).rangeBad 0 (.spad 64) (accLen .casP) = false ∧
    (one mgang).rangeBad 0 (.mem 0x20000) (accLen .daddA) = false ∧
    ({ one mgang with memBad := [0x20000 / 8] } : State).rangeBad 0 (.mem 0x20000) (accLen .cas) = true ∧
    (∀ k floor, lineOf (one mgang) mgang.byreId k floor = none) :=
  ⟨rfl, rfl, rfl, rfl, rfl, by decide +kernel, fun _ _ => rfl⟩

/-- A poisoned word keeps its value under an atomic, and its old value comes back marked (R175). -/
theorem test_atomic_on_poison :
    let s : State := { one mgang with mem := [(0x20000, 5)], memBad := [0x20000 / 8] }
    let o : MemOp := { loadOp with kind := .atom .add, scope := 3 }
    let r := atomLane s 0 mgang o ⟨0, .mem 0x20000, none, 0x20000, 1, 0, 0⟩
    (r.1.mem, r.2.els) = ([(0x20000, 5)], [(5, true)]) := by decide +kernel

/-- An append of lanes 3 and 9, outstanding. -/
def apndOp : MemOp :=
  let a (l : Nat) : Acc := ⟨l, .mem 0x20000, none, 0x20000, 0, 0, 0⟩
  ⟨0, false, 0x208, .apnd, .vl, .vec 7 1, [a 3, a 9], 0x208, 0, 3, 0, 0, 0, [], false⟩

def appending (w : Wave) : Wave := { w with ops := [apndOp], opSeq := 1 }

theorem test_witness_AppendCounts :
    (let i := Instr.vapnd 5 (.s 8) (.glob false 0 0 3 3 0);
      Issues i (one mgang) (envOf mgang i) ∧
        okAnd (memCheck (envOf mgang i) (mVapnd 5 (.s 8) (.glob false 0 0 3 3 0)) Src.mi) (fun r => r.parked.isEmpty) = true) ∧
    (let w := appending mwave;
     let g := gangOf w;
     (one g).gangIdx 0 = some 0 ∧ (one g).gang? 0 = some g ∧ g.wave? 0 = some w ∧ w.ops.find? (·.id == 0) = some apndOp ∧
     w.mayPerform apndOp = true ∧ Quiet w ∧ (w.vreg 7).lanes.length = 96 ∧ (one g).rangeBad 0 (.mem 0x20000) 4 = false ∧
     (∀ a ∈ apndOp.accs, a.loc = .mem 0x20000 ∧ apndOp.left.getLsbD a.lane = true ∧ a.enc = none) ∧ isWide apndOp = true ∧ (apndOp.accs.map (·.lane)).Nodup) :=
  ⟨⟨issues_gangOf _ _, by decide +kernel⟩, rfl, rfl, rfl, rfl, by decide, ⟨rfl, fun _ h => nomatch h⟩, by decide +kernel, rfl,
    by decide, by decide, by decide⟩

/-- Two lanes of an append (R174): old value, then old value plus one; the counter grows by two. -/
theorem test_append :
    (match Machine.exec (.loadWriteback 0 0 0 allLanes false) { one (gangOf (appending mwave)) with mem := [(0x20000, 5)] } with
      | .next t => (t.wave? 0 0).map fun w => (t.mem, (w.vreg 7).lane 3, (w.vreg 7).lane 9, (w.vreg 7).lane 4)
      | _ => none) = some ([(0x20000, 7)], 5, 6, 0) := by decide +kernel

theorem test_witness_StampedRegisterWords :
    (let i := Instr.smerge false 4 (.v 2) (.v 6);
      Issues i (one mgang) (envOf mgang i) ∧ smergeCheck (envOf mgang i) 4 (.v 2) (.v 6) = .ok ()) ∧
    (let i := Instr.dstamp false 4 (.v 1) 15;
      Issues i (one mgang) (envOf mgang i) ∧ Passes [chkFoot (envOf mgang i) 6 4 2, chkFootSrc (envOf mgang i) 7 (.v 1),
        chkLatches (envOf mgang i) [⟨7, .v 1, Src.gv⟩], chkBusy (envOf mgang i) (srcRegs mwave false (.v 1) 1) ([4, 5], []) false]) :=
  ⟨⟨issues_gangOf _ _, by decide +kernel⟩, ⟨issues_gangOf _ _, passes_of (by decide +kernel)⟩⟩

/-- With nothing outstanding, and behind a load; an `XFENCE` from V that a write made before an arrival holds back too. -/
theorem test_witness_FencesComplete :
    (let i := Instr.fence 2 0xFF;
      Issues i (one mgang) (envOf mgang i) ∧ ∀ o ∈ (envOf mgang i).w.ops, o.id < (envOf mgang i).upto →
        isPlainStore o.kind = true ∧ isRel o = false ∧ (0xFF : BitVec 8).getLsbD o.col.toNat = false) ∧
    (let g := gangOf (loading mwave); let i := Instr.fence 0 0;
      Issues i (one g) (envOf g i) ∧ loadOp ∈ (envOf g i).w.ops ∧ loadOp.id < (envOf g i).upto ∧ isPlainStore loadOp.kind = false) ∧
    (∀ p ∈ [(PClass.v, PClass.c), (.c, .v)], let i := Instr.xfence 5 p.1 p.2;
      Issues i (one mgang) (envOf mgang i) ∧ (envOf mgang i).w.ops = [] ∧ (one mgang).owing 0 true = false) ∧
    (∀ p ∈ [(PClass.v, PClass.c), (.c, .v)], let g := gangOf (loading mwave); let i := Instr.xfence 5 p.1 p.2;
      Issues i (one g) (envOf g i) ∧ loadOp ∈ (envOf g i).w.ops ∧ loadOp.id < (envOf g i).upto ∧ (one g).owing 0 true = false) ∧
    (∀ wide : Bool, let g := gangOf { storing true mwave with arrSeq := 1 }; let i := Instr.xfence 5 .v .c;
      Issues i (one g) (envOf g i) ∧ (one g).owing 0 wide = true) :=
  ⟨⟨issues_gangOf _ _, fun o ho => nomatch ho⟩, ⟨issues_gangOf _ _, .head _, by decide, rfl⟩, fun _ _ => ⟨issues_gangOf _ _, rfl, rfl⟩,
    fun _ _ => ⟨issues_gangOf _ _, .head _, Nat.zero_lt_one, rfl⟩, fun wide => ⟨issues_gangOf _ _, by cases wide <;> rfl⟩⟩

/-- A barrier object in device memory, and one in the scratchpad. -/
theorem test_witness_BarrierWordsComplete : ∀ p ∈ [(Src.s 8, I25.glob false 0 0 0 0 0), (.x .zero, .spad 0 false 64)],
    let e (i : Instr) : Env := envOf mgang i
    (∀ i ∈ [Instr.bari 20 p.1 p.2, .bara 20 p.1 (.k 0) p.2, .barw p.1 (.k 0) p.2, .bar p.1 p.2, .barq 20 p.1 p.2],
      Issues i (one mgang) (e i)) ∧
    Passes [chkCtr (e .nop) .sp, chkCtr (e .nop) .vl, chkDrained (e .nop) 0xFF] := by
  intro p _
  exact ⟨fun i _ => issues_gangOf i mwave, passes_of (by decide)⟩

def placeMeets (i : Instr) (o : OneAsk) : Bool :=
  okAnd (chkOnePlace (envOf mgang i) o) fun x => match x with | .at' _ => true | .gone _ => false

theorem test_barrier_places : ∀ p ∈ [(Src.s 8, I25.glob false 0 0 0 0 0), (.x .zero, .spad 0 false 64)],
    placeMeets (.bari 20 p.1 p.2) { barAsk p.1 p.2 true none with rd := ([], [20, 21]), pre := eatScl mwave 20 2 } = true ∧
    placeMeets (.bara 20 p.1 (.k 0) p.2) { barAsk p.1 p.2 true (some (.k 0)) with wr := ([], [20]) } = true ∧
    placeMeets (.barw p.1 (.k 0) p.2) (barAsk p.1 p.2 false (some (.k 0))) = true ∧
    placeMeets (.bar p.1 p.2) (barAsk p.1 p.2 true none) = true ∧
    placeMeets (.barq 20 p.1 p.2) { barAsk p.1 p.2 false none with wr := ([], [20, 21]) } = true := by decide +kernel

/-- A `BARA` that its arrival's release holds back: behind a load where the object publishes, behind a release where not. -/
theorem test_witness_BarrierWordsComplete_held : ∀ p ∈ [(1, loadOp), (0, { storeOp true with ord := 2, scope := 1 })],
    let g := gangOf (holding p.2 mwave)
    let i := Instr.bara 20 (.x .zero) (.k 0) (.spad 0 false 64)
    Issues i (one g) (envOf g i) ∧ ∃ q ∈ (envOf g i).w.ops, q.id < (envOf g i).upto ∧ holdsArrival p.1 q = true := by
  intro p hp
  refine ⟨issues_gangOf _ _, p.2, .head _, ?_⟩
  revert p; decide +kernel

/-- `BARW` with another GEN than the object's: memory reads zero, the operand is 1. -/
theorem test_barw_operand : BitVec.ofNat 32 ((one mgang).objNum 0 (.mem 0x20000) 12) ≠ ((envOf mgang .nop).ssrc .s32 (.k 0)).1 := by
  decide +kernel

theorem placeMeets_elim (i : Instr) (o : OneAsk) (h : placeMeets i o = true) : ∃ l, chkOnePlace (envOf mgang i) o = .ok (.at' l) := by
  obtain ⟨x, hx, hp⟩ := okAnd_elim h
  cases x with
  | at' l => exact ⟨l, hx⟩
  | gone s => simp at hp

theorem test_witness_ArriveCounts :
    (one mgang).gang? 0 = some mgang ∧ (one mgang).memOk = true ∧ (one mgang).rangeBad 0 (.mem 0x20000) 16 = false ∧
    ClearOfStacks (one mgang) (.mem 0x20000) := by
  refine ⟨rfl, rfl, rfl, fun k hk g hg w hw => .inr ?_⟩
  cases hk
  simp only [one, List.mem_singleton] at hg
  subst hg
  simp only [gangOf, List.mem_singleton] at hw
  subst hw
  decide

/-- A pipeline gang with one trough of two slots at offset 64, holding `n` slots; its silo has quota 16 times `k`. -/
def pipeGang (n k : Nat) (silo : Nat) : Gang :=
  { mgang with
    stages := [⟨0x10000, 1, false⟩, ⟨0x10000, 0, false⟩]
    troughs := [⟨64, 2, 0, 1, List.replicate n (List.replicate 16 7, 0), silo, 0, false⟩]
    siloBase := 0x20000
    siloK := k }

def pipeEnv (g : Gang) (i : Instr) : Env := envOf g i

theorem test_witness_TroughWordsComplete : ∀ p ∈ [(0, 0, 0), (2, 0, 0), (2, 1, 16)],
    let g := pipeGang p.1 p.2.1 p.2.2
    (∀ i, Issues i (one g) (envOf g i)) ∧ g.troughIdx 64 = some 0 ∧ (∃ x, g.trough? 0 = some x) ∧ g.halted mwave.stage = false ∧
      g.stopping = false := by
  intro p hp
  refine ⟨fun i => issues_one i _ mwave rfl, ?_, ⟨_, rfl⟩, ?_, ?_⟩ <;> (revert p; decide)

def troughMeets (g : Gang) : Bool :=
  let a : Src := .x .zero
  let i : I25 := .spad 0 false 64
  let e := envOf g (.trgput 5 a i)
  let at64 (o : OneAsk) : Bool := okAnd (chkOnePlace e o) fun x => match x with | .at' l => l == .spad 64 | .gone _ => false
  decide (chkFoot e 6 5 1 = .ok ()) && decide (chkDrained e 0xFF = .ok ()) && at64 { trgAsk a i with rd := ([5], []) }
    && at64 { trgAsk a i with wr := ([5], []) } && at64 { trgAsk a i with wr := ([], [20]) }

theorem test_trough_places : ∀ p ∈ [(0, 0, 0), (2, 0, 0), (2, 1, 16), (2, 1, 3)], troughMeets (pipeGang p.1 p.2.1 p.2.2) = true := by decide +kernel

/-- Room and an empty silo; full without a silo; full with the silo at its quota, or with room there; a slot to take. -/
theorem test_trough_fills :
    (∃ x, (pipeGang 0 0 0).trough? 0 = some x ∧ x.silo = 0 ∧ x.ring.length < x.slots) ∧
    (∃ x, (pipeGang 2 0 0).trough? 0 = some x ∧ ¬(x.silo = 0 ∧ x.ring.length < x.slots) ∧ (pipeGang 2 0 0).siloK = 0) ∧
    (∃ x, (pipeGang 2 1 16).trough? 0 = some x ∧ ¬(x.silo = 0 ∧ x.ring.length < x.slots) ∧ (pipeGang 2 1 16).siloK ≠ 0 ∧
      16 * (pipeGang 2 1 16).siloK ≤ x.silo) ∧
    (∃ x, (pipeGang 2 1 3).trough? 0 = some x ∧ ¬(x.silo = 0 ∧ x.ring.length < x.slots) ∧ x.silo < 16 * (pipeGang 2 1 3).siloK ∧
      translate (one (pipeGang 2 1 3)) (pipeGang 2 1 3) ⟨true, false, true⟩ (siloVa (pipeGang 2 1 3) 0 x x.silo) 64 = .ok 0x200C0) ∧
    (∃ x v rest, (pipeGang 2 0 0).trough? 0 = some x ∧ x.ring = v :: rest ∧ reserved (pipeGang 2 0 0) x.toff < x.ring.length) :=
  ⟨⟨_, rfl, rfl, by decide⟩, ⟨_, rfl, by decide, rfl⟩, ⟨_, rfl, by decide, by decide, by decide⟩, ⟨_, rfl, by decide, by decide, by decide +kernel⟩,
    ⟨_, _, _, rfl, rfl, by decide⟩⟩

end Sys2Proof.Tests
/-! ## States that meet the statements' hypotheses: futures, engines, Churn, labels, system words, word forms -/

namespace Sys2Proof.Tests

open Sys2Proof.Machine Sys2Proof.Claims

/-- A wave with future 3 in a given state. -/
def futWave (st : FState) : Wave := { mwave with futs := setAt mwave.futs 3 ⟨st, 0x80000000, 1, .c⟩ }

abbrev futGang (st : FState) : Gang := gangOf (futWave st)

theorem test_witness_FutureWordsComplete : ∀ st ∈ [FState.empty, .pending, .done, .failed, .cancelled],
    let g := futGang st
    (∀ i, Issues i (one g) (envOf g i)) ∧ (g.waves.head?.getD wave0).fut 3 = ⟨st, 0x80000000, 1, .c⟩ ∧
      chkBusy (envOf g (.ftest 20 (.f 3))) ([], []) ([], [20]) false = .ok () := by
  intro st hst
  refine ⟨fun i => issues_gangOf i (futWave st), rfl, ?_⟩
  revert st; decide

/-- A handle in the scratchpad that names wave 0 and future 3, of arming `ser`; or a wave that is absent. -/
def handleGang (st : FState) (wave : Nat) (ser : Nat) : Gang :=
  { futGang st with spad := Memory.write [] 64 (natLe 8 (ser * 2 ^ 32 + wave * 16 + 3)) }

def handleMeets (g : Gang) (h : Handle) : Bool :=
  let e := envOf g (.fwait 20 (.x .zero) (.spad 0 false 64))
  decide (chkCtr e .sp = .ok ()) &&
  okAnd (chkOnePlace e { handleAsk (.x .zero) (.spad 0 false 64) false with wr := ([], [20]) }) fun x =>
    match x with
    | .at' l => okAnd (loadHandle e l) fun n => handleOf n == h
    | .gone _ => false

/-- Pending, ended, superseded and consumed armings, and a handle of no wave. -/
theorem test_witness_FutureWordsComplete_fwait :
    (∀ p ∈ [(FState.pending, 0, 1), (.done, 0, 1), (.failed, 0, 7), (.empty, 0, 1), (.done, 5, 1)],
      handleMeets (handleGang p.1 p.2.1 p.2.2) ⟨BitVec.ofNat 32 p.2.2, p.2.1, 3⟩ = true) ∧
    (∀ g i, g.waves = [futWave .done] → Issues i (one g) (envOf g i)) ∧
    (handleGang .done 0 1).wave? 0 = some (futWave .done) ∧ (handleGang .done 5 1).wave? 5 = none :=
  ⟨by decide +kernel, fun g i h => issues_one i g _ h, rfl, rfl⟩

/-- One word of every row of `blockOf`, on a block in device memory or in the scratchpad. -/
def blockSamples : List Instr :=
  let b : Blk := ⟨false, .s 8, 0⟩
  let p : Blk := ⟨true, .x .zero, 0x40⟩
  [.copyt 1 b, .binopen 1 b, .binplay 1 p, .xsect 1 b, .smergeu 1 p, .topk 1 b, .cvtcsr 1 b, .cvtres 1 b, .taskput 1 b, .stsweep 1 p,
   .rinv 1 b, .hayfill 1 b]

def blockMeets (i : Instr) : Bool :=
  i.wf &&
  match blockOf i with
  | some (f, b, _, _, _) =>
    let e := envOf mgang i
    ((chkArmed e f [⟨7, b.base, blkBaseCls b⟩] :: blockPre e b).all fun c => decide (c = .ok ())) &&
      okAnd (chkBlkAt e b 64) fun x => match x with | .at' _ => true | .gone _ => false
  | none => false

theorem test_block_samples_meet : ∀ i ∈ blockSamples, blockMeets i = true := by decide +kernel

theorem test_witness_EngineWordsStart : ∀ i ∈ blockSamples, ∃ f b op variant cls s e l, blockOf i = some (f, b, op, variant, cls) ∧
    Issues i s e ∧ (isPrivWord i = true → e.priv = true) ∧ Passes (chkArmed e f [⟨7, b.base, blkBaseCls b⟩] :: blockPre e b) ∧
    BlockAt e b 64 l := by
  intro i hi
  have h := test_block_samples_meet i hi
  simp only [blockMeets, Bool.and_eq_true] at h
  cases hb : blockOf i with
  | none => simp [hb] at h
  | some x =>
    obtain ⟨f, b, op, variant, cls⟩ := x
    rw [hb] at h
    simp only [Bool.and_eq_true] at h
    obtain ⟨x, hx, hp⟩ := okAnd_elim h.2.2
    cases x with
    | gone s => simp at hp
    | at' l => exact ⟨f, b, op, variant, cls, one mgang, envOf mgang i, l, rfl, issues_gangOf i mwave, fun _ => rfl, passes_of h.2.1, hx⟩

/-- A wave with a poisoned count in `s20` and a poisoned index in `v2`. -/
def poisoned (w : Wave) : Wave := { w with sbad := 1 <<< 20, vregs := setAt w.vregs 2 ⟨List.replicate 96 0, 1⟩ }

/-- The wave with a poisoned value in lane 1 of `v3`. -/
def poisonedValue (w : Wave) : Wave := { w with vregs := setAt w.vregs 3 ⟨List.replicate 96 0, 2⟩ }

/-- `COPY` with a count that is sound, and one that is poisoned; `BINAPP` likewise, with its index or its value. -/
theorem test_witness_EngineWordsStart_copy : ∀ w ∈ [mwave, poisoned mwave],
    let i := Instr.copy 1 true 0 (.x .zero) (.s 8) (.s 20) 64
    let e := envOf (gangOf w) i
    Issues i (one (gangOf w)) e ∧ e.w.trapBusy = false ∧
    Passes [chkArmed e 1 [⟨7, .x .zero, copyCls true⟩, ⟨8, .s 8, copyCls false⟩, ⟨9, .s 20, Src.gs⟩],
      chkBusy e (cat2 (srcRegs e.w e.k (.x .zero) 1) (cat2 (srcRegs e.w e.k (.s 8) 2) (srcRegs e.w e.k (.s 20) 1))) ([], []) false,
      chkPoisonS e [(srcNum e.w e.k (.x .zero), (copyBase e true (.x .zero)).2), (srcNum e.w e.k (.s 8), (copyBase e false (.s 8)).2)] 1] := by
  intro w hw
  refine ⟨issues_gangOf _ w, ?_, passes_of ?_⟩ <;> revert w <;> decide +kernel

theorem test_witness_EngineWordsStart_binapp : ∀ w ∈ [mwave, poisoned mwave, poisonedValue mwave],
    let i := Instr.binapp false 1 (.s 8) (.v 2) (.v 3)
    let e := envOf (gangOf w) i
    Issues i (one (gangOf w)) e ∧ e.w.trapBusy = false ∧
    Passes [chkFootSrc e 8 (.v 2), chkBinVal e false (.v 3), chkArmed e 1 [⟨7, .s 8, Src.sp⟩, ⟨8, .v 2, Src.gv⟩, ⟨9, .v 3, Src.vc⟩],
      chkBusy e (cat2 (srcRegs e.w e.k (.s 8) 2) (cat2 (srcRegs e.w e.k (.v 2) 1) (srcRegs e.w e.k (.v 3) 1))) ([], []) false,
      chkPoisonS e [(srcNum e.w e.k (.s 8), (e.psrc (.s 8)).2)] 1] := by
  intro w hw
  refine ⟨issues_gangOf _ w, ?_, passes_of ?_⟩ <;> revert w <;> decide +kernel

theorem test_poisoned_operands :
    ((envOf (gangOf mwave) .nop).ssrc .s32 (.s 20)).2 = false ∧ ((envOf (gangOf (poisoned mwave)) .nop).ssrc .s32 (.s 20)).2 = true ∧
    ((envOf (gangOf mwave) .nop).vsrc .s32 (.v 2)).bad &&& 1 = 0 ∧
    ((envOf (gangOf (poisoned mwave)) .nop).vsrc .s32 (.v 2)).bad &&& 1 ≠ 0 ∧
    ((envOf (gangOf (poisonedValue mwave)) .nop).vsrc .s32 (.v 2)).bad &&& allLanes = 0 ∧
    ((envOf (gangOf (poisonedValue mwave)) .nop).vsrc .s32 (.v 3)).bad &&& allLanes ≠ 0 := by decide +kernel

theorem test_witness_EngineWordsStart_pending :
    let i := Instr.topk 3 ⟨false, .s 8, 0⟩
    let e := envOf (futGang .pending) i
    blockOf i = some (3, ⟨false, .s 8, 0⟩, 0xBB, 0, .s) ∧ Issues i (one (futGang .pending)) e ∧
      latchClass e ⟨7, .s 8, blkBaseCls ⟨false, .s 8, 0⟩⟩ = true ∧ (e.w.fut 3).st = .pending :=
  ⟨rfl, issues_gangOf _ _, rfl, rfl⟩

/-- A queue with `n` entries that have not ended. -/
def queueGang (n : Nat) : Gang :=
  { mgang with ch := { startChurn true with queue := List.replicate n (newEntry (envOf mgang .nop) none (.zero 0)) } }

def tileSamples : List Instr :=
  let b : Blk := ⟨false, .s 8, 0⟩
  [.cmma true 1 b 0, .cmmas .s24 false 1 b 1, .cstore 1 b 3, .cload 1 ⟨true, .x .zero, 0x80⟩ 2]

def tileMeets (i : Instr) : Bool :=
  i.wf &&
  match tileOf i with
  | some (f, b, _) =>
    let e := envOf mgang i
    ((chkQueued e f [⟨7, b.base, blkBaseCls b⟩] :: blockPre e b).all fun c => decide (c = .ok ())) && decide (e.g.ch.unf < 16) &&
      okAnd (chkBlkAt e b 128) fun x => match x with | .at' _ => true | .gone _ => false
  | none => false

theorem test_tile_samples_meet : ∀ i ∈ tileSamples, tileMeets i = true := by decide +kernel

theorem test_witness_ChurnWordsQueue : ∀ i ∈ tileSamples, ∃ f b kind s e l, tileOf i = some (f, b, kind) ∧ Issues i s e ∧
    Passes (chkQueued e f [⟨7, b.base, blkBaseCls b⟩] :: blockPre e b) ∧ BlockAt e b 128 l ∧ e.g.ch.unf < 16 := by
  intro i hi
  have h := test_tile_samples_meet i hi
  simp only [tileMeets, Bool.and_eq_true] at h
  cases hb : tileOf i with
  | none => simp [hb] at h
  | some x =>
    obtain ⟨f, b, kind⟩ := x
    rw [hb] at h
    simp only [Bool.and_eq_true] at h
    obtain ⟨x, hx, hp⟩ := okAnd_elim h.2.2
    cases x with
    | gone s => simp at hp
    | at' l =>
      exact ⟨f, b, kind, one mgang, envOf mgang i, l, rfl, issues_gangOf i mwave, passes_of h.2.1.1, hx, of_decide_eq_true h.2.1.2⟩

def queuedSamples : List Instr :=
  let b : Blk := ⟨false, .s 8, 0⟩
  [.czero 1 3, .cmova true 1 0 1, .cscale 1 (.s 20) (.x .zero) 0 .rne, .cepi true 1 (.s 8) 0, .cepi false 1 (.x .zero) 0, .relld 1 b 1,
   .lblsum 1 b 1 (.s 20)]

def queuedMeets (g : Gang) (i : Instr) : Bool :=
  i.wf &&
  match queuedOf (envOf g i) i with
  | some (_, _, cs) => cs.all fun c => decide (c = .ok ())
  | none => false

/-- With room in the queue, and with sixteen unfinished entries. -/
theorem test_queued_samples_meet : ∀ n ∈ [0, 15, 16], ∀ i ∈ queuedSamples, queuedMeets (queueGang n) i = true := by decide +kernel

theorem test_queue_counts : (queueGang 0).ch.unf < 16 ∧ (queueGang 15).ch.unf < 16 ∧ 16 ≤ (queueGang 16).ch.unf := by decide

theorem test_witness_ChurnWordsQueue_queued : ∀ n ∈ [0, 15, 16], ∀ i ∈ queuedSamples, ∃ f kind cs s e,
    queuedOf e i = some (f, kind, cs) ∧ Issues i s e ∧ Passes cs ∧ e.g = queueGang n := by
  intro n hn i hi
  have h := test_queued_samples_meet n hn i hi
  simp only [queuedMeets, Bool.and_eq_true] at h
  cases hb : queuedOf (envOf (queueGang n) i) i with
  | none => simp [hb] at h
  | some x =>
    obtain ⟨f, kind, cs⟩ := x
    rw [hb] at h
    exact ⟨f, kind, cs, one (queueGang n), envOf (queueGang n) i, hb, issues_one i _ mwave rfl, passes_of h.2, rfl⟩

/-- A draft frame of three labels. -/
def draftGang : Gang := { mgang with draft := some ⟨0x30000, 7, 3, 2, [5]⟩ }

theorem test_witness_ChurnWordsQueue_accept :
    let i := Instr.accept 1 (.k 0)
    Issues i (one draftGang) (envOf draftGang i) ∧
    Passes [chkQueued (envOf draftGang i) 1 [⟨7, .k 0, Src.gs⟩], chkBusy (envOf draftGang i) (srcRegs mwave false (.k 0) 1) ([], []) false] ∧
    ((envOf draftGang i).ssrc .s32 (.k 0)).2 = false ∧ draftGang.ch.unf < 16 ∧ draftGang.ch.frameAt = false ∧
    ((envOf draftGang i).ssrc .s32 (.k 0)).1.toNat ≤ 3 ∧ mgang.draft = none ∧ Issues i (one mgang) (envOf mgang i) :=
  ⟨issues_one _ _ mwave rfl, passes_of (by decide +kernel), by decide +kernel, by decide +kernel, rfl, by decide +kernel, rfl,
    issues_gangOf _ _⟩

theorem test_witness_FrameAndBankWords :
    let e (i : Instr) : Env := envOf mgang i
    let a : Src := .s 20
    mgang.ch.unf = 0 ∧ (∀ i, Issues i (one mgang) (e i)) ∧
    Passes [chkChurn (e .nop), chkBusy (e .nop) ([], []) ([], [20]) false] ∧
    Passes [chkChurn (e .nop), chkFutSrc (e .nop) a, chkLatches (e .nop) [⟨7, a, Src.gsf⟩],
      chkBusy (e .nop) (srcRegs mwave false a 1) ([], []) true, chkPoisonS (e .nop) [(srcNum mwave false a, ((e .nop).ssrc .s32 a).2)] 3] ∧
    Passes [chkFoot (e .nop) 6 5 1, chkChurn (e .nop), chkLatches (e .nop) [⟨8, a, Src.gs⟩],
      chkBusy (e .nop) (srcRegs mwave false a 1) ([5], []) false, chkPoisonS (e .nop) [(srcNum mwave false a, ((e .nop).ssrc .s32 a).2)] 3] ∧
    Passes [chkFoot (e .nop) 6 5 1, chkChurn (e .nop), chkLatches (e .nop) [⟨8, a, Src.gs⟩],
      chkBusy (e .nop) (cat2 ([5], []) (srcRegs mwave false a 1)) ([], []) false] ∧
    ((mwave.vreg 5).bad &&& 1 = 0 ∧ ((e .nop).ssrc .s32 a).2 = false) ∧
    Passes [chkChurn (e .nop), chkLatches (e .nop) [⟨7, .s 10, Src.sp⟩, ⟨8, a, Src.gs⟩, ⟨9, .k 1, Src.gs⟩],
      chkBusy (e .nop) (cat2 (srcRegs mwave false (.s 10) 2) (cat2 (srcRegs mwave false a 1) (srcRegs mwave false (.k 1) 1))) ([], [21]) false,
      chkPoisonS (e .nop) [(srcNum mwave false (.s 10), ((e .nop).psrc (.s 10)).2)] 1,
      chkPoisonS (e .nop) [(srcNum mwave false a, ((e .nop).ssrc .s32 a).2), (srcNum mwave false (.k 1), ((e .nop).ssrc .s32 (.k 1)).2)] 3] := by
  refine ⟨by decide +kernel, fun i => issues_gangOf i mwave, ?_, ?_, ?_, ?_, by decide +kernel, ?_⟩ <;> exact passes_of (by decide +kernel)

/-- A draft of two labels at an aligned base; of none, of 65, and at an unaligned base. -/
theorem test_draft_operands :
    (((envOf mgang .nop).ssrc .s32 (.k 1)).1 = 2 ∧ ((envOf mgang .nop).psrc (.s 10)).1.toNat % 128 = 0) ∧
    ((envOf mgang .nop).ssrc .s32 (.x .zero)).1 = 0 ∧ 64 < ((envOf mgang .nop).ssrc .s32 (.s 8)).1.toNat ∧
    ((envOf mgang .nop).psrc (.s 12)).1.toNat % 128 ≠ 0 ∧ mgang.draft = none ∧ draftGang.draft ≠ none := by
  refine ⟨by decide +kernel, by decide +kernel, by decide +kernel, by decide +kernel, rfl, Option.some_ne_none _⟩

def labelMeets (i : Instr) (m : MemWord) : Bool :=
  let e := envOf mgang i
  ([memFoot e m, chkChurn e, memPre e m Src.mi].all fun c => decide (c = .ok ())) &&
    okAnd (labelLanes e (.glob false 0 0 0 0 0) (.s 8) (.v 2)) fun as => okAnd (memReach e m as) fun r => r.parked.isEmpty

theorem test_witness_LabelWordsComplete :
    labelMeets (.lblld 4 (.s 8) (.v 2) (.glob false 0 0 0 0 0)) (vecLoad 4 (.s 8) (.v 2) (.glob false 0 0 0 0 0) 8 2 (.loadN 2) false) = true ∧
    labelMeets (.lblst 4 (.s 8) (.v 2) (.glob false 0 0 0 0 0))
      { vecStore mwave 4 (.s 8) (.v 2) (.glob false 0 0 0 0 0) 8 2 with kind := .lblst } = true ∧
    ∀ i, Issues i (one mgang) (envOf mgang i) :=
  ⟨by decide +kernel, by decide +kernel, fun i => issues_gangOf i mwave⟩

/-- A tile block with M = 64 and N = 64; without a filter; with one that names slot 0, which holds no record; and with a record. -/
def blockState (rel : Option (List Byte)) : Gang :=
  { mgang with ch := { startChurn true with rels := setAt (List.replicate 4 none) 0 rel } }

def blockMem (ctl : Nat) : Memory := Memory.write [] 0x20000 (natLe 16 (ctl * 2 ^ 64 + 64 * 2 ^ 96 + 64 * 2 ^ 112))

def admMeets (ctl : Nat) (rel : Option (List Byte)) (want : List Byte → Env → Bool) : Bool :=
  let i := Instr.lblldAdm 4 ⟨false, .s 8, 0⟩ (.s 20)
  let g := blockState rel
  let e : Env := { envOf g i with s := { one g with mem := blockMem ctl } }
  let b : Blk := ⟨false, .s 8, 0⟩
  ([chkFoot e 6 4 1, chkChurn e, chkLatches e [⟨7, b.base, blkBaseCls b⟩, ⟨8, .s 20, Src.gs⟩],
      chkBusy e (cat2 (srcRegs e.w e.k b.base (if b.bsp then 1 else 2)) (srcRegs e.w e.k (.s 20) 1)) ([4], []) false,
      chkPoisonS e [(srcNum e.w e.k b.base, blkBad e b)] 1, chkPoisonS e [(srcNum e.w e.k (.s 20), (e.ssrc .s32 (.s 20)).2)] 3,
      chkIdle e].all fun c => decide (c = .ok ())) &&
    okAnd (chkBlkAt e b 128) fun x =>
      match x with
      | .at' l => !bytesBad ((blkBytes e l 128).take 120) && want ((blkBytes e l 128).map (·.1)) e
      | .gone _ => false

theorem test_witness_LabelWordsComplete_adm :
    admMeets 0 none (fun blk _ => recNat blk 8 4 / 2 % 2 == 0) = true ∧
    admMeets 2 none (fun blk e => recNat blk 8 4 / 2 % 2 == 1 && (e.g.ch.rels[recNat blk 8 4 / 4 % 4]?).join == none) = true ∧
    admMeets 2 (some (List.replicate 128 0)) (fun blk e => recNat blk 8 4 / 2 % 2 == 1 &&
      (e.g.ch.rels[recNat blk 8 4 / 4 % 4]?).join == some (List.replicate 128 0) && admLanes e blk 0 != []) = true := by decide +kernel

/-- Labels that are null, and two that are not. -/
theorem test_witness_AdmissionOfLabels : (2 ^ 64 - 1 : Nat) = 2 ^ 64 - 1 ∧ (0x301 : Nat) ≠ 2 ^ 64 - 1 ∧ (1 : Nat) ≠ 2 ^ 64 - 1 := by decide

/-- An unprivileged gang without a Churn. -/
def plainGang : Gang := { mgang with priv := false, churn := false }

def mayMeets (g : Gang) (n : Nat) : Bool := specKnown n && (!specPriv n || g.priv)

/-- A register for every wave, a privileged one, and `VCNT` with the halter. -/
theorem test_witness_SpecialRegisterWords : ∀ n ∈ [0x20, 0x21, 0x10, 0x30, 0x27, 0x26],
    let x := BitVec.ofNat 16 n
    (specKnown n = true ∧ (specPriv n = true → mgang.priv = true)) ∧ Issues (.mfs false 20 x) (one mgang) (envOf mgang (.mfs false 20 x)) ∧
    chkBusy (envOf mgang (.mfs false 20 x)) ([], []) ([], [20]) false = .ok () := by
  intro n hn
  refine ⟨⟨?_, fun _ => rfl⟩, issues_gangOf _ _, ?_⟩ <;> revert n <;> decide +kernel

theorem test_witness_SpecialRegisterWords_mts : ∀ n ∈ [0x21, 0x10, 0x26, 0x30],
    let i := Instr.mts (BitVec.ofNat 16 n) (.s 20)
    let e := envOf mgang i
    (specKnown n = true ∧ (specPriv n = true → e.priv = true)) ∧ specRo n = false ∧ (n = 0x26 → e.g.churn = true ∧ e.g.halter = some e.w.idx) ∧
    Issues i (one mgang) e ∧
    Passes [chkLatches e [⟨7, .s 20, Src.sc⟩], chkBusy e (srcRegs e.w e.k (.s 20) 1) ([], []) false] ∧ (e.ssrc .s32 (.s 20)).2 = false := by
  intro n hn
  refine ⟨⟨?_, fun _ => rfl⟩, ?_, fun _ => ⟨rfl, rfl⟩, issues_gangOf _ _, passes_of ?_, ?_⟩ <;> revert n <;> decide +kernel

/-- A gang whose context is there, with a Churn and its sixteen `DCLn`. -/
theorem test_witness_SpecialRegisterWords_read :
    (one mgang).ctx? mgang.ctx = some placedCtx ∧ mgang.churn = true ∧ mgang.dcl.length = 16 := ⟨rfl, rfl, rfl⟩

/-- A Byre whose first counter counts cycles and whose second counts words. -/
def countedState : State := { one mgang with perf := [⟨mgang.byreId, 0, 1, 5⟩, ⟨mgang.byreId, 1, 2, 7⟩] }

theorem test_witness_ClockAndFaultWords_events :
    (countedState.perfAt mgang.byreId 0).event ∈ [1, 6, 10, 11] ∧ (countedState.perfAt mgang.byreId 1).event ∉ [1, 6, 10, 11] ∧
    (one mgang).perfAt mgang.byreId 3 = ⟨mgang.byreId, 3, 0, 0⟩ := by decide +kernel

/-- The wave whose `IDLEW` is over with 1. -/
def wokenWave : Wave := { mwave with slot0 := { mwave.slot0 with st := .blocked (.woken 1) } }

theorem test_witness_ClockAndFaultWords_idlew :
    (∀ v, (envOf mgang (.idlew 20 (.s 8) (.k 0))).slot.st ≠ .blocked (.woken v)) ∧
    Issues (.idlew 20 (.s 8) (.k 0)) (one (gangOf wokenWave)) (envOf (gangOf wokenWave) (.idlew 20 (.s 8) (.k 0))) ∧
    (envOf (gangOf wokenWave) (.idlew 20 (.s 8) (.k 0))).slot.st = .blocked (.woken 1) := by
  refine ⟨fun v h => ?_, issues_gangOf _ _, rfl⟩
  cases h

theorem test_witness_ClockAndFaultWords :
    let e (i : Instr) : Env := envOf mgang i
    (∀ i, Issues i (one mgang) (e i)) ∧ chkBusy (e .nop) ([], []) ([], [20, 21]) false = .ok () ∧
    chkSys (e .nop) true [] [(8, .s 20)] ([], [22, 23]) = .ok () ∧ ((e .nop).ssrc .s32 (.s 20)).1.toNat ≤ 7 ∧
    chkSys (e .nop) true [] [(7, .s 20), (8, .s 21)] ([], []) = .ok () ∧
    Passes [chkSys (e .nop) true [(7, .s 8)] [(8, .s 20)] ([], []), chkDrained (e .nop) (BitVec.allOnes 8)] ∧
    chkSys (e .nop) false [(7, .s 8)] [(8, .k 0)] ([], [20]) = .ok () ∧ (e .nop).priv = true ∧
    chkSys (e .nop) false [(7, .s 20)] [(8, .k 0)] ([], [20]) = .ok () ∧ ((e .nop).psrc (.s 20)).1.toNat ≤ (one mgang).timeNs ∧
    (one mgang).timeNs < ((e .nop).psrc (.s 8)).1.toNat := by
  refine ⟨fun i => issues_gangOf i mwave, ?_, ?_, ?_, ?_, passes_of ?_, ?_, rfl, ?_, ?_, ?_⟩ <;> decide +kernel

def sysSamples : List Instr :=
  [.tlbinv .pkg 1 (.s 8) (.s 20) (.s 21), .icinv false 1 (.s 8) (.s 10), .icinv true 1 (.s 8) (.s 20), .ctxsave true 1 (.s 20), .ctxload false 1 (.s 20),
   .shtblSet 1 (.s 8), .shtblFlush true 1]

def sysMeets (i : Instr) : Bool :=
  i.wf &&
  match sysOf (envOf mgang i) i with
  | some (f, ps, xs, _) => decide (chkSysArm (envOf mgang i) (isPrivWord i) f ps xs = .ok ())
  | none => false

theorem test_sys_samples_meet : ∀ i ∈ sysSamples, sysMeets i = true := by decide +kernel

theorem test_witness_SystemCommandsStart : ∀ i ∈ sysSamples, ∃ f ps xs kind s e, sysOf e i = some (f, ps, xs, kind) ∧ Issues i s e ∧
    chkSysArm e (isPrivWord i) f ps xs = .ok () := by
  intro i hi
  have h := test_sys_samples_meet i hi
  simp only [sysMeets, Bool.and_eq_true] at h
  cases hb : sysOf (envOf mgang i) i with
  | none => simp [hb] at h
  | some x =>
    obtain ⟨f, ps, xs, kind⟩ := x
    rw [hb] at h
    exact ⟨f, ps, xs, kind, one mgang, envOf mgang i, hb, issues_gangOf i mwave, of_decide_eq_true h.2⟩

/-- `ICINV` of no bytes, and of some. -/
theorem test_icinv_lengths : ((envOf mgang .nop).ssrc .s32 (.s 20)).1.toNat = 0 ∧ ((envOf mgang .nop).ssrc .s32 (.s 10)).1.toNat = 0x20100 := by
  decide +kernel

/-- Every register field of a word is no latch and lies in the footprint. -/
def fieldsMeet (i : Instr) : Bool :=
  (Machine.fieldsOf i).all fun p => match p.2.1 with | .l _ => false | .v n => decide (n.toNat + p.2.2 ≤ plainGang.vcount) | _ => true

theorem fieldsMeet_elim (i : Instr) (h : fieldsMeet i = true) :
    ∀ p ∈ Machine.fieldsOf i, (∀ n, p.2.1 ≠ .l n) ∧ ∀ n : VR, p.2.1 = .v n → n.toNat + p.2.2 ≤ plainGang.vcount := by
  intro p hp
  have h := List.all_eq_true.mp h p hp
  refine ⟨fun n hn => by simp [hn] at h, fun n hn => ?_⟩
  rw [hn] at h
  exact of_decide_eq_true h

def churnSamples : List Instr :=
  [.czero 1 0, .cmma true 1 ⟨false, .s 8, 0⟩ 0, .crdv false 5 (.s 20) 0, .lblld 4 (.s 8) (.v 2) (.glob false 0 0 0 0 0), .cspec false 20 false 0 false 0]

/-- An illegal word; a privileged word in an unprivileged wave; a privileged, an unlisted and a read-only special register; a Churn
word without a Churn. -/
theorem test_witness_IllegalWordsTrap :
    (∀ i, Issues i (one plainGang) (envOf plainGang i)) ∧ (∀ i, (envOf plainGang i).priv = false) ∧
    (∀ i ∈ [Instr.hayfill 1 ⟨false, .s 8, 0⟩, .tlbinv .die 1 (.s 8) (.s 20) (.s 21), .fltresOk (.s 8) (.s 20), .perfrd 20 (.s 4)], isPrivWord i = true) ∧
    (specPriv 0x39 = true ∧ specKnown 0x3F = false ∧ specRo 0x00 = true ∧ specPriv 0x00 = false) ∧
    (∀ i ∈ churnSamples, isChurnWord i = true) ∧ plainGang.churn = false :=
  ⟨fun i => issues_one i _ mwave rfl, fun _ => rfl, by decide, by decide, by decide, rfl⟩

theorem test_witness_IllegalWordsTrap_fields : ∀ i ∈ churnSamples, ∀ p ∈ Machine.fieldsOf i,
    (∀ n, p.2.1 ≠ .l n) ∧ ∀ n : VR, p.2.1 = .v n → n.toNat + p.2.2 ≤ plainGang.vcount := by
  have h : ∀ i ∈ churnSamples, fieldsMeet i = true := by decide +kernel
  exact fun i hi => fieldsMeet_elim i (h i hi)

/-- The pair word of the manual's own example (R62-R64). -/
theorem test_witness_PairWordCompletes :
    let h0 : Half := ⟨.vadd, .f32, false, 3, some (.s 14), 0⟩
    let h1 : Half := ⟨.vaddi, .s32, false, 4, none, 1⟩
    let e := envOf mgang (.pairWord h0 h1)
    Issues (.pairWord h0 h1) (one mgang) e ∧ pairCheck e (halfWord h0) (halfWord h1) = .ok () ∧
      ((halfEval e (halfWord h0)).2.1 ||| (halfEval e (halfWord h1)).2.1) &&& e.w.fpen = 0 :=
  ⟨issues_gangOf _ _, by decide +kernel, by decide +kernel⟩

/-- A pair word swaps two scalar registers (R63, and the swap of R370's program). -/
theorem test_pair_word_swaps :
    (let w : Wave := { wave0 with sregs := setAt (setAt wave0.sregs 22 5) 24 9 };
     match decodeWord 0xA00964C040130960 with
      | .ok i => (match Machine.exec i (one (gangOf w)) with
        | .next t => (t.wave? 0 0).map fun w => (w.sreg false 22, w.sreg false 24)
        | _ => none)
      | _ => none) = some (9, 5) := by decide +kernel

theorem test_witness_FusedSequenceCompletes :
    let i := Instr.fusedSoftmax 5 1 2 3 4
    let e := envOf mgang i
    Issues i (one mgang) e ∧
    Passes [chkAll (fun p : Instr × VecWord => fusedFoot e p.1 p.2) ((fusedWords 5 1 2 3 4).zip (fusedVecs 5 1 2 3 4)),
      chkBusy e ([1], []) ([2, 3, 4], []) false] ∧ (e.w.vreg 1).bad &&& e.act = 0 :=
  ⟨issues_gangOf _ _, passes_of (by decide +kernel), by decide +kernel⟩

theorem test_witness_FusedSequenceCompletes_run :
    (match fusedRun (envOf mgang .nop) (emptyRows 1 5 (mwave.vreg 1)) true mwave (fusedVecs 5 1 2 3 4) with
      | .ok w => (w.vreg 3).lane 0 == 0x3F800000 && (w.vreg 4).lane 0 == 0x3F800000
      | .error _ => false) = true := by decide +kernel

/-- One lane's word, the `VADD` of the manual's `XVEC` example, in `v4:v5`. -/
def exchWave : Wave :=
  { mwave with vregs := setAt (setAt mwave.vregs 4 ⟨List.replicate 96 0xC0000000, 0⟩) 5 ⟨List.replicate 96 0x18002815, 0⟩ }

def exchMeets : Bool :=
  let e := envOf (gangOf exchWave) (.xvec 4)
  ([chkFoot e 7 4 2, chkBusy e ([4, 5], []) ([], []) false].all fun c => decide (c = .ok ())) &&
  (groupWords (laneWords e 4)).all (fun p => isLegal e p.1) &&
  match xIssueAll ⟨0, 0, false⟩ true (groupWords (laneWords e 4)) ⟨one (gangOf exchWave), 0, none⟩ with
  | .ok r => r.drop == 0 && (match r.s.wave? 0 0 with | some w => w.slot0.st != .parked && (w.vreg 5).lane 0 == 0x18002816 | none => false)
  | .error _ => false

theorem test_witness_ExchangeWordCompletes : exchMeets = true ∧ Issues (.xvec 4) (one (gangOf exchWave)) (envOf (gangOf exchWave) (.xvec 4)) ∧
    (exchWave.vreg 4).bad &&& 1 = 0 ∧ (exchWave.vreg 5).bad &&& 1 = 0 ∧ exchWave.ops = [] :=
  ⟨by decide +kernel, issues_gangOf _ _, by decide +kernel, by decide +kernel, rfl⟩

end Sys2Proof.Tests

/-! ## States that meet the statements' hypotheses: the step, its events, the host -/

namespace Sys2Proof.Tests

open Sys2Proof.Machine Sys2Proof.Claims

def isNext (o : Host.Outcome State Fault Refusal) : Bool :=
  match o with
  | .next _ => true
  | _ => false

theorem isNext_elim {o : Host.Outcome State Fault Refusal} (h : isNext o = true) : ∃ u, o = .next u := by
  cases o with
  | next u => exact ⟨u, rfl⟩
  | fault f => simp [isNext] at h
  | refused r => simp [isNext] at h

theorem test_witness_WordForms :
    (0x1780000000000000 : D).getLsbD 63 = false ∧ (Raw.ofWord 0x1780000000000000).op = 0x2F ∧
    (Raw.ofWord 0x1790000000000000).op = 0x2F ∧ (Raw.ofWord 0x1790000000000000).mod ≠ 0 ∧
    (Raw.ofWord 0x1780000000000001).op = 0x2F ∧ (Raw.ofWord 0x1780000000000001).mod = 0 ∧
    (0x8340347008008001 : D).getLsbD 63 = true ∧ (0x8340347008008001 : D).getLsbD 62 = false ∧
    (0xC000000000000000 : D).getLsbD 63 = true ∧ (0xC000000000000000 : D).getLsbD 62 = true ∧
    Issues (.illegalWord 0xC000000000000000 2 1 false) (one mgang) (envOf mgang (.illegalWord 0xC000000000000000 2 1 false)) :=
  ⟨by decide, by decide, by decide, by decide, by decide, by decide, by decide, by decide, by decide, by decide, issues_gangOf _ _⟩

theorem test_witness_EncodingRoundTrip :
    let i := Instr.sadd false false 3 (.s 4) (.imm 100)
    i.wf = true ∧ encode i = some 0x00441A1000000064 ∧ decodeWord 0x00441A1000000064 = .ok i := by
  intro i
  exact ⟨by decide +kernel, by decide +kernel, by decide +kernel⟩

/-- One gang whose first words stand in memory. -/
def stored (ws : List D) (agenda : List Action) : State :=
  { one mgang with
    mem := (ws.zip (List.range ws.length)).foldl (fun m p => Memory.write m (0x10000 + 8 * p.2) (natLe 8 p.1.toNat)) []
    agenda := agenda }

def cur0 : Cur := ⟨0, 0, false⟩

/-- The state and instruction with which the statement of a decoded word runs `exec`. -/
def stepMeets (ws : List D) (vr : Bool) : Bool :=
  let t := stored ws []
  let v := loseIfOther t cur0 mgang mwave
  let h : Gang := { mgang with waves := modAt mgang.waves 0 fun _ => v }
  let t1 := ({ t with cur := cur0, stale := false }).setWave 0 0 v
  let t2 := fillFetch t1 h v 0x10000
  let t3 := noteFetch t2 h v 0x10000
  let i := instrOf (BitVec.ofNat 64 (t2.mem.num 0x10000 8))
  let go (j : Instr) : Bool := match Machine.exec j t3 with | .next _ => true | _ => false
  mayIssueNow t cur0 && decide (translate t2 h ⟨false, true, true⟩ 0x10000 8 = .ok 0x10000) &&
    (isVrmax i == vr) &&
    (if vr then
      match ahead t3 ⟨t2, 0, 0, false, h, v, 0⟩ 3 0x10008 with
      | .ok [a, b, c] => decide ((fuseOf i (instrOf a) (instrOf b) (instrOf c)).isSome = true)
          && go ((fuseOf i (instrOf a) (instrOf b) (instrOf c)).getD i)
      | _ => false
    else go i)

def fusedFour : List D := (fusedWords 0 1 2 3 4).filterMap encode

theorem test_witness_StepRunsDecodedWord :
    stepMeets [0x1780000000000000] false = true ∧ stepMeets fusedFour true = true ∧
    IssuesNext (stored [] [.issue cur0 false]) cur0 (stored [] []) ∧ IssuesNext (stored [] []) cur0 (stored [] []) ∧
    (stored [] []).gang? 0 = some mgang ∧ mgang.wave? 0 = some mwave ∧ (mwave.slot false).st = .ready ∧
    (∀ va, (mwave.slot false).st ≠ .blocked (.lost va)) ∧
    (mwave.slot false).pc = 0x10000 ∧ privileged mgang mwave = true := by
  refine ⟨by decide +kernel, by decide +kernel, .inl ⟨[], rfl, rfl⟩, .inr ⟨rfl, by decide +kernel, by decide +kernel, rfl⟩, rfl, rfl, rfl,
    fun va h => (nomatch (show SlotSt.ready = .blocked (.lost va) from h)), rfl, by decide +kernel⟩

/-- A fetch from a page that is not mapped as executable: `ACCESS` subcode 5 with the word's address (R308, R309). -/
theorem test_fetch_fails :
    let g : Gang := { mgang with waves := [{ mwave with slot0 := { mwave.slot0 with pc := 0x20000 } }] }
    (match step { one g with agenda := [.issue cur0 false] } with
      | .next t => (t.wave? 0 0).map fun w => (w.tcause, w.tpc, w.tval, w.slot0.pc)
      | _ => none) = some (0x504, 0x20000, 0x20000, 0x10800) := by decide +kernel

/-- An event that the agenda names; a load that may be performed; a split that idles while nothing else moves. -/
theorem test_witness_StepRunsEvents :
    ((stored [] [.event (.patrolScrub 5)]).agenda = [.event (.patrolScrub 5)] ∧ isEvent (.patrolScrub 5) = true) ∧
    (let s := one (gangOf (loading mwave)); s.agenda = [] ∧ nextEvent s = some (.loadWriteback 0 0 0 allLanes false)) ∧
    (let s := one (gangOf { mwave with slot0 := { mwave.slot0 with st := .blocked (.idle 20 100 false) } });
      s.agenda = [] ∧ nextEvent s = none ∧ pick s = none ∧ idleEvent s = some (.idlewDeadline 0 0 false)) := by
  refine ⟨⟨rfl, rfl⟩, ⟨rfl, by decide +kernel⟩, ⟨rfl, by decide +kernel, by decide +kernel, by decide +kernel⟩⟩

theorem test_witness_MemoryCanonicalStep :
    (stored [0x1780000000000000] []).memOk = true ∧ ∃ t, step (stored [0x1780000000000000] []) = .next t := by
  refine ⟨by decide +kernel, ?_⟩
  have h : (match step (stored [0x1780000000000000] []) with | .next _ => true | _ => false) = true := by decide +kernel
  revert h
  cases step (stored [0x1780000000000000] []) with
  | next t => exact fun _ => ⟨t, rfl⟩
  | fault f => exact fun h => by simp at h
  | refused r => exact fun h => by simp at h

/-! ### Dispatch -/

/-- A grid of which die 0 holds gangs 1 to 3, of two waves of 16 vector registers. -/
def dealtGrid : Grid :=
  { grid0 7 with
    bytes := setAt (setAt (setAt (List.replicate 128 0) 24 1) 25 1) 8 3
    chunks := [⟨0, 1, 4⟩] }

def dealtState : State := { State.reset with grids := [dealtGrid], ctxs := [ctx0] }

theorem test_witness_GangStarts :
    dealtState.grid? dealtGrid.id = some dealtGrid ∧ dealtGrid.nextOn 0 = some 1 ∧
    fits dealtState 0 5 (recFoot dealtGrid.bytes) = some [(0, 0), (1, 0)] ∧ dealtState.hub.thsd = false ∧
    outranked dealtState 0 dealtGrid.prio false = false ∧ dealtState.ctx? dealtGrid.ctx = some ctx0 ∧
    1 < gridSize dealtGrid.kind dealtGrid.bytes := by decide +kernel

/-- The block of addresses below 2^25, resident and executable, at the same physical addresses. -/
def resident : Memory := [(0x100000, 0x01), (0x100002, 0x11), (0x110000, 0x01), (0x110002, 0x12), (0x120000, 0x2F)]

/-- A launch of the record at 0x20000 that waits in queue 1 of context 0. -/
def pend0 : Pend := ⟨0, 0, 3, 1, 0x20000, some 0x20100, .die, 0, .launched, 0, false, [], none⟩

def queue0 : LQueue := ⟨[], [pend0], 0, 0⟩

def waitCtx : Ctx := { ctx0 with queues := setAt ctx0.queues 1 queue0 }

def waitState : State := { one (futGang .pending) with ctxs := [waitCtx], mem := resident }

theorem test_witness_DispatchEventsComplete_accept :
    acceptHead waitState 0 1 = some (waitCtx, queue0, pend0) ∧ pend0.kind = .launched ∧ pend0.denied = none ∧
    examine waitState (blankGang 0 0 0) .launched false false 0x20000 = .record 0 (List.replicate 96 0) [] := by decide +kernel

/-- A grid with gangs to deal, die by die and pod-wide. -/
def openGrid : Grid := { grid0 7 with next := 0, chunks := [], root := true }

theorem test_witness_DispatchEventsComplete_deal :
    (let s : State := { State.reset with grids := [openGrid], ctxs := [ctx0] }; dealPick s 0 = some openGrid ∧ openGrid.scope ≠ .pod) ∧
    (let r : Grid := { openGrid with scope := .pod, next := 4, started := true, chunks := [⟨4, 0, 4⟩] };
      dealPick { State.reset with grids := [r], ctxs := [ctx0] } 0 = some r) := by decide +kernel

/-- A gang whose wave has ended, and one that was killed, of grid 7. -/
def overGang (st : GangSt) : Gang := { gangOf { mwave with ended := true } with st := st, grid := 7 }

theorem test_witness_DispatchEventsComplete_complete : ∀ st ∈ [GangSt.ended, .killed, .dropped],
    let s : State := { one (overGang st) with grids := [grid0 7] }
    GangAt s 0 0 (overGang st) ∧ (overGang st).finished = true ∧ s.grid? (overGang st).grid = some (grid0 7) := by
  intro st h
  refine ⟨⟨rfl, rfl⟩, ?_, ?_⟩ <;> revert st <;> decide +kernel

/-- A grid whose gangs have completed; its record and completion object lie in resident pages. -/
theorem test_witness_DispatchEventsComplete_grid :
    let r : Grid := { grid0 7 with root := true, doneg := 4 }
    let s : State := { State.reset with grids := [r], ctxs := [ctx0], mem := resident }
    s.grid? r.id = some r ∧ s.gridDone r = true ∧ r.waits = [] ∧
      ((gridWrites r).all fun x => match gridPlace s r x.1 x.2.length with | .park _ => false | _ => true) = true ∧
      (match gridBar s r with | .park _ => false | _ => true) = true := by decide +kernel

/-- A task that has been put and waits for nothing, and one that has run. -/
def task0 (running : Bool) : Task := ⟨0x30000, 0, List.replicate 128 0, 0, true, running, none, none, false, [], none, [], none, running⟩

theorem test_witness_DispatchEventsComplete_task : ∀ running : Bool,
    let s : State := { State.reset with dies := [{ Die.reset with tasks := [task0 running] }, .reset, .reset, .reset], ctxs := [ctx0] }
    taskAt s 0 0x30000 = some (task0 running) ∧ (task0 running).due s = true := by decide +kernel

/-- A trough with room whose silo holds a slot in a mapped page. -/
def siloGang : Gang :=
  { gangOf mwave with
    stages := [⟨0x10000, 1, false⟩, ⟨0x10008, 1, false⟩]
    troughs := [⟨0, 4, 0, 1, [], 1, 0, false⟩]
    siloBase := 0x20000, siloK := 64 }

theorem test_witness_DispatchEventsComplete_silo :
    GangAt (one siloGang) 0 0 siloGang ∧ refills (one siloGang) siloGang 0 = true ∧
    siloGang.trough? 0 = some ⟨0, 4, 0, 1, [], 1, 0, false⟩ ∧
    translate (one siloGang) siloGang ⟨false, false, siloGang.priv⟩ (siloVa siloGang 0 ⟨0, 4, 0, 1, [], 1, 0, false⟩ 0) 64
      = .ok 0x20000 := by
  refine ⟨⟨rfl, rfl⟩, by decide +kernel, rfl, by decide +kernel⟩

/-! ### Engines -/

/-- A gang of grid 7 with one operation, issued by its wave on future 3. -/
def opOf (kind : EngKind) (out : Option (FState × Nat)) (cancel : Bool) (waits : List Nat) : EngOp :=
  ⟨5, 0, some 3, 1, kind, 0, false, [], false, .c, 0, true, waits, 0, [], cancel, out, [], 0, 7, 3⟩

def opGang (o : EngOp) : Gang := { futGang .pending with eops := [o], nextOp := 6 }

/-- A `COPY` that ended Done, Failed or Cancelled; its future still stands Pending. -/
theorem test_witness_EngineEventsComplete_end : ∀ out ∈ [(FState.done, 0), (.failed, 3), (.cancelled, 0)],
    let o := opOf (.copy false 0 0x20000 0x20100 64) (some out) false []
    let g := opGang o
    GangAt (one g) 0 0 g ∧ g.engines = true ∧ g.op? 5 = some o ∧ isEngine o = true ∧ hasRecord o = false ∧ o.waits = [] ∧ o.denied = [] ∧
      o.out = some out ∧ opFree o = true ∧ g.wave? o.wave = some (futWave .pending) ∧ PendingAt (futWave .pending) 3 1 := by
  intro out h
  exact ⟨⟨rfl, rfl⟩, rfl, rfl, rfl, rfl, rfl, rfl, rfl, rfl, rfl, by decide, rfl, rfl⟩

theorem test_witness_EngineEventsComplete_stop : ∀ waits ∈ [[], [2]],
    let o := opOf (.copy false 0 0x20000 0x20100 64) none true waits
    let g := opGang o
    GangAt (one g) 0 0 g ∧ g.engines = true ∧ g.op? 5 = some o ∧ canStop o = true := by
  intro waits h
  refine ⟨⟨rfl, rfl⟩, rfl, rfl, ?_⟩
  revert waits; decide +kernel

/-- A Churn queue with one entry. -/
def chGang (q : ChEntry) : Gang := { futGang .pending with ch := { startChurn true with queue := [q] } }

def zeroEntry (res : Option ChRes) : ChEntry := { newEntry (envOf (futGang .pending) .nop) (some 3) (.zero 1) with serial := 1, res := res }

theorem test_witness_EngineEventsComplete_churn :
    (let g := chGang (zeroEntry none); let q := zeroEntry none;
      g.entryDue = some q ∧ q.cancel = false ∧ q.denied = [] ∧ q.waits = [] ∧ g.ch.frame = none ∧ 1 < g.ch.accs.length ∧
        (g.ch.accs.getD 1 []).length = 4096 ∧ g.engines = true) ∧
    (let q := zeroEntry (some ⟨.done, 9, 0, 0, 0, none⟩); let g := chGang q;
      g.entryDone = some (q, ⟨.done, 9, 0, 0, 0, none⟩) ∧ g.ch.frame = none ∧ q.hasBlk = false ∧ q.denied = [] ∧ q.waits = [] ∧
        q.freg = some 3 ∧ g.wave? q.wave = some (futWave .pending) ∧ PendingAt (futWave .pending) 3 q.serial) := by
  refine ⟨⟨rfl, rfl, rfl, rfl, rfl, by decide +kernel, by decide +kernel, rfl⟩, ⟨rfl, rfl, rfl, rfl, rfl, rfl, rfl, by decide, rfl, rfl⟩⟩

theorem test_witness_EngineEventsComplete_system : ∀ a ∈ [0x30000, 0x30008],
    let o := opOf (.shtblSet a) none false []
    let g := opGang o
    g.op? 5 = some o ∧ isEngine o = false ∧
      (runSys (one g) 0 g o).out = some (if a % 2 ^ 16 = 0 then .done else .failed, if a % 2 ^ 16 = 0 then 0 else 2) := by
  intro a h
  refine ⟨rfl, rfl, ?_⟩
  revert a; decide +kernel

theorem test_witness_EngineEventsComplete_ctxload :
    let o := opOf (.ctxload true 9) none false []
    let g := opGang o
    let x : Gang := { mgang with id := 1, ctx := 9, st := .saved false }
    (9 ≤ 63) ∧ o.kind = .ctxload true 9 ∧
      (runSys { State.reset with gangs := [g, x] } 0 g o).out = some (.done, 1) := by decide +kernel

/-! ### Pre-emption and faults -/

/-- A context with a save area of 1 MiB, and one without. -/
def saveCtx (len : Nat) (images : List SaveImg) : Ctx := { ctx0 with saveLen := len, images := images }

def stopGang (tell : Option (Nat × Nat)) : Gang := { mgang with st := .stopping tell, spadLen := 4096, churn := false }

theorem test_witness_PreemptionAndFaultEvents_save : ∀ len ∈ [0, 0x100000],
    let g := stopGang none
    let s : State := { one g with ctxs := [saveCtx len []] }
    GangAt s 0 0 g ∧ g.canSave = true ∧ g.eops = [] ∧ s.ctx? g.ctx = some (saveCtx len []) ∧
      imageRoom (saveCtx len []) (imageSize g) = if len = 0 then none else some 0 := by
  intro len h
  refine ⟨⟨rfl, rfl⟩, rfl, rfl, rfl, ?_⟩
  revert len; decide +kernel

/-- A saved gang whose image stands as written, and one whose image was changed. -/
def image0 (b : Byte) : SaveImg := ⟨0, 0, List.replicate 64 b, []⟩

def savedGang : Gang := { mgang with st := .saved true, spadLen := 4096, churn := false }

theorem test_witness_PreemptionAndFaultEvents_restore : ∀ b ∈ [(0 : Byte), 1],
    let c := saveCtx 0x100000 [image0 b]
    let s : State := { one savedGang with ctxs := [c], tags := [⟨0x2C000, 0, 0, none⟩] }
    GangAt s 0 0 savedGang ∧ s.hub.thsd = false ∧ outranked s 0 savedGang.prio true = false ∧
      fits s 0 3 savedGang.foot = some [(0, 0)] ∧ s.ctx? savedGang.ctx = some c ∧
      c.images.find? (fun x => x.gang == savedGang.id) = some (image0 b) ∧ imageOk s c (image0 b) = (b == 0) := by
  intro b h
  refine ⟨⟨rfl, rfl⟩, rfl, ?_, ?_, rfl, rfl, ?_⟩ <;> revert b <;> decide +kernel

/-- Four Byres' worth of gangs: die 0 is full of low-priority gangs and a grid of priority 7 waits. -/
def fullGang (n : Nat) : Gang :=
  { blankGang n 0 0 with byre := n, spadLen := 2 ^ 20, grid := 8, waves := [mwave], prio := 0 }

def urgentGrid : Grid := { grid0 7 with queue := 7, prio := 7, bytes := setAt (List.replicate 128 0) 26 1, chunks := [⟨0, 1, 4⟩] }

def urgentState : State :=
  { State.reset with
    gangs := (List.range 80).map fullGang, grids := [grid0 8, urgentGrid], ids := 90
    ctxs := [{ ctx0 with queues := (List.range 8).map fun q => ⟨[], [], 0, q⟩ }] }

theorem test_witness_PreemptionAndFaultEvents_schedule :
    (urgentState.gangs.all fun g => decide (g.st = .running)) = true ∧
    (match waitingOn urgentState 0 with
     | [x] => (victim urgentState 0 x).map (·.id)
     | _ => none) = some 79 ∧ GangAt urgentState 79 79 (fullGang 79) :=
  ⟨by decide +kernel, by decide +kernel, ⟨by decide +kernel, rfl⟩⟩

/-- A pipeline gang with two waves in stage 1, whose input is empty, and a full input of stage 2. -/
def drawGang : Gang :=
  let w (i : Nat) : Wave := { mwave with idx := i, stage := 1, slot0 := { mwave.slot0 with pc := 0x10008 } }
  { gangOf mwave with
    waves := [mwave, w 1, w 2]
    stages := [⟨0x10000, 1, false⟩, ⟨0x10008, 1, false⟩, ⟨0x10010, 1, false⟩]
    troughs := [⟨0, 1, 0, 1, [], 0, 0, false⟩, ⟨128, 1, 1, 2, [(List.replicate 16 5, 0)], 0, 0, false⟩] }

theorem test_witness_PreemptionAndFaultEvents_stage :
    GangAt (one drawGang) 0 0 drawGang ∧ drawGang.st = .running ∧
    (match drawGang.wave? 1 with | some w => mayReassign drawGang w && decide (drawStage drawGang w.stage = some 2) | none => false) = true ∧
    (drawGang.stages[2]?).isSome = true := ⟨⟨rfl, rfl⟩, rfl, by decide +kernel, rfl⟩

/-- A fault request, to be posted; posted, of a context with and without a paging handler. -/
def req0 (posted : Bool) : FReq := ⟨4, 0, 0, 2, 0x20000, 1, 0, 0, 1, 0, posted, false, [.lanes 0 0]⟩

theorem test_witness_PreemptionAndFaultEvents_requests :
    (let s : State := { one mgang with reqs := [req0 false] };
      s.reqs.find? (fun r => r.id == 4) = some (req0 false) ∧ canPost s (req0 false) = true ∧ s.die? (req0 false).die = some .reset) ∧
    (let s : State := { one mgang with reqs := [req0 true], ctxs := [ctx0] };
      let t : State := { s with gangs := [mgang, serviceGang 9 0] };
      t.hub.thsd = false ∧ t.hasService 0 = true ∧ nextReq t 0 = some (req0 true) ∧ t.ctx? (req0 true).ctx = some ctx0 ∧
        ctx0.pghnd = 0 ∧ fromPager t (req0 true) = false) ∧
    (let t : State := { one mgang with
        gangs := [{ mgang with grid := 7 }, serviceGang 9 0], grids := [{ grid0 7 with kind := .pager 0 }]
        reqs := [req0 true], ctxs := [{ ctx0 with pghnd := 0x8000 }] };
      t.hasService 0 = true ∧ nextReq t 0 = some (req0 true) ∧ fromPager t (req0 true) = true) ∧
    (let w : Wave := { mwave with slot0 := { mwave.slot0 with st := .blocked (.idle 20 100 false) } };
      GangAt (one (gangOf w)) 0 0 (gangOf w) ∧ (gangOf w).wave? 0 = some w ∧ (w.slot false).st = .blocked (.idle 20 100 false)) ∧
    (let t : TlbEnt := ⟨3, 0, 0x20000, 0x10000, 0x20000, 256⟩;
      tlbAt { one mgang with tlb := [t] } 3 0 = some t ∧ 256 ≤ t.hits) := by
  refine ⟨⟨rfl, rfl, rfl⟩, by decide +kernel, by decide +kernel, ⟨⟨rfl, rfl⟩, rfl, rfl⟩, ⟨rfl, by decide⟩⟩

/-! ### Pod-wide grids -/

def pods (told reported : Bool) : List PodPkg := [⟨0, 0, told, reported, 0, 0, 0⟩, ⟨1, 4, told, reported, 0, 0, 0⟩]

/-- A pod-wide grid at its root, of packages 0 and 1. -/
def rootGrid0 (started : Bool) (next : Nat) (told reported : Bool) : Grid :=
  { grid0 3 with
    scope := .pod, root := true, started := started, total := 2000, next := next, pkgs := pods told reported }

def podMap01 (s : State) : State := { s with hub := { s.hub with podMap := [0, 1], ready := true } }

def podState (gs : List Grid) (ms : List Msg) : State := podMap01 { State.reset with grids := gs, msgs := ms, ctxs := [ctx0] }

theorem test_witness_PodEventsComplete_root :
    (let r := rootGrid0 false 0 false false; let s := podState [r] [];
      s.grid? r.id = some r ∧ r.over = false ∧ s.hub.thsd = false ∧ rootEligible s r = true) ∧
    (∀ next ∈ [0, 2000], ∀ cancel : Bool, let r : Grid := { rootGrid0 true next false false with cancel := cancel };
      (podState [r] []).grid? r.id = some r ∧ (∃ p ∈ r.pkgs, p.pkg = 1 ∧ p.told = false ∧ p.reported = false) ∧
        (r.over = cancel) ∧ (r.next = r.total ↔ next = 2000)) := by
  refine ⟨⟨rfl, rfl, rfl, rfl⟩, fun n hn cancel => ⟨rfl, ⟨⟨1, 4, false, false, 0, 0, 0⟩, by simp [rootGrid0, pods], rfl, rfl, rfl⟩, ?_, Iff.rfl⟩⟩
  cases cancel <;> rfl

/-- A grid of package 1's root: its message, a chunk, the end of deal. -/
def farNum : Nat := 2 ^ 64 + 9

def farGrid : Grid := { grid0 6 with num := farNum, scope := .pod, pkgs := [⟨0, 0, false, false, 0, 0, 0⟩] }

def gridMsg (ctx lo hi : Nat) : Msg := .grid 0 farNum ctx 1 3 (List.replicate 96 0) 5 lo hi false

theorem test_witness_PodEventsComplete_messages :
    (∀ ctx ∈ [0, 9], let s := podState [] [gridMsg ctx 4 8];
      s.msgs[0]? = some (gridMsg ctx 4 8) ∧ inOrder s 0 = true ∧ rootOf farNum ≠ Config.pkg ∧ s.numGrid farNum = none ∧
        s.ctx? ctx = (if ctx = 0 then some ctx0 else none) ∧ stageTab s ctx (List.replicate 96 0) false = .got []) ∧
    (let s := podState [farGrid] [.chunk 0 farNum 8 20];
      inOrder s 0 = true ∧ s.numGrid farNum = some farGrid) ∧
    (∀ abort : Bool, let s := podState [farGrid] [.endDeal 0 farNum abort false];
      inOrder s 0 = true ∧ s.numGrid farNum = some farGrid) := by
  refine ⟨?_, ?_, ?_⟩ <;> decide +kernel

/-- A pipeline record whose stage table lies in a page that is not resident. -/
def pipeRec : List Byte := setAt (setAt (List.replicate 96 0) 28 4) 42 2

def parkState : State :=
  { podState [] [.grid 0 farNum 0 1 3 pipeRec 5 4 8 false] with mem := tables }

theorem test_witness_PodEventsComplete_park :
    inOrder parkState 0 = true ∧ parkState.ctx? 0 = some ctx0 ∧ stageTab parkState 0 pipeRec false = .park 0x20000 ∧
      parkState.msgWaits farNum = false := by decide +kernel

/-- What package 1 sends: a grid, a chunk that was asked for, the notice, a fault. -/
theorem test_witness_PodEventsComplete_other :
    (let s := podState [] []; otherRoot s farNum = true ∧ s.numGrid farNum = none ∧ s.msgs.any (Msg.isGrid farNum) = false ∧
      (List.replicate 96 (0 : Byte)).length = 96 ∧ 1 ≤ gridSize .launched (List.replicate 96 0)) ∧
    (let s := podState [farGrid] [.chunkReq farNum 0]; otherRoot s farNum = true ∧ s.numGrid farNum = some farGrid ∧
      s.msgs.any (Msg.asks farNum) = true ∧ 1 ≤ gridSize .launched farGrid.bytes ∧ knownGrid s farNum = true) ∧
    (let r := rootGrid0 true 40 false false; let s := podState [r] []; s.numGrid r.num = some r ∧ faultOk s r 1 2 = true) ∧
    (let r : Grid := { farGrid with next := 4, total := 4 }; let s := podState [r] [];
      s.grid? r.id = some r ∧ r.root = false ∧ r.started = true ∧ r.over = false ∧ r.heldHere < 320 ∧
        chunkComing s r.num = false ∧ r.told Config.pkg = false) := by decide +kernel

/-- A grid that another package's `CANCEL` names, and this package's request to another root. -/
theorem test_witness_PodEventsComplete_cancels :
    (let r := rootGrid0 true 40 false false; let s := podState [r] [];
      namedGrid s 0 0x20100 = some r ∧ r.over = false ∧ ∃ p ∈ r.pkgs, p.pkg = 1) ∧
    (let s : State := { podState [] [.cancelAt 0 0x20100 0 0 3 1] with gangs := [futGang .pending] };
      s.msgs[0]? = some (.cancelAt 0 0x20100 0 0 3 1) ∧ s.gangIdx 0 = some 0) :=
  ⟨⟨by decide +kernel, rfl, ⟨1, 4, false, false, 0, 0, 0⟩, by simp [rootGrid0, pods], rfl⟩, rfl, rfl⟩

theorem test_witness_PodEventsComplete_reports :
    (let r := rootGrid0 true 2000 true false; let s := podState [r] []; s.grid? r.id = some r ∧ mayReport s r = true) ∧
    (let r := rootGrid0 true 2000 true false; let s := podState [r] []; s.grid? r.id = some r ∧ reportOk s r 1 3 1 0 0 = true) ∧
    (let r := rootGrid0 true 2000 true true;
      let s := podState [r] [.report r.num 0 5 0 0 0 none, .report r.num 1 4 0 0 0 none];
      s.grid? r.id = some r ∧ groupReady s r 0 = true) ∧
    (let r := rootGrid0 true 40 false false; let s := podState [r] [.fault r.num 1 (podFault 1 3)];
      s.numGrid r.num = some r ∧ (∀ x ∈ s.grids, x.id = r.id → x = r) ∧ r.early = false) ∧
    (let r := rootGrid0 true 40 false false;
      let s : State := { podState [r] [.cancel r.num 0 0 3 1] with gangs := [futGang .pending] };
      s.numGrid r.num = some r ∧ r.over = false ∧ s.gangIdx 0 = some 0) := by
  refine ⟨⟨rfl, by decide +kernel⟩, ⟨rfl, by decide +kernel⟩, ⟨rfl, by decide +kernel⟩, ⟨rfl, fun x hx _ => List.mem_singleton.mp hx, rfl⟩, ⟨rfl, rfl, rfl⟩⟩

theorem test_witness_PodEventsComplete_ports :
    ((31 : Nat) < 32 ∧ 31 ∉ State.reset.hub.ports ∧ retriesOf State.reset.hub 31 < 16) ∧
    (let h : Hub := { Hub.reset with retries := [(31, 16)] }; retriesOf h 31 = 16 ∧ 31 ∉ h.ports ∧ h.ports.length < 31) ∧
    (let r := rootGrid0 true 2000 false false;
      let s : State := { podState [r] [] with hub := { Hub.reset with podMap := [0, 1], dead := [1] } };
      s.grid? r.id = some r ∧ 1 ∈ s.hub.dead ∧ (∃ p ∈ r.pkgs, p.pkg = 1 ∧ p.reported = false)) := by
  refine ⟨by decide, by decide, rfl, by decide, ⟨1, 4, false, false, 0, 0, 0⟩, by simp [rootGrid0, pods], rfl, rfl⟩

/-! ### Host, clocks, errors -/

def hubState (h : Hub) : State := { State.reset with hub := h }

/-- A command that comes before READY, while another runs, and on a free port; one that ends, and a Destroy that ends. -/
theorem test_witness_HostEventsComplete :
    (∀ code ∈ [1, 2, 3, 4], (BitVec.ofNat 64 code).toNat % 16 = code) ∧
    (∀ n ∈ [1, 2, 3, 4, 5, 6, 7], (hubState { Hub.reset with stage := n }).hub.bringing = true) ∧
    State.reset.hub.ready = false ∧
    (let h : Hub := { Hub.reset with ready := true, lpbusy := true, lpcmd := 3 };
      h.lpcmd.toNat % 16 = 3 ∧ h.result = 0 ∧ ctxStopped (hubState h) (cmdCtx h.lpcmd) = true) ∧
    (let h : Hub := { Hub.reset with ready := true, lpbusy := true, lpcmd := 1 }; h.lpbusy = true ∧ h.lpcmd.toNat % 16 ≠ 3) ∧
    (let h : Hub := { Hub.reset with ready := true }; h.ready = true ∧ h.lpbusy = false) ∧
    State.reset.mem.wf = true ∧ State.reset.tags = [] ∧ (hubState { Hub.reset with stage := 5 }).mem.wf = true := by decide +kernel

/-- What the host has written before stage 5 ends is gone after it, poison and all (R351). -/
theorem test_stage_5_clears :
    (match Machine.exec (.bringUp .go []) { hubState { Hub.reset with stage := 5 } with mem := [(0x800000, 7)], memBad := [0x100000] } with
      | .next t => (t.mem, t.memBad)
      | _ => ([(0, 0)], [])) = ([], []) := by decide +kernel

/-- PCAP's stored values at the bounds of R355, and the words of a failed and of an ended bring-up as HSTAT reads them (R350). -/
theorem test_pcap_clamps : [0, 1, 799, 800, 3200, 3201, 4095].map capStored = [0, 800, 800, 800, 3200, 3200, 3200] := by decide +kernel

/-- Bring-up begun, in stage `n`. -/
def bringAt (n : Nat) : State := hubState { Hub.reset with stage := n }

/-- The words that `HSTAT` reads after a stage has failed and once bring-up has ended (R350, R351). -/
theorem test_bring_up_hstat :
    (match execBringUp .fail [] (bringAt 3) with | .next t => hubRead t.hub 0 | _ => 0) = 0xFF02 ∧
    (match execBringUp .go [] (bringAt 7) with | .next t => hubRead t.hub 0 | _ => 0) = 0x0701 := by decide +kernel

theorem test_witness_ClockAndErrorEvents :
    State.reset.die? 0 = some Die.reset ∧ ({ Die.reset with sag := true } : Die).sag = true ∧
    (let r := grid0 7; r.kind = .launched ∧ r.early = false) ∧
    (∀ n, n < 64 → montKind n = 0 → ((State.reset.hub.mont[n]?).getD 0).toInt < 800) ∧
    State.reset.hub.mont.length = 64 ∧
    (0x1000 < Config.devBytes ∧ 0x1001 / 8 = 0x1000 / 8) ∧
    (GangAt (one mgang) 0 0 mgang ∧ 8 * 100 < mgang.spadLen) := by
  refine ⟨rfl, rfl, ⟨rfl, rfl⟩, by decide +kernel, rfl, by decide, ⟨rfl, rfl⟩, by decide +kernel⟩

end Sys2Proof.Tests
end

section
/-! SUPPORT. Which words decode to a pair word (R50): what a decoder can yield, with a rule for every way in which the decoder
is put together, and from it what each opcode row, the full form and the pair form can yield. -/

namespace Sys2Proof

open Sys2Proof.Machine Sys2Proof.Claims

/-! ## What a decoder yields -/

/-- Whatever instruction the decoder's answer `x` holds has `P`; a rejected word holds none. -/
def Yields (P : Instr → Prop) (x : Dec Instr) : Prop := ∀ i, x = .ok i → P i

section
variable {P : Instr → Prop}

@[simp] theorem yields_ok (i : Instr) : Yields P (.ok i) ↔ P i := by simp [Yields]

@[simp] theorem yields_error (e : Reject) : Yields P (.error e) := by simp [Yields]

@[simp] theorem yields_badMod : Yields P badMod := yields_error _

@[simp] theorem yields_badOp : Yields P badOp := yields_error _

/-- A field that is read first matters only where it is accepted. -/
@[simp] theorem yields_bind {α : Type} (x : Dec α) (f : α → Dec Instr) :
    Yields P (x >>= f) ↔ ∀ a, x = .ok a → Yields P (f a) := by
  cases x with
  | error e => simp [Yields, bind, Except.bind]
  | ok a => simp [bind, Except.bind]

@[simp] theorem yields_ite (c : Prop) [Decidable c] (x y : Dec Instr) :
    Yields P (if c then x else y) ↔ (c → Yields P x) ∧ (¬c → Yields P y) := by
  by_cases hc : c <;> simp [hc]

end

/-! ## The full form yields no pair word (R50, R65)

Each row is split by the low half of its opcode. In the cases named by tag a second code, of `MOD` or in `X`, selects the
instruction; there the split goes one level further. -/

/-- The instruction is no pair word. -/
def NotPair (i : Instr) : Prop := ∀ h0 h1, i ≠ .pairWord h0 h1

theorem row0_yields_notPair (lo : Nat) (r : Raw) : Yields NotPair (row0 lo r) := by
  unfold row0
  split <;> simp [alu, NotPair]

theorem maskWord_yields_notPair (r : Raw) : Yields NotPair (maskWord r) := by
  unfold maskWord
  split <;> simp [NotPair]

theorem row1_yields_notPair (lo : Nat) (r : Raw) : Yields NotPair (row1 lo r) := by
  unfold row1
  split
  case h_1 | h_8 | h_9 => split <;> simp [NotPair]
  case h_14 => exact maskWord_yields_notPair r
  all_goals simp [s1, NotPair]

theorem row2_yields_notPair (lo : Nat) (r : Raw) : Yields NotPair (row2 lo r) := by
  unfold row2
  split
  case h_4 | h_9 | h_12 => split <;> simp [NotPair]
  all_goals simp [bare, target, NotPair]

theorem row3_yields_notPair (lo : Nat) (r : Raw) : Yields NotPair (row3 lo r) := by
  unfold row3
  split <;> simp [arith2, su2, minmax, absneg, bit2, NotPair]

theorem row4_yields_notPair (lo : Nat) (r : Raw) : Yields NotPair (row4 lo r) := by
  unfold row4
  split
  case h_6 => simp only [yields_bind]; intros; split <;> simp [NotPair]
  case h_9 => split <;> simp [NotPair]
  all_goals simp [su2, NotPair]

theorem row5_yields_notPair (lo : Nat) (r : Raw) : Yields NotPair (row5 lo r) := by
  unfold row5
  split
  case h_9 => simp only [yields_bind]; intros; split <;> simp [NotPair]
  all_goals simp [float3, float1, spf, seg1, NotPair]

theorem planeF_yields_notPair (k : HTy → Bool → VR → Src → Instr) (r : Raw) (hk : ∀ h nw d b, NotPair (k h nw d b)) :
    Yields NotPair (planeF k r) := by
  simp only [planeF, yields_bind]
  intros
  split <;> simp [hk]

theorem row6_yields_notPair (lo : Nat) (r : Raw) : Yields NotPair (row6 lo r) := by
  unfold row6
  split
  case h_1 | h_4 | h_5 | h_8 => simp only [yields_bind]; intros; split <;> simp [NotPair]
  case h_2 | h_3 => dsimp only; split <;> simp [NotPair]
  case h_6 | h_7 => exact planeF_yields_notPair _ r (by simp [NotPair])
  all_goals simp [spf, NotPair]

theorem row7_yields_notPair (lo : Nat) (r : Raw) : Yields NotPair (row7 lo r) := by
  unfold row7
  split
  case h_2 | h_3 | h_5 | h_11 => dsimp only; split <;> simp [NotPair]
  case h_9 => simp only [yields_bind]; intros; split <;> simp [NotPair]
  all_goals simp [NotPair]

theorem row8_yields_notPair (lo : Nat) (r : Raw) : Yields NotPair (row8 lo r) := by
  unfold row8
  split <;> simp [memVF, memSF, mem0F, NotPair]

theorem row9_yields_notPair (lo : Nat) (r : Raw) : Yields NotPair (row9 lo r) := by
  unfold row9
  split
  case h_3 => split <;> simp [memVF, NotPair]
  all_goals simp [memVF, NotPair]

theorem rowA_yields_notPair (lo : Nat) (r : Raw) : Yields NotPair (rowA lo r) := by
  unfold rowA
  split
  case h_2 => simp only [yields_bind]; intros; split <;> simp [NotPair]
  all_goals simp [mem0F, bare, NotPair]

theorem rowB_yields_notPair (lo : Nat) (r : Raw) : Yields NotPair (rowB lo r) := by
  unfold rowB
  split <;> simp [mem0F, blkF, NotPair]

theorem rowC_yields_notPair (lo : Nat) (r : Raw) : Yields NotPair (rowC lo r) := by
  unfold rowC
  split
  case h_15 => simp only [yields_bind]; intros; split <;> simp [NotPair]
  all_goals simp [tileF, NotPair]

theorem rowD_yields_notPair (lo : Nat) (r : Raw) : Yields NotPair (rowD lo r) := by
  unfold rowD
  split
  case h_1 => split <;> simp [memVF, NotPair]
  all_goals simp [memVF, NotPair]

theorem rowE_yields_notPair (lo : Nat) (r : Raw) : Yields NotPair (rowE lo r) := by
  unfold rowE
  split
  case h_4 | h_11 => split <;> simp [NotPair]
  all_goals simp [blkF, NotPair]

theorem decodeRaw_yields_notPair (r : Raw) : Yields NotPair (decodeRaw r) := by
  unfold decodeRaw
  split
  · exact row0_yields_notPair _ r
  · exact row1_yields_notPair _ r
  · exact row2_yields_notPair _ r
  · exact row3_yields_notPair _ r
  · exact row4_yields_notPair _ r
  · exact row5_yields_notPair _ r
  · exact row6_yields_notPair _ r
  · exact row7_yields_notPair _ r
  · exact row8_yields_notPair _ r
  · exact row9_yields_notPair _ r
  · exact rowA_yields_notPair _ r
  · exact rowB_yields_notPair _ r
  · exact rowC_yields_notPair _ r
  · exact rowD_yields_notPair _ r
  · exact rowE_yields_notPair _ r
  · exact yields_badOp

/-! ## The pair form yields pair words only (R52) -/

/-- `decodePair` answers at one place, after its checks on both halves. -/
theorem decodePair_yields_pair (w : D) : Yields (∃ h0 h1, · = .pairWord h0 h1) (decodePair w) := by
  simp [decodePair]

/-! ## The form of a word (R50) -/

theorem decodeWord_full (w : D) (h63 : w.getLsbD 63 = false) : decodeWord w = decodeRaw (Raw.ofWord w) := by
  simp only [decodeWord, h63, Bool.not_false, if_true]

theorem decodeWord_pair (w : D) (h63 : w.getLsbD 63 = true) (h62 : w.getLsbD 62 = false) : decodeWord w = decodePair w := by
  simp only [decodeWord, h63, h62, Bool.not_true, Bool.not_false, Bool.false_eq_true, if_false, if_true]

theorem decodeWord_third_form (w : D) (h63 : w.getLsbD 63 = true) (h62 : w.getLsbD 62 = true) :
    decodeWord w = .error ⟨2, 1, false⟩ := by
  simp only [decodeWord, h63, h62, Bool.not_true, Bool.false_eq_true, if_false]

theorem instrOf_error (w : D) (x : Reject) (h : decodeWord w = .error x) :
    instrOf w = .illegalWord w x.sub x.field x.half := by
  unfold instrOf
  rw [h]

/-- A word that fails to decode traps with `ILLEGAL` (cause 1), its subcode and FIELD, the word and ACT (R67, R68). -/
theorem exec_illegalWord (w : D) (sub field : Nat) (half : Bool) (s : State) (e : Env)
    (he : Issues (.illegalWord w sub field half) s e) :
    exec (.illegalWord w sub field half) s
      = .next (takeTrap s e.gi e.wi e.k ⟨1, sub, field * 16 + half.toNat, w, e.act⟩) := by
  have hs : e.s = s := (env?_eq s _ e he).1
  calc exec (.illegalWord w sub field half) s
      = onSplit (.illegalWord w sub field half) s fun e => e.trap ⟨1, sub, field * 16 + half.toNat, w, e.act⟩ := rfl
    _ = .next (e.trap ⟨1, sub, field * 16 + half.toNat, w, e.act⟩) := onSplit_some _ s _ e he
    _ = .next (takeTrap s e.gi e.wi e.k ⟨1, sub, field * 16 + half.toNat, w, e.act⟩) := by rw [Env.trap, hs]

/-- Settles O45: bit 63 and bit 62 select the decoder, and each of the two decoders yields only its own form. -/
theorem wordForms : Obligations.WordForms := by
  unfold Obligations.WordForms
  intro w
  refine ⟨fun h63 => ⟨decodeWord_full w h63, fun h0 h1 hw => ?_, Raw.toNat_ofWord w h63⟩, fun h63 h62 i hi => ?_,
    fun h63 h62 => ?_⟩
  · rw [decodeWord_full w h63] at hw
    exact decodeRaw_yields_notPair _ _ hw h0 h1 rfl
  · rw [decodeWord_pair w h63 h62] at hi
    exact decodePair_yields_pair w i hi
  · have hw := decodeWord_third_form w h63 h62
    exact ⟨hw, instrOf_error w _ hw, exec_illegalWord w 2 1 false⟩

end Sys2Proof
end

section
/-! SUPPORT. Trap entry by a wave that is outside a handler and has one (R309), and the trap that TRAP raises (R110). -/

namespace Sys2Proof

open Sys2Proof.Machine Sys2Proof.Claims

/-! ## The wave in its handler (R309) -/

/-- The wave `w` after slot `k` of it has entered the handler at `tb` for the trap `t`. -/
def handlerWave (w : Wave) (k : Bool) (tb : D) (t : Trap) : Wave :=
  let x := w.slot k
  let save := w.dsaddr + 2048
  ({ w with
    tcause := causeWord t, tpc := x.pc &&& ~~~7, tmask := t.tmask, tval := t.tval
    trap := some ⟨k, x.pc, x.act, x.um, x.rpc, t.tmask, !((w.slot !k).st == SlotSt.empty), w.dsp⟩
    latches := loseLatches w.latches
    sregs := lo32 save :: hi32 save :: w.sregs.drop 2
    sbad := w.sbad &&& ~~~3 } : Wave).setSlot k { x with pc := tb, act := t.tmask, um := t.tmask, rpc := 0, st := .ready }

section
variable (w : Wave) (k : Bool) (tb : D) (t : Trap)

@[simp] theorem handlerWave_tcause : (handlerWave w k tb t).tcause = causeWord t := by cases k <;> rfl

@[simp] theorem handlerWave_tval : (handlerWave w k tb t).tval = t.tval := by cases k <;> rfl

@[simp] theorem handlerWave_tpc : (handlerWave w k tb t).tpc = (w.slot k).pc &&& ~~~7 := by cases k <;> rfl

@[simp] theorem handlerWave_tmask : (handlerWave w k tb t).tmask = t.tmask := by cases k <;> rfl

@[simp] theorem handlerWave_slot :
    (handlerWave w k tb t).slot k = { w.slot k with pc := tb, act := t.tmask, um := t.tmask, rpc := 0, st := .ready } :=
  Wave.slot_setSlot _ k _

/-- The handler runs privileged, also in a gang that is not (R27, R110). -/
theorem handlerWave_privileged (g : Gang) : privileged g (handlerWave w k tb t) = true := by
  have : (handlerWave w k tb t).trap.isSome = true := by cases k <;> rfl
  simp [privileged, this]

end

/-! ## The gang after trap entry -/

/-- Saving `s0`-`s3` touches memory and the keys of its lines only, so of the trapping gang only the trapping wave changes. -/
theorem takeTrap_gang? (s : State) (gi wi : Nat) (k : Bool) (t : Trap) (g : Gang) (w : Wave) (hg : s.gang? gi = some g)
    (hw : g.wave? wi = some w) (htb : s.tbaseOf g ≠ 0) (htrap : w.trap = none) (hbusy : w.trapBusy = false) :
    (takeTrap s gi wi k t).gang? gi
      = some { g with waves := modAt g.waves wi fun _ => handlerWave w k (s.tbaseOf g) t } := by
  obtain ⟨m, tags, olds, llc, c, hopen⟩ := openArea_frame s gi true (w.dsaddr + 2048).toNat 16
  have htb' : (s.tbaseOf g == 0) = false := beq_false_of_ne htb
  simp only [takeTrap, hg, hw, htb', htrap, hbusy, hopen, Option.isSome_none, Bool.or_self, Bool.false_eq_true, if_false,
    State.gang?_setWave]
  exact congrArg _ hg

theorem wave?_modAt (g : Gang) (w v : Wave) (wi : Nat) (hw : g.wave? wi = some w) :
    ({ g with waves := modAt g.waves wi fun _ => v } : Gang).wave? wi = some v :=
  (modAt_get g.waves wi fun _ => v).trans (congrArg _ hw)

/-! ## TRAP (R110) -/

/-- Outside a handler the subcodes 0xFD and 0xFE mean nothing special (R310): every code traps. -/
theorem exec_trap_outside (code : BitVec 16) (s : State) (e : Env) (he : Issues (.trap code) s e) (htrap : e.w.trap = none) :
    exec (.trap code) s = .next (takeTrap s e.gi e.wi e.k ⟨13, code.toNat % 256, code.toNat / 256, 0, e.act⟩) := by
  have hs : e.s = s := (env?_eq s _ e he).1
  calc exec (.trap code) s = execTrap code s := rfl
    _ = .next (e.trap ⟨13, code.toNat % 256, code.toNat / 256, 0, e.act⟩) := by
      rw [execTrap, onSplit_some _ s _ e he]
      simp [htrap]
    _ = .next (takeTrap s e.gi e.wi e.k ⟨13, code.toNat % 256, code.toNat / 256, 0, e.act⟩) := by rw [Env.trap, hs]

/-- `TCAUSE` of a software trap: each half of the code fits its byte (R32, R110). -/
theorem causeWord_software (code : BitVec 16) (m : Mask) :
    causeWord ⟨13, code.toNat % 256, code.toNat / 256, 0, m⟩
      = BitVec.ofNat 32 (0x0D + code.toNat % 256 * 256 + code.toNat / 256 * 65536) := by
  have hdetail : code.toNat / 256 % 256 = code.toNat / 256 := Nat.mod_eq_of_lt (by omega)
  simp only [causeWord, hdetail, Nat.mod_mod, Nat.reduceMod]

/-- Settles O14: outside a handler TRAP is trap entry with class 0x0D and the code's two bytes. -/
theorem softwareTrap : Obligations.SoftwareTrap := by
  unfold Obligations.SoftwareTrap
  intro code s e he htrap hbusy htb
  obtain ⟨-, hgi, hwi, -, -, hg, hw⟩ := env?_eq s _ e he
  rw [← hgi] at hg
  rw [← hwi] at hw
  refine ⟨_, _, _, exec_trap_outside code s e he htrap,
    takeTrap_gang? s e.gi e.wi e.k _ e.g e.w hg hw htb htrap hbusy, wave?_modAt e.g e.w _ e.wi hw,
    ?tcause, ?tval, ?tpc, ?tmask, ?pc, ?lanes, handlerWave_privileged ..⟩
  case tcause => rw [handlerWave_tcause, causeWord_software]
  case tval => rw [handlerWave_tval]
  case tpc => rw [handlerWave_tpc, Env.slot]
  case tmask => rw [handlerWave_tmask]
  case pc => rw [handlerWave_slot]
  case lanes => rw [handlerWave_slot, handlerWave_tmask]

end Sys2Proof
end

section
/-! SUPPORT. The places that the lanes of a memory word reach (R166-R168): where nothing fails and nothing parks, each lane is
at the place of its address. -/

namespace Sys2Proof

open Sys2Proof.Machine Sys2Proof.Claims

/-! ## What a check gives -/

/-- Whatever value the check `x` passes on has `P`; a trap or a wait passes none on. -/
def Gives {α : Type} (P : α → Prop) (x : Chk α) : Prop := ∀ a, x = .ok a → P a

section
variable {α β : Type} {P : β → Prop}

@[simp] theorem gives_ok (b : β) : Gives P (.ok b) ↔ P b := by simp [Gives]

/-- A check that is made first matters only where it passes. -/
@[simp] theorem gives_bind (x : Chk α) (f : α → Chk β) : Gives P (x >>= f) ↔ ∀ a, x = .ok a → Gives P (f a) := by
  cases x with
  | error y => simp [Gives, bind, Except.bind]
  | ok a => simp [bind, Except.bind]

@[simp] theorem gives_ite (c : Prop) [Decidable c] (x y : Chk β) :
    Gives P (if c then x else y) ↔ (c → Gives P x) ∧ (¬c → Gives P y) := by
  by_cases hc : c <;> simp [hc]

end

theorem chkLanes_ok_iff (e : Env) (once : Bool) (bad : List (Nat × Nat)) (t : Nat → Mask → Trap) (u : Unit) :
    chkLanes e once bad t = .ok u ↔ bad = [] := by
  cases bad <;> simp [chkLanes]

/-! ## The checks of the addresses (R168) -/

/-- The place of an address in the space of a memory word: the scratchpad, the Hayloft, or where its page lies. -/
def placeOf (e : Env) (q : Ask) (va : Nat) : Loc :=
  if isSpadForm q.i then .spad va
  else if isHay q.i then .mem (Config.hayKey e.g.die va)
  else .mem ((trKey (translate e.s e.g ⟨q.write, false, e.priv⟩ va q.size)).getD 0)

/-- An access whose translation neither fails nor parks has its key. -/
theorem trKey_of_not_fail_park (t : Tr) (hfail : trFailSub t = none) (hpark : trParks t = false) :
    trKey t = some ((trKey t).getD 0) := by
  cases t with
  | ok k => rfl
  | park => cases hpark
  | fail n => cases hfail

/-- The lanes that reach their place, where every lane does. -/
theorem reached_of_not_fail_park (f : Nat × Nat → Tr) (as : List (Nat × Nat)) (hfail : ∀ x ∈ as, trFailSub (f x) = none)
    (hpark : ∀ x ∈ as, trParks (f x) = false) :
    (as.map fun x => (x, f x)).filterMap (fun t => (trKey t.2).map fun k => (t.1.1, t.1.2, Loc.mem k))
      = as.map fun x => (x.1, x.2, .mem ((trKey (f x)).getD 0)) := by
  rw [List.filterMap_map, ← List.filterMap_eq_map]
  refine List.filterMap_congr fun x hx => ?_
  simp only [Function.comp]
  rw [trKey_of_not_fail_park _ (hfail x hx) (hpark x hx)]
  rfl

/-- The checks pass with no lane parked: every lane goes ahead at the place of its address. -/
theorem reach_gives_places (e : Env) (q : Ask) (as : List (Nat × Nat)) :
    Gives (fun r => r.parked = [] → r.go = as.map fun x => (x.1, x.2, placeOf e q x.2)) (reach e q as) := by
  unfold reach
  cases hspad : isSpadForm q.i with
  | true => simp [placeOf, hspad]
  | false =>
    cases hhay : isHay q.i with
    | true => simp [placeOf, hspad, hhay]
    | false =>
      simp only [Bool.not_false, Bool.and_self, if_true, gives_bind, Bool.false_eq_true, if_false]
      intro _ _ _ _
      split
      case h_1 t ht =>
        -- A translation fails: its lane is among those that trap, so the check passes nothing on.
        have hmem := List.mem_of_find?_eq_some ht
        have hfails : (trFailSub t.2).isSome = true := by simpa using List.find?_some ht
        have hsome : trFailSub t.2 = some ((trFailSub t.2).getD 0) := by
          obtain ⟨n, hn⟩ := Option.isSome_iff_exists.1 hfails
          rw [hn, Option.getD_some]
        simp only [gives_bind, chkLanes_ok_iff, List.map_eq_nil_iff, List.filter_eq_nil_iff]
        intro _ hnone
        exact absurd (beq_iff_eq.2 hsome) (hnone t hmem)
      case h_2 ht =>
        simp only [gives_bind, gives_ok, List.map_eq_nil_iff]
        intro _ _ hparked
        have hplace (va : Nat) : placeOf e q va
            = .mem ((trKey (translate e.s e.g ⟨q.write, false, e.priv⟩ va q.size)).getD 0) := by simp [placeOf, hspad, hhay]
        simp only [hplace]
        refine reached_of_not_fail_park _ as (fun x hx => ?_) fun x hx => ?_
        · simpa using List.find?_eq_none.1 ht _ (List.mem_map_of_mem hx)
        · simpa using List.filter_eq_nil_iff.1 hparked _ (List.mem_map_of_mem hx)

/-- The same once the checks before the addresses and those of parking are made. -/
theorem memCheck_places (e : Env) (m : MemWord) (idxCls : Src → Bool) (r : Reached) (h : memCheck e m idxCls = .ok r)
    (hparked : r.parked = []) : r.go = (laneAddrs e m).map fun x => (x.1, x.2, placeOf e m.q x.2) := by
  have hgives : Gives (fun r => r.parked = [] → r.go = (laneAddrs e m).map fun x => (x.1, x.2, placeOf e m.q x.2))
      (memCheck e m idxCls) := by
    simp only [memCheck, memReach, gives_bind, gives_ok]
    intro _ _ r hr _ _
    exact reach_gives_places e m.q (laneAddrs e m) r hr
  exact hgives r h hparked

/-! ## The operation of `VAPND` (R174) -/

/-- The address of a word without index, the same for every lane (R166). -/
def flatAddr (e : Env) (a : Src) (i : I25) : Nat := addrVal i (baseVal e a i).1 0

/-- The access of lane `l` of an append: no data, at the counter. -/
def apndAcc (e : Env) (d : VR) (a : Src) (i : I25) (l : Nat) : Acc where
  lane := l
  loc := placeOf e (mVapnd d a i).q (flatAddr e a i)
  enc := if isSpadForm i || isHay i then none else (homeEnc e.s e.g (flatAddr e a i) 4).map (·.2)
  va := flatAddr e a i
  x := 0
  y := 0
  bad := 0

section
variable {e : Env} {d : VR} {a : Src} {i : I25} {r : Reached} (h : memCheck e (mVapnd d a i) Src.mi = .ok r)
  (hparked : r.parked = [])
include h hparked

theorem vapnd_go : r.go = (lanesOf e.act).map fun l => (l, flatAddr e a i, placeOf e (mVapnd d a i).q (flatAddr e a i)) := by
  rw [memCheck_places e _ _ r h hparked]
  exact List.map_map

theorem memOp_vapnd_accs (id : Nat) :
    (memOp e (mVapnd d a i) r.go id).accs = (lanesOf e.act).map (apndAcc e d a i) := by
  simp only [memOp, vapnd_go h hparked, List.map_map]
  rfl

/-- Every lane of ACT is still to return. -/
theorem memOp_vapnd_left (id l : Nat) (hl : l ∈ lanesOf e.act) :
    (memOp e (mVapnd d a i) r.go id).left.getLsbD l = true := by
  have hl96 : l < 96 := ((mem_lanesOf _ _).1 hl).1
  have hleft : (memOp e (mVapnd d a i) r.go id).left = maskOf fun l => r.go.any fun x => x.1 == l := rfl
  rw [hleft, maskOf_getLsbD _ _ hl96, vapnd_go h hparked]
  simpa using hl

end

end Sys2Proof
end

section
/-! SUPPORT. What an access changes before it stores (the keys and the L1 line of its place: R266, R280, R316), and what the
bytes of a store leave at each place (R171, R265). -/

namespace Sys2Proof

open Sys2Proof.Machine Sys2Proof.Claims

/-! ## Lines under their keys (R316) -/

theorem tagLines_frame (s : State) (ctx : Nat) (enc w : Bool) (key n : Nat) :
    (tagLines s ctx enc w key n).gangs = s.gangs ∧ (tagLines s ctx enc w key n).memBad = s.memBad := by
  refine foldl_keeps (fun t : State => t.gangs = s.gangs ∧ t.memBad = s.memBad) _ (fun t i ht => ?_) _ s ⟨rfl, rfl⟩
  obtain ⟨m, tags, olds, llc, c, hline⟩ := accessLine_frame t ctx enc w (key / 128 + i)
  rw [hline]
  exact ht

theorem noteAccs_frame (s : State) (g : Gang) (w : Bool) (n : Nat) (as : List Acc) :
    (noteAccs s g w n as).gangs = s.gangs ∧ (noteAccs s g w n as).memBad = s.memBad := by
  refine foldl_keeps (fun t : State => t.gangs = s.gangs ∧ t.memBad = s.memBad) _ (fun t a ht => ?_) as s ⟨rfl, rfl⟩
  split
  case h_1 enc k _ _ =>
    obtain ⟨hgangs, hbad⟩ := tagLines_frame t g.ctx enc w k n
    exact ⟨hgangs.trans ht.1, hbad.trans ht.2⟩
  case h_2 => exact ht

/-- Accesses outside this package's pages note nothing. -/
theorem noteAccs_of_enc_none (s : State) (g : Gang) (w : Bool) (n : Nat) (as : List Acc) (h : ∀ a ∈ as, a.enc = none) :
    noteAccs s g w n as = s := by
  unfold noteAccs
  induction as with
  | nil => rfl
  | cons a as ih =>
    rw [List.forall_mem_cons] at h
    simp only [List.foldl_cons, h.1]
    exact ih h.2

/-! ## The L1 line of an atomic access (R266, R280) -/

theorem putLine_memBad (s : State) (byre line : Nat) (b : List Byte) (n : Nat) :
    (putLine s byre line b n).memBad = s.memBad := by
  unfold putLine
  dsimp only
  split <;> rfl

theorem fillLine_memBad (s : State) (byre : Nat) (l : Loc) : (fillLine s byre l).memBad = s.memBad := by
  cases l with
  | spad x => rfl
  | mem k =>
    unfold fillLine
    dsimp only
    split <;> simp [dropOlds, putLine_memBad]

theorem atomLine_frame (s : State) (byre : Nat) (o : MemOp) (l : Loc) :
    (atomLine s byre o l).mem = s.mem ∧ (atomLine s byre o l).gangs = s.gangs ∧ (atomLine s byre o l).memBad = s.memBad := by
  cases l with
  | spad x => exact ⟨rfl, rfl, rfl⟩
  | mem k =>
    unfold atomLine
    dsimp only
    split
    · exact ⟨rfl, rfl, rfl⟩
    · split
      · exact ⟨rfl, rfl, rfl⟩
      · exact ⟨(fillLine_frame s byre _).1, (fillLine_frame s byre _).2, fillLine_memBad s byre _⟩

/-! ## States with the same memories -/

section
variable {s t : State}

theorem getByte_congr (hm : t.mem = s.mem) (hg : t.gangs = s.gangs) (gi : Nat) (l : Loc) : t.getByte gi l = s.getByte gi l := by
  cases l with
  | mem k => simp only [State.getByte, hm]
  | spad x => simp only [State.getByte, State.gang?, hg]

theorem numLoc_congr (hm : t.mem = s.mem) (hg : t.gangs = s.gangs) (gi : Nat) (l : Loc) (n : Nat) :
    t.numLoc gi l n = s.numLoc gi l n := by
  simp only [State.numLoc, State.readLoc, getByte_congr hm hg]

theorem locBad_congr (hb : t.memBad = s.memBad) (hg : t.gangs = s.gangs) (gi : Nat) (l : Loc) :
    t.locBad gi l = s.locBad gi l := by
  cases l with
  | mem k => simp only [State.locBad, hb]
  | spad x => simp only [State.locBad, State.gang?, hg]

theorem rangeBad_congr (hb : t.memBad = s.memBad) (hg : t.gangs = s.gangs) (gi : Nat) (l : Loc) (n : Nat) :
    t.rangeBad gi l n = s.rangeBad gi l n := by
  simp only [State.rangeBad, locBad_congr hb hg]

theorem gang?_congr (hg : t.gangs = s.gangs) (gi : Nat) : t.gang? gi = s.gang? gi := by simp only [State.gang?, hg]

theorem wave?_congr (hg : t.gangs = s.gangs) (gi wi : Nat) : t.wave? gi wi = s.wave? gi wi := by
  simp only [State.wave?, gang?_congr hg]

end

/-- At `.die` and wider, and in the scratchpad, an atomic reads the location itself (R266, R280). -/
theorem atomNum_eq_numLoc (s : State) (gi : Nat) (g : Gang) (o : MemOp) (l : Loc) (n : Nat)
    (h : isWide o = true ∨ l.isSpad = true) : atomNum s gi g o l n = s.numLoc gi l n := by
  have hbyte (i : Nat) : atomByte s gi g o (l.add i) = s.getByte gi (l.add i) := by
    cases l with
    | spad x => rfl
    | mem k =>
      have hwide : isWide o = true := h.resolve_right (by simp [Loc.isSpad])
      simp only [Loc.add, atomByte, hwide, if_true]
  simp only [atomNum, State.numLoc, State.readLoc, hbyte]

/-! ## One byte and one mark -/

theorem getByte_modGang_of_spad (s : State) (gi : Nat) (f : Gang → Gang) (hf : ∀ g, (f g).spad = g.spad) (l : Loc) :
    (s.modGang gi f).getByte gi l = s.getByte gi l := by
  cases l with
  | mem k => rfl
  | spad x =>
    simp only [State.getByte, State.gang?_modGang]
    cases s.gang? gi <;> simp [hf]

theorem wave?_modGang_of_waves (s : State) (gi wi : Nat) (f : Gang → Gang) (hf : ∀ g, (f g).waves = g.waves) :
    (s.modGang gi f).wave? gi wi = s.wave? gi wi := by
  simp only [State.wave?, State.gang?_modGang]
  cases s.gang? gi <;> simp [Gang.wave?, hf]

/-- A wave holds no byte of a memory. -/
theorem getByte_setWave (s : State) (gi wi : Nat) (w : Wave) (l : Loc) : (s.setWave gi wi w).getByte gi l = s.getByte gi l :=
  getByte_modGang_of_spad s gi _ (by intro; rfl) l

theorem numLoc_setWave (s : State) (gi wi : Nat) (w : Wave) (l : Loc) (n : Nat) :
    (s.setWave gi wi w).numLoc gi l n = s.numLoc gi l n := by
  simp only [State.numLoc, State.readLoc, getByte_setWave]

theorem getByte_setBad (s : State) (gi : Nat) (x l : Loc) (b : Bool) : (s.setBad gi x b).getByte gi l = s.getByte gi l := by
  cases x with
  | mem k => exact getByte_congr rfl rfl gi l
  | spad y => exact getByte_modGang_of_spad s gi _ (by intro; rfl) l

theorem wave?_setBad (s : State) (gi wi : Nat) (x : Loc) (b : Bool) : (s.setBad gi x b).wave? gi wi = s.wave? gi wi := by
  cases x with
  | mem k => exact wave?_congr rfl gi wi
  | spad y => exact wave?_modGang_of_waves s gi wi _ fun _ => rfl

theorem wave?_putByte (s : State) (gi wi : Nat) (l : Loc) (b : Byte) : (s.putByte gi l b).wave? gi wi = s.wave? gi wi := by
  cases l with
  | mem k => exact wave?_congr rfl gi wi
  | spad x => exact wave?_modGang_of_waves s gi wi _ fun _ => rfl

/-- A wave stands in a gang. -/
theorem gang?_isSome_of_wave? (s : State) (gi wi : Nat) (h : (s.wave? gi wi).isSome) : (s.gang? gi).isSome := by
  unfold State.wave? at h
  cases hg : s.gang? gi with
  | none => simp [hg] at h
  | some g => rfl

/-- A byte reads as it was put, and every other byte as before. -/
theorem getByte_putByte (s : State) (gi : Nat) (x l : Loc) (b : Byte) (hs : s.memOk = true) (hgang : (s.gang? gi).isSome) :
    (s.putByte gi x b).getByte gi l = if x = l then b else s.getByte gi l := by
  obtain ⟨g, hg⟩ := Option.isSome_iff_exists.1 hgang
  cases x with
  | mem k =>
    cases l with
    | mem j => simpa [State.putByte, State.getByte, eq_comm] using Memory.get_put s.mem k j b (memOk_wf s hs)
    | spad y => rfl
  | spad x =>
    cases l with
    | mem j => simp [State.putByte, State.getByte]
    | spad y =>
      have hput := Memory.get_put g.spad x y b (gang?_wf s hs gi g hg)
      simpa [State.putByte, State.getByte, State.gang?_modGang, hg, eq_comm] using hput

/-! ## The bytes of a store (R171, R265) -/

/-- The state once byte `b` of a store by class `cls` is put: the Byre's L1 copies and the older copies follow. -/
def putStored (gi byre : Nat) (cls : Option PClass) (t : State) (b : StByte) : State :=
  let t := t.putByte gi b.loc b.byte
  match b.loc with
  | .mem k => { t with l1 := updLines t.l1 byre k b.byte, olds := patchOlds t.olds cls k b.byte }
  | .spad _ => t

/-- The marks that the stored bytes leave on their granules. -/
def putMarks (gi : Nat) (bs : List StByte) (t : State) : State :=
  (granulesOf bs).foldl (fun t g =>
    if bs.any fun b => b.loc.granule == g && b.bad then t.setBad gi g true
    else if coversGranule bs g then t.setBad gi g false
    else t) t

theorem putStored_frame (gi byre : Nat) (cls : Option PClass) (t : State) (b : StByte) :
    (putStored gi byre cls t b).mem = (t.putByte gi b.loc b.byte).mem ∧
      (putStored gi byre cls t b).gangs = (t.putByte gi b.loc b.byte).gangs := by
  unfold putStored
  dsimp only
  split <;> exact ⟨rfl, rfl⟩

/-- Where no place is poisoned every byte of the store is kept. -/
theorem storePut_eq_of_unmarked (s : State) (gi byre : Nat) (cls : Option PClass) (bs : List StByte)
    (h : ∀ b ∈ bs, s.locBad gi b.loc = false) :
    storePut s gi byre cls bs = putMarks gi bs (bs.foldl (putStored gi byre cls) s) := by
  unfold storePut putMarks
  dsimp only
  congr 1
  refine List.foldl_ext _ _ s fun t b hb => ?_
  simp only [h b hb, Bool.and_false, Bool.false_and, Bool.not_false, if_true]
  rfl

theorem wave?_putMarks (gi wi : Nat) (bs : List StByte) (t : State) : (putMarks gi bs t).wave? gi wi = t.wave? gi wi := by
  refine foldl_keeps (fun u : State => u.wave? gi wi = t.wave? gi wi) _ (fun u x hu => ?_) _ t rfl
  split
  · exact (wave?_setBad u gi wi x true).trans hu
  · split
    · exact (wave?_setBad u gi wi x false).trans hu
    · exact hu

theorem getByte_putMarks (gi : Nat) (bs : List StByte) (t : State) (l : Loc) :
    (putMarks gi bs t).getByte gi l = t.getByte gi l := by
  refine foldl_keeps (fun u : State => u.getByte gi l = t.getByte gi l) _ (fun u x hu => ?_) _ t rfl
  split
  · exact (getByte_setBad u gi x l true).trans hu
  · split
    · exact (getByte_setBad u gi x l false).trans hu
    · exact hu

section
variable (gi byre : Nat) (cls : Option PClass)

theorem wave?_putStored (wi : Nat) (t : State) (b : StByte) : (putStored gi byre cls t b).wave? gi wi = t.wave? gi wi :=
  (wave?_congr (putStored_frame gi byre cls t b).2 gi wi).trans (wave?_putByte t gi wi b.loc b.byte)

theorem wave?_foldl_putStored (wi : Nat) (bs : List StByte) (t : State) :
    (bs.foldl (putStored gi byre cls) t).wave? gi wi = t.wave? gi wi :=
  foldl_keeps (fun u : State => u.wave? gi wi = t.wave? gi wi) _
    (fun u b hu => (wave?_putStored gi byre cls wi u b).trans hu) bs t rfl

theorem memOk_foldl_putStored (bs : List StByte) (t : State) (h : t.memOk = true) :
    (bs.foldl (putStored gi byre cls) t).memOk = true :=
  foldl_keeps (fun u : State => u.memOk = true) _ (fun u b hu =>
    have ⟨hm, hg⟩ := putStored_frame gi byre cls u b
    memOk_congr _ _ hm hg (putByte_memOk u gi b.loc b.byte hu)) bs t h

theorem lastByte_concat (bs : List StByte) (b : StByte) (l : Loc) :
    lastByte (bs ++ [b]) l = if b.loc = l then some b.byte else lastByte bs l := by
  by_cases h : b.loc = l <;> simp [lastByte, h]

/-- A place reads the last byte that is stored there, or what it held. -/
theorem getByte_foldl_putStored (bs : List StByte) (s : State) (wi : Nat) (l : Loc) (hs : s.memOk = true)
    (hw : (s.wave? gi wi).isSome) :
    (bs.foldl (putStored gi byre cls) s).getByte gi l = (lastByte bs l).getD (s.getByte gi l) := by
  induction bs using List.reverseRecOn with
  | nil => rfl
  | append_singleton bs b ih =>
    have hok := memOk_foldl_putStored gi byre cls bs s hs
    have hgang := gang?_isSome_of_wave? _ gi wi ((wave?_foldl_putStored gi byre cls wi bs s).symm ▸ hw)
    obtain ⟨hm, hg⟩ := putStored_frame gi byre cls (bs.foldl (putStored gi byre cls) s) b
    rw [List.foldl_concat, getByte_congr hm hg, getByte_putByte _ gi b.loc l b.byte hok hgang, lastByte_concat, ih]
    split <;> rfl

end

/-! ## A store by a class (R255)

Its places unpoisoned, it keeps every byte of its own. -/

theorem keepOlds_frame (s : State) (cls : PClass) (ns : List Nat) :
    (ns.foldl (fun t n => keepOld t cls n) s).mem = s.mem ∧ (ns.foldl (fun t n => keepOld t cls n) s).gangs = s.gangs ∧
      (ns.foldl (fun t n => keepOld t cls n) s).memBad = s.memBad :=
  foldl_keeps (fun t : State => t.mem = s.mem ∧ t.gangs = s.gangs ∧ t.memBad = s.memBad) (fun t n => keepOld t cls n)
    (fun _ _ ht => ht) ns s ⟨rfl, rfl, rfl⟩

section
variable (s : State) (gi byre : Nat) (cls : PClass) (bs : List StByte) (h : ∀ b ∈ bs, s.locBad gi b.loc = false)
include h

theorem storeAs_eq_of_unmarked :
    storeAs s gi byre cls bs
      = putMarks gi bs (bs.foldl (putStored gi byre (some cls)) ((linesOf bs).foldl (fun t n => keepOld t cls n) s)) := by
  obtain ⟨-, hg, hb⟩ := keepOlds_frame s cls (linesOf bs)
  exact storePut_eq_of_unmarked _ gi byre (some cls) bs fun b hbs => (locBad_congr hb hg gi b.loc).trans (h b hbs)

theorem wave?_storeAs (wi : Nat) : (storeAs s gi byre cls bs).wave? gi wi = s.wave? gi wi := by
  rw [storeAs_eq_of_unmarked s gi byre cls bs h, wave?_putMarks, wave?_foldl_putStored]
  exact wave?_congr (keepOlds_frame s cls (linesOf bs)).2.1 gi wi

theorem getByte_storeAs (wi : Nat) (l : Loc) (hs : s.memOk = true) (hw : (s.wave? gi wi).isSome) :
    (storeAs s gi byre cls bs).getByte gi l = (lastByte bs l).getD (s.getByte gi l) := by
  obtain ⟨hm, hg, -⟩ := keepOlds_frame s cls (linesOf bs)
  rw [storeAs_eq_of_unmarked s gi byre cls bs h, getByte_putMarks,
    getByte_foldl_putStored gi byre (some cls) bs _ wi l (memOk_congr s _ hm hg hs) (by rwa [wave?_congr hg]),
    getByte_congr hm hg]

end

/-! ## A number at a place -/

theorem loc_add_inj (l : Loc) (i j : Nat) (h : l.add i = l.add j) : i = j := by
  cases l <;> simpa [Loc.add] using h

theorem getElem?_storeBytes (l : Loc) (n v i : Nat) :
    (storeBytes l n v 0)[i]? = (natLe n v)[i]?.map fun x => ⟨l.add i, x, false⟩ := by
  by_cases hi : i < n
  · have hbyte : (natLe n v)[i]? = some ((natLe n v)[i]'(by simpa using hi)) := List.getElem?_eq_getElem _
    have hidx : (List.range n)[i]? = some i := List.getElem?_range hi
    have hpair := (List.getElem?_zip_eq_some (z := (_, i))).2 ⟨hbyte, hidx⟩
    rw [storeBytes, List.getElem?_map, hpair, hbyte]
    simp
  · rw [List.getElem?_eq_none (by simpa [storeBytes] using hi), List.getElem?_eq_none (by simpa using hi)]
    rfl

theorem lastByte_eq_none (bs : List StByte) (l : Loc) (h : ∀ b ∈ bs, b.loc ≠ l) : lastByte bs l = none := by
  simpa [lastByte] using h

theorem lastByte_eq_some (bs : List StByte) (b : StByte) (hb : b ∈ bs) (h : ∀ c ∈ bs, c.loc = b.loc → c = b) :
    lastByte bs b.loc = some b.byte := by
  have hfind : (bs.reverse.find? fun c => c.loc == b.loc).isSome := by simpa using ⟨b, hb, rfl⟩
  obtain ⟨c, hc⟩ := Option.isSome_iff_exists.1 hfind
  have hcb : c = b := h c (List.mem_reverse.1 (List.mem_of_find?_eq_some hc)) (by simpa using List.find?_some hc)
  rw [lastByte, hc, hcb, Option.map_some]

theorem mem_storeBytes (l : Loc) (n v : Nat) (b : StByte) (hb : b ∈ storeBytes l n v 0) :
    ∃ i, i < n ∧ (natLe n v)[i]? = some b.byte ∧ b = ⟨l.add i, b.byte, false⟩ := by
  obtain ⟨i, hi⟩ := List.mem_iff_getElem?.1 hb
  rw [getElem?_storeBytes, Option.map_eq_some_iff] at hi
  obtain ⟨x, hx, rfl⟩ := hi
  have hin : i < (natLe n v).length := (List.getElem?_eq_some_iff.1 hx).1
  exact ⟨i, by simpa using hin, hx, rfl⟩

theorem lastByte_storeBytes_at (l : Loc) (n v i : Nat) (x : Byte) (hx : (natLe n v)[i]? = some x) :
    lastByte (storeBytes l n v 0) (l.add i) = some x := by
  have hmem : (⟨l.add i, x, false⟩ : StByte) ∈ storeBytes l n v 0 :=
    List.mem_iff_getElem?.2 ⟨i, by rw [getElem?_storeBytes, hx, Option.map_some]⟩
  refine lastByte_eq_some _ _ hmem fun c hc hloc => ?_
  obtain ⟨j, -, hj, hceq⟩ := mem_storeBytes l n v c hc
  rw [hceq] at hloc
  obtain rfl := loc_add_inj l j i hloc
  rw [hceq, Option.some.inj (hj.symm.trans hx)]

theorem lastByte_storeBytes_other (l x : Loc) (n v : Nat) (h : ∀ i, i < n → x ≠ l.add i) :
    lastByte (storeBytes l n v 0) x = none := by
  refine lastByte_eq_none _ x fun b hb hloc => ?_
  obtain ⟨i, hi, -, hbeq⟩ := mem_storeBytes l n v b hb
  exact h i hi (by rw [← hloc, hbeq])

section
variable {s : State} {gi wi : Nat} (byre : Nat) {l : Loc} {n : Nat} (v : Nat) (hclean : s.rangeBad gi l n = false)
include hclean

theorem locBad_storeBytes : ∀ b ∈ storeBytes l n v 0, s.locBad gi b.loc = false := by
  intro b hb
  obtain ⟨i, hi, -, hbeq⟩ := mem_storeBytes l n v b hb
  rw [hbeq]
  simp only [State.rangeBad, List.any_eq_false, List.mem_range, Bool.not_eq_true] at hclean
  exact hclean i hi

theorem wave?_putNum : (putNum s gi byre l n v).wave? gi wi = s.wave? gi wi :=
  wave?_storeAs s gi byre .v _ (locBad_storeBytes v hclean) wi

variable (hs : s.memOk = true) (hw : (s.wave? gi wi).isSome)
include hs hw

theorem getByte_putNum_other (x : Loc) (hx : ∀ i, i < n → x ≠ l.add i) :
    (putNum s gi byre l n v).getByte gi x = s.getByte gi x := by
  rw [putNum, getByte_storeAs s gi byre .v _ (locBad_storeBytes v hclean) wi x hs hw, lastByte_storeBytes_other l x n v hx,
    Option.getD_none]

/-- A number reads back, modulo its width. -/
theorem numLoc_putNum : (putNum s gi byre l n v).numLoc gi l n = v % 2 ^ (8 * n) := by
  have hbytes : (List.range n).map (fun i => (putNum s gi byre l n v).getByte gi (l.add i)) = natLe n v := by
    refine List.ext_getElem (by simp) fun i hi hi' => ?_
    rw [List.getElem_map, List.getElem_range, putNum,
      getByte_storeAs s gi byre .v _ (locBad_storeBytes v hclean) wi _ hs hw,
      lastByte_storeBytes_at l n v i _ (List.getElem?_eq_getElem hi'), Option.getD_some]
  rw [State.numLoc, State.readLoc, hbytes, leNat_natLe]

end

end Sys2Proof
end

section
/-! SUPPORT. Write-back of an operation that returns at once (R169), and `VAPND`, which is one (R174). -/

namespace Sys2Proof

open Sys2Proof.Machine Sys2Proof.Claims

/-! ## The registers of returned lanes -/

theorem vreg_setVreg (w : Wave) (n : Nat) (x : VReg) (h : n < w.vregs.length) : (w.setVreg n x).vreg n = x := by
  rw [Wave.vreg, Wave.setVreg_vregs, setAt_get _ _ _ h, Option.getD_some]

theorem vreg_setVreg_other (w : Wave) (n k : Nat) (x : VReg) (h : k ≠ n) : (w.setVreg n x).vreg k = w.vreg k := by
  rw [Wave.vreg, Wave.setVreg_vregs, setAt_get_other _ _ _ _ h, Wave.vreg]

/-- Each lane returns once, so a lane finds its own return. -/
theorem find?_lane_of_nodup (rs : List LaneRet) (hnodup : (rs.map (·.lane)).Nodup) (r : LaneRet) (hr : r ∈ rs) :
    rs.find? (fun x => x.lane == r.lane) = some r := by
  induction rs with
  | nil => cases hr
  | cons x rs ih =>
    obtain ⟨hx, hrest⟩ := List.nodup_cons.1 (List.map_cons ▸ hnodup)
    obtain rfl | hr := List.mem_cons.1 hr
    · simp
    · have hne : x.lane ≠ r.lane := fun h => hx (h ▸ List.mem_map_of_mem hr)
      rw [List.find?_cons_of_neg (by simpa using hne), ih hrest hr]

section
variable (old : VReg) (rs : List LaneRet) (k l : Nat)

theorem retReg_lane (hlen : old.lanes.length = 96) (hl : l < 96) :
    (retReg old rs k).lane l
      = match (rs.find? fun r => r.lane == l).bind fun r => r.els[k]? with
        | some v => v.1
        | none => old.lane l := by
  have hold : old.lanes[l]? = some (old.lane l) := by
    rw [VReg.lane, List.getElem?_eq_getElem (by omega), Option.getD_some]
  have hpair := (List.getElem?_zip_eq_some (z := (_, _))).2 ⟨laneList_get l hl, hold⟩
  rw [VReg.lane, retReg, List.getElem?_map, hpair]
  rfl

/-- A lane that returns nothing keeps its element. -/
theorem retReg_lane_other (hlen : old.lanes.length = 96) (h : ∀ r ∈ rs, r.lane ≠ l) :
    (retReg old rs k).lane l = old.lane l := by
  by_cases hl : l < 96
  · rw [retReg_lane old rs k l hlen hl, List.find?_eq_none.2 (by simpa using h)]
    rfl
  · have hout (x : VReg) (hx : x.lanes.length = 96) : x.lane l = 0 := by
      rw [VReg.lane, List.getElem?_eq_none (by omega), Option.getD_none]
    rw [hout old hlen, hout (retReg old rs k) (by simp [retReg, hlen])]

variable (r : LaneRet) (v : W × Bool) (hnodup : (rs.map (·.lane)).Nodup) (hr : r ∈ rs) (hv : r.els[k]? = some v)
  (hl : r.lane < 96)
include hnodup hr hv hl

theorem retReg_lane_returned (hlen : old.lanes.length = 96) : (retReg old rs k).lane r.lane = v.1 := by
  rw [retReg_lane old rs k _ hlen hl, find?_lane_of_nodup rs hnodup r hr, Option.bind_some, hv]

theorem retReg_bad_returned : (retReg old rs k).bad.getLsbD r.lane = v.2 := by
  rw [retReg, maskOf_getLsbD _ _ hl]
  dsimp only
  rw [find?_lane_of_nodup rs hnodup r hr, Option.bind_some, hv]

end

/-! ## An operation that has returned leaves its wave (R169) -/

theorem retOp_frame (s : State) (gi : Nat) (w : Wave) (o : MemOp) (m : Mask) :
    ∃ ops pubs seen views floors,
      retOp s gi w o m = { w with ops := ops, pubs := pubs, seen := seen, views := views, floors := floors } := by
  unfold retOp
  dsimp only
  repeat' split
  all_goals exact ⟨_, _, _, _, _, rfl⟩

theorem opDone_of_quiet (s : State) (gi wi : Nat) (w : Wave) (hw : s.wave? gi wi = some w) (hquiet : Quiet w) :
    opDone s gi wi = s := by
  obtain ⟨hbars, htrap⟩ := hquiet
  unfold opDone
  rw [hw]
  cases ht : w.trap with
  | none => simp [ht, hbars]
  | some sv =>
    have hlanes : ((sv.lanes &&& ~~~w.exited) != 0) = true := bne_iff_ne.2 (htrap sv ht)
    simp only [ht, hlanes, if_true]

/-- The wave with what lanes return in vector register `d`, and with the flags that they raise. -/
def withReturns (w : Wave) (d : Nat) (rs : List LaneRet) : Wave :=
  (w.setVreg d (retReg (w.vreg d) rs 0)).setFlags (rs.foldl (fun f x => f ||| x.fl) 0)

/-- What a quiet wave's operation returns into one vector register is written there, and the wave is back in the state that
the access left; no other register changes. -/
theorem writeback_vec_of_quiet (s u : State) (gi wi : Nat) (g : Gang) (w : Wave) (o : MemOp) (d : VR) (m : Mask) (stale : Bool)
    (rs : List LaneRet) (hg : s.gang? gi = some g) (hw : g.wave? wi = some w) (hquiet : Quiet w) (hdst : o.dst = .vec d 1)
    (hd : d.toNat < w.vregs.length) (haccess : access s gi g w o (retLanes o m) stale = (u, rs))
    (hu : u.wave? gi wi = some w) :
    ∃ w', writeback s gi wi o m stale = u.setWave gi wi w' ∧ w'.vreg d.toNat = retReg (w.vreg d.toNat) rs 0 ∧
      (∀ n, n ≠ d.toNat → w'.vreg n = w.vreg n) ∧ w'.sregs = w.sregs := by
  have hwrite : (retWrite w o rs).setFlags (rs.foldl (fun f x => f ||| x.fl) 0) = withReturns w d.toNat rs := by
    simp only [retWrite, hdst]
    rfl
  obtain ⟨ops, pubs, seen, views, floors, hret⟩ := retOp_frame u gi (withReturns w d.toNat rs) o (retLanes o m)
  refine ⟨retOp u gi (withReturns w d.toNat rs) o (retLanes o m), ?_, ?_, fun n hn => ?_, ?_⟩
  · have hslot : (((retOp u gi (withReturns w d.toNat rs) o (retLanes o m)).slot o.slot).act == (w.slot o.slot).act) = true := by
      rw [hret]
      exact beq_self_eq_true _
    unfold writeback
    simp only [hg, hw, haccess, hu, hwrite]
    rw [if_pos hslot]
    refine opDone_of_quiet _ gi wi _ (State.setWave_wave? u gi wi _ w hu) ?_
    rw [hret]
    exact hquiet
  · rw [hret]
    exact vreg_setVreg w d.toNat _ hd
  · rw [hret]
    exact vreg_setVreg_other w d.toNat n _ hn
  · rw [hret]
    rfl

theorem exec_loadWriteback_of_outstanding (s : State) (gang wi op gi : Nat) (g : Gang) (w : Wave) (o : MemOp) (m : Mask)
    (stale : Bool) (h : Outstanding s gang wi op gi g w o) (hkind : isStoreKind o.kind = false) :
    Machine.exec (.loadWriteback gang wi op m stale) s = .next (writeback s gi wi o m stale) := by
  obtain ⟨hidx, hg, hw, hop, hmay⟩ := h
  have hwave : s.wave? gi wi = some w := by simp only [State.wave?, hg, hw]
  calc Machine.exec (.loadWriteback gang wi op m stale) s
      = execLoadWriteback gang wi op m stale s := rfl
    _ = .next (writeback s gi wi o m stale) := by
      simp only [execLoadWriteback, hidx, hwave, hop, hkind, hmay, Bool.not_true, Bool.or_self, Bool.false_eq_true, if_false]

/-! ## The access of `VAPND` (R174) -/

/-- What the accesses `as` of an append return where the counter held `c`: the lane of rank r returns c + r, unmarked. -/
def apndRets (c : Nat) (as : List Acc) : List LaneRet :=
  (as.zip (List.range as.length)).map fun p => ⟨p.1.lane, [(BitVec.ofNat 32 (c + p.2), false)], 0⟩

theorem getElem?_apndRets (c : Nat) (as : List Acc) (n : Nat) (a : Acc) (h : as[n]? = some a) :
    (apndRets c as)[n]? = some ⟨a.lane, [(BitVec.ofNat 32 (c + n), false)], 0⟩ := by
  have hn : (List.range as.length)[n]? = some n := List.getElem?_range (List.getElem?_eq_some_iff.1 h).1
  rw [apndRets, List.getElem?_map, (List.getElem?_zip_eq_some (z := (a, n))).2 ⟨h, hn⟩]
  rfl

theorem map_lane_apndRets (c : Nat) (as : List Acc) : (apndRets c as).map (·.lane) = as.map (·.lane) := by
  calc (apndRets c as).map (·.lane)
      = ((as.zip (List.range as.length)).map Prod.fst).map (·.lane) := by simp only [apndRets, List.map_map]; rfl
    _ = as.map (·.lane) := by rw [List.map_fst_zip (by simp)]

theorem lane_of_mem_apndRets (c : Nat) (as : List Acc) (r : LaneRet) (hr : r ∈ apndRets c as) : ∃ a ∈ as, a.lane = r.lane :=
  List.mem_map.1 (map_lane_apndRets c as ▸ List.mem_map_of_mem hr)

/-- The state after the access of an append of `n` lanes at `l`, from the state `u` that has noted its lines. -/
def appended (u : State) (gi : Nat) (g : Gang) (o : MemOp) (l : Loc) (n : Nat) : State :=
  putNum (atomLine u g.byreId o l) gi g.byreId l 4 ((atomNum (atomLine u g.byreId o l) gi g o l 4 + n) % 2 ^ 32)

/-- One access for all lanes: the counter grows by their number, modulo 2^32. -/
theorem apndAll_eq (u : State) (gi : Nat) (g : Gang) (o : MemOp) (as : List Acc) (l : Loc) (hne : as ≠ [])
    (hloc : ∀ a ∈ as, a.loc = l) (hclean : u.rangeBad gi l 4 = false) :
    apndAll u gi g o as
      = (appended u gi g o l as.length, apndRets (atomNum (atomLine u g.byreId o l) gi g o l 4) as) := by
  obtain ⟨-, hgangs, hbad⟩ := atomLine_frame u g.byreId o l
  cases as with
  | nil => exact absurd rfl hne
  | cons a as =>
    obtain rfl := hloc a (List.mem_cons_self ..)
    simp only [apndAll, rangeBad_congr hbad hgangs, hclean, Bool.false_eq_true, if_false]
    rfl

/-- A `VAPND` returns all its lanes at once. -/
theorem access_apnd (s : State) (gi : Nat) (g : Gang) (w : Wave) (o : MemOp) (m : Mask) (stale : Bool) (hkind : o.kind = .apnd)
    (hleft : ∀ a ∈ o.accs, o.left.getLsbD a.lane = true) :
    access s gi g w o (retLanes o m) stale = apndAll (noteAccs s g true 4 o.accs) gi g o o.accs := by
  have hlanes : retLanes o m = o.left := by simp only [retLanes, hkind]
  have hall : (o.accs.filter fun a => o.left.getLsbD a.lane) = o.accs := List.filter_eq_self.2 hleft
  simp only [access, hkind, hlanes, hall]

end Sys2Proof
end

section
/-! SUPPORT. `VAPND` at its issue and as it is performed (R174). -/

namespace Sys2Proof

open Sys2Proof.Machine Sys2Proof.Claims

/-- At its issue: an access of every lane of ACT, in ascending order, all at the counter and without data. -/
theorem memOp_vapnd_spec (e : Env) (d : VR) (a : Src) (i : I25) (r : Reached) (id : Nat)
    (h : memCheck e (mVapnd d a i) Src.mi = .ok r) (hparked : r.parked = []) :
    let o := memOp e (mVapnd d a i) r.go id
    o.kind = .apnd ∧ o.dst = .vec d 1 ∧ o.accs.map (·.lane) = lanesOf e.act ∧
      (∀ x ∈ o.accs, ∀ y ∈ o.accs, x.loc = y.loc) ∧
      ∀ x ∈ o.accs, x.x = 0 ∧ x.y = 0 ∧ o.left.getLsbD x.lane = true := by
  have hlanes : ((lanesOf e.act).map (apndAcc e d a i)).map (·.lane) = lanesOf e.act := by
    rw [List.map_map]
    exact List.map_id _
  dsimp only
  rw [memOp_vapnd_accs h hparked]
  refine ⟨rfl, rfl, hlanes, fun x hx y hy => ?_, fun x hx => ?_⟩
  · obtain ⟨_, -, rfl⟩ := List.mem_map.1 hx
    obtain ⟨_, -, rfl⟩ := List.mem_map.1 hy
    rfl
  · obtain ⟨l, hl, rfl⟩ := List.mem_map.1 hx
    exact ⟨rfl, rfl, memOp_vapnd_left h hparked id l hl⟩

section
variable {u : State} {gi wi : Nat} {w : Wave} (g : Gang) (o : MemOp) {l : Loc} (n : Nat)
  (hw : u.wave? gi wi = some w) (hclean : u.rangeBad gi l 4 = false)
include hw hclean

theorem wave?_appended : (appended u gi g o l n).wave? gi wi = some w := by
  obtain ⟨-, hgangs, hbad⟩ := atomLine_frame u g.byreId o l
  rw [appended, wave?_putNum _ _ ((rangeBad_congr hbad hgangs gi l 4).trans hclean), wave?_congr hgangs, hw]

variable (hok : u.memOk = true)
include hok

theorem numLoc_appended :
    (appended u gi g o l n).numLoc gi l 4 = (atomNum (atomLine u g.byreId o l) gi g o l 4 + n) % 2 ^ 32 := by
  obtain ⟨hmem, hgangs, hbad⟩ := atomLine_frame u g.byreId o l
  rw [appended, numLoc_putNum _ _ ((rangeBad_congr hbad hgangs gi l 4).trans hclean) (memOk_congr u _ hmem hgangs hok)
    (wi := wi) (by rw [wave?_congr hgangs, hw]; rfl)]
  exact Nat.mod_mod _ _

theorem getByte_appended_other (x : Loc) (hx : ∀ i, i < 4 → x ≠ l.add i) :
    (appended u gi g o l n).getByte gi x = u.getByte gi x := by
  obtain ⟨hmem, hgangs, hbad⟩ := atomLine_frame u g.byreId o l
  rw [appended, getByte_putNum_other _ _ ((rangeBad_congr hbad hgangs gi l 4).trans hclean) (memOk_congr u _ hmem hgangs hok)
    (wi := wi) (by rw [wave?_congr hgangs, hw]; rfl) x hx, getByte_congr hmem hgangs]

end

/-- Settles O26: at the issue every lane of ACT, in ascending order, is at the one place of the counter; performed, the one
access is a read of the counter and a write of it, whose return fills `D` rank by rank. -/
theorem appendCounts : Obligations.AppendCounts := by
  unfold Obligations.AppendCounts
  refine ⟨fun d a i s e r _ h hparked => memOp_vapnd_spec e d a i r _ h hparked, ?_⟩
  intro s gang wi op gi g w o d l m stale hout hquiet hkind hdst hd hlen hok hclean hne haccs hnodup u c
  have ⟨_, hg, hw, _, _⟩ := hout
  obtain ⟨hugangs, hubad⟩ := noteAccs_frame s g true 4 o.accs
  have huwave : u.wave? gi wi = some w := by rw [wave?_congr hugangs]; simp only [State.wave?, hg, hw]
  have huclean : u.rangeBad gi l 4 = false := (rangeBad_congr hubad hugangs gi l 4).trans hclean
  have huok : u.memOk = true := noteAccs_memOk s g true 4 o.accs hok
  have haccess : access s gi g w o (retLanes o m) stale = (appended u gi g o l o.accs.length, apndRets c o.accs) := by
    rw [access_apnd s gi g w o m stale hkind fun a ha => (haccs a ha).2]
    exact apndAll_eq u gi g o o.accs l hne (fun a ha => (haccs a ha).1) huclean
  have htwave := wave?_appended g o o.accs.length huwave huclean
  obtain ⟨w', hback, hdreg, hvregs, hsregs⟩ :=
    writeback_vec_of_quiet s _ gi wi g w o d m stale _ hg hw hquiet hdst hd haccess htwave
  refine ⟨noteAccs_of_enc_none s g true 4 o.accs, ?wide, (appended u gi g o l o.accs.length).setWave gi wi w', w', ?exec,
    State.setWave_wave? _ gi wi w' w htwave, ?counter, fun x hx => ?bytes, fun n a ha => ?ranks, fun k hk => ?lanes,
    hvregs, hsregs⟩
  case wide =>
    intro hwide
    obtain ⟨hmem, hgangs, -⟩ := atomLine_frame u g.byreId o l
    exact (atomNum_eq_numLoc _ gi g o l 4 hwide).trans (numLoc_congr hmem hgangs gi l 4)
  case exec =>
    rw [exec_loadWriteback_of_outstanding s gang wi op gi g w o m stale hout (by rw [hkind]; rfl), hback]
  case counter => rw [numLoc_setWave, numLoc_appended g o _ huwave huclean huok]
  case bytes => rw [getByte_setWave, getByte_appended_other g o _ huwave huclean huok x hx]
  case ranks =>
    have hr := List.mem_of_getElem? (getElem?_apndRets c o.accs n a ha)
    have hrnodup : ((apndRets c o.accs).map (·.lane)).Nodup := by rwa [map_lane_apndRets]
    have hlane : a.lane < 96 := BitVec.lt_of_getLsbD (haccs a (List.mem_of_getElem? ha)).2
    rw [hdreg]
    exact ⟨retReg_lane_returned _ _ 0 _ _ hrnodup hr rfl hlane hlen, retReg_bad_returned _ _ 0 _ _ hrnodup hr rfl hlane⟩
  case lanes =>
    rw [hdreg]
    refine retReg_lane_other _ _ 0 k hlen fun r hr => ?_
    obtain ⟨a, ha, hlane⟩ := lane_of_mem_apndRets c o.accs r hr
    exact hlane ▸ hk a ha

end Sys2Proof
end

section
/-! SUPPORT. What a word's run comes to on its issuing split: the machine it started from, the wave put back, and the rows of
the vector and the scalar words as one meaning each. -/

namespace Sys2Proof

open Sys2Proof.Machine Sys2Proof.Claims

/-! ## The issuing split -/

section
variable {i : Instr} {s : State} {e : Env} (he : Issues i s e)
include he

theorem issues_state : e.s = s := (env?_eq s _ e he).1

theorem issues_gang : s.gang? e.gi = some e.g := by
  obtain ⟨-, hgi, -, -, -, hg, -⟩ := env?_eq s _ e he
  rw [hgi, hg]

theorem issues_wave : s.wave? e.gi e.wi = some e.w := by
  obtain ⟨-, hgi, hwi, -, -, hg, hw⟩ := env?_eq s _ e he
  rw [State.wave?, hgi, hg, hwi]
  exact hw

theorem issues_put (w : Wave) : e.put w = s.setWave e.gi e.wi w := by rw [Env.put, issues_state he]

theorem issues_trap (t : Trap) : e.trap t = takeTrap s e.gi e.wi e.k t := by rw [Env.trap, issues_state he]

/-- A word's run on its issuing split. -/
theorem onSplit_issues (f : Env → State) : onSplit i s f = .next (f e) := onSplit_some i s f e he

end

/-! ## The split one word on -/

@[simp] theorem advance_eq_onward (w : Wave) (k : Bool) : w.advance k = onward w k := by cases k <;> rfl

@[simp] theorem onward_act (w : Wave) (k : Bool) : ((onward w k).slot k).act = (w.slot k).act := by cases k <;> rfl

/-- The wave put back after a word that may have written the mask views. -/
theorem issues_done {i : Instr} {s : State} {e : Env} (he : Issues i s e) (w : Wave) :
    e.done w = landed s e (onward w e.k) := by
  rw [Env.done, landed, issues_put he, advance_eq_onward]

/-- Where no lane has left the mask, nothing happens after a word. -/
theorem afterMask_of_act_eq (s : State) (gi wi : Nat) (k : Bool) (before : Mask) (w : Wave) (hw : s.wave? gi wi = some w)
    (hact : before &&& ~~~(w.slot k).act = 0) : afterMask s gi wi k before = s := by
  simp [afterMask, hw, hact]

/-- A word that leaves the mask as it is. -/
theorem landed_of_act_eq {i : Instr} {s : State} {e : Env} (he : Issues i s e) (w : Wave)
    (hact : (w.slot e.k).act = e.act) : landed s e w = s.setWave e.gi e.wi w := by
  refine afterMask_of_act_eq _ _ _ _ _ w (State.wave?_setWave _ _ _ _ _ (issues_wave he)) ?_
  rw [hact, BitVec.and_not_self]

/-- A trap after a word has set its flags, in a wave that no load into `s0`-`s3` holds up (log 56). -/
theorem trapAfter_of_not_busy {i : Instr} {s : State} {e : Env} (he : Issues i s e) (hbusy : e.w.trapBusy = false)
    (w : Wave) (t : Trap) : e.trapAfter w t = takeTrap (s.setWave e.gi e.wi w) e.gi e.wi e.k t := by
  simp [Env.trapAfter, hbusy, issues_put he]

/-! ## Counters and flags -/

theorem step_eq (w : Wave) (draws : Bool) :
    w.step draws = { w with rngctr := if draws then w.rngctr + 1 else w.rngctr } := by cases draws <;> rfl

/-! ## Vector words (R118) -/

theorem exec_vecOf {i : Instr} {v : VecWord} (hv : vecOf i = some v) (s : State) : exec i s = execVec i s v := by
  unfold vecOf at hv
  split at hv <;> cases hv <;> rfl

/-- The wave once a vector word's flags, draw and `MABS` are noted, before it writes or traps. -/
theorem vecNote_eq (w : Wave) (v : VecWord) (x : VecIn) (fl : Flags) :
    ((w.setFlags fl).step v.draw).setMabs (absent w v.memb x.mset)
      = { w with
          flags := w.flags ||| fl
          mabs := w.mabs || (v.memb.isSome && x.mset &&& w.exited != 0)
          rngctr := if v.draw then w.rngctr + 1 else w.rngctr } := by
  rw [step_eq]
  rfl

/-- A vector word whose checks pass: it writes, or traps with the floating-point flags. -/
theorem vecWord_of_check (e : Env) (v : VecWord) (x : VecIn) (hx : vecCheck e v = .ok x) :
    let rs := v.eval x
    let w := ((e.w.setFlags (allFlags rs)).step v.draw).setMabs (absent e.w v.memb x.mset)
    vecWord e v = if fpLanes e.w.fpen rs != 0 then .ok (e.trapAfter w (trFp (allFlags rs &&& e.w.fpen) (fpLanes e.w.fpen rs)))
      else .ok (e.done (vecWrite w v e.act rs)) := by
  simp only [vecWord, hx]
  rfl

theorem vecWrite_onward (w : Wave) (k : Bool) (v : VecWord) (act : Mask) (rs : List LaneOut) :
    let r := mergeReg (w.vreg v.d.toNat) act (rs.map (·.val)) (badLanes rs)
    onward (vecWrite w v act rs) k
      = { onward w k with
          vregs := if v.nw then w.vregs else setAt w.vregs v.d.toNat r
          latches := shifted w (.vec v.d r) v.nw } := by
  unfold vecWrite
  cases v.nw <;> cases k <;> rfl

/-- Settles O1: after its checks a vector word without an enabled flag writes back, and the mask stays. -/
theorem vectorWordCompletes : Obligations.VectorWordCompletes := by
  unfold Obligations.VectorWordCompletes
  intro i v s e x hv he hx hfp rs r
  have hword : vecWord e v = .ok (e.done (vecWrite
      (((e.w.setFlags (allFlags rs)).step v.draw).setMabs (absent e.w v.memb x.mset)) v e.act rs)) := by
    rw [vecWord_of_check e v x hx, if_neg (by simp [hfp])]
  rw [exec_vecOf hv, execVec, onSplit_issues he, hword, Env.run_ok, issues_done he, vecWrite_onward, vecNote_eq]
  refine congrArg _ (Eq.trans (landed_of_act_eq he _ ?mask) ?wave)
  case mask => cases hk : e.k <;> simp [Env.act, Env.slot, hk, onward]
  case wave => cases hk : e.k <;> rfl

end Sys2Proof
end

section
/-! SUPPORT. Words of the scalar rows, and words that write scalar registers from vectors: one meaning per row, and what they
leave where no enabled flag is raised (R95-R100, R127, R149). -/

namespace Sys2Proof

open Sys2Proof.Machine Sys2Proof.Claims

/-! ## Checks in a row -/

@[simp] theorem chk_bind_ok {α β : Type} (a : α) (f : α → Chk β) : (Except.ok a >>= f : Chk β) = f a := rfl

@[simp] theorem chk_bind_error {α β : Type} (x : Stop) (f : α → Chk β) : (Except.error x >>= f : Chk β) = .error x := rfl

theorem chk_bind_eq_ok_iff {α β : Type} (x : Chk α) (f : α → Chk β) (b : β) :
    x >>= f = .ok b ↔ ∃ a, x = .ok a ∧ f a = .ok b := by
  cases x <;> simp

@[simp] theorem passes_nil : Passes [] := by simp [Passes]

@[simp] theorem passes_cons (c : Chk Unit) (cs : List (Chk Unit)) : Passes (c :: cs) ↔ c = .ok () ∧ Passes cs := by
  simp [Passes]

@[simp] theorem need_ok_iff (b : Bool) (t : Trap) (u : Unit) : need b t = .ok u ↔ b = true := by
  cases b <;> simp [need]

/-! ## Scalar words (R95, R96) -/

theorem exec_sclOf {i : Instr} {v : SclWord} (hv : sclOf i = some v) (s : State) : exec i s = execScl i s v := by
  unfold sclOf at hv
  split at hv <;> cases hv <;> rfl

/-- A scalar word whose checks pass: it writes, or traps with the floating-point flags. -/
theorem sclWord_of_check (e : Env) (v : SclWord) (x : SclIn) (hx : sclCheck e v = .ok x) :
    let r := v.eval x.xs x.ps x.ms (drawUnit e.g e.w 0 0)
    let w := (e.w.setFlags r.2).step v.draw
    sclWord e v = if r.2 &&& e.w.fpen != 0 then .ok (e.trapAfter w (trFp (r.2 &&& e.w.fpen) e.act))
      else .ok (e.done (sclWrite w e.k v r.1 x.bad)) := by
  simp only [sclWord, hx]
  rfl

theorem setSregs_latches (w : Wave) (k : Bool) (n : Nat) (xs : List W) (bad : Bool) :
    (w.setSregs k n xs bad).latches = w.latches := by
  induction xs generalizing w n with
  | nil => rfl
  | cons x xs ih =>
    rw [Wave.setSregs, ih]
    unfold Wave.setSreg
    split
    · cases k <;> rfl
    · rfl

theorem onward_push (w : Wave) (k : Bool) (v : LatchVal) (nw : Bool) :
    onward (w.push v nw) k = { onward w k with latches := shifted w v nw } := by cases k <;> rfl

/-- The wave after a scalar word has written back. -/
theorem sclWrite_eq_afterScl (e : Env) (v : SclWord) (r : List W × Flags) (bad : Bool) :
    onward (sclWrite ((e.w.setFlags r.2).step v.draw) e.k v r.1 bad) e.k = afterScl e v r bad := by
  rw [sclWrite, onward_push, step_eq]
  unfold afterScl
  cases v.nw
  · simp only [Bool.false_eq_true, if_false, shifted, setSregs_latches]
    rfl
  · rfl

/-- A scalar word that raises no enabled flag. -/
theorem sclWord_completes (e : Env) (v : SclWord) (x : SclIn) (hx : sclCheck e v = .ok x) :
    let r := v.eval x.xs x.ps x.ms (drawUnit e.g e.w 0 0)
    r.2 &&& e.w.fpen = 0 → sclWord e v = .ok (e.done (sclWrite ((e.w.setFlags r.2).step v.draw) e.k v r.1 x.bad)) := by
  intro r hfp
  rw [sclWord_of_check e v x hx, if_neg (by simp [r, hfp])]

/-- Settles O7: after its checks a scalar word without an enabled flag writes back. -/
theorem scalarWordCompletes : Obligations.ScalarWordCompletes := by
  unfold Obligations.ScalarWordCompletes
  intro i v s e x hv he hx r hfp
  rw [exec_sclOf hv, execScl, onSplit_issues he, sclWord_completes e v x hx hfp, Env.run_ok, issues_done he,
    sclWrite_eq_afterScl]

/-! ## Division (R97) -/

/-- The data of a division draws nothing and raises no flag. -/
theorem divOf_plain {i : Instr} {v : SclWord} {a : Src} {b : Alu2} (hv : divOf i = some (v, a, b)) (xs : List W)
    (ps : List D) (ms : List Mask) (u : Nat) :
    (v.eval xs ps ms u).2 = 0 ∧ v.eval xs ps ms u = v.eval xs ps ms 0 := by
  unfold divOf at hv
  split at hv <;> cases hv <;> simp only [aluWord, scl2, scl1, SclWord.plain] <;> cases b <;> simp only <;> split <;> simp

theorem divOf_copy {i : Instr} {v : SclWord} {a : Src} {b : Alu2} (hv : divOf i = some (v, a, b)) : v.copy = false := by
  unfold divOf at hv
  split at hv <;> cases hv <;> cases b <;> rfl

theorem exec_divOf {i : Instr} {v : SclWord} {a : Src} {b : Alu2} (hv : divOf i = some (v, a, b)) (s : State) :
    exec i s = onSplit i s fun e => e.run (sclCheck e v >>= fun _ => immZero e a b >>= fun _ => sclWord e v) := by
  unfold divOf at hv
  split at hv <;> cases hv <;> rfl

/-- What a scalar word reads is marked only where it copies marks. -/
theorem sclCheck_bad (e : Env) (v : SclWord) (x : SclIn) (hcopy : v.copy = false) (hx : sclCheck e v = .ok x) :
    x.bad = false := by
  simp only [sclCheck, chk_bind_eq_ok_iff, hcopy, Bool.false_and] at hx
  obtain ⟨_, -, _, -, _, -, hx⟩ := hx
  split at hx
  · simp only [chk_bind_eq_ok_iff] at hx
    obtain ⟨_, -, hx⟩ := hx
    split at hx
    · split at hx
      · simp only [chk_bind_eq_ok_iff] at hx
        obtain ⟨_, -, hx⟩ := hx
        cases hx; rfl
      · cases hx; rfl
    · cases hx; rfl
  · contradiction

/-- The divisor of a scalar word that divides, where it is in a register. -/
def divisorCheck (e : Env) (v : SclWord) : Chk Unit :=
  match v.srcs.map fun x => e.ssrc x.2.2 x.2.1 with
  | [x, y] => need (y.1 != 0) (trDiv0 x.1 e.act)
  | _ => .ok ()

/-- The checks of a word that divides are those of the word that does not, and the divisor's. -/
theorem sclCheck_div (e : Env) (v : SclWord) (x : SclIn) (hdiv : v.div = false) (hx : sclCheck e v = .ok x) :
    sclCheck e { v with div := true } = divisorCheck e v >>= fun _ => .ok x := by
  simp only [sclCheck, chk_bind_eq_ok_iff, hdiv, Bool.false_eq_true, if_false] at hx
  obtain ⟨_, hfut, _, hlatch, _, hbusy, hx⟩ := hx
  have heaten : SclWord.eaten e { v with div := true } = SclWord.eaten e v := rfl
  have hflds : SclWord.flds { v with div := true } = v.flds := rfl
  simp only [sclCheck, hfut, hflds, hlatch, hbusy, chk_bind_ok, heaten, if_true]
  split at hx <;> rename_i hcopy <;> simp only [hcopy, if_true, Bool.false_eq_true, if_false]
  · simp only [chk_bind_eq_ok_iff] at hx
    obtain ⟨_, hpoison, hx⟩ := hx
    rw [hpoison, chk_bind_ok, ← hx]
    unfold divisorCheck
    generalize v.srcs.map (fun x => e.ssrc x.2.2 x.2.1) = xs
    rcases xs with _ | ⟨x, _ | ⟨y, _ | ⟨z, xs⟩⟩⟩ <;> rfl
  · rw [← hx]
    unfold divisorCheck
    generalize v.srcs.map (fun x => e.ssrc x.2.2 x.2.1) = xs
    rcases xs with _ | ⟨x, _ | ⟨y, _ | ⟨z, xs⟩⟩⟩ <;> rfl

/-- Division by a zero divisor traps, in a register or as the immediate. -/
theorem divAlu_traps {nw : Bool} {d : SR} {a : Src} {b : Alu2} {f : W → W → W} {e : Env}
    (hz : match b with
      | .reg b => (e.ssrc .s32 b).1 = 0
      | .imm x => x = 0)
    (hx : ∃ x, sclCheck e (aluWord nw d a b f) = .ok x) :
    (sclCheck e (divAlu nw d a b f) >>= fun _ => immZero e a b >>= fun _ => sclWord e (divAlu nw d a b f))
      = .error (.trap (trDiv0 (e.ssrc .s32 a).1 e.act)) := by
  obtain ⟨x, hx⟩ := hx
  cases b with
  | reg b =>
    have hdiv := sclCheck_div e _ x rfl hx
    simp only at hz
    rw [divAlu, hdiv]
    simp [divisorCheck, aluWord, scl2, SclWord.plain, hz, need]
  | imm y =>
    have hdiv := sclCheck_div e _ x rfl hx
    simp only at hz
    rw [divAlu, hdiv]
    simp [divisorCheck, aluWord, scl1, SclWord.plain, immZero, hz, need]

/-- Settles O9: a division word checks its divisor after its operands, and then completes as a scalar word. -/
theorem scalarDivision : Obligations.ScalarDivision := by
  unfold Obligations.ScalarDivision
  refine ⟨fun i v a b s e x hv he hx himm => ?_, fun u nw d a b s e hx hz => ?_⟩
  · obtain ⟨hflags, hdraw⟩ := divOf_plain hv x.xs x.ps x.ms (drawUnit e.g e.w 0 0)
    have hcompletes := sclWord_completes e v x hx (by simp [hflags])
    rw [exec_divOf hv, onSplit_issues he, hx, chk_bind_ok, himm, chk_bind_ok, hcompletes, Env.run_ok, issues_done he,
      sclWrite_eq_afterScl, hdraw, sclCheck_bad e v x (divOf_copy hv) hx]
  · refine ⟨fun he => ?_, fun he => ?_⟩
    · rw [exec_divOf (v := divAlu nw d a b (divWord u)) rfl, onSplit_issues he, divAlu_traps hz hx]
      exact congrArg _ (issues_trap he _)
    · rw [exec_divOf (v := divAlu nw d a b (remWord u)) rfl, onSplit_issues he,
        divAlu_traps (f := remWord u) hz (by cases b <;> exact hx)]
      exact congrArg _ (issues_trap he _)

end Sys2Proof
end

section
/-! SUPPORT. A machine with one wave, for concrete states; and the copy of a poisoned register in a split without lanes. -/

namespace Sys2Proof

open Sys2Proof.Machine Sys2Proof.Claims

/-! ## A machine with one wave -/

/-- The wave of a privileged one-wave gang at its start, in slot 0. -/
def freshWave : Wave := startWave 0 0 0 128 0 0x10000 0x4000 0 0

def soleGang (w : Wave) : Gang := { placedGang 0 with waves := [w] }

/-- The machine after reset with wave `w` only, in a privileged gang. -/
def soleState (w : Wave) : State := { State.reset with gangs := [soleGang w], ctxs := [placedCtx] }

/-- The issuing split of `soleState w`, about to run `i`. -/
def soleEnv (w : Wave) (i : Instr) : Env := ⟨soleState w, 0, 0, false, soleGang w, w, (encode i).getD 0⟩

theorem issues_sole (w : Wave) (i : Instr) : Issues i (soleState w) (soleEnv w i) := rfl

/-! ## A copy in a split without lanes -/

/-- A wave whose split has no lane in ACT, with `s4` poisoned. -/
def laneless : Wave := { freshWave with slot0 := { freshWave.slot0 with act := 0 }, sbad := 0x10 }

/-- Whether `s3` of the machine's only wave is poisoned after a step. -/
def marksS3 (o : Out) : Bool :=
  match o with
  | .next t => (t.wave? 0 0).any (·.sregBad 3)
  | _ => false

/-- Refutes O10: its clause on `SMOV` of a register says that the copy takes the source's mark along in every state, but the
model keeps the mark of a copied source only while some lane of ACT consumes it. In a split without lanes the copy of a
poisoned register leaves its destination unmarked. -/
theorem not_movesComplete : ¬ Obligations.MovesComplete := by
  unfold Obligations.MovesComplete
  intro h
  obtain ⟨hreg, -, -⟩ := h false 3 (soleState laneless) (soleEnv laneless (.smov false 3 (.s 4)))
  have hexec := hreg 4 (issues_sole laneless _) (by decide +kernel)
  have hmark : marksS3 (exec (.smov false 3 (.s 4)) (soleState laneless)) = false := by decide +kernel
  rw [hexec] at hmark
  exact absurd hmark (by decide +kernel)

end Sys2Proof
end

section
/-! SUPPORT. Words that write scalar registers from vectors (R127, R149), pair words (R63), the words that write a register pair
(R178, R179), and what an enabled floating-point flag or a zero divisor does to each row (R91, R122). -/

namespace Sys2Proof

open Sys2Proof.Machine Sys2Proof.Claims

/-! ## Flags and lanes -/

theorem ite_bne_zero {n : Nat} {α : Type} (x : BitVec n) (a b : α) : (if x != 0 then a else b) = if x = 0 then b else a := by
  by_cases hx : x = 0
  · rw [if_pos hx, hx]; exact if_neg (by simp)
  · rw [if_neg hx, if_pos (bne_iff_ne.2 hx)]

/-- A fold that joins flags raises none that `m` tests only if no member does. -/
theorem foldl_or_and_eq_zero {α : Type} (g : α → Flags) (m : Flags) (xs : List α) (a : Flags)
    (h : xs.foldl (fun f x => f ||| g x) a &&& m = 0) : a &&& m = 0 ∧ ∀ x ∈ xs, g x &&& m = 0 := by
  induction xs generalizing a with
  | nil => exact ⟨h, by simp⟩
  | cons y xs ih =>
    obtain ⟨ha, hxs⟩ := ih (a ||| g y) h
    have hor : (a &&& m) ||| (g y &&& m) = 0 := by rw [← ha]; ext; simp [Bool.and_or_distrib_right]
    obtain ⟨ha, hy⟩ := BitVec.or_eq_zero_iff.1 hor
    exact ⟨ha, List.forall_mem_cons.2 ⟨hy, hxs⟩⟩

theorem maskOf_congr {p q : Nat → Bool} (h : ∀ l, l < 96 → p l = q l) : maskOf p = maskOf q :=
  mask_ext _ _ fun l hl => by rw [maskOf_getLsbD p l hl, maskOf_getLsbD q l hl, h l hl]

theorem maskOf_eq_zero {p : Nat → Bool} (h : ∀ l, l < 96 → p l = false) : maskOf p = 0 :=
  mask_ext _ _ fun l hl => by rw [maskOf_getLsbD p l hl, h l hl]; exact (BitVec.getLsbD_zero).symm

theorem setFlags_zero (w : Wave) : w.setFlags 0 = w := by
  have : w.flags ||| 0 = w.flags := BitVec.or_zero
  simp only [Wave.setFlags, this]

theorem run_ite_ok (e : Env) (c : Prop) [Decidable c] (a b : State) :
    e.run (if c then .ok a else .ok b) = if c then a else b := by split <;> rfl

/-! ## Vector to scalar (R127, R149) -/

theorem toSclCheck_act (e : Env) (srcs : List (Nat × Src × Ty)) (m : Option Member) (wr : List Nat) (x : VecIn)
    (hx : toSclCheck e srcs m wr = .ok x) : x.act = e.act := by
  have : Gives (fun x => x.act = e.act) (toSclCheck e srcs m wr) := by
    unfold toSclCheck
    simp only [gives_bind, gives_ite, gives_ok, Env.vecIn, implies_true, and_self]
  exact this x hx

/-- The scalar registers written, the latch of the lowest one, and the split one word on. -/
theorem toSclWrite_eq {i : Instr} {s : State} {e : Env} (he : Issues i s e) (w : Wave) (hw : w.latches = e.w.latches) (d : SR)
    (xs : List W) :
    let w2 := w.setSregs e.k d.toNat xs false
    toSclWrite e w d xs
      = landed s e { onward w2 e.k with latches := shifted e.w (.scl d (w2.sreg e.k d.toNat) false) false } := by
  intro w2
  have hlatches : w2.latches = e.w.latches := (setSregs_latches ..).trans hw
  rw [toSclWrite, issues_done he, onward_push, shifted, shifted, hlatches]

/-- The result of lane `l` of a comparison, in the lanes that issue. -/
theorem ite_fst_snd (c : Bool) (r : Bool × Flags) :
    (if c then r else (false, 0)).1 = (c && r.1) ∧ (if c then r else (false, 0)).2 = if c then r.2 else 0 := by
  cases c <;> simp

theorem exec_vcmp {t : VTy} {cc : VCond} {d : SR} {a b : Src} {s : State} {e : Env} {x : VecIn}
    (he : Issues (.vcmp t cc d a b) s e)
    (hx : toSclCheck e (srcs2 (vty t) a b) none [d.toNat, d.toNat + 1, d.toNat + 2] = .ok x) :
    let r (l : Nat) := cmpLane t cc (x.op 0 l) (x.op 1 l)
    let fl (l : Nat) : Flags := if e.act.getLsbD l then (r l).2 else 0
    let all := laneList.foldl (fun f l => f ||| fl l) 0
    let hot := maskOf fun l => fl l &&& e.w.fpen != 0
    exec (.vcmp t cc d a b) s = .next
      (if hot = 0 then toSclWrite e (e.w.setFlags all) d (maskWords (maskOf fun l => e.act.getLsbD l && (r l).1))
        else e.trapAfter (e.w.setFlags all) (trFp (all &&& e.w.fpen) hot)) := by
  intro r fl all hot
  refine (onSplit_issues he _).trans (congrArg _ ?_)
  simp only [hx, chk_bind_ok, toSclCheck_act e _ _ _ x hx, (ite_fst_snd _ _).1, (ite_fst_snd _ _).2, ite_bne_zero, run_ite_ok]
  rfl

/-- Settles O2: neither word raises an enabled flag, and each writes its scalar registers. -/
theorem vectorToScalarCompletes : Obligations.VectorToScalarCompletes := by
  unfold Obligations.VectorToScalarCompletes
  refine fun s e x d a b => ⟨fun t cc he hx hfp => ?_, fun op m he hx => ?_⟩
  · have hhot : maskOf (fun l => (if e.act.getLsbD l then (cmpLane t cc (x.op 0 l) (x.op 1 l)).2 else 0) &&& e.w.fpen != 0)
        = 0 := by
      refine maskOf_eq_zero fun l hl => ?_
      cases hact : e.act.getLsbD l
      · simp
      · simpa using hfp l hl hact
    rw [exec_vcmp he hx, if_pos hhot]
    exact congrArg _ ((toSclWrite_eq he (e.w.setFlags _) rfl d _).trans rfl)
  · refine (onSplit_issues he _).trans (congrArg _ ?_)
    simp only [hx, chk_bind_ok, Env.run_ok]
    exact toSclWrite_eq he (e.w.setMabs (x.gone != 0)) rfl d _

/-! ## Pair words (R63) -/

theorem exec_pairWord {h0 h1 : Half} {s : State} {e : Env} (he : Issues (.pairWord h0 h1) s e)
    (hcheck : pairCheck e (halfWord h0) (halfWord h1) = .ok ()) :
    let r0 := halfEval e (halfWord h0)
    let r1 := halfEval e (halfWord h1)
    let fl := r0.2.1 ||| r1.2.1
    let w := e.w.setFlags fl
    exec (.pairWord h0 h1) s = .next
      (if fl &&& e.w.fpen = 0 then e.done (halfWrite (halfWrite w e.k e.act r0.1) e.k e.act r1.1)
        else e.trapAfter w (trFp (fl &&& e.w.fpen) (r0.2.2 ||| r1.2.2))) := by
  intro r0 r1 fl w
  refine (onSplit_issues he _).trans (congrArg _ ?_)
  simp only [hcheck, chk_bind_ok, ite_bne_zero, run_ite_ok]
  rfl

/-- Settles O42: without an enabled flag both halves write, one after the other. -/
theorem pairWordCompletes : Obligations.PairWordCompletes := by
  unfold Obligations.PairWordCompletes
  intro h0 h1 s e he hcheck fl hfp w0 w
  rw [exec_pairWord he hcheck, if_pos hfp, issues_done he]
  rfl

/-! ## Register pairs (R178, R179) -/

/-- The mask stays when a pair of vector registers is written. -/
theorem pairWrite_done {i : Instr} {s : State} {e : Env} (he : Issues i s e) (fl : Flags) (d : VR) (nw : Bool)
    (lo hi : List W) (bad : Mask) :
    let r0 := mergeReg (e.w.vreg d.toNat) e.act lo 0
    let r1 := mergeReg (e.w.vreg (d.toNat + 1)) e.act hi bad
    e.done (pairWrite (e.w.setFlags fl) d nw e.act lo hi bad)
      = s.setWave e.gi e.wi { onward e.w e.k with
          vregs := if nw then e.w.vregs else setAt (setAt e.w.vregs d.toNat r0) (d.toNat + 1) r1
          flags := e.w.flags ||| fl, latches := shifted e.w (.vec d r0) nw } := by
  intro r0 r1
  have hact : ((onward (pairWrite (e.w.setFlags fl) d nw e.act lo hi bad) e.k).slot e.k).act = e.act := by
    rw [onward_act]
    cases nw <;> cases hk : e.k <;> simp [Env.act, Env.slot, hk, pairWrite, Wave.setVreg]
  rw [issues_done he, landed_of_act_eq he _ hact]
  cases nw <;> cases hk : e.k <;> rfl

theorem exec_smerge {nw : Bool} {d : VR} {a b : Src} {s : State} {e : Env} (he : Issues (.smerge nw d a b) s e)
    (hcheck : smergeCheck e d a b = .ok ()) :
    let x := e.vpair a
    let y := e.vpair b
    let rs := laneList.map fun l =>
      if e.act.getLsbD l then mergeLane e.g.era (x.1.lane l, x.2.lane l) (y.1.lane l, y.2.lane l) else (0, 0, 0)
    let fl := rs.foldl (fun f r => f ||| r.2.2) 0
    let hot := maskOf fun l =>
      (if e.act.getLsbD l then mergeLane e.g.era (x.1.lane l, x.2.lane l) (y.1.lane l, y.2.lane l) else (0, 0, 0)).2.2
        &&& e.w.fpen != 0
    exec (.smerge nw d a b) s = .next
      (if hot = 0 then e.done (pairWrite (e.w.setFlags fl) d nw e.act (rs.map (·.1)) (rs.map (·.2.1)) 0)
        else e.trapAfter (e.w.setFlags fl) (trFp (fl &&& e.w.fpen) hot)) := by
  intro x y rs fl hot
  have hhot : (maskOf fun l => match rs[l]? with | some r => r.2.2 &&& e.w.fpen != 0 | none => false) = hot :=
    maskOf_congr fun l hl => by simp only [rs, List.getElem?_map, laneList_get l hl, Option.map_some]
  refine (onSplit_issues he _).trans (congrArg _ ?_)
  rw [← hhot]
  simp only [hcheck, chk_bind_ok, ite_bne_zero, run_ite_ok]
  rfl

/-- Settles O27: without an enabled flag both words write their pair. -/
theorem stampedRegisterWords : Obligations.StampedRegisterWords := by
  unfold Obligations.StampedRegisterWords
  intro nw d a b cls s e write
  constructor
  · intro he hcheck x y rs fl hfp
    obtain ⟨-, hlanes⟩ := foldl_or_and_eq_zero (fun r : W × W × Flags => r.2.2) e.w.fpen rs 0 hfp
    rw [exec_smerge he hcheck, if_pos ?_, pairWrite_done he]
    refine maskOf_eq_zero fun l hl => ?_
    simpa using hlanes _ (List.mem_map_of_mem ((mem_laneList l).2 hl))
  · intro he hpasses
    simp only [passes_cons, passes_nil, and_true] at hpasses
    obtain ⟨hfoot, hsrc, hlatch, hbusy⟩ := hpasses
    refine (onSplit_issues he _).trans (congrArg _ ?_)
    have hrange : regRange d.toNat 2 = [d.toNat, d.toNat + 1] := rfl
    simp only [hfoot, hsrc, hlatch, hrange, hbusy, chk_bind_ok, Env.run_ok]
    have hwrite := pairWrite_done he 0 d nw (List.replicate 96 (BitVec.ofNat 32 (e.g.step.toNat % 2 ^ 24 * 256 + cls.toNat * 16)))
      (e.vsrc .s32 a).lanes (e.vsrc .s32 a).bad
    rw [setFlags_zero] at hwrite
    exact hwrite

/-! ## Traps of the arithmetic words (R91, R122) -/

/-- The sources of a word without member set, mask triple or index are consumed lane by lane; unmarked, they pass. -/
theorem chkEaten_of_unmarked (fs : List Eaten) (h : ∀ f ∈ fs, f.mask = 0) : chkEaten fs = .ok () := by
  have hnone : (byField fs).find? (·.mask != 0) = none := by
    refine List.find?_eq_none.2 fun f hf => ?_
    simp only [byField, List.mem_flatMap, List.mem_filter] at hf
    obtain ⟨_, -, hf, -⟩ := hf
    simp [h f hf]
  rw [chkEaten, hnone]

/-- The data of the vector divisions. -/
def vecDiv (u nw : Bool) (d : VR) (a b : Src) (f : W → W → W) : VecWord := { vec2 (uty u) nw d a b f with div := true }

/-- A vector division by zero in a lane of ACT stops at the last check (R122). -/
theorem vecDiv_check {u nw : Bool} {d : VR} {a b : Src} {f : W → W → W} {e : Env}
    (hpasses : Passes [chkFoot e 6 d.toNat 1, chkFootSrc e 7 a, chkFootSrc e 8 b, chkLatches e [⟨7, a, Src.gv⟩, ⟨8, b, Src.gv⟩],
      chkBusy e (regsOf e.w e.k (srcs2 (uty u) a b)) ([d.toNat], []) false])
    (hbad : ((e.vsrc (uty u) a).bad ||| (e.vsrc (uty u) b).bad) &&& e.act = 0)
    (hz : maskOf (fun l => e.act.getLsbD l && (e.vsrc (uty u) b).lane l == 0) ≠ 0) :
    let z := maskOf fun l => e.act.getLsbD l && (e.vsrc (uty u) b).lane l == 0
    vecCheck e (vecDiv u nw d a b f) = .error (.trap (trDiv0 ((e.vsrc (uty u) a).lane (lowLane z)) z)) := by
  intro z
  simp only [passes_cons, passes_nil, and_true] at hpasses
  obtain ⟨hfoot, ha, hb, hlatch, hbusy⟩ := hpasses
  obtain ⟨hbada, hbadb⟩ : (e.vsrc (uty u) a).bad &&& e.act = 0 ∧ (e.vsrc (uty u) b).bad &&& e.act = 0 := by
    refine BitVec.or_eq_zero_iff.1 (Eq.trans ?_ hbad)
    ext
    simp [Bool.and_or_distrib_right]
  have heaten : chkEaten ((vecDiv u nw d a b f).eaten e) = .ok () :=
    chkEaten_of_unmarked _ (by
      simp [vecDiv, vec2, VecWord.plain, VecWord.eaten, srcsEaten, srcs2, eatenBy, triplesEaten, hbada, hbadb])
  have hflds : (vecDiv u nw d a b f).flds = [⟨7, a, Src.gv⟩, ⟨8, b, Src.gv⟩] := rfl
  simp only [vecCheck, hflds, hlatch, heaten]
  simp only [vecDiv, vec2, VecWord.plain, hfoot, srcs2, chkAll, ha, hb, chk_bind_ok, Bool.false_eq_true, if_false,
    membRegs, List.append_nil, if_true]
  have hops (l : Nat) : (e.vecIn e.act [(7, a, uty u), (8, b, uty u)] none none none).op 0 l = (e.vsrc (uty u) a).lane l ∧
      (e.vecIn e.act [(7, a, uty u), (8, b, uty u)] none none none).op 1 l = (e.vsrc (uty u) b).lane l := ⟨rfl, rfl⟩
  have hdivisor : (z == 0) = false := beq_false_of_ne hz
  erw [hbusy]
  simp only [chk_bind_ok, Option.isSome_none, Bool.false_eq_true, if_false, (hops _).1, (hops _).2]
  change (need (z == 0) (trDiv0 ((e.vsrc (uty u) a).lane (lowLane z)) z) >>= _) = _
  rw [hdivisor]
  rfl

/-- A vector word that raises an enabled flag. -/
theorem vecWord_traps {i : Instr} {s : State} {e : Env} {v : VecWord} {x : VecIn} (he : Issues i s e)
    (hx : vecCheck e v = .ok x) (hfp : fpLanes e.w.fpen (v.eval x) ≠ 0) (hbusy : e.w.trapBusy = false) :
    let rs := v.eval x
    vecWord e v = .ok (takeTrap (s.setWave e.gi e.wi
      { e.w with
        flags := e.w.flags ||| allFlags rs
        mabs := e.w.mabs || (v.memb.isSome && x.mset &&& e.w.exited != 0)
        rngctr := if v.draw then e.w.rngctr + 1 else e.w.rngctr }) e.gi e.wi e.k
      ⟨12, 0, (allFlags rs &&& e.w.fpen).toNat, 0, fpLanes e.w.fpen rs⟩) := by
  intro rs
  rw [vecWord_of_check e v x hx, ite_bne_zero, if_neg hfp, trapAfter_of_not_busy he hbusy, vecNote_eq]
  rfl

/-- A scalar word that raises an enabled flag. -/
theorem sclWord_traps {i : Instr} {s : State} {e : Env} {v : SclWord} {x : SclIn} (he : Issues i s e)
    (hx : sclCheck e v = .ok x) (hbusy : e.w.trapBusy = false) :
    let fl := (v.eval x.xs x.ps x.ms (drawUnit e.g e.w 0 0)).2
    fl &&& e.w.fpen ≠ 0 →
    sclWord e v = .ok (takeTrap (s.setWave e.gi e.wi
      { e.w with flags := e.w.flags ||| fl, rngctr := if v.draw then e.w.rngctr + 1 else e.w.rngctr })
      e.gi e.wi e.k ⟨12, 0, (fl &&& e.w.fpen).toNat, 0, e.act⟩) := by
  intro fl hfp
  rw [sclWord_of_check e v x hx, ite_bne_zero, if_neg hfp, trapAfter_of_not_busy he hbusy, step_eq]
  rfl

/-- The flags of all lanes, joined over the lanes and over their results. -/
theorem foldl_map_flags {α : Type} (f : Nat → α) (g : α → Flags) :
    (laneList.map f).foldl (fun a r => a ||| g r) 0 = laneList.foldl (fun a l => a ||| g (f l)) 0 := List.foldl_map

/-- Settles O3: each row traps after it has noted its flags; the divisions trap in their checks. -/
theorem arithmeticTraps : Obligations.ArithmeticTraps := by
  unfold Obligations.ArithmeticTraps
  refine ⟨?vec, ?div, ?vcmp, ?smerge, ?scl, ?pair⟩
  case vec =>
    intro i v s e x hv he hx hfp hbusy rs
    rw [exec_vecOf hv, execVec, onSplit_issues he, vecWord_traps he hx hfp hbusy, Env.run_ok]
  case div =>
    intro i u nw d a b s e hi he x y z hpasses hbad hz
    simp only [List.mem_cons, List.not_mem_nil, or_false] at hi
    obtain rfl | rfl := hi
    · rw [exec_vecOf (v := vecDiv u nw d a b (divWord u)) rfl, execVec, onSplit_issues he, vecWord,
        vecDiv_check hpasses hbad hz]
      exact congrArg _ (issues_trap he _)
    · rw [exec_vecOf (v := vecDiv u nw d a b (remWord u)) rfl, execVec, onSplit_issues he, vecWord,
        vecDiv_check hpasses hbad hz]
      exact congrArg _ (issues_trap he _)
  case vcmp =>
    intro t cc d a b s e x he hx fl all hot hhot hbusy
    rw [exec_vcmp he hx, if_neg hhot, trapAfter_of_not_busy he hbusy]
    rfl
  case smerge =>
    intro nw d a b s e he hcheck x y fl all hot hhot hbusy
    have hmerge (l : Nat) :
        (if e.act.getLsbD l then mergeLane e.g.era (x.1.lane l, x.2.lane l) (y.1.lane l, y.2.lane l) else (0, 0, 0)).2.2
          = fl l := by
      simp only [fl]
      split <;> rfl
    have hall : all = (laneList.map fun l => if e.act.getLsbD l then
        mergeLane e.g.era (x.1.lane l, x.2.lane l) (y.1.lane l, y.2.lane l) else (0, 0, 0)).foldl (fun f r => f ||| r.2.2) 0 := by
      rw [foldl_map_flags]
      simp only [hmerge]
      rfl
    have hhot2 : (maskOf fun l => (if e.act.getLsbD l then
        mergeLane e.g.era (x.1.lane l, x.2.lane l) (y.1.lane l, y.2.lane l) else (0, 0, 0)).2.2 &&& e.w.fpen != 0) = hot :=
      maskOf_congr fun l _ => by rw [hmerge]
    rw [exec_smerge he hcheck, ← hall, hhot2, if_neg hhot, trapAfter_of_not_busy he hbusy]
    rfl
  case scl =>
    intro i v s e x hv he hx fl hfp hbusy
    rw [exec_sclOf hv, execScl, onSplit_issues he, sclWord_traps he hx hbusy hfp, Env.run_ok]
  case pair =>
    intro h0 h1 s e he hcheck x y fl hfp hbusy
    rw [exec_pairWord he hcheck, if_neg hfp, trapAfter_of_not_busy he hbusy]
    rfl

end Sys2Proof
end

section
/-! SUPPORT. The one `NOP` word (R66), printed words, the machine at reset (R350, R351), and what a step runs (R67, R130, R308). -/

namespace Sys2Proof

open Sys2Proof.Machine Sys2Proof.Claims

/-! ## NOP (R66) -/

/-- The field checks of a word without operands: it decodes, or a field gives subcode 2. -/
theorem bare_cases (i : Instr) (r : Raw) :
    ((r.nw = false ∧ r.d = 0 ∧ r.a = 0 ∧ r.b = 0 ∧ r.c = 0 ∧ r.x = 0) ∧ bare i r = .ok i) ∨
      (¬(r.nw = false ∧ r.d = 0 ∧ r.a = 0 ∧ r.b = 0 ∧ r.c = 0 ∧ r.x = 0) ∧ ∃ f, bare i r = .error ⟨2, f, false⟩) := by
  simp only [bare, nw0, dN, aN, bN, cN, xN, chk]
  cases r.nw
  · by_cases hd : r.d = 0
    · by_cases ha : r.a = 0
      · by_cases hb : r.b = 0
        · by_cases hc : r.c = 0
          · by_cases hx : r.x = 0
            · exact .inl ⟨⟨rfl, hd, ha, hb, hc, hx⟩, by rw [hd, ha, hb, hc, hx]; rfl⟩
            · exact .inr ⟨by tauto, 10, by rw [hd, ha, hb, hc, beq_false_of_ne hx]; rfl⟩
          · exact .inr ⟨by tauto, 9, by rw [hd, ha, hb, beq_false_of_ne hc]; rfl⟩
        · exact .inr ⟨by tauto, 8, by rw [hd, ha, beq_false_of_ne hb]; rfl⟩
      · exact .inr ⟨by tauto, 7, by rw [hd, beq_false_of_ne ha]; rfl⟩
    · exact .inr ⟨by tauto, 6, by rw [beq_false_of_ne hd]; rfl⟩
  · exact .inr ⟨by simp, 5, rfl⟩

/-- Words with the opcode of `NOP`. -/
theorem decodeWord_nop (w : D) (h63 : w.getLsbD 63 = false) (hop : (Raw.ofWord w).op = 0x2F) :
    decodeWord w = mIs 0 (Raw.ofWord w) >>= fun _ => bare .nop (Raw.ofWord w) := by
  rw [decodeWord_full w h63, decodeRaw, hop]
  rfl

/-- The word of `NOP` by its fields. -/
theorem nop_fields (w : D) (h63 : w.getLsbD 63 = false) (hop : (Raw.ofWord w).op = 0x2F) :
    w = 0x1780000000000000 ↔ (Raw.ofWord w).mod = 0 ∧ (Raw.ofWord w).nw = false ∧ (Raw.ofWord w).d = 0 ∧
      (Raw.ofWord w).a = 0 ∧ (Raw.ofWord w).b = 0 ∧ (Raw.ofWord w).c = 0 ∧ (Raw.ofWord w).x = 0 := by
  refine ⟨fun hw => by rw [hw]; decide, fun ⟨hmod, hnw, hd, ha, hb, hc, hx⟩ => ?_⟩
  have hr : Raw.ofWord w = ⟨0x2F, 0, false, 0, 0, 0, 0, 0⟩ := by
    cases hr : Raw.ofWord w
    simp_all
  rw [← Raw.toWord_ofWord w h63, hr]
  decide

/-- Settles O46: the opcode's row reads `MOD` first and then finds every other field zero, or not. -/
theorem nopWord : Obligations.NopWord := by
  unfold Obligations.NopWord
  refine ⟨fun w h63 hop => ?_, fun s e he => ?_, fun e => ?_⟩
  · have hfields := nop_fields w h63 hop
    by_cases hmod : (Raw.ofWord w).mod = 0
    · have hdec : decodeWord w = bare .nop (Raw.ofWord w) := by rw [decodeWord_nop w h63 hop, mIs, hmod]; rfl
      obtain ⟨hzero, hok⟩ | ⟨hzero, f, herr⟩ := bare_cases .nop (Raw.ofWord w)
      · have hw := hfields.2 ⟨hmod, hzero⟩
        exact ⟨⟨fun _ => hw, fun _ => hdec.trans hok⟩, fun h => absurd hmod h, fun _ h => absurd hw h⟩
      · have hw : w ≠ 0x1780000000000000 := fun hw => hzero (hfields.1 hw).2
        exact ⟨⟨fun h => (by rw [hdec, herr] at h; cases h), fun h => absurd h hw⟩, fun h => absurd hmod h,
          fun _ _ => ⟨f, hdec.trans herr⟩⟩
    · have hne : ((Raw.ofWord w).mod.toNat == 0) = false := beq_false_of_ne fun h => hmod (BitVec.eq_of_toNat_eq h)
      have hdec : decodeWord w = .error ⟨1, 4, false⟩ := by rw [decodeWord_nop w h63 hop, mIs, hne]; rfl
      exact ⟨⟨fun h => (by rw [hdec] at h; cases h), fun h => absurd (hfields.1 h).1 hmod⟩, fun _ => hdec,
        fun h => absurd h hmod⟩
  · refine (onSplit_issues he _).trans (congrArg _ ?_)
    rw [Env.pass, issues_put he, advance_eq_onward, Wave.pushNone, onward_push]
    rfl
  · have hdec : decodeWord 0x1780000000000000 = .ok .nop := by decide +kernel
    simp only [isLegal, laneWord, hdec]
    have hpriv : lacksPriv e .nop = false := rfl
    have hfoot : footField e .nop = none := rfl
    rw [hpriv, hfoot]
    rfl

/-! ## Printed words -/

/-- Settles O47: each word is decoded as it stands. -/
theorem wordsDecode : Obligations.WordsDecode := by
  unfold Obligations.WordsDecode
  decide +kernel

/-! ## Reset (R350, R351, R355) -/

/-- Settles O53: the state after reset holds an empty memory and an empty hub. -/
theorem resetState : Obligations.ResetState := by
  unfold Obligations.ResetState
  refine ⟨by decide, fun a => rfl, fun a n => ?_, by decide, by decide, by decide, ?_, rfl, rfl, rfl⟩
  · simp [State.rangeBad, State.locBad, Loc.add, State.reset]
  · decide +kernel

end Sys2Proof
end

section
/-! SUPPORT. What one step runs: an event as named or owed, or the word of the split that issues next (R67, R130, R308). -/

namespace Sys2Proof

open Sys2Proof.Machine Sys2Proof.Claims

/-! ## Events -/

/-- Settles O50: each source of events is asked in turn. -/
theorem stepRunsEvents : Obligations.StepRunsEvents := by
  unfold Obligations.StepRunsEvents
  intro s i
  refine ⟨fun rest hagenda hevent => ?_, fun hagenda hnext => ?_, fun hagenda hnext hpick hidle => ?_⟩
  · simp only [step, hagenda, hevent, if_true]
  · simp only [step, hagenda, hnext]
  · simp only [step, hagenda, hnext, hpick, hidle]

/-! ## The split that issues next -/

/-- A step on a split that issues next is the issue of its word. -/
theorem step_of_issuesNext {s t : State} {who : Cur} (h : IssuesNext s who t) : step s = issueWord t who false := by
  obtain ⟨rest, hagenda, rfl⟩ | ⟨hagenda, hnext, hpick, rfl⟩ := h
  · simp only [step, hagenda]
  · simp only [step, hagenda, hnext, hpick]

/-- Changing a place of a list by a function is putting the function's value there. -/
theorem modAt_const {α : Type} (xs : List α) (i : Nat) (f : α → α) (x : α) (h : xs[i]? = some x) :
    modAt xs i f = modAt xs i fun _ => f x := by
  induction xs generalizing i with
  | nil => rfl
  | cons y ys ih =>
    cases i with
    | zero =>
      have hyx : y = x := by simpa using h
      rw [modAt, modAt, hyx]
    | succ i => rw [modAt, modAt, ih i (by simpa using h)]

/-- A wave changed by a function is the wave put back with the function's value. -/
theorem modWave_eq_setWave (s : State) (gi wi : Nat) (f : Wave → Wave) (g : Gang) (w : Wave) (hg : s.gang? gi = some g)
    (hw : g.wave? wi = some w) : s.modWave gi wi f = s.setWave gi wi (f w) := by
  have hgangs : modAt s.gangs gi (fun g => { g with waves := modAt g.waves wi f })
      = modAt s.gangs gi fun g => { g with waves := modAt g.waves wi fun _ => f w } := by
    rw [modAt_const _ _ _ g hg, modAt_const s.gangs gi (fun g => { g with waves := modAt g.waves wi fun _ => f w }) g hg,
      modAt_const g.waves wi f w hw]
  simp only [State.setWave, State.modWave, State.modGang, hgangs]

/-- A split that is neither parked nor due a trap goes on to its fetch. -/
theorem unpark_of_not_parked (s : State) (who : Cur) (w : Wave) (hpark : (w.slot who.slot).st ≠ .parked)
    (hlost : ∀ va, (w.slot who.slot).st ≠ .blocked (.lost va)) : unpark s who w = .ok s := by
  unfold unpark
  dsimp only
  split
  · exact absurd ‹_› (hlost _)
  · exact absurd ‹_› hpark
  · rfl

theorem loseIfOther_congr (s t : State) (hissuers : s.issuers = t.issuers) (who : Cur) (g : Gang) (w : Wave) :
    loseIfOther s who g w = loseIfOther t who g w := by
  simp only [loseIfOther, lastIssuer, hissuers]

/-- Losing the latches leaves the slots and the trap state as they are. -/
theorem loseIfOther_frame (s : State) (who : Cur) (g : Gang) (w : Wave) :
    ∃ ls, loseIfOther s who g w = { w with latches := ls } := by
  unfold loseIfOther
  split
  · split
    · exact ⟨w.latches, rfl⟩
    · exact ⟨_, rfl⟩
  · exact ⟨_, rfl⟩

section
variable {t : State} {who : Cur} {g : Gang} {w : Wave} (hg : t.gang? who.gang = some g) (hw : g.wave? who.wave = some w)
  (hmay : mayIssueNow t who = true) (hpark : (w.slot who.slot).st ≠ .parked)
  (hlost : ∀ va, (w.slot who.slot).st ≠ .blocked (.lost va))
include hg hw hmay hpark hlost

/-- The issue of a split's word comes to its fetch, on the wave that has lost the latches it had to lose. -/
theorem prepare_eq_fetchRun :
    let v := loseIfOther t who g w
    let h : Gang := { g with waves := modAt g.waves who.wave fun _ => v }
    let t1 := ({ t with cur := who, stale := false }).setWave who.gang who.wave v
    prepare t who false = match fetchRun ⟨t1, who.gang, who.wave, who.slot, h, v, 0⟩ with
      | .run i t => .run i t
      | .done t => .done { t with stale := false } := by
  intro v h t1
  have hmod : ({ t with cur := who, stale := false } : State).modWave who.gang who.wave
      (loseIfOther { t with cur := who, stale := false } who g) = t1 :=
    modWave_eq_setWave _ _ _ _ g w hg hw
  have hg1 : t1.gang? who.gang = some h := by
    rw [State.gang?_setWave]
    exact congrArg _ hg
  have hw1 : h.wave? who.wave = some v := wave?_modAt g w v who.wave hw
  have henv : t1.env? 0 = some ⟨t1, who.gang, who.wave, who.slot, h, v, 0⟩ := by
    simp only [State.env?]
    rw [show t1.cur = who from rfl, hg1]
    simp only [hw1]
  simp only [prepare, hg, hw, hmay, Bool.not_true, Bool.false_eq_true, if_false, unpark_of_not_parked _ who w hpark hlost,
    hmod, henv] <;>
    cases fetchRun ⟨t1, who.gang, who.wave, who.slot, h, v, 0⟩ <;> rfl

end

/-! ## The fetch (R281, R302, R308) -/

theorem tagLines_stale (s : State) (ctx : Nat) (enc w : Bool) (key n : Nat) :
    (tagLines s ctx enc w key n).stale = s.stale := by
  refine foldl_keeps (fun t : State => t.stale = s.stale) _ (fun t i ht => ?_) _ s rfl
  obtain ⟨m, tags, olds, llc, c, hline⟩ := accessLine_frame t ctx enc w (key / 128 + i)
  rw [hline]
  exact ht

theorem fillFetch_stale (s : State) (g : Gang) (w : Wave) (pc : D) : (fillFetch s g w pc).stale = s.stale := by
  unfold fillFetch
  split
  · unfold noteTag
    split
    · exact tagLines_stale ..
    · rfl
  · rfl

/-- A fetch that is not stale reads memory. -/
theorem fetchBytes_of_not_stale (s : State) (g : Gang) (key : Nat) (hstale : s.stale = false) :
    fetchBytes s g key = BitVec.ofNat 64 (s.mem.num key 8) := by
  unfold fetchBytes
  split
  · rw [hstale]
    rfl
  · rfl

theorem privileged_loseIfOther (s : State) (who : Cur) (g : Gang) (w : Wave) (h : Gang) (hpriv : h.priv = g.priv) :
    privileged h (loseIfOther s who g w) = privileged g w := by
  obtain ⟨ls, hv⟩ := loseIfOther_frame s who g w
  rw [hv, privileged, hpriv]
  rfl

/-- A fetch that translation denies traps (R308). -/
theorem fetchRun_fail (e : Env) (sub : Nat)
    (htr : translate (fillFetch e.s e.g e.w e.slot.pc) e.g ⟨false, true, privileged e.g e.w⟩ e.slot.pc.toNat 8 = .fail sub) :
    fetchRun e = .done (takeTrap (fillFetch e.s e.g e.w e.slot.pc) e.gi e.wi e.k ⟨4, sub, 0, e.slot.pc, e.act⟩) := by
  have hfetch : fetch (fillFetch e.s e.g e.w e.slot.pc) e.g e.w e.slot.pc = .fail sub := by simp only [fetch, fetchWant, htr]
  simp only [fetchRun, hfetch, fetchStop, trAccess, Env.trap, BitVec.ofNat_toNat, BitVec.setWidth_eq]
  rfl

/-- A fetch that goes through runs the word, or the fused sequence that begins with it. -/
theorem fetchRun_ok (e : Env) (key : Nat) (hstale : e.s.stale = false)
    (htr : translate (fillFetch e.s e.g e.w e.slot.pc) e.g ⟨false, true, privileged e.g e.w⟩ e.slot.pc.toNat 8 = .ok key) :
    let t2 := fillFetch e.s e.g e.w e.slot.pc
    let t3 := noteFetch t2 e.g e.w e.slot.pc
    let i := instrOf (BitVec.ofNat 64 (t2.mem.num key 8))
    (isVrmax i = false → fetchRun e = .run i t3) ∧
    (∀ a b c, isVrmax i = true → ahead t3 { e with s := t2 } 3 (e.slot.pc + 8) = .ok [a, b, c] →
      fetchRun e = .run ((fuseOf i (instrOf a) (instrOf b) (instrOf c)).getD i) t3) := by
  intro t2 t3 i
  have hfetch : fetch t2 e.g e.w e.slot.pc = .word (BitVec.ofNat 64 (t2.mem.num key 8)) := by
    simp only [fetch, fetchWant, t2, htr]
    rw [fetchBytes_of_not_stale _ _ _ ((fillFetch_stale ..).trans hstale)]
  refine ⟨fun hmax => ?_, fun a b c hmax hahead => ?_⟩
  · simp only [fetchRun]
    rw [show fetch (fillFetch e.s e.g e.w e.slot.pc) e.g e.w e.slot.pc = _ from hfetch]
    simp only [i] at hmax
    simp only [hmax, Bool.not_false, if_true]
    rfl
  · simp only [fetchRun]
    rw [show fetch (fillFetch e.s e.g e.w e.slot.pc) e.g e.w e.slot.pc = _ from hfetch]
    simp only [i] at hmax
    simp only [hmax, Bool.not_true, Bool.false_eq_true, if_false]
    rw [show ahead (noteFetch (fillFetch e.s e.g e.w e.slot.pc) e.g e.w e.slot.pc)
      { e with s := fillFetch e.s e.g e.w e.slot.pc } 3 (e.slot.pc + 8) = _ from hahead]

theorem instrOf_ok (w : D) (j : Instr) (h : decodeWord w = .ok j) : instrOf w = j := by
  unfold instrOf
  rw [h]

/-- Settles O49: the step prepares the split, fetches at its PC and runs what it finds there. -/
theorem stepRunsDecodedWord : Obligations.StepRunsDecodedWord := by
  unfold Obligations.StepRunsDecodedWord
  intro s t who g w key u hnext hg hw hmay hpark hlost pc v h t1 t2 t3
  have hslot : (⟨t1, who.gang, who.wave, who.slot, h, v, 0⟩ : Env).slot = w.slot who.slot := by
    obtain ⟨ls, hv⟩ := loseIfOther_frame t who g w
    show (loseIfOther t who g w).slot who.slot = _
    rw [hv]
    cases who.slot <;> rfl
  have hpc : (⟨t1, who.gang, who.wave, who.slot, h, v, 0⟩ : Env).slot.pc = pc := congrArg Slot.pc hslot
  have hpriv : privileged h v = privileged g w := privileged_loseIfOther t who g w h rfl
  have hprepare := prepare_eq_fetchRun hg hw hmay hpark hlost
  rw [step_of_issuesNext hnext]
  refine ⟨fun sub htr => ?_, fun htr => ?_⟩
  · have hrun := fetchRun_fail ⟨t1, who.gang, who.wave, who.slot, h, v, 0⟩ sub (by rw [hpc, hpriv]; exact htr)
    rw [hpc] at hrun
    rw [issueWord, hprepare, hrun, Env.act, hslot]
  · obtain ⟨hplain, hfused⟩ := fetchRun_ok ⟨t1, who.gang, who.wave, who.slot, h, v, 0⟩ key rfl (by rw [hpc, hpriv]; exact htr)
    rw [hpc] at hplain hfused
    intro word i
    refine ⟨fun j hj => instrOf_ok word j hj, fun hmax hexec => ?_, fun a b c hmax hahead => ?_⟩
    · rw [issueWord, hprepare, hplain hmax]
      simp only
      rw [hexec]
    · intro j hexec
      rw [issueWord, hprepare, hfused a b c hmax hahead]
      simp only
      rw [hexec]

end Sys2Proof
end

section
/-! SUPPORT. Control words (R101-R104) and words that wait (R108, R109, R115, R186). -/

namespace Sys2Proof

open Sys2Proof.Machine Sys2Proof.Claims

/-! ## Words without destination -/

theorem moveTo_pushNone (e : Env) (pc : D) : e.moveTo e.w.pushNone pc = movedTo e pc := by
  unfold Env.moveTo movedTo
  cases e.k <;> rfl

theorem pushNone_onward (e : Env) : onward e.w.pushNone e.k = passed e := by
  rw [Wave.pushNone, onward_push]
  rfl

theorem issues_pass {i : Instr} {s : State} {e : Env} (he : Issues i s e) : e.pass = s.setWave e.gi e.wi (passed e) := by
  rw [Env.pass, issues_put he, advance_eq_onward, pushNone_onward]

/-- A word that waits leaves its split Blocked, and a JoinWait split may go on (R23, R105). -/
theorem issues_wait {i : Instr} {s : State} {e : Env} (he : Issues i s e) (y : Why) :
    e.stop (.wait y) = settle (s.setWave e.gi e.wi (e.w.modSlot e.k fun x => { x with st := .blocked y })) e.gi e.wi := by
  rw [Env.stop, Env.block, issues_put he]

theorem issues_stop_trap {i : Instr} {s : State} {e : Env} (he : Issues i s e) (t : Trap) :
    e.stop (.trap t) = takeTrap s e.gi e.wi e.k t := issues_trap he t

/-! ## Branches (R101, R102) -/

/-- Moving the split and writing scalar registers do not meet: a register write changes no PC. -/
theorem setSregs_moveTo (w : Wave) (k : Bool) (n : Nat) (xs : List W) (bad : Bool) (pc : D) :
    (w.setSregs k n xs bad).modSlot k (fun x => { x with pc := pc, st := .ready })
      = (w.modSlot k fun x => { x with pc := pc, st := .ready }).setSregs k n xs bad := by
  induction xs generalizing w n with
  | nil => rfl
  | cons x xs ih =>
    simp only [Wave.setSregs, ih]
    congr 1
    unfold Wave.setSreg
    split
    · cases k <;> rfl
    · cases k <;> rfl

theorem sreg_modSlot_pc (w : Wave) (k : Bool) (n : Nat) (pc : D) :
    (w.modSlot k fun x => { x with pc := pc, st := .ready }).sreg k n = w.sreg k n := by cases k <;> rfl

theorem setSregs_latches_congr (w : Wave) (ls : List Latch) (k : Bool) (n : Nat) (xs : List W) (bad : Bool) :
    ({ w with latches := ls } : Wave).setSregs k n xs bad = { w.setSregs k n xs bad with latches := ls } := by
  induction xs generalizing w n with
  | nil => rfl
  | cons x xs ih =>
    have hone : ({ w with latches := ls } : Wave).setSreg k n x bad = { w.setSreg k n x bad with latches := ls } := by
      unfold Wave.setSreg
      split <;> cases k <;> rfl
    rw [Wave.setSregs, hone, ih]
    rfl

/-- A call writes its return address and moves on (R102). -/
theorem callTo_eq {i : Instr} {s : State} {e : Env} (he : Issues i s e) (d : SR) (tgt : D) :
    let w := (movedTo e tgt).setSregs e.k d.toNat [lo32 (e.slot.pc + 8), hi32 (e.slot.pc + 8)] false
    e.callTo d tgt = landed s e { w with latches := shifted e.w (.scl d (w.sreg e.k d.toNat) false) false } := by
  intro w
  have hmoved : movedTo e tgt = { e.w.modSlot e.k fun x => { x with pc := tgt, st := .ready } with
      latches := shifted e.w .untagged false } := by
    unfold movedTo
    cases e.k <;> rfl
  have hw : w = { (e.w.setSregs e.k d.toNat [lo32 (e.slot.pc + 8), hi32 (e.slot.pc + 8)] false).modSlot e.k
      (fun x => { x with pc := tgt, st := .ready }) with latches := shifted e.w .untagged false } := by
    rw [setSregs_moveTo, ← setSregs_latches_congr, ← hmoved]
  have hsreg : w.sreg e.k d.toNat
      = (e.w.setSregs e.k d.toNat [lo32 (e.slot.pc + 8), hi32 (e.slot.pc + 8)] false).sreg e.k d.toNat := by
    rw [hw]
    exact sreg_modSlot_pc _ _ _ tgt
  rw [Env.callTo, landed, issues_put he, hsreg, hw]
  simp only [Env.moveTo, Wave.push, setSregs_latches]
  cases e.k <;> rfl

/-- A branch target in a scalar pair that is free, unmarked and misaligned. -/
theorem chkTarget_misaligned {e : Env} {n : SR} {wr : List Nat}
    (hbusy : chkBusy e ([], [n.toNat, n.toNat + 1]) ([], wr) false = .ok ())
    (hlo : e.w.sregBad n.toNat = false) (hhi : e.w.sregBad (n.toNat + 1) = false)
    (halign : (e.w.pair e.k n.toNat).toNat % 8 ≠ 0) :
    chkTarget e (.s n) wr = .error (.trap ⟨5, 1, 0, e.w.pair e.k n.toNat, e.act⟩) := by
  have hlatch : chkLatches e [⟨7, .s n, Src.sp⟩] = .ok () := rfl
  have hregs : srcRegs e.w e.k (.s n) 2 = ([], [n.toNat, n.toNat + 1]) := rfl
  have hpoison : chkPoisonS e [(srcNum e.w e.k (.s n), (e.psrc (.s n)).2)] 2 = .ok () := by
    simp [chkPoisonS, Env.psrc, hlo, hhi]
  have hneed : ((e.psrc (.s n)).1.toNat % 8 == 0) = false := beq_false_of_ne halign
  simp only [chkTarget, hlatch, hregs, hbusy, hpoison, hneed, chk_bind_ok]
  simp [need, trAlign, Env.psrc]

/-- Settles O11: each branch moves its split, and a misaligned target traps before it does. -/
theorem branchesComplete : Obligations.BranchesComplete := by
  unfold Obligations.BranchesComplete
  constructor
  · intro d a off tgt s e pc called
    refine ⟨fun he => ?_, fun he hbusy => ?_, fun he htgt => ?_, fun he htgt => ?_, fun he htgt => ?_⟩
    · refine (onSplit_issues he _).trans (congrArg _ ?_)
      rw [issues_put he, moveTo_pushNone]
      rfl
    · refine (onSplit_issues he _).trans (congrArg _ ?_)
      simp only [hbusy, chk_bind_ok, Env.run_ok]
      exact callTo_eq he d _
    · refine (onSplit_issues he _).trans (congrArg _ ?_)
      simp only [htgt, chk_bind_ok, Env.run_ok]
      exact callTo_eq he d tgt
    · refine (onSplit_issues he _).trans (congrArg _ ?_)
      simp only [htgt, chk_bind_ok, Env.run_ok, issues_put he, moveTo_pushNone]
    · refine (onSplit_issues he _).trans (congrArg _ ?_)
      simp only [htgt, chk_bind_ok, Env.run_ok, issues_put he, moveTo_pushNone]
  · intro i d n s e hi he hbusy hlo hhi halign
    simp only [List.mem_cons, List.not_mem_nil, or_false] at hi
    obtain rfl | rfl | rfl := hi
    · rw [if_pos rfl] at hbusy
      refine (onSplit_issues he _).trans (congrArg _ ?_)
      simp only [chkTarget_misaligned hbusy hlo hhi halign, chk_bind_error]
      exact issues_stop_trap he _
    · rw [if_neg nofun] at hbusy
      refine (onSplit_issues he _).trans (congrArg _ ?_)
      simp only [chkTarget_misaligned hbusy hlo hhi halign, chk_bind_error]
      exact issues_stop_trap he _
    · rw [if_neg nofun] at hbusy
      refine (onSplit_issues he _).trans (congrArg _ ?_)
      simp only [chkTarget_misaligned hbusy hlo hhi halign, chk_bind_error]
      exact issues_stop_trap he _

/-! ## Branches on lanes (R104) -/

theorem beq_splits_slot (s : State) (gi : Nat) (w : Wave) (k : Bool) : (s.splits gi w).slot k = w.slot k := by
  cases k <;> rfl

theorem offPc_eq_iff (pc off rpc : D) : offPc pc off = rpc ↔ off * 8 + pc = rpc := by
  rw [offPc, BitVec.add_comm]

theorem branchPush_eq (x : Splits) (k : Bool) (join : D) :
    branchPush x k join = (if join = (x.slot k).rpc then 0 else 1) + (if (x.slot (!k)).st = .empty then 0 else 1) := by
  simp only [branchPush, beq_iff_eq]

/-- What a branch on lanes comes to once its predicate is read. -/
theorem exec_brv {neg : Bool} {a : SR} {join : BitVec 18} {target : BitVec 16} {s : State} {e : Env}
    (he : Issues (.brv neg a join target) s e)
    (hbusy : chkBusy e ([], [a.toNat, a.toNat + 1, a.toNat + 2]) ([], []) false = .ok ()) (hbad : tripleBad e.w a = false) :
    let t := e.w.triple e.k a.toNat
    let p := (if neg then ~~~t else t) &&& e.act
    let j := offPc e.slot.pc (join.signExtend 64)
    let tgt := offPc e.slot.pc (target.signExtend 64)
    let x := s.splits e.gi e.w
    exec (.brv neg a join target) s = .next
      (if p = e.act then s.setWave e.gi e.wi (movedTo e tgt)
       else if p = 0 then s.setWave e.gi e.wi (passed e)
       else if e.w.dsp + branchPush x e.k j ≤ 32 then
         settle ((s.setWave e.gi e.wi e.w.pushNone).putSplits e.gi e.wi (branchSplits x e.k p e.slot.pc tgt j)) e.gi e.wi
       else takeTrap s e.gi e.wi e.k ⟨7, 0, 0, 0, e.act⟩) := by
  intro t p j tgt x
  have hregs : tripleRegs a = [a.toNat, a.toNat + 1, a.toNat + 2] := rfl
  have hpoison : chkPoisonS e [(0x80 + a.toNat, tripleBad e.w a)] 2 = .ok () := by simp [chkPoisonS, hbad]
  refine (onSplit_issues he _).trans (congrArg _ ?_)
  simp only [hregs, hbusy, hpoison, chk_bind_ok, beq_iff_eq, issues_put he, moveTo_pushNone, issues_pass he, issues_state he]
  change e.run (if p = e.act then _ else if p = 0 then _ else need (decide (e.w.dsp + branchPush x e.k j ≤ 32)) _ >>= _) = _
  by_cases hall : p = e.act
  · rw [if_pos hall, if_pos hall]
    rfl
  · rw [if_neg hall, if_neg hall]
    by_cases hnone : p = 0
    · rw [if_pos hnone, if_pos hnone]
      rfl
    · rw [if_neg hnone, if_neg hnone]
      by_cases hroom : e.w.dsp + branchPush x e.k j ≤ 32
      · rw [if_pos hroom, decide_eq_true hroom]
        rfl
      · rw [if_neg hroom, decide_eq_false hroom]
        exact issues_stop_trap he _

/-- Settles O12: the predicate selects among the uniform branch, the next word, the trap and the divergence. -/
theorem branchOnLanes : Obligations.BranchOnLanes := by
  unfold Obligations.BranchOnLanes
  intro neg a join target s e he hbusy hbad t p me j tgt same um rpc needs x frames rest taken y
  have hexec := exec_brv he hbusy hbad
  have hsame : offPc e.slot.pc (join.signExtend 64) = e.slot.rpc ↔ same := offPc_eq_iff ..
  have hneeds : branchPush x e.k (offPc e.slot.pc (join.signExtend 64)) = needs := by
    rw [branchPush_eq, beq_splits_slot, beq_splits_slot]
    simp only [show (e.w.slot e.k).rpc = e.slot.rpc from rfl, hsame]
    rfl
  have hsplits : branchSplits x e.k p e.slot.pc tgt (offPc e.slot.pc (join.signExtend 64)) = y := by
    simp only [branchSplits, beq_splits_slot, x, beq_iff_eq, show (e.w.slot e.k) = e.slot from rfl, hsame]
    rfl
  refine ⟨fun hall => ?_, fun hall hnone => ?_, fun hall hnone hfull => ?_, fun hall hnone hroom => ?_⟩
  · rw [hexec, if_pos hall]
    rfl
  · rw [hexec, if_neg hall, if_pos hnone]
  · rw [hexec, if_neg hall, if_neg hnone, hneeds, if_neg (by omega)]
  · rw [hexec, if_neg hall, if_neg hnone, hneeds, if_pos hroom]
    exact congrArg (fun z => Host.Outcome.next (settle ((s.setWave e.gi e.wi e.w.pushNone).putSplits e.gi e.wi z) e.gi e.wi))
      hsplits

/-! ## Waits and the halter (R108, R109, R115, R186) -/

/-- A word of one scalar register that is free and unmarked. -/
theorem chkOne_reg {e : Env} {code : Nat} {a : SR} {sub : Nat} (hbusy : chkBusy e ([], [a.toNat]) ([], []) false = .ok ())
    (hbad : e.w.sregBad a.toNat = false) : chkOne e code (.s a) sub = .ok (e.w.sreg e.k a.toNat) := by
  have hlatch : chkLatches e [⟨code, .s a, Src.gs⟩] = .ok () := rfl
  have hfut : chkFutSrc e (.s a) = .ok () := rfl
  have hregs : srcRegs e.w e.k (.s a) 1 = ([], [a.toNat]) := rfl
  have hpoison : chkPoisonS e [(srcNum e.w e.k (.s a), (e.ssrc .s32 (.s a)).2)] sub = .ok () := by
    simp [chkPoisonS, Env.ssrc, hbad]
  simp only [chkOne, hfut, hlatch, hregs, hbusy, hpoison, chk_bind_ok]
  rfl

/-- Settles O18: each word passes, or its split stands back at its word. -/
theorem waitsAndHalterComplete : Obligations.WaitsAndHalterComplete := by
  unfold Obligations.WaitsAndHalterComplete
  intro c n a s e here
  refine ⟨fun he hle => ?_, fun he hlt => ?_, ?_, fun he => ?_, ?_, fun he hturn => ?_, ?_⟩
  · refine (onSplit_issues he _).trans (congrArg _ ?_)
    rw [decide_eq_true hle]
    exact issues_pass he
  · refine (onSplit_issues he _).trans (congrArg _ ?_)
    rw [decide_eq_false (by omega)]
    exact issues_wait he _
  · intro y he
    refine ⟨fun ⟨o, ho, hdst⟩ => ?_, fun hnone => ?_⟩
    · refine (onSplit_issues he _).trans (congrArg _ ?_)
      have hany : (e.w.ops.any fun o => o.dst != .none) = true := List.any_eq_true.2 ⟨o, ho, bne_iff_ne.2 hdst⟩
      rw [if_pos hany, issues_put he, advance_eq_onward, pushNone_onward]
    · refine (onSplit_issues he _).trans (congrArg _ ?_)
      have hany : (e.w.ops.any fun o => o.dst != .none) = false := by simpa using hnone
      rw [if_neg (by simp [hany]), issues_state he, advance_eq_onward, pushNone_onward]
      rfl
  · exact (onSplit_issues he _).trans (congrArg _ (issues_pass he))
  · intro he hbusy hbad x
    refine (onSplit_issues he _).trans (congrArg _ ?_)
    rw [chkOne_reg hbusy hbad, chk_bind_ok, Env.run_ok, issues_pass he]
  · refine (onSplit_issues he _).trans (congrArg _ ?_)
    rw [hturn, issues_pass he]
    rfl
  · intro he hhalter hbusy hbad v hv hlive
    refine (onSplit_issues he _).trans (congrArg _ ?_)
    have hhalt : chkHalter e = .ok () := by simp [chkHalter, need, hhalter]
    rw [hhalt, chk_bind_ok, chkOne_reg hbusy hbad, chk_bind_ok]
    simp only [hv, hlive, issues_pass he]
    rfl

end Sys2Proof
end

section
/-! SUPPORT. Merges at a join (R105), and what the rules of R25, R105 and R106 keep: a lane that has exited stays exited in every
wave (R106). -/

namespace Sys2Proof.Machine

open Sys2Proof.Claims

/-! ## Splits -/

@[simp] theorem Splits.set_exited (x : Splits) (k : Bool) (y : Slot) : (x.set k y).exited = x.exited := by cases k <;> rfl

@[simp] theorem Splits.set_stk (x : Splits) (k : Bool) (y : Slot) : (x.set k y).stk = x.stk := by cases k <;> rfl

@[simp] theorem Splits.slot_set (x : Splits) (k : Bool) (y : Slot) : (x.set k y).slot k = y := by cases k <;> rfl

@[simp] theorem Splits.slot_set_not (x : Splits) (k : Bool) (y : Slot) : (x.set k y).slot (!k) = x.slot (!k) := by
  cases k <;> rfl

@[simp] theorem Splits.slot_not_set (x : Splits) (k : Bool) (y : Slot) : (x.set (!k) y).slot k = x.slot k := by
  cases k <;> rfl

@[simp] theorem Splits.slot_stk (x : Splits) (k : Bool) (l : List Entry) : ({ x with stk := l } : Splits).slot k = x.slot k := by
  cases k <;> rfl

@[simp] theorem Slot.clear_st (y : Slot) : y.clear.st = .empty := rfl

theorem Slot.clear_eq (y : Slot) : y.clear = { y with pc := 0, act := 0, um := 0, rpc := 0, st := .empty } := rfl

@[simp] theorem Slot.clear_isPlace (y : Slot) : y.clear.isPlace = false := rfl

/-- The slots before a merge, with a partner that waits at the same join gone (R105). -/
def Splits.partnerGone (x : Splits) (k : Bool) (p : D) : Splits :=
  if (x.slot (!k)).isJoiner && (x.slot (!k)).pc == p then x.set (!k) (x.slot (!k)).clear else x

section
variable (x : Splits) (k : Bool) (p : D)

@[simp] theorem Splits.partnerGone_exited : (x.partnerGone k p).exited = x.exited := by
  unfold Splits.partnerGone; split <;> simp

@[simp] theorem Splits.partnerGone_stk : (x.partnerGone k p).stk = x.stk := by
  unfold Splits.partnerGone; split <;> simp

@[simp] theorem Splits.partnerGone_slot : (x.partnerGone k p).slot k = x.slot k := by
  unfold Splits.partnerGone; split <;> simp

/-- Where the partner goes, it is no placeholder; else the slot stays. -/
theorem Splits.partnerGone_isPlace :
    ((x.partnerGone k p).slot (!k)).isPlace = (x.slot (!k)).isPlace ∨
      (x.slot (!k)).isPlace = false ∧ ((x.partnerGone k p).slot (!k)).isPlace = false := by
  unfold Splits.partnerGone
  split
  case isTrue h =>
    right
    simp only [Bool.and_eq_true, Slot.isJoiner, beq_iff_eq] at h
    obtain ⟨⟨hst, hpc⟩, -⟩ := h
    exact ⟨by simp [Slot.isPlace, hpc], by simp⟩
  case isFalse => exact .inl rfl

/-- The slot that a merge leaves in `k`, with the UM and RPC that it takes. -/
def Splits.merged (um : Mask) (rpc : D) : Slot :=
  { x.slot k with pc := p + 8, act := (x.slot k).um &&& ~~~x.exited, um := um, rpc := rpc, st := .ready }

theorem Splits.merge_eq : x.merge k p =
    let y := x.partnerGone k p
    if (y.slot (!k)).isPlace && (y.slot (!k)).pc == p then
      (y.set (!k) (y.slot (!k)).clear).set k (x.merged k p (y.slot (!k)).um (y.slot (!k)).rpc)
    else
      match takeFrame p x.stk with
      | some (f, rest) => ({ y with stk := rest } : Splits).set k (x.merged k p f.um f.rpc)
      | none => y.set k (x.merged k p ((x.slot k).um &&& ~~~x.exited) 0) := by
  rw [← Splits.partnerGone_stk x k p]
  rfl

/-- A placeholder at the join gives its UM and RPC. -/
theorem Splits.merge_of_place (hplace : (x.slot (!k)).isPlace = true) (hpc : (x.slot (!k)).pc = p) :
    x.merge k p = (x.set (!k) (x.slot (!k)).clear).set k (x.merged k p (x.slot (!k)).um (x.slot (!k)).rpc) := by
  have hstay : x.partnerGone k p = x := by
    unfold Splits.partnerGone
    refine if_neg ?_
    simp only [Slot.isPlace, Slot.isJoiner, Bool.and_eq_true, beq_iff_eq, bne_iff_ne] at hplace ⊢
    exact fun h => hplace.2 h.1.2
  rw [Splits.merge_eq]
  simp only [hstay, hplace, hpc, BEq.rfl, Bool.and_self, if_true]

/-- Without one, the topmost frame for the join does, or the split is at the top level. -/
theorem Splits.merge_of_not_place (h : ¬((x.slot (!k)).isPlace = true ∧ (x.slot (!k)).pc = p)) :
    x.merge k p = match takeFrame p x.stk with
      | some (f, rest) => ({ x.partnerGone k p with stk := rest } : Splits).set k (x.merged k p f.um f.rpc)
      | none => (x.partnerGone k p).set k (x.merged k p ((x.slot k).um &&& ~~~x.exited) 0) := by
  rw [Splits.merge_eq]
  have hno : (((x.partnerGone k p).slot (!k)).isPlace && ((x.partnerGone k p).slot (!k)).pc == p) = false := by
    unfold Splits.partnerGone
    split
    · simp
    · simpa using h
  simp only [hno, Bool.false_eq_true, if_false]

@[simp] theorem Splits.merge_exited : (x.merge k p).exited = x.exited := by
  rw [Splits.merge_eq]
  dsimp only
  split
  · simp
  · split <;> simp

/-- Whatever a merge takes, the split goes on past the join with the lanes of UM that have not exited. -/
theorem Splits.merge_slot : ∃ um rpc, (x.merge k p).slot k = x.merged k p um rpc := by
  rw [Splits.merge_eq]
  dsimp only
  split
  · exact ⟨_, _, Splits.slot_set ..⟩
  · split <;> exact ⟨_, _, Splits.slot_set ..⟩

end

/-- Taking what the topmost frame for a join holds. -/
theorem Splits.merge_joiner_gone (x : Splits) (k : Bool) (p : D) (hjoin : (x.slot (!k)).isJoiner = true)
    (hpc : (x.slot (!k)).pc = p) : ((x.merge k p).slot (!k)).st = .empty := by
  have hno : ¬((x.slot (!k)).isPlace = true ∧ (x.slot (!k)).pc = p) := by
    simp only [Slot.isJoiner, Slot.isPlace, Bool.and_eq_true, beq_iff_eq, bne_iff_ne] at hjoin ⊢
    exact fun h => h.1.2 hjoin.2
  have hgone : (x.partnerGone k p).slot (!k) = (x.slot (!k)).clear := by
    simp [Splits.partnerGone, hjoin, hpc]
  rw [Splits.merge_of_not_place x k p hno]
  split
  · rw [Splits.slot_set_not, Splits.slot_stk, hgone, Slot.clear_st]
  · rw [Splits.slot_set_not, hgone, Slot.clear_st]

/-! ## The rules keep the exited lanes (R25, R105, R106) -/

@[simp] theorem Splits.pop_exited (x : Splits) (k : Bool) : (x.pop k).exited = x.exited := by
  unfold Splits.pop
  split <;> simp

@[simp] theorem Splits.emptied_exited (x : Splits) (k : Bool) : (x.emptied k).exited = x.exited := by
  unfold Splits.emptied
  dsimp only
  split <;> simp

@[simp] theorem Splits.prune_exited (x : Splits) : x.prune.exited = x.exited := rfl

theorem Splits.rule1_exited (x y : Splits) (h : x.rule1 = some y) : y.exited = x.exited := by
  unfold Splits.rule1 at h
  split at h
  · cases h; simp
  split at h
  · cases h; simp
  split at h
  · cases h; split <;> simp
  split at h
  · cases h; split <;> simp
  split at h
  · cases h
  split at h
  · cases h; simp
  split at h
  · cases h; simp
  split at h
  · split at h <;> cases h
    simp
  · cases h

theorem Splits.settle1_exited (x y : Splits) (exit : Bool) (h : x.settle1 exit = some y) : y.exited = x.exited := by
  unfold Splits.settle1 at h
  split at h
  · cases h
    exact Splits.rule1_exited x y ‹_›
  · split at h
    · cases h; simp
    · split at h <;> cases h
      simp

@[simp] theorem Splits.settle_exited (exit : Bool) (n : Nat) (x : Splits) : (x.settle exit n).exited = x.exited := by
  induction n generalizing x with
  | zero => rfl
  | succ n ih =>
    rw [Splits.settle]
    split
    · rw [ih, Splits.settle1_exited x _ exit ‹_›]
    · rfl

@[simp] theorem settleSplits_exited (exit : Bool) (x : Splits) : (settleSplits exit x).exited = x.exited := by
  unfold settleSplits
  dsimp only
  split <;> simp

@[simp] theorem settleHandler_exited (exit : Bool) (x : Splits) (t : TrapSave) :
    (settleHandler exit x t).exited = x.exited := by
  unfold settleHandler
  dsimp only
  split <;> simp

/-! ## Waves from one state to the next -/

/-- Every wave of `s` stands in `t` too, as `R` says. -/
def WavesTo (R : Wave → Wave → Prop) (s t : State) : Prop :=
  ∀ gi wi w, s.wave? gi wi = some w → ∃ w', t.wave? gi wi = some w' ∧ R w w'

/-- The lanes that had exited are still exited. -/
def KeepsExited (w w' : Wave) : Prop := w.exited &&& ~~~w'.exited = 0

theorem keepsExited_of_eq {w w' : Wave} (h : w'.exited = w.exited) : KeepsExited w w' := by
  rw [KeepsExited, h, BitVec.and_not_self]

theorem and_not_trans {a b c : Mask} (hab : a &&& ~~~b = 0) (hbc : b &&& ~~~c = 0) : a &&& ~~~c = 0 := by
  refine mask_ext _ _ fun l hl => ?_
  have hab := congrArg (·.getLsbD l) hab
  have hbc := congrArg (·.getLsbD l) hbc
  simp only [BitVec.getLsbD_and, BitVec.getLsbD_not, hl, decide_true, Bool.true_and] at hab hbc ⊢
  have hzero : (0 : Mask).getLsbD l = false := BitVec.getLsbD_zero
  rw [hzero] at hab hbc ⊢
  revert hab hbc
  cases a.getLsbD l <;> cases b.getLsbD l <;> cases c.getLsbD l <;> simp

theorem KeepsExited.trans {w v u : Wave} (h : KeepsExited w v) (h' : KeepsExited v u) : KeepsExited w u :=
  and_not_trans h h'

section
variable {R : Wave → Wave → Prop}

theorem WavesTo.of_gangs_eq (hrefl : ∀ w, R w w) {s t : State} (h : t.gangs = s.gangs) : WavesTo R s t := by
  intro gi wi w hw
  refine ⟨w, ?_, hrefl w⟩
  rw [← hw]
  simp only [State.wave?, State.gang?, h]

theorem WavesTo.trans (htrans : ∀ w v u, R w v → R v u → R w u) {s t u : State} (h : WavesTo R s t) (h' : WavesTo R t u) :
    WavesTo R s u := by
  intro gi wi w hw
  obtain ⟨v, hv, hwv⟩ := h gi wi w hw
  obtain ⟨x, hx, hvx⟩ := h' gi wi v hv
  exact ⟨x, hx, htrans w v x hwv hvx⟩

/-- A change of every gang's waves, one by one. -/
theorem WavesTo.modGang (hrefl : ∀ w, R w w) (s : State) (gi : Nat) (f : Gang → Gang)
    (hf : ∀ g wi w, s.gang? gi = some g → g.wave? wi = some w → ∃ w', (f g).wave? wi = some w' ∧ R w w') :
    WavesTo R s (s.modGang gi f) := by
  intro gj wi w hw
  unfold State.wave? at hw ⊢
  by_cases hgj : gj = gi
  · subst hgj
    rw [State.gang?_modGang]
    split at hw
    · next g hg =>
      obtain ⟨w', hw', hR⟩ := hf g wi w hg hw
      exact ⟨w', by rw [hg]; exact hw', hR⟩
    · cases hw
  · rw [State.gang?_modGang_other s gi gj f hgj]
    exact ⟨w, hw, hrefl w⟩

theorem WavesTo.modWave (hrefl : ∀ w, R w w) (s : State) (gi wi : Nat) (f : Wave → Wave)
    (hf : ∀ w, s.wave? gi wi = some w → R w (f w)) : WavesTo R s (s.modWave gi wi f) := by
  refine WavesTo.modGang hrefl s gi _ fun g wj w hg hw => ?_
  by_cases hwj : wj = wi
  · subst hwj
    exact ⟨f w, (modAt_get g.waves wj f).trans (congrArg _ hw), hf w (by rw [State.wave?, hg]; exact hw)⟩
  · exact ⟨w, (modAt_get_other g.waves wi wj f hwj).trans hw, hrefl w⟩

theorem WavesTo.setWave (hrefl : ∀ w, R w w) (s : State) (gi wi : Nat) (v : Wave)
    (hv : ∀ w, s.wave? gi wi = some w → R w v) : WavesTo R s (s.setWave gi wi v) :=
  WavesTo.modWave hrefl s gi wi _ hv

theorem WavesTo.foldl (hrefl : ∀ w, R w w) (htrans : ∀ w v u, R w v → R v u → R w u) {α : Type} (f : State → α → State)
    (hf : ∀ s x, WavesTo R s (f s x)) (xs : List α) (s : State) : WavesTo R s (xs.foldl f s) := by
  induction xs generalizing s with
  | nil => exact WavesTo.of_gangs_eq hrefl rfl
  | cons x xs ih => exact WavesTo.trans htrans (hf s x) (ih _)

end

/-! ## Exits through the shared operations -/

/-- Every wave stands, with its exited lanes. -/
def ExitsTo (s t : State) : Prop := WavesTo KeepsExited s t

theorem ExitsTo.refl_of_gangs {s t : State} (h : t.gangs = s.gangs) : ExitsTo s t :=
  WavesTo.of_gangs_eq (fun _ => keepsExited_of_eq rfl) h

theorem ExitsTo.then {s t u : State} (h : ExitsTo s t) (h' : ExitsTo t u) : ExitsTo s u :=
  WavesTo.trans (R := KeepsExited) (fun _ _ _ => KeepsExited.trans) h h'

theorem ExitsTo.modWave (s : State) (gi wi : Nat) (f : Wave → Wave) (hf : ∀ w, KeepsExited w (f w)) :
    ExitsTo s (s.modWave gi wi f) := WavesTo.modWave (fun _ => keepsExited_of_eq rfl) s gi wi f fun w _ => hf w

theorem ExitsTo.setWave (s : State) (gi wi : Nat) (w v : Wave) (hw : s.wave? gi wi = some w) (hv : KeepsExited w v) :
    ExitsTo s (s.setWave gi wi v) :=
  WavesTo.setWave (fun _ => keepsExited_of_eq rfl) s gi wi v fun u hu => by rw [hw] at hu; cases hu; exact hv

theorem ExitsTo.modGang (s : State) (gi : Nat) (f : Gang → Gang) (hf : ∀ g, (f g).waves = g.waves) :
    ExitsTo s (s.modGang gi f) :=
  WavesTo.modGang (fun _ => keepsExited_of_eq rfl) s gi f fun g wi w _ hw =>
    ⟨w, by rw [Gang.wave?, hf g]; exact hw, keepsExited_of_eq rfl⟩

theorem ExitsTo.foldl {α : Type} (f : State → α → State) (hf : ∀ s x, ExitsTo s (f s x)) (xs : List α) (s : State) :
    ExitsTo s (xs.foldl f s) :=
  WavesTo.foldl (fun _ => keepsExited_of_eq rfl) (fun _ _ _ => KeepsExited.trans) f hf xs s

theorem openArea_gangs (s : State) (gi : Nat) (write : Bool) (key n : Nat) : (s.openArea gi write key n).gangs = s.gangs := by
  obtain ⟨m, tags, olds, llc, c, h⟩ := openArea_frame s gi write key n
  rw [h]

theorem putByte_exitsTo (s : State) (gi : Nat) (l : Loc) (b : Byte) : ExitsTo s (s.putByte gi l b) := by
  cases l with
  | mem k => exact ExitsTo.refl_of_gangs rfl
  | spad o => exact ExitsTo.modGang s gi _ fun _ => rfl

theorem setBad_exitsTo (s : State) (gi : Nat) (l : Loc) (b : Bool) : ExitsTo s (s.setBad gi l b) := by
  cases l with
  | mem k => exact ExitsTo.refl_of_gangs rfl
  | spad o => exact ExitsTo.modGang s gi _ fun _ => rfl

theorem storePut_exitsTo (s : State) (gi byre : Nat) (c : Option PClass) (bs : List StByte) :
    ExitsTo s (storePut s gi byre c bs) := by
  refine ExitsTo.then (ExitsTo.foldl _ (fun t b => ?_) bs s) (ExitsTo.foldl _ (fun t g => ?_) _ _)
  · split
    · refine ExitsTo.then (putByte_exitsTo t gi b.loc b.byte) ?_
      split <;> exact ExitsTo.refl_of_gangs rfl
    · exact ExitsTo.refl_of_gangs rfl
  · split
    · exact setBad_exitsTo _ _ _ _
    · split
      · exact setBad_exitsTo _ _ _ _
      · exact ExitsTo.refl_of_gangs rfl

theorem putObj_exitsTo (s : State) (gi : Nat) (o : Loc) (off : Nat) (ws : List Nat) : ExitsTo s (s.putObj gi o off ws) := by
  have hdrop (t : State) : (dropCopies t o).gangs = t.gangs := by
    unfold dropCopies
    split <;> rfl
  exact ExitsTo.then (storePut_exitsTo s gi 320 none _) (ExitsTo.refl_of_gangs (hdrop _))

theorem joined_exited (ms : List Mask) (w : Wave) : (ms.foldl Wave.joined w).exited = w.exited := by
  induction ms generalizing w with
  | nil => rfl
  | cons m ms ih => exact ih _

/-- Putting splits back keeps every wave's exited lanes if they do. -/
theorem putSplits_exitsTo (s : State) (gi wi : Nat) (x : Splits)
    (hx : ∀ w, s.wave? gi wi = some w → w.exited &&& ~~~x.exited = 0) : ExitsTo s (s.putSplits gi wi x) := by
  unfold State.putSplits
  split
  · next w hw =>
    have hgangs := openArea_gangs s gi true w.dsaddr.toNat (64 * x.stk.length)
    refine ExitsTo.then (ExitsTo.refl_of_gangs (t := { s.openArea gi true w.dsaddr.toNat (64 * x.stk.length) with
      mem := writeStack (s.openArea gi true w.dsaddr.toNat (64 * x.stk.length)).mem w.dsaddr.toNat x.stk }) hgangs)
      (ExitsTo.setWave _ gi wi w _ ?_ (hx w hw))
    rw [← hw]
    simp only [State.wave?, State.gang?, hgangs]
  · exact ExitsTo.refl_of_gangs rfl

/-- The wave of splits that are put back. -/
theorem putSplits_wave (s : State) (gi wi : Nat) (x : Splits) (w : Wave) (hw : s.wave? gi wi = some w) :
    ∃ v, (s.putSplits gi wi x).wave? gi wi = some v ∧ v.exited = x.exited := by
  unfold State.putSplits
  rw [hw]
  have hgangs := openArea_gangs s gi true w.dsaddr.toNat (64 * x.stk.length)
  refine ⟨_, State.wave?_setWave _ gi wi _ w ?_, rfl⟩
  rw [← hw]
  simp only [State.wave?, State.gang?, hgangs]

theorem splits_exited (s : State) (gi : Nat) (w : Wave) : (s.splits gi w).exited = w.exited := rfl

theorem foldl_raiseView_exited (ts : List PClass) (n : Nat) (w : Wave) :
    (ts.foldl (fun w t => w.raiseView t n) w).exited = w.exited := by
  induction ts generalizing w with
  | nil => rfl
  | cons t ts ih => exact ih _

theorem phaseSeen_exited (s : State) (gi : Nat) (o : Loc) (w : Wave) (m : Mask) : (s.phaseSeen gi o w m).exited = w.exited := by
  unfold State.phaseSeen
  dsimp only
  split
  · exact foldl_raiseView_exited _ _ _
  · exact foldl_raiseView_exited _ _ _

theorem sawPhase_exitsTo (s : State) (gi wi : Nat) (m : Mask) (o : Loc) : ExitsTo s (sawPhase s gi wi m o) := by
  unfold sawPhase
  split
  · have hphase := ExitsTo.modWave s gi wi (fun w => s.phaseSeen gi o w m) fun w => keepsExited_of_eq (phaseSeen_exited s gi o w m)
    refine ExitsTo.then hphase ?_
    dsimp only
    split <;> exact ExitsTo.refl_of_gangs rfl
  · exact ExitsTo.refl_of_gangs rfl

theorem releaseWave_exitsTo (s : State) (obj : Loc) (gi wi : Nat) : ExitsTo s (releaseWave s obj gi wi) := by
  unfold releaseWave
  split
  · exact ExitsTo.refl_of_gangs rfl
  · next w hw =>
    split
    · exact ExitsTo.refl_of_gangs rfl
    · dsimp only
      refine ExitsTo.then ?_ (sawPhase_exitsTo _ _ _ _ _)
      refine ExitsTo.then ?_ (ExitsTo.modWave _ gi wi _ ?_)
      case refine_2 => exact fun w => keepsExited_of_eq rfl
      refine putSplits_exitsTo s gi wi _ fun v hv => ?_
      rw [hw] at hv
      cases hv
      exact BitVec.and_not_self (w.exited)

theorem releaseAll_exitsTo (s : State) (gi : Nat) (obj : Loc) : ExitsTo s (releaseAll s gi obj) := by
  refine ExitsTo.foldl _ (fun t gj => ?_) _ s
  split
  · exact ExitsTo.refl_of_gangs rfl
  · split
    · exact ExitsTo.foldl _ (fun u wj => releaseWave_exitsTo u obj gj wj) _ t
    · exact ExitsTo.refl_of_gangs rfl

theorem arrive_exitsTo (s : State) (gi : Nat) (obj : Loc) (n : Nat) : ExitsTo s (arrive s gi obj n) := by
  have hphase (ws : List Nat) : ExitsTo s (completePhase (s.putObj gi obj 0 ws) gi obj) :=
    ExitsTo.then (putObj_exitsTo s gi obj 0 ws) (ExitsTo.then (putObj_exitsTo _ _ _ _ _) (releaseAll_exitsTo _ _ _))
  unfold arrive
  split
  · exact ExitsTo.refl_of_gangs rfl
  · dsimp only
    split
    · exact hphase _
    · split
      · exact hphase _
      · exact putObj_exitsTo _ _ _ _ _

theorem addReq_gangs (s : State) (die ctx va kind acc req : Nat) (who : Waiter) :
    (addReq s die ctx va kind acc req who).1.gangs = s.gangs := by
  unfold addReq
  dsimp only
  split <;> rfl

theorem arriveIfAll_exitsTo (s : State) (gi wi : Nat) : ExitsTo s (arriveIfAll s gi wi) := by
  unfold arriveIfAll
  split
  · next g w hg hw =>
    split
    · exact ExitsTo.refl_of_gangs rfl
    · dsimp only
      split
      · exact ExitsTo.refl_of_gangs rfl
      · split
        · refine ExitsTo.then ?_ (arrive_exitsTo _ _ _ _)
          exact ExitsTo.setWave s gi wi w _ hw (keepsExited_of_eq rfl)
        · refine ExitsTo.then (ExitsTo.refl_of_gangs (addReq_gangs ..)) (ExitsTo.setWave _ gi wi w _ ?_ ?_)
          case refine_2 => exact keepsExited_of_eq rfl
          rw [← hw]
          simp only [State.wave?, State.gang?, addReq_gangs]
        · exact ExitsTo.setWave s gi wi w _ hw (keepsExited_of_eq rfl)
  · exact ExitsTo.refl_of_gangs rfl

theorem Wave.stop_keepsExited (w : Wave) : KeepsExited w w.stop := by
  have hall : w.stop.exited = BitVec.allOnes 96 := rfl
  rw [KeepsExited, hall, BitVec.not_allOnes]
  exact BitVec.and_zero

theorem settleWave_exitsTo (s : State) (gi wi : Nat) (exit : Bool) : ExitsTo s (settleWave s gi wi exit) := by
  unfold settleWave
  split
  · exact ExitsTo.refl_of_gangs rfl
  · next w hw =>
    have hput (x : Splits) (hx : x.exited = w.exited) : ExitsTo s (s.putSplits gi wi x) :=
      putSplits_exitsTo s gi wi x fun v hv => by
        rw [hw] at hv
        cases hv
        rw [hx, BitVec.and_not_self]
    split
    · exact ExitsTo.refl_of_gangs rfl
    · split
      · exact hput _ (settleHandler_exited _ _ _)
      · dsimp only
        have hsettled := hput _ (settleSplits_exited exit (s.splits gi w))
        split
        · exact ExitsTo.then hsettled (ExitsTo.modWave _ gi wi _ Wave.stop_keepsExited)
        · exact hsettled

theorem dropFrames_waves (g : Gang) : g.dropFrames.waves = g.waves := by
  unfold Gang.dropFrames
  split <;> rfl

/-- The end of a gang's last wave keeps its waves (R310). -/
theorem settleGang_wavesTo {R : Wave → Wave → Prop} (hrefl : ∀ w, R w w) (s : State) (gi : Nat) :
    WavesTo R s (settleGang s gi) := by
  suffices hkeeps : ∃ f : Gang → Gang, settleGang s gi = s.modGang gi f ∧ ∀ g, (f g).waves = g.waves by
    obtain ⟨f, heq, hf⟩ := hkeeps
    rw [heq]
    exact WavesTo.modGang hrefl s gi f fun g wi w _ hw => ⟨w, by rw [Gang.wave?, hf g]; exact hw, hrefl w⟩
  refine ⟨_, rfl, fun g => ?_⟩
  obtain ⟨h, hh⟩ : ∃ h, (if g.halter.any g.hasEnded then { g with halter := none } else g) = { g with halter := h } := by
    split
    · exact ⟨none, rfl⟩
    · exact ⟨g.halter, rfl⟩
  simp only [hh]
  split
  · rfl
  · split
    · exact dropFrames_waves _
    · split <;> exact dropFrames_waves _
    · rfl

theorem settleGang_exitsTo (s : State) (gi : Nat) : ExitsTo s (settleGang s gi) :=
  settleGang_wavesTo (fun _ => keepsExited_of_eq rfl) s gi

theorem settle_exitsTo (s : State) (gi wi : Nat) (exit : Bool) : ExitsTo s (settle s gi wi exit) :=
  ExitsTo.then (settleWave_exitsTo s gi wi exit) (ExitsTo.then (arriveIfAll_exitsTo _ gi wi) (settleGang_exitsTo _ gi))

/-- A slot that has lost its last lane ends. -/
theorem putEmptied_exitsTo (s : State) (gi wi : Nat) (k : Bool) (w : Wave) (hw : s.wave? gi wi = some w) :
    ExitsTo s (s.putSplits gi wi ((s.splits gi w).emptied k)) := by
  refine putSplits_exitsTo _ gi wi _ fun v hv => ?_
  rw [hw] at hv
  cases hv
  rw [Splits.emptied_exited, splits_exited, BitVec.and_not_self]

theorem trapReturn_exitsTo (s : State) (gi wi : Nat) (pc : D) : ExitsTo s (trapReturn s gi wi pc) := by
  unfold trapReturn
  split
  · exact ExitsTo.refl_of_gangs rfl
  · next w hw =>
    split
    · exact ExitsTo.refl_of_gangs rfl
    · next t ht =>
      have hopen := openArea_gangs s gi false (w.dsaddr + 2048).toNat 16
      have hw2 : (s.openArea gi false (w.dsaddr + 2048).toNat 16).wave? gi wi = some w := by
        rw [← hw]
        simp only [State.wave?, State.gang?, hopen]
      have hset (v : Wave) (hv : v.exited = w.exited) :
          ExitsTo s ((s.openArea gi false (w.dsaddr + 2048).toNat 16).setWave gi wi v) :=
        ExitsTo.then (ExitsTo.refl_of_gangs hopen) (ExitsTo.setWave _ gi wi w _ hw2 (keepsExited_of_eq hv))
      have hslot (v : Wave) (k : Bool) (x : Slot) : (v.setSlot k x).exited = v.exited := by cases k <;> rfl
      dsimp only
      split
      · split
        · next v hv =>
          refine ExitsTo.then ?_ (putEmptied_exitsTo _ gi wi t.slot v hv)
          exact hset _ ((hslot _ _ _).trans rfl)
        · exact hset _ ((hslot _ _ _).trans rfl)
      · exact hset _ ((hslot _ _ _).trans rfl)

theorem handlerDone_exitsTo (s : State) (gi wi : Nat) : ExitsTo s (handlerDone s gi wi) := by
  unfold handlerDone
  split
  · exact ExitsTo.refl_of_gangs rfl
  · split
    · exact ExitsTo.refl_of_gangs rfl
    · split
      · exact ExitsTo.refl_of_gangs rfl
      · split
        · exact ExitsTo.refl_of_gangs rfl
        · exact trapReturn_exitsTo s gi wi _

/-- The lanes that exit have exited when the rules have acted (R106). -/
theorem exitLanes_exits (s : State) (gi wi : Nat) (k : Bool) (m : Mask) (w : Wave) (hw : s.wave? gi wi = some w) :
    ∃ v, (exitLanes s gi wi k m).wave? gi wi = some v ∧ m &&& ~~~v.exited = 0 := by
  unfold exitLanes
  rw [hw]
  obtain ⟨x, hx, hexited⟩ : ∃ x, (if (((s.splits gi w).exitLanes m).slot k).act == 0
      then ((s.splits gi w).exitLanes m).emptied k else (s.splits gi w).exitLanes m) = x ∧ x.exited = w.exited ||| m := by
    refine ⟨_, rfl, ?_⟩
    split
    · rw [Splits.emptied_exited]
      rfl
    · rfl
  simp only [hx]
  obtain ⟨u, hu, huexited⟩ := putSplits_wave s gi wi x w hw
  obtain ⟨v, hv, hkeeps⟩ := ExitsTo.then (handlerDone_exitsTo (s.putSplits gi wi x) gi wi) (settle_exitsTo _ gi wi true) gi wi u hu
  refine ⟨v, hv, and_not_trans ?_ hkeeps⟩
  rw [huexited, hexited]
  ext l hl
  simp only [BitVec.getElem_and, BitVec.getElem_not, BitVec.getElem_or]
  cases m[l] <;> simp

end Sys2Proof.Machine
end

section
/-! SUPPORT. `JOIN` and `EXIT` (R105, R106), reads and writes of scalar registers and mask views (R18, R22). -/

namespace Sys2Proof

open Sys2Proof.Machine Sys2Proof.Claims

/-! ## JOIN and EXIT -/

/-- `JOIN` at the split's own join. -/
theorem exec_join_at {s : State} {e : Env} (he : Issues .join s e) (hrpc : e.slot.rpc = e.slot.pc) :
    exec .join s = .next (settle ((s.setWave e.gi e.wi e.w.pushNone).putSplits e.gi e.wi
      ((s.splits e.gi e.w).reachJoin e.k e.slot.pc)) e.gi e.wi) := by
  refine (onSplit_issues he _).trans (congrArg _ ?_)
  rw [if_neg (by simp [hrpc])]
  simp only [issues_put he, issues_state he]
  rfl

/-- What a split at its join does: merge, end or wait (R105). -/
theorem reachJoin_eq (x : Splits) (k : Bool) (p : D) :
    x.reachJoin k p = if x.liveElse k p = 0 then x.merge k p
      else if topIsLive x = true then x.set k (x.slot k).clear
      else x.set k { x.slot k with pc := p, st := .joinWait } := by
  simp only [Splits.reachJoin, beq_iff_eq]

/-- Settles O13. -/
theorem joinsAndExits : Obligations.JoinsAndExits := by
  unfold Obligations.JoinsAndExits
  refine ⟨?join, ?merge, ?exit⟩
  case join =>
    intro s e he p x base go
    have hslot : x.slot e.k = e.slot := beq_splits_slot s e.gi e.w e.k
    refine ⟨fun haway => ?_, fun hat hlive => ?_, fun hat hlive htop => ?_, fun hat hlive htop => ?_⟩
    · refine (onSplit_issues he _).trans (congrArg _ ?_)
      rw [if_pos (bne_iff_ne.2 haway), issues_pass he]
    · rw [exec_join_at he hat, reachJoin_eq, if_pos hlive]
      rfl
    · rw [exec_join_at he hat, reachJoin_eq, if_neg hlive, if_pos htop, beq_splits_slot]
      rfl
    · rw [exec_join_at he hat, reachJoin_eq, if_neg hlive, if_neg (by rw [htop]; simp), beq_splits_slot]
      rfl
  case merge =>
    intro x k p y
    obtain ⟨um, rpc, hy⟩ := Splits.merge_slot x k p
    refine ⟨by rw [hy]; rfl, by rw [hy]; rfl, by rw [hy]; rfl, Splits.merge_exited x k p,
      fun ⟨hjoin, hpc⟩ => Splits.merge_joiner_gone x k p hjoin hpc, fun ⟨hplace, hpc⟩ => ?_, fun hplace => ?_⟩
    · have hmerge := Splits.merge_of_place x k p hplace hpc
      simp only [y, hmerge, Splits.slot_set, Splits.slot_set_not, Splits.set_stk, Slot.clear_st, Splits.merged, and_self]
    · have hmerge := Splits.merge_of_not_place x k p hplace
      refine ⟨fun f rest hframe => ?_, fun hframe => ?_⟩
      · simp only [y, hmerge, hframe, Splits.slot_set, Splits.set_stk, Splits.merged, and_self]
      · simp only [y, hmerge, hframe, Splits.slot_set, Splits.set_stk, Splits.merged, Splits.partnerGone_stk, and_self]
  case exit =>
    intro s e he
    obtain ⟨w, hw, hexit⟩ := exitLanes_exits (s.setWave e.gi e.wi e.w.pushNone) e.gi e.wi e.k e.act e.w.pushNone
      (State.wave?_setWave _ _ _ _ _ (issues_wave he))
    refine ⟨_, w, (onSplit_issues he _).trans (congrArg _ ?_), hw, hexit⟩
    rw [issues_put he]

/-! ## Scalar registers and mask views (R18, R22) -/

theorem setSreg_of_not_view (w : Wave) (k : Bool) (n : Nat) (x : W) (bad : Bool) (h : (60 ≤ n && n ≤ 62) = false) :
    w.setSreg k n x bad = { w with
      sregs := setAt w.sregs n x
      sbad := if bad then w.sbad ||| BitVec.ofNat 64 (2 ^ n) else w.sbad &&& ~~~BitVec.ofNat 64 (2 ^ n) } := by
  rw [Wave.setSreg, h]
  rfl

/-- The lanes that a write of view `v` keeps. -/
def viewMask (v : Nat) (x : W) : Mask :=
  BitVec.ofNat 96 (x.toNat * 2 ^ (32 * v) + (2 ^ 96 - 1 - (2 ^ 32 - 1) * 2 ^ (32 * v)))

theorem setSreg_of_view (w : Wave) (k : Bool) (n : Nat) (x : W) (bad : Bool) (h : (60 ≤ n && n ≤ 62) = true) :
    w.setSreg k n x bad = w.modSlot k fun y => { y with act := y.act &&& viewMask (n - 60) x } := by
  rw [Wave.setSreg, h]
  rfl

theorem twoPow_getLsbD (n b : Nat) (hn : n < 64) : (BitVec.ofNat 64 (2 ^ n)).getLsbD b = decide (b = n) := by
  rw [BitVec.getLsbD_ofNat, Nat.testBit_two_pow]
  by_cases h : b = n
  · subst h
    simp [hn]
  · simp [h, Ne.symm h]

/-- The marks after a write of register `n`. -/
theorem setMark_getLsbD (b : BitVec 64) (bad : Bool) (n m : Nat) (hn : n < 64) (hm : m < 64) :
    (if bad then b ||| BitVec.ofNat 64 (2 ^ n) else b &&& ~~~BitVec.ofNat 64 (2 ^ n)).getLsbD m
      = if m = n then bad else b.getLsbD m := by
  cases bad
  · rw [if_neg Bool.false_ne_true, BitVec.getLsbD_and, BitVec.getLsbD_not, twoPow_getLsbD n m hn]
    by_cases h : m = n <;> simp [h, hm]
  · rw [if_pos rfl, BitVec.getLsbD_or, twoPow_getLsbD n m hn]
    by_cases h : m = n <;> simp [h]

/-- Bit `l` of what a write of view `v` keeps: outside the view every lane. -/
theorem viewMask_getLsbD (v : Nat) (x : W) (l : Nat) (hv : v < 3) (hl : l < 96) :
    (viewMask v x).getLsbD l = (decide (l / 32 ≠ v) || x.getLsbD (l % 32)) := by
  have hx : x.toNat < 2 ^ 32 := x.isLt
  have hbit (j : Nat) : x.toNat.testBit j = x.getLsbD j := rfl
  rw [viewMask, BitVec.getLsbD_ofNat, decide_eq_true hl, Bool.true_and]
  obtain rfl | rfl | rfl : v = 0 ∨ v = 1 ∨ v = 2 := by omega
  · have hsum : x.toNat * 2 ^ (32 * 0) + (2 ^ 96 - 1 - (2 ^ 32 - 1) * 2 ^ (32 * 0)) = 2 ^ 32 * (2 ^ 64 - 1) + x.toNat := by omega
    rw [hsum, Nat.testBit_two_pow_mul_add _ hx, Nat.testBit_two_pow_sub_one, hbit]
    by_cases h : l < 32
    · have hdiv : l / 32 = 0 := by omega
      simp [h, hdiv, Nat.mod_eq_of_lt h]
    · have hdiv : l / 32 ≠ 0 := by omega
      have hlt : l - 32 < 64 := by omega
      simp [h, hdiv, hlt]
  · have hlow : 2 ^ 32 * x.toNat + (2 ^ 32 - 1) < 2 ^ 64 := by omega
    have hsum : x.toNat * 2 ^ (32 * 1) + (2 ^ 96 - 1 - (2 ^ 32 - 1) * 2 ^ (32 * 1))
        = 2 ^ 64 * (2 ^ 32 - 1) + (2 ^ 32 * x.toNat + (2 ^ 32 - 1)) := by omega
    rw [hsum, Nat.testBit_two_pow_mul_add _ hlow, Nat.testBit_two_pow_sub_one, Nat.testBit_two_pow_mul_add _ (by omega),
      Nat.testBit_two_pow_sub_one, hbit]
    by_cases h : l < 32
    · have hdiv : l / 32 ≠ 1 := by omega
      have hlt : l < 64 := by omega
      simp [h, hdiv, hlt]
    · by_cases h2 : l < 64
      · have hdiv : l / 32 = 1 := by omega
        have hmod : l % 32 = l - 32 := by omega
        simp [h, h2, hdiv, hmod]
      · have hdiv : l / 32 ≠ 1 := by omega
        have hlt : l - 64 < 32 := by omega
        simp [h2, hdiv, hlt]
  · have hsum : x.toNat * 2 ^ (32 * 2) + (2 ^ 96 - 1 - (2 ^ 32 - 1) * 2 ^ (32 * 2)) = 2 ^ 64 * x.toNat + (2 ^ 64 - 1) := by omega
    rw [hsum, Nat.testBit_two_pow_mul_add _ (by omega), Nat.testBit_two_pow_sub_one, hbit]
    by_cases h : l < 64
    · have hdiv : l / 32 ≠ 2 := by omega
      simp [h, hdiv]
    · have hdiv : l / 32 = 2 := by omega
      have hmod : l % 32 = l - 64 := by omega
      simp [h, hdiv, hmod]

theorem viewWord_getLsbD (m : Mask) (v b : Nat) (hb : b < 32) :
    (Machine.maskWord m v).getLsbD b = m.getLsbD (32 * v + b) := by
  simp [Machine.maskWord, hb]

/-- A scalar register other than the views reads what was written, with its mark, and no other changes. -/
theorem setSreg_register (w : Wave) (k : Bool) (n : Nat) (x : W) (bad : Bool) (hn : n < 60 ∨ n = 63)
    (hlen : w.sregs.length = 64) :
    let y := w.setSreg k n x bad
    y.sreg k n = x ∧ y.sregBad n = bad ∧ y.slot0 = w.slot0 ∧ y.slot1 = w.slot1 ∧
      ∀ m, m ≠ n → m < 64 → y.sreg k m = w.sreg k m ∧ y.sregBad m = w.sregBad m := by
  intro y
  have hview : (60 ≤ n && n ≤ 62) = false := by simp; omega
  have hn64 : n < 64 := by omega
  have hy : y = _ := setSreg_of_not_view w k n x bad hview
  refine ⟨?value, ?mark, by rw [hy], by rw [hy], fun m hm hm64 => ⟨?other, ?otherMark⟩⟩
  case value =>
    rw [hy, Wave.sreg, hview]
    simp [setAt_get w.sregs n x (by omega)]
  case mark =>
    rw [hy, Wave.sregBad, hview, setMark_getLsbD _ _ _ _ hn64 hn64, if_pos rfl]
    rfl
  case other =>
    rw [hy, Wave.sreg, Wave.sreg]
    split
    · cases k <;> rfl
    · rw [setAt_get_other w.sregs n m x hm]
  case otherMark =>
    rw [hy, Wave.sregBad, Wave.sregBad, setMark_getLsbD _ _ _ _ hn64 hm64, if_neg hm]

/-- A write of a view narrows ACT, and a read gives the lanes that are left. -/
theorem setSreg_view (w : Wave) (k : Bool) (n : Nat) (x : W) (bad : Bool) (hlo : 60 ≤ n) (hhi : n ≤ 62) :
    let y := w.setSreg k n x bad
    y.sregs = w.sregs ∧ y.sbad = w.sbad ∧ y.slot (!k) = w.slot (!k) ∧
      (∀ l, l < 96 → (y.slot k).act.getLsbD l
        = ((w.slot k).act.getLsbD l && (decide (l / 32 ≠ n - 60) || x.getLsbD (l % 32)))) ∧
      (∀ b, b < 32 → (y.sreg k n).getLsbD b = ((w.slot k).act.getLsbD (32 * (n - 60) + b) && x.getLsbD b)) := by
  intro y
  have hview : (60 ≤ n && n ≤ 62) = true := by simp; omega
  have hy : y = _ := setSreg_of_view w k n x bad hview
  have hact : (y.slot k).act = (w.slot k).act &&& viewMask (n - 60) x := by
    rw [hy]
    cases k <;> rfl
  refine ⟨by rw [hy]; cases k <;> rfl, by rw [hy]; cases k <;> rfl, by rw [hy]; cases k <;> rfl, fun l hl => ?_, fun b hb => ?_⟩
  · rw [hact, BitVec.getLsbD_and, viewMask_getLsbD _ _ _ (by omega) hl]
  · have hdiv : (32 * (n - 60) + b) / 32 = n - 60 := by omega
    have hmod : (32 * (n - 60) + b) % 32 = b := by omega
    rw [Wave.sreg, hview, if_pos rfl, viewWord_getLsbD _ _ _ hb, hact, BitVec.getLsbD_and,
      viewMask_getLsbD _ _ _ (by omega) (by omega), hdiv, hmod]
    simp

/-- Settles O8: the two kinds of register, and what the lanes removed from ACT come to. -/
theorem maskViews : Obligations.MaskViews := by
  unfold Obligations.MaskViews
  constructor
  · intro w k n x bad hn hlen y
    exact ⟨fun h => setSreg_register w k n x bad h hlen, fun hlo hhi => setSreg_view w k n x bad hlo hhi⟩
  · intro s gi wi k before w hw hended y gone
    have hmask : afterMask s gi wi k before = if gone = 0 then s else if y.rpc = 0 then exitLanes s gi wi k gone
        else if y.act = 0 then settle (s.putSplits gi wi ((s.splits gi w).reachJoin k y.rpc)) gi wi else s := by
      simp only [afterMask, hw, hended, Bool.or_false, beq_iff_eq]
      rfl
    rw [hmask]
    refine ⟨fun h => if_pos h, fun h hrpc => ?_, fun h hrpc hact => ?_, fun h hrpc hact => ?_⟩
    · rw [if_neg h, if_pos hrpc]
    · rw [if_neg h, if_neg hrpc, if_pos hact]
    · rw [if_neg h, if_neg hrpc, if_neg hact]

end Sys2Proof
end

section
/-! SUPPORT. Trap entry on a state whose tags hold more than a line (R309, R316). -/

namespace Sys2Proof

open Sys2Proof.Machine Sys2Proof.Claims

/-- A gang of the system context, whose trap save area lies in line 144. -/
def systemGang : Gang := { soleGang freshWave with ctx := Config.sysCtx }

/-- A machine in which the tag of that line holds 129 stored bytes, one more than a line. -/
def overlongTag : State :=
  { soleState freshWave with
    gangs := [systemGang], ctxs := [{ placedCtx with id := Config.sysCtx }]
    tags := [⟨144, 0, 0, some (List.replicate 129 1)⟩] }

/-- Refutes O15: the statement says that trap entry leaves device memory outside the lines of the save area as it is, in every
state. A line that stands under a key is filled from the bytes that its tag holds as stored, and the statement assumes nothing
of their number: with 129 of them the first byte of the next line changes. -/
theorem not_trapEntry : ¬ Obligations.TrapEntry := by
  unfold Obligations.TrapEntry
  intro h
  obtain ⟨-, hfree⟩ := h overlongTag 0 0 false ⟨13, 0, 0, 0, 0⟩ systemGang freshWave rfl rfl (by decide +kernel) rfl
  obtain ⟨-, -, -, -, -, -, hmem, -⟩ := hfree (by decide +kernel)
  obtain ⟨-, hline, -⟩ := hmem rfl 18560 (by decide +kernel)
  have hbyte : (takeTrap overlongTag 0 0 false ⟨13, 0, 0, 0, 0⟩).mem.get 18560 = 1 := by decide +kernel
  have hbefore : overlongTag.mem.get 18560 = 0 := rfl
  rw [hline (by decide +kernel), hbefore] at hbyte
  exact absurd hbyte (by decide)

end Sys2Proof
end

section
/-! SUPPORT. Ends by a trap (R310, R311, R344, R345) and the return from a handler (R111). -/

namespace Sys2Proof

open Sys2Proof.Machine Sys2Proof.Claims

/-! ## Gangs that stop -/

theorem finish_ended (w : Wave) (f : Nat) (ser : W) (st : FState) (n : Nat) : (w.finish f ser st n).ended = w.ended := by
  unfold Wave.finish
  dsimp only
  split <;> rfl

@[simp] theorem dropFrames_id (g : Gang) : g.dropFrames.id = g.id := by unfold Gang.dropFrames; split <;> rfl
@[simp] theorem dropFrames_st (g : Gang) : g.dropFrames.st = g.st := by unfold Gang.dropFrames; split <;> rfl
@[simp] theorem dropFrames_eops (g : Gang) : g.dropFrames.eops = g.eops := by unfold Gang.dropFrames; split <;> rfl

theorem kill_waves_ended (g : Gang) : ∀ v ∈ g.kill.waves, v.ended = true := by
  intro v hv
  rw [Gang.kill, dropFrames_waves] at hv
  obtain ⟨w, -, rfl⟩ := List.mem_map.1 hv
  rfl

theorem kill_eops_cancelled (g : Gang) : ∀ o ∈ g.kill.eops, o.cancel = true := by
  intro o ho
  rw [Gang.kill, dropFrames_eops] at ho
  obtain ⟨p, -, rfl⟩ := List.mem_map.1 ho
  rfl

theorem kill_id (g : Gang) : g.kill.id = g.id := by rw [Gang.kill, dropFrames_id]

/-- What an end by trap leaves of a live gang (R311). -/
def StoppedAs (h h' : Gang) : Prop :=
  h'.id = h.id ∧ (∀ v ∈ h'.waves, v.ended = true) ∧
    h'.st = (match h.st with | .saved _ => GangSt.dropped | _ => .killed) ∧ ∀ o ∈ h'.eops, o.cancel = true

theorem discard_stoppedAs (g : Gang) (n : Bool) (hst : g.st = .saved n) : StoppedAs g g.discard := by
  refine ⟨kill_id g, fun v hv => ?_, by rw [hst]; rfl, fun o ho => by cases ho⟩
  obtain ⟨w, hw, rfl⟩ := List.mem_map.1 hv
  have hended := kill_waves_ended g w hw
  refine foldl_keeps (fun u : Wave => u.ended = true) _ (fun u x hu => ?_) _ w hended
  split
  · split
    · rw [finish_ended, hu]
    · exact hu
  · exact hu

theorem stopped_stoppedAs (g : Gang) (hlive : g.st.live = true) : StoppedAs g g.stopped := by
  have hkill (hst : ∀ n, g.st ≠ .saved n) : StoppedAs g { g.kill with st := .killed } := by
    refine ⟨kill_id g, kill_waves_ended g, ?_, kill_eops_cancelled g⟩
    cases hg : g.st with
    | saved n => exact absurd hg (hst n)
    | running | stopping | ended | killed | dropped | gone => rfl
  unfold Gang.stopped
  rw [hlive]
  simp only [Bool.not_true, Bool.false_eq_true, if_false]
  split
  · exact discard_stoppedAs g _ ‹_›
  · next hne => exact hkill fun n h => hne n h

/-! ## The gangs of a grid that ends (R311) -/

/-- Requests that leave a queue change only the futures of the gang that made them. -/
def KeptByDrop (g h : Gang) : Prop :=
  h.id = g.id ∧ h.grid = g.grid ∧ h.st = g.st ∧ h.eops = g.eops

theorem dropPends_gang? (s : State) (gone : Pend → Bool) (gi : Nat) (g : Gang) (hg : s.gang? gi = some g) :
    ∃ h, (dropPends s gone).gang? gi = some h ∧ KeptByDrop g h := by
  simp only [State.gang?, dropPends, List.getElem?_map] at hg ⊢
  rw [hg]
  refine ⟨_, rfl, foldl_keeps (KeptByDrop g) _ (fun h p hh => ?_) _ g ⟨rfl, rfl, rfl, rfl⟩⟩
  split
  · split <;> exact hh
  · split <;> exact hh
  · exact hh

theorem stopGrid_stops (s : State) (root : Nat) (abort : Bool) (gi : Nat) (g : Gang) (hg : s.gang? gi = some g)
    (hin : s.descends root 9 g.grid = true) (hlive : g.st.live = true) :
    ∃ h, (stopGrid s root abort).gang? gi = some h ∧ StoppedAs g h := by
  obtain ⟨g', hg', hid, hgrid, hst, -⟩ := dropPends_gang? s (spawnedIn s fun r => s.descends root 9 r) gi g hg
  refine ⟨g'.stopped, ?_, ?_⟩
  · simp only [State.gang?] at hg'
    simp only [State.gang?, stopGrid, sweepReqs, List.getElem?_map, hg', Option.map_some, hgrid, hin, if_true]
  · obtain ⟨hid', hwaves, hst', heops⟩ := stopped_stoppedAs g' (hst ▸ hlive)
    exact ⟨hid'.trans hid, hwaves, hst ▸ hst', heops⟩

/-- A change of records that keeps their ids changes the one that is found. -/
theorem find?_map_keeps {α : Type} (p : α → Bool) (f : α → α) (hf : ∀ x, p (f x) = p x) (xs : List α) :
    (xs.map f).find? p = (xs.find? p).map f := by
  rw [List.find?_map]
  exact congrArg (fun q => (xs.find? q).map f) (funext hf)

/-- What the end of a grid leaves of its own record. -/
theorem stopGrid_grid? (s : State) (root : Nat) (r : Grid) (hr : s.grid? root = some r) :
    ∃ r', (stopGrid s root true).grid? root = some r' ∧ r'.faults = r.faults ∧ r'.first = r.first ∧
      (r.early = false → r'.abort = true ∧ (r.abort = false → r.cancel = false → r'.stat = 2)) := by
  have hid : r.id = root := by simpa using List.find?_some hr
  have hin : s.descends root 9 r.id = true := by simp [State.descends, hid]
  refine ⟨_, (find?_map_keeps _ _ (fun x => ?_) s.grids).trans (congrArg _ hr), ?_⟩
  · dsimp only
    split <;> rfl
  · simp only [hin]
    cases hearly : r.early <;> cases habort : r.abort <;> simp +contextual [habort]

/-- A fault counted in a grid, of which the first stands (R344, R345). -/
theorem faultGrid_eq (s : State) (id : Nat) (rep : FaultRep) :
    ∃ ms, faultGrid s id rep = { (stopGrid s (s.rootGrid 9 id) true).modGrid (s.rootGrid 9 id) (·.addFault rep) with msgs := ms } := by
  unfold faultGrid
  dsimp only
  split
  · split <;> exact ⟨_, rfl⟩
  · exact ⟨_, rfl⟩

theorem faultGrid_grid? (s : State) (id : Nat) (rep : FaultRep) (r : Grid) (hr : s.grid? (s.rootGrid 9 id) = some r) :
    ∃ r', (faultGrid s id rep).grid? (s.rootGrid 9 id) = some r' ∧ r'.faults = r.faults + 1 ∧
      r'.first = some (r.first.getD rep) ∧
      (r.early = false → r'.abort = true ∧ (r.abort = false → r.cancel = false → r'.stat = 2)) := by
  obtain ⟨ms, heq⟩ := faultGrid_eq s id rep
  obtain ⟨r', hr', hfaults, hfirst, hturn⟩ := stopGrid_grid? s _ r hr
  have hid : r'.id = s.rootGrid 9 id := by simpa using List.find?_some hr'
  refine ⟨r'.addFault rep, ?_, congrArg (· + 1) hfaults, congrArg (fun f => some (Option.getD f rep)) hfirst, hturn⟩
  rw [heq]
  refine (find?_map_keeps _ _ (fun x => ?_) _).trans ((congrArg _ hr').trans ?_)
  · dsimp only
    split <;> rfl
  · simp [hid]

/-! ## TRAP inside a handler (R310) -/

theorem endWave_wave? (s : State) (gi wi : Nat) (w : Wave) (hw : s.wave? gi wi = some w) :
    (endWave s gi wi).wave? gi wi = some w.stop := by
  have hstop : (s.modWave gi wi Wave.stop).wave? gi wi = some w.stop := by rw [State.modWave_wave?, hw]; rfl
  obtain ⟨v, hv, rfl⟩ := settleGang_wavesTo (R := Eq) (fun _ => rfl) (s.modWave gi wi Wave.stop) gi gi wi _ hstop
  exact hv

theorem endGangErr_gang? (s : State) (gi : Nat) (g : Gang) (hg : s.gang? gi = some g) :
    (endGangErr s gi).gang? gi = some { g.kill with err := true, st := .ended } := by
  refine (State.gang?_modGang s gi _).trans ?_
  rw [hg]
  rfl

theorem exec_trap_ends {code : BitVec 16} {s : State} {e : Env} (he : Issues (.trap code) s e) (htrap : e.w.trap ≠ none) :
    (code.toNat % 256 = 0xFD → exec (.trap code) s = .next (endWave s e.gi e.wi)) ∧
    (code.toNat % 256 = 0xFE → exec (.trap code) s = .next (endGangErr s e.gi)) := by
  have hsome : e.w.trap.isSome = true := Option.isSome_iff_ne_none.2 htrap
  constructor <;> intro hcode <;> refine (onSplit_issues he _).trans (congrArg _ ?_) <;>
    simp [hsome, hcode, issues_state he]

/-- Settles O16: a trap without a handler is the fault of its grid, which stops the gangs and counts the fault; inside a handler
two codes of `TRAP` are the end of the wave and of the gang. -/
theorem endsByTrap : Obligations.EndsByTrap := by
  unfold Obligations.EndsByTrap
  refine ⟨fun s gi wi k tr g w hg hw hend => ?_, fun code s e he htrap => ⟨fun hcode => ?_, fun hcode => ?_⟩⟩
  · have hends := takeTrap_ends s gi wi k tr g w hg hw (by rwa [Option.isSome_iff_ne_none])
    intro root t
    have ht : t = faultGrid s g.grid (faultRepOf g w tr ((w.slot k).pc &&& ~~~(7 : D))) := hends
    refine ⟨fun gj h hgj hin hlive => ?_, fun r hr => ?_, fun r hr hkind => ?_⟩
    · obtain ⟨ms, heq⟩ := faultGrid_eq s g.grid (faultRepOf g w tr ((w.slot k).pc &&& ~~~(7 : D)))
      rw [ht, heq]
      exact stopGrid_stops s root true gj h hgj hin hlive
    · rw [ht]
      exact faultGrid_grid? s g.grid _ r hr
    · show State.rootGrid s 9 g.grid = g.grid
      simp only [State.rootGrid, hr, hkind]
  · exact ⟨_, _, (exec_trap_ends he htrap).1 hcode, endWave_wave? s _ _ _ (issues_wave he), rfl, rfl, rfl, rfl, rfl⟩
  · exact ⟨_, _, (exec_trap_ends he htrap).2 hcode, endGangErr_gang? s _ _ (issues_gang he), rfl, rfl, kill_waves_ended e.g,
      kill_eops_cancelled e.g⟩

/-! ## The return from a handler (R111) -/

/-- The word of `s0`-`s3` that a return reads from the opened trap save area. -/
def savedWord (o : State) (w : Wave) (i : Nat) : W := BitVec.ofNat 32 (o.mem.num ((w.dsaddr + 2048).toNat + 4 * i) 4)

/-- The marks that a return gives to a pair of `s0`-`s3`. -/
def savedMarks (o : State) (w : Wave) (i : Nat) : BitVec 64 :=
  if o.memBad.contains ((w.dsaddr + 2048).toNat / 8 + i) then BitVec.ofNat 64 (3 * 4 ^ i) else 0

/-- The wave that a return leaves: the split that trapped stands again, `s0`-`s3` are as the save area has them. -/
def returned (o : State) (w : Wave) (sv : TrapSave) (pc : D) : Wave :=
  let act := sv.act &&& ~~~w.exited
  let v := { w.joined act with
    trap := none, latches := loseLatches w.latches
    sregs := savedWord o w 0 :: savedWord o w 1 :: savedWord o w 2 :: savedWord o w 3 :: w.sregs.drop 4
    sbad := (w.sbad &&& ~~~(15 : BitVec 64)) ||| savedMarks o w 0 ||| savedMarks o w 1 }
  v.setSlot sv.slot { w.slot sv.slot with pc := pc, act := act, um := sv.um &&& ~~~w.exited, rpc := sv.rpc, st := .ready }

theorem trapReturn_eq (s : State) (gi wi : Nat) (pc : D) (w : Wave) (sv : TrapSave) (hw : s.wave? gi wi = some w)
    (htrap : w.trap = some sv) (hact : sv.act &&& ~~~w.exited ≠ 0) :
    let o := s.openArea gi false (w.dsaddr + 2048).toNat 16
    trapReturn s gi wi pc = o.setWave gi wi (returned o w sv pc) := by
  intro o
  have hact' : (sv.act &&& ~~~w.exited == 0) = false := beq_false_of_ne hact
  unfold trapReturn
  simp only [hw, htrap, hact', Bool.false_eq_true, if_false]
  cases hslot : sv.slot <;> simp only [returned, hslot] <;> rfl

section
variable (o : State) (w : Wave) (sv : TrapSave) (pc : D)

theorem returned_latches : (returned o w sv pc).latches = loseLatches w.latches := by
  unfold returned
  cases sv.slot <;> rfl

theorem returned_trap : (returned o w sv pc).trap = none := by
  unfold returned
  cases sv.slot <;> rfl

theorem returned_sregs : (returned o w sv pc).sregs
    = savedWord o w 0 :: savedWord o w 1 :: savedWord o w 2 :: savedWord o w 3 :: w.sregs.drop 4 := by
  unfold returned
  cases sv.slot <;> rfl

theorem returned_slot : (returned o w sv pc).slot sv.slot = { w.slot sv.slot with
    pc := pc, act := sv.act &&& ~~~w.exited, um := sv.um &&& ~~~w.exited, rpc := sv.rpc, st := .ready } := by
  unfold returned
  cases sv.slot <;> rfl

theorem returned_sreg_saved (n : Nat) (hn : n < 4) : (returned o w sv pc).sregs[n]? = some (savedWord o w n) := by
  rw [returned_sregs]
  match n, hn with
  | 0, _ | 1, _ | 2, _ | 3, _ => rfl

theorem returned_sreg_kept (n : Nat) (hn : 4 ≤ n) : (returned o w sv pc).sregs[n]? = w.sregs[n]? := by
  rw [returned_sregs]
  obtain ⟨m, rfl⟩ := Nat.exists_eq_add_of_le' hn
  simp only [List.getElem?_cons_succ, List.getElem?_drop, Nat.add_comm 4]

end

theorem mem_loseLatches (ls : List Latch) : ∀ l ∈ loseLatches ls, l.lost = true := by
  intro l hl
  obtain ⟨x, -, rfl⟩ := List.mem_map.1 hl
  rfl

/-- `ERET` and `ERET.next` run as one word. -/
theorem exec_eret (next : Bool) (s : State) :
    exec (if next then Instr.eretNext else Instr.eret) s
      = eretWith (if next then Instr.eretNext else Instr.eret) (if next then 8 else 0) s := by
  cases next <;> rfl

/-- Settles O17: the checks of a return are whether a handler runs and whether a word of the wave holds it up; then it reads
the save area and sets the trapping split. -/
theorem returnFromTrap : Obligations.ReturnFromTrap := by
  unfold Obligations.ReturnFromTrap
  intro next s e i he
  obtain ⟨-, -, -, -, hword, -⟩ := env?_eq s _ e he
  constructor
  · intro htrap
    rw [exec_eret]
    refine (onSplit_issues he _).trans (congrArg _ ?_)
    simp only [htrap, Option.isSome_none, need]
    refine (issues_trap he _).trans ?_
    rw [trIllegal, hword]
    rfl
  constructor
  · intro htrap hbusy
    have hclear : chkClear e e.w.holdsReturn = .error (.wait (e.w.waitOn e.w.holdsReturn)) := by
      simp only [chkClear, show e.w.ops.any e.w.holdsReturn = true from hbusy]
      rfl
    rw [exec_eret]
    refine (onSplit_issues he _).trans (congrArg _ ?_)
    simp only [Option.isSome_iff_ne_none.2 htrap, need, hclear, if_true, chk_bind_ok, chk_bind_error]
    exact congrArg (settle · e.gi e.wi) (issues_put he _)
  · intro sv htrap hbusy hact pc a o
    have hsome : e.w.trap.isSome = true := by rw [htrap]; rfl
    have hclear : chkClear e e.w.holdsReturn = .ok () := by
      simp only [chkClear, show e.w.ops.any e.w.holdsReturn = false from hbusy]
      rfl
    refine ⟨returned o { e.w with latches := shifted e.w .untagged false } sv pc, ?_, returned_trap .., ?_, returned_slot ..,
      fun n hn => returned_sreg_saved _ _ _ _ n hn, fun n hn => returned_sreg_kept _ _ _ _ n hn⟩
    · rw [exec_eret]
      refine (onSplit_issues he _).trans (congrArg _ ?_)
      simp only [hsome, need, hclear, if_true, chk_bind_ok, Env.run_ok, issues_put he]
      refine congrArg (settle · e.gi e.wi true) (trapReturn_eq _ _ _ _ e.w.pushNone sv ?_ htrap hact)
      exact State.wave?_setWave _ _ _ _ _ (issues_wave he)
    · rw [returned_latches]
      exact mem_loseLatches _

end Sys2Proof
end

section
/-! SUPPORT. Integer functions as arithmetic (R97, R118, R121, R173), and the lanes of the integer vector words. -/

namespace Sys2Proof

open Sys2Proof.Machine Sys2Proof.Claims

/-! ## Words from integers -/

theorem ofInt32_eq (i : Int) : ofInt32 i = BitVec.ofInt 32 i := by
  refine BitVec.eq_of_toNat_eq ?_
  simp only [ofInt32, wrapNat, BitVec.toNat_ofNat, BitVec.toNat_ofInt]
  omega

@[simp] theorem inInt_unsigned (x : W) : inInt true x = x.toNat := rfl
@[simp] theorem inInt_signed (x : W) : inInt false x = x.toInt := rfl

theorem toInt_ofInt32 (i : Int) (hlo : -2 ^ 31 ≤ i) (hhi : i < 2 ^ 31) : (ofInt32 i).toInt = i := by
  rw [ofInt32_eq, BitVec.toInt_ofInt]
  exact Int.bmod_eq_of_le (by omega) (by omega)

theorem toNat_ofInt32 (i : Int) : ((ofInt32 i).toNat : Int) = i % 2 ^ 32 := by
  rw [ofInt32_eq, BitVec.toNat_ofInt]
  omega

theorem toNat_ofInt32_of_nat (n : Nat) (h : n < 2 ^ 32) : (ofInt32 (n : Int)).toNat = n := by
  have := toNat_ofInt32 n
  omega

theorem word_toInt_bounds (x : W) : -2 ^ 31 ≤ x.toInt ∧ x.toInt < 2 ^ 31 := by
  have := BitVec.le_toInt x
  have := BitVec.toInt_lt (x := x)
  omega

theorem mulHigh_unsigned (x y : W) : (mulHigh true x y).toNat = x.toNat * y.toNat / 2 ^ 32 := by
  have hcast : ((x.toNat : Int) * y.toNat / 2 ^ 32) = ((x.toNat * y.toNat / 2 ^ 32 : Nat) : Int) := by push_cast; rfl
  have hlt : x.toNat * y.toNat < 2 ^ 32 * 2 ^ 32 := Nat.mul_lt_mul'' x.isLt y.isLt
  simp only [mulHigh, inInt_unsigned, hcast]
  exact toNat_ofInt32_of_nat _ (Nat.div_lt_of_lt_mul hlt)

theorem mulHigh_signed (x y : W) : (mulHigh false x y).toInt = x.toInt * y.toInt / 2 ^ 32 := by
  obtain ⟨hx, hx'⟩ := word_toInt_bounds x
  obtain ⟨hy, hy'⟩ := word_toInt_bounds y
  have hlo : -(2 ^ 31 * 2 ^ 31) ≤ x.toInt * y.toInt := by nlinarith
  have hhi : x.toInt * y.toInt ≤ 2 ^ 31 * 2 ^ 31 := by nlinarith
  simp only [mulHigh, inInt_signed]
  exact toInt_ofInt32 _ (by omega) (by omega)

/-! ## Division (R97) -/

theorem div_unsigned (x y : W) :
    (divWord true x y).toNat = x.toNat / y.toNat ∧ (remWord true x y).toNat = x.toNat % y.toNat := by
  have hdiv : (x.toNat : Int).tdiv y.toNat = ((x.toNat / y.toNat : Nat) : Int) := by simp
  have hmod : (x.toNat : Int).tmod y.toNat = ((x.toNat % y.toNat : Nat) : Int) := Int.ofNat_tmod _ _ |>.symm
  simp only [divWord, remWord, tdivInt, inInt_unsigned, hdiv, hmod]
  exact ⟨toNat_ofInt32_of_nat _ (lt_of_le_of_lt (Nat.div_le_self _ _) x.isLt),
    toNat_ofInt32_of_nat _ (lt_of_le_of_lt (Nat.mod_le _ _) x.isLt)⟩

/-- A truncating quotient leaves the 32-bit range only for -2^31 ÷ -1. -/
theorem tdiv_bounds (a b : Int) (ha : -2 ^ 31 ≤ a ∧ a < 2 ^ 31) (hb : b ≠ 0) (hover : ¬(a = -2 ^ 31 ∧ b = -1)) :
    -2 ^ 31 ≤ a.tdiv b ∧ a.tdiv b < 2 ^ 31 := by
  have habs : (a.tdiv b).natAbs = a.natAbs / b.natAbs := Int.natAbs_tdiv a b
  rcases (by omega : b = 1 ∨ b = -1 ∨ 2 ≤ b.natAbs) with rfl | rfl | htwo
  · simpa using ha
  · have : a.tdiv (-1) = -a := by simp
    omega
  · have : a.natAbs / b.natAbs ≤ a.natAbs / 2 := Nat.div_le_div_left htwo (by omega)
    omega

theorem tmod_bounds (a b : Int) (hb : -2 ^ 31 ≤ b ∧ b < 2 ^ 31) (hzero : b ≠ 0) :
    -2 ^ 31 ≤ a.tmod b ∧ a.tmod b < 2 ^ 31 := by
  have habs : (a.tmod b).natAbs = a.natAbs % b.natAbs := Int.natAbs_tmod a b
  have : a.natAbs % b.natAbs < b.natAbs := Nat.mod_lt _ (by omega)
  omega

theorem div_signed (x y : W) (hy : y ≠ 0) (hover : ¬(x = 0x80000000 ∧ y = 0xFFFFFFFF)) :
    (divWord false x y).toInt = x.toInt.tdiv y.toInt ∧ (remWord false x y).toInt = x.toInt.tmod y.toInt := by
  have hzero : y.toInt ≠ 0 := fun h => hy (BitVec.eq_of_toInt_eq h)
  have hover' : ¬(x.toInt = -2 ^ 31 ∧ y.toInt = -1) := fun ⟨hx, hy⟩ =>
    hover ⟨BitVec.eq_of_toInt_eq (hx.trans (by decide)), BitVec.eq_of_toInt_eq (hy.trans (by decide))⟩
  obtain ⟨hdiv, hdiv'⟩ := tdiv_bounds _ _ (word_toInt_bounds x) hzero hover'
  obtain ⟨hmod, hmod'⟩ := tmod_bounds _ _ (word_toInt_bounds y) hzero
  exact ⟨toInt_ofInt32 _ hdiv hdiv', toInt_ofInt32 _ hmod hmod'⟩

/-! ## Least and greatest, shifts -/

theorem inInt_minWord (uns : Bool) (x y : W) : inInt uns (minWord uns x y) = min (inInt uns x) (inInt uns y) := by
  unfold minWord
  split <;> omega

theorem inInt_maxWord (uns : Bool) (x y : W) : inInt uns (maxWord uns x y) = max (inInt uns x) (inInt uns y) := by
  unfold maxWord
  split <;> omega

theorem minWord_toNat (x y : W) : (minWord true x y).toNat = min x.toNat y.toNat := by
  have h := inInt_minWord true x y
  simp only [inInt_unsigned] at h
  omega

theorem maxWord_toNat (x y : W) : (maxWord true x y).toNat = max x.toNat y.toNat := by
  have h := inInt_maxWord true x y
  simp only [inInt_unsigned] at h
  omega

theorem shlWord_toNat (x y : W) : (shlWord x y).toNat = x.toNat * 2 ^ (y.toNat % 32) % 2 ^ 32 := by
  rw [shlWord, BitVec.toNat_shiftLeft, Nat.shiftLeft_eq]

theorem shrWord_unsigned (x y : W) : (shrWord true x y).toNat = x.toNat / 2 ^ (y.toNat % 32) := by
  simp only [shrWord, if_true, BitVec.toNat_ushiftRight, Nat.shiftRight_eq_div_pow]

theorem shrWord_signed (x y : W) : (shrWord false x y).toInt = x.toInt / 2 ^ (y.toNat % 32) := by
  simp only [shrWord, Bool.false_eq_true, if_false, BitVec.toInt_sshiftRight, Int.shiftRight_eq_div_pow]
  norm_cast

theorem rotWord_bit (x y : W) (b : Nat) (hb : b < 32) :
    (rotWord x y).getLsbD b = x.getLsbD ((b + y.toNat % 32) % 32) := by
  have hamount : y.toNat % 32 < 32 := Nat.mod_lt _ (by omega)
  rw [rotWord, BitVec.getLsbD_rotateRight, Nat.mod_eq_of_lt hamount]
  by_cases hwrap : b < 32 - y.toNat % 32
  · rw [decide_eq_true hwrap, cond_true]
    congr 1
    omega
  · rw [decide_eq_false hwrap, cond_false, decide_eq_true hb, Bool.true_and]
    congr 1
    omega

/-! ## Saturation (R118) -/

theorem satInt_saturated (z : Int) :
    (satInt false true z).toInt = max (-2 ^ 31) (min (2 ^ 31 - 1) z) ∧
      ((satInt true true z).toNat : Int) = max 0 (min (2 ^ 32 - 1) z) := by
  have hsigned : clampInt (tyMin (uty false)) (tyMax (uty false)) z = max (-2 ^ 31) (min (2 ^ 31 - 1) z) := by
    show (if z < -2 ^ 31 then (-2 ^ 31 : Int) else if 2 ^ 31 - 1 < z then 2 ^ 31 - 1 else z) = _
    split
    · omega
    · split <;> omega
  have hunsigned : clampInt (tyMin (uty true)) (tyMax (uty true)) z = max 0 (min (2 ^ 32 - 1) z) := by
    show (if z < 0 then (0 : Int) else if 2 ^ 32 - 1 < z then 2 ^ 32 - 1 else z) = _
    split
    · omega
    · split <;> omega
  simp only [satInt, if_true, hsigned, hunsigned, toNat_ofInt32]
  exact ⟨toInt_ofInt32 _ (by omega) (by omega), by omega⟩

theorem satInt_plain (uns : Bool) (z : Int) : satInt uns false z = ofInt32 z := rfl

/-! ## Pairs in memory (R173) -/

theorem atomOpP_min (p q : D) : (atomOpP .umin p q).toNat = min p.toNat q.toNat := by
  simp only [atomOpP]
  split <;> omega

theorem atomOpP_max (p q : D) : (atomOpP .umax p q).toNat = max p.toNat q.toNat := by
  simp only [atomOpP]
  split <;> omega

/-- Settles O4, function by function. -/
theorem integerFunctions : Obligations.IntegerFunctions := by
  unfold Obligations.IntegerFunctions
  refine ⟨fun x y => ⟨mulHigh_unsigned x y, mulHigh_signed x y, fun _ => div_unsigned x y, div_signed x y, by decide,
    minWord_toNat x y, maxWord_toNat x y, inInt_minWord false x y, inInt_maxWord false x y, shlWord_toNat x y,
    shrWord_unsigned x y, shrWord_signed x y, rotWord_bit x y⟩,
    fun z => ⟨(satInt_saturated z).1, (satInt_saturated z).2, fun uns => toNat_ofInt32 z⟩,
    fun x y p q => ⟨BitVec.toNat_add x y, inInt_minWord false x y, inInt_maxWord false x y, rfl, rfl, rfl, rfl,
      BitVec.toNat_add p q, atomOpP_min p q, atomOpP_max p q, rfl⟩⟩

/-! ## Lanes of vector words (R121) -/

section
variable (f : VecIn → Nat → LaneOut) (x : VecIn) (l : Nat)

/-- The result of a word that works lane by lane, in a lane that issues. -/
theorem lanesOut_active (hl : l < 96) (hact : x.act.getLsbD l = true) : (lanesOut f x)[l]? = some (f x l) := by
  rw [lanesOut, List.getElem?_map, laneList_get l hl]
  simp [hact]

theorem vec2_lane (t : Ty) (nw : Bool) (d : VR) (a b : Src) (f : W → W → W) (hl : l < 96) (hact : x.act.getLsbD l = true) :
    ((vec2 t nw d a b f).eval x)[l]? = some (pure1 (f (x.op 0 l) (x.op 1 l))) :=
  lanesOut_active (fun x l => pure1 (f (x.op 0 l) (x.op 1 l))) x l hl hact

theorem vec3_lane (t : Ty) (nw : Bool) (d : VR) (a b c : Src) (f : W → W → W → W) (hl : l < 96)
    (hact : x.act.getLsbD l = true) :
    ((vec3 t nw d a b c f).eval x)[l]? = some (pure1 (f (x.op 0 l) (x.op 1 l) (x.op 2 l))) :=
  lanesOut_active (fun x l => pure1 (f (x.op 0 l) (x.op 1 l) (x.op 2 l))) x l hl hact

end

section
variable (r : VReg) (m bad : Mask) (vals : List W) (l : Nat)

/-- The lanes that a write of a vector register leaves (R16, R49). -/
theorem mergeReg_lane (hl : l < 96) (hr : r.lanes.length = 96) (hvals : vals.length = 96) :
    (mergeReg r m vals bad).lane l = if m.getLsbD l then vals.getD l 0 else r.lane l := by
  have hzip : ((vals.zip r.lanes).zip laneList)[l]? = some ((vals.getD l 0, r.lane l), l) := by
    simp only [VReg.lane, List.getElem?_zip_eq_some, List.getD_eq_getElem?_getD, laneList_get l hl,
      List.getElem?_eq_getElem (hvals.symm ▸ hl : l < vals.length),
      List.getElem?_eq_getElem (hr.symm ▸ hl : l < r.lanes.length), Option.getD_some, and_self]
  simp only [VReg.lane, mergeReg, List.getElem?_map, hzip, Option.map_some, Option.getD_some]

theorem mergeReg_bad (hl : l < 96) :
    (mergeReg r m vals bad).bad.getLsbD l = if m.getLsbD l then bad.getLsbD l else r.bad.getLsbD l := by
  simp only [mergeReg, BitVec.getLsbD_or, BitVec.getLsbD_and, BitVec.getLsbD_not, hl, decide_true, Bool.true_and]
  cases m.getLsbD l <;> simp

end

/-- Settles O5: every word of the list works lane by lane on plain integers. -/
theorem vectorIntegerLanes : Obligations.VectorIntegerLanes := by
  unfold Obligations.VectorIntegerLanes
  refine ⟨fun nw d a b c m u x l hl hact => ?_, fun r m bad vals l hl hr hvals => ⟨fun hm => ?_, fun hm => ?_⟩⟩
  · have htwo (t : Ty) (f : W → W → W) := vec2_lane x l t nw d a b f hl hact
    have hthree (t : Ty) (f : W → W → W → W) := vec3_lane x l t nw d a b c f hl hact
    cases u <;> simp only [Bool.false_eq_true, if_false, if_true, wVadd, wVsub, wVmul, arithWord] <;>
      exact ⟨htwo _ _, htwo _ _, htwo _ _, hthree _ _, htwo _ _, htwo _ _, ⟨hthree _ _, hthree _ _⟩, htwo _ _,
        lanesOut_active (fun x l => ⟨x.op 0 l, 0, x.bad 0 l⟩) x l hl hact⟩
  · rw [mergeReg_lane r m bad vals l hl hr hvals, mergeReg_bad r m bad vals l hl, hm]
    exact ⟨rfl, rfl⟩
  · rw [mergeReg_lane r m bad vals l hl hr hvals, mergeReg_bad r m bad vals l hl, hm]
    exact ⟨rfl, rfl⟩

end Sys2Proof
end

section
/-! SUPPORT. The footprint of the label words (R208, R246). -/

namespace Sys2Proof

open Sys2Proof.Machine Sys2Proof.Claims

/-- `LBLST` from the last vector register of a gang with 128 of them; a label takes two. -/
def lastLabel : Instr := .lblst 127 (.s 0) (.s 0) (.spad 0 false 0)

/-- The one-wave gang, whose halter is free. -/
def freeHalter : Gang := { soleGang freshWave with halter := none }

def freeHalterState : State := { soleState freshWave with gangs := [freeHalter] }

/-- The cause that the trap handler of the machine's only wave finds. -/
def causeAfter (o : Out) : Option W :=
  match o with
  | .next t => (t.wave? 0 0).map (·.tcause)
  | _ => none

/-- Refutes O41: the list of fields on which the clause about Churn and label words rests gives `LBLST` one register of its
label pair, so the statement takes `v127` of 128 registers as in range. The word uses `v127` and `v128`, and its footprint is
checked before the halter (R306): it traps `ILLEGAL` with subcode 4, not 6. -/
theorem not_illegalWordsTrap : ¬ Obligations.IllegalWordsTrap := by
  unfold Obligations.IllegalWordsTrap
  rintro ⟨-, -, -, hchurn⟩
  have hlist : Machine.fieldsOf lastLabel = [(6, .v 127, 1), (7, .s 0, 1), (8, .s 0, 1)] := rfl
  have hfields : ∀ p ∈ Machine.fieldsOf lastLabel,
      (∀ n, p.2.1 ≠ .l n) ∧ ∀ n : VR, p.2.1 = .v n → n.toNat + p.2.2 ≤ freeHalter.vcount := by
    intro p hp
    simp only [hlist, List.mem_cons, List.not_mem_nil, or_false] at hp
    rcases hp with rfl | rfl | rfl
    · refine ⟨nofun, fun n h => ?_⟩
      cases h
      exact (by decide +kernel : (127 : VR).toNat + 1 ≤ freeHalter.vcount)
    · exact ⟨nofun, nofun⟩
    · exact ⟨nofun, nofun⟩
  have hexec := hchurn lastLabel freeHalterState
    ⟨freeHalterState, 0, 0, false, freeHalter, freshWave, (encode lastLabel).getD 0⟩ rfl rfl (Or.inr nofun) hfields
  have hcause : causeAfter (exec lastLabel freeHalterState) = some 0x600401 := by decide +kernel
  rw [hexec] at hcause
  exact absurd hcause (by decide +kernel)

/-! ## Admission of labels (R233) -/

theorem cover_iff (x y : Nat) : y &&& (x ^^^ (x ||| y)) = 0 ↔ ∀ b, y.testBit b = true → x.testBit b = true := by
  constructor
  · intro h b hb
    have hbit := congrArg (·.testBit b) h
    simpa [hb] using hbit
  · intro h
    refine Nat.eq_of_testBit_eq fun b => ?_
    have hb := h b
    simp only [Nat.testBit_and, Nat.testBit_xor, Nat.testBit_or, Nat.zero_testBit]
    cases hy : y.testBit b
    · rfl
    · simp [hb hy]

/-- An atom of a relation, by its kind. -/
theorem atom_holds_iff (layout q k : Nat) (a : Atom) :
    a.holds layout q k = true ↔
      let x : Int := fieldVal layout a.fq q
      let y : Int := fieldVal layout a.fk k
      (a.kind = 0 → cmpLbl a.cmp x (y + a.c) = true) ∧
      (a.kind = 1 → 0 ≤ x - y + a.c ∧ x - y + a.c ≤ a.w) ∧
      (a.kind = 2 → ∀ b, (fieldVal layout a.fk k).testBit b = true → (fieldVal layout a.fq q).testBit b = true) ∧
      (2 < a.kind → cmpLbl a.cmp (if a.side then y else x) a.c = true) := by
  unfold Atom.holds
  match h : a.kind with
  | 0 => simp
  | 1 => simp
  | 2 => simp [cover_iff]
  | n + 3 => simp

/-- Settles O37: the null label is refused, and a term admits where each of its atoms holds by its kind. -/
theorem admissionOfLabels : Obligations.AdmissionOfLabels := by
  unfold Obligations.AdmissionOfLabels
  intro r q k
  refine ⟨fun hnull => ?_, fun hq hk => ?_⟩
  · rcases hnull with rfl | rfl <;> simp [admitL, nullLabel]
  · simp only [admitL, nullLabel, bne_iff_ne, ne_eq, hq, hk, not_false_eq_true, Bool.and_eq_true, true_and, List.any_eq_true,
      List.all_eq_true, atom_holds_iff]

/-! ## System words (R294, R299, R317, R318) -/

theorem setAt_setAt {α : Type} (xs : List α) (n : Nat) (x y : α) : setAt (setAt xs n x) n y = setAt xs n y := by
  induction xs generalizing n with
  | nil => rfl
  | cons a xs ih => cases n <;> simp [setAt, ih]

theorem setAt_of_length_le {α : Type} (xs : List α) (n : Nat) (x : α) (h : xs.length ≤ n) : setAt xs n x = xs := by
  induction xs generalizing n with
  | nil => rfl
  | cons a xs ih =>
    obtain ⟨m, rfl⟩ := Nat.exists_eq_add_of_le' (Nat.le_trans (Nat.le_add_left 1 xs.length) h)
    exact congrArg (a :: ·) (ih m (by simpa using h))

/-- Arming a future and ending it at once. -/
theorem finish_arm (w : Wave) (f : FR) (cls : PClass) (st : FState) (result : Nat) :
    (w.arm f cls).finish f.toNat ((w.arm f cls).fut f.toNat).serial st result
      = { w with futs := setAt w.futs f.toNat ⟨st, statusWord result st, (w.fut f.toNat).serial + 1, cls⟩ } := by
  by_cases hf : f.toNat < w.futs.length
  · have hfut : (w.arm f cls).fut f.toNat = ⟨.pending, 0, (w.fut f.toNat).serial + 1, cls⟩ := by
      simp only [Wave.fut, Wave.arm, Wave.setFut_futs, setAt_get w.futs f.toNat _ hf, Option.getD_some]
    simp only [Wave.finish, hfut]
    simp only [beq_self_eq_true, Bool.and_self, if_true, Wave.setFut, Wave.arm, setAt_setAt]
  · have hkeep (x : Future) : setAt w.futs f.toNat x = w.futs := setAt_of_length_le _ _ _ (Nat.le_of_not_lt hf)
    have harm : w.arm f cls = w := by rw [Wave.arm, Wave.setFut, hkeep]
    have hfut : w.fut f.toNat = futEmpty := by
      rw [Wave.fut, List.getElem?_eq_none (Nat.le_of_not_lt hf), Option.getD_none]
    have hempty : (FState.empty == .pending) = false := rfl
    simp only [harm, Wave.finish, hfut, futEmpty, hempty, Bool.false_and, Bool.false_eq_true, if_false, hkeep]

section
variable {i : Instr} {s : State} {e : Env} (he : Issues i s e)
include he

/-- A word that goes on with other future registers. -/
theorem issues_pass_futs (fs : List Future) :
    ({ e with w := { e.w with futs := fs } } : Env).pass = s.setWave e.gi e.wi { passed e with futs := fs } := by
  rw [Env.pass, Env.put, advance_eq_onward, pushNone_onward, issues_state he]
  cases hk : e.k <;> simp only [passed, onward, hk] <;> rfl

/-- A word that starts an engine operation and goes on. -/
theorem startOp_eq (f : FR) (o : EngOp) : startOp e f o = opStarted e s f o := by
  rw [startOp, Wave.arm, Wave.setFut, issues_pass_futs he]
  rfl

/-- A word whose future has ended when it goes on. -/
theorem pass_ended (f : FR) (cls : PClass) (st : FState) (result : Nat) :
    ({ e with w := (e.w.arm f cls).finish f.toNat ((e.w.arm f cls).fut f.toNat).serial st result } : Env).pass
      = s.setWave e.gi e.wi { passed e with
          futs := setAt e.w.futs f.toNat ⟨st, statusWord result st, (e.w.fut f.toNat).serial + 1, cls⟩ } := by
  rw [finish_arm, issues_pass_futs he]

end

/-- Settles O40: each of the six words is its checks, then the start of its operation; `ICINV` looks at its length first. -/
theorem systemCommandsStart : Obligations.SystemCommandsStart := by
  unfold Obligations.SystemCommandsStart
  intro i f ps xs kind s e hsys he hcheck
  have hstart : e.run (chkSysArm e (isPrivWord i) f ps xs >>= fun _ => .ok (startSys e f kind))
      = opStarted e s f (newOp e f kind 0 false [] .v) := by
    rw [hcheck, chk_bind_ok, Env.run_ok, startSys, startOp_eq he]
  have hother (hexec : exec i s = .next (e.run (chkSysArm e (isPrivWord i) f ps xs >>= fun _ => .ok (startSys e f kind))))
      (hkind : ¬∃ pkg va, kind = .icinv pkg va 0) :
      ((∀ pkg va, kind ≠ .icinv pkg va 0) → exec i s = .next (opStarted e s f (newOp e f kind 0 false [] .v))) ∧
        ((∃ pkg va, kind = .icinv pkg va 0) → exec i s = .next (s.setWave e.gi e.wi (endedWave e f .done 0))) :=
    ⟨fun _ => hexec.trans (congrArg _ hstart), fun h => absurd h hkind⟩
  unfold sysOf at hsys
  split at hsys <;> cases hsys
  case h_1 => exact hother (onSplit_issues he _) nofun
  case h_2 _ pkg a b =>
    have hexec : exec (.icinv pkg f a b) s = _ := onSplit_issues he _
    have hcheck : chkSysArm e false f [(7, a)] [(8, b)] = .ok () := hcheck
    simp only [hcheck, chk_bind_ok, beq_iff_eq] at hexec
    by_cases hzero : wordNat e b = 0
    · rw [if_pos hzero, Env.run_ok] at hexec
      refine ⟨fun h => absurd (congrArg (EngKind.icinv pkg _) hzero) (h pkg _), fun _ => hexec.trans (congrArg _ ?_)⟩
      exact pass_ended he f .v .done 0
    · rw [if_neg hzero] at hexec
      refine ⟨fun _ => hexec.trans (congrArg _ (startOp_eq he _ _)), fun ⟨_, _, h⟩ => absurd ?_ hzero⟩
      exact (EngKind.icinv.inj h).2.2
  case h_3 => exact hother (onSplit_issues he _) nofun
  case h_4 => exact hother (onSplit_issues he _) nofun
  case h_5 => exact hother (onSplit_issues he _) nofun
  case h_6 => exact hother (onSplit_issues he _) nofun

end Sys2Proof
end

section
/-! SUPPORT. Words that launch, spawn and cancel grids (R112-R114, R116). -/

namespace Sys2Proof

open Sys2Proof.Machine Sys2Proof.Claims

section
variable {i : Instr} {s : State} {e : Env} (he : Issues i s e)
include he

/-- A word that goes on with its future armed. -/
theorem issues_pass_armed (f : FR) (cls : PClass) :
    ({ e with w := e.w.arm f cls } : Env).pass = s.setWave e.gi e.wi (armedWave e f cls) := by
  rw [Wave.arm, Wave.setFut, issues_pass_futs he]
  rfl

theorem armedNow_eq (f : FR) (st : FState) (result : Nat) :
    armedNow e f st result = s.setWave e.gi e.wi (endedWave e f st result) := pass_ended he f .v st result

/-- A request that enters queue `n` of the context, its future armed. -/
theorem submit_eq (f : FR) (n : Nat) (p : Pend) :
    submit e f n p = (s.setWave e.gi e.wi (armedWave e f .v)).modCtx e.g.ctx fun c =>
      { c with queues := modAt c.queues n fun l => { l with pend := l.pend ++ [p] } } := by
  rw [submit, issues_pass_armed he]

end

theorem exec_launch {sc : LScope} {d : FR} {a b : Src} {q : BitVec 3} {s : State} {e : Env} (he : Issues (.launch sc d a b q) s e)
    (hpass : Passes [chkPairs e d [(7, a), (8, b)], chkDrained e (BitVec.allOnes 8)]) :
    exec (.launch sc d a b q) s = .next (if (e.psrc a).1.toNat % 128 != 0 || (e.psrc b).1.toNat % 16 != 0
      then armedNow e d .failed 2 else submit e d q.toNat (newPend e d (e.psrc a).1 (some (e.psrc b).1) sc .launched 0)) := by
  obtain ⟨hpairs, hdrained, -⟩ := by simpa only [passes_cons] using hpass
  refine (onSplit_issues he _).trans (congrArg _ ?_)
  simp only [hpairs, hdrained, chk_bind_ok]
  rfl

theorem exec_spawn {d : FR} {a : Src} {s : State} {e : Env} (he : Issues (.spawn d a) s e)
    (hpass : Passes [chkPairs e d [(7, a)], chkDrained e (BitVec.allOnes 8)]) :
    exec (.spawn d a) s = .next (if (e.psrc a).1.toNat % 128 != 0 then armedNow e d .failed 2
      else if 8 ≤ e.g.depth then armedNow e d .failed 4
      else submit e d e.g.queue (newPend e d (e.psrc a).1 none (childScope s e.g)
        (.child e.g.id e.w.idx d ((e.w.fut d.toNat).serial + 1)) (e.g.depth + 1))) := by
  obtain ⟨hpairs, hdrained, -⟩ := by simpa only [passes_cons] using hpass
  refine (onSplit_issues he _).trans (congrArg _ ?_)
  simp only [hpairs, hdrained, chk_bind_ok, issues_state he]
  rfl

/-- `CANCEL` of an aligned object: a message to the root of a pod-wide grid, or the end of the grid here. -/
theorem exec_cancel {d : FR} {a : Src} {s : State} {e : Env} (he : Issues (.cancel d a) s e)
    (hpass : Passes [chkPairs e d [(7, a)]]) :
    let r := (e.psrc a).1
    (r.toNat % 16 ≠ 0 → exec (.cancel d a) s = .next (armedNow e d .failed 2)) ∧
    (r.toNat % 16 = 0 →
      (∀ m, cancelMsg s e.g.ctx r e.g.id e.w.idx d ((e.w.fut d.toNat).serial + 1) = some m → exec (.cancel d a) s = .next
        { s.setWave e.gi e.wi (armedWave e d .v) with msgs := s.msgs ++ [m] }) ∧
      (cancelMsg s e.g.ctx r e.g.id e.w.idx d ((e.w.fut d.toNat).serial + 1) = none → exec (.cancel d a) s = .next
        (cancelGrid (armedNow e d .done (cancelGrid s e.g.ctx r).2) e.g.ctx r).1)) := by
  obtain ⟨hpairs, -⟩ := by simpa only [passes_cons] using hpass
  intro r
  have hexec : exec (.cancel d a) s = _ := onSplit_issues he _
  simp only [hpairs, chk_bind_ok, issues_state he, Env.run_ok] at hexec
  have harmed := issues_pass_armed he d .v
  rw [issues_state he] at harmed
  refine ⟨fun hbad => ?_, fun hgood => ⟨fun m hm => ?_, fun hm => ?_⟩⟩
  · rw [hexec, if_pos (bne_iff_ne.2 hbad)]
  · rw [hexec, if_neg (by simpa using hgood), hm]
    simp only [harmed]
    rfl
  · rw [hexec, if_neg (by simpa using hgood), hm]

/-- Settles O19: after the checks each word is a choice by alignment and depth. -/
theorem launchWordsComplete : Obligations.LaunchWordsComplete := by
  unfold Obligations.LaunchWordsComplete
  intro sc d a b q s e r c here queued
  refine ⟨fun he hpass => ?_, fun he hpass => ?_, fun he hpass => ?_⟩
  · rw [exec_launch he hpass, armedNow_eq he, submit_eq he]
    refine ⟨fun ⟨hr, hc⟩ => ?_, fun hbad => ?_⟩
    · rw [if_neg (by simp [r, c] at hr hc ⊢; exact ⟨hr, hc⟩)]
    · rw [if_pos (by simp [r, c] at hbad ⊢; tauto)]
  · rw [exec_spawn he hpass, armedNow_eq he, armedNow_eq he, submit_eq he]
    refine ⟨fun hr hdepth => ?_, fun hr => ?_, fun hr hdepth => ?_⟩
    · rw [if_neg (by simpa using hr), if_neg (Nat.not_le.2 hdepth)]
    · rw [if_pos (bne_iff_ne.2 hr)]
    · rw [if_neg (by simpa using hr), if_pos hdepth]
  · obtain ⟨hbad, hgood⟩ := exec_cancel he hpass
    simp only [armedNow_eq he] at hbad hgood
    exact ⟨hbad, hgood⟩

end Sys2Proof
end

section
/-! SUPPORT. Words on futures (R191), and words that write one scalar register. -/

namespace Sys2Proof

open Sys2Proof.Machine Sys2Proof.Claims

/-! ## One scalar result -/

@[simp] theorem setSreg_latches (w : Wave) (k : Bool) (n : Nat) (x : W) (bad : Bool) : (w.setSreg k n x bad).latches = w.latches :=
  setSregs_latches w k n [x] bad

/-- Observing a future keeps the latches. -/
theorem futSeen_latches (s : State) (gi : Nat) (w : Wave) (m : Mask) (t : PClass) : (s.futSeen gi w m t).latches = w.latches := by
  unfold State.futSeen
  dsimp only
  split <;> rfl

section
variable {i : Instr} {s : State} {e : Env} (he : Issues i s e)
include he

/-- A scalar result written from a wave whose latches are as the word found them. -/
theorem done_oneScl (w : Wave) (hw : w.latches = e.w.latches) (d : SR) (x : W) (nw bad : Bool) :
    let w2 := w.setSreg e.k d.toNat x bad
    e.done ((if nw then w else w2).push (.scl d (w2.sreg e.k d.toNat) bad) nw) = landed s e (oneScl e w d x nw bad) := by
  intro w2
  have hlatches : (if nw then w else w2).latches = e.w.latches := by
    cases nw
    · exact (setSreg_latches ..).trans hw
    · exact hw
  rw [issues_done he, onward_push, shifted, hlatches]
  rfl

theorem sclPut_eq (w : Wave) (hw : w.latches = e.w.latches) (d : SR) (x : W) :
    sclPut e w d x = landed s e (oneScl e w d x false false) := done_oneScl he w hw d x false false

end

/-! ## FTEST -/

theorem observe_latches (e : Env) (f : Nat) : (observe e f).latches = e.w.latches := by
  unfold observe
  dsimp only
  split
  · exact futSeen_latches ..
  · rfl

/-- A future that has left Pending, and is not Empty, can be read (R19). -/
theorem chkFut_ok (e : Env) (f : FR) (hpending : (e.w.fut f.toNat).st ≠ .pending) (hempty : (e.w.fut f.toNat).st ≠ .empty) :
    chkFut e f = .ok () := by
  unfold chkFut
  split
  · exact absurd ‹_› hempty
  · exact absurd ‹_› hpending
  · rfl

theorem chkFut_empty (e : Env) (f : FR) (hempty : (e.w.fut f.toNat).st = .empty) :
    chkFut e f = .error (.trap (trFuture 0 (0xC0 + f.toNat) e.act)) := by simp only [chkFut, hempty]

theorem ftest_cases {d : SR} {f : FR} {s : State} {e : Env} (he : Issues (.ftest d (.f f)) s e)
    (hbusy : chkBusy e ([], []) ([], [d.toNat]) false = .ok ()) :
    let x := e.w.fut f.toNat
    (x.st = .pending → exec (.ftest d (.f f)) s = .next (landed s e (oneScl e e.w d 0 false false))) ∧
    (x.st ≠ .pending → x.st ≠ .empty → exec (.ftest d (.f f)) s
      = .next (landed s e (oneScl e (observe e f.toNat) d x.status false false))) ∧
    (x.st = .empty → exec (.ftest d (.f f)) s
      = .next (takeTrap s e.gi e.wi e.k (trFuture 0 (0xC0 + f.toNat) e.act))) := by
  intro x
  have hexec : exec (.ftest d (.f f)) s = _ := onSplit_issues he _
  simp only [hbusy, chk_bind_ok] at hexec
  refine ⟨fun hst => ?_, fun hpending hempty => ?_, fun hst => ?_⟩
  · rw [hexec, if_pos (beq_iff_eq.2 hst), Env.run_ok, sclPut_eq he _ rfl]
  · rw [hexec, if_neg (mt beq_iff_eq.1 hpending), chkFut_ok e f hpending hempty, chk_bind_ok, Env.run_ok,
      sclPut_eq he _ (observe_latches ..)]
  · rw [hexec, if_neg (by rw [show (e.w.fut f.toNat).st = .empty from hst]; decide), chkFut_empty e f hst, chk_bind_error]
    exact congrArg _ (issues_trap he _)

/-! ## FWAIT -/

/-- What `FWAIT` does with the future that its handle names. -/
theorem waitHandle_cases {i : Instr} {s : State} {e : Env} (he : Issues i s e) (d : SR) (n : Nat) :
    let h := handleOf n
    (∀ v, e.g.wave? h.wave = some v →
      let y := v.fut h.freg.toNat
      (y.serial ≠ h.ser ∨ y.st = .empty → waitHandle e d n = .ok (landed s e (oneScl e e.w d 0 false false))) ∧
      (y.serial = h.ser → y.st = .pending → waitHandle e d n = .error (.wait (.fwait h.wave h.freg h.ser))) ∧
      (y.serial = h.ser → y.st ∈ [FState.done, .failed, .cancelled] → waitHandle e d n
        = .ok (landed s e (oneScl e (s.futSeen e.gi e.w e.act y.cls) d y.status false false)))) ∧
    (e.g.wave? h.wave = none → waitHandle e d n = .error (.trap (trFuture 2 n e.act))) := by
  intro h
  constructor
  · intro v hv y
    simp only [h] at hv
    refine ⟨fun hold => ?_, fun hser hst => ?_, fun hser hst => ?_⟩ <;> unfold waitHandle
    · have hput : sclPut e e.w d 0 = _ := sclPut_eq he e.w rfl d 0
      by_cases hser : y.serial = h.ser
      · have hst : y.st = .empty := hold.resolve_left (not_not.2 hser)
        simp only [h, y] at hser hst
        simp only [hv, hser, hst, bne_self_eq_false, Bool.false_eq_true, if_false, hput]
      · simp only [h, y] at hser
        simp only [hv, bne_iff_ne.2 hser, if_true, hput]
    · simp only [h, y] at hser hst
      simp only [hv, hser, hst, bne_self_eq_false, Bool.false_eq_true, if_false, h]
    · have hput : sclPut e (s.futSeen e.gi e.w e.act y.cls) d y.status = _ := sclPut_eq he _ (futSeen_latches ..) d y.status
      simp only [h, y] at hser hst hput
      simp only [hv, hser, bne_self_eq_false, Bool.false_eq_true, if_false, issues_state he, hput, y]
      split
      · next hpending => rw [hpending] at hst; simp at hst
      · next hempty => rw [hempty] at hst; simp at hst
      · rfl
  · intro hv
    simp only [waitHandle, h, hv]

/-- `FWAIT` on a scratchpad handle that it has loaded. -/
theorem exec_fwait {d : SR} {a : Src} {i : I25} {s : State} {e : Env} (he : Issues (.fwait d a i) s e)
    (hspad : isSpadForm i = true) (hctr : Passes [chkCtr e .sp]) (l : Loc)
    (hplace : chkOnePlace e { handleAsk a i false with wr := ([], [d.toNat]) } = .ok (.at' l)) (n : Nat)
    (hload : loadHandle e l = .ok n) : exec (.fwait d a i) s = .next (e.run (waitHandle e d n)) := by
  obtain ⟨hctr, -⟩ := by simpa only [passes_cons] using hctr
  have hnote : noteOne e { handleAsk a i false with wr := ([], [d.toNat]) } = e := if_pos hspad
  refine (onSplit_issues he _).trans (congrArg _ ?_)
  simp only [hctr, chk_bind_ok, onPlace, hplace, hnote, hload]

/-! ## FCANCEL -/

theorem fcancel_cases {f : FR} {s : State} {e : Env} (he : Issues (.fcancel (.f f)) s e) :
    let x := e.w.fut f.toNat
    (x.st = .empty → exec (.fcancel (.f f)) s = .next (herePast e s)) ∧
    (x.st = .pending → exec (.fcancel (.f f)) s
      = .next ((herePast e s).modGang e.gi fun g => askCancel g e.w.idx f x.serial)) ∧
    (x.st ∈ [FState.done, .failed, .cancelled] → exec (.fcancel (.f f)) s = .next (s.setWave e.gi e.wi
      { passed e with futs := setAt e.w.futs f.toNat { x with st := .empty, status := 0 } })) := by
  intro x
  have hexec : exec (.fcancel (.f f)) s = _ := onSplit_issues he _
  have hpass : e.pass = herePast e s := issues_pass he
  refine ⟨fun hst => ?_, fun hst => ?_, fun hst => ?_⟩ <;> rw [hexec] <;> simp only [x] at hst
  · simp only [hst, Env.run_ok, hpass]
  · simp only [hst, Env.run_ok, hpass, x]
  · have hconsumed := issues_pass_futs he (setAt e.w.futs f.toNat { x with st := .empty, status := 0 })
    dsimp only
    split
    · next hempty => rw [hempty] at hst; simp at hst
    · next hpending => rw [hpending] at hst; simp at hst
    · rw [Env.run_ok]
      exact congrArg _ hconsumed

/-- Settles O32: each word is its checks, then a choice by the state of the future. -/
theorem futureWordsComplete : Obligations.FutureWordsComplete := by
  unfold Obligations.FutureWordsComplete
  intro d f a i s e x
  refine ⟨fun he hbusy => ftest_cases he hbusy, ?_, fun he => fcancel_cases he⟩
  intro l n he hspad hctr hplace hload h
  have hexec := exec_fwait he hspad hctr l hplace n hload
  obtain ⟨hwave, hnone⟩ := waitHandle_cases he d n
  refine ⟨fun v hv => ?_, fun hv => ?_⟩
  · obtain ⟨hold, hpending, hended⟩ := hwave v hv
    refine ⟨fun hy => ?_, fun hser hst => ?_, fun hser hst => ?_⟩
    · rw [hexec, hold hy, Env.run_ok]
    · rw [hexec, hpending hser hst]
      exact congrArg _ (issues_wait he _)
    · rw [hexec, hended hser hst, Env.run_ok]
  · rw [hexec, hnone hv]
    exact congrArg _ (issues_trap he _)

end Sys2Proof
end

section
/-! SUPPORT. The speculation and bank words, `CQUERY` and `DRAFT` (R222-R225, R249). -/

namespace Sys2Proof

open Sys2Proof.Machine Sys2Proof.Claims

/-! ## Changes of one gang -/

theorem modGang_modGang (s : State) (gi : Nat) (f g : Gang → Gang) :
    (s.modGang gi f).modGang gi g = s.modGang gi fun x => g (f x) := by
  simp only [State.modGang, modAt_modAt]

/-- A change of a gang is what it does to the gang that is there. -/
theorem modGang_congr (s : State) (gi : Nat) (f f' : Gang → Gang) (g : Gang) (hg : s.gang? gi = some g) (hf : f g = f' g) :
    s.modGang gi f = s.modGang gi f' := by
  have hmod : modAt s.gangs gi f = modAt s.gangs gi f' := by
    rw [modAt_const _ _ _ g hg, modAt_const _ _ f' g hg, hf]
  simp only [State.modGang, hmod]

/-! ## The queue of a Churn (R209) -/

theorem chkRoom_ok (e : Env) (h : e.g.ch.unf < 16) : chkRoom e = .ok () := by simp [chkRoom, needWait, h]

theorem chkIdle_ok (e : Env) (h : e.g.ch.unf = 0) : chkIdle e = .ok () := by simp [chkIdle, needWait, h]

/-- A scalar result beside another change of the machine. -/
theorem done_oneScl_in (e : Env) (t : State) (d : SR) (x : W) (nw : Bool) :
    let w2 := e.w.setSreg e.k d.toNat x false
    ({ e with s := t } : Env).done ((if nw then e.w else w2).push (.scl d (w2.sreg e.k d.toNat) false) nw)
      = landed t e (oneScl e e.w d x nw false) := by
  intro w2
  have hlatches : (if nw then e.w else w2).latches = e.w.latches := by
    cases nw
    · exact setSreg_latches ..
    · rfl
  rw [Env.done, advance_eq_onward, onward_push, shifted, hlatches]
  rfl

theorem cspec_completes {nw v0 v1 : Bool} {b0 b1 : BitVec 2} {d : SR} {s : State} {e : Env} (he : Issues (.cspec nw d v0 b0 v1 b1) s e)
    (hroom : e.g.ch.unf < 16) (hpass : Passes [chkChurn e, chkBusy e ([], []) ([], [d.toNat]) false]) :
    let opens : Bool := !e.g.ch.frameAt
    let q := newEntry e none (.spec (if v0 then some b0 else none) (if v1 then some b1 else none) opens)
    exec (.cspec nw d v0 b0 v1 b1) s = .next (landed (s.modGang e.gi fun g =>
        { g with nextOp := g.nextOp + 1, ch := { g.ch with queue := g.ch.queue ++ [q], frameAt := true } })
      e (oneScl e e.w d (if opens then 1 else 0) nw false)) := by
  intro opens q
  obtain ⟨hchurn, hbusy, -⟩ := by simpa only [passes_cons] using hpass
  refine (onSplit_issues he _).trans (congrArg _ ?_)
  simp only [hchurn, hbusy, chkRoom_ok e hroom, chk_bind_ok, Env.run_ok]
  refine (done_oneScl_in e _ d (boolW opens) nw).trans ?_
  rw [enqueue, modGang_modGang, issues_state he]
  rfl

/-- The wave that a read of a source leaves: one of a future observes it. -/
theorem observeSrc_eq (e : Env) (a : Src) :
    observeSrc e a = { e with w := match a with | .f f => observe e f.toNat | _ => e.w } := by
  cases a <;> rfl

/-- A word that goes on with another wave than it found. -/
theorem issues_pass_wave {i : Instr} {s : State} {e : Env} (he : Issues i s e) (w : Wave) :
    ({ e with w := w } : Env).pass = s.setWave e.gi e.wi (passed { e with w := w }) := by
  rw [Env.pass, Env.put, advance_eq_onward, pushNone_onward, issues_state he]

theorem cresolve_completes {a : Src} {s : State} {e : Env} (he : Issues (.cresolve a) s e) (hroom : e.g.ch.unf < 16)
    (hpass : Passes [chkChurn e, chkFutSrc e a, chkLatches e [⟨7, a, Src.gsf⟩], chkBusy e (srcRegs e.w e.k a 1) ([], []) true,
      chkPoisonS e [(srcNum e.w e.k a, (e.ssrc .s32 a).2)] 3]) :
    let e' := observeSrc e a
    exec (.cresolve a) s = .next ((s.setWave e.gi e.wi (passed e')).modGang e.gi fun g =>
      { g with
        nextOp := g.nextOp + 1
        ch := { g.ch with queue := g.ch.queue ++ [newEntry e' none (.resolve (e.ssrc .s32 a).1)], frameAt := false } }) := by
  intro e'
  obtain ⟨hchurn, hfut, hlatches, hbusy, hpoison, -⟩ := by simpa only [passes_cons] using hpass
  have hpass' : e'.pass = s.setWave e.gi e.wi (passed e') := by
    simp only [e', observeSrc_eq]
    exact issues_pass_wave he _
  have hgi : e'.gi = e.gi := by simp only [e', observeSrc_eq]
  refine (onSplit_issues he _).trans (congrArg _ ?_)
  simp only [hchurn, hfut, hlatches, hbusy, hpoison, chkRoom_ok e hroom, chk_bind_ok, Env.run_ok, enqueue, modGang_modGang]
  exact congrArg₂ (fun t gi => State.modGang t gi _) hpass' hgi

theorem crdv_completes {nw : Bool} {v : VR} {b : Src} {acc : BitVec 2} {s : State} {e : Env} (he : Issues (.crdv nw v b acc) s e)
    (hidle : e.g.ch.unf = 0) (hpass : Passes [chkFoot e 6 v.toNat 1, chkChurn e, chkLatches e [⟨8, b, Src.gs⟩],
      chkBusy e (srcRegs e.w e.k b 1) ([v.toNat], []) false, chkPoisonS e [(srcNum e.w e.k b, (e.ssrc .s32 b).2)] 3]) :
    let r := mergeReg (e.w.vreg v.toNat) e.act
      (laneList.map fun l => (e.g.ch.bank acc.toNat).getD (((e.ssrc .s32 b).1.toNat + l) % 4096) 0) 0
    exec (.crdv nw v b acc) s = .next (s.setWave e.gi e.wi { onward e.w e.k with
      vregs := if nw then e.w.vregs else setAt e.w.vregs v.toNat r
      latches := shifted e.w (.vec v r) nw }) := by
  intro r
  obtain ⟨hfoot, hchurn, hlatches, hbusy, hpoison, -⟩ := by simpa only [passes_cons] using hpass
  refine (onSplit_issues he _).trans (congrArg _ ?_)
  simp only [hfoot, hchurn, hlatches, hbusy, hpoison, chkIdle_ok e hidle, chk_bind_ok, Env.run_ok]
  refine (issues_done he _).trans ?_
  rw [onward_push]
  refine Eq.trans (landed_of_act_eq he _ ?mask) ?wave
  case mask => cases hk : e.k <;> cases nw <;> simp [Env.act, Env.slot, hk, onward, Wave.setVreg]
  case wave => cases hk : e.k <;> cases nw <;> rfl

theorem cwrv_completes {v : VR} {b : Src} {acc : BitVec 2} {s : State} {e : Env} (he : Issues (.cwrv v b acc) s e)
    (hidle : e.g.ch.unf = 0) (hpass : Passes [chkFoot e 6 v.toNat 1, chkChurn e, chkLatches e [⟨8, b, Src.gs⟩],
      chkBusy e (cat2 ([v.toNat], []) (srcRegs e.w e.k b 1)) ([], []) false])
    (hbad : (e.w.vreg v.toNat).bad &&& e.act = 0) (hmark : (e.ssrc .s32 b).2 = false) :
    exec (.cwrv v b acc) s = .next ((herePast e s).modGang e.gi fun g => { g with
      ch := g.ch.setBank acc.toNat
        (bankPut (g.ch.bank acc.toNat) (e.ssrc .s32 b).1 (e.w.vreg v.toNat) (lanesOf e.act)) }) := by
  obtain ⟨hfoot, hchurn, hlatches, hbusy, -⟩ := by simpa only [passes_cons] using hpass
  have hpoison : chkPoisonM e.act [(3, v.toNat, (e.w.vreg v.toNat).bad), (3, srcNum e.w e.k b, boolMask (e.ssrc .s32 b).2)]
      = .ok () := by simp [chkPoisonM, hbad, hmark, boolMask]
  refine (onSplit_issues he _).trans (congrArg _ ?_)
  simp only [hfoot, hchurn, hlatches, hbusy, hpoison, chkIdle_ok e hidle, chk_bind_ok, Env.run_ok, issues_pass he]
  rfl

theorem cquery_completes {nw : Bool} {d : SR} {s : State} {e : Env} (he : Issues (.cquery nw d) s e)
    (hbusy : chkBusy e ([], []) ([], [d.toNat]) false = .ok ()) :
    exec (.cquery nw d) s = .next (landed s e (oneScl e e.w d (if e.g.churn then queryWord e.g.ch else 0) nw false)) := by
  refine (onSplit_issues he _).trans (congrArg _ ?_)
  simp only [hbusy, chk_bind_ok, Env.run_ok]
  exact done_oneScl he e.w rfl d _ nw false

/-- The answer of `DRAFT` (R249). -/
def draftCode (e : Env) (x : D) (z : W) : Nat :=
  if e.g.draft.isSome then 0 else if z == 0 || 64 < z.toNat || x.toNat % 128 != 0 then 2 else 1

/-- `DRAFT` once its checks pass: its answer, and the frame that it opens with the answer 1. -/
theorem exec_draft {nw : Bool} {d : SR} {a b c : Src} {n : BitVec 8} {s : State} {e : Env} (he : Issues (.draft nw d a b c n) s e)
    (hpass : Passes [chkChurn e, chkLatches e [⟨7, a, Src.sp⟩, ⟨8, b, Src.gs⟩, ⟨9, c, Src.gs⟩],
      chkBusy e (cat2 (srcRegs e.w e.k a 2) (cat2 (srcRegs e.w e.k b 1) (srcRegs e.w e.k c 1))) ([], [d.toNat]) false,
      chkPoisonS e [(srcNum e.w e.k a, (e.psrc a).2)] 1,
      chkPoisonS e [(srcNum e.w e.k b, (e.ssrc .s32 b).2), (srcNum e.w e.k c, (e.ssrc .s32 c).2)] 3]) :
    let x := (e.psrc a).1
    let z := (e.ssrc .s32 c).1
    let code := draftCode e x z
    exec (.draft nw d a b c n) s = .next (landed (if code != 1 then s else s.modGang e.gi fun g =>
      { g with draft := some ⟨x, (e.ssrc .s32 b).1, z.toNat, n.toNat, e.g.waves.map (·.rngctr)⟩ }) e
        (oneScl e e.w d (BitVec.ofNat 32 code) nw false)) := by
  intro x z code
  obtain ⟨hchurn, hlatches, hbusy, hpair, hwords, -⟩ := by simpa only [passes_cons] using hpass
  refine (onSplit_issues he _).trans (congrArg _ ?_)
  have hgang : s.modGang e.gi (fun g => { g with draft := some ⟨x, (e.ssrc .s32 b).1, z.toNat, n.toNat, g.waves.map (·.rngctr)⟩ })
      = s.modGang e.gi fun g =>
        { g with draft := some ⟨x, (e.ssrc .s32 b).1, z.toNat, n.toNat, e.g.waves.map (·.rngctr)⟩ } :=
    modGang_congr s e.gi _ _ e.g (issues_gang he) rfl
  simp only [x, z] at hgang
  simp only [hchurn, hlatches, hbusy, hpair, hwords, chk_bind_ok, Env.run_ok, issues_state he, hgang]
  exact done_oneScl_in e _ d _ nw

/-- Settles O35: each word is its checks, then one change of the queue, of a bank or of the frame. -/
theorem frameAndBankWords : Obligations.FrameAndBankWords := by
  unfold Obligations.FrameAndBankWords
  intro nw v0 v1 b0 b1 acc d v a b c n s e
  refine ⟨cspec_completes, fun he hroom hpass => ?_, crdv_completes, cwrv_completes, cquery_completes, ?_⟩
  · have hexec := cresolve_completes he hroom hpass
    simp only [observeSrc_eq] at hexec
    exact hexec
  intro he hpass x z ill answered
  have hexec := exec_draft he hpass
  have hill : (z == 0 || 64 < z.toNat || x.toNat % 128 != 0) = true ↔ ill := by simp [ill, or_assoc]
  refine ⟨fun hopen => ?_, fun hfree hbad => ?_, fun hfree hgood => ?_⟩
  · have hcode : draftCode e x z = 0 := if_pos (Option.isSome_iff_ne_none.2 hopen)
    rw [hexec, hcode]
    rfl
  · have hcode : draftCode e x z = 2 := by rw [draftCode, hfree, if_neg (by decide), if_pos (hill.2 hbad)]
    rw [hexec, hcode]
    rfl
  · have hcode : draftCode e x z = 1 := by rw [draftCode, hfree, if_neg (by decide), if_neg (mt hill.1 hgood)]
    rw [hexec, hcode]
    rfl

end Sys2Proof
end

section
/-! SUPPORT. The special registers and their words (R27-R33). -/

namespace Sys2Proof

open Sys2Proof.Machine Sys2Proof.Claims

/-! ## Words of pairs and masks -/

theorem joinPair_toNat (lo hi : W) : (joinPair lo hi).toNat = hi.toNat * 2 ^ 32 + lo.toNat := by
  rw [joinPair, BitVec.toNat_append, ← Nat.shiftLeft_add_eq_or_of_lt lo.isLt, Nat.shiftLeft_eq]

@[simp] theorem lo32_joinPair (lo hi : W) : lo32 (joinPair lo hi) = lo := by
  have := lo.isLt
  refine BitVec.eq_of_toNat_eq ?_
  rw [lo32, BitVec.extractLsb'_toNat, joinPair_toNat, Nat.shiftRight_zero]
  omega

@[simp] theorem hi32_joinPair (lo hi : W) : hi32 (joinPair lo hi) = hi := by
  have := lo.isLt
  have := hi.isLt
  refine BitVec.eq_of_toNat_eq ?_
  rw [hi32, BitVec.extractLsb'_toNat, joinPair_toNat, Nat.shiftRight_eq_div_pow]
  omega

@[simp] theorem lo32_setHalf_lo (x : D) (v : W) : lo32 (setHalf x false v) = v := lo32_joinPair _ _

@[simp] theorem hi32_setHalf_hi (x : D) (v : W) : hi32 (setHalf x true v) = v := hi32_joinPair _ _

theorem maskOfWords_bit (a b c : W) (j : Nat) (hj : j < 96) : (maskOfWords a b c).getLsbD j
    = if j < 32 then a.getLsbD j else if j < 64 then b.getLsbD (j - 32) else c.getLsbD (j - 64) := by
  have hnat : a.toNat + b.toNat * 2 ^ 32 + c.toNat * 2 ^ 64 = 2 ^ 32 * (2 ^ 32 * c.toNat + b.toNat) + a.toNat := by ring
  rw [maskOfWords, BitVec.getLsbD_ofNat, hnat, Nat.testBit_two_pow_mul_add _ a.isLt, Nat.testBit_two_pow_mul_add _ b.isLt,
    decide_eq_true hj, Bool.true_and]
  by_cases h32 : j < 32
  · rw [if_pos h32, if_pos h32]
    rfl
  · rw [if_neg h32, if_neg h32]
    by_cases h64 : j < 64
    · rw [if_pos h64, if_pos (by omega)]
      rfl
    · rw [if_neg h64, if_neg (by omega), Nat.sub_sub]
      rfl

theorem maskWord_maskOfWords (a b c : W) : Machine.maskWord (maskOfWords a b c) 0 = a ∧
    Machine.maskWord (maskOfWords a b c) 1 = b ∧ Machine.maskWord (maskOfWords a b c) 2 = c := by
  have hbit (m : Mask) (i j : Nat) (hj : j < 32) : (Machine.maskWord m i).getLsbD j = m.getLsbD (32 * i + j) := by
    rw [Machine.maskWord, BitVec.getLsbD_extractLsb', decide_eq_true hj, Bool.true_and]
  refine ⟨?_, ?_, ?_⟩ <;> refine BitVec.eq_of_getLsbD_eq fun j hj => ?_ <;> rw [hbit _ _ j hj, maskOfWords_bit _ _ _ _ (by omega)]
  · rw [if_pos (by omega), Nat.mul_zero, Nat.zero_add]
  · rw [if_neg (by omega), if_pos (by omega)]
    congr 1
    omega
  · rw [if_neg (by omega), if_neg (by omega)]
    congr 1
    omega

@[simp] theorem maskWord_setMaskWord (m : Mask) (v : W) :
    Machine.maskWord (setMaskWord m 0 v) 0 = v ∧ Machine.maskWord (setMaskWord m 1 v) 1 = v ∧ Machine.maskWord (setMaskWord m 2 v) 2 = v :=
  ⟨(maskWord_maskOfWords _ _ _).1, (maskWord_maskOfWords _ _ _).2.1, (maskWord_maskOfWords _ _ _).2.2⟩

theorem and_idem_right (v m : W) : v &&& m &&& m = v &&& m := by rw [BitVec.and_assoc, BitVec.and_self]

/-! ## `WSTAT` (R29) -/

/-- The bits of `WSTAT`: the flags, FPEN, MABS, and above them what no write changes. -/
theorem wstat_bit (flags fpen : Nat) (mabs : Bool) (h : Nat) (hflags : flags < 32) (hfpen : fpen < 32) (j : Nat) (hj : j < 32) :
    (BitVec.ofNat 32 (h * 2 ^ 12 + mabs.toNat * 2 ^ 11 + fpen * 2 ^ 5 + flags)).getLsbD j
      = if j < 5 then flags.testBit j else if j < 11 then fpen.testBit (j - 5)
        else if j = 11 then mabs else h.testBit (j - 12) := by
  have hnat : h * 2 ^ 12 + mabs.toNat * 2 ^ 11 + fpen * 2 ^ 5 + flags
      = 2 ^ 5 * (2 ^ 6 * (2 ^ 1 * h + mabs.toNat) + fpen) + flags := by ring
  have hmabs : mabs.toNat < 2 ^ 1 := by cases mabs <;> decide
  rw [BitVec.getLsbD_ofNat, hnat, Nat.testBit_two_pow_mul_add _ hflags, Nat.testBit_two_pow_mul_add _ (by omega : fpen < 2 ^ 6),
    Nat.testBit_two_pow_mul_add _ hmabs, decide_eq_true hj, Bool.true_and]
  by_cases h5 : j < 5
  · simp [h5]
  · by_cases h11 : j < 11
    · simp [h5, h11, (by omega : j - 5 < 6)]
    · by_cases h12 : j = 11
      · subst h12
        cases mabs <;> rfl
      · rw [if_neg h5, if_neg h5, if_neg (by omega : ¬j - 5 < 6), if_neg (by omega : ¬j - 5 - 6 < 1), if_neg h11, if_neg h12,
          show j - 5 - 6 - 1 = j - 12 by omega]

theorem extract_bit (v : W) (n j : Nat) : (v.extractLsb' n 5).toNat.testBit j = (decide (j < 5) && v.getLsbD (n + j)) :=
  BitVec.getLsbD_extractLsb' n 5 v j

theorem wstat_writable (v : W) (flags fpen : Nat) (mabs : Bool) (h : Nat) (hflags : flags < 32) (hfpen : fpen < 32) :
    BitVec.ofNat 32 (h * 2 ^ 12 + (v.getLsbD 11).toNat * 2 ^ 11 + (v.extractLsb' 5 5).toNat * 2 ^ 5 + (v.extractLsb' 0 5).toNat)
        &&& 0xBFF = v &&& (0xBFF : W) ∧
    BitVec.ofNat 32 (h * 2 ^ 12 + (v.getLsbD 11).toNat * 2 ^ 11 + (v.extractLsb' 5 5).toNat * 2 ^ 5 + (v.extractLsb' 0 5).toNat)
        &&& ~~~0xBFF = BitVec.ofNat 32 (h * 2 ^ 12 + mabs.toNat * 2 ^ 11 + fpen * 2 ^ 5 + flags) &&& ~~~(0xBFF : W) := by
  have hmask : ∀ j < 32, (0xBFF : W).getLsbD j = (decide (j < 10) || decide (j = 11)) := by decide
  have hnew (j : Nat) (hj : j < 32) := wstat_bit _ _ (v.getLsbD 11) h (v.extractLsb' 0 5).isLt (v.extractLsb' 5 5).isLt j hj
  constructor <;> refine BitVec.eq_of_getLsbD_eq fun j hj => ?_
  · rw [BitVec.getLsbD_and, BitVec.getLsbD_and, hmask j hj, hnew j hj, extract_bit, extract_bit]
    by_cases h5 : j < 5
    · simp [h5]
    · by_cases h10 : j < 10
      · simp [h5, (by omega : j < 11), (by omega : j - 5 < 5), (by omega : 5 + (j - 5) = j)]
      · by_cases h11 : j = 11
        · subst h11
          simp
        · simp [h10, h11]
  · rw [BitVec.getLsbD_and, BitVec.getLsbD_and, BitVec.getLsbD_not, hmask j hj, hnew j hj,
      wstat_bit _ _ _ _ hflags hfpen j hj, extract_bit, extract_bit]
    by_cases h10 : j < 10
    · simp [h10]
    · by_cases h11 : j = 11
      · simp [h11]
      · by_cases heq : j = 10
        · subst heq
          have : fpen.testBit 5 = false := Nat.testBit_lt_two_pow hfpen
          simp [this]
        · rw [if_neg (by omega), if_neg (by omega), if_neg h11, if_neg (by omega), if_neg (by omega), if_neg h11]

/-! ## What a special register reads after a write (R29-R32) -/

/-- The machine as a read after a privileged write of register `n` finds it. -/
def afterMts (e : Env) (w : Wave) (g : Gang) (n : Nat) (v : W) : Env :=
  { e with s := e.s.modCtx g.ctx fun c => specCtx c n v, w := specWave w n v, g := specGang g n v }

section
variable (e : Env) (w : Wave) (g : Gang) (v : W)

theorem afterMts_plain (n : Nat)
    (hn : n ∈ [0x21, 0x22, 0x23, 0x28, 0x29, 0x2A, 0x2B, 0x32, 0x33, 0x34, 0x35, 0x36, 0x37]) :
    specRead (afterMts e w g n v) n = v := by
  have hmask (m : Mask) := maskWord_setMaskWord m v
  simp only [List.mem_cons, List.not_mem_nil, or_false] at hn
  rcases hn with rfl | rfl | rfl | rfl | rfl | rfl | rfl | rfl | rfl | rfl | rfl | rfl | rfl
  · exact (hmask w.xfault).1
  · exact (hmask w.xfault).2.1
  · exact (hmask w.xfault).2.2
  · exact lo32_setHalf_lo g.rngkey v
  · exact hi32_setHalf_hi g.rngkey v
  · exact lo32_setHalf_lo w.rngctr v
  · exact hi32_setHalf_hi w.rngctr v
  · exact hi32_setHalf_hi w.tpc v
  · exact (hmask w.tmask).1
  · exact (hmask w.tmask).2.1
  · exact (hmask w.tmask).2.2
  · exact lo32_setHalf_lo w.tval v
  · exact hi32_setHalf_hi w.tval v

theorem afterMts_tpc : specRead (afterMts e w g 0x31 v) 0x31 = v &&& ~~~7 := by
  show lo32 (setHalf w.tpc false (v &&& ~~~7)) &&& ~~~7 = _
  rw [lo32_setHalf_lo, and_idem_right]

theorem specCtx_id (c : Ctx) (n : Nat) : (specCtx c n v).id = c.id := by
  unfold specCtx
  split
  case h_5 => split <;> rfl
  all_goals rfl

theorem afterMts_ctx? (n : Nat) (c : Ctx) (hc : e.s.ctx? g.ctx = some c) :
    (afterMts e w g n v).s.ctx? g.ctx = some (specCtx c n v) := by
  have hid : c.id = g.ctx := by simpa using List.find?_some hc
  refine (find?_map_keeps _ _ (fun x => ?_) _).trans ((congrArg _ hc).trans ?_)
  · dsimp only
    split
    · rw [specCtx_id]
    · rfl
  · simp [hid]

theorem afterMts_tbase (c : Ctx) (hc : e.s.ctx? g.ctx = some c) :
    specRead (afterMts e w g 0x38 v) 0x38 = v &&& ~~~7 ∧ specRead (afterMts e w g 0x39 v) 0x39 = v := by
  constructor
  · show lo32 (((State.ctx? _ g.ctx).map (·.tbase)).getD 0) &&& ~~~7 = _
    rw [afterMts_ctx? e w g v 0x38 c hc]
    show lo32 (setHalf c.tbase false (v &&& ~~~7)) &&& ~~~7 = _
    rw [lo32_setHalf_lo, and_idem_right]
  · show hi32 (((State.ctx? _ g.ctx).map (·.tbase)).getD 0) = _
    rw [afterMts_ctx? e w g v 0x39 c hc]
    exact hi32_setHalf_hi c.tbase v

/-- `WSTAT` by its writable fields and what stands above them. -/
theorem wstatWord_eq (priv halter k : Bool) : ∃ h, ∀ u : Wave, u.slot0 = w.slot0 → u.slot1 = w.slot1 → u.dsp = w.dsp →
    wstatWord priv halter u k = BitVec.ofNat 32 (h * 2 ^ 12 + u.mabs.toNat * 2 ^ 11 + u.fpen.toNat * 2 ^ 5 + u.flags.toNat) := by
  refine ⟨halter.toNat * 2 ^ 9 + k.toNat * 2 ^ 8 + (if k then w.slot0.st != .empty else w.slot1.st != .empty).toNat * 2 ^ 7
    + priv.toNat * 2 ^ 6 + w.dsp % 64, fun u h0 h1 hdsp => ?_⟩
  rw [wstatWord, h0, h1, hdsp]
  refine congrArg (BitVec.ofNat 32) ?_
  ring

theorem afterMts_wstat :
    specRead (afterMts e w g 0x20 v) 0x20 &&& 0xBFF = v &&& 0xBFF ∧
      specRead (afterMts e w g 0x20 v) 0x20 &&& ~~~0xBFF = specRead { e with w := w, g := g } 0x20 &&& ~~~0xBFF := by
  obtain ⟨h, hword⟩ := wstatWord_eq w (privileged g w) (g.halter == some w.idx) e.k
  have hafter := hword (wstatWrite w v) rfl rfl rfl
  have hbefore := hword w rfl rfl rfl
  show wstatWord (privileged g w) (g.halter == some w.idx) (wstatWrite w v) e.k &&& _ = _ ∧
    wstatWord (privileged g w) (g.halter == some w.idx) (wstatWrite w v) e.k &&& _
      = wstatWord (privileged g w) (g.halter == some w.idx) w e.k &&& _
  rw [hafter, hbefore]
  exact wstat_writable v _ _ _ h w.flags.isLt w.fpen.isLt

theorem specRead_dcl (n : Nat) (hlo : 0x10 ≤ n) (hhi : n ≤ 0x1F) : specRead e n = (e.g.dcl[n - 0x10]?).getD 0 := by
  interval_cases n <;> rfl

theorem specGang_dcl (n : Nat) (hlo : 0x10 ≤ n) (hhi : n ≤ 0x1F) :
    (specGang g n v).dcl = setAt g.dcl (n - 0x10) (dclStored v) := by
  interval_cases n <;> rfl

theorem afterMts_dcl (n : Nat) (hlo : 0x10 ≤ n) (hhi : n ≤ 0x1F) (hlen : g.dcl.length = 16) :
    specRead (afterMts e w g n v) n = if 0 < v.toInt then 0 else v := by
  rw [specRead_dcl _ n hlo hhi]
  show ((specGang g n v).dcl[n - 0x10]?).getD 0 = _
  rw [specGang_dcl g v n hlo hhi, setAt_get _ _ _ (by omega)]
  rfl

end

/-! ## `MFS` and `MTS` -/

/-- Scalar results beside another change of the machine. -/
theorem sclOut_eq (e : Env) (t : State) (nw : Bool) (d : SR) (xs : List W) :
    sclOut { e with s := t } nw d xs = landed t e (someScl e d xs nw) := by
  have hlatches : (if nw then e.w else e.w.setSregs e.k d.toNat xs false).latches = e.w.latches := by
    cases nw
    · exact setSregs_latches ..
    · rfl
  have hwrite : sclWrite e.w e.k (SclWord.plain d nw [] fun _ => (0, 0)) xs false
      = (if nw then e.w else e.w.setSregs e.k d.toNat xs false).push
        (.scl d ((e.w.setSregs e.k d.toNat xs false).sreg e.k d.toNat) false) nw := rfl
  rw [sclOut, Env.done, advance_eq_onward, hwrite, onward_push, shifted, hlatches]
  rfl

theorem chkSpec_ok (e : Env) (n : Nat) (hknown : specKnown n = true) (hpriv : specPriv n = true → e.priv = true) :
    chkSpec e n = .ok () := by
  have hmay : (!specPriv n || e.priv) = true := by
    cases hp : specPriv n
    · rfl
    · exact hpriv hp
  rw [chkSpec, hmay, hknown]
  rfl

theorem mfs_completes {nw : Bool} {d : SR} {x : BitVec 16} {s : State} {e : Env} (he : Issues (.mfs nw d x) s e)
    (hspec : chkSpec e x.toNat = .ok ()) (hbusy : chkBusy e ([], []) ([], [d.toNat]) false = .ok ()) :
    let e' : Env := if x.toNat = 0x27
      then { e with s := { s.took with fabric := s.fabric + Config.elapsedFab s.freeCtr } } else e
    exec (.mfs nw d x) s = .next (landed e'.s e (someScl e d [specRead e' x.toNat] nw)) := by
  intro e'
  have henv : (if x.toNat == 0x27 then { e with s := e.s.fabricOn } else e) = { e with s := e'.s } := by
    by_cases hx : x.toNat = 0x27
    · simp only [e', hx, beq_self_eq_true, if_true, issues_state he, State.fabricOn]
    · simp only [e', hx, beq_iff_eq, if_false]
  have he' : e' = { e with s := e'.s } := by
    by_cases hx : x.toNat = 0x27
    · simp only [e', hx, if_true]
    · simp only [e', hx, if_false]
  refine (onSplit_issues he _).trans (congrArg _ ?_)
  simp only [hspec, hbusy, chk_bind_ok, henv, Env.run_ok, sclOut_eq]
  rw [← he']

theorem mts_completes {x : BitVec 16} {a : Src} {s : State} {e : Env} (he : Issues (.mts x a) s e)
    (hspec : chkSpec e x.toNat = .ok ()) (hro : specRo x.toNat = false)
    (hhalter : x.toNat = 0x26 → e.g.churn = true ∧ e.g.halter = some e.w.idx)
    (hpass : Passes [chkLatches e [⟨7, a, Src.sc⟩], chkBusy e (srcRegs e.w e.k a 1) ([], []) false])
    (hmark : (e.ssrc .s32 a).2 = false) :
    let v := (e.ssrc .s32 a).1
    let t := (s.setWave e.gi e.wi (passed { e with w := specWave e.w x.toNat v })).modGang e.gi fun g => specGang g x.toNat v
    exec (.mts x a) s = .next (if e.priv then t.modCtx e.g.ctx fun c => specCtx c x.toNat v else t) := by
  intro v t
  obtain ⟨hlatches, hbusy, -⟩ := by simpa only [passes_cons] using hpass
  have hvcnt : (x.toNat != 0x26 || (e.g.churn && e.g.halter == some e.w.idx)) = true := by
    by_cases hx : x.toNat = 0x26
    · simp [hhalter hx]
    · simp [hx]
  have hpoison : chkPoisonS e [(srcNum e.w e.k a, (e.ssrc .s32 a).2)] 0 = .ok () := by simp [chkPoisonS, hmark]
  refine (onSplit_issues he _).trans (congrArg _ ?_)
  simp only [hspec, hro, hvcnt, hlatches, hbusy, hpoison, need, Bool.not_false, if_true, chk_bind_ok, Env.run_ok, specWrite,
    issues_pass_wave he]
  rfl

/-- Settles O38: the words are their checks, then a read or a write; a written register reads its writable bits. -/
theorem specialRegisterWords : Obligations.SpecialRegisterWords := by
  unfold Obligations.SpecialRegisterWords
  constructor
  · intro nw d x a s e n mayUse
    refine ⟨fun he ⟨hknown, hpriv⟩ hbusy => ?_, fun he ⟨hknown, hpriv⟩ hro hhalter hpass hmark => ?_⟩
    · exact mfs_completes he (chkSpec_ok e n hknown hpriv) hbusy
    · exact mts_completes he (chkSpec_ok e n hknown hpriv) hro hhalter hpass hmark
  · intro w g e v after
    refine ⟨afterMts_plain e w g v, afterMts_tpc e w g v, rfl, afterMts_tbase e w g v, afterMts_wstat e w g v, fun hchurn => ?_,
      afterMts_dcl e w g v⟩
    show vcntWord (specGang g 0x26 v) = _
    exact congrArg (BitVec.ofNat 32) (if_pos hchurn)

end Sys2Proof
end

section
/-! SUPPORT. Clocks, performance counters, the resolution of faults and `IDLEW` (R295, R304, R319). -/

namespace Sys2Proof

open Sys2Proof.Machine Sys2Proof.Claims

/-! ## Clocks (R295) -/

theorem clkrdTime_completes {d : SR} {s : State} {e : Env} (he : Issues (.clkrdTime d) s e)
    (hbusy : chkBusy e ([], []) ([], [d.toNat, d.toNat + 1]) false = .ok ()) :
    let t := (s.timeNs + Config.elapsedNs s.freeCtr) % 2 ^ 64
    exec (.clkrdTime d) s = .next (landed { s with freeCtr := s.freeCtr + 1, timeNs := t } e
      (someScl e d [BitVec.ofNat 32 t, BitVec.ofNat 32 (t / 2 ^ 32)] false)) := by
  refine (onSplit_issues he _).trans (congrArg _ ?_)
  simp only [hbusy, chk_bind_ok, Env.run_ok, sclOut_eq, issues_state he]
  rfl

theorem cycOf_cycOn (s : State) (byre : Nat) :
    (s.cycOn byre).cycOf byre = (s.cycOf byre + Config.elapsedCyc s.freeCtr) % 2 ^ 64 := by
  simp [State.cycOn, State.cycOf]

theorem clkrdCyc_completes {d : SR} {s : State} {e : Env} (he : Issues (.clkrdCyc d) s e)
    (hbusy : chkBusy e ([], []) ([], [d.toNat, d.toNat + 1]) false = .ok ()) :
    let n := e.g.byreId
    let t := (s.cycOf n + Config.elapsedCyc s.freeCtr) % 2 ^ 64
    exec (.clkrdCyc d) s = .next (landed { s.took with cycles := (n, t) :: s.cycles.filter fun x => x.1 != n } e
      (someScl e d [BitVec.ofNat 32 t, BitVec.ofNat 32 (t / 2 ^ 32)] false)) := by
  refine (onSplit_issues he _).trans (congrArg _ ?_)
  simp only [hbusy, chk_bind_ok, Env.run_ok, sclOut_eq, issues_state he, cycOf_cycOn]
  rfl

/-! ## Performance counters (R319) -/

/-- A counter is the one of its Byre and number. -/
theorem perfAt_place (s : State) (byre n : Nat) : (s.perfAt byre n).byre = byre ∧ (s.perfAt byre n).idx = n := by
  unfold State.perfAt
  cases h : s.perf.find? fun p => p.byre == byre && p.idx == n with
  | none => exact ⟨rfl, rfl⟩
  | some p => simpa using List.find?_some h

theorem perfAt_putPerf (s : State) (p : Perf) (byre n : Nat) (hbyre : p.byre = byre) (hidx : p.idx = n) :
    (s.putPerf p).perfAt byre n = p := by
  simp [State.putPerf, State.perfAt, hbyre, hidx]

/-- A check of an operand's value passes where the value does. -/
theorem needVal_ok (e : Env) (a : Src) (ok : W → Bool) (t : Trap) (h : ok (e.ssrc .s32 a).1 = true) : needVal e a ok t = .ok () := by
  unfold needVal
  split
  · rfl
  · simp [need, h]

theorem isCycleEvent_iff (n : Nat) : isCycleEvent n = true ↔ n ∈ [1, 6, 10, 11] := by simp [isCycleEvent, or_assoc]

theorem exec_perfrd {d : SR} {b : Src} {s : State} {e : Env} (he : Issues (.perfrd d b) s e)
    (hsys : chkSys e true [] [(8, b)] ([], [d.toNat, d.toNat + 1]) = .ok ()) (hlow : (e.ssrc .s32 b).1.toNat ≤ 7) :
    let n := (e.ssrc .s32 b).1.toNat
    let u := perfNow s e.g.byreId n
    let c := (u.perfAt e.g.byreId n).count
    exec (.perfrd d b) s
      = .next (landed u e (someScl e d [BitVec.ofNat 32 c, BitVec.ofNat 32 (c / 2 ^ 32)] false)) := by
  have hval := needVal_ok e b (·.toNat ≤ 7) (trIllegal e 2 8 false) (decide_eq_true hlow)
  refine (onSplit_issues he _).trans (congrArg _ ?_)
  simp only [hval, hsys, chk_bind_ok, Env.run_ok, sclOut_eq, issues_state he]
  rfl

theorem perfrd_completes {d : SR} {b : Src} {s : State} {e : Env} (he : Issues (.perfrd d b) s e)
    (hsys : chkSys e true [] [(8, b)] ([], [d.toNat, d.toNat + 1]) = .ok ()) (hlow : (e.ssrc .s32 b).1.toNat ≤ 7) :
    let p := s.perfAt e.g.byreId (e.ssrc .s32 b).1.toNat
    let t := (p.count + Config.perfCount s.freeCtr) % 2 ^ 48
    let read (u : State) (c : Nat) : State :=
      landed u e (someScl e d [BitVec.ofNat 32 c, BitVec.ofNat 32 (c / 2 ^ 32)] false)
    (p.event ∈ [1, 6, 10, 11] → exec (.perfrd d b) s = .next (read (s.took.putPerf { p with count := t }) t)) ∧
      (p.event ∉ [1, 6, 10, 11] → exec (.perfrd d b) s = .next (read s p.count)) := by
  intro p t read
  have hexec := exec_perfrd he hsys hlow
  obtain ⟨hbyre, hidx⟩ := perfAt_place s e.g.byreId (e.ssrc .s32 b).1.toNat
  refine ⟨fun hcyc => ?_, fun hcyc => ?_⟩
  · have hnow : perfNow s e.g.byreId (e.ssrc .s32 b).1.toNat = s.took.putPerf { p with count := t } :=
      if_pos ((isCycleEvent_iff _).2 hcyc)
    have hcount : (s.took.putPerf { p with count := t }).perfAt e.g.byreId (e.ssrc .s32 b).1.toNat = { p with count := t } :=
      perfAt_putPerf s.took { p with count := t } _ _ hbyre hidx
    simp only [hnow, hcount] at hexec
    exact hexec
  · have hnow : perfNow s e.g.byreId (e.ssrc .s32 b).1.toNat = s := if_neg (mt (isCycleEvent_iff _).1 hcyc)
    simp only [hnow] at hexec
    exact hexec

theorem perfcfg_completes {a b : Src} {s : State} {e : Env} (he : Issues (.perfcfg a b) s e)
    (hsys : chkSys e true [] [(7, a), (8, b)] ([], []) = .ok ()) (hlow : (e.ssrc .s32 a).1.toNat ≤ 7) :
    exec (.perfcfg a b) s = .next ((herePast e s).putPerf ⟨e.g.byreId, (e.ssrc .s32 a).1.toNat,
      if 12 ≤ (e.ssrc .s32 b).1.toNat then 0 else (e.ssrc .s32 b).1.toNat, 0⟩) := by
  have hval := needVal_ok e a (·.toNat ≤ 7) (trIllegal e 2 7 false) (decide_eq_true hlow)
  refine (onSplit_issues he _).trans (congrArg _ ?_)
  simp only [hval, hsys, chk_bind_ok, Env.run_ok, issues_pass he]
  rfl

/-! ## `FLTRES` (R304, R317) -/

theorem modWave_setWave (s : State) (gi wi : Nat) (w : Wave) (f : Wave → Wave) :
    (s.setWave gi wi w).modWave gi wi f = s.setWave gi wi (f w) := by
  simp [State.setWave, State.modWave, State.modGang, modAt_modAt]

theorem fltres_completes {i : Instr} {ok : Bool} {a b : Src} {s : State} {e : Env} (he : Issues i s e)
    (hpass : Passes [chkSys e true [(7, a)] [(8, b)] ([], []), chkDrained e (BitVec.allOnes 8)]) :
    fltres i ok a b s = .next ((s.reqs.filter fun r =>
      r.ctx == (e.ssrc .s32 b).1.toNat && r.page == (e.psrc a).1.toNat / 2 ^ 16).foldl (resolveReq ok)
        (s.setWave e.gi e.wi { passed e with pubs := max e.w.pubs (s.fills + 1) })) := by
  obtain ⟨hsys, hdrained, -⟩ := by simpa only [passes_cons] using hpass
  have hpubs : (passed e).pubs = e.w.pubs := by unfold passed onward; split <;> rfl
  refine (onSplit_issues he _).trans (congrArg _ ?_)
  simp only [hsys, hdrained, chk_bind_ok, Env.run_ok, issues_pass he, issues_state he, reqsFor, modWave_setWave, hpubs]

/-! ## `IDLEW` (R319) -/

theorem idlew_cases {d : SR} {a b : Src} {s : State} {e : Env} (he : Issues (.idlew d a b) s e) :
    (∀ v, e.slot.st = .blocked (.woken v) → exec (.idlew d a b) s = .next (landed s e (oneScl e e.w d v false false))) ∧
    ((∀ v, e.slot.st ≠ .blocked (.woken v)) → chkSys e false [(7, a)] [(8, b)] ([], [d.toNat]) = .ok () →
      ((e.ssrc .s32 b).1.getLsbD 0 = true → e.priv = true) →
      ((e.psrc a).1.toNat ≤ s.timeNs → exec (.idlew d a b) s = .next (landed s e (oneScl e e.w d 0 false false))) ∧
      (s.timeNs < (e.psrc a).1.toNat → exec (.idlew d a b) s = .next (settle (s.setWave e.gi e.wi
        (e.w.modSlot e.k fun x => { x with st := .blocked (.idle d (e.psrc a).1 ((e.ssrc .s32 b).1.getLsbD 0)) })) e.gi e.wi))) := by
  have hexec : exec (.idlew d a b) s = _ := onSplit_issues he _
  refine ⟨fun v hv => ?_, fun hsleeps hsys hpriv => ?_⟩
  · have hwoken : e.slot.wokenBy = some v := by simp only [Slot.wokenBy, hv]
    rw [hexec]
    simp only [hwoken, Env.run_ok, sclPut_eq he e.w rfl]
  · have hwoken : e.slot.wokenBy = none := by
      unfold Slot.wokenBy
      split
      · exact absurd ‹_› (hsleeps _)
      · rfl
    have hval := needVal_ok e b (fun x => !x.getLsbD 0 || e.priv) (trIllegal e 3 0 false) (by
      cases hbit : (e.ssrc .s32 b).1.getLsbD 0
      · rfl
      · exact hpriv hbit)
    simp only [hwoken, hval, hsys, chk_bind_ok, issues_state he, needWait] at hexec
    refine ⟨fun hpast => ?_, fun hfuture => ?_⟩
    · rw [hexec, decide_eq_true hpast, if_pos rfl, chk_bind_ok, Env.run_ok, sclPut_eq he e.w rfl]
    · rw [hexec, decide_eq_false (Nat.not_le.2 hfuture), if_neg (by decide), chk_bind_error]
      exact congrArg _ (issues_wait he _)

/-- Settles O39: each word is its checks, then one reading or one change of a counter. -/
theorem clockAndFaultWords : Obligations.ClockAndFaultWords := by
  unfold Obligations.ClockAndFaultWords
  refine ⟨fun d a b s e => ⟨clkrdTime_completes, clkrdCyc_completes, perfrd_completes, perfcfg_completes⟩,
    fun ok d a b s e => ⟨?_, fun v he hv => (idlew_cases he).1 v hv, fun he => (idlew_cases he).2⟩⟩
  cases ok <;> exact fltres_completes

end Sys2Proof
end

section
/-! SUPPORT. The fused softmax sequence (R130, R131) and `XVEC` (R154-R158). -/

namespace Sys2Proof

open Sys2Proof.Machine Sys2Proof.Claims

/-! ## The fused sequence -/

/-- The sequence's words leave the splits as they are. -/
theorem fusedRun_slot (e : Env) (empty : Mask) (k : Bool) (vs : List VecWord) : ∀ (first : Bool) (w w' : Wave),
    fusedRun e empty first w vs = .ok w' → w'.slot k = w.slot k := by
  induction vs with
  | nil => intro first w w' h; cases h; rfl
  | cons v vs ih =>
    intro first w w' h
    have hstep (rs : List LaneOut) (hrs : (if fpLanes e.w.fpen rs != 0
        then .error (w.setFlags (allFlags rs), allFlags rs &&& e.w.fpen, fpLanes e.w.fpen rs)
        else fusedRun e empty false (vecWrite (w.setFlags (allFlags rs)) v e.act rs) vs) = Except.ok w') :
        w'.slot k = w.slot k := by
      split at hrs
      · cases hrs
      · rw [ih _ _ _ hrs]
        unfold vecWrite
        cases v.nw <;> cases k <;> rfl
    exact hstep _ h

/-- Settles O43: the checks pass, the run of the four words is given, and the split goes on by four words. -/
theorem fusedSequenceCompletes : Obligations.FusedSequenceCompletes := by
  unfold Obligations.FusedSequenceCompletes
  intro g x m y sum s e w i he hpass hbad hrun onFour
  obtain ⟨hfoot, hbusy, -⟩ := by simpa only [passes_cons] using hpass
  have hpoison : chkPoisonV e.act [(x.toNat, (e.w.vreg x.toNat).bad)] 0 = .ok () := by simp [chkPoisonV, hbad]
  have hslot := fusedRun_slot e _ e.k _ true e.w w hrun
  refine (onSplit_issues he _).trans (congrArg _ ?_)
  simp only [hfoot, hbusy, hpoison, hrun, chk_bind_ok, Env.run_ok, issues_done he]
  refine Eq.trans (landed_of_act_eq he _ ?mask) ?wave
  case mask =>
    rw [onward_act]
    have hact : (w.slot e.k).act = e.act := congrArg Slot.act hslot
    cases hk : e.k <;> rw [hk] at hact <;> simpa [Wave.modSlot, Wave.slot, Wave.setSlot] using hact
  case wave =>
    refine congrArg (s.setWave e.gi e.wi) ?_
    cases hk : e.k <;> simp [onward, Wave.modSlot, Wave.slot, Wave.setSlot, onFour, BitVec.add_assoc]

/-! ## `XVEC` -/

/-- A wave changed by a function, by the wave that is there. -/
theorem modWave_eq (s : State) (gi wi : Nat) (f : Wave → Wave) (w : Wave) (hw : s.wave? gi wi = some w) :
    s.modWave gi wi f = s.setWave gi wi (f w) := by
  unfold State.wave? at hw
  split at hw
  · next g hg => exact modWave_eq_setWave s gi wi f g w hg hw
  · cases hw

/-- The wave after an `XVEC` without a dropped lane. -/
def exchanged (w : Wave) (k : Bool) : Wave :=
  onward { w with xfault := 0, latches := loseLatches (shifted w .untagged false) } k

theorem xEnd_of_none_dropped (e : Env) (r : XRun) (hdrop : r.drop = 0) (w : Wave) (hw : r.s.wave? e.gi e.wi = some w)
    (hpark : (w.slot e.k).st ≠ .parked) : xEnd e [] r = r.s.setWave e.gi e.wi (exchanged w e.k) := by
  have hpark' : ∀ v : Wave, v.slot e.k = w.slot e.k → ((v.slot e.k).st == .parked) = false := fun v hv => by
    rw [hv]
    exact beq_false_of_ne hpark
  simp only [xEnd, List.foldl_nil, hdrop, bne_self_eq_false, Bool.false_eq_true, if_false]
  rw [modWave_eq r.s _ _ _ w hw, modWave_setWave, hpark' _ (by cases e.k <;> rfl), if_neg (by decide), advance_eq_onward]
  rfl

section
variable (w : Wave) (k : Bool)

theorem exchanged_fields : (exchanged w k).xfault = 0 ∧ (exchanged w k).vregs = w.vregs ∧ (exchanged w k).sregs = w.sregs ∧
    (exchanged w k).flags = w.flags ∧ (exchanged w k).ops = w.ops ∧
    (exchanged w k).latches = loseLatches (shifted w .untagged false) := by
  cases k <;> exact ⟨rfl, rfl, rfl, rfl, rfl, rfl⟩

theorem exchanged_slot : ((exchanged w k).slot k).pc = (w.slot k).pc + 8 ∧ ((exchanged w k).slot k).st = .ready := by
  cases k <;> exact ⟨rfl, rfl⟩

end

/-- Settles O44: no lane is dropped, so what is left after the groups is the end of the word. -/
theorem exchangeWordCompletes : Obligations.ExchangeWordCompletes := by
  unfold Obligations.ExchangeWordCompletes
  intro n s e r he hpass hops hbad hbad' hlegal hissue hdrop w hw hpark
  obtain ⟨hfoot, hbusy, -⟩ := by simpa only [passes_cons] using hpass
  have hclear : chkClear e (fun o => [60, 61, 62].any o.dst.hitsS) = .ok () := by
    have hnone : e.w.ops.any (fun o => [60, 61, 62].any o.dst.hitsS) = false := by
      simp only [List.any_eq_false, List.any_cons, List.any_nil, Bool.or_false, Bool.or_eq_true]
      intro o ho
      obtain ⟨h0, h1, h2⟩ := hops o ho
      simp [h0, h1, h2]
    simp only [chkClear, hnone, needWait]
    rfl
  have hpoison : chkPoisonV e.act [(n.toNat, (e.w.vreg n.toNat).bad), (n.toNat + 1, (e.w.vreg (n.toNat + 1)).bad)] 0 = .ok () := by
    simp [chkPoisonV, hbad, hbad']
  have hall : (groupWords (laneWords e n)).filter (fun p => isLegal e p.1) = groupWords (laneWords e n) :=
    List.filter_eq_self.2 hlegal
  have hnone : (groupWords (laneWords e n)).filter (fun p => !isLegal e p.1) = [] :=
    List.filter_eq_nil_iff.2 fun p hp => by simp [hlegal p hp]
  obtain ⟨hxfault, hvregs, hsregs, hflags, hwops, hlatches⟩ := exchanged_fields w e.k
  obtain ⟨hpc, hready⟩ := exchanged_slot w e.k
  refine ⟨exchanged w e.k, ?_, hxfault, hlatches ▸ mem_loseLatches _, hpc, hready, hvregs, hsregs, hflags, hwops⟩
  refine (onSplit_issues he _).trans (congrArg _ ?_)
  simp only [hfoot, hclear, hbusy, hpoison, chk_bind_ok, hall, hnone, issues_state he, hissue, Env.run_ok]
  exact xEnd_of_none_dropped e r hdrop w hw hpark

end Sys2Proof
end

section
/-! SUPPORT. The fences (R180, R259, R268, R270, R271). -/

namespace Sys2Proof

open Sys2Proof.Machine Sys2Proof.Claims

/-- Every operation of the wave that started before the word is a plain store of another colour. -/
def Drained (e : Env) (cols : BitVec 8) : Prop :=
  ∀ o ∈ e.w.ops, o.id < e.upto → isPlainStore o.kind = true ∧ isRel o = false ∧ cols.getLsbD o.col.toNat = false

theorem holdsFence_eq_false (cols : BitVec 8) (o : MemOp) :
    holdsFence cols o = false ↔ isPlainStore o.kind = true ∧ isRel o = false ∧ cols.getLsbD o.col.toNat = false := by
  simp [holdsFence, and_assoc]

theorem any_holdsFence (e : Env) (cols : BitVec 8) :
    (e.w.ops.any fun o => o.id < e.upto && holdsFence cols o) = false ↔ Drained e cols := by
  simp only [List.any_eq_false, Bool.and_eq_true, decide_eq_true_eq, not_and, Bool.not_eq_true, holdsFence_eq_false, Drained]

theorem chkDrained_ok (e : Env) (cols : BitVec 8) (h : Drained e cols) : chkDrained e cols = .ok () := by
  rw [chkDrained, (any_holdsFence e cols).2 h]
  rfl

theorem chkDrained_waits (e : Env) (cols : BitVec 8) (h : ¬Drained e cols) :
    chkDrained e cols = .error (.wait (.fence cols e.upto)) := by
  rw [chkDrained, Bool.eq_true_of_not_eq_false (mt (any_holdsFence e cols).1 h)]
  rfl

/-- Settles O28: a fence is its waits in order, then the acquire and the raise. -/
theorem fencesComplete : Obligations.FencesComplete := by
  unfold Obligations.FencesComplete
  intro scope cols f t s e drained acquired raised
  have hraise (he : e.pass = herePast e s) : raiseAt e.pass e scope.toNat = raised := by rw [he]; rfl
  refine ⟨fun he hdrained => ?_, fun he hdrained => ?_, ?_⟩
  · refine (onSplit_issues he _).trans (congrArg _ ?_)
    rw [chkDrained_ok e cols hdrained, chk_bind_ok, Env.run_ok, hraise (issues_pass he)]
  · refine (onSplit_issues he _).trans (congrArg _ ?_)
    rw [chkDrained_waits e cols hdrained, chk_bind_error]
    exact issues_wait he _
  · intro wide cols' arrived waits he
    have hcols : (if f == .v then 0xFF else 0 : BitVec 8) = cols' := by simp only [cols', beq_iff_eq]
    have harrived : (f != .v || !e.s.owing e.gi (2 ≤ scope.toNat)) = true ↔ arrived := by
      simp only [Bool.or_eq_true, bne_iff_ne, Bool.not_eq_true', issues_state he, arrived, wide]
      exact imp_iff_not_or.symm
    have hexec : exec (.xfence scope f t) s = _ := onSplit_issues he _
    simp only [hcols, needWait, harrived] at hexec
    refine ⟨fun harr hdrained => ?_, fun harr hdrained => ?_, fun harr => ?_⟩
    · rw [hexec, if_pos harr, chkDrained_ok e cols' hdrained, chk_bind_ok, chk_bind_ok, Env.run_ok, hraise (issues_pass he)]
    · rw [hexec, if_pos harr, chkDrained_waits e cols' hdrained, chk_bind_ok, chk_bind_error]
      exact congrArg _ (issues_wait he _)
    · rw [hexec, if_neg harr, chk_bind_error]
      exact congrArg _ (issues_wait he _)

end Sys2Proof
end

section
/-! SUPPORT. The release of a wave whose divergence stack lies in the line before its barrier object (R182, R316). -/

namespace Sys2Proof

open Sys2Proof.Machine Sys2Proof.Claims

/-- A barrier object in the line after the one-entry divergence stack of `freshWave`. -/
def nearObject : Loc := .mem 0x4080

/-- A wave with one stack entry that has arrived at the object. -/
def arrivedWave : Wave := { freshWave with dsp := 1, bars := [⟨allLanes, 0x10000, nearObject, 0x4080, true, none, false⟩] }

/-- A gang of the system context with that wave. -/
def arrivedGang : Gang := { soleGang arrivedWave with ctx := Config.sysCtx }

/-- A machine in which the tag of the stack's line holds 129 stored bytes, one more than a line. -/
def overlongStackTag : State :=
  { soleState arrivedWave with
    gangs := [arrivedGang], ctxs := [{ placedCtx with id := Config.sysCtx }]
    tags := [⟨128, 0, 0, some (List.replicate 129 1)⟩] }

/-- Refutes O30: the statement keeps the object clear of the lines of every divergence stack, but assumes nothing of the bytes
that a line's tag holds as stored. The release of the waiting wave fills its stack's line from 129 of them, and the 129th falls
on the object's ARRIVED, which then reads 1 instead of 0. -/
theorem not_arriveCounts : ¬ Obligations.ArriveCounts := by
  unfold Obligations.ArriveCounts
  intro h
  have hclear : ClearOfStacks overlongStackTag nearObject := by
    intro k hk g hg w hw
    cases hk
    have hg : g = arrivedGang := List.mem_singleton.1 hg
    subst hg
    have hw : w = arrivedWave := List.mem_singleton.1 hw
    subst hw
    exact Or.inr (by decide +kernel)
  obtain ⟨-, hfull, -⟩ := h overlongStackTag 0 arrivedGang nearObject 1 rfl (by decide +kernel) (by decide +kernel) hclear
  obtain ⟨-, -, harrived⟩ := hfull ⟨by decide, by decide +kernel⟩
  have hone : (arrive overlongStackTag 0 nearObject 1).objNum 0 nearObject 0 = 1 := by decide +kernel
  rw [hone] at harrived
  exact absurd harrived (by decide +kernel)

end Sys2Proof
end

section
/-! SUPPORT. The barrier words (R182, R26). -/

namespace Sys2Proof

open Sys2Proof.Machine Sys2Proof.Claims

/-! ## Words that act once on one place -/

/-- What an access leaves behind changes the machine beside the issuing split's view of it. -/
theorem noteOne_eq (e : Env) (o : OneAsk) : noteOne e o = { e with s := (noteOne e o).s } := by
  unfold noteOne
  dsimp only
  split <;> rfl

theorem onPlace_reached (e : Env) (o : OneAsk) (l : Loc) (h : chkOnePlace e o = .ok (.at' l)) (f : Env → Loc → Chk State) :
    onPlace e o f = f { e with s := (noteOne e o).s } l := by
  simp only [onPlace, h, chk_bind_ok]
  rw [← noteOne_eq]

/-- The split goes on in a machine that its access has changed. -/
theorem pass_in (e : Env) (t : State) : ({ e with s := t } : Env).pass = herePast e t := by
  rw [Env.pass, Env.put, advance_eq_onward, pushNone_onward]
  rfl

theorem startValue_in (e : Env) (t : State) (o : OneAsk) (l : Loc) (d : SR) (n : Nat) (x : D) (bad : Bool) :
    startValue { e with s := t } o l d n x bad = t.setWave e.gi e.wi (begun e (valueOp { e with s := t } o l d n x bad)) := by
  rw [startValue, Env.put, advance_eq_onward, Wave.pushNone, onward_push]
  refine congrArg (t.setWave e.gi e.wi) ?_
  cases hk : e.k <;> simp only [begun, passed, onward, hk] <;> rfl

section
variable {d : SR} {a b : Src} {im : I25} {s : State} {e : Env} {l : Loc}

theorem bari_completes (he : Issues (.bari d a im) s e) :
    let o := { barAsk a im true none with rd := ([], [d.toNat, d.toNat + 1]), pre := eatScl e.w d.toNat 2 }
    chkOnePlace e o = .ok (.at' l) →
    let u := (noteOne e o).s
    let c := (e.w.sreg e.k (d.toNat + 1)).toNat
    exec (.bari d a im) s = .next (if u.rangeBad e.gi l 16 then herePast e u
      else (herePast e u).putObj e.gi l 0 [0, (e.w.sreg e.k d.toNat).toNat,
        c / 256 % 64 * 256 + min (c % 8) 5 * 2 + u.objNum e.gi l 8 % 2]) := by
  intro o hreached u c
  refine (onSplit_issues he _).trans (congrArg _ ((congrArg e.run (onPlace_reached e o l hreached _)).trans ?_))
  simp only [pass_in]
  exact run_ite_ok e _ _ _

/-- The operations that an arrival waits for (R184, R258). -/
def Held (e : Env) (pub : Nat) : Prop := ∃ q ∈ e.w.ops, q.id < e.upto ∧ holdsArrival pub q = true

theorem any_holdsArrival (e : Env) (pub : Nat) :
    (e.w.ops.any fun o => o.id < e.upto && holdsArrival pub o) = true ↔ Held e pub := by
  simp only [List.any_eq_true, Bool.and_eq_true, decide_eq_true_eq, Held]

theorem bara_completes (he : Issues (.bara d a b im) s e) :
    let o := { barAsk a im true (some b) with wr := ([], [d.toNat]) }
    Passes [chkCtr e (if isSpadForm im then .sp else .vl)] → chkOnePlace e o = .ok (.at' l) →
    let u := (noteOne e o).s
    let pub := objPub u e.gi l
    let gen := BitVec.ofNat 64 (u.objNum e.gi l 12)
    (¬Held e pub → exec (.bara d a b im) s = .next (arrive
      ((sawPhase (u.setWave e.gi e.wi (begun e (valueOp (noteOne e o) o l d 1 gen (u.rangeBad e.gi l 16))))
        e.gi e.wi e.act l).modWave e.gi e.wi fun w => { w with arrSeq := e.upto }) e.gi l (e.ssrc .s32 b).1.toNat)) ∧
    (Held e pub → exec (.bara d a b im) s = .next (settle (s.setWave e.gi e.wi
      (e.w.modSlot e.k fun x => { x with st := .blocked (.publish e.upto (pub != 0)) })) e.gi e.wi)) := by
  intro o hctr hreached u pub gen
  obtain ⟨hctr, -⟩ := by simpa only [passes_cons] using hctr
  have hexec : exec (.bara d a b im) s = .next (e.run (needWait (!e.w.ops.any fun q => q.id < e.upto && holdsArrival pub q)
      (.publish e.upto (pub != 0)) >>= fun _ => .ok (arrive
        ((sawPhase (startValue { e with s := u } o l d 1 gen (u.rangeBad e.gi l 16)) e.gi e.wi e.act l).modWave e.gi e.wi
          fun w => { w with arrSeq := e.upto }) e.gi l (e.ssrc .s32 b).1.toNat))) := by
    refine (onSplit_issues he _).trans (congrArg _ ?_)
    simp only [hctr, chk_bind_ok]
    exact congrArg e.run (onPlace_reached e o l hreached _)
  rw [startValue_in, ← noteOne_eq] at hexec
  refine ⟨fun hfree => ?_, fun hheld => ?_⟩
  · rw [hexec, Bool.eq_false_of_not_eq_true (mt (any_holdsArrival e pub).1 hfree)]
    rfl
  · rw [hexec, (any_holdsArrival e pub).2 hheld]
    exact congrArg _ (issues_wait he _)

theorem barw_completes (he : Issues (.barw a b im) s e) :
    let o := barAsk a im false (some b)
    chkOnePlace e o = .ok (.at' l) →
    let u := (noteOne e o).s
    (BitVec.ofNat 32 (u.objNum e.gi l 12) ≠ (e.ssrc .s32 b).1 →
      exec (.barw a b im) s = .next (sawPhase (herePast e u) e.gi e.wi e.act l)) ∧
    (BitVec.ofNat 32 (u.objNum e.gi l 12) = (e.ssrc .s32 b).1 →
      exec (.barw a b im) s = .next (settle (s.setWave e.gi e.wi
        (e.w.modSlot e.k fun x => { x with st := .blocked (.barw l (e.ssrc .s32 b).1) })) e.gi e.wi)) := by
  intro o hreached u
  have hexec : exec (.barw a b im) s = .next (e.run (needWait (BitVec.ofNat 32 (u.objNum e.gi l 12) != (e.ssrc .s32 b).1)
      (.barw l (e.ssrc .s32 b).1) >>= fun _ => .ok (sawPhase ({ e with s := u } : Env).pass e.gi e.wi e.act l))) :=
    (onSplit_issues he _).trans (congrArg _ (congrArg e.run (onPlace_reached e o l hreached _)))
  refine ⟨fun hnew => ?_, fun hold => ?_⟩
  · rw [hexec, needWait, if_pos (bne_iff_ne.2 hnew), chk_bind_ok, Env.run_ok, pass_in]
  · rw [hexec, needWait, if_neg (by simp [hold]), chk_bind_error]
    exact congrArg _ (issues_wait he _)

theorem bar_completes (he : Issues (.bar a im) s e) :
    let o := barAsk a im true none
    chkOnePlace e o = .ok (.at' l) →
    exec (.bar a im) s = .next (settle ((noteOne e o).s.setWave e.gi e.wi
      (({ e.w with
          latches := shifted e.w .untagged false
          bars := ⟨e.act, e.slot.pc, l, addrVal im (baseVal e a im).1 0, false, none, false⟩ ::
            (e.w.bars.map fun x => { x with lanes := x.lanes &&& ~~~e.act }).filter fun x => x.lanes != 0 } : Wave).modSlot
        e.k fun x => { x with st := .barWait })) e.gi e.wi) := by
  intro o hreached
  exact (onSplit_issues he _).trans (congrArg _ (congrArg e.run (onPlace_reached e o l hreached _)))

theorem barq_completes (he : Issues (.barq d a im) s e) :
    let o := { barAsk a im false none with wr := ([], [d.toNat, d.toNat + 1]) }
    Passes [chkCtr e (if isSpadForm im then .sp else .vl)] → chkOnePlace e o = .ok (.at' l) →
    let u := (noteOne e o).s
    let x := joinPair (BitVec.ofNat 32 (u.objNum e.gi l 12)) (BitVec.ofNat 32 (u.objNum e.gi l 0))
    exec (.barq d a im) s = .next (sawPhase (u.setWave e.gi e.wi
      (begun e (valueOp (noteOne e o) o l d 2 x (u.rangeBad e.gi l 16)))) e.gi e.wi e.act l) := by
  intro o hctr hreached u x
  obtain ⟨hctr, -⟩ := by simpa only [passes_cons] using hctr
  refine (onSplit_issues he _).trans (congrArg _ ?_)
  simp only [hctr, chk_bind_ok]
  refine (congrArg e.run (onPlace_reached e o l hreached _)).trans ?_
  rw [noteOne_eq e o]
  exact congrArg (sawPhase · e.gi e.wi e.act l) (startValue_in e u o l d 2 x _)

end

/-- Settles O29: each word is its checks at its place, then one change of the object or of the wave. -/
theorem barrierWordsComplete : Obligations.BarrierWordsComplete := by
  unfold Obligations.BarrierWordsComplete
  intro d a b i s e l reached noted ctr
  refine ⟨?_, ?_, ?_, ?_, ?_⟩
  · intro o he
    exact bari_completes he
  · intro o he
    exact bara_completes he
  · intro o he
    exact barw_completes he
  · intro o he
    exact bar_completes he
  · intro o he
    exact barq_completes he

end Sys2Proof
end

section
/-! SUPPORT. The trough words (R185, R332). -/

namespace Sys2Proof

open Sys2Proof.Machine Sys2Proof.Claims

section
variable {d : VR} {c : SR} {a : Src} {im : I25} {s : State} {e : Env} {off t : Nat} {x : Trough}

/-- An access to the scratchpad leaves nothing behind. -/
theorem onPlace_spad (e : Env) (o : OneAsk) (l : Loc) (hspad : isSpadForm o.q.i = true) (h : chkOnePlace e o = .ok (.at' l))
    (f : Env → Loc → Chk State) : onPlace e o f = f e l := by
  have hnote : noteOne e o = e := if_pos hspad
  simp only [onPlace, h, chk_bind_ok, hnote]

theorem setSreg_resv (w : Wave) (k : Bool) (n : Nat) (y : W) (bad : Bool) : (w.setSreg k n y bad).resv = w.resv := by
  unfold Wave.setSreg
  split
  · cases k <;> rfl
  · rfl

theorem slot_acquired (s : State) (gi : Nat) (w : Wave) (m : Mask) (scope : Nat) (k : Bool) :
    onward (s.acquired gi w m scope) k = s.acquired gi (onward w k) m scope := by cases k <;> rfl

/-- The wave of a `TRGTRY` that has written its answer. -/
theorem onward_tried (s : State) (gi : Nat) (m : Mask) (k : Bool) (u : Wave) (off : Nat) (got : Bool) :
    let w : Wave := { onward u k with
      latches := shifted u .untagged false, resv := if got then insertNat off u.resv else u.resv }
    onward (Wave.pushNone (if got then s.acquired gi { u with resv := insertNat off u.resv } m 0 else u)) k
      = if got then s.acquired gi w m 0 else w := by
  cases got <;> cases k <;> rfl

section
variable (hidx : e.g.troughIdx off = some t) (hx : e.g.trough? t = some x) (hhalted : e.g.halted e.w.stage = false)
include hidx hx hhalted

/-- `TRGPUT` at its trough, whose stage neither halts nor stops. -/
theorem exec_trgput (he : Issues (.trgput d a im) s e) (hstop : e.g.stopping = false) (hspad : isSpadForm im = true)
    (hpass : Passes [chkFoot e 6 d.toNat 1, chkDrained e 0xFF])
    (hplace : chkOnePlace e { trgAsk a im with rd := ([d.toNat], []) } = .ok (.at' (.spad off))) :
    exec (.trgput d a im) s = .next (e.run (if x.silo == 0 && x.ring.length < x.slots then
        .ok (putHeader (modTrough (herePast e s) e.gi t fun y => { y with ring := y.ring ++ [slotOf (e.w.vreg d.toNat)] }) e.gi t 1 0)
      else if e.g.siloK == 0 then .error (.wait (.troughFull x.toff))
      else spill e t x (slotOf (e.w.vreg d.toNat)))) := by
  obtain ⟨hfoot, hdrained, -⟩ := by simpa only [passes_cons] using hpass
  refine (onSplit_issues he _).trans (congrArg _ ?_)
  simp only [hfoot, chk_bind_ok]
  refine congrArg e.run ((onPlace_spad e _ _ hspad hplace _).trans ?_)
  simp only [hdrained, chk_bind_ok, spadOff, hidx, hx, hhalted, hstop, Bool.false_and, Bool.false_eq_true, if_false,
    issues_pass he]
  rfl

theorem trgget_completes (he : Issues (.trgget d a im) s e) (hspad : isSpadForm im = true)
    (hpass : Passes [chkFoot e 6 d.toNat 1])
    (hplace : chkOnePlace e { trgAsk a im with wr := ([d.toNat], []) } = .ok (.at' (.spad off))) (v : TSlot) (rest : List TSlot)
    (hring : x.ring = v :: rest) (hfree : x.toff ∈ e.w.resv ∨ reserved e.g x.toff < x.ring.length) :
    exec (.trgget d a im) s = .next (putHeader ((s.setWave e.gi e.wi (s.acquired e.gi { passed e with
        vregs := setAt e.w.vregs d.toNat (takeSlot (e.w.vreg d.toNat) e.act v)
        resv := e.w.resv.filter (· != x.toff) } e.act 0)).modGang e.gi fun g =>
        { g with troughs := modAt g.troughs t fun y => { y with ring := rest } }) e.gi t 0 1) := by
  obtain ⟨hfoot, -⟩ := by simpa only [passes_cons] using hpass
  have hmay : (e.w.resv.contains x.toff || decide (reserved e.g x.toff < x.ring.length)) = true := by
    simpa only [Bool.or_eq_true, decide_eq_true_eq, List.contains_iff_mem] using hfree
  have hring' : x.ring.isEmpty = false := by rw [hring]; rfl
  refine (onSplit_issues he _).trans (congrArg _ ?_)
  simp only [hfoot, chk_bind_ok]
  refine (congrArg e.run (onPlace_spad e _ _ hspad hplace _)).trans ?_
  simp only [spadOff, hidx, hx, hhalted, hring', Bool.and_false, Bool.false_and, Bool.false_eq_true, if_false, hmay, if_true]
  simp only [takeOldest, hring, Env.run_ok, advance_eq_onward, slot_acquired, issues_put he, issues_state he]
  refine congrArg (fun w => putHeader (modTrough (s.setWave e.gi e.wi w) e.gi t _) e.gi t 0 1) ?_
  cases hk : e.k <;> simp only [passed, onward, hk] <;> rfl

theorem trgtry_completes (he : Issues (.trgtry c a im) s e) (hspad : isSpadForm im = true)
    (hplace : chkOnePlace e { trgAsk a im with wr := ([], [c.toNat]) } = .ok (.at' (.spad off))) :
    let got : Bool := e.w.resv.contains off || decide (reserved e.g off < x.ring.length)
    let w : Wave := { onward (e.w.setSreg e.k c.toNat (if got then 1 else 0) false) e.k with
      latches := shifted e.w .untagged false
      resv := if got then insertNat off e.w.resv else e.w.resv }
    exec (.trgtry c a im) s = .next (landed s e (if got then s.acquired e.gi w e.act 0 else w)) := by
  intro got w
  refine (onSplit_issues he _).trans (congrArg _ ?_)
  refine (congrArg e.run (onPlace_spad e _ _ hspad hplace _)).trans ?_
  simp only [spadOff, hidx, hx, hhalted, Option.bind_some, Bool.not_false, Bool.and_true, Env.run_ok, issues_done he,
    issues_state he]
  refine congrArg (landed s e) ?_
  have hlatches (y : W) : (e.w.setSreg e.k c.toNat y false).latches = e.w.latches := setSreg_latches ..
  have hresv (y : W) : (e.w.setSreg e.k c.toNat y false).resv = e.w.resv := setSreg_resv ..
  refine (onward_tried s e.gi e.act e.k _ off got).trans ?_
  simp only [w, shifted, hlatches, hresv]
  rfl

end

/-! ## The silo (R332) -/

theorem spill_full (e : Env) (t : Nat) (x : Trough) (v : TSlot) (h : 16 * e.g.siloK ≤ x.silo) :
    spill e t x v = .error (.trap (trSilo x.toff e.act)) := if_pos h

theorem spill_room (e : Env) (t : Nat) (x : Trough) (v : TSlot) (h : x.silo < 16 * e.g.siloK) (k : Nat)
    (hk : translate e.s e.g ⟨true, false, e.priv⟩ (siloVa e.g t x x.silo) 64 = .ok k) :
    spill e t x v = .ok (putHeader (storePut (noteAccess (modTrough e.pass e.gi t fun y => { y with silo := y.silo + 1 }) e.g
      ⟨true, false, e.priv⟩ (siloVa e.g t x x.silo) 64) e.gi 320 none (slotBytes (.mem k) v)) e.gi t 1 0) := by
  simp only [spill, siloQuota, Nat.not_le.2 h, if_false, hk]

end

/-- Settles O31: at its trough each word is one choice by the ring, the silo and the quota. -/
theorem troughWordsComplete : Obligations.TroughWordsComplete := by
  unfold Obligations.TroughWordsComplete
  intro d c a i s e off t x ask put get try' hidx hx hhalted hstop hspad
  refine ⟨?_, fun he hpass hplace v rest hring hfree => ?_, fun he hplace => ?_⟩
  · intro he hpass hplace
    have hexec := exec_trgput hidx hx hhalted he hstop hspad hpass hplace
    have hroom : (x.silo == 0 && x.ring.length < x.slots) = true ↔ x.silo = 0 ∧ x.ring.length < x.slots := by simp
    refine ⟨fun hsilo hlen => ?_, fun hfull hno => ?_, ?_, fun hfull hyes hquota => ?_⟩
    · rw [hexec, if_pos (hroom.2 ⟨hsilo, hlen⟩)]
      rfl
    · rw [hexec, if_neg (mt hroom.1 hfull), if_pos (beq_iff_eq.2 hno)]
      exact congrArg _ (issues_wait he _)
    · intro hfull hquota va k hk
      have hyes : ¬(e.g.siloK == 0) = true := by
        rw [beq_iff_eq]
        omega
      rw [← issues_state he] at hk
      rw [hexec, if_neg (mt hroom.1 hfull), if_neg hyes, spill_room e t x _ hquota k hk, Env.run_ok, issues_pass he]
      rfl
    · rw [hexec, if_neg (mt hroom.1 hfull), if_neg (mt beq_iff_eq.1 hyes), spill_full e t x _ hquota]
      exact congrArg _ (issues_trap he _)
  · exact trgget_completes hidx hx hhalted he hspad hpass hplace v rest hring hfree
  · exact trgtry_completes hidx hx hhalted he hspad hplace

end Sys2Proof
end

section
/-! SUPPORT. What a memory word starts when every page it needs is there, and what its translations leave behind
(R168-R170, R299). -/

namespace Sys2Proof

open Sys2Proof.Machine Sys2Proof.Claims

/-! ## A memory word starts its operation (R169) -/

/-- A memory word none of whose lanes waits for a page starts its operation. -/
theorem memApply_go {i : Instr} {s : State} {e : Env} (he : Issues i s e) (m : MemWord) (r : Reached) (hparked : r.parked = [])
    (hact : e.act ≠ 0) :
    memApply e m r = (noteGo s e m.q r.go).setWave e.gi e.wi (begun e (memOp e m r.go e.w.opSeq)) := by
  have hnone : lanesIn [] = 0 := by simp [lanesIn, maskOf]
  have hstay : ((0 : Mask) == e.act) = false := beq_eq_false_iff_ne.mpr hact.symm
  simp only [memApply, hparked, List.isEmpty_nil, Bool.not_true, Bool.and_false, Bool.false_eq_true, if_false, hnone, hstay,
    beq_self_eq_true, if_true, postParks, List.foldl_nil, issues_state he, modWave_setWave]
  rw [advance_eq_onward, Wave.pushNone, onward_push]
  refine congrArg ((noteGo s e m.q r.go).setWave e.gi e.wi) ?_
  cases hk : e.k <;> simp only [begun, passed, onward, hk, Wave.addOp] <;> rfl

theorem memRun_go {i : Instr} {s : State} {e : Env} (he : Issues i s e) (m : MemWord) (cls : Src → Bool) (r : Reached)
    (hcheck : memCheck e m cls = .ok r) (hparked : r.parked = []) (hact : e.act ≠ 0) :
    e.run (memRun e m cls) = (noteGo s e m.q r.go).setWave e.gi e.wi (begun e (memOp e m r.go e.w.opSeq)) := by
  rw [memRun, hcheck, chk_bind_ok, Env.run_ok, memApply_go he m r hparked hact]

/-- Without an enabled flag a stamped word is a memory word like the others (R91). -/
theorem stampedRun_of_fpen (e : Env) (m : MemWord) (h : e.w.fpen = 0) : stampedRun e m = memRun e m Src.mi := by
  rw [stampedRun, if_pos (beq_iff_eq.mpr h)]

/-- Every memory word runs its row. -/
theorem exec_memOf {i : Instr} {s : State} {e : Env} {m : MemWord} {cls : Src → Bool} (he : Issues i s e)
    (hrow : memOf e i = some (m, cls)) : exec i s = .next (e.run (memRun e m cls)) := by
  unfold memOf at hrow
  split at hrow
  case h_17 d a b im =>
    split at hrow
    · cases hrow
      exact (onSplit_issues he _).trans
        (congrArg (fun c => Host.Outcome.next (e.run c)) (stampedRun_of_fpen e (mDld d a b im) ‹_›))
    · cases hrow
  case h_18 d a b im =>
    split at hrow
    · cases hrow
      exact (onSplit_issues he _).trans
        (congrArg (fun c => Host.Outcome.next (e.run c)) (stampedRun_of_fpen e (mDadd e.w .dadd d a b im) ‹_›))
    · cases hrow
  case h_22 => cases hrow
  all_goals
    cases hrow
    exact onSplit_issues he _

/-! ## Prefetches (R170) -/

/-- What a prefetch leaves as it is. -/
def Prefetched (s t : State) : Prop :=
  t.gangs = s.gangs ∧ t.mem = s.mem ∧ t.memBad = s.memBad ∧ t.tlb = s.tlb ∧ t.reqs = s.reqs

theorem fillLine_prefetched (s : State) (byre : Nat) (l : Loc) : Prefetched s (fillLine s byre l) := by
  cases l with
  | spad o => exact ⟨rfl, rfl, rfl, rfl, rfl⟩
  | mem k =>
    simp only [fillLine, dropOlds, putLine, Prefetched]
    repeat' split
    all_goals exact ⟨rfl, rfl, rfl, rfl, rfl⟩

theorem fillLines_prefetched (s : State) (byre : Nat) (ls : List Loc) : Prefetched s (fillLines s byre ls) := by
  refine foldl_keeps (Prefetched s) _ (fun t k ht => ?_) _ s ⟨rfl, rfl, rfl, rfl, rfl⟩
  obtain ⟨hgangs, hmem, hbad, htlb, hreqs⟩ := ht
  obtain ⟨hgangs', hmem', hbad', htlb', hreqs'⟩ := fillLine_prefetched t byre (.mem (k * 128))
  exact ⟨hgangs'.trans hgangs, hmem'.trans hmem, hbad'.trans hbad, htlb'.trans htlb, hreqs'.trans hreqs⟩

theorem vpref_completes {llc : Bool} {a b : Src} {im : I25} {s : State} {e : Env} (he : Issues (.vpref llc a b im) s e)
    (hfoot : chkFootSrc e 8 b = .ok ()) :
    ∃ t, exec (.vpref llc a b im) s = .next t ∧ t.gangs = (herePast e s).gangs ∧ t.mem = s.mem ∧ t.memBad = s.memBad ∧
      t.tlb = s.tlb ∧ t.reqs = s.reqs ∧ (llc = true → t = herePast e s) := by
  have hpass : e.pass = herePast e s := issues_pass he
  refine ⟨_, onSplit_issues he _, ?_⟩
  simp only [hfoot, chk_bind_ok, Env.run_ok, hpass]
  cases llc with
  | true => exact ⟨rfl, rfl, rfl, rfl, rfl, fun _ => rfl⟩
  | false =>
    obtain ⟨hgangs, hmem, hbad, htlb, hreqs⟩ := fillLines_prefetched (herePast e s) _ _
    exact ⟨hgangs, hmem, hbad, htlb, hreqs, fun h => absurd h Bool.false_ne_true⟩

/-- Settles O20: a memory word is the checks of its row and then its operation; a prefetch only fills lines. -/
theorem memoryWordCompletes : Obligations.MemoryWordCompletes := by
  unfold Obligations.MemoryWordCompletes
  refine ⟨fun i m cls s e r hrow he hcheck hparked hact => ?_, fun llc a b im s e he hfoot => vpref_completes he hfoot⟩
  rw [exec_memOf he hrow, memRun_go he m cls r hcheck hparked hact]

/-! ## What a translation leaves behind (R299) -/

/-- The machine `t` differs from `s` only in its TLB, its counters and its free values, and where a shadow table is kept in device
memory with the keys of its lines and what the LLC holds. -/
def TlbNoted (s t : State) : Prop :=
  ∃ m tags olds llc n tlb perf,
    t = { s with mem := m, tags := tags, olds := olds, llc := llc, freeCtr := n, tlb := tlb, perf := perf } ∧
      (s.shbase = 0 → m = s.mem ∧ tags = s.tags ∧ olds = s.olds ∧ llc = s.llc)

theorem TlbNoted.refl (s : State) : TlbNoted s s := ⟨_, _, _, _, _, _, _, rfl, fun _ => ⟨rfl, rfl, rfl, rfl⟩⟩

theorem TlbNoted.trans {s t u : State} (hst : TlbNoted s t) (htu : TlbNoted t u) : TlbNoted s u := by
  obtain ⟨m, tags, olds, llc, n, tlb, perf, rfl, hkeep⟩ := hst
  obtain ⟨m', tags', olds', llc', n', tlb', perf', rfl, hkeep'⟩ := htu
  refine ⟨m', tags', olds', llc', n', tlb', perf', rfl, fun h => ?_⟩
  obtain ⟨rfl, rfl, rfl, rfl⟩ := hkeep h
  exact hkeep' h

theorem tlbNoted_setTlb (s : State) (tlb : List TlbEnt) : TlbNoted s { s with tlb := tlb } :=
  ⟨_, _, _, _, _, _, _, rfl, fun _ => ⟨rfl, rfl, rfl, rfl⟩⟩

theorem tlbNoted_bump (s : State) (byre event n : Nat) : TlbNoted s (s.bump byre event n) :=
  ⟨_, _, _, _, _, _, _, rfl, fun _ => ⟨rfl, rfl, rfl, rfl⟩⟩

theorem tlbNoted_took (s : State) : TlbNoted s s.took := ⟨_, _, _, _, _, _, _, rfl, fun _ => ⟨rfl, rfl, rfl, rfl⟩⟩

theorem shadowAdd_tlbNoted (s : State) (leaf : D) (n : Nat) : TlbNoted s (shadowAdd s leaf n) := by
  by_cases hbase : s.shbase = 0
  · have hnone : shadowAdd s leaf n = s := by simp [shadowAdd, hbase]
    rw [hnone]
    exact TlbNoted.refl s
  · obtain ⟨m, tags, olds, llc, c, hline⟩ :=
      accessLine_frame s 0 false true ((s.shbase + 4 * (pteAddr leaf.toNat / 2 ^ 16)) / 128)
    unfold shadowAdd
    simp only [hline]
    split
    · exact TlbNoted.refl s
    · split <;> exact ⟨_, _, _, _, _, _, _, rfl, fun h => absurd h hbase⟩

theorem evictTlb_tlbNoted (s : State) (byre size : Nat) : TlbNoted s (evictTlb s byre size) := by
  unfold evictTlb
  dsimp only
  generalize (if size == 2 ^ 25 then 64 else 1024) = cap
  split
  · exact TlbNoted.refl s
  · split
    · exact ((tlbNoted_took s).trans (tlbNoted_setTlb _ _)).trans (shadowAdd_tlbNoted _ _ _)
    · exact TlbNoted.refl s

/-- An entry enters the TLB, one of the Byre's making room. -/
theorem fillTlb_tlbNoted (s : State) (byre size : Nat) (x : TlbEnt) :
    TlbNoted s { evictTlb (s.bump byre 5 1) byre size with tlb := x :: (evictTlb (s.bump byre 5 1) byre size).tlb } :=
  ((tlbNoted_bump s byre 5 1).trans (evictTlb_tlbNoted _ byre size)).trans (tlbNoted_setTlb _ _)

theorem touchTlb_tlbNoted (s : State) (byre ctx va leaf size : Nat) : TlbNoted s (touchTlb s byre ctx va leaf size) := by
  unfold touchTlb
  split
  · split
    · exact tlbNoted_setTlb s _
    · exact ((shadowAdd_tlbNoted s _ _).trans (tlbNoted_setTlb _ _)).trans (fillTlb_tlbNoted _ byre size _)
  · exact fillTlb_tlbNoted s byre size _

theorem noteTlb_tlbNoted (s : State) (g : Gang) (va n : Nat) : TlbNoted s (noteTlb s g va n) := by
  unfold noteTlb
  split
  · exact TlbNoted.refl s
  · split
    · exact touchTlb_tlbNoted s _ _ _ _ _
    · exact TlbNoted.refl s

theorem noteGo_tlbNoted (s : State) (e : Env) (q : Ask) (go : List (Nat × Nat × Loc)) : TlbNoted s (noteGo s e q go) := by
  unfold noteGo
  split
  · exact TlbNoted.refl s
  · exact foldl_keeps (TlbNoted s) _ (fun t x ht => ht.trans (noteTlb_tlbNoted t e.g x.2.1 q.size)) go s (TlbNoted.refl s)

/-- Settles O21: each lane's access goes through the TLB, which touches memory only for the shadow table. -/
theorem memoryWordFrame : Obligations.MemoryWordFrame := by
  unfold Obligations.MemoryWordFrame
  intro s e q go
  have hlocal : isSpadForm q.i = true ∨ isHay q.i = true → noteGo s e q go = s := fun h => by
    rw [noteGo, if_pos (by simpa using h)]
  obtain ⟨m, tags, olds, llc, n, tlb, perf, ht, hkeep⟩ := noteGo_tlbNoted s e q go
  dsimp only
  refine ⟨?_, ?_, ?_, ?_, ?_, ?_, ?_, ?_, ?_, ?_, ?_, ?_, ?_, ?_, ?_, hlocal, ?_⟩
  case refine_16 => 
    rw [ht]
    exact hkeep
  all_goals rw [ht]

end Sys2Proof
end

section
/-! SUPPORT. How a memory word stops: the checks of R168 on its addresses, what translation through a leaf gives (R302, R308), and
the split that parks at absent pages (R25). -/

namespace Sys2Proof

open Sys2Proof.Machine Sys2Proof.Claims

/-! ## The checks of R168 -/

/-- A check of the lanes' addresses that none of them fails. -/
theorem chkLanes_pass {e : Env} {once : Bool} {as : List (Nat × Nat)} {bad : Nat × Nat → Bool} (t : Nat → Mask → Trap)
    (h : ∀ y ∈ as, bad y = false) : chkLanes e once (as.filter bad) t = .ok () := by
  have hnone : as.filter bad = [] := List.filter_eq_nil_iff.mpr fun y hy => by simp [h y hy]
  rw [hnone]
  rfl

/-- The lanes that a failing address check names. -/
def failMask (e : Env) (once : Bool) (xs : List (Nat × Nat)) : Mask := if once then e.act else lanesIn xs

theorem chkLanes_fail {e : Env} {once : Bool} {bad : List (Nat × Nat)} {x : Nat × Nat} {xs : List (Nat × Nat)}
    (t : Nat → Mask → Trap) (h : bad = x :: xs) :
    chkLanes e once bad t = .error (.trap (t x.2 (failMask e once (x :: xs)))) := by
  rw [h]
  rfl

/-- Global addresses are those of neither the scratchpad nor Hayloft. -/
def isGlobal (q : Ask) : Bool := !isSpadForm q.i && !isHay q.i

/-- Check 5 of R168 on global addresses: translation. -/
def reachPages (e : Env) (q : Ask) (as : List (Nat × Nat)) : Chk Reached := do
  let ts := as.map fun x => (x, translate e.s e.g ⟨q.write, false, e.priv⟩ x.2 q.size)
  match ts.find? fun t => (trFailSub t.2).isSome with
  | some t =>
    chkLanes e q.once ((ts.filter fun t' => trFailSub t'.2 == some ((trFailSub t.2).getD 0)).map (·.1))
      (trAccess ((trFailSub t.2).getD 0))
  | none => .ok ()
  .ok ⟨ts.filterMap fun t => (trKey t.2).map fun k => (t.1.1, t.1.2, .mem k), (ts.filter fun t => trParks t.2).map (·.1)⟩

/-- Check 4 of R168 on addresses of the scratchpad or Hayloft: the bound. -/
def reachLocal (e : Env) (q : Ask) (as : List (Nat × Nat)) : Chk Reached := do
  chkLanes e q.once (as.filter fun x => (if isSpadForm q.i then e.g.spadLen else Config.hayBytes) < x.2 + q.size) (trAccess 1)
  .ok ⟨as.map fun x => (x.1, x.2, if isSpadForm q.i then .spad x.2 else .mem (Config.hayKey e.g.die x.2)), []⟩

/-- The checks of R168 in their order. -/
theorem reach_eq (e : Env) (q : Ask) (as : List (Nat × Nat)) :
    reach e q as = (do
      if isGlobal q then chkLanes e q.once (as.filter fun y => !canonical y.2) (trAccess 0)
      chkLanes e q.once (as.filter fun y => y.2 % q.align != 0) (trAlign 0)
      if isGlobal q then reachPages e q as else reachLocal e q as) := by
  cases hi : q.i with
  | glob hay o sc c1 c2 c3 =>
    cases hay with
    | false => simp [reach, isGlobal, isSpadForm, isHay, hi, reachPages] <;> rfl
    | true => simp [reach, isGlobal, isSpadForm, isHay, hi, reachLocal]
  | spad o sc c1 =>
    simp [reach, isGlobal, isSpadForm, isHay, hi, reachLocal]

section
variable {e : Env} {q : Ask} {as : List (Nat × Nat)} {x : Nat × Nat} {xs : List (Nat × Nat)}

theorem reach_far (hglob : isGlobal q = true) (hfar : as.filter (fun y => !canonical y.2) = x :: xs) :
    reach e q as = .error (.trap (trAccess 0 x.2 (failMask e q.once (x :: xs)))) := by
  rw [reach_eq, if_pos hglob, chkLanes_fail (trAccess 0) hfar, chk_bind_error]

/-- Canonical addresses pass the first check of R168. -/
theorem reach_canonical (hcan : isGlobal q = true → ∀ y ∈ as, (!canonical y.2) = false) :
    reach e q as = (do
      chkLanes e q.once (as.filter fun y => y.2 % q.align != 0) (trAlign 0)
      if isGlobal q then reachPages e q as else reachLocal e q as) := by
  rw [reach_eq]
  cases hglob : isGlobal q with
  | true => rw [if_pos rfl, chkLanes_pass (trAccess 0) (hcan hglob), chk_bind_ok]
  | false => rfl

theorem reach_odd (hcan : isGlobal q = true → ∀ y ∈ as, (!canonical y.2) = false)
    (hodd : as.filter (fun y => y.2 % q.align != 0) = x :: xs) :
    reach e q as = .error (.trap (trAlign 0 x.2 (failMask e q.once (x :: xs)))) := by
  rw [reach_canonical hcan, chkLanes_fail (trAlign 0) hodd, chk_bind_error]

/-- Canonical and aligned addresses leave the last check of R168. -/
theorem reach_aligned (hcan : isGlobal q = true → ∀ y ∈ as, (!canonical y.2) = false)
    (haligned : ∀ y ∈ as, (y.2 % q.align != 0) = false) :
    reach e q as = if isGlobal q then reachPages e q as else reachLocal e q as := by
  rw [reach_canonical hcan, chkLanes_pass (trAlign 0) haligned, chk_bind_ok]

theorem reachLocal_out
    (hout : as.filter (fun y => (if isSpadForm q.i then e.g.spadLen else Config.hayBytes) < y.2 + q.size) = x :: xs) :
    reachLocal e q as = .error (.trap (trAccess 1 x.2 (failMask e q.once (x :: xs)))) := by
  rw [reachLocal, chkLanes_fail (trAccess 1) hout, chk_bind_error]

theorem reachPages_denied {tr : Nat × Nat → Tr} {sub : Nat}
    (htr : tr = fun y => translate e.s e.g ⟨q.write, false, e.priv⟩ y.2 q.size)
    (hfirst : (as.find? fun y => (trFailSub (tr y)).isSome) = some x)
    (hsame : as.filter (fun y => trFailSub (tr y) == some sub) = x :: xs) :
    reachPages e q as = .error (.trap (trAccess sub x.2 (failMask e q.once (x :: xs)))) := by
  subst htr
  have hsub : trFailSub (translate e.s e.g ⟨q.write, false, e.priv⟩ x.2 q.size) = some sub := by
    have hx : x ∈ as.filter _ := hsame ▸ List.mem_cons_self
    simpa using (List.mem_filter.mp hx).2
  have hlist : (as.map fun y => (y, translate e.s e.g ⟨q.write, false, e.priv⟩ y.2 q.size)).find? (fun t => (trFailSub t.2).isSome)
      = some (x, translate e.s e.g ⟨q.write, false, e.priv⟩ x.2 q.size) := by
    simp only [List.find?_map, Function.comp_def, hfirst, Option.map_some]
  simp only [reachPages, hlist, hsub, Option.getD_some, List.filter_map, List.map_map, Function.comp_def, List.map_id',
    chkLanes_fail (trAccess sub) hsame, chk_bind_error]

end

/-! ## Translation through a leaf (R297, R302, R308) -/

theorem translate_leaf (s : State) (g : Gang) (want : Want) (va n x size : Nat) (hcan : canonical va = true)
    (hext : extentFor g va n = none) (hleaf : leafFor s g va = .leaf x size) :
    let tr := translate s g want va n
    let wr : Prop := want.write = true ∧ pteBit x 2 = false
    let pv : Prop := pteBit x 4 = true ∧ want.priv = false
    let ex : Prop := want.exec = true ∧ pteBit x 3 = false
    let here : Prop := pteBit x 7 = false ∨ ptePeer x = Config.pkg ∨ s.reachable (ptePeer x) = true
    (wr → tr = .fail 3) ∧ (¬wr → pv → tr = .fail 4) ∧ (¬wr → ¬pv → ex → tr = .fail 5) ∧
      (¬wr → ¬pv → ¬ex → pteBit x 5 = false → tr = .park) ∧
      (¬wr → ¬pv → ¬ex → pteBit x 5 = true → (here → tr = .ok (leafKey x size va)) ∧ (¬here → tr = .fail 7)) := by
  have htr : translate s g want va n = judgeLeaf s want x size va := by simp [Machine.translate, hcan, hext, hleaf]
  intro tr wr pv ex here
  have hwr : wr ↔ (want.write && !pteBit x 2) = true := by simp [wr]
  have hpv : pv ↔ (pteBit x 4 && !want.priv) = true := by simp [pv]
  have hex : ex ↔ (want.exec && !pteBit x 3) = true := by simp [ex]
  simp only [tr, htr, judgeLeaf, judge, hwr, hpv, hex]
  refine ⟨fun h => ?_, fun h1 h2 => ?_, fun h1 h2 h3 => ?_, fun h1 h2 h3 h4 => ?_, fun h1 h2 h3 h4 => ⟨fun h => ?_, fun h => ?_⟩⟩
  · simp [h]
  · simp [h1, h2]
  · simp [h1, h2, h3]
  · simp [h1, h2, h3, h4]
  · simp only [h1, h2, h3, h4, if_false, Bool.not_true, Bool.false_eq_true]
    rcases h with h | h | h
    · simp [h]
    · simp [h]
    · by_cases hp : (pteBit x 7 && ptePeer x != Config.pkg) = true <;> simp [hp, h]
  · simp only [here, not_or, Bool.not_eq_false, Bool.not_eq_true] at h
    obtain ⟨hbit, hpeer, hreach⟩ := h
    simp [h1, h2, h3, h4, hbit, hpeer, hreach]

/-! ## Parking (R25, R302) -/

/-- A request of context `ctx` for the page of `va` stands on a die. -/
def Requested (s : State) (die ctx va : Nat) : Prop := ∃ q ∈ s.reqs, q.die = die ∧ q.ctx = ctx ∧ q.page = va / 2 ^ 16

theorem addReq_reqs_mono (s : State) (die ctx va kind acc req : Nat) (who : Waiter) {die' ctx' va' : Nat}
    (h : Requested s die' ctx' va') : Requested (addReq s die ctx va kind acc req who).1 die' ctx' va' := by
  obtain ⟨q, hq, hkey⟩ := h
  unfold addReq
  dsimp only
  split
  · refine ⟨_, List.mem_map.mpr ⟨q, hq, rfl⟩, ?_⟩
    split <;> exact hkey
  · exact ⟨q, List.mem_append_left _ hq, hkey⟩

theorem addReq_requested (s : State) (die ctx va kind acc req : Nat) (who : Waiter) :
    Requested (addReq s die ctx va kind acc req who).1 die ctx va := by
  unfold addReq
  dsimp only
  split
  case h_1 r hfind =>
    have hkey := List.find?_some hfind
    simp only [Bool.and_eq_true, beq_iff_eq] at hkey
    obtain ⟨⟨hdie, hctx⟩, hpage⟩ := hkey
    refine ⟨_, List.mem_map.mpr ⟨r, List.mem_of_find?_eq_some hfind, rfl⟩, ?_⟩
    rw [if_pos (beq_self_eq_true _)]
    exact ⟨hdie, hctx, hpage⟩
  case h_2 => exact ⟨_, List.mem_append_right _ (List.mem_singleton.mpr rfl), rfl, rfl, rfl⟩

theorem addReq_gangs (s : State) (die ctx va kind acc req : Nat) (who : Waiter) :
    (addReq s die ctx va kind acc req who).1.gangs = s.gangs := by
  unfold addReq
  dsimp only
  split <;> rfl

/-- What `postPark` keeps as it goes through the lanes: gangs stay, and every page noted so far has its request. -/
def Posted (e : Env) (s : State) (r : State × List Park) : Prop :=
  r.1.gangs = s.gangs ∧ ∀ p ∈ r.2, Requested r.1 e.g.die e.g.ctx p.va

theorem postPark_posted {e : Env} {s : State} {r : State × List Park} (h : Posted e s r) (kind acc : Nat) (x : Nat × Nat) :
    Posted e s (postPark e kind acc r x) ∧ Requested (postPark e kind acc r x).1 e.g.die e.g.ctx x.2 ∧
      ∀ va, Requested r.1 e.g.die e.g.ctx va → Requested (postPark e kind acc r x).1 e.g.die e.g.ctx va := by
  obtain ⟨hgangs, hreqs⟩ := h
  unfold postPark
  dsimp only
  split
  case isTrue hpage =>
    obtain ⟨p, hp, hsame⟩ := List.any_eq_true.mp hpage
    refine ⟨⟨hgangs, fun y hy => ?_⟩, ?_, fun va hva => hva⟩
    · obtain ⟨z, hz, rfl⟩ := List.mem_map.mp hy
      have := hreqs z hz
      split <;> exact this
    · obtain ⟨q, hq, hdie, hctx, hqpage⟩ := hreqs p hp
      exact ⟨q, hq, hdie, hctx, hqpage.trans (beq_iff_eq.mp hsame)⟩
  case isFalse =>
    refine ⟨⟨(addReq_gangs ..).trans hgangs, fun y hy => ?_⟩, addReq_requested .., fun va hva => addReq_reqs_mono _ _ _ _ _ _ _ _ hva⟩
    rcases List.mem_append.mp hy with hy | hy
    · exact addReq_reqs_mono _ _ _ _ _ _ _ _ (hreqs y hy)
    · obtain rfl := List.mem_singleton.mp hy
      exact addReq_requested ..

theorem postParks_posted (e : Env) (kind acc : Nat) (xs : List (Nat × Nat)) (s : State) :
    (postParks s e kind acc xs).1.gangs = s.gangs ∧
      ∀ x ∈ xs, Requested (postParks s e kind acc xs).1 e.g.die e.g.ctx x.2 := by
  have hfold : ∀ (xs : List (Nat × Nat)) (r : State × List Park), Posted e s r →
      Posted e s (xs.foldl (postPark e kind acc) r) ∧
      (∀ va, Requested r.1 e.g.die e.g.ctx va → Requested (xs.foldl (postPark e kind acc) r).1 e.g.die e.g.ctx va) ∧
      ∀ x ∈ xs, Requested (xs.foldl (postPark e kind acc) r).1 e.g.die e.g.ctx x.2 := by
    intro xs
    induction xs with
    | nil => exact fun r h => ⟨h, fun _ hva => hva, by simp⟩
    | cons x xs ih =>
      intro r h
      obtain ⟨hposted, hx, hmono⟩ := postPark_posted h kind acc x
      obtain ⟨hall, hkeep, hrest⟩ := ih _ hposted
      exact ⟨hall, fun va hva => hkeep va (hmono va hva), List.forall_mem_cons.mpr ⟨hkeep _ hx, hrest⟩⟩
  obtain ⟨⟨hgangs, -⟩, -, hreqs⟩ := hfold xs (s, []) ⟨rfl, by simp⟩
  exact ⟨hgangs, hreqs⟩

theorem foldl_joined_slot (ms : List Mask) (w : Wave) (k : Bool) : (ms.foldl Wave.joined w).slot k = w.slot k := by
  induction ms generalizing w with
  | nil => rfl
  | cons m ms ih =>
    rw [List.foldl_cons, ih]
    cases k <;> rfl

/-- Lanes that come together keep latches and registers, and every operation but for its lanes. -/
theorem foldl_joined_keeps (ms : List Mask) (w : Wave) :
    let v := ms.foldl Wave.joined w
    v.ops.map (fun o => { o with act := 0 }) = w.ops.map (fun o => { o with act := 0 }) ∧ v.latches = w.latches ∧
      v.vregs = w.vregs ∧ v.sregs = w.sregs := by
  induction ms generalizing w with
  | nil => exact ⟨rfl, rfl, rfl, rfl⟩
  | cons m ms ih =>
    obtain ⟨hops, hlatches, hvregs, hsregs⟩ := ih (w.joined m)
    refine ⟨hops.trans ?_, hlatches, hvregs, hsregs⟩
    simp only [Wave.joined, mapIf, List.map_map]
    refine List.map_congr_left fun o _ => ?_
    simp only [Function.comp_apply]
    split <;> rfl

/-- What putting splits back makes of their wave; requests stay. -/
theorem putSplits_makes (s : State) (gi wi : Nat) (x : Splits) (w : Wave) (hw : s.wave? gi wi = some w) :
    (s.putSplits gi wi x).wave? gi wi = some { ([x.s0.act, x.s1.act] ++ x.stk.map (·.act)).foldl Wave.joined w with
        slot0 := x.s0, slot1 := x.s1, dsp := x.stk.length, exited := x.exited } ∧
      (s.putSplits gi wi x).reqs = s.reqs := by
  obtain ⟨m, tags, olds, llc, n, hopen⟩ := openArea_frame s gi true w.dsaddr.toNat (64 * x.stk.length)
  simp only [State.putSplits, hw, hopen]
  exact ⟨State.wave?_setWave _ gi wi _ w hw, rfl⟩

/-- The wave of `w` after its split in slot `k` has parked: as it was but for its parks and its memory of which lanes stand
together. -/
def ParkedWave (w v : Wave) (k : Bool) : Prop :=
  v.slot k = { w.slot k with st := .parked } ∧ v.slot (!k) = w.slot (!k) ∧
    v.ops.map (fun o => { o with act := 0 }) = w.ops.map (fun o => { o with act := 0 }) ∧ v.latches = w.latches ∧
    v.vregs = w.vregs ∧ v.sregs = w.sregs

/-- The whole split parks. -/
theorem parkLanes_all {s : State} {e : Env} {w : Wave} (hw : s.wave? e.gi e.wi = some w) (ps : List Park) :
    ∃ v, (parkLanes s e (w.slot e.k).act ps).wave? e.gi e.wi = some v ∧ ParkedWave w v e.k ∧
      (parkLanes s e (w.slot e.k).act ps).reqs = s.reqs := by
  have hslot (k : Bool) : (s.splits e.gi { w with parks := ps ++ w.parks }).slot k = w.slot k := by cases k <;> rfl
  have hw' : ((s.bump e.g.byreId 8 (maskCount (w.slot e.k).act)).setWave e.gi e.wi { w with parks := ps ++ w.parks }).wave?
      e.gi e.wi = some { w with parks := ps ++ w.parks } := State.wave?_setWave _ e.gi e.wi _ w hw
  obtain ⟨hput, hreqs⟩ := putSplits_makes _ e.gi e.wi
    (parkSplits (s.splits e.gi { w with parks := ps ++ w.parks }) e.k (w.slot e.k).act) _ hw'
  simp only [parkLanes, hw]
  refine ⟨_, hput, ?_, hreqs⟩
  simp only [parkSplits, hslot, beq_self_eq_true, if_true]
  obtain ⟨hops, hlatches, hvregs, hsregs⟩ := foldl_joined_keeps
    ([((s.splits e.gi { w with parks := ps ++ w.parks }).set e.k { w.slot e.k with st := .parked }).s0.act,
      ((s.splits e.gi { w with parks := ps ++ w.parks }).set e.k { w.slot e.k with st := .parked }).s1.act] ++
      ((s.splits e.gi { w with parks := ps ++ w.parks }).set e.k { w.slot e.k with st := .parked }).stk.map (·.act))
    { w with parks := ps ++ w.parks }
  refine ⟨?_, ?_, hops, hlatches, hvregs, hsregs⟩ <;> cases hk : e.k <;> rfl

/-- A memory word all of whose lanes wait for pages parks its split. -/
theorem memApply_parks {i : Instr} {s : State} {e : Env} (he : Issues i s e) (m : MemWord) (r : Reached)
    (hparked : r.parked ≠ []) (hall : m.q.once = true ∨ lanesIn r.parked = e.act) :
    ∃ v, (memApply e m r).wave? e.gi e.wi = some v ∧ ParkedWave e.w v e.k ∧
      ∀ p ∈ r.parked, Requested (memApply e m r) e.g.die e.g.ctx p.2 := by
  have hwhole : (if (m.q.once && !r.parked.isEmpty) = true then e.act else lanesIn r.parked) = e.act := by
    rcases hall with h | h
    · simp [h, hparked]
    · rw [h, ite_self]
  obtain ⟨hgangs, hreqs⟩ := postParks_posted e 0 m.q.acc r.parked (noteGo s e m.q r.go)
  have hnote : (noteGo s e m.q r.go).gangs = s.gangs := by
    obtain ⟨_, _, _, _, _, _, _, h, -⟩ := noteGo_tlbNoted s e m.q r.go
    rw [h]
  have hw : (postParks (noteGo s e m.q r.go) e 0 m.q.acc r.parked).1.wave? e.gi e.wi = some e.w := by
    rw [wave?_congr (hgangs.trans hnote), issues_wave he]
  simp only [memApply, issues_state he, hwhole, beq_self_eq_true, if_true]
  obtain ⟨v, hv, hkeep, hsame⟩ := parkLanes_all hw
    (if m.q.once = true then
      (postParks (noteGo s e m.q r.go) e 0 m.q.acc r.parked).2.map fun x => { x with lanes := e.act }
    else (postParks (noteGo s e m.q r.go) e 0 m.q.acc r.parked).2)
  refine ⟨v, hv, hkeep, fun p hp => ?_⟩
  obtain ⟨q, hq, hkey⟩ := hreqs p hp
  exact ⟨q, hsame.symm ▸ hq, hkey⟩

/-! ## The obligation -/

/-- A memory word whose addresses fail a check traps. -/
theorem exec_memOf_traps {i : Instr} {m : MemWord} {cls : Src → Bool} {s : State} {e : Env}
    (hrow : memOf e i = some (m, cls)) (he : Issues i s e) (hpre : memPre e m cls = .ok ()) {t : Trap}
    (hreach : reach e m.q (laneAddrs e m) = .error (.trap t)) : exec i s = .next (takeTrap s e.gi e.wi e.k t) := by
  rw [exec_memOf he hrow, memRun, memCheck, hpre, chk_bind_ok, memReach, hreach, chk_bind_error, chk_bind_error]
  exact congrArg _ (issues_trap he t)

/-- Settles O22: the checks in their order, a case for each permission of a leaf, and the split that parks. -/
theorem memoryWordStops : Obligations.MemoryWordStops := by
  unfold Obligations.MemoryWordStops
  refine ⟨fun i m cls s e x xs hrow he hpre => ?_, fun s g want va n => ?_, fun i m cls s e r hrow he hcheck hparked hall _ => ?_⟩
  · have htraps {t : Trap} := exec_memOf_traps (t := t) hrow he hpre
    intro glob as fails none' far odd out lanes stops sound
    refine ⟨fun hglob hfar => htraps (reach_far hglob hfar), fun hcan hodd => htraps (reach_odd hcan hodd),
      fun hglob hsound hout => ?_, ?_⟩
    · refine htraps ((reach_aligned hsound.1 hsound.2).trans ?_)
      rw [if_neg (Bool.not_eq_true (isGlobal m.q) ▸ show isGlobal m.q = false from hglob)]
      exact reachLocal_out hout
    · intro sub hglob hsound tr hfirst hsame
      refine htraps ((reach_aligned hsound.1 hsound.2).trans ?_)
      rw [if_pos (show isGlobal m.q = true from hglob)]
      exact reachPages_denied (tr := tr) (by rw [issues_state he]) hfirst hsame
  · intro tr
    refine ⟨fun hcan => by simp [tr, Machine.translate, hcan], fun hcan hext => ⟨fun hstale => ?_, fun hleaf => ?_, fun hleaf => ?_,
      fun y size hleaf => translate_leaf s g want va n y size hcan hext hleaf⟩⟩
    · unfold leafFor
      split
      · rw [hstale]
        rfl
      · rfl
    · simp [tr, Machine.translate, hcan, hext, hleaf]
    · simp [tr, Machine.translate, hcan, hext, hleaf]
  · obtain ⟨v, hv, ⟨hslot, hother, hops, hlatches, hvregs, hsregs⟩, hreqs⟩ := memApply_parks he m r hparked hall
    refine ⟨memApply e m r, v, ?_, hv, hslot, hother, hops, hlatches, hvregs, hsregs, hreqs⟩
    rw [exec_memOf he hrow, memRun, hcheck, chk_bind_ok, Env.run_ok]

end Sys2Proof
end

section
/-! SUPPORT. Engine words, queued Churn words and label words (R188-R190, R196, R199, R209-R212, R221, R244-R246, R250): the checks
of an operand block, the arming of the future, and the poisoned operand that ends it. -/

namespace Sys2Proof

open Sys2Proof.Machine Sys2Proof.Claims

/-! ## Operand blocks (R188) -/

theorem blockPre_passes {e : Env} {b : Blk} {c : Chk Unit} (h : Passes (c :: blockPre e b)) :
    c = .ok () ∧ chkBusy e (srcRegs e.w e.k b.base (if b.bsp then 1 else 2)) ([], []) false = .ok () ∧
      chkPoisonS e [(srcNum e.w e.k b.base, blkBad e b)] 1 = .ok () := by
  obtain ⟨hfirst, hbusy, hpoison, -⟩ := by simpa only [blockPre, passes_cons] using h
  exact ⟨hfirst, hbusy, hpoison⟩

/-- The issuing machine once a block has been read. -/
theorem blockNoted_eq (e : Env) (b : Blk) (size : Nat) :
    (if b.bsp then e else { e with s := noteAccess e.s e.g ⟨false, false, e.priv⟩ (blkVa e b) size })
      = { e with s := blockNoted e b size } := by
  rw [blockNoted]
  split <;> rfl

theorem withBlock_reached {e : Env} {f : FR} {b : Blk} {size : Nat} {l : Loc}
    (hpass : Passes (chkArmed e f [⟨7, b.base, blkBaseCls b⟩] :: blockPre e b)) (hat : BlockAt e b size l)
    (go : Env → Loc → Chk State) : withBlock e f b size go = go { e with s := blockNoted e b size } l := by
  obtain ⟨harmed, hbusy, hpoison⟩ := blockPre_passes hpass
  rw [BlockAt] at hat
  simp only [withBlock, harmed, hbusy, hpoison, hat, chk_bind_ok]
  rw [blockNoted_eq]

/-- Arming and going on, in a machine that the word has changed. -/
theorem pass_armed_in (e : Env) (t : State) (f : FR) (cls : PClass) :
    ({ e with s := t, w := e.w.arm f cls } : Env).pass = t.setWave e.gi e.wi (armedWave e f cls) := by
  rw [Env.pass, Env.put, advance_eq_onward, pushNone_onward]
  refine congrArg (t.setWave e.gi e.wi) ?_
  cases hk : e.k <;> simp only [armedWave, passed, onward, hk, Wave.arm, Wave.setFut] <;> rfl

theorem startOp_in (e : Env) (t : State) (f : FR) (o : EngOp) : startOp { e with s := t } f o = opStarted e t f o :=
  congrArg (fun u : State => u.modGang e.gi fun g => { g with eops := g.eops ++ [o], nextOp := g.nextOp + 1 })
    (pass_armed_in e t f o.pclass)

theorem startEntry_in (e : Env) (t : State) (f : FR) (q : ChEntry) : startEntry { e with s := t } f q = entryStarted e t f q :=
  congrArg (fun u : State => enqueue u e.gi q) (pass_armed_in e t f .m)

theorem startEntry_eq {i : Instr} {s : State} {e : Env} (he : Issues i s e) (f : FR) (q : ChEntry) :
    startEntry e f q = entryStarted e s f q := by
  rw [← issues_state he]
  exact startEntry_in e e.s f q

/-! ## Block-form commands (R188) -/

theorem chkPriv_of (e : Env) (h : e.priv = true) : chkPriv e = .ok () := by simp [chkPriv, need, h]

/-- Every block-form command is `blockWord` of its row, `HAYFILL` in a privileged wave. -/
theorem exec_blockOf {i : Instr} {f : FR} {b : Blk} {op variant : Nat} {cls : PClass} {s : State} {e : Env}
    (hrow : blockOf i = some (f, b, op, variant, cls)) (he : Issues i s e) (hpriv : isPrivWord i = true → e.priv = true) :
    exec i s = .next (e.run (blockWord e f b op variant cls)) := by
  unfold blockOf at hrow
  split at hrow
  case h_12 =>
    cases hrow
    refine (onSplit_issues he _).trans (congrArg _ ?_)
    rw [chkPriv_of e (hpriv rfl), chk_bind_ok]
  case h_13 => cases hrow
  all_goals
    cases hrow
    exact onSplit_issues he _

theorem blockWord_starts {e : Env} {f : FR} {b : Blk} {op variant : Nat} {cls : PClass} {l : Loc}
    (hpass : Passes (chkArmed e f [⟨7, b.base, blkBaseCls b⟩] :: blockPre e b)) (hat : BlockAt e b 64 l) :
    e.run (blockWord e f b op variant cls) = opStarted e (blockNoted e b 64) f
      (newOp e f (.block op variant) (blkVa e b) b.bsp (blkBytes { e with s := blockNoted e b 64 } l 64) cls) := by
  rw [blockWord, withBlock_reached hpass hat, Env.run_ok, startOp_in]
  rfl

/-- Arming a Pending future stops a word once the class of its latch operand has passed (R19, R306). -/
theorem chkArmed_pending {e : Env} {f : FR} {x : Fld} (hclass : latchClass e x = true) (hpending : (e.w.fut f.toNat).st = .pending) :
    chkArmed e f [x] = .error (.trap (trFuture 1 (0xC0 + f.toNat) e.act)) := by
  simp [chkArmed, chkAll, need, hclass, chkArm, hpending]

theorem blockWord_pending {i : Instr} {s : State} {e : Env} (he : Issues i s e) {f : FR} {b : Blk} {op variant : Nat} {cls : PClass}
    (hclass : latchClass e ⟨7, b.base, blkBaseCls b⟩ = true) (hpending : (e.w.fut f.toNat).st = .pending) :
    e.run (blockWord e f b op variant cls)
      = takeTrap s e.gi e.wi e.k ⟨10, 1, 0, BitVec.ofNat 64 (0xC0 + f.toNat), e.act⟩ := by
  rw [blockWord, withBlock, chkArmed_pending hclass hpending, chk_bind_error]
  exact issues_trap he _

/-! ## Operands that end the future (R189) -/

/-- The machine in which a poisoned operand has ended the future that its word arms. -/
def failedArming (s : State) (e : Env) (f : FR) (cls : PClass) : State :=
  s.setWave e.gi e.wi
    { e.w with futs := setAt e.w.futs f.toNat ⟨.failed, statusWord 3 .failed, (e.w.fut f.toNat).serial + 1, cls⟩ }

theorem poisonOp_eq {i : Instr} {s : State} {e : Env} (he : Issues i s e) (hbusy : e.w.trapBusy = false) (f : FR) (cls : PClass)
    (t : Trap) : poisonOp e f cls t = takeTrap (failedArming s e f cls) e.gi e.wi e.k t := by
  simp only [poisonOp]
  rw [finish_arm, trapAfter_of_not_busy he hbusy]
  rfl

section
variable {d : FR} {dsp : Bool} {ssp : BitVec 2} {a b c : Src} {disp : BitVec 12} {s : State} {e : Env}

/-- `COPY` after its checks: its count decides (R189, R196). -/
theorem copy_checked (he : Issues (.copy d dsp ssp a b c disp) s e)
    (hpass : Passes [chkArmed e d [⟨7, a, copyCls dsp⟩, ⟨8, b, copyCls (ssp == 1)⟩, ⟨9, c, Src.gs⟩],
      chkBusy e (cat2 (srcRegs e.w e.k a (if dsp then 1 else 2))
        (cat2 (srcRegs e.w e.k b (if (ssp == 1) = true then 1 else 2)) (srcRegs e.w e.k c 1))) ([], []) false,
      chkPoisonS e [(srcNum e.w e.k a, (copyBase e dsp a).2), (srcNum e.w e.k b, (copyBase e (ssp == 1) b).2)] 1]) :
    exec (.copy d dsp ssp a b c disp) s = .next (if (e.ssrc .s32 c).2 then
        poisonOp e d .c (trPoison 3 (srcNum e.w e.k c) e.act)
      else startOp e d (newOp e d (.copy dsp ssp.toNat
        (if dsp then (copyBase e dsp a).1 + disp.toNat else ((copyBase e dsp a).1 + disp.toNat) % 2 ^ 64)
        (copyBase e (ssp == 1) b).1 (e.ssrc .s32 c).1.toNat) 0 false [] .c)) := by
  obtain ⟨harmed, hbusy, hpoison, -⟩ := by simpa only [passes_cons] using hpass
  refine (onSplit_issues he _).trans (congrArg _ ?_)
  simp only [harmed, hbusy, hpoison, chk_bind_ok]
  split <;> rfl

end

section
variable {lbl : Bool} {d : FR} {a b c : Src} {s : State} {e : Env}

/-- The lanes of ACT whose index is poisoned. -/
def badIndex (e : Env) (b : Src) : Mask := (e.vsrc .s32 b).bad &&& e.act

/-- The lanes of ACT whose value or label is poisoned. -/
def badValue (e : Env) (lbl : Bool) (c : Src) : Mask :=
  ((e.vsrc .s32 c).bad ||| if lbl then (labelRegs e c).1.bad ||| (labelRegs e c).2.bad else 0) &&& e.act

theorem binEaten_eq (e : Env) (lbl : Bool) (b c : Src) :
    binEaten e lbl b c = [⟨8, 3, srcNum e.w e.k b, badIndex e b⟩, ⟨9, 3, srcNum e.w e.k c, badValue e lbl c⟩] := rfl

theorem chkEaten_bin_ok (hindex : badIndex e b = 0) (hvalue : badValue e lbl c = 0) :
    chkEaten (binEaten e lbl b c) = .ok () := by
  simp [binEaten_eq, chkEaten, byField, hindex, hvalue]

/-- The first field with a poisoned lane is named, with every lane of both (R176). -/
theorem chkEaten_bin_poison (h : badIndex e b ||| badValue e lbl c ≠ 0) :
    chkEaten (binEaten e lbl b c) = .error (.trap
      ⟨6, 3, 0, BitVec.ofNat 64 (srcNum e.w e.k (if badIndex e b = 0 then c else b)), badIndex e b ||| badValue e lbl c⟩) := by
  have hfields : byField (binEaten e lbl b c)
      = [⟨8, 3, srcNum e.w e.k b, badIndex e b⟩, ⟨9, 3, srcNum e.w e.k c, badValue e lbl c⟩] := by simp [binEaten_eq, byField]
  have hmask : (binEaten e lbl b c).foldl (fun m f => m ||| f.mask) 0 = badIndex e b ||| badValue e lbl c := by
    simp [binEaten_eq]
  rw [chkEaten, hfields, hmask]
  by_cases hindex : badIndex e b = 0
  · have hvalue : (badValue e lbl c != 0) = true := bne_iff_ne.mpr fun h' => h (by simp [hindex, h'])
    rw [List.find?_cons, hindex, bne_self_eq_false, List.find?_cons, hvalue, if_pos rfl]
    rfl
  · rw [List.find?_cons, bne_iff_ne.mpr hindex, if_neg hindex]
    rfl

/-- What `BINAPP` does once its lanes' operands have been looked at. -/
def binOutcome (e : Env) (lbl : Bool) (d : FR) (a b c : Src) : Chk Unit → State
  | .error (.trap t) => poisonOp e d .b t
  | _ => startOp e d
      (newOp e d (.binapp lbl ((lanesOf e.act).map (binRec e lbl b c)) (e.psrc a).1.toNat) 0 false [] .b)

/-- `BINAPP` after its checks: its lanes' operands decide (R176, R199). -/
theorem binapp_checked (he : Issues (.binapp lbl d a b c) s e)
    (hpass : Passes [chkFootSrc e 8 b, chkBinVal e lbl c, chkArmed e d [⟨7, a, Src.sp⟩, ⟨8, b, Src.gv⟩, ⟨9, c, Src.vc⟩],
      chkBusy e (cat2 (srcRegs e.w e.k a 2)
        (cat2 (srcRegs e.w e.k b 1) (srcRegs e.w e.k c (if lbl then 3 else 1)))) ([], []) false,
      chkPoisonS e [(srcNum e.w e.k a, (e.psrc a).2)] 1]) :
    exec (.binapp lbl d a b c) s = .next (binOutcome e lbl d a b c (chkEaten (binEaten e lbl b c))) := by
  obtain ⟨hfoot, hval, harmed, hbusy, hpoison, -⟩ := by simpa only [passes_cons] using hpass
  refine (onSplit_issues he _).trans (congrArg _ ?_)
  simp only [hfoot, hval, harmed, hbusy, hpoison, chk_bind_ok]
  rcases chkEaten (binEaten e lbl b c) with (t | w) | u <;> rfl

end

/-- Settles O33: each word is its checks, then the arming of its future or the trap that ends it. -/
theorem engineWordsStart : Obligations.EngineWordsStart := by
  unfold Obligations.EngineWordsStart
  refine ⟨fun i f b op variant c s e l hrow he hpriv hpass hat => ?_, fun d lbl dsp ssp a b c disp s e => ?_,
    fun i f b op variant c s e hrow he hpriv hclass hpending => ?_⟩
  · intro e'
    rw [exec_blockOf hrow he hpriv, blockWord_starts hpass hat]
  · constructor
    · intro he sspad x y n hpass
      have hexec := copy_checked he hpass
      refine ⟨fun hn => ?_, fun hn hbusy => ?_⟩
      · rw [hexec, if_neg (Bool.not_eq_true _ ▸ hn), startOp_eq he]
      · rw [hexec, if_pos hn, poisonOp_eq he hbusy]
        rfl
    · intro he y index value hpass
      have hexec := binapp_checked he hpass
      refine ⟨fun hindex hvalue => ?_, fun hbad hbusy => ?_⟩
      · rw [hexec, chkEaten_bin_ok hindex hvalue, ← startOp_eq he]
        rfl
      · rw [hexec, chkEaten_bin_poison hbad]
        exact congrArg _ (poisonOp_eq he hbusy d .b _)
  · rw [exec_blockOf hrow he hpriv, blockWord_pending he hclass hpending]

/-! ## Queued Churn words (R209) -/

/-- Every tile-form word is `tileWord` of its row. -/
theorem exec_tileOf {i : Instr} {f : FR} {b : Blk} {kind : ChKind} {s : State} {e : Env} (hrow : tileOf i = some (f, b, kind))
    (he : Issues i s e) : exec i s = .next (e.run (tileWord e f b kind)) := by
  unfold tileOf at hrow
  split at hrow
  case h_5 => cases hrow
  all_goals
    cases hrow
    exact onSplit_issues he _

theorem tileWord_queues {e : Env} {f : FR} {b : Blk} {kind : ChKind} {l : Loc}
    (hpass : Passes (chkQueued e f [⟨7, b.base, blkBaseCls b⟩] :: blockPre e b)) (hat : BlockAt e b 128 l)
    (hroom : e.g.ch.unf < 16) :
    e.run (tileWord e f b kind) = entryStarted e (blockNoted e b 128) f { newEntry e (some f) kind with
      blkVa := blkVa e b, bsp := b.bsp, hasBlk := true, blk := (blkBytes e l 128).map (·.1)
      bad := bytesBad ((blkBytes e l 128).take 120) } := by
  obtain ⟨hqueued, hbusy, hpoison⟩ := blockPre_passes hpass
  rw [BlockAt] at hat
  simp only [tileWord, hqueued, hbusy, hpoison, hat, chkRoom_ok e hroom, chk_bind_ok, blockNoted_eq, startEntry_in, Env.run_ok]
  rfl

/-- A word that looks for room once its other checks have passed. -/
theorem chkPoisonS_pair_ok {e : Env} {m n sub : Nat} {x y : Bool} (h : chkPoisonS e [(m, x), (n, y)] sub = .ok ()) :
    x = false ∧ y = false := by
  cases x <;> cases y <;> simp [chkPoisonS] at h ⊢

theorem chkPoisonS_one_ok {e : Env} {m sub : Nat} {x : Bool} (h : chkPoisonS e [(m, x)] sub = .ok ()) : x = false := by
  cases x <;> simp [chkPoisonS] at h ⊢

/-- A queued word without a tile block: once its operands have passed, the room in the queue decides. -/
theorem exec_queuedOf {i : Instr} {f : FR} {kind : ChKind} {cs : List (Chk Unit)} {s : State} {e : Env}
    (hrow : queuedOf e i = some (f, kind, cs)) (he : Issues i s e) (hpass : Passes cs) :
    exec i s = .next (e.run (chkRoom e >>= fun _ => .ok (startEntry e f (newEntry e (some f) kind)))) := by
  unfold queuedOf at hrow
  split at hrow
  case h_7 => cases hrow
  all_goals
    cases hrow
    simp only [passes_cons] at hpass
    refine (onSplit_issues he _).trans (congrArg _ ?_)
  case h_1 => rw [bankWord, hpass.1, chk_bind_ok]
  case h_2 => rw [bankWord, hpass.1, chk_bind_ok]
  case h_3 =>
    obtain ⟨hqueued, hbusy, hpoison, -⟩ := hpass
    obtain ⟨hx, hy⟩ := chkPoisonS_pair_ok hpoison
    simp only [hqueued, hbusy, hx, hy, chk_bind_ok, Bool.false_eq_true, if_false]
  case h_4 =>
    obtain ⟨hqueued, hbusy, hpoison, -⟩ := hpass
    simp only [hqueued, hbusy, hpoison, chk_bind_ok, beq_iff_eq]
  case h_5 => rw [hpass.1, chk_bind_ok]
  case h_6 =>
    obtain ⟨hstripe, hpoison, -⟩ := hpass
    simp only [hstripe, chkPoisonS_one_ok hpoison, chk_bind_ok, Bool.false_eq_true, if_false]

section
variable {d : FR} {a : Src} {s : State} {e : Env}

/-- `ACCEPT` once its operand has passed, with room in the queue (R250). -/
theorem accept_queues (he : Issues (.accept d a) s e)
    (hpass : Passes [chkQueued e d [⟨7, a, Src.gs⟩], chkBusy e (srcRegs e.w e.k a 1) ([], []) false])
    (hmark : (e.ssrc .s32 a).2 = false) (hroom : e.g.ch.unf < 16) :
    (∀ f, e.g.draft = some f → e.g.ch.frameAt = false → (e.ssrc .s32 a).1.toNat ≤ f.nd →
      exec (.accept d a) s = .next ((entryStarted e s d
        (newEntry e (some d) (.accept true f.lbase.toNat f.seq.toNat (e.ssrc .s32 a).1.toNat f.nd))).modGang e.gi fun g =>
          acceptWaves g f (e.ssrc .s32 a).1.toNat)) ∧
    ((e.g.draft = none ∨ e.g.ch.frameAt = true ∨ ∃ f, e.g.draft = some f ∧ f.nd < (e.ssrc .s32 a).1.toNat) →
      exec (.accept d a) s = .next (entryStarted e s d (newEntry e (some d) (.accept false 0 0 0 0)))) := by
  obtain ⟨hqueued, hbusy, -⟩ := by simpa only [passes_cons] using hpass
  have hexec (t : State) (h : (match e.g.draft with
      | some f =>
        if e.g.ch.frameAt || f.nd < (e.ssrc .s32 a).1.toNat then
          startEntry e d (newEntry e (some d) (.accept false 0 0 0 0))
        else (startEntry e d (newEntry e (some d)
          (.accept true f.lbase.toNat f.seq.toNat (e.ssrc .s32 a).1.toNat f.nd))).modGang e.gi fun g =>
            acceptWaves g f (e.ssrc .s32 a).1.toNat
      | none => startEntry e d (newEntry e (some d) (.accept false 0 0 0 0))) = t) :
      exec (.accept d a) s = .next t := by
    subst h
    refine (onSplit_issues he _).trans (congrArg _ ?_)
    simp only [hqueued, hbusy, hmark, chkRoom_ok e hroom, chk_bind_ok, Bool.false_eq_true, if_false]
    cases e.g.draft with
    | none => rfl
    | some f =>
      dsimp only
      split <;> rfl
  refine ⟨fun f hdraft hframe hn => hexec _ ?_, fun h => hexec _ ?_⟩
  · simp only [hdraft, hframe, Bool.false_or, decide_eq_true_eq, Nat.not_lt.mpr hn, if_false, startEntry_eq he]
  · cases hdraft : e.g.draft with
    | none => exact startEntry_eq he _ _
    | some f =>
      have hrefused : (e.g.ch.frameAt || decide (f.nd < (e.ssrc .s32 a).1.toNat)) = true := by
        rcases h with h | h | ⟨f', hf', h⟩
        · simp [hdraft] at h
        · simp [h]
        · obtain rfl := Option.some.inj (hdraft.symm.trans hf')
          simp [h]
      simp only [hrefused, if_true, startEntry_eq he]

end

/-- Settles O34: the checks of each row, then the entry, or the wait of a full queue. -/
theorem churnWordsQueue : Obligations.ChurnWordsQueue := by
  unfold Obligations.ChurnWordsQueue
  refine ⟨fun i f b kind s e l hrow he hpass hat hroom => ?_, ⟨fun i f kind cs s e hrow he hpass hroom => ?_,
    fun d a s e he hpass hmark hroom => accept_queues he hpass hmark hroom⟩, fun i f kind cs s e hrow he hpass hfull => ?_⟩
  · intro bs
    rw [exec_tileOf hrow he, tileWord_queues hpass hat hroom]
  · rw [exec_queuedOf hrow he hpass, chkRoom_ok e hroom, chk_bind_ok, Env.run_ok, startEntry_eq he]
  · have hwait : chkRoom e = .error (.wait .queueFull) := by simp [chkRoom, needWait, Nat.not_lt.mpr hfull]
    rw [exec_queuedOf hrow he hpass, hwait, chk_bind_error]
    exact congrArg _ (issues_wait he _)

/-! ## Label words (R246) -/

theorem labelRun_go {i : Instr} {s : State} {e : Env} (he : Issues i s e) (m : MemWord) (b : Src) (as : List (Nat × Nat))
    (r : Reached) (hpass : Passes [memFoot e m, chkChurn e, memPre e m Src.mi]) (hlanes : labelLanes e m.q.i m.a b = .ok as)
    (hreach : memReach e m as = .ok r) (hparked : r.parked = []) (hact : e.act ≠ 0) :
    e.run (labelRun e m b) = (noteGo s e m.q r.go).setWave e.gi e.wi (begun e (memOp e m r.go e.w.opSeq)) := by
  obtain ⟨hfoot, hchurn, hpre, -⟩ := by simpa only [passes_cons] using hpass
  rw [labelRun, hfoot, chk_bind_ok, hchurn, chk_bind_ok, hpre, chk_bind_ok, hlanes, chk_bind_ok, hreach, chk_bind_ok, Env.run_ok,
    memApply_go he m r hparked hact]

section
variable {d : VR} {b : Blk} {row : Src} {s : State} {e : Env} {l : Loc}

/-- What `LBLLD.adm` writes: 1 in the lanes of ACT that are admitted, 0 in the others. -/
theorem admWrite_eq (he : Issues (.lblldAdm d b row) s e) {out : Mask} {f : Nat → Bool}
    (hout : ∀ l ∈ laneList, out.getLsbD l = f l) :
    admWrite e d out = s.setWave e.gi e.wi { passed e with
      vregs := setAt e.w.vregs d.toNat (mergeReg (e.w.vreg d.toNat) e.act (laneList.map fun l => if f l then 1 else 0) 0) } := by
  have hlanes : laneList.map (fun l => boolW (out.getLsbD l)) = laneList.map fun l => if f l then (1 : W) else 0 :=
    List.map_congr_left fun l hl => by rw [hout l hl, boolW]
  rw [admWrite, hlanes]
  refine (issues_done he _).trans ?_
  rw [Wave.pushNone, onward_push]
  refine Eq.trans (landed_of_act_eq he _ ?mask) ?wave
  case mask => cases hk : e.k <;> simp [Env.act, Env.slot, hk, onward, Wave.setVreg]
  case wave => cases hk : e.k <;> simp only [passed, onward, hk, Wave.setVreg] <;> rfl

theorem lblldAdm_checked (he : Issues (.lblldAdm d b row) s e)
    (hpass : Passes ([chkFoot e 6 d.toNat 1, chkChurn e, chkLatches e [⟨7, b.base, blkBaseCls b⟩, ⟨8, row, Src.gs⟩],
      chkBusy e (cat2 (srcRegs e.w e.k b.base (if b.bsp then 1 else 2)) (srcRegs e.w e.k row 1)) ([d.toNat], []) false,
      chkPoisonS e [(srcNum e.w e.k b.base, blkBad e b)] 1, chkPoisonS e [(srcNum e.w e.k row, (e.ssrc .s32 row).2)] 3,
      chkIdle e])) (hat : BlockAt e b 128 l) (hgood : bytesBad ((blkBytes e l 128).take 120) = false) :
    exec (.lblldAdm d b row) s
      = .next (e.run (admRun e d ((blkBytes e l 128).map (·.1)) (e.ssrc .s32 row).1.toNat)) := by
  obtain ⟨hfoot, hchurn, hlatches, hbusy, hbase, hrow, hidle, -⟩ := by simpa only [passes_cons] using hpass
  rw [BlockAt] at hat
  refine (onSplit_issues he _).trans (congrArg _ ?_)
  simp only [hfoot, hchurn, hlatches, hbusy, hbase, hrow, hidle, hat, hgood, chk_bind_ok, need, Bool.not_false, if_true]

/-- Without a filter the lanes below N are admitted when the row lies below M (R246). -/
theorem admLanes_mem (e : Env) (blk : List Byte) (x l : Nat) (hl : l ∈ laneList) :
    (admLanes e blk x).contains l
      = (e.act.getLsbD l && decide (x < recNat blk 12 2) && decide (l < min (recNat blk 14 2) 64)) := by
  rw [admLanes]
  split
  case isTrue h =>
    simp only [List.contains_eq_mem, List.mem_filter, lanesOf, hl, h, decide_true, true_and, Bool.and_true, Bool.decide_and,
      Bool.decide_eq_true]
  case isFalse h => simp [h]

end

/-- Settles O36: the two memory forms, and the answer of `LBLLD.adm` by its filter. -/
theorem labelWordsComplete : Obligations.LabelWordsComplete := by
  unfold Obligations.LabelWordsComplete
  refine ⟨fun store d a b im s e as r => ?_, fun d b row s e l he hpass hat hgood => ?_⟩
  · cases store with
    | true =>
      intro i m he hpass hlanes hreach hparked hact
      exact (onSplit_issues he _).trans (congrArg _ (labelRun_go he m b as r hpass hlanes hreach hparked hact))
    | false =>
      intro i m he hpass hlanes hreach hparked hact
      exact (onSplit_issues he _).trans (congrArg _ (labelRun_go he m b as r hpass hlanes hreach hparked hact))
  · intro blk x answer
    have hexec := lblldAdm_checked he hpass hat hgood
    refine ⟨fun hctl => ?_, fun hctl hnone => ?_, fun r hctl hrel hlanes => ?_⟩
    · have hrun : admRun e d blk x = .ok (admWrite e d (maskOf fun l => (admLanes e blk x).contains l)) := by
        simp [admRun, hctl]
      rw [hexec, hrun, Env.run_ok]
      exact congrArg _ (admWrite_eq he fun l hl => (maskOf_getLsbD _ l ((mem_laneList l).mp hl)).trans (admLanes_mem e blk x l hl))
    · have hrun : admRun e d blk x = .ok (admWrite e d 0) := by
        rw [admRun]
        simp only [hctl, Nat.reduceBEq, Bool.false_eq_true, if_false]
        rcases hnone with h | h
        · rw [h]
        · rw [h]
          cases (e.g.ch.rels[recNat blk 8 4 / 4 % 4]?).join <;> rfl
      rw [hexec, hrun, Env.run_ok]
      exact congrArg _ (admWrite_eq he fun l _ => BitVec.getLsbD_zero)
    · have hrun : admRun e d blk x = admDecide e d blk (relOf r) x (admLanes e blk x) := by
        rw [admRun]
        simp only [hctl, hrel, Nat.reduceBEq, Bool.false_eq_true, if_false]
      rw [hexec, hrun]

end Sys2Proof
end

section
/-! SUPPORT. One lane of an atomic access (R173, R178, R266, R280): what it reads from the L1 line that it fills, and what its
number leaves in a gang's memories. -/

namespace Sys2Proof

open Sys2Proof.Machine Sys2Proof.Claims

/-! ## Stores of a gang

The laws of stores above are for a place that some wave may reach; a gang is enough. -/

theorem gang?_isSome_modGang (s : State) (gi : Nat) (f : Gang → Gang) :
    ((s.modGang gi f).gang? gi).isSome = (s.gang? gi).isSome := by
  rw [State.gang?_modGang]
  cases s.gang? gi <;> rfl

theorem gang?_isSome_putByte (s : State) (gi : Nat) (l : Loc) (b : Byte) :
    ((s.putByte gi l b).gang? gi).isSome = (s.gang? gi).isSome := by
  cases l with
  | mem k => rfl
  | spad x => exact gang?_isSome_modGang s gi _

section
variable (gi byre : Nat) (cls : Option PClass)

theorem gang?_isSome_foldl_putStored (bs : List StByte) (t : State) :
    ((bs.foldl (putStored gi byre cls) t).gang? gi).isSome = (t.gang? gi).isSome :=
  foldl_keeps (fun u : State => (u.gang? gi).isSome = (t.gang? gi).isSome) _
    (fun u b hu => (congrArg Option.isSome (gang?_congr (putStored_frame gi byre cls u b).2 gi)).trans
      ((gang?_isSome_putByte u gi b.loc b.byte).trans hu)) bs t rfl

/-- A place of a gang reads the last byte that is stored there, or what it held. -/
theorem getByte_foldl_putStored_of_gang (bs : List StByte) (s : State) (l : Loc) (hs : s.memOk = true)
    (hgang : (s.gang? gi).isSome) :
    (bs.foldl (putStored gi byre cls) s).getByte gi l = (lastByte bs l).getD (s.getByte gi l) := by
  induction bs using List.reverseRecOn with
  | nil => rfl
  | append_singleton bs b ih =>
    have hok := memOk_foldl_putStored gi byre cls bs s hs
    obtain ⟨hm, hg⟩ := putStored_frame gi byre cls (bs.foldl (putStored gi byre cls) s) b
    rw [List.foldl_concat, getByte_congr hm hg,
      getByte_putByte _ gi b.loc l b.byte hok (by rwa [gang?_isSome_foldl_putStored]), lastByte_concat, ih]
    split <;> rfl

end

theorem getByte_storeAs_of_gang (s : State) (gi byre : Nat) (cls : PClass) (bs : List StByte)
    (h : ∀ b ∈ bs, s.locBad gi b.loc = false) (l : Loc) (hs : s.memOk = true) (hgang : (s.gang? gi).isSome) :
    (storeAs s gi byre cls bs).getByte gi l = (lastByte bs l).getD (s.getByte gi l) := by
  obtain ⟨hm, hg, -⟩ := keepOlds_frame s cls (linesOf bs)
  rw [storeAs_eq_of_unmarked s gi byre cls bs h, getByte_putMarks,
    getByte_foldl_putStored_of_gang gi byre (some cls) bs _ l (memOk_congr s _ hm hg hs) (by rwa [gang?_congr hg]),
    getByte_congr hm hg]

section
variable {s : State} {gi : Nat} (byre : Nat) {l : Loc} {n : Nat} (v : Nat) (hclean : s.rangeBad gi l n = false)
  (hs : s.memOk = true) (hgang : (s.gang? gi).isSome)
include hclean hs hgang

theorem getByte_putNum_other_of_gang (x : Loc) (hx : ∀ i, i < n → x ≠ l.add i) :
    (putNum s gi byre l n v).getByte gi x = s.getByte gi x := by
  rw [putNum, getByte_storeAs_of_gang s gi byre .v _ (locBad_storeBytes v hclean) x hs hgang,
    lastByte_storeBytes_other l x n v hx, Option.getD_none]

theorem numLoc_putNum_of_gang : (putNum s gi byre l n v).numLoc gi l n = v % 2 ^ (8 * n) := by
  have hbytes : (List.range n).map (fun i => (putNum s gi byre l n v).getByte gi (l.add i)) = natLe n v := by
    refine List.ext_getElem (by simp) fun i hi hi' => ?_
    rw [List.getElem_map, List.getElem_range, putNum,
      getByte_storeAs_of_gang s gi byre .v _ (locBad_storeBytes v hclean) _ hs hgang,
      lastByte_storeBytes_at l n v i _ (List.getElem?_eq_getElem hi'), Option.getD_some]
  rw [State.numLoc, State.readLoc, hbytes, leNat_natLe]

end

/-! ## The line that an atomic reads (R266, R280) -/

theorem mem_of_mem_dropNth {α : Type} (p : α → Bool) (n : Nat) (xs : List α) (x : α) (h : x ∈ dropNth p n xs) : x ∈ xs := by
  induction xs generalizing n with
  | nil => exact h
  | cons y ys ih =>
    unfold dropNth at h
    split at h
    · split at h
      · exact List.mem_cons_of_mem y h
      · rcases List.mem_cons.mp h with rfl | h
        · exact List.mem_cons_self
        · exact List.mem_cons_of_mem y (ih _ h)
    · rcases List.mem_cons.mp h with rfl | h
      · exact List.mem_cons_self
      · exact List.mem_cons_of_mem y (ih _ h)

theorem mem_of_mem_makeRoom {α : Type} (p : α → Bool) (cap v : Nat) (xs : List α) (x : α) (h : x ∈ makeRoom p cap v xs) :
    x ∈ xs := by
  unfold makeRoom at h
  split at h
  · exact h
  · exact mem_of_mem_dropNth p _ xs x h

/-- The lines of the L1 once one is filled: the new one, and old ones. -/
theorem fillLine_l1 (s : State) (byre k : Nat) :
    ∃ rest, (fillLine s byre (.mem k)).l1 = ⟨byre, k / 128, s.mem.read (k / 128 * 128) 128, s.fills + 1⟩ :: rest ∧
      ∀ c ∈ rest, c ∈ s.l1 := by
  have hput (t : State) (hmem : t.mem = s.mem) (hl1 : t.l1 = s.l1) (n : Nat) :
      ∃ rest, (dropOlds (putLine t byre (k / 128) (t.mem.read (k / 128 * 128) 128) n) (k / 128)).l1
          = ⟨byre, k / 128, s.mem.read (k / 128 * 128) 128, n⟩ :: rest ∧ ∀ c ∈ rest, c ∈ s.l1 := by
    refine ⟨_, by rw [← hmem]; rfl, fun c hc => ?_⟩
    rw [← hl1]
    exact (List.mem_filter.mp (mem_of_mem_makeRoom _ _ _ _ c hc)).1
  simp only [fillLine]
  split
  · exact hput _ rfl rfl _
  · exact hput _ rfl rfl _

/-- Where the Byre's L1 holds none of a line, an atomic reads memory there: a line that it fills holds what memory holds. -/
theorem atomByte_fillLine (s : State) (gi : Nat) (g : Gang) (o : MemOp) (k k' : Nat)
    (h : lineOf s g.byreId k' o.floor = none) :
    atomByte (fillLine s g.byreId (.mem k)) gi g o (.mem k') = s.getByte gi (.mem k') := by
  have hmem : (fillLine s g.byreId (.mem k)).mem = s.mem := (fillLine_frame s g.byreId (.mem k)).1
  obtain ⟨rest, hl1, hrest⟩ := fillLine_l1 s g.byreId k
  have hold : rest.find? (fun c => c.byre == g.byreId && c.key == k' / 128 && o.floor ≤ c.serial) = none :=
    List.find?_eq_none.mpr fun c hc => List.find?_eq_none.mp h c (hrest c hc)
  simp only [atomByte, State.getByte, hmem, lineOf, hl1, List.find?_cons, hold]
  split
  · rfl
  · split
    case h_2 => rfl
    case h_1 c hc =>
      split at hc
      case h_2 => cases hc
      case h_1 hline =>
        cases hc
        have hkey : k / 128 = k' / 128 := by simpa using (Bool.and_eq_true_iff.mp hline).1
        have hread := Memory.read_get s.mem (k' / 128 * 128) 128 (k' % 128) (Nat.mod_lt _ (by decide))
        rw [hkey, List.getD_eq_getElem?_getD, hread, Option.getD_some, Nat.div_add_mod']

/-- An atomic reads its location: always in the scratchpad and at `.die` and wider, else where the Byre's L1 holds none of its
lines. -/
theorem atomNum_atomLine (s : State) (gi : Nat) (g : Gang) (o : MemOp) (l : Loc) (n : Nat)
    (h : l.isSpad = true ∨ isWide o = true ∨ ∀ i k, i < n → l.add i = .mem k → lineOf s g.byreId k o.floor = none) :
    atomNum (atomLine s g.byreId o l) gi g o l n = s.numLoc gi l n := by
  obtain ⟨hmem, hgangs, -⟩ := atomLine_frame s g.byreId o l
  by_cases hdirect : isWide o = true ∨ l.isSpad = true
  · exact (atomNum_eq_numLoc _ gi g o l n hdirect).trans (numLoc_congr hmem hgangs gi l n)
  · obtain ⟨hwide, hspad⟩ := not_or.mp hdirect
    have habsent := (h.resolve_left hspad).resolve_left hwide
    cases l with
    | spad x => exact absurd rfl hspad
    | mem k =>
      rw [atomNum, State.numLoc, State.readLoc]
      refine congrArg leNat (List.map_congr_left fun i hi => ?_)
      have hi' : i < n := List.mem_range.mp hi
      have hfirst : lineOf s g.byreId k o.floor = none := habsent 0 k (by omega) rfl
      have hfill : atomLine s g.byreId o (.mem k) = fillLine s g.byreId (.mem k) := by
        simp [atomLine, hwide, hfirst]
      rw [hfill]
      exact atomByte_fillLine s gi g o k (k + i) (habsent i _ hi' rfl)

/-! ## One lane of an atomic access -/

section
variable (s : State) (gi : Nat) (g : Gang) (o : MemOp) (a : Acc)

/-- What the atomic of lane `a` reads. -/
def atomRead : Nat := atomNum (atomLine s g.byreId o a.loc) gi g o a.loc (accLen o.kind)

/-- The lane's access by what it makes of its location: nothing, also where it is poisoned, or a new value. -/
theorem atomLane_eq :
    atomLane s gi g o a =
      (match (atomNew o a (atomRead s gi g o a)).1 with
        | some v =>
          if s.rangeBad gi a.loc (accLen o.kind) then atomLine s g.byreId o a.loc
          else putNum (atomLine s g.byreId o a.loc) gi g.byreId a.loc (accLen o.kind) v
        | none => atomLine s g.byreId o a.loc,
      ⟨a.lane, atomOld o.kind (atomRead s gi g o a) (s.rangeBad gi a.loc (accLen o.kind)),
        if s.rangeBad gi a.loc (accLen o.kind) then 0 else (atomNew o a (atomRead s gi g o a)).2⟩) := by
  obtain ⟨-, hgangs, hbad⟩ := atomLine_frame s g.byreId o a.loc
  rw [← rangeBad_congr hbad hgangs]
  rfl

theorem atomLane_of_bad (hbad : s.rangeBad gi a.loc (accLen o.kind) = true) :
    (atomLane s gi g o a).1 = atomLine s g.byreId o a.loc ∧ (atomLane s gi g o a).2.fl = 0 := by
  rw [atomLane_eq, hbad]
  refine ⟨?_, rfl⟩
  dsimp only
  split <;> rfl

variable (hok : s.memOk = true) (hgang : (s.gang? gi).isSome)
include hok hgang

theorem atomLane_getByte_other (l : Loc) (hl : ∀ i, i < accLen o.kind → l ≠ a.loc.add i) :
    (atomLane s gi g o a).1.getByte gi l = s.getByte gi l := by
  obtain ⟨hmem, hgangs, hbad⟩ := atomLine_frame s g.byreId o a.loc
  have hline : (atomLine s g.byreId o a.loc).getByte gi l = s.getByte gi l := getByte_congr hmem hgangs gi l
  cases hclean : s.rangeBad gi a.loc (accLen o.kind) with
  | true => rw [(atomLane_of_bad s gi g o a hclean).1, hline]
  | false =>
    rw [atomLane_eq, hclean]
    dsimp only
    split
    · rw [if_neg Bool.false_ne_true, getByte_putNum_other_of_gang _ _ ((rangeBad_congr hbad hgangs gi _ _).trans hclean)
        (memOk_congr s _ hmem hgangs hok) (by rwa [gang?_congr hgangs]) l hl, hline]
    · exact hline

/-- What an unpoisoned location holds after the access. -/
theorem atomLane_numLoc (hclean : s.rangeBad gi a.loc (accLen o.kind) = false) :
    (atomLane s gi g o a).1.numLoc gi a.loc (accLen o.kind)
      = match (atomNew o a (atomRead s gi g o a)).1 with
        | some v => v % 2 ^ (8 * accLen o.kind)
        | none => s.numLoc gi a.loc (accLen o.kind) := by
  obtain ⟨hmem, hgangs, hbad⟩ := atomLine_frame s g.byreId o a.loc
  rw [atomLane_eq, hclean]
  cases (atomNew o a (atomRead s gi g o a)).1 with
  | some v => 
    exact numLoc_putNum_of_gang _ _ ((rangeBad_congr hbad hgangs gi _ _).trans hclean) (memOk_congr s _ hmem hgangs hok)
      (by rwa [gang?_congr hgangs])
  | none => exact numLoc_congr hmem hgangs gi _ _

end

theorem lo32_ofNat (n : Nat) : lo32 (BitVec.ofNat 64 n) = BitVec.ofNat 32 n := by
  apply BitVec.eq_of_toNat_eq
  simp [lo32]

theorem hi32_ofNat (n : Nat) : hi32 (BitVec.ofNat 64 n) = BitVec.ofNat 32 (n / 2 ^ 32) := by
  apply BitVec.eq_of_toNat_eq
  simp [hi32]
  omega

/-- Settles O25: the access by what it makes of its location, for each kind of atomic. -/
theorem atomicLane : Obligations.AtomicLane := by
  unfold Obligations.AtomicLane
  intro s gi g o a hg hok n r old bad now lo hi
  have hgang : (s.gang? gi).isSome := by rw [hg]; rfl
  have hels : r.2.els = atomOld o.kind old bad := by
    simp only [r, atomLane_eq]
    rfl
  have hnow (hclean : bad = false) : now = match (atomNew o a old).1 with
      | some v => v % 2 ^ (8 * n)
      | none => s.numLoc gi a.loc n := atomLane_numLoc s gi g o a hok hgang hclean
  have hfl (hclean : bad = false) : r.2.fl = (atomNew o a old).2 := by
    simp only [r, atomLane_eq]
    exact if_neg (Bool.not_eq_true _ ▸ hclean)
  have h32 (x : W) : x.toNat % 2 ^ (8 * 4) = x.toNat := Nat.mod_eq_of_lt x.isLt
  have h64 (x : D) : x.toNat % 2 ^ (8 * 8) = x.toNat := Nat.mod_eq_of_lt x.isLt
  refine ⟨atomNum_atomLine s gi g o a.loc n, fun hbad => ?poisoned, fun l hl => atomLane_getByte_other s gi g o a hok hgang l hl,
    fun op hkind => ?atom, fun op hkind => ?atomP, fun hkind => ?cas, fun hkind => ?casP, fun hkind => ?daddA⟩
  case poisoned =>
    obtain ⟨hmem, hgangs, hmarks⟩ := atomLine_frame s g.byreId o a.loc
    obtain ⟨hstate, hflags⟩ := atomLane_of_bad s gi g o a hbad
    exact ⟨hstate ▸ hmem, hstate ▸ hmarks, hstate ▸ hgangs, hflags⟩
  case atom =>
    have hn : n = 4 := congrArg accLen hkind
    refine ⟨by rw [hels, hkind]; rfl, fun hclean => ⟨?_, ?_⟩⟩
    · rw [hnow hclean, hn]
      simp only [atomNew, hkind, h32]
      rfl
    · rw [hfl hclean]
      simp only [atomNew, hkind]
      rfl
  case atomP =>
    have hn : n = 8 := congrArg accLen hkind
    refine ⟨by rw [hels, hkind, atomOld, lo32_ofNat, hi32_ofNat], fun hclean => ?_⟩
    rw [hnow hclean, hn]
    simp only [atomNew, hkind, h64]
  case cas =>
    have hn : n = 4 := congrArg accLen hkind
    refine ⟨by rw [hels, hkind]; rfl, fun hclean => ?_⟩
    rw [hnow hclean, hn]
    simp only [atomNew, hkind, beq_iff_eq]
    by_cases heq : old = (a.x.setWidth 32).toNat
    · simp only [if_pos heq]
    · simp only [if_neg heq]
  case casP =>
    have hn : n = 8 := congrArg accLen hkind
    refine ⟨by rw [hels, hkind, atomOld, lo32_ofNat, hi32_ofNat], fun hclean => ?_⟩
    rw [hnow hclean, hn]
    simp only [atomNew, hkind, beq_iff_eq]
    by_cases heq : old = (a.x.setWidth 64).toNat
    · simp only [if_pos heq, h64]
    · simp only [if_neg heq]
  case daddA =>
    have hn : n = 8 := congrArg accLen hkind
    have hflags : (atomNew o a old).2 = 0 := by simp only [atomNew, hkind]
    refine ⟨by rw [hels, hkind]; rfl, ?_, fun hclean => ?_⟩
    · cases hbad : bad with
      | true => exact (atomLane_of_bad s gi g o a hbad).2
      | false => rw [hfl hbad, hflags]
    · rw [hnow hclean, hn]
      simp only [atomNew, hkind, h64]

end Sys2Proof
end

section
/-! SUPPORT. The state in which a gang starts (R35, R36, R321, R352). -/

namespace Sys2Proof

open Sys2Proof.Machine Sys2Proof.Claims

/-- What a wave holds when its gang starts (R36). -/
def Fresh (vregs : Nat) (entry rngctr : D) (w : Wave) : Prop :=
  w.vregs = List.replicate vregs ⟨List.replicate 96 0, 0⟩ ∧ w.sregs = List.replicate 64 0 ∧ w.sbad = 0 ∧
    w.slot0.act = allLanes ∧ w.slot0.um = allLanes ∧ w.slot0.rpc = 0 ∧ w.slot0.st = .ready ∧ w.slot0.pc = entry ∧
    w.slot1.st = .empty ∧ w.dsp = 0 ∧ w.exited = 0 ∧ (∀ f ∈ w.futs, f.st = .empty) ∧ w.futs.length = 16 ∧
    w.latches.length = 8 ∧ (∀ l ∈ w.latches, l.lost = true) ∧
    w.flags = 0 ∧ w.fpen = 0 ∧ w.mabs = false ∧ w.xfault = 0 ∧ w.rngctr = rngctr ∧
    w.tcause = 0 ∧ w.tpc = 0 ∧ w.tmask = 0 ∧ w.tval = 0 ∧ w.trap = none ∧ w.ops = []

theorem startWave_fresh (idx quad qslot vregs stage : Nat) (entry dsaddr rngctr : D) (floor : Nat) :
    Fresh vregs entry rngctr (startWave idx quad qslot vregs stage entry dsaddr rngctr floor) := by
  have hfuts : ∀ f ∈ List.replicate 16 (⟨.empty, 0, 0, .v⟩ : Future), f.st = .empty := fun f hf => by
    rw [List.eq_of_mem_replicate hf]
  have hlatches : ∀ l ∈ List.replicate 8 lostLatch, l.lost = true := fun l hl => by
    rw [List.eq_of_mem_replicate hl]
    rfl
  exact ⟨rfl, rfl, rfl, rfl, rfl, rfl, rfl, rfl, rfl, rfl, rfl, hfuts, rfl, rfl, hlatches, rfl, rfl, rfl, rfl, rfl, rfl, rfl, rfl,
    rfl, rfl, rfl⟩

/-- Every wave of a new gang starts afresh, at the grid's entry where it has no stages. -/
theorem newGang_fresh (s : State) (r : Grid) (c : Ctx) (die byre n : Nat) (places : List (Nat × Nat)) :
    ∀ w ∈ (newGang s r c die byre n places).waves,
      ∃ entry, Fresh (recVregs r.bytes) entry (BitVec.ofNat 64 (recNat r.bytes 32 8)) w ∧
        (recPipe r.bytes = false → entry = BitVec.ofNat 64 (recEntry r.bytes)) := by
  intro w hw
  obtain ⟨p, -, rfl⟩ := List.mem_map.mp hw
  refine ⟨_, startWave_fresh _ _ _ _ _ _ _ _ _, fun hpipe => ?_⟩
  rw [hpipe]
  rfl

/-- The banks of a Churn read zero when its gang starts. -/
theorem startChurn_banks (has : Bool) : ∀ b ∈ (startChurn has).accs ++ (startChurn has).saccs, ∀ x ∈ b, x = 0 := by
  intro b hb x hx
  cases has with
  | false => cases hb
  | true =>
    have hzero : b = List.replicate 4096 0 := by
      rcases List.mem_append.mp hb with hb | hb <;> exact List.eq_of_mem_replicate hb
    rw [hzero] at hx
    exact List.eq_of_mem_replicate hx

/-- The coordinates of gang `n` of a grid number it (R35). -/
theorem coordinates (n x y : Nat) : n % x + x * (n / x % y + y * (n / (x * y))) = n := by
  rw [← Nat.div_div_eq_div_mul, Nat.mod_add_div, Nat.mod_add_div]

/-- Settles O54: the conditions are those of the event, and the gang is the one it makes. -/
theorem gangStarts : Obligations.GangStarts := by
  unfold Obligations.GangStarts
  intro s r c die byre n places hgrid hnext hfits hthsd hfirst hctx
  refine ⟨_, newGang s r c die byre n places, rfl, ?_⟩
  have hwaves : (newGang s r c die byre n places).waves.length = places.length := by simp [newGang]
  have htbase : ((s.ctx? r.ctx).map (·.tbase)).getD 0 = c.tbase := by rw [hctx]; rfl
  simp only [hgrid, hnext, hfits, hthsd, hfirst, Bool.or_self, Bool.false_eq_true, if_false, placeGang, hctx]
  refine ⟨rfl, rfl, rfl, rfl, rfl, rfl, hwaves, rfl, rfl, rfl, rfl, rfl, rfl, rfl, htbase, fun _ => coordinates n _ _,
    startChurn_banks _, rfl, rfl, rfl, fun w hw => ?_⟩
  obtain ⟨entry, ⟨hvregs, hsregs, hsbad, hact, hum, hrpc, hst, hpc, hrest⟩, hentry⟩ := newGang_fresh s r c die byre n places w hw
  exact ⟨hvregs, hsregs, hsbad, hact, hum, hrpc, hst, fun hpipe => hpc.trans (hentry hpipe), hrest⟩

end Sys2Proof
end

section
/-! SUPPORT. Engine, Churn and system operations as they report and end (R192, R194, R209, R221, R318, R376). -/

namespace Sys2Proof

open Sys2Proof.Machine Sys2Proof.Claims

/-! ## Reports (R92, R194) -/

section
variable {s : State} {gi wi : Nat} {g : Gang} {w : Wave} {f : FR} {ser : W}

/-- A Pending future takes the report of the arming that it stands for. -/
theorem finish_reports (hpending : PendingAt w f ser) (st : FState) (result : Nat) :
    (w.finish f.toNat ser st result).fut f.toNat = reported w f st result := by
  obtain ⟨hf, hst, rfl⟩ := hpending
  have hfinish : w.finish f.toNat (w.fut f.toNat).serial st result = w.setFut f.toNat (reported w f st result) := by
    simp only [Wave.finish, hst, beq_self_eq_true, Bool.and_self, if_true]
    rfl
  rw [hfinish, Wave.fut, Wave.setFut_futs, setAt_get _ _ _ hf, Option.getD_some]

theorem finish_flags (w : Wave) (n : Nat) (ser : W) (st : FState) (result : Nat) :
    (w.finish n ser st result).flags = w.flags := by
  unfold Wave.finish
  dsimp only
  split <;> rfl

/-- The wave after a report. -/
def reportWave (w : Wave) (f : FR) (ser : W) (st : FState) (result : Nat) (fl : Flags) : Wave :=
  let v := w.finish f.toNat ser st result
  if st == .cancelled then v else v.setFlags fl

theorem reportFut_eq (s : State) (gi wi : Nat) (f : FR) (ser : W) (st : FState) (result : Nat) (fl : Flags) :
    reportFut s gi wi (some f) ser st result fl = s.modWave gi wi fun w => reportWave w f ser st result fl := by
  unfold reportFut reportWave
  dsimp only [State.finishFut]
  split
  · rfl
  · simp [State.modWave, State.modGang, modAt_modAt]

theorem reportWave_fut (hpending : PendingAt w f ser) (st : FState) (result : Nat) (fl : Flags) :
    (reportWave w f ser st result fl).fut f.toNat = reported w f st result := by
  unfold reportWave
  dsimp only
  split <;> exact finish_reports hpending st result

theorem reportWave_flags (st : FState) (result : Nat) (fl : Flags) :
    (reportWave w f ser st result fl).flags = if st = .cancelled then w.flags else w.flags ||| fl := by
  unfold reportWave
  dsimp only
  by_cases h : st = .cancelled
  · rw [if_pos (beq_iff_eq.mpr h), if_pos h, finish_flags]
  · rw [if_neg (by simpa using h), if_neg h]
    exact congrArg (· ||| fl) (finish_flags w f.toNat ser st result)

end

/-! ## Engine operations (R192, R194) -/

section
variable {s : State} {gang gi op units : Nat} {g : Gang} {o : EngOp}

theorem opNamed_eq (hat : GangAt s gang gi g) (hruns : g.engines = true) (hop : g.op? op = some o) :
    opNamed s gang op = some (gi, g, o) := by
  obtain ⟨hidx, hg⟩ := hat
  simp [opNamed, hidx, hg, hop, Gang.opRuns, hruns]

theorem op?_id (hop : g.op? op = some o) : o.id = op := by
  have hid := List.find?_some hop
  exact beq_iff_eq.mp hid

/-- The result that an operation reports. -/
def reportedResult (o : EngOp) (st : FState) (errc : Nat) : Nat :=
  if st = .failed then errc else if st = .done then o.res else 0

/-- An operation without a record reports to its future only. -/
theorem reportOp_of_no_record (a : OpAt) {f : FR} (st : FState) (errc : Nat) (hrec : hasRecord o = false)
    (hfreg : o.freg = some f) : reportOp s a o ⟨.none, .none⟩ st errc
      = s.modWave a.gi o.wave fun w => reportWave w f o.serial st (reportedResult o st errc) o.fl := by
  have hkind : ∀ v, o.kind ≠ .block 0xE2 v := fun v h => by simp [hasRecord, h] at hrec
  have hresult : (if st == .failed then errc else if st == .done then o.res else 0) = reportedResult o st errc := by
    simp [reportedResult]
  unfold reportOp
  split
  · exact absurd ‹_› (hkind _)
  · simp only [hrec, Bool.false_eq_true, if_false, arriveAt, hfreg, reportFut_eq, hresult]

/-- An operation whose work has ended and that has no record reports, and leaves the gang. -/
theorem advanceOp_reports {f : FR} {st : FState} {n : Nat} (hrec : hasRecord o = false) (hwaits : o.waits = [])
    (hdenied : o.denied = []) (hout : o.out = some (st, n)) (hfreg : o.freg = some f) :
    advanceOp s gi g o = keepOp (s.modWave gi o.wave fun w => reportWave w f o.serial st (reportedResult o st n) o.fl)
      gi o.id none := by
  have hwork (a : OpAt) : workOp a s o = (s, o) := by simp [workOp, hout]
  have hcomp (a : OpAt) : opComp s a o = ⟨.none, .none⟩ := by simp [opComp, hrec]
  have hend : endOp (gangOp gi g o) s o = (reportOp s (gangOp gi g o) o ⟨.none, .none⟩ st n, none) := by
    simp [endOp, hout, hcomp, hwaits, hdenied, CPlace.parks, CPlace.fails]
  simp only [advanceOp, hout, Option.isNone_some, Bool.and_false, Bool.false_eq_true, if_false, hwork, ite_self, hend,
    reportOp_of_no_record (gangOp gi g o) st n hrec hfreg]
  rfl

theorem engineOpEnd_completes (hat : GangAt s gang gi g) (hruns : g.engines = true) (hop : g.op? op = some o)
    (hfree : opFree o = true) : exec (.engineOpEnd gang op) s = .next (advanceOp s gi g o) :=
  congrArg Host.Outcome.next (by simp only [opNamed_eq hat hruns hop, hfree, if_true])

theorem opCancelStop_completes (hat : GangAt s gang gi g) (hruns : g.engines = true) (hop : g.op? op = some o)
    (hstop : canStop o = true) :
    let a := gangOp gi g o
    let r := stopOp a s o (if binWaits g o then 0 else units)
    exec (.opCancelStop gang op units) s = .next (keepOp (endOp a r.1 r.2).1 gi o.id (endOp a r.1 r.2).2) :=
  congrArg Host.Outcome.next (by simp only [opNamed_eq hat hruns hop, hstop, if_true])

/-- An operation cancelled while parked has stopped (R192). -/
theorem stopOp_parked (a : OpAt) (units : Nat) (hwaits : o.waits ≠ []) :
    (stopOp a s o units).2.out = some (.cancelled, 0) ∧ (stopOp a s o units).2.waits = [] := by
  have hparked : (!o.waits.isEmpty) = true := by simp [hwaits]
  rw [stopOp, if_pos hparked]
  unfold endAtPark
  dsimp only
  split <;> exact ⟨rfl, rfl⟩

/-- The gang and the wave of a report. -/
theorem gang?_modWave_wave {wi : Nat} {w : Wave} (hg : s.gang? gi = some g) (hw : g.wave? wi = some w) (f : Wave → Wave) :
    (s.modWave gi wi f).gang? gi = some { g with waves := modAt g.waves wi f } ∧
      ({ g with waves := modAt g.waves wi f } : Gang).wave? wi = some (f w) := by
  refine ⟨by rw [State.modWave, State.gang?_modGang, hg]; rfl, ?_⟩
  have hwave : g.waves[wi]? = some w := hw
  exact (modAt_get g.waves wi f).trans (by rw [hwave]; rfl)

end

/-! ## Churn entries (R209, R221) -/

section
variable {s : State} {gang gi : Nat} {g : Gang} {q : ChEntry}

theorem churnEntryExecute_completes (hat : GangAt s gang gi g) (hdue : g.entryDue = some q) :
    exec (.churnEntryExecute gang) s = .next (runEntry s gi g q) := by
  obtain ⟨hidx, hg⟩ := hat
  exact congrArg Host.Outcome.next (by simp only [hidx, hg, hdue])

theorem churnEntryEnd_completes {r : ChRes} (hat : GangAt s gang gi g) (hdone : g.entryDone = some (q, r)) :
    exec (.churnEntryEnd gang) s = .next (finishEntry s gi g q r) := by
  obtain ⟨hidx, hg⟩ := hat
  exact congrArg Host.Outcome.next (by simp only [hidx, hg, hdone])

theorem entryDue_queue (h : g.entryDue = some q) : ∃ rest, g.ch.queue = q :: rest := by
  unfold Gang.entryDue at h
  split at h
  · split at h
    · cases h
      exact ⟨_, ‹_›⟩
    · cases h
  · cases h

/-- Elements without flags raise none. -/
theorem foldl_flags_replicate (n : Nat) (fl : Flags) :
    (List.replicate n ((0#32 : W), (0#5 : Flags))).foldl (fun a r => a ||| r.2) fl = fl := by
  induction n generalizing fl with
  | zero => rfl
  | succ n ih =>
    rw [List.replicate_succ, List.foldl_cons, ih]
    exact BitVec.or_zero

/-- `CZERO` writes zero to every element of its bank, in one unit. -/
theorem runUnit_zero {acc : Nat} (hg : s.gang? gi = some g) (hkind : q.kind = .zero acc) (hframe : g.ch.frame = none) :
    runUnit s gi g q none = .ok (q, true)
      ⟨s.modGang gi fun h => { h with ch := h.ch.setBank acc (List.replicate (g.ch.bank acc).length 0) },
        q.prog, q.rcount, q.fl⟩ := by
  have hshadow : unshadowed g acc = false := by simp [unshadowed, hframe]
  have hflags := foldl_flags_replicate (g.ch.bank acc).length 0#5
  simp [runUnit, chUnit, hkind, whole, eachEl, eGang, eNeed, eBank, eSetBank, eMod, eFlags, chEnv, hg, hshadow,
    EStateM.run, bind, EStateM.bind, get, getThe, MonadStateOf.get, EStateM.get, pure, EStateM.pure, modify, modifyGet,
    MonadStateOf.modifyGet, EStateM.modifyGet, hflags]

/-- The gang once its `CZERO` of bank `acc` has executed. -/
def zeroed (g : Gang) (q : ChEntry) (acc : Nat) : Gang :=
  { g with ch := { g.ch with
      accs := setAt g.ch.accs acc (List.replicate 4096 0)
      queue := mapIf (·.id == q.id) (fun _ => endEntry { q with steps := q.steps + 1 } .done 0) g.ch.queue } }

theorem runEntry_zero {acc : Nat} (hg : s.gang? gi = some g) (hkind : q.kind = .zero acc) (hcancel : q.cancel = false)
    (hdenied : q.denied = []) (hwaits : q.waits = []) (hframe : g.ch.frame = none)
    (hlen : (g.ch.accs.getD acc []).length = 4096) :
    (runEntry s gi g q).gang? gi = some (zeroed g q acc) ∧ (runEntry s gi g q).mem = s.mem := by
  have hbank : (g.ch.bank acc).length = 4096 := by simpa [Churn.bank, hframe] using hlen
  have hset (x : List W) : g.ch.setBank acc x = { g.ch with accs := setAt g.ch.accs acc x } := by simp [Churn.setBank, hframe]
  have hrun := runUnit_zero (gi := gi) hg hkind hframe
  rw [hbank] at hrun
  have hentry : runEntry s gi g q = putEntry (s.modGang gi fun h => { h with ch := h.ch.setBank acc (List.replicate 4096 0) }) gi
      (endEntry { q with steps := q.steps + 1 } .done 0) := by
    generalize hended : endEntry { q with steps := q.steps + 1 } .done 0 = r
    simp only [runEntry, hcancel, hdenied, hwaits, hrun, hkind, Bool.false_eq_true, if_false, List.isEmpty_nil, Bool.not_true,
      if_true]
    exact congrArg (putEntry _ gi) hended
  refine ⟨?_, by rw [hentry]; rfl⟩
  rw [hentry, putEntry, State.gang?_modGang, State.gang?_modGang, hg]
  simp only [Option.map_some, hset]
  rfl

/-- A bank reads zero once it is cleared, the others as before; the entry stands done at the head of the queue. -/
theorem zeroed_spec {acc : Nat} {rest : List ChEntry} (hqueue : g.ch.queue = q :: rest) (hacc : acc < g.ch.accs.length) :
    (zeroed g q acc).ch.accs.getD acc [] = List.replicate 4096 0 ∧
      (∀ b, b ≠ acc → (zeroed g q acc).ch.accs[b]? = g.ch.accs[b]?) ∧
      ∃ p rest, (zeroed g q acc).ch.queue = p :: rest ∧ p.id = q.id ∧ p.res.map (·.st) = some .done := by
  refine ⟨?_, fun b hb => setAt_get_other _ _ _ _ hb, endEntry { q with steps := q.steps + 1 } .done 0,
    mapIf (·.id == q.id) (fun _ => endEntry { q with steps := q.steps + 1 } .done 0) rest, ?_, rfl, rfl⟩
  · rw [List.getD_eq_getElem?_getD]
    exact congrArg (·.getD []) (setAt_get g.ch.accs acc _ hacc)
  · simp only [zeroed, hqueue, mapIf, List.map_cons, beq_self_eq_true, if_true]

/-- Without an open frame an executed entry that has no block reports to its future and leaves the queue. -/
theorem finishEntry_reports {r : ChRes} {f : FR} {w : Wave} (hg : s.gang? gi = some g) (hw : g.wave? q.wave = some w)
    (hframe : g.ch.frame = none) (hblk : q.hasBlk = false) (hdenied : q.denied = []) (hwaits : q.waits = [])
    (hfreg : q.freg = some f) :
    ∃ h, (finishEntry s gi g q r).gang? gi = some h ∧ h.ch.queue = g.ch.queue.drop 1 ∧
      h.wave? q.wave = some (reportWave w f q.serial r.st r.result r.flags) := by
  have hfinish : finishEntry s gi g q r = popEntry (reportEntry s gi q r ⟨.none, .none⟩) gi := by
    simp [finishEntry, hframe, hblk, hwaits, hdenied, CPlace.unlessDenied, CPlace.parks, CPlace.fails, ChRes.spoilt]
  obtain ⟨t, u, ht, hu, hqueue, hwave⟩ : ∃ (t : State) (u : Gang), reportEntry s gi q r ⟨.none, .none⟩
      = t.modWave gi q.wave (fun w => reportWave w f q.serial r.st r.result r.flags) ∧
        t.gang? gi = some u ∧ u.ch.queue = g.ch.queue ∧ u.wave? q.wave = some w := by
    simp only [reportEntry, putRecord, putBytes, arriveAt, hfreg, reportFut_eq]
    cases r.crowst with
    | none => exact ⟨s, g, rfl, hg, rfl, hw⟩
    | some x =>
      refine ⟨_, { g with ch := { g.ch with crowst := x } }, rfl, ?_, rfl, hw⟩
      rw [State.gang?_modGang, hg]
      rfl
  obtain ⟨hgang, hreported⟩ := gang?_modWave_wave hu hwave fun w => reportWave w f q.serial r.st r.result r.flags
  refine ⟨{ u with
      waves := modAt u.waves q.wave fun w => reportWave w f q.serial r.st r.result r.flags
      ch := { u.ch with queue := u.ch.queue.drop 1 } }, ?_, congrArg (List.drop 1) hqueue, hreported⟩
  rw [hfinish, ht, popEntry, State.gang?_modGang, hgang]
  rfl

end

/-! ## System operations (R299, R318) -/

theorem systemOperationEnd_completes {s : State} {gang gi op : Nat} {g : Gang} {o : EngOp} {st : FState} {n : Nat}
    (hat : GangAt s gang gi g) (hop : g.op? op = some o) (hsys : isEngine o = false)
    (hout : (runSys s gi g o).out = some (st, n)) :
    exec (.systemOperationEnd gang op) s
      = .next (reportFut (keepOp (runSys s gi g o).s gi op none) gi o.wave o.freg o.serial st n 0) := by
  obtain ⟨hidx, hg⟩ := hat
  exact congrArg Host.Outcome.next (by simp only [hidx, hg, hop, hsys, hout, Bool.false_eq_true, if_false])

theorem runSys_ctxload {s : State} {gi : Nat} {g : Gang} {o : EngOp} {pkg : Bool} {ctx : Nat} (hkind : o.kind = .ctxload pkg ctx)
    (hctx : ctx ≤ 63) :
    let mine (x : Gang) : Prop := x.ctx = ctx ∧ (pkg = true ∨ x.die = g.die) ∧ x.st = .saved false
    (runSys s gi g o).out = some (.done, (s.gangs.filter fun x => decide (mine x)).length) ∧
      (runSys s gi g o).s = { s with gangs := s.gangs.map fun x => if mine x then { x with st := .saved true } else x } := by
  intro mine
  have hmine (x : Gang) : (x.ctx == ctx && inScope g.die pkg x.die && x.st == .saved false) = decide (mine x) := by
    simp only [mine, inScope, Bool.decide_and, Bool.decide_or, Bool.decide_eq_true, Bool.and_assoc]
    rfl
  have hrun : runSys s gi g o = runCtxload s g.die pkg ctx := by simp [runSys, hkind, Nat.not_lt.mpr hctx]
  rw [hrun]
  simp only [runCtxload, hmine, mapIf, decide_eq_true_eq, and_self]

theorem runSys_shtblSet {s : State} {gi : Nat} {g : Gang} {o : EngOp} {a : Nat} (hkind : o.kind = .shtblSet a) :
    (a % 2 ^ 16 = 0 → (runSys s gi g o).out = some (.done, 0) ∧ (runSys s gi g o).s = { s with shbase := a }) ∧
      (a % 2 ^ 16 ≠ 0 → (runSys s gi g o).out = some (.failed, 2) ∧ (runSys s gi g o).s = s) := by
  have hrun : runSys s gi g o = runShset s a := by simp only [runSys, hkind]
  rw [hrun, runShset]
  constructor
  · intro h
    rw [h]
    exact ⟨rfl, rfl⟩
  · intro h
    rw [if_pos (bne_iff_ne.mpr h)]
    exact ⟨rfl, rfl⟩

/-- Settles O55: each event does what its operation or entry stands at. -/
theorem engineEventsComplete : Obligations.EngineEventsComplete := by
  unfold Obligations.EngineEventsComplete
  intro s gang gi op units g hat hruns
  have ⟨_, hg⟩ := hat
  refine ⟨fun o f st n w hop hengine hrec hwaits hdenied hout hfreg hw hpending => ?report,
    fun o hop hfree => engineOpEnd_completes hat hruns hop hfree,
    fun o hop hstop => ⟨opCancelStop_completes hat hruns hop hstop, fun hwaits => stopOp_parked _ _ hwaits⟩,
    fun q acc hdue hkind hcancel hdenied hwaits hframe hacc hlen => ?zero,
    fun q hdue => churnEntryExecute_completes hat hdue, fun q r hdone => churnEntryEnd_completes hat hdone,
    fun q r f w hdone hframe hblk hdenied hwaits hfreg hw hpending => ?entry,
    fun o st n hop hsys hout => systemOperationEnd_completes hat hop hsys hout,
    fun o pkg ctx hkind hctx => runSys_ctxload hkind hctx, fun o a hkind => runSys_shtblSet hkind⟩
  case report =>
    have hfree : opFree o = true := by simp [opFree, hengine, hwaits]
    obtain ⟨hgang, hreported⟩ := gang?_modWave_wave hg hw fun w =>
      reportWave w f o.serial st (reportedResult o st n) o.fl
    refine ⟨_, { g with
        waves := modAt g.waves o.wave fun w => reportWave w f o.serial st (reportedResult o st n) o.fl
        eops := g.eops.filter fun x => x.id != o.id }, _, engineOpEnd_completes hat hruns hop hfree, ?_, hreported, ?_, ?_,
      reportWave_fut hpending st _ _, reportWave_flags st _ _⟩
    · rw [advanceOp_reports hrec hwaits hdenied hout hfreg, keepOp, State.gang?_modGang, hgang]
      rfl
    · rw [op?_id hop]
    · rw [advanceOp_reports hrec hwaits hdenied hout hfreg]
      rfl
  case zero =>
    obtain ⟨rest, hqueue⟩ := entryDue_queue hdue
    obtain ⟨hgang, hmem⟩ := runEntry_zero hg hkind hcancel hdenied hwaits hframe hlen
    obtain ⟨hbank, hothers, hhead⟩ := zeroed_spec hqueue hacc
    exact ⟨_, _, churnEntryExecute_completes hat hdue, hgang, hbank, hothers, hmem, hhead⟩
  case entry =>
    obtain ⟨h, hgang, hqueue, hwave⟩ := finishEntry_reports (r := r) hg hw hframe hblk hdenied hwaits hfreg
    exact ⟨_, h, _, churnEntryEnd_completes hat hdone, hgang, hwave, hqueue, reportWave_fut hpending r.st r.result r.flags⟩

end Sys2Proof
end

section
/-! SUPPORT. Events of clocks, power, monitors, scrubbers and bit errors (R175, R278-R284, R355), and the grids that a thermal
shutdown ends. -/

namespace Sys2Proof

open Sys2Proof.Machine Sys2Proof.Claims

/-! ## Dies -/

theorem die?_modDie {s : State} {die : Nat} {d : Die} (hd : s.die? die = some d) (f : Die → Die) :
    (s.modDie die f).die? die = some (f d) := by
  have hget : s.dies[die]? = some d := hd
  exact (modAt_get s.dies die f).trans (by rw [hget]; rfl)

theorem supplyRecovery_die? {s : State} {die : Nat} {d : Die} (hd : s.die? die = some d) (hsag : d.sag = true) :
    ∃ t, exec (.supplyRecovery die) s = .next t ∧ t.die? die = some { d with sag := false, recover := true } := by
  refine ⟨_, rfl, (die?_modDie hd _).trans ?_⟩
  rw [if_pos hsag]

theorem thermalThrottle_spec {s : State} {die : Nat} {d : Die} (hd : s.die? die = some d) :
    ∃ t, exec (.thermalThrottle die) s = .next t ∧ t.die? die = some { d with throttle := d.throttle + 1 } ∧
      t.hub = { s.hub with throt := true } := by
  refine ⟨(s.modDie die Die.lower).modHub fun h => { h with throt := true }, ?_, die?_modDie hd Die.lower, rfl⟩
  exact congrArg Host.Outcome.next (if_pos (by rw [hd]; rfl))

theorem powerCapThrottle_spec (s : State) :
    ∃ t, exec .powerCapThrottle s = .next t ∧ t.hub = { s.hub with throt := true } ∧
      ∀ n x, s.die? n = some x → t.die? n = some { x with throttle := x.throttle + 1 } := by
  refine ⟨_, rfl, rfl, fun n x hx => ?_⟩
  have hget : s.dies[n]? = some x := hx
  exact List.getElem?_map.trans (by rw [hget]; rfl)

theorem throttleRecovery_spec {s : State} {die : Nat} {d : Die} (hd : s.die? die = some d) :
    ∃ t, exec (.throttleRecovery die) s = .next t ∧ t.die? die = some { d with throttle := 0 } ∧
      (t.hub.throt = true ↔ ∃ x ∈ t.dies, x.throttle ≠ 0) := by
  refine ⟨_, rfl, die?_modDie hd _, ?_⟩
  refine List.any_eq_true.trans ?_
  simp only [bne_iff_ne]
  exact Iff.rfl

/-! ## Grids that end (R311, R344) -/

/-- A grid descends from the grid at its root. -/
theorem descends_rootGrid (s : State) (n id : Nat) : s.descends (s.rootGrid n id) n id = true := by
  induction n generalizing id with
  | zero => simp [State.descends, State.rootGrid]
  | succ n ih =>
    unfold State.descends State.rootGrid
    cases hr : s.grid? id with
    | none => simp
    | some r =>
      cases hkind : r.kind with
      | child g w f ser =>
        cases hg : s.gangs.find? (·.id == g) with
        | none => simp [hkind, hg]
        | some y => simp [hkind, hg, ih]
      | _ => simp [hkind]

/-- A record `y` of a grid after some grid has ended: one that was over still is, and so is the ended grid's own unless it had
ended early. -/
def GridAfter (id : Nat) (x y : Grid) : Prop :=
  y.id = x.id ∧ y.early = x.early ∧ (x.over = true → y.over = true) ∧ (x.id = id → x.early = false → y.over = true)

/-- What the end of a grid makes of the record `x` of a grid; `inside` says whether that descends from it. -/
theorem gridAfter_turned (id : Nat) (inside : Bool) (x : Grid) (hin : x.id = id → inside = true) :
    GridAfter id x (if !(inside && !x.early && !x.abort && (true || !x.cancel)) then x
      else { x with
        abort := true, cancel := x.cancel || !true
        stat := if x.cancel then x.stat else if true then 2 else 3 }) := by
  cases hearly : x.early with
  | true => simp [GridAfter, Grid.over, hearly]
  | false =>
    cases habort : x.abort with
    | true => simp [GridAfter, Grid.over, habort]
    | false =>
      cases hinside : inside with
      | true => simp [GridAfter, Grid.over, hearly]
      | false =>
        have hother : x.id ≠ id := fun h => by simp [hin h] at hinside
        simp [GridAfter, hother]

/-- What ending the grid of a fault makes of every grid's record. -/
theorem faultGrid_grids (s : State) (id : Nat) (rep : FaultRep) (x : Grid) (hx : x ∈ s.grids) :
    ∃ y ∈ (faultGrid s id rep).grids, GridAfter id x y := by
  obtain ⟨ms, heq⟩ := faultGrid_eq s id rep
  have hturned := gridAfter_turned id (s.descends (s.rootGrid 9 id) 9 x.id) x fun h => h ▸ descends_rootGrid s 9 id
  rw [heq]
  refine ⟨_, List.mem_map.mpr ⟨_, List.mem_map.mpr ⟨x, hx, rfl⟩, rfl⟩, ?_⟩
  have hcounted (y : Grid) (h : GridAfter id x y) (c : Bool) : GridAfter id x (if c then y.addFault rep else y) := by
    cases c <;> exact h
  exact hcounted _ hturned _

/-- A grid that a list of ended grids names is over after them. -/
theorem foldl_faultGrid_over (rep : FaultRep) (rs : List Grid) (s : State) (x r : Grid) (hx : x ∈ s.grids) (hid : x.id = r.id)
    (hearly : x.early = false) (h : x.over = true ∨ r ∈ rs) :
    ∃ y ∈ (rs.foldl (fun s r => faultGrid s r.id rep) s).grids, y.id = r.id ∧ y.over = true := by
  induction rs generalizing s x with
  | nil => exact ⟨x, hx, hid, h.resolve_right (by simp)⟩
  | cons z rs ih =>
    obtain ⟨y, hy, hyid, hyearly, hkept, hended⟩ := faultGrid_grids s z.id rep x hx
    refine ih (faultGrid s z.id rep) y hy (hyid.trans hid) (hyearly.trans hearly) ?_
    rcases h with hover | hmem
    · exact .inl (hkept hover)
    · rcases List.mem_cons.mp hmem with rfl | hmem
      · exact .inl (hended hid hearly)
      · exact .inr hmem

theorem faultGrid_frame (s : State) (id : Nat) (rep : FaultRep) :
    (faultGrid s id rep).hub = s.hub ∧ (faultGrid s id rep).mem = s.mem := by
  obtain ⟨ms, heq⟩ := faultGrid_eq s id rep
  rw [heq]
  exact ⟨rfl, rfl⟩

theorem thermalShutdown_spec (s : State) :
    ∃ t, exec .thermalShutdown s = .next t ∧ t.hub.thsd = true ∧ t.mem = s.mem ∧
      ∀ r ∈ s.grids, r.kind = .launched → r.early = false → ∃ x ∈ t.grids, x.id = r.id ∧ x.over = true := by
  refine ⟨_, rfl, ?hub, ?mem, fun r hr hkind hearly => ?grids⟩
  case hub =>
    exact foldl_keeps (fun t : State => t.hub.thsd = true) _
      (fun t r ht => (congrArg Hub.thsd (faultGrid_frame t r.id thermalFault).1).trans ht) _ _ rfl
  case mem =>
    exact foldl_keeps (fun t : State => t.mem = s.mem) _ (fun t r ht => (faultGrid_frame t r.id thermalFault).2.trans ht) _ _ rfl
  case grids =>
    refine foldl_faultGrid_over thermalFault _ _ r r hr rfl hearly ?_
    cases habort : r.abort with
    | true => exact .inl (by simp [Grid.over, habort])
    | false => exact .inr (List.mem_filter.mpr ⟨hr, by simp [isChildGrid, hkind, hearly, habort]⟩)

/-! ## Monitors and refresh (R283, R355) -/

theorem thermalShutdownExit_spec {s : State}
    (hcool : ∀ n, n < 64 → montKind n = 0 → ((s.hub.mont[n]?).getD 0).toInt < 800) :
    exec .thermalShutdownExit s = .next { s with hub := { s.hub with thsd := false } } := by
  have hall : s.hub.cool = true := by
    refine List.all_eq_true.mpr fun n hn => ?_
    by_cases hkind : montKind n = 0
    · exact Bool.or_eq_true_iff.mpr (.inr (decide_eq_true (hcool n (List.mem_range.mp hn) hkind)))
    · exact Bool.or_eq_true_iff.mpr (.inl (bne_iff_ne.mpr hkind))
  exact congrArg Host.Outcome.next (if_pos hall)

theorem monitorRefresh_spec {s : State} {n : Nat} (v : BitVec 16) (hlen : s.hub.mont.length = 64) (hn : n < 64) :
    ∃ t, exec (.monitorRefresh n v) s = .next t ∧ montWord t.hub n = v.toNat + montKind n * 2 ^ 16 + n / 16 * 2 ^ 20 := by
  have hget : (setAt s.hub.mont n v)[n]? = some v := setAt_get _ _ _ (by omega)
  refine ⟨_, rfl, ?_⟩
  simp only [montWord, State.modHub, hget, Option.getD_some]

theorem hayloftRefresh_spec {s : State} {die : Nat} {d : Die} (hd : s.die? die = some d) :
    ∃ n, exec (.hayloftRefresh die) s = .next { s with fabric := s.fabric + n } ∧
      ({ s with fabric := s.fabric + n } : State).phase die = (s.phase die / 3000 + 1) % 32 * 3000 := by
  refine ⟨3000 - s.phase die % 3000, congrArg Host.Outcome.next (if_pos (by rw [hd]; rfl)), ?_⟩
  simp only [State.phase]
  omega

/-! ## Bit errors (R175, R278-R284) -/

/-- An uncorrectable error poisons its granule of device memory and no other. -/
theorem memoryBitError_granule {s : State} {key : Nat} (hkey : key < Config.devBytes) :
    ∃ t, exec (.memoryBitError (.granule key) true) s = .next t ∧ t.locBad 0 (.mem key) = true ∧ t.mem = s.mem ∧
      ∀ k, k / 8 ≠ key / 8 → t.locBad 0 (.mem k) = s.locBad 0 (.mem k) := by
  refine ⟨s.setBad 0 (.mem (key / 8)) true, congrArg Host.Outcome.next (if_pos (by simp [hkey])), ?_, rfl, fun k hk => ?_⟩
  · simp [State.locBad, State.setBad, addBad_mem]
  · simp [State.locBad, State.setBad, List.contains_eq_mem, addBad_mem, hk]

theorem memoryBitError_scratch {s : State} {gang gi : Nat} {g : Gang} {word : Nat} (hat : GangAt s gang gi g)
    (hin : 8 * word < g.spadLen) :
    ∃ t, exec (.memoryBitError (.scratch gang word) true) s = .next t ∧ t.locBad gi (.spad (8 * word)) = true := by
  obtain ⟨hidx, hg⟩ := hat
  refine ⟨s.setBad gi (.spad word) true, congrArg Host.Outcome.next ?_, ?_⟩
  · simp only [hidx, hg, Option.any_some, hin, decide_true, Bool.and_self, if_true]
  · simp [State.locBad, State.setBad, State.gang?_modGang, hg, addBad_mem]

theorem memoryBitError_l1 (s : State) (byre line : Nat) (u : Bool) :
    ∃ t, exec (.memoryBitError (.l1 byre line) u) s = .next t ∧ t.mem = s.mem ∧ ∀ c ∈ t.l1, ¬(c.byre = byre ∧ c.key = line) := by
  refine ⟨_, rfl, rfl, fun c hc => ?_⟩
  have hkept := (List.mem_filter.mp hc).2
  rintro ⟨hbyre, hkey⟩
  simp [hbyre, hkey] at hkept

/-- A correctable error changes nothing. -/
theorem memoryBitError_correctable {s : State} {site : ErrSite} (h : ∀ byre line, site ≠ .l1 byre line) :
    exec (.memoryBitError site false) s = .next s := by
  refine congrArg Host.Outcome.next ?_
  cases site with
  | scratch gang word =>
    dsimp only
    split <;> rfl
  | granule key => rfl
  | l1 byre line => exact absurd rfl (h byre line)

/-- Settles O60: each event does what its definition says to one die, the hub or one place. -/
theorem clockAndErrorEvents : Obligations.ClockAndErrorEvents := by
  unfold Obligations.ClockAndErrorEvents
  intro s die d hd
  exact ⟨⟨_, rfl, die?_modDie hd _⟩, supplyRecovery_die? hd, ⟨_, rfl, die?_modDie hd _⟩, thermalThrottle_spec hd,
    powerCapThrottle_spec s, throttleRecovery_spec hd, thermalShutdown_spec s, thermalShutdownExit_spec,
    fun n v hlen hn => monitorRefresh_spec v hlen hn, fun g n => ⟨rfl, rfl⟩, hayloftRefresh_spec hd,
    fun site h => memoryBitError_correctable h, fun key hkey => memoryBitError_granule hkey,
    fun gang gi g word hat hin => memoryBitError_scratch hat hin, memoryBitError_l1 s⟩

end Sys2Proof
end

section
/-! SUPPORT. What stores leave in device memory, whatever their places hold (R171, R265), and the host's side: bring-up, the
launch port, the hub's registers and the host's window (R349-R354). -/

namespace Sys2Proof

open Sys2Proof.Machine Sys2Proof.Claims

/-! ## Stores at device memory -/

/-- One byte of a store as the stores before it leave the machine: a partial store to a poisoned scratchpad word is not kept. -/
def putKept (s : State) (gi byre : Nat) (cls : Option PClass) (bs : List StByte) (t : State) (b : StByte) : State :=
  if !(b.loc.isSpad && s.locBad gi b.loc && !coversGranule bs b.loc.granule) then putStored gi byre cls t b else t

theorem storePut_eq (s : State) (gi byre : Nat) (cls : Option PClass) (bs : List StByte) :
    storePut s gi byre cls bs = putMarks gi bs (bs.foldl (putKept s gi byre cls bs) s) := rfl

theorem mem_putMarks (gi : Nat) (bs : List StByte) (t : State) : (putMarks gi bs t).mem = t.mem := by
  have hset (u : State) (x : Loc) (b : Bool) : (u.setBad gi x b).mem = u.mem := by cases x <;> rfl
  refine foldl_keeps (fun u : State => u.mem = t.mem) _ (fun u x hu => ?_) _ t rfl
  split
  · exact (hset u x true).trans hu
  · split
    · exact (hset u x false).trans hu
    · exact hu

section
variable (s : State) (gi byre : Nat) (cls : Option PClass) (bs : List StByte)

/-- A byte of device memory is always kept; one of a scratchpad changes no device memory. -/
theorem mem_putKept (t : State) (b : StByte) :
    (putKept s gi byre cls bs t b).mem = match b.loc with | .mem k => t.mem.put k b.byte | .spad _ => t.mem := by
  unfold putKept
  cases hloc : b.loc with
  | mem k => simp [Loc.isSpad, (putStored_frame gi byre cls t b).1, hloc, State.putByte]
  | spad x =>
    split
    · rw [(putStored_frame gi byre cls t b).1, hloc]
      rfl
    · rfl

theorem mem_foldl_putKept_wf (xs : List StByte) (t : State) (h : t.mem.wf = true) :
    (xs.foldl (putKept s gi byre cls bs) t).mem.wf = true := by
  refine foldl_keeps (fun u : State => u.mem.wf = true) _ (fun u b hu => ?_) xs t h
  rw [mem_putKept]
  split
  · exact Memory.put_wf _ _ _ hu
  · exact hu

theorem get_foldl_putKept (xs : List StByte) (t : State) (k : Nat) (h : t.mem.wf = true) :
    (xs.foldl (putKept s gi byre cls bs) t).mem.get k = (lastByte xs (.mem k)).getD (t.mem.get k) := by
  induction xs using List.reverseRecOn with
  | nil => rfl
  | append_singleton xs b ih =>
    rw [List.foldl_concat, mem_putKept, lastByte_concat]
    cases hloc : b.loc with
    | spad x => simpa using ih
    | mem j =>
      rw [Memory.get_put _ _ _ _ (mem_foldl_putKept_wf s gi byre cls bs xs t h), ih]
      by_cases hj : k = j
      · simp [hj]
      · have hj' : j ≠ k := fun h => hj h.symm
        simp [hj, hj']

/-- Every byte of device memory reads the last byte that a store holds for it, or what it held. -/
theorem get_storePut (k : Nat) (h : s.mem.wf = true) :
    (storePut s gi byre cls bs).mem.get k = (lastByte bs (.mem k)).getD (s.mem.get k) := by
  rw [storePut_eq, mem_putMarks, get_foldl_putKept s gi byre cls bs bs s k h]

theorem get_storeAs (t : PClass) (k : Nat) (h : s.mem.wf = true) :
    (storeAs s gi byre t bs).mem.get k = (lastByte bs (.mem k)).getD (s.mem.get k) := by
  obtain ⟨hmem, -, -⟩ := keepOlds_frame s t (linesOf bs)
  rw [storeAs, get_storePut _ gi byre (some t) bs k (by rw [hmem]; exact h), hmem]

theorem mem_granulesOf (g : Loc) (h : g ∈ granulesOf bs) : ∃ b ∈ bs, b.loc.granule = g := by
  induction bs with
  | nil => cases h
  | cons b bs ih =>
    rcases Decidable.em (b.loc.granule = g) with hb | hb
    · exact ⟨b, List.mem_cons_self, hb⟩
    · have hrest : g ∈ granulesOf bs := by
        simp only [granulesOf] at h
        split at h
        · exact h
        · exact (List.mem_cons.mp h).resolve_left fun hg => hb hg.symm
      obtain ⟨c, hc, hcg⟩ := ih hrest
      exact ⟨c, List.mem_cons_of_mem b hc, hcg⟩

variable (hmem : ∀ b ∈ bs, b.loc.isSpad = false)
include hmem

/-- A store of device memory changes no gang. -/
theorem storePut_gangs : (storePut s gi byre cls bs).gangs = s.gangs := by
  have hbytes : ∀ xs : List StByte, (∀ b ∈ xs, b.loc.isSpad = false) → ∀ t : State,
      (xs.foldl (putKept s gi byre cls bs) t).gangs = t.gangs := by
    intro xs
    induction xs with
    | nil => exact fun _ t => rfl
    | cons b xs ih =>
      intro h t
      obtain ⟨hb, hxs⟩ := List.forall_mem_cons.mp h
      have hput : (putKept s gi byre cls bs t b).gangs = t.gangs := by
        unfold putKept
        split
        · rw [(putStored_frame gi byre cls t b).2]
          cases hloc : b.loc with
          | mem k => rfl
          | spad x => simp [hloc, Loc.isSpad] at hb
        · rfl
      rw [List.foldl_cons, ih hxs, hput]
  have hset (u : State) (x : Loc) (hx : x.isSpad = false) (b : Bool) : (u.setBad gi x b).gangs = u.gangs := by
    cases x with
    | mem k => rfl
    | spad y => simp [Loc.isSpad] at hx
  have hmarks : ∀ xs : List Loc, (∀ x ∈ xs, x.isSpad = false) → ∀ t : State, (xs.foldl (fun t g =>
      if bs.any fun b => b.loc.granule == g && b.bad then t.setBad gi g true
      else if coversGranule bs g then t.setBad gi g false
      else t) t).gangs = t.gangs := by
    intro xs
    induction xs with
    | nil => exact fun _ t => rfl
    | cons x xs ih =>
      intro h t
      obtain ⟨hx, hxs⟩ := List.forall_mem_cons.mp h
      rw [List.foldl_cons, ih hxs]
      split
      · exact hset t x hx true
      · split
        · exact hset t x hx false
        · rfl
  have hgranules : ∀ x ∈ granulesOf bs, x.isSpad = false := fun x hx => by
    obtain ⟨b, hb, rfl⟩ := mem_granulesOf bs x hx
    have := hmem b hb
    cases hloc : b.loc with
    | mem k => rfl
    | spad y => simp [hloc, Loc.isSpad] at this
  rw [storePut_eq, putMarks, hmarks _ hgranules, hbytes bs hmem]

theorem storeAs_gangs (t : PClass) : (storeAs s gi byre t bs).gangs = s.gangs := by
  obtain ⟨-, hgangs, -⟩ := keepOlds_frame s t (linesOf bs)
  rw [storeAs, storePut_gangs _ gi byre (some t) bs hmem, hgangs]

end

/-- The bytes `bs` as they are stored from `a` on. -/
def bytesAt (a : Nat) (bs : List Byte) : List StByte := (bs.zip (List.range bs.length)).map fun p => ⟨.mem (a + p.2), p.1, false⟩

theorem mem_bytesAt (a : Nat) (bs : List Byte) (b : StByte) :
    b ∈ bytesAt a bs ↔ ∃ i x, bs[i]? = some x ∧ b = ⟨.mem (a + i), x, false⟩ := by
  constructor
  · intro h
    obtain ⟨⟨x, i⟩, hp, rfl⟩ := List.mem_map.mp h
    obtain ⟨n, hn⟩ := List.mem_iff_getElem?.mp hp
    obtain ⟨hx, hi⟩ := (List.getElem?_zip_eq_some (z := (x, i))).mp hn
    obtain ⟨hlt, hni⟩ := List.getElem?_eq_some_iff.mp hi
    obtain rfl : n = i := by simpa using hni
    exact ⟨n, x, hx, rfl⟩
  · rintro ⟨i, x, hx, rfl⟩
    have hi : (List.range bs.length)[i]? = some i := List.getElem?_range (List.getElem?_eq_some_iff.mp hx).1
    exact List.mem_map.mpr ⟨(x, i), List.mem_iff_getElem?.mpr ⟨i, List.getElem?_zip_eq_some.mpr ⟨hx, hi⟩⟩, rfl⟩

theorem lastByte_bytesAt (a k : Nat) (bs : List Byte) :
    lastByte (bytesAt a bs) (.mem k) = if a ≤ k then bs[k - a]? else none := by
  by_cases hk : a ≤ k
  · rw [if_pos hk]
    cases hx : bs[k - a]? with
    | some x =>
      have hmem : (⟨.mem k, x, false⟩ : StByte) ∈ bytesAt a bs :=
        (mem_bytesAt a bs _).mpr ⟨k - a, x, hx, by rw [Nat.add_sub_cancel' hk]⟩
      refine lastByte_eq_some (bytesAt a bs) _ hmem fun c hc hloc => ?_
      obtain ⟨i, y, hy, rfl⟩ := (mem_bytesAt a bs c).mp hc
      have hi : i = k - a := by
        have : a + i = k := Loc.mem.inj hloc
        omega
      subst hi
      rw [hx] at hy
      rw [Nat.add_sub_cancel' hk, Option.some.inj hy]
    | none =>
      refine lastByte_eq_none _ _ fun c hc hloc => ?_
      obtain ⟨i, y, hy, rfl⟩ := (mem_bytesAt a bs c).mp hc
      have hi : i = k - a := by
        have : a + i = k := Loc.mem.inj hloc
        omega
      rw [hi, hx] at hy
      cases hy
  · rw [if_neg hk]
    refine lastByte_eq_none _ _ fun c hc hloc => ?_
    obtain ⟨i, y, -, rfl⟩ := (mem_bytesAt a bs c).mp hc
    have : a + i = k := Loc.mem.inj hloc
    omega

/-! ## Bring-up (R351) -/

theorem mem_mapOf (m : List Nat) (p : Nat) : p ∈ mapOf m ↔ p = Config.pkg ∨ p ∈ m ∧ p < 512 := by
  have hfold : ∀ (xs acc : List Nat), p ∈ xs.foldl (fun m p => insertNat p m) acc ↔ p ∈ acc ∨ p ∈ xs := by
    intro xs
    induction xs with
    | nil => simp
    | cons x xs ih =>
      intro acc
      rw [List.foldl_cons, ih, insertNat_mem, List.mem_cons]
      tauto
  simp [mapOf, hfold, List.mem_filter]

/-- Places of device memory and of Hayloft, by their granule or line too, are not away. -/
theorem isAway_of_own (k : Nat) (h : k < Config.devBytes ∨ Config.hayKey 0 0 ≤ k) : isAway k = false := by
  rcases h with h | h <;> simp [isAway] <;> omega

theorem clearMemory_clears (s : State) (k : Nat) (h : k < Config.devBytes ∨ Config.hayKey 0 0 ≤ k) :
    (clearMemory s).mem.get k = 0 ∧ (clearMemory s).memBad.contains (k / 8) = false := by
  have hgranule : isAway (8 * (k / 8)) = false := by
    refine isAway_of_own _ ?_
    simp only [Config.devBytes, Config.hayKey] at h ⊢
    omega
  refine ⟨Memory.get_filter_out _ s.mem k fun b => isAway_of_own k h, ?_⟩
  simp [clearMemory, List.contains_eq_mem, List.mem_filter, hgranule]

theorem placeService_hasService (s : State) (die d : Nat) (h : s.hasService d = true ∨ d = die) :
    (placeService s die).hasService d = true := by
  simp only [State.hasService, placeService, List.any_append, Bool.or_eq_true]
  rcases h with h | rfl
  · exact .inl h
  · exact .inr (by simp [serviceGang, blankGang])

theorem foldl_placeService_hasService (ds : List Nat) (s : State) (d : Nat) (h : s.hasService d = true ∨ d ∈ ds) :
    (ds.foldl placeService s).hasService d = true := by
  induction ds generalizing s with
  | nil => exact h.resolve_right (by simp)
  | cons x ds ih =>
    refine ih (placeService s x) ?_
    rcases h with h | h
    · exact .inl (placeService_hasService s x d (.inl h))
    · rcases List.mem_cons.mp h with rfl | h
      · exact .inl (placeService_hasService s d d (.inr rfl))
      · exact .inr h

theorem foldl_placeService_hub (ds : List Nat) (s : State) : (ds.foldl placeService s).hub = s.hub :=
  foldl_keeps (fun t : State => t.hub = s.hub) placeService (fun _ _ ht => ht) ds s rfl

section
variable {s : State} (hrun : s.hub.bringing = true) (m : List Nat)
include hrun

theorem bringUp_go (hstage : s.hub.stage ≠ 1) : exec (.bringUp .go m) s = .next (stageEnd m s) :=
  congrArg Host.Outcome.next (if_pos (by simp [hrun, hstage]))

theorem bringUp_image (signed : Bool) (v : W) (hstage : s.hub.stage = 1) :
    exec (.bringUp (.image signed v) m) s = .next (s.modHub (imageEnd signed v)) :=
  congrArg Host.Outcome.next (if_pos (by simp [hrun, hstage]))

theorem bringUp_fail : exec (.bringUp .fail m) s = .next (s.modHub Hub.failed) := congrArg Host.Outcome.next (if_pos hrun)

end

/-- An image is taken when its signature holds and it is not older than the fused counter (R354). -/
theorem modHub_imageEnd (s : State) (signed : Bool) (v : W) :
    s.modHub (imageEnd signed v) = if signed = true ∧ s.hub.rollback ≤ v then
      { s with hub := { s.hub with stage := 2, version := v } } else { s with hub := { s.hub with stage := 0xFF, fail := true } } := by
  by_cases h : signed = true ∧ s.hub.rollback ≤ v
  · rw [if_pos h, State.modHub, imageEnd, if_pos (by simpa using h)]
  · rw [if_neg h, State.modHub, imageEnd, if_neg (by simpa using h)]
    rfl

theorem stageEnd_idle (m : List Nat) {s : State} (h : s.hub.stage ∈ [2, 3, 4]) :
    stageEnd m s = { s with hub := { s.hub with stage := s.hub.stage + 1 } } := by
  unfold stageEnd
  split
  case h_4 => rfl
  all_goals simp_all

theorem stageEnd_five (m : List Nat) {s : State} (h : s.hub.stage = 5) :
    (stageEnd m s).hub.stage = 6 ∧ (stageEnd m s).hub.podMap = mapOf m ∧ (stageEnd m s).mem = (clearMemory s).mem ∧
      (stageEnd m s).memBad = (clearMemory s).memBad := by
  simp only [stageEnd, h]
  exact ⟨congrArg (· + 1) h, rfl, rfl, rfl⟩

theorem stageEnd_six (m : List Nat) {s : State} (h : s.hub.stage = 6) :
    (stageEnd m s).hub.stage = 7 ∧ ∀ d, d < 4 → (stageEnd m s).hasService d = true := by
  simp only [stageEnd, h]
  refine ⟨?_, fun d hd => foldl_placeService_hasService _ s d (.inr (List.mem_range.mpr hd))⟩
  exact congrArg (·.stage + 1) (foldl_placeService_hub (List.range 4) s) |>.trans (congrArg (· + 1) h)

theorem stageEnd_seven (m : List Nat) {s : State} (h : s.hub.stage = 7) :
    stageEnd m s = { s with hub := { s.hub with ready := true }, timeNs := 0 } := by
  unfold stageEnd
  split
  case h_3 => rfl
  all_goals simp_all

theorem bringUp_spec (s : State) (m : List Nat) :
    let failed : State := { s with hub := { s.hub with stage := 0xFF, fail := true } }
    (∃ t, exec (.bringUp .start m) s = .next t ∧ t.mem = [] ∧ t.memBad = [] ∧ t.gangs = [] ∧ t.ctxs = [] ∧
      t.timeNs = 0 ∧ t.hub.stage = 1 ∧ t.hub.ready = false ∧ t.hub.fail = false ∧ t.hub.rollback = s.hub.rollback) ∧
    (s.hub.bringing = true →
      exec (.bringUp .fail m) s = .next failed ∧
      (∀ signed v, s.hub.stage = 1 → exec (.bringUp (.image signed v) m) s = .next
        (if signed = true ∧ s.hub.rollback ≤ v then { s with hub := { s.hub with stage := 2, version := v } } else failed)) ∧
      (s.hub.stage ∈ [2, 3, 4] → exec (.bringUp .go m) s
        = .next { s with hub := { s.hub with stage := s.hub.stage + 1 } }) ∧
      (s.hub.stage = 5 → ∃ t, exec (.bringUp .go m) s = .next t ∧ t.hub.stage = 6 ∧
        (∀ p, p ∈ t.hub.podMap ↔ p = Config.pkg ∨ p ∈ m ∧ p < 512) ∧
        (s.mem.wf = true → ∀ k, (k < Config.devBytes ∨ Config.hayKey 0 0 ≤ k) →
          t.mem.get k = 0 ∧ t.memBad.contains (k / 8) = false)) ∧
      (s.hub.stage = 6 → ∃ t, exec (.bringUp .go m) s = .next t ∧ t.hub.stage = 7 ∧ ∀ d, d < 4 → t.hasService d = true) ∧
      (s.hub.stage = 7 → exec (.bringUp .go m) s = .next { s with hub := { s.hub with ready := true }, timeNs := 0 })) := by
  refine ⟨⟨_, rfl, rfl, rfl, rfl, rfl, rfl, rfl, rfl, rfl, rfl⟩, fun hrun => ⟨bringUp_fail hrun m, fun signed v hstage => ?_,
    fun hstage => ?_, fun hstage => ?_, fun hstage => ?_, fun hstage => ?_⟩⟩
  · rw [bringUp_image hrun m signed v hstage, modHub_imageEnd]
  · have hone : s.hub.stage ≠ 1 := fun h => by simp [h] at hstage
    rw [bringUp_go hrun m hone, stageEnd_idle m hstage]
  · obtain ⟨hnext, hmap, hmem, hbad⟩ := stageEnd_five m hstage
    refine ⟨_, bringUp_go hrun m (by omega), hnext, fun p => ?_, fun _ k hk => ?_⟩
    · rw [hmap]
      exact mem_mapOf m p
    · rw [hmem, hbad]
      exact clearMemory_clears s k hk
  · obtain ⟨hnext, hservice⟩ := stageEnd_six m hstage
    exact ⟨_, bringUp_go hrun m (by omega), hnext, hservice⟩
  · rw [bringUp_go hrun m (by omega), stageEnd_seven m hstage]

end Sys2Proof
end

section
/-! SUPPORT. The launch port, the hub's registers and the host's window into device memory (R349, R350, R352, R355). -/

namespace Sys2Proof

open Sys2Proof.Machine Sys2Proof.Claims

/-! ## The launch port (R352) -/

/-- What a command of the launch port does and reports. -/
def lpRun (s : State) (cmd : D) (code : Nat) : State × Nat :=
  if code = 1 then createCtx s else if code = 2 then startSteward s (cmd.toNat / 256 % 64)
  else if code = 3 then destroyCtx s (cmd.toNat / 256 % 64) else attest s

/-- The four command words are writes of their codes. -/
theorem exec_command {s : State} {cmd : D} {code : Nat} {i : Instr}
    (hi : (i, code) ∈ [(Instr.create cmd, 1), (.startSteward cmd, 2), (.destroy cmd, 3), (.attest cmd, 4)]) :
    ∃ run : State → State × Nat, exec i s = .next (lpWrite code cmd s run) ∧ run s = lpRun s cmd code := by
  simp only [List.mem_cons, Prod.mk.injEq, List.not_mem_nil, or_false] at hi
  rcases hi with ⟨rfl, rfl⟩ | ⟨rfl, rfl⟩ | ⟨rfl, rfl⟩ | ⟨rfl, rfl⟩
  · exact ⟨createCtx, rfl, by simp [lpRun]⟩
  · exact ⟨fun s => startSteward s (cmdCtx cmd), rfl, by simp [lpRun, cmdCtx]⟩
  · exact ⟨fun s => destroyCtx s (cmdCtx cmd), rfl, by simp [lpRun, cmdCtx]⟩
  · exact ⟨attest, rfl, by simp [lpRun]⟩

theorem lpOpen_eq_false {h : Hub} (hbusy : h.ready = false ∨ h.lpbusy = true) : lpOpen h = false := by
  rcases hbusy with h' | h' <;> simp [lpOpen, h']

theorem lpWrite_refused {s : State} {cmd : D} {code : Nat} (hcode : cmd.toNat % 16 = code)
    (hbusy : s.hub.ready = false ∨ s.hub.lpbusy = true) (run : State → State × Nat) :
    lpWrite code cmd s run = { s with hub := { s.hub with lperr := true } } := by
  simp only [lpWrite, hcode, bne_self_eq_false, Bool.false_eq_true, if_false, lpOpen_eq_false hbusy, Bool.not_false, if_true]
  rfl

theorem lpWrite_taken {s : State} {cmd : D} {code : Nat} (hcode : cmd.toNat % 16 = code) (hready : s.hub.ready = true)
    (hfree : s.hub.lpbusy = false) (run : State → State × Nat) :
    lpWrite code cmd s run = { (run s).1 with
      hub := { (run s).1.hub with lpcmd := cmd, lpbusy := true, result := BitVec.ofNat 32 (run s).2 } } := by
  have hopen : lpOpen s.hub = true := by simp [lpOpen, hready, hfree]
  simp only [lpWrite, hcode, bne_self_eq_false, Bool.false_eq_true, if_false, hopen, Bool.not_true]
  rfl

theorem launchPortReject_busy {s : State} (cmd : D) (hbusy : s.hub.ready = false ∨ s.hub.lpbusy = true) :
    exec (.launchPortReject cmd) s = .next { s with hub := { s.hub with lperr := true } } :=
  congrArg Host.Outcome.next (if_pos (by rw [lpOpen_eq_false hbusy]; rfl))

/-- A command other than Destroy ends with its result. -/
theorem launchPortCommandEnd_other {s : State} (hbusy : s.hub.lpbusy = true) (hcode : s.hub.lpcmd.toNat % 16 ≠ 3) :
    exec .launchPortCommandEnd s = .next { s with hub := { s.hub with lpstat := s.hub.result, lpbusy := false } } := by
  refine congrArg Host.Outcome.next ?_
  have hdone : lpDone s = true := by simp [lpDone, hbusy, hcode]
  have hother : (s.hub.lpcmd.toNat % 16 == 3 && s.hub.result == 0) = false := by simp [hcode]
  simp only [hdone, if_true, hother, Bool.false_eq_true, if_false]
  rfl

/-- A Destroy ends once its gangs have stopped, and its context is gone. -/
theorem launchPortCommandEnd_destroy {s : State} (hbusy : s.hub.lpbusy = true) (hcode : s.hub.lpcmd.toNat % 16 = 3)
    (hresult : s.hub.result = 0) (hstopped : ctxStopped s (cmdCtx s.hub.lpcmd) = true) :
    ∃ t, exec .launchPortCommandEnd s = .next t ∧ t.hub.lpstat = 0 ∧ t.hub.lpbusy = false ∧
      t.ctx? (cmdCtx s.hub.lpcmd) = none := by
  have hdone : lpDone s = true := by simp [lpDone, hbusy, hstopped]
  have hdestroy : (s.hub.lpcmd.toNat % 16 == 3 && s.hub.result == 0) = true := by simp [hcode, hresult]
  refine ⟨(dropCtx s (cmdCtx s.hub.lpcmd)).modHub fun h => { h with lpstat := h.result, lpbusy := false },
    congrArg Host.Outcome.next ?_, hresult, rfl, ?_⟩
  · simp only [hdone, if_true, hdestroy]
  · refine List.find?_eq_none.mpr fun c hc hid => ?_
    have hother := (List.mem_filter.mp hc).2
    simp only [beq_iff_eq] at hid
    simp [hid] at hother

/-! ## Hub registers (R350, R355) -/

theorem capStored_range (n : Nat) : capStored n = 0 ∨ 800 ≤ capStored n ∧ capStored n ≤ 3200 := by
  by_cases h : n = 0
  · simp [capStored, h]
  · simp only [capStored, beq_iff_eq, h, if_false]
    omega

theorem pcapWrite_spec (s : State) (v : W) :
    ∃ t, exec (.pcapWrite v) s = .next t ∧ t.hub.pcap.toNat = capStored (v.toNat % 2 ^ 12) ∧
      (t.hub.pcap = 0 ∨ 800 ≤ t.hub.pcap.toNat ∧ t.hub.pcap.toNat ≤ 3200) := by
  have hrange := capStored_range (v.toNat % 2 ^ 12)
  have hstored : (BitVec.ofNat 12 (capStored (v.toNat % 2 ^ 12))).toNat = capStored (v.toNat % 2 ^ 12) := by
    rw [BitVec.toNat_ofNat]
    exact Nat.mod_eq_of_lt (by omega)
  refine ⟨_, rfl, hstored, ?_⟩
  rcases hrange with h | h
  · exact .inl (BitVec.eq_of_toNat_eq (hstored.trans h))
  · exact .inr ⟨hstored ▸ h.1, hstored ▸ h.2⟩

theorem hubRegisterWrite_spec (s : State) (v : D) :
    exec (.hubRegisterWrite 0x18 v) s = .next { s with hub := { s.hub with lparg := v } } ∧
      ∀ off, off ≠ 0x18 → exec (.hubRegisterWrite off v) s = .next s :=
  ⟨rfl, fun _ hoff => congrArg Host.Outcome.next (if_neg (by simpa using hoff))⟩

/-! ## The host's window (R349) -/

theorem hostByte_untagged {s : State} (htags : s.tags = []) (a : Nat) :
    hostByte s a = if Config.sysBase ≤ a then 0 else s.mem.get a := by
  simp only [hostByte, htags, List.find?_nil]

theorem hostRead_spec (s : State) (a n : Nat) :
    ∃ t, exec (.hostRead a n) s = .next t ∧ t.hostData.length = n ∧ t.mem = s.mem ∧ t.gangs = s.gangs ∧
      (∀ i, i < n → Config.sysBase ≤ a + i → t.hostData[i]? = some 0) ∧
      (s.tags = [] → ∀ i, i < n → a + i < Config.sysBase → t.hostData[i]? = some (s.mem.get (a + i))) := by
  have hread (i : Nat) (hi : i < n) : ((List.range n).map fun i => hostByte s (a + i))[i]? = some (hostByte s (a + i)) := by
    rw [List.getElem?_map, List.getElem?_range hi, Option.map_some]
  refine ⟨_, rfl, by simp, rfl, rfl, fun i hi hsys => (hread i hi).trans ?_, fun htags i hi hbelow => (hread i hi).trans ?_⟩
  · rw [hostByte, if_pos hsys]
  · rw [hostByte_untagged htags, if_neg (Nat.not_le.mpr hbelow)]

/-- Where no line is under a key, lines come to stand in plain view by leaving the LLC. -/
theorem foldl_dropLine_untagged (s : State) (htags : s.tags = []) (a : Nat) (is : List Nat) :
    ∃ llc, is.foldl (fun s i => dropLine s (a + i)) s = { s with llc := llc } := by
  induction is generalizing s with
  | nil => exact ⟨s.llc, rfl⟩
  | cons i is ih =>
    have hdrop : dropLine s (a + i) = { s with llc := s.llc.filter (· != a + i) } := by
      simp only [dropLine, htags, List.find?_nil]
    obtain ⟨llc, hllc⟩ := ih { s with llc := s.llc.filter (· != a + i) } htags
    exact ⟨llc, by rw [List.foldl_cons, hdrop, hllc]⟩

theorem hostWrite_spec {s : State} (a : Nat) (bs : List Byte) (hwf : s.mem.wf = true) (htags : s.tags = []) :
    ∃ t, exec (.hostWrite a bs) s = .next t ∧ t.gangs = s.gangs ∧
      ∀ k, t.mem.get k = if a ≤ k ∧ k < a + bs.length ∧ k < Config.sysBase then bs.getD (k - a) 0 else s.mem.get k := by
  obtain ⟨llc, hllc⟩ := foldl_dropLine_untagged s htags (a / 128)
    (List.range ((a + (bs.take (Config.sysBase - a)).length + 127) / 128 - a / 128))
  have hlocal : ∀ b ∈ bytesAt a (bs.take (Config.sysBase - a)), b.loc.isSpad = false := fun b hb => by
    obtain ⟨i, x, -, rfl⟩ := (mem_bytesAt a _ b).mp hb
    rfl
  have hbyte (k : Nat) : (lastByte (bytesAt a (bs.take (Config.sysBase - a))) (.mem k)).getD (s.mem.get k)
      = if a ≤ k ∧ k < a + bs.length ∧ k < Config.sysBase then bs.getD (k - a) 0 else s.mem.get k := by
    rw [lastByte_bytesAt]
    by_cases hk : a ≤ k ∧ k < a + bs.length ∧ k < Config.sysBase
    · obtain ⟨hlo, hhi, hsys⟩ := hk
      rw [if_pos hlo, if_pos ⟨hlo, hhi, hsys⟩, List.getElem?_take_of_lt (by omega), List.getD_eq_getElem?_getD,
        List.getElem?_eq_getElem (by omega), Option.getD_some, Option.getD_some]
    · rw [if_neg hk]
      by_cases hlo : a ≤ k
      · rw [if_pos hlo, List.getElem?_eq_none (by simp only [List.length_take]; omega), Option.getD_none]
      · rw [if_neg hlo, Option.getD_none]
  refine ⟨_, rfl, ?gangs, fun k => ?bytes⟩
  case gangs =>
    rw [hllc]
    split
    · rfl
    · exact storeAs_gangs { s with llc := llc } 0 320 _ hlocal .h
  case bytes =>
    rw [hllc, ← hbyte k]
    split
    case isTrue hempty =>
      rw [List.isEmpty_iff.mp hempty]
      rfl
    case isFalse => exact get_storeAs { s with llc := llc } 0 320 _ .h k hwf

/-- Settles O59: bring-up stage by stage, the port's commands, the registers, and the bytes of the host's window. -/
theorem hostEventsComplete : Obligations.HostEventsComplete := by
  unfold Obligations.HostEventsComplete
  intro s
  refine ⟨bringUp_spec s, fun cmd code i hcode hi => ?_, fun cmd hbusy => launchPortReject_busy cmd hbusy,
    launchPortCommandEnd_other, launchPortCommandEnd_destroy, fun v => ⟨rfl, pcapWrite_spec s v⟩, hubRegisterWrite_spec s,
    hostRead_spec s, fun a bs hwf htags => hostWrite_spec a bs hwf htags⟩
  obtain ⟨run, hexec, hrun⟩ := exec_command (s := s) hi
  refine ⟨fun hbusy => ?_, fun hready hfree => ?_⟩
  · rw [hexec, lpWrite_refused hcode hbusy]
  · rw [hexec, lpWrite_taken hcode hready hfree, hrun]
    rfl

end Sys2Proof
end

section
/-! SUPPORT. Every step answers a next state (R23, R309): events always do, words do where a split stands for them. -/

namespace Sys2Proof

open Sys2Proof.Machine Sys2Proof.Claims

/-! ## The meaning of one instruction -/

/-- Some resident split stands as the issuing one. -/
def HasIssuer (s : State) : Prop := ∃ g w, s.gang? s.cur.gang = some g ∧ g.wave? s.cur.wave = some w

theorem hasIssuer_of_env {s : State} {word : D} {e : Env} (h : s.env? word = some e) : HasIssuer s := by
  obtain ⟨-, -, -, -, -, hg, hw⟩ := env?_eq s word e h
  exact ⟨e.g, e.w, hg, hw⟩

theorem HasIssuer.congr {s t : State} (h : HasIssuer s) (hgangs : t.gangs = s.gangs) (hcur : t.cur = s.cur) : HasIssuer t := by
  obtain ⟨g, w, hg, hw⟩ := h
  exact ⟨g, w, by rwa [State.gang?, hgangs, hcur], by rwa [hcur]⟩

theorem onSplit_of_hasIssuer {s : State} (h : HasIssuer s) (i : Instr) (f : Env → State) : ∃ t, onSplit i s f = .next t := by
  obtain ⟨g, w, hg, hw⟩ := h
  exact ⟨_, onSplit_some i s f ⟨s, s.cur.gang, s.cur.wave, s.cur.slot, g, w, (encode i).getD 0⟩
    (by simp only [State.env?, hg, hw])⟩

/-- An event has a meaning in every state. -/
theorem exec_event {i : Instr} (s : State) (h : isEvent i = true) : ∃ t, exec i s = .next t := by
  cases i <;> cases h <;> exact ⟨_, rfl⟩

/-- A word has a meaning where a split stands for it. -/
theorem exec_word {i : Instr} {s : State} (h : isEvent i = false) (hs : HasIssuer s) : ∃ t, exec i s = .next t := by
  cases i <;> cases h <;> exact onSplit_of_hasIssuer hs _ _

theorem exec_goesOn (i : Instr) {s : State} (hs : HasIssuer s) : ∃ t, exec i s = .next t := by
  cases h : isEvent i
  · exact exec_word h hs
  · exact exec_event s h

/-! ## The issue of a word -/

theorem tagLines_stands (s : State) (ctx : Nat) (enc w : Bool) (key n : Nat) :
    (tagLines s ctx enc w key n).gangs = s.gangs ∧ (tagLines s ctx enc w key n).cur = s.cur := by
  refine foldl_keeps (fun t : State => t.gangs = s.gangs ∧ t.cur = s.cur) _ (fun t i ht => ?_) _ s ⟨rfl, rfl⟩
  obtain ⟨m, tags, olds, llc, n, hline⟩ := accessLine_frame t ctx enc w (key / 128 + i)
  rw [hline]
  exact ht

theorem fillFetch_hasIssuer {s : State} (g : Gang) (w : Wave) (pc : D) (h : HasIssuer s) : HasIssuer (fillFetch s g w pc) := by
  unfold fillFetch
  split
  · unfold noteTag
    split
    · exact h.congr (tagLines_stands ..).1 (tagLines_stands ..).2
    · exact h
  · exact h

theorem noteFetch_hasIssuer {s : State} (g : Gang) (w : Wave) (pc : D) (h : HasIssuer s) : HasIssuer (noteFetch s g w pc) := by
  unfold noteFetch
  split
  · split
    · exact h
    · dsimp only
      split <;> exact h.congr rfl rfl
  · exact h

theorem fetchRun_hasIssuer {e : Env} {i : Instr} {t : State} (hs : HasIssuer e.s) (h : fetchRun e = .run i t) : HasIssuer t := by
  have hnoted := noteFetch_hasIssuer e.g e.w e.slot.pc (fillFetch_hasIssuer e.g e.w e.slot.pc hs)
  unfold fetchRun at h
  dsimp only at h
  split at h
  · split at h
    · cases h
      exact hnoted
    · split at h <;> cases h <;> exact hnoted
  · cases h

/-- Where a word is to run, a split stands for it. -/
theorem prepare_hasIssuer {s : State} {who : Cur} {stale : Bool} {i : Instr} {t : State} (h : prepare s who stale = .run i t) :
    HasIssuer t := by
  unfold prepare at h
  dsimp only at h
  split at h
  · cases h
  split at h
  · cases h
  split at h
  · cases h
  split at h
  · cases h
  split at h
  · rename_i he
    split at h
    · rename_i hrun
      cases h
      refine fetchRun_hasIssuer ?_ hrun
      rw [(env?_eq _ _ _ he).1]
      exact hasIssuer_of_env he
    · cases h
  · cases h

theorem issueWord_goesOn (s : State) (who : Cur) (stale : Bool) : ∃ t, issueWord s who stale = .next t := by
  unfold issueWord
  cases hprep : prepare s who stale with
  | done t => exact ⟨t, rfl⟩
  | run i t =>
    obtain ⟨u, hu⟩ := exec_goesOn i (prepare_hasIssuer hprep)
    exact ⟨finishIssue s u who i, by simp only [hu]⟩

/-! ## What the device offers are events -/

theorem firstOf_isEvent {α : Type} {f : α → Option Instr} {xs : List α} (h : ∀ x ∈ xs, (f x).all isEvent = true) :
    (firstOf f xs).all isEvent = true := by
  induction xs with
  | nil => rfl
  | cons x xs ih =>
    have hx := h x List.mem_cons_self
    unfold firstOf
    split
    · rename_i hf
      rwa [hf] at hx
    · exact ih fun y hy => h y (List.mem_cons_of_mem x hy)

theorem orElse_isEvent {a : Option Instr} {b : Unit → Option Instr} (ha : a.all isEvent = true) (hb : (b ()).all isEvent = true) :
    (orElse a b).all isEvent = true := by
  cases a with
  | none => exact hb
  | some i => exact ha

theorem map_isEvent {α : Type} {f : α → Instr} (h : ∀ x, isEvent (f x) = true) (a : Option α) : (a.map f).all isEvent = true := by
  cases a with
  | none => rfl
  | some x => exact h x

theorem waveEvent_isEvent (gang : Nat) (w : Wave) : (waveEvent gang w).all isEvent = true := by
  refine firstOf_isEvent fun o _ => ?_
  repeat' split
  all_goals rfl

theorem opEvent_isEvent (s : State) (g : Gang) (o : EngOp) : (opEvent s g o).all isEvent = true := by
  unfold opEvent
  repeat' split
  all_goals rfl

theorem churnEvent_isEvent (g : Gang) : (churnEvent g).all isEvent = true := by
  unfold churnEvent
  repeat' split
  all_goals rfl

theorem gangEvent_isEvent (s : State) (g : Gang) : (gangEvent s g).all isEvent = true := by
  have hwaves := firstOf_isEvent (f := waveEvent g.id) (xs := g.waves) fun w _ => waveEvent_isEvent g.id w
  have hchurn := churnEvent_isEvent g
  have hops := firstOf_isEvent (f := opEvent s g) (xs := g.eops) fun o _ => opEvent_isEvent s g o
  unfold gangEvent
  split
  · rfl
  split
  · rfl
  split
  · rfl
  split
  · simp_all
  · simp_all
  · simp_all
  · exact map_isEvent (fun _ => rfl) _

theorem placeEvent_isEvent (s : State) (die : Nat) : (placeEvent s die).all isEvent = true := by
  unfold placeEvent
  dsimp only
  split
  · rfl
  split
  · exact map_isEvent (fun _ => rfl) _
  · refine firstOf_isEvent fun r _ => ?_
    split
    · split <;> rfl
    · rfl

theorem dieEvent_isEvent (s : State) (die : Nat) : (dieEvent s die).all isEvent = true := by
  unfold dieEvent
  split
  · rfl
  split
  · rfl
  split
  · rfl
  split
  · rfl
  · rfl
  · exact placeEvent_isEvent s die

theorem gridEvent_isEvent (s : State) (r : Grid) : (gridEvent s r).all isEvent = true := by
  unfold gridEvent
  repeat' split
  all_goals rfl

theorem msgEvent_isEvent (s : State) (i : Nat) : (msgEvent s i).all isEvent = true := by
  unfold msgEvent
  repeat' split
  all_goals rfl

theorem tlbEvent_isEvent (s : State) : (tlbEvent s).all isEvent = true := by
  refine firstOf_isEvent fun t _ => ?_
  split
  · exact map_isEvent (fun _ => rfl) _
  · rfl

theorem nextEvent_isEvent (s : State) : (nextEvent s).all isEvent = true := by
  refine orElse_isEvent (firstOf_isEvent fun g _ => gangEvent_isEvent s g) ?_
  refine orElse_isEvent (firstOf_isEvent fun r _ => by unfold reqEvent; split <;> rfl) ?_
  refine orElse_isEvent (firstOf_isEvent fun d _ => dieEvent_isEvent s d) ?_
  refine orElse_isEvent (firstOf_isEvent fun x _ => map_isEvent (fun _ => rfl) _) ?_
  refine orElse_isEvent (firstOf_isEvent fun r _ => gridEvent_isEvent s r) ?_
  refine orElse_isEvent (firstOf_isEvent fun i _ => msgEvent_isEvent s i) ?_
  refine orElse_isEvent (tlbEvent_isEvent s) ?_
  split <;> rfl

theorem idleEvent_isEvent (s : State) : (idleEvent s).all isEvent = true := by
  refine firstOf_isEvent fun g _ => firstOf_isEvent fun w _ => ?_
  split <;> rfl

/-! ## The step -/

/-- Settles O51: an agenda's event and a device's event have a meaning, and a word is run where a split stands for it. -/
theorem stepGoesOn : Obligations.StepGoesOn := by
  unfold Obligations.StepGoesOn
  intro s
  have hnext := nextEvent_isEvent s
  have hidle := idleEvent_isEvent s
  unfold step
  split
  · split
    · exact exec_event _ ‹_›
    · exact ⟨_, rfl⟩
  · exact issueWord_goesOn _ _ _
  · split
    · rename_i hi
      rw [hi] at hnext
      exact exec_event s hnext
    · split
      · exact issueWord_goesOn _ _ _
      · split
        · rename_i hi
          rw [hi] at hidle
          exact exec_event s hidle
        · exact ⟨s, rfl⟩

end Sys2Proof
end

section
/-! SUPPORT. The words of a split keep every memory canonical (`State.memOk`): the common outcomes, then one lemma per kind of word. -/

namespace Sys2Proof

open Sys2Proof.Machine Sys2Proof.Claims

/-! ## What a check leads to -/

/-- Whatever a checked computation answers without a stop satisfies `Q`. -/
def Leads {ε α : Type} (x : Except ε α) (Q : α → Prop) : Prop := ∀ a, x = .ok a → Q a

theorem leads_ok {ε α : Type} {Q : α → Prop} (a : α) : Leads (.ok a : Except ε α) Q ↔ Q a := by simp [Leads]

theorem leads_error {ε α : Type} {Q : α → Prop} (x : ε) : Leads (.error x : Except ε α) Q := by simp [Leads]

theorem Leads.bind {ε α β : Type} {x : Except ε α} {f : α → Except ε β} {P : α → Prop} {Q : β → Prop} (hx : Leads x P)
    (hf : ∀ a, P a → Leads (f a) Q) : Leads (x >>= f) Q := by
  cases x with
  | error x => exact leads_error x
  | ok a => exact hf a (hx a rfl)

/-- A check whose answer does not matter. -/
theorem Leads.after {ε α β : Type} {x : Except ε α} {f : α → Except ε β} {Q : β → Prop} (hf : ∀ a, Leads (f a) Q) :
    Leads (x >>= f) Q := Leads.bind (P := fun _ => True) (fun _ _ => trivial) fun a _ => hf a

theorem Leads.ite {ε α : Type} {p : Prop} [Decidable p] {x y : Except ε α} {Q : α → Prop} (hx : Leads x Q) (hy : Leads y Q) :
    Leads (if p then x else y) Q := by
  split
  · exact hx
  · exact hy

/-- The state a word leads to keeps every memory canonical. -/
abbrev LeadsOk (x : Chk State) : Prop := Leads x fun t => t.memOk = true

/-- A meaning that keeps every memory canonical. -/
def Keeps (run : State → Out) : Prop := ∀ s t, s.memOk = true → run s = .next t → t.memOk = true

theorem keeps_onSplit {i : Instr} {f : Env → State} (hf : ∀ e : Env, e.s.memOk = true → (f e).memOk = true) :
    Keeps fun s => onSplit i s f := fun s t h hn => onSplit_memOk i s t f h hn fun e _ he => hf e he

theorem keeps_run {i : Instr} {x : Env → Chk State} (hx : ∀ e : Env, e.s.memOk = true → LeadsOk (x e)) :
    Keeps fun s => onSplit i s fun e => e.run (x e) := keeps_onSplit fun e he => run_memOk e _ he (hx e he)

theorem keeps_next {f : State → State} (hf : ∀ s : State, s.memOk = true → (f s).memOk = true) : Keeps fun s => .next (f s) := by
  intro s t h hn
  cases hn
  exact hf s h

/-! ## Common outcomes -/

theorem pass_memOk {e : Env} (h : e.s.memOk = true) : e.pass.memOk = true := put_memOk e _ h

theorem trapAfter_memOk {e : Env} (w : Wave) (t : Trap) (h : e.s.memOk = true) : (e.trapAfter w t).memOk = true := by
  unfold Env.trapAfter
  split
  · exact block_memOk e _ h
  · exact takeTrap_memOk _ _ _ _ _ (put_memOk e w h)

theorem vecWord_leadsOk {e : Env} (v : VecWord) (h : e.s.memOk = true) : LeadsOk (vecWord e v) :=
  Leads.after fun _ => Leads.ite ((leads_ok _).2 (trapAfter_memOk _ _ h)) ((leads_ok _).2 (done_memOk e _ h))

theorem sclWord_leadsOk {e : Env} (v : SclWord) (h : e.s.memOk = true) : LeadsOk (sclWord e v) :=
  Leads.after fun _ => Leads.ite ((leads_ok _).2 (trapAfter_memOk _ _ h)) ((leads_ok _).2 (done_memOk e _ h))

theorem observeSrc_memOk {e : Env} (a : Src) (h : e.s.memOk = true) : (observeSrc e a).s.memOk = true := by
  cases a <;> exact h

theorem keeps_vec {i : Instr} (v : VecWord) : Keeps fun s => execVec i s v := keeps_run fun _ he => vecWord_leadsOk v he

theorem keeps_scl {i : Instr} (v : SclWord) : Keeps fun s => execScl i s v := keeps_run fun _ he => sclWord_leadsOk v he

theorem keeps_div (i : Instr) (nw : Bool) (d : SR) (a : Src) (b : Alu2) (f : W → W → W) : Keeps (divRun i nw d a b f) :=
  keeps_run fun _ he => Leads.after fun _ => Leads.after fun _ => sclWord_leadsOk _ he

theorem keeps_mem {i : Instr} (m : Env → MemWord) (idx : Src → Bool) : Keeps fun s => onSplit i s fun e => e.run (memRun e (m e) idx) :=
  keeps_run fun e he t ht => memRun_memOk e (m e) idx t he ht

/-! ## Arithmetic words that write scalar registers or pairs -/

theorem keeps_smov (nw : Bool) (d : SR) (a : Src) : Keeps (execSmov nw d a) :=
  keeps_onSplit fun e he => run_memOk e _ he (sclWord_leadsOk _ (observeSrc_memOk a he))

theorem keeps_vcmp (t : VTy) (cc : VCond) (d : SR) (a b : Src) : Keeps (execVcmp t cc d a b) :=
  keeps_run fun e he => Leads.after fun _ =>
    Leads.ite ((leads_ok _).2 (trapAfter_memOk _ _ he)) ((leads_ok _).2 (done_memOk e _ he))

theorem keeps_vvote (op : VoteOp) (d : SR) (a : Src) (m : Member) : Keeps (execVvote op d a m) :=
  keeps_run fun e he => Leads.after fun _ => (leads_ok _).2 (done_memOk e _ he)

theorem keeps_smerge (nw : Bool) (d : VR) (a b : Src) : Keeps (execSmerge nw d a b) :=
  keeps_run fun e he => Leads.after fun _ =>
    Leads.ite ((leads_ok _).2 (trapAfter_memOk _ _ he)) ((leads_ok _).2 (done_memOk e _ he))

theorem keeps_dstamp (nw : Bool) (d : VR) (a : Src) (cls : BitVec 4) : Keeps (execDstamp nw d a cls) :=
  keeps_run fun e he => Leads.after fun _ => Leads.after fun _ => Leads.after fun _ => Leads.after fun _ =>
    (leads_ok _).2 (done_memOk e _ he)

theorem keeps_pairWord (h0 h1 : Half) : Keeps (execPairWord h0 h1) :=
  keeps_run fun e he => Leads.after fun _ =>
    Leads.ite ((leads_ok _).2 (trapAfter_memOk _ _ he)) ((leads_ok _).2 (done_memOk e _ he))

theorem keeps_fusedSoftmax (g : BitVec 3) (x m y sum : VR) : Keeps (execFusedSoftmax g x m y sum) := by
  refine keeps_run fun e he => Leads.after fun _ => Leads.after fun _ => Leads.after fun _ => ?_
  split
  · exact (leads_ok _).2 (trapAfter_memOk _ _ he)
  · exact (leads_ok _).2 (done_memOk e _ he)

/-! ## Control -/

theorem callTo_memOk {e : Env} (d : SR) (tgt : D) (h : e.s.memOk = true) : (e.callTo d tgt).memOk = true :=
  afterMask_memOk _ _ _ _ _ (put_memOk e _ h)

theorem keeps_brv (neg : Bool) (a : SR) (join : BitVec 18) (target : BitVec 16) : Keeps (execBrv neg a join target) := by
  refine keeps_run fun e he => Leads.after fun _ => Leads.after fun _ =>
    Leads.ite ((leads_ok _).2 (put_memOk e _ he)) (Leads.ite ((leads_ok _).2 (pass_memOk he)) (Leads.after fun _ => ?_))
  exact (leads_ok _).2 (settle_memOk _ _ _ _ (putSplits_memOk _ _ _ _ (put_memOk e _ he)))

theorem keeps_bra (off : BitVec 34) : Keeps (execBra off) := keeps_onSplit fun e he => put_memOk e _ he

theorem keeps_join : Keeps execJoin := by
  refine keeps_onSplit fun e he => ?_
  dsimp only
  split
  · exact pass_memOk he
  · exact settle_memOk _ _ _ _ (putSplits_memOk _ _ _ _ (put_memOk e _ he))

theorem keeps_call (d : SR) (off : BitVec 34) : Keeps (execCall d off) :=
  keeps_run fun _ he => Leads.after fun _ => (leads_ok _).2 (callTo_memOk _ _ he)

theorem keeps_callR (d : SR) (a : Src) : Keeps (execCallR d a) :=
  keeps_run fun _ he => Leads.after fun _ => (leads_ok _).2 (callTo_memOk _ _ he)

theorem keeps_ret (a : Src) : Keeps (execRet a) := keeps_run fun e he => Leads.after fun _ => (leads_ok _).2 (put_memOk e _ he)

theorem keeps_brx (a : Src) : Keeps (execBrx a) := keeps_run fun e he => Leads.after fun _ => (leads_ok _).2 (put_memOk e _ he)

theorem keeps_exit : Keeps execExit := keeps_onSplit fun e he => exitLanes_memOk _ _ _ _ _ (put_memOk e _ he)

theorem endWave_memOk {s : State} (gi wi : Nat) (h : s.memOk = true) : (endWave s gi wi).memOk = true :=
  sweepReqs_memOk _ (settleGang_memOk _ _ (modWave_memOk s gi wi _ h))

theorem kill_spad (g : Gang) : g.kill.spad = g.spad := by
  simp only [Gang.kill, Gang.dropFrames]
  split <;> rfl

theorem endGangErr_memOk {s : State} (gi : Nat) (h : s.memOk = true) : (endGangErr s gi).memOk = true :=
  sweepReqs_memOk _ (modGang_memOk s gi _ (fun g hg => (congrArg Memory.wf (kill_spad g)).trans hg) h)

theorem keeps_trap (code : BitVec 16) : Keeps (execTrap code) := by
  refine keeps_onSplit fun e he => ?_
  dsimp only
  split
  · exact endWave_memOk _ _ he
  · split
    · exact endGangErr_memOk _ he
    · exact takeTrap_memOk _ _ _ _ _ he

theorem keeps_illegalWord (w : D) (sub field : Nat) (half : Bool) : Keeps (execIllegalWord w sub field half) :=
  keeps_onSplit fun _ he => takeTrap_memOk _ _ _ _ _ he

theorem keeps_eretWith (i : Instr) (skip : D) : Keeps (eretWith i skip) :=
  keeps_run fun e he => Leads.after fun _ => Leads.after fun _ =>
    (leads_ok _).2 (settle_memOk _ _ _ _ (trapReturn_memOk _ _ _ _ (put_memOk e _ he)))

theorem keeps_waitc (t : Ctr) (n : BitVec 6) : Keeps (execWaitc t n) :=
  keeps_run fun _ he => Leads.after fun _ => (leads_ok _).2 (pass_memOk he)

theorem keeps_yield : Keeps execYield := by
  refine keeps_onSplit fun e he => ?_
  dsimp only
  split
  · exact put_memOk e _ he
  · exact setWave_memOk _ _ _ _ (memOk_congr e.s _ rfl rfl he)

theorem keeps_nop : Keeps execNop := keeps_onSplit fun _ he => pass_memOk he

theorem keeps_stepadv (a : Src) : Keeps (execStepadv a) :=
  keeps_run fun _ he => Leads.after fun _ =>
    (leads_ok _).2 (modCtx_memOk _ _ _ (modGang_memOk _ _ _ (fun _ hg => hg) (pass_memOk he)))

/-! ## Memory words with a rule of their own -/

theorem keeps_vpref (llc : Bool) (a b : Src) (i : I25) : Keeps (execVpref llc a b i) := by
  refine keeps_run fun e he => Leads.after fun _ => (leads_ok _).2 ?_
  split
  · exact pass_memOk he
  · exact fillLines_memOk _ _ _ (pass_memOk he)

theorem stampedRun_leadsOk {e : Env} (m : MemWord) (h : e.s.memOk = true) : LeadsOk (stampedRun e m) := by
  unfold stampedRun
  split
  · exact fun t ht => memRun_memOk e m Src.mi t h ht
  · refine Leads.after fun r => Leads.after fun _ => Leads.ite ((leads_ok _).2 (trapAfter_memOk _ _ h)) ((leads_ok _).2 ?_)
    split
    · exact memApply_memOk e m r h
    · exact writeback_memOk _ _ _ _ _ _ (memApply_memOk e m r h)

/-! ## Fences -/

theorem acquire_memOk {s : State} (gi wi : Nat) (m : Mask) (scope : Nat) (h : s.memOk = true) :
    (s.acquire gi wi m scope).memOk = true := modWave_memOk s gi wi _ h

theorem raiseAt_memOk {s : State} (e : Env) (scope : Nat) (h : s.memOk = true) : (raiseAt s e scope).memOk = true := by
  unfold raiseAt
  dsimp only
  split
  · exact acquire_memOk _ _ _ _ h
  · exact modWave_memOk _ _ _ _ (acquire_memOk _ _ _ _ h)

theorem crossTo_memOk {s : State} (e : Env) (f t : PClass) (scope : Nat) (h : s.memOk = true) : (crossTo s e f t scope).memOk = true := by
  unfold crossTo
  split
  · exact h
  · split
    · split
      · exact h
      · exact modWave_memOk _ _ _ _ h
    · dsimp only
      split
      · exact memOk_congr _ _ rfl rfl (modWave_memOk _ _ _ _ h)
      · exact modWave_memOk _ _ _ _ h

theorem keeps_fence (scope : BitVec 3) (cols : BitVec 8) : Keeps (execFence scope cols) :=
  keeps_run fun e he => Leads.after fun _ => (leads_ok _).2 (raiseAt_memOk e _ (pass_memOk he))

theorem keeps_xfence (scope : BitVec 3) (f t : PClass) : Keeps (execXfence scope f t) :=
  keeps_run fun e he => Leads.after fun _ => Leads.after fun _ =>
    (leads_ok _).2 (crossTo_memOk e _ _ _ (raiseAt_memOk e _ (pass_memOk he)))

/-! ## Words at one place -/

/-- A word at one place either parked its split there or goes on, its access noted. -/
theorem onPlace_leadsOk {e : Env} {o : OneAsk} {f : Env → Loc → Chk State} (h : e.s.memOk = true)
    (hf : ∀ e l, e.s.memOk = true → LeadsOk (f e l)) : LeadsOk (onPlace e o f) := by
  have hplace : Leads (chkOnePlace e o) fun x => ∀ t, x = .gone t → t.memOk = true := by
    refine Leads.after fun _ => Leads.after fun _ => Leads.after fun _ => Leads.after fun r => ?_
    split
    · exact (leads_ok _).2 fun t ht => by cases ht
    · refine (leads_ok _).2 fun t ht => ?_
      cases ht
      exact parkAll_memOk e _ _ _ h
  refine Leads.bind hplace fun x hx => ?_
  split
  · exact (leads_ok _).2 (hx _ rfl)
  · refine hf _ _ ?_
    unfold noteOne
    dsimp only
    split
    · exact h
    · exact noteAccess_memOk _ _ _ _ _ h

theorem startValue_memOk {e : Env} (o : OneAsk) (l : Loc) (d : SR) (n : Nat) (x : D) (bad : Bool) (h : e.s.memOk = true) :
    (startValue e o l d n x bad).memOk = true := put_memOk e _ h

theorem keeps_bari (d : SR) (a : Src) (i : I25) : Keeps (execBari d a i) :=
  keeps_run fun _ he => onPlace_leadsOk he fun _ _ he =>
    Leads.ite ((leads_ok _).2 (pass_memOk he)) ((leads_ok _).2 (putObj_memOk _ _ _ _ _ (pass_memOk he)))

theorem keeps_bara (d : SR) (a b : Src) (i : I25) : Keeps (execBara d a b i) :=
  keeps_run fun _ he => Leads.after fun _ => onPlace_leadsOk he fun _ _ he => Leads.after fun _ =>
    (leads_ok _).2 (arrive_memOk _ _ _ _ (modWave_memOk _ _ _ _ (sawPhase_memOk _ _ _ _ _ (startValue_memOk _ _ _ _ _ _ he))))

theorem keeps_barw (a b : Src) (i : I25) : Keeps (execBarw a b i) :=
  keeps_run fun _ he => onPlace_leadsOk he fun _ _ he => Leads.after fun _ =>
    (leads_ok _).2 (sawPhase_memOk _ _ _ _ _ (pass_memOk he))

theorem keeps_bar (a : Src) (i : I25) : Keeps (execBar a i) :=
  keeps_run fun _ he => onPlace_leadsOk he fun e _ he => (leads_ok _).2 (settle_memOk _ _ _ _ (put_memOk e _ he))

theorem keeps_barq (d : SR) (a : Src) (i : I25) : Keeps (execBarq d a i) :=
  keeps_run fun _ he => Leads.after fun _ => onPlace_leadsOk he fun _ _ he =>
    (leads_ok _).2 (sawPhase_memOk _ _ _ _ _ (startValue_memOk _ _ _ _ _ _ he))

theorem keeps_htake : Keeps execHtake :=
  keeps_run fun _ he => Leads.after fun _ => (leads_ok _).2 (modGang_memOk _ _ _ (fun _ hg => hg) (pass_memOk he))

theorem keeps_hpass (a : Src) : Keeps (execHpass a) :=
  keeps_run fun _ he => Leads.after fun _ => Leads.after fun _ =>
    (leads_ok _).2 (modGang_memOk _ _ _ (fun _ hg => hg) (pass_memOk he))

end Sys2Proof
end

section
/-! SUPPORT. Trough, future, engine, Churn, label, launch and system words keep every memory canonical. -/

namespace Sys2Proof

open Sys2Proof.Machine Sys2Proof.Claims

/-! ## Troughs (R185, R332) -/

theorem modTrough_memOk {s : State} (gi t : Nat) (f : Trough → Trough) (h : s.memOk = true) : (modTrough s gi t f).memOk = true :=
  modGang_memOk s gi _ (fun _ hg => hg) h

theorem putHeader_memOk {s : State} (gi t puts gets : Nat) (h : s.memOk = true) : (putHeader s gi t puts gets).memOk = true := by
  unfold putHeader
  split
  · exact h
  · exact foldl_keeps (fun t : State => t.memOk = true) _ (fun t v ht => storePut_memOk t _ _ _ _ ht) _ _
      (writeLoc_memOk s _ _ _ h)

theorem haltStage_memOk {s : State} (gi st : Nat) (h : s.memOk = true) : (haltStage s gi st).memOk = true :=
  modGang_memOk s gi _ (fun _ hg => hg) h

theorem siloFail_memOk {e : Env} (va : Nat) (r : Tr) (h : e.s.memOk = true) : (siloFail e va r).memOk = true := by
  unfold siloFail
  split
  · exact faultGrid_memOk _ _ _ h
  · exact parkLanes_memOk _ _ _ _ (addReq_memOk _ _ _ _ _ _ _ _ h)

theorem spill_leadsOk {e : Env} (t : Nat) (x : Trough) (v : TSlot) (h : e.s.memOk = true) : LeadsOk (spill e t x v) := by
  refine Leads.ite (leads_error _) ?_
  dsimp only
  split
  · exact (leads_ok _).2 (putHeader_memOk _ _ _ _ (storePut_memOk _ _ _ _ _ (noteAccess_memOk _ _ _ _ _
      (modTrough_memOk _ _ _ (pass_memOk h)))))
  · exact (leads_ok _).2 (siloFail_memOk _ _ h)

theorem takeOldest_leadsOk {e : Env} (t : Nat) (x : Trough) (d : VR) (h : e.s.memOk = true) : LeadsOk (takeOldest e t x d) := by
  unfold takeOldest
  split
  · exact (leads_ok _).2 (putHeader_memOk _ _ _ _ (modTrough_memOk _ _ _ (put_memOk e _ h)))
  · exact leads_error _

theorem keeps_trgput (d : VR) (a : Src) (i : I25) : Keeps (execTrgput d a i) := by
  refine keeps_run fun e he => Leads.after fun _ => onPlace_leadsOk he fun e l he => Leads.after fun _ => ?_
  split
  · exact leads_error _
  split
  · exact leads_error _
  refine Leads.ite (leads_error _) (Leads.ite ((leads_ok _).2 (haltStage_memOk _ _ (block_memOk e _ he))) ?_)
  refine Leads.ite ((leads_ok _).2 (putHeader_memOk _ _ _ _ (modTrough_memOk _ _ _ (pass_memOk he)))) ?_
  exact Leads.ite (leads_error _) (spill_leadsOk _ _ _ he)

theorem keeps_trgget (d : VR) (a : Src) (i : I25) : Keeps (execTrgget d a i) := by
  refine keeps_run fun e he => Leads.after fun _ => onPlace_leadsOk he fun e l he => ?_
  split
  · exact leads_error _
  split
  · exact leads_error _
  refine Leads.ite (leads_error _) (Leads.ite ((leads_ok _).2 (haltStage_memOk _ _ (block_memOk e _ he))) ?_)
  exact Leads.ite (takeOldest_leadsOk _ _ _ he) (leads_error _)

theorem keeps_trgtry (d : SR) (a : Src) (i : I25) : Keeps (execTrgtry d a i) :=
  keeps_run fun _ he => onPlace_leadsOk he fun e _ he => (leads_ok _).2 (done_memOk e _ he)

/-! ## Futures (R191) -/

theorem sclPut_memOk {e : Env} (w : Wave) (d : SR) (x : W) (h : e.s.memOk = true) : (sclPut e w d x).memOk = true :=
  done_memOk e _ h

theorem noFutLatch_leadsOk {e : Env} (a : Src) (h : e.s.memOk = true) : LeadsOk (noFutLatch e a) :=
  Leads.after fun _ => (leads_ok _).2 (pass_memOk h)

theorem keeps_ftest (d : SR) (a : Src) : Keeps (execFtest d a) := by
  refine keeps_run fun e he => ?_
  split
  · refine Leads.ite (Leads.after fun _ => (leads_ok _).2 (sclPut_memOk _ _ _ he)) ?_
    exact Leads.after fun _ => Leads.after fun _ => (leads_ok _).2 (sclPut_memOk _ _ _ he)
  · exact noFutLatch_leadsOk a he

theorem waitHandle_leadsOk {e : Env} (d : SR) (x : Nat) (h : e.s.memOk = true) : LeadsOk (waitHandle e d x) := by
  unfold waitHandle
  dsimp only
  split
  · exact leads_error _
  · refine Leads.ite ((leads_ok _).2 (sclPut_memOk _ _ _ h)) ?_
    split
    · exact leads_error _
    · exact (leads_ok _).2 (sclPut_memOk _ _ _ h)
    · exact (leads_ok _).2 (sclPut_memOk _ _ _ h)

theorem keeps_fwait (d : SR) (a : Src) (i : I25) : Keeps (execFwait d a i) :=
  keeps_run fun _ he => Leads.after fun _ => onPlace_leadsOk he fun _ _ he => Leads.after fun _ => waitHandle_leadsOk _ _ he

theorem keeps_fcancel (a : Src) : Keeps (execFcancel a) := by
  refine keeps_run fun e he => ?_
  split
  · dsimp only
    split
    · exact (leads_ok _).2 (pass_memOk he)
    · exact (leads_ok _).2 (modGang_memOk _ _ _ (fun _ hg => hg) (pass_memOk he))
    · exact (leads_ok _).2 (pass_memOk (e := { e with w := _ }) he)
  · exact noFutLatch_leadsOk a he

/-! ## Engine and Churn words (R188-R225, R244-R250) -/

theorem startOp_memOk {e : Env} (f : FR) (o : EngOp) (h : e.s.memOk = true) : (startOp e f o).memOk = true :=
  modGang_memOk _ _ _ (fun _ hg => hg) (pass_memOk (e := { e with w := _ }) h)

theorem poisonOp_memOk {e : Env} (f : FR) (cls : PClass) (t : Trap) (h : e.s.memOk = true) : (poisonOp e f cls t).memOk = true :=
  trapAfter_memOk _ _ h

theorem enqueue_memOk {s : State} (gi : Nat) (q : ChEntry) (h : s.memOk = true) : (enqueue s gi q).memOk = true :=
  modGang_memOk s gi _ (fun _ hg => hg) h

theorem startEntry_memOk {e : Env} (f : FR) (q : ChEntry) (h : e.s.memOk = true) : (startEntry e f q).memOk = true :=
  enqueue_memOk _ _ (pass_memOk (e := { e with w := _ }) h)

/-- A block read at issue either parks its split, or has a place. -/
theorem chkBlkAt_leads {e : Env} (b : Blk) (size : Nat) (h : e.s.memOk = true) :
    Leads (chkBlkAt e b size) fun x => ∀ t, x = .gone t → t.memOk = true := by
  refine Leads.after fun r => ?_
  split
  · exact (leads_ok _).2 fun t ht => by cases ht
  · refine (leads_ok _).2 fun t ht => ?_
    cases ht
    exact parkAll_memOk e _ _ _ h

/-- The environment in which a block has been read. -/
theorem blockRead_memOk {e : Env} (p : Bool) (w : Want) (va n : Nat) (h : e.s.memOk = true) :
    (if p then e else { e with s := noteAccess e.s e.g w va n } : Env).s.memOk = true := by
  split
  · exact h
  · exact noteAccess_memOk _ _ _ _ _ h

theorem blockWord_leadsOk {e : Env} (f : FR) (b : Blk) (op variant : Nat) (cls : PClass) (h : e.s.memOk = true) :
    LeadsOk (blockWord e f b op variant cls) := by
  refine Leads.after fun _ => Leads.after fun _ => Leads.after fun _ => Leads.bind (chkBlkAt_leads b 64 h) fun x hx => ?_
  split
  · exact (leads_ok _).2 (hx _ rfl)
  · exact (leads_ok _).2 (startOp_memOk _ _ (blockRead_memOk _ _ _ _ h))

theorem keeps_block {i : Instr} (f : FR) (b : Blk) (op variant : Nat) (cls : PClass) :
    Keeps fun s => onSplit i s fun e => e.run (blockWord e f b op variant cls) :=
  keeps_run fun _ he => blockWord_leadsOk _ _ _ _ _ he

theorem keeps_copy (d : FR) (dsp : Bool) (ssp : BitVec 2) (a b t : Src) (disp : BitVec 12) :
    Keeps (execCopy d dsp ssp a b t disp) := by
  refine keeps_run fun e he => ?_
  iterate 3 refine Leads.after fun _ => ?_
  exact Leads.ite ((leads_ok _).2 (poisonOp_memOk _ _ _ he)) ((leads_ok _).2 (startOp_memOk _ _ he))

theorem keeps_binapp (lbl : Bool) (d : FR) (a b t : Src) : Keeps (execBinapp lbl d a b t) := by
  refine keeps_run fun e he => ?_
  iterate 5 refine Leads.after fun _ => ?_
  split
  · exact (leads_ok _).2 (poisonOp_memOk _ _ _ he)
  · exact (leads_ok _).2 (startOp_memOk _ _ he)

theorem tileWord_leadsOk {e : Env} (f : FR) (b : Blk) (kind : ChKind) (h : e.s.memOk = true) : LeadsOk (tileWord e f b kind) := by
  refine Leads.after fun _ => Leads.after fun _ => Leads.after fun _ => Leads.bind (chkBlkAt_leads b 128 h) fun x hx => ?_
  split
  · exact (leads_ok _).2 (hx _ rfl)
  · exact Leads.after fun _ => (leads_ok _).2 (startEntry_memOk _ _ (blockRead_memOk _ _ _ _ h))

theorem keeps_tile {i : Instr} (f : FR) (b : Blk) (kind : ChKind) : Keeps fun s => onSplit i s fun e => e.run (tileWord e f b kind) :=
  keeps_run fun _ he => tileWord_leadsOk _ _ _ he

theorem keeps_bank {i : Instr} (f : FR) (kind : ChKind) : Keeps fun s => onSplit i s fun e => e.run (bankWord e f kind) :=
  keeps_run fun _ he => Leads.after fun _ => Leads.after fun _ => (leads_ok _).2 (startEntry_memOk _ _ he)

theorem keeps_cscale (d : FR) (a b : Src) (acc : BitVec 2) (rm : Rm) : Keeps (execCscale d a b acc rm) := by
  refine keeps_run fun e he => Leads.after fun _ => Leads.after fun _ =>
    Leads.ite ((leads_ok _).2 (poisonOp_memOk _ _ _ he)) (Leads.ite ((leads_ok _).2 (poisonOp_memOk _ _ _ he)) ?_)
  exact Leads.after fun _ => (leads_ok _).2 (startEntry_memOk _ _ he)

theorem keeps_cepi (relu : Bool) (d : FR) (a : Src) (acc : BitVec 2) : Keeps (execCepi relu d a acc) := by
  refine keeps_run fun e he => ?_
  iterate 4 refine Leads.after fun _ => ?_
  exact (leads_ok _).2 (startEntry_memOk _ _ he)

theorem keeps_cspec (nw : Bool) (d : SR) (v0 : Bool) (b0 : BitVec 2) (v1 : Bool) (b1 : BitVec 2) :
    Keeps (execCspec nw d v0 b0 v1 b1) :=
  keeps_run fun e he => Leads.after fun _ => Leads.after fun _ => Leads.after fun _ =>
    (leads_ok _).2 (done_memOk { e with s := _ } _ (modGang_memOk _ _ _ (fun _ hg => hg) (enqueue_memOk _ _ he)))

theorem keeps_cresolve (a : Src) : Keeps (execCresolve a) := by
  refine keeps_run fun e he => ?_
  iterate 6 refine Leads.after fun _ => ?_
  exact (leads_ok _).2 (modGang_memOk _ _ _ (fun _ hg => hg) (enqueue_memOk _ _ (pass_memOk (observeSrc_memOk a he))))

theorem keeps_crdv (nw : Bool) (d : VR) (b : Src) (acc : BitVec 2) : Keeps (execCrdv nw d b acc) := by
  refine keeps_run fun e he => ?_
  iterate 6 refine Leads.after fun _ => ?_
  exact (leads_ok _).2 (done_memOk e _ he)

theorem keeps_cwrv (d : VR) (b : Src) (acc : BitVec 2) : Keeps (execCwrv d b acc) := by
  refine keeps_run fun e he => ?_
  iterate 6 refine Leads.after fun _ => ?_
  exact (leads_ok _).2 (modGang_memOk _ _ _ (fun _ hg => hg) (pass_memOk he))

theorem keeps_cquery (nw : Bool) (d : SR) : Keeps (execCquery nw d) :=
  keeps_run fun e he => Leads.after fun _ => (leads_ok _).2 (done_memOk e _ he)

theorem keeps_relld (d : FR) (b : Blk) (slot : BitVec 2) : Keeps (execRelld d b slot) :=
  keeps_run fun _ he => Leads.after fun _ => Leads.after fun _ => (leads_ok _).2 (startEntry_memOk _ _ he)

theorem keeps_lblsum (d : FR) (b : Blk) (slot : BitVec 2) (n : Src) : Keeps (execLblsum d b slot n) :=
  keeps_run fun _ he => Leads.after fun _ => Leads.ite ((leads_ok _).2 (poisonOp_memOk _ _ _ he))
    (Leads.after fun _ => (leads_ok _).2 (startEntry_memOk _ _ he))

theorem keeps_draft (nw : Bool) (d : SR) (a b t : Src) (n : BitVec 8) : Keeps (execDraft nw d a b t n) := by
  refine keeps_run fun e he => ?_
  iterate 5 refine Leads.after fun _ => ?_
  refine (leads_ok _).2 (done_memOk { e with s := _ } _ ?_)
  generalize (if e.g.draft.isSome = true then 0 else _ : Nat) = code
  dsimp only
  split
  · exact he
  · exact modGang_memOk _ _ _ (fun _ hg => hg) he

theorem keeps_accept (d : FR) (a : Src) : Keeps (execAccept d a) := by
  refine keeps_run fun e he => Leads.after fun _ => Leads.after fun _ =>
    Leads.ite ((leads_ok _).2 (poisonOp_memOk _ _ _ he)) (Leads.after fun _ => ?_)
  dsimp only
  split
  · exact Leads.ite ((leads_ok _).2 (startEntry_memOk _ _ he))
      ((leads_ok _).2 (modGang_memOk _ _ _ (fun _ hg => hg) (startEntry_memOk _ _ he)))
  · exact (leads_ok _).2 (startEntry_memOk _ _ he)

/-! ## Label words (R246) -/

theorem keeps_label {i : Instr} (m : Env → MemWord) (b : Src) : Keeps fun s => onSplit i s fun e => e.run (labelRun e (m e) b) := by
  refine keeps_run fun e he => ?_
  iterate 5 refine Leads.after fun _ => ?_
  exact (leads_ok _).2 (memApply_memOk e _ _ he)

theorem noteLabel_memOk (e : Env) {s : State} (x : LabelAt) (h : s.memOk = true) : (noteLabel e s x).memOk = true := by
  unfold noteLabel
  split
  · split
    · exact h
    · exact noteAccess_memOk _ _ _ _ _ h
  · exact h

theorem admPark_memOk {e : Env} (ls : List LabelAt) (h : e.s.memOk = true) : (admPark e ls).memOk = true :=
  parkLanes_memOk _ _ _ _ (postParks_memOk _ _ _ _ _ h)

theorem admWrite_memOk {e : Env} (d : VR) (out : Mask) (h : e.s.memOk = true) : (admWrite e d out).memOk = true :=
  done_memOk e _ h

theorem admDecide_leadsOk {e : Env} (d : VR) (blk : List Byte) (rel : Rel) (row : Nat) (ls : List Nat) (h : e.s.memOk = true) :
    LeadsOk (admDecide e d blk rel row ls) := by
  refine Leads.after fun _ => Leads.after fun _ => ?_
  have hread (xs : List LabelAt) : (xs.foldl (noteLabel e) e.s).memOk = true :=
    foldl_keeps (fun t : State => t.memOk = true) _ (fun t x ht => noteLabel_memOk e x ht) _ _ h
  dsimp only
  generalize trFailSub (labelPlace e blk 80 49 row).tr = rowFails
  generalize List.find? _ _ = colFails
  cases rowFails with
  | some n => exact leads_error _
  | none =>
  cases colFails with
  | some x => exact leads_error _
  | none =>
  refine Leads.after fun _ => Leads.after fun _ => Leads.ite ((leads_ok _).2 (admPark_memOk _ h)) ?_
  split
  · exact leads_error _
  · exact (leads_ok _).2 (admWrite_memOk _ _ (hread _))

theorem admRun_leadsOk {e : Env} (d : VR) (blk : List Byte) (row : Nat) (h : e.s.memOk = true) : LeadsOk (admRun e d blk row) := by
  refine Leads.ite ((leads_ok _).2 (admWrite_memOk _ _ h)) ?_
  split
  · exact (leads_ok _).2 (admWrite_memOk _ _ h)
  · exact (leads_ok _).2 (admWrite_memOk _ _ h)
  · exact admDecide_leadsOk _ _ _ _ _ h

theorem keeps_lblldAdm (d : VR) (b : Blk) (row : Src) : Keeps (execLblldAdm d b row) := by
  refine keeps_run fun e he => ?_
  iterate 7 refine Leads.after fun _ => ?_
  refine Leads.bind (chkBlkAt_leads b 128 he) fun x hx => ?_
  split
  · exact (leads_ok _).2 (hx _ rfl)
  · exact Leads.after fun _ => admRun_leadsOk _ _ _ he

/-! ## Launches (R112-R116) -/

theorem armedNow_memOk {e : Env} (f : FR) (st : FState) (result : Nat) (h : e.s.memOk = true) : (armedNow e f st result).memOk = true :=
  pass_memOk (e := { e with w := _ }) h

theorem submit_memOk {e : Env} (f : FR) (q : Nat) (p : Pend) (h : e.s.memOk = true) : (submit e f q p).memOk = true :=
  modCtx_memOk _ _ _ (pass_memOk (e := { e with w := _ }) h)

theorem cancelGrid_memOk {s : State} (ctx : Nat) (comp : D) (h : s.memOk = true) : (cancelGrid s ctx comp).1.memOk = true := by
  unfold cancelGrid
  split
  · split
    · exact h
    · exact stopGrid_memOk _ _ _ h
  · exact h

theorem keeps_launch (sc : LScope) (d : FR) (a b : Src) (q : BitVec 3) : Keeps (execLaunch sc d a b q) := by
  refine keeps_run fun e he => Leads.after fun _ => Leads.after fun _ => (leads_ok _).2 ?_
  split
  · exact armedNow_memOk _ _ _ he
  · exact submit_memOk _ _ _ he

theorem keeps_spawn (d : FR) (a : Src) : Keeps (execSpawn d a) := by
  refine keeps_run fun e he => Leads.after fun _ => Leads.after fun _ => (leads_ok _).2 ?_
  split
  · exact armedNow_memOk _ _ _ he
  · split
    · exact armedNow_memOk _ _ _ he
    · exact submit_memOk _ _ _ he

theorem keeps_cancel (d : FR) (a : Src) : Keeps (execCancel d a) := by
  refine keeps_run fun e he => Leads.after fun _ => (leads_ok _).2 ?_
  split
  · exact armedNow_memOk _ _ _ he
  · split
    · exact memOk_congr _ _ rfl rfl (pass_memOk (e := { e with w := e.w.arm d .v }) he)
    · exact cancelGrid_memOk _ _ (armedNow_memOk _ _ _ he)

/-! ## System words (R27-R33, R294-R299, R317-R319) -/

theorem sclOut_memOk {e : Env} (nw : Bool) (d : SR) (xs : List W) (h : e.s.memOk = true) : (sclOut e nw d xs).memOk = true :=
  done_memOk e _ h

theorem keeps_mfs (nw : Bool) (d : SR) (x : BitVec 16) : Keeps (execMfs nw d x) := by
  refine keeps_run fun e he => Leads.after fun _ => Leads.after fun _ => (leads_ok _).2 (sclOut_memOk _ _ _ ?_)
  split
  · exact memOk_congr e.s _ rfl rfl he
  · exact he

theorem specGang_spad (g : Gang) (n : Nat) (v : W) : (specGang g n v).spad = g.spad := by
  unfold specGang
  split
  · rfl
  · rfl
  · rfl
  · split <;> rfl

theorem specWrite_memOk {e : Env} (n : Nat) (v : W) (h : e.s.memOk = true) : (specWrite e n v).memOk = true := by
  have hgang : ((({ e with w := specWave e.w n v } : Env).pass).modGang e.gi fun g => specGang g n v).memOk = true :=
    modGang_memOk _ _ _ (fun g hg => (congrArg Memory.wf (specGang_spad g n v)).trans hg) (pass_memOk (e := { e with w := _ }) h)
  unfold specWrite
  dsimp only
  split
  · exact modCtx_memOk _ _ _ hgang
  · exact hgang

theorem keeps_mts (x : BitVec 16) (a : Src) : Keeps (execMts x a) := by
  refine keeps_run fun e he => ?_
  iterate 6 refine Leads.after fun _ => ?_
  exact (leads_ok _).2 (specWrite_memOk _ _ he)

theorem keeps_clkrdTime (d : SR) : Keeps (execClkrdTime d) :=
  keeps_run fun e he => Leads.after fun _ => (leads_ok _).2 (sclOut_memOk _ _ _ (memOk_congr e.s _ rfl rfl he))

theorem keeps_clkrdCyc (d : SR) : Keeps (execClkrdCyc d) :=
  keeps_run fun e he => Leads.after fun _ => (leads_ok _).2 (sclOut_memOk _ _ _ (memOk_congr e.s _ rfl rfl he))

theorem perfNow_memOk {s : State} (byre n : Nat) (h : s.memOk = true) : (perfNow s byre n).memOk = true := by
  unfold perfNow
  dsimp only
  split
  · exact memOk_congr s _ rfl rfl h
  · exact h

theorem keeps_perfrd (d : SR) (b : Src) : Keeps (execPerfrd d b) :=
  keeps_run fun _ he => Leads.after fun _ => (leads_ok _).2 (sclOut_memOk _ _ _ (perfNow_memOk _ _ he))

theorem keeps_perfcfg (a b : Src) : Keeps (execPerfcfg a b) :=
  keeps_run fun _ he => Leads.after fun _ => (leads_ok _).2 (memOk_congr _ _ rfl rfl (pass_memOk he))

theorem keeps_sys {i : Instr} (x : Env → Chk Unit) (f : FR) (kind : Env → EngKind) :
    Keeps fun s => onSplit i s fun e => e.run (x e >>= fun _ => .ok (startSys e f (kind e))) :=
  keeps_run fun _ he => Leads.after fun _ => (leads_ok _).2 (startOp_memOk _ _ he)

theorem keeps_icinv (pkg : Bool) (d : FR) (a b : Src) : Keeps (execIcinv pkg d a b) :=
  keeps_run fun e he => Leads.after fun _ => Leads.ite ((leads_ok _).2 (pass_memOk (e := { e with w := _ }) he))
    ((leads_ok _).2 (startOp_memOk _ _ he))

end Sys2Proof
end

section
/-! SUPPORT. Fault resolution, `XVEC`, the fetch and the bookkeeping of an issue keep every memory canonical; so every word does. -/

namespace Sys2Proof

open Sys2Proof.Machine Sys2Proof.Claims

/-! ## Draining before a late trap -/

theorem drainWave_memOk (gi wi n : Nat) {s : State} (h : s.memOk = true) : (drainWave gi wi n s).memOk = true := by
  induction n generalizing s with
  | zero => exact h
  | succ n ih =>
    unfold drainWave
    split
    · exact h
    split
    · exact h
    refine ih ?_
    split
    · exact performStore_memOk _ _ _ _ h
    · exact writeback_memOk _ _ _ _ _ _ h

theorem trapDrained_memOk {s : State} (gi wi : Nat) (k : Bool) (t : Trap) (h : s.memOk = true) : (trapDrained s gi wi k t).memOk = true := by
  refine takeTrap_memOk _ _ _ _ _ ?_
  split
  · split
    · exact drainWave_memOk _ _ _ h
    · exact h
  · exact h

/-! ## `XVEC` (R154-R158) -/

theorem xVec_leads {e : Env} (v : VecWord) (h : e.s.memOk = true) : Leads (xVec e v) fun p => p.1.memOk = true :=
  Leads.after fun _ => (leads_ok _).2 (modWave_memOk _ _ _ _ h)

theorem xMem_leadsOk {e : Env} (m : MemWord) (whole : Mask) (h : e.s.memOk = true) : LeadsOk (xMem e m whole) := by
  refine Leads.after fun _ => Leads.after fun r => Leads.after fun _ => (leads_ok _).2 ?_
  have hposted := postParks_memOk _ e 0 m.q.acc r.parked (noteGo_memOk _ e m.q r.go h)
  have hstarted : (if r.go.isEmpty then (postParks (noteGo e.s e m.q r.go) e 0 m.q.acc r.parked).1
      else (postParks (noteGo e.s e m.q r.go) e 0 m.q.acc r.parked).1.modWave e.gi e.wi fun w =>
        (w.addOp (memOp e m r.go w.opSeq)).joined whole).memOk = true := by
    split
    · exact hposted
    · exact modWave_memOk _ _ _ _ hposted
  split
  · exact hstarted
  · exact parkLanes_memOk _ _ _ _ hstarted

theorem xTry_leads {e : Env} (x : XWord) (whole : Mask) (h : e.s.memOk = true) : Leads (xTry e x whole) fun p => p.1.memOk = true := by
  cases x with
  | vec v => exact xVec_leads v h
  | mem m =>
    intro p hp
    simp only [xTry] at hp
    cases hm : xMem e m whole with
    | error y => rw [hm] at hp; cases hp
    | ok t =>
      rw [hm] at hp
      cases hp
      exact xMem_leadsOk m whole h t hm

theorem xStep_memOk {s : State} (who : Cur) (x : XWord) (h : s.memOk = true) : (xStep s who x).memOk = true := by
  cases x with
  | vec v => exact modWave_memOk _ _ _ _ h
  | mem m => exact h

theorem envAt_s {s : State} {gi wi : Nat} {k : Bool} {e : Env} (h : s.envAt gi wi k = some e) : e.s = s := by
  unfold State.envAt at h
  split at h
  · split at h
    · cases h
      rfl
    · cases h
  · cases h

theorem xIssue_leads (who : Cur) (x : D) (fresh : Bool) (n : Nat) (g : Mask) {r : XRun} (h : r.s.memOk = true) :
    Leads (xIssue who x fresh n g r) fun r => r.s.memOk = true := by
  induction n generalizing g r with
  | zero => exact (leads_ok _).2 h
  | succ n ih =>
    unfold xIssue
    refine Leads.ite ((leads_ok _).2 h) ?_
    split
    · exact (leads_ok _).2 h
    rename_i e he
    have hs : (e.narrow g).s.memOk = true := envAt_s he ▸ h
    split
    · exact (leads_ok _).2 h
    rename_i w _
    split
    · rename_i htry
      exact (leads_ok _).2 (xTry_leads w e.act hs _ htry)
    · rename_i htry
      exact (leads_ok _).2 (xTry_leads w e.act hs _ htry)
    · exact Leads.ite ((leads_ok _).2 (xStep_memOk _ _ h)) (ih _ h)
    · exact Leads.ite (leads_error _) (ih _ (drainWave_memOk _ _ _ h))

theorem xIssueAll_leads (who : Cur) (fresh : Bool) (ps : List (D × Mask)) {r : XRun} (h : r.s.memOk = true) :
    Leads (xIssueAll who fresh ps r) fun r => r.s.memOk = true := by
  induction ps generalizing fresh r with
  | nil => exact (leads_ok _).2 h
  | cons p ps ih => exact Leads.bind (xIssue_leads who p.1 fresh 200 p.2 h) fun _ hr => ih false hr

theorem xEnd_memOk (e : Env) (illegal : List (D × Mask)) {r : XRun} (h : r.s.memOk = true) : (xEnd e illegal r).memOk = true := by
  unfold xEnd
  dsimp only
  split
  · exact trapDrained_memOk _ _ _ _ (modWave_memOk _ _ _ _ h)
  · exact modWave_memOk _ _ _ _ (modWave_memOk _ _ _ _ h)

theorem keeps_xvec (n : VR) : Keeps (execXvec n) := by
  refine keeps_run fun e he => ?_
  iterate 4 refine Leads.after fun _ => ?_
  exact Leads.bind (xIssueAll_leads _ _ _ (r := ⟨e.s, 0, none⟩) he) fun _ hr => (leads_ok _).2 (xEnd_memOk _ _ hr)

/-! ## Resolving fault requests (R303, R304, R319) -/

theorem modPend_memOk {s : State} (ctx queue : Nat) (f : List Pend → List Pend) (h : s.memOk = true) : (modPend s ctx queue f).memOk = true :=
  modCtx_memOk _ _ _ h

theorem lanesResume_memOk {s : State} (gi wi id : Nat) (h : s.memOk = true) : (lanesResume s gi wi id).memOk = true := by
  unfold lanesResume
  split
  · exact acquire_memOk _ _ _ _ h
  · exact h

theorem siloEnds_memOk {s : State} (g : Gang) (sub va : Nat) (h : s.memOk = true) : (siloEnds s g sub va).memOk = true := by
  unfold siloEnds
  split
  · exact faultGrid_memOk _ _ _ h
  · exact h

theorem siloDenied_memOk {s : State} (gi t : Nat) (h : s.memOk = true) : (siloDenied s gi t).memOk = true := by
  unfold siloDenied
  split
  · split
    · exact siloEnds_memOk _ _ _ h
    · exact h
  · exact h

theorem freeWaiter_memOk (id page : Nat) (ok : Bool) {s : State} (who : Waiter) (h : s.memOk = true) :
    (freeWaiter id page ok s who).memOk = true := by
  have hgang (g : Nat) (f : Gang → Gang) (hf : ∀ g, (f g).spad = g.spad) :
      ({ s with gangs := mapIf (·.id == g) f s.gangs } : State).memOk = true :=
    mapGangs_memOk s _ f (fun g hg => (congrArg Memory.wf (hf g)).trans hg) h
  cases who <;> simp only [freeWaiter]
  case lanes g w =>
    split
    · split
      · exact lanesResume_memOk _ _ _ (hgang _ _ fun _ => rfl)
      · exact hgang _ _ fun _ => rfl
    · exact hgang _ _ fun _ => rfl
  case bar g w =>
    split
    · split
      · exact arriveIfAll_memOk _ _ _ (hgang _ _ fun _ => rfl)
      · exact hgang _ _ fun _ => rfl
    · exact hgang _ _ fun _ => rfl
  case silo g t =>
    split
    · split
      · exact h
      · exact siloDenied_memOk _ _ h
    · exact h
  case op g o => exact hgang _ _ fun _ => rfl
  case entry g o => exact hgang _ _ fun _ => rfl
  case task d k => exact modDie_memOk _ _ _ h
  case accept x q => exact modPend_memOk _ _ _ h
  case grid r => exact modGrid_memOk _ _ _ h
  case message n =>
    split
    · exact h
    · exact memOk_congr s _ rfl rfl h

theorem resolveReq_memOk (ok : Bool) {s : State} (r : FReq) (h : s.memOk = true) : (resolveReq ok s r).memOk = true :=
  foldl_keeps (fun t : State => t.memOk = true) _ (fun _ who ht => freeWaiter_memOk _ _ _ who ht) _ _ (memOk_congr s _ rfl rfl h)

theorem resolveAll_memOk (ok : Bool) {s : State} (rs : List FReq) (h : s.memOk = true) : (rs.foldl (resolveReq ok) s).memOk = true :=
  foldl_keeps (fun t : State => t.memOk = true) _ (fun _ r ht => resolveReq_memOk ok r ht) _ _ h

theorem keeps_fltres (i : Instr) (ok : Bool) (a b : Src) : Keeps (fltres i ok a b) :=
  keeps_run fun _ he => Leads.after fun _ => Leads.after fun _ =>
    (leads_ok _).2 (resolveAll_memOk ok _ (modWave_memOk _ _ _ _ (pass_memOk he)))

theorem keeps_idlew (d : SR) (a b : Src) : Keeps (execIdlew d a b) := by
  refine keeps_run fun e he => ?_
  split
  · exact (leads_ok _).2 (sclPut_memOk _ _ _ he)
  · exact Leads.after fun _ => Leads.after fun _ => (leads_ok _).2 (sclPut_memOk _ _ _ he)

/-! ## Every word -/

/-- The meaning of a word keeps every memory canonical. -/
theorem keeps_word {i : Instr} (h : isEvent i = false) : Keeps (exec i) := by
  cases i
  all_goals cases h
  case illegalWord => exact keeps_illegalWord _ _ _ _
  case pairWord => exact keeps_pairWord _ _
  case fusedSoftmax => exact keeps_fusedSoftmax _ _ _ _ _
  case sadd | ssub | smul | smulh | smin | smax | sand | sor | sxor | sandn | sshl | sshr | srot | smovi | smoviP | scmp |
      ssel | sclz | spopc | sbfx | sbfi | saddp | slea | sext | scvt | sfadd | sfmul | smask | scmpp =>
    exact keeps_scl _
  case sdiv | srem => exact keeps_div _ _ _ _ _ _
  case smov => exact keeps_smov _ _ _
  case sleaPc => exact keeps_run fun _ he => sclWord_leadsOk _ he
  case brv => exact keeps_brv _ _ _ _
  case bra => exact keeps_bra _
  case call => exact keeps_call _ _
  case callR => exact keeps_callR _ _
  case ret => exact keeps_ret _
  case trap => exact keeps_trap _
  case waitc => exact keeps_waitc _ _
  case spawn => exact keeps_spawn _ _
  case launch => exact keeps_launch _ _ _ _ _
  case cancel => exact keeps_cancel _ _
  case stepadv => exact keeps_stepadv _
  case brx => exact keeps_brx _
  case vadd | vsub | vmul | vmulh | vmad | vmin | vmax | vabs | vneg | vand | vor | vxor | vandn | vshl | vshr | vrot |
      vclz | vpopc | vbfx | vbfi | vsel | vmov | vmovi | vdot4 | vsad | vavg | vdiv | vrem | vaddc | vclmp | vfma | vfms |
      vfnma | vfdiv | vsqrt | vrint | vfrac | vclass | vsgnj | vscale | vexpo | vrmax | vrmin | vradd | vdot2 | vlerp |
      vcvt | vpack | vunpk | vqnt | vdqnt | vplane | vunpl | vbscl | vrcp | vrsq | vexp2 | vlog2 | vsin | vcos | vtanh |
      verf | vshfl | vbcast | vbcastI | vbfly | vrotl | vscan | vrdc | vcprs | vmatch | rng | vgumb | vsmpl | vtopk |
      vbern =>
    exact keeps_vec _
  case vcmp => exact keeps_vcmp _ _ _ _ _
  case vvote => exact keeps_vvote _ _ _ _
  case xvec => exact keeps_xvec _
  case vld | vst | vldp | vstp | sld | sst | vldu | vatom | vcas | vatomp | vcasp | satom | scas | vapnd | vldw | vstw |
      daddA | dst | fsth =>
    exact keeps_mem _ _
  case vpref => exact keeps_vpref _ _ _ _
  case dld | dadd => exact keeps_run fun _ he => stampedRun_leadsOk _ he
  case smerge => exact keeps_smerge _ _ _ _
  case dstamp => exact keeps_dstamp _ _ _ _
  case fence => exact keeps_fence _ _
  case xfence => exact keeps_xfence _ _ _
  case bari => exact keeps_bari _ _ _
  case bara => exact keeps_bara _ _ _ _
  case barw => exact keeps_barw _ _ _
  case bar => exact keeps_bar _ _
  case barq => exact keeps_barq _ _ _
  case trgput => exact keeps_trgput _ _ _
  case trgget => exact keeps_trgget _ _ _
  case trgtry => exact keeps_trgtry _ _ _
  case hpass => exact keeps_hpass _
  case ftest => exact keeps_ftest _ _
  case fwait => exact keeps_fwait _ _ _
  case fcancel => exact keeps_fcancel _
  case copy => exact keeps_copy _ _ _ _ _ _ _
  case copyt | binopen | binplay | xsect | smergeu | topk | cvtcsr | cvtres | taskput | stsweep | rinv => exact keeps_block _ _ _ _ _
  case hayfill => exact keeps_run fun _ he => Leads.after fun _ => blockWord_leadsOk _ _ _ _ _ he
  case binapp => exact keeps_binapp _ _ _ _ _
  case cmma | cmmas | cstore | cload => exact keeps_tile _ _ _
  case czero | cmova => exact keeps_bank _ _
  case cspec => exact keeps_cspec _ _ _ _ _ _
  case cresolve => exact keeps_cresolve _
  case relld => exact keeps_relld _ _ _
  case lblsum => exact keeps_lblsum _ _ _ _
  case draft => exact keeps_draft _ _ _ _ _ _
  case accept => exact keeps_accept _ _
  case crdv => exact keeps_crdv _ _ _ _
  case cwrv => exact keeps_cwrv _ _ _
  case cscale => exact keeps_cscale _ _ _ _ _
  case cepi => exact keeps_cepi _ _ _ _
  case lblld | lblst => exact keeps_label _ _
  case lblldAdm => exact keeps_lblldAdm _ _ _
  case cquery => exact keeps_cquery _ _
  case mfs => exact keeps_mfs _ _ _
  case mts => exact keeps_mts _ _
  case tlbinv | ctxsave | ctxload | shtblSet | shtblFlush => exact keeps_sys _ _ _
  case icinv => exact keeps_icinv _ _ _ _
  case clkrdTime => exact keeps_clkrdTime _
  case clkrdCyc => exact keeps_clkrdCyc _
  case perfrd => exact keeps_perfrd _ _
  case perfcfg => exact keeps_perfcfg _ _
  case fltresOk | fltresDeny => exact keeps_fltres _ _ _ _
  case idlew => exact keeps_idlew _ _ _
  case join => exact keeps_join
  case exit => exact keeps_exit
  case eret | eretNext => exact keeps_eretWith _ _
  case yield => exact keeps_yield
  case nop => exact keeps_nop
  case htake => exact keeps_htake

/-! ## The fetch and the bookkeeping of an issue (R20, R109, R302-R304, R308) -/

theorem fillFetch_memOk {s : State} (g : Gang) (w : Wave) (pc : D) (h : s.memOk = true) : (fillFetch s g w pc).memOk = true := by
  unfold fillFetch
  split
  · exact noteTag_memOk _ _ _ _ _ h
  · exact h

theorem noteFetch_memOk {s : State} (g : Gang) (w : Wave) (pc : D) (h : s.memOk = true) : (noteFetch s g w pc).memOk = true := by
  unfold noteFetch
  split
  · split
    · exact h
    · dsimp only
      split <;> exact memOk_congr s _ rfl rfl h
  · exact h

theorem fetchStop_memOk {e : Env} (r : Fetch) (pc : D) (h : e.s.memOk = true) : (fetchStop e r pc).memOk = true := by
  unfold fetchStop
  split
  · exact takeTrap_memOk _ _ _ _ _ h
  · exact parkAll_memOk e _ _ _ h

/-- The memories of what an issue leads to are canonical. -/
def IssuedOk (x : Issued) : Prop := match x with
  | .run _ t => t.memOk = true
  | .done t => t.memOk = true

theorem fetchRun_ok_mem {e : Env} (h : e.s.memOk = true) : IssuedOk (fetchRun e) := by
  have hfill := fillFetch_memOk e.g e.w e.slot.pc h
  have hnoted := noteFetch_memOk e.g e.w e.slot.pc hfill
  unfold fetchRun
  dsimp only
  split
  · split
    · exact hnoted
    · split
      · exact fetchStop_memOk _ _ hnoted
      · exact hnoted
      · exact hnoted
  · exact fetchStop_memOk _ _ hfill

/-- Either outcome of a split that issues again leaves the memories canonical. -/
def UnparkOk : Except State State → Prop
  | .ok t => t.memOk = true
  | .error t => t.memOk = true

theorem unpark_ok {s : State} (who : Cur) (w : Wave) (h : s.memOk = true) : UnparkOk (unpark s who w) := by
  unfold unpark
  dsimp only
  split
  · exact trapDrained_memOk _ _ _ _ h
  · split
    · exact setWave_memOk _ _ _ _ h
    · exact trapDrained_memOk _ _ _ _ (setWave_memOk _ _ _ _ h)
  · exact h

theorem prepare_ok {s : State} (who : Cur) (stale : Bool) (h : s.memOk = true) : IssuedOk (prepare s who stale) := by
  unfold prepare
  dsimp only
  split
  · exact h
  split
  · exact h
  split
  · exact h
  rename_i _ g _ _ w _ _
  have hunpark := unpark_ok (s := { s with cur := who, stale := stale }) who w (memOk_congr s _ rfl rfl h)
  split
  · rename_i t ht
    rw [ht] at hunpark
    exact memOk_congr t _ rfl rfl hunpark
  rename_i t ht
  rw [ht] at hunpark
  have ht : (t.modWave who.gang who.wave (loseIfOther t who g)).memOk = true := modWave_memOk _ _ _ _ hunpark
  split
  · rename_i e he
    have hrun := fetchRun_ok_mem (e := e) ((env?_eq _ _ _ he).1 ▸ ht)
    split
    · rename_i hf
      rwa [hf] at hrun
    · rename_i u hf
      rw [hf] at hrun
      exact memOk_congr u _ rfl rfl hrun
  · exact memOk_congr _ _ rfl rfl ht

theorem endYields_memOk {s : State} (q : Nat) (who : Cur) (h : s.memOk = true) : (endYields s q who).memOk = true := by
  unfold endYields
  dsimp only
  split
  · exact h
  · rw [memOk_iff] at h ⊢
    refine ⟨h.1, fun g hg => ?_⟩
    obtain ⟨p, hp, rfl⟩ := List.mem_map.1 hg
    exact h.2 p.1 (List.of_mem_zip hp).1

theorem countWord_memOk {s : State} (byre : Nat) (w : Wave) (i : Instr) (h : s.memOk = true) : (countWord s byre w i).memOk = true := by
  unfold countWord
  dsimp only
  split <;> exact memOk_congr s _ rfl rfl h

theorem finishIssue_memOk (s : State) {t : State} (who : Cur) (i : Instr) (h : t.memOk = true) : (finishIssue s t who i).memOk = true := by
  have ht : ({ t with stale := false } : State).memOk = true := memOk_congr t _ rfl rfl h
  unfold finishIssue
  dsimp only
  split
  · exact ht
  split
  · exact ht
  split
  · exact modWave_memOk _ _ _ _ ht
  · rename_i _ g _ _ w _ _
    exact endYields_memOk _ _ (memOk_congr _ _ rfl rfl (countWord_memOk g.byreId (loseIfOther s who g w) i ht))

end Sys2Proof
end

section
/-! SUPPORT. What the engines and the Churn do to memory keeps it canonical: a rule per construct of their monad, then their
accesses and the Churn's units. -/

namespace Sys2Proof

open Sys2Proof.Machine Sys2Proof.Claims

/-! ## The engines' monad -/

/-- What an operation has done, however its unit ended. -/
def stAfter {α : Type} : EStateM.Result EStop ESt α → ESt
  | .ok _ x => x
  | .error _ x => x

/-- A unit that keeps every memory canonical. -/
structure EngOk {α : Type} (m : EngM α) : Prop where
  keeps : ∀ x : ESt, x.s.memOk = true → (stAfter (m x)).s.memOk = true

theorem engOk_pure {α : Type} (a : α) : EngOk (pure a) := ⟨fun _ h => h⟩

theorem engOk_throw {α : Type} (e : EStop) : EngOk (throw e : EngM α) := ⟨fun _ h => h⟩

theorem EngOk.bind {α β : Type} {m : EngM α} {f : α → EngM β} (hm : EngOk m) (hf : ∀ a, EngOk (f a)) : EngOk (m >>= f) := by
  refine ⟨fun x h => ?_⟩
  have hx := hm.keeps x h
  show (stAfter (EStateM.bind m f x)).s.memOk = true
  unfold EStateM.bind
  cases hmx : m x with
  | ok a y =>
    rw [hmx] at hx
    exact (hf a).keeps y hx
  | error e y =>
    rw [hmx] at hx
    exact hx

/-- What follows a reading of the state runs on that state. -/
theorem engOk_get {β : Type} {f : ESt → EngM β} (hf : ∀ x : ESt, x.s.memOk = true → EngOk (f x)) : EngOk (get >>= f) :=
  ⟨fun x h => (hf x h).keeps x h⟩

theorem EngOk.ite {α : Type} {p : Prop} [Decidable p] {x y : EngM α} (hx : EngOk x) (hy : EngOk y) :
    EngOk (if p then x else y) := by
  split
  · exact hx
  · exact hy

/-- A unit that counts, and touches no memory. -/
theorem engOk_modify {f : ESt → ESt} (hf : ∀ x, (f x).s = x.s) : EngOk (modify f : EngM PUnit) :=
  ⟨fun x h => (congrArg State.memOk (hf x)).trans h⟩

theorem engOk_eMod {f : State → State} (hf : ∀ s : State, s.memOk = true → (f s).memOk = true) : EngOk (eMod f) :=
  ⟨fun x h => hf x.s h⟩

theorem engOk_eFail {α : Type} (n : Nat) : EngOk (eFail n : EngM α) := engOk_throw _

theorem engOk_eNeed (ok : Bool) (errc : Nat) : EngOk (eNeed ok errc) := EngOk.ite (engOk_pure _) (engOk_eFail _)

theorem engOk_eProg (n : Nat) : EngOk (eProg n) := engOk_modify fun _ => rfl

theorem engOk_eRes (n : Nat) : EngOk (eRes n) := engOk_modify fun _ => rfl

theorem engOk_eFlags (f : Flags) : EngOk (eFlags f) := engOk_modify fun _ => rfl

theorem engOk_eEach {f : Nat → EngM Unit} (hf : ∀ n, EngOk (f n)) (is : List Nat) : EngOk (eEach f is) := by
  induction is with
  | nil => exact engOk_pure _
  | cons i is ih => exact (hf i).bind fun _ => ih

theorem engOk_eMap {α : Type} {f : Nat → EngM α} (hf : ∀ n, EngOk (f n)) (is : List Nat) : EngOk (eMap f is) := by
  induction is with
  | nil => exact engOk_pure _
  | cons i is ih => exact (hf i).bind fun _ => ih.bind fun _ => engOk_pure _

theorem engOk_eFor {f : Nat → EngM Unit} (hf : ∀ n, EngOk (f n)) (n i : Nat) : EngOk (eFor n i f) := by
  induction n generalizing i with
  | zero => exact engOk_pure _
  | succ n ih => exact (hf i).bind fun _ => ih (i + 1)

/-! ## Places, reads and writes (R189-R195, R255, R316) -/

theorem engOk_eAddr (v : EEnv) (sp a n : Nat) (write : Bool) : EngOk (eAddr v sp a n write) := by
  refine engOk_get fun x _ => ?_
  split
  · exact EngOk.ite (engOk_pure _) (engOk_eFail _)
  · exact EngOk.ite (engOk_pure _) (engOk_eFail _)
  · refine EngOk.ite ((engOk_throw _).bind fun _ => ?_) ?_ <;> split
    · exact engOk_pure _
    · exact engOk_throw _
    · exact engOk_eFail _
    · exact engOk_pure _
    · exact engOk_throw _
    · exact engOk_eFail _

theorem engOk_eLoc (v : EEnv) (sp a n : Nat) (write : Bool) : EngOk (eLoc v sp a n write) :=
  (engOk_eAddr ..).bind fun _ => EngOk.ite ((engOk_eMod fun _ h => noteTag_memOk _ _ _ _ _ h).bind fun _ => engOk_pure _) (engOk_pure _)

theorem fillObuf_memOk (v : EEnv) {s : State} (line : Nat) (bytes : List Byte) (h : s.memOk = true) : (fillObuf v s line bytes).memOk = true := by
  unfold fillObuf
  dsimp only
  split
  · split <;> exact memOk_congr s _ rfl rfl h
  · exact memOk_congr s _ rfl rfl h

theorem fillObufs_memOk (v : EEnv) (bytes : State → Nat → List Byte) (line : Nat → Nat) (ls : List Nat) {s : State} (h : s.memOk = true) :
    (ls.foldl (fun s l => fillObuf v s (line l) (bytes s l)) s).memOk = true :=
  foldl_keeps (fun t : State => t.memOk = true) _ (fun _ _ ht => fillObuf_memOk v _ _ ht) _ _ h

theorem engOk_eBytes (v : EEnv) (l : Loc) (n : Nat) : EngOk (eBytes v l n) := by
  have hread : EngOk (do let x ← get; pure (Machine.bytesAt v x.s l n)) := engOk_get fun _ _ => engOk_pure _
  cases l with
  | mem k => exact EngOk.ite ((engOk_eMod fun _ h => fillObufs_memOk v _ _ _ h).bind fun _ => hread) hread
  | spad o => exact hread

theorem engOk_eReadRaw (v : EEnv) (sp a n : Nat) : EngOk (eReadRaw v sp a n) := (engOk_eLoc ..).bind fun _ => engOk_eBytes ..

theorem engOk_eNum (v : EEnv) (sp a n : Nat) : EngOk (eNum v sp a n) :=
  (engOk_eReadRaw ..).bind fun _ => (engOk_eNeed ..).bind fun _ => engOk_pure _

theorem updObuf_memOk {s : State} (byre : Nat) (bs : List StByte) (h : s.memOk = true) : (updObuf s byre bs).memOk = true := by
  refine foldl_keeps (fun t : State => t.memOk = true) _ (fun t b ht => ?_) _ _ h
  split
  · exact memOk_congr t _ rfl rfl ht
  · exact ht

theorem engOk_ePut (v : EEnv) (l : Loc) (bs : List (Byte × Bool)) : EngOk (ePut v l bs) := by
  refine engOk_eMod fun s h => ?_
  dsimp only
  split
  · exact updObuf_memOk _ _ (storeAs_memOk _ _ _ _ _ h)
  · exact storeAs_memOk _ _ _ _ _ h

theorem engOk_eWrite (v : EEnv) (sp a : Nat) (bs : List (Byte × Bool)) : EngOk (eWrite v sp a bs) :=
  (engOk_eLoc ..).bind fun _ => engOk_ePut ..

theorem engOk_eWriteNum (v : EEnv) (sp a n x : Nat) : EngOk (eWriteNum v sp a n x) := engOk_eWrite ..

theorem engOk_eStraddles (v : EEnv) (va a : Nat) (ps : List (Nat × Nat)) : EngOk (eStraddles v va a ps) := by
  induction ps with
  | nil => exact engOk_pure _
  | cons p ps ih =>
    exact ((engOk_eLoc ..).bind fun _ => (engOk_eLoc ..).bind fun _ => engOk_pure _).bind fun _ => ih

theorem engOk_eReadPiece (v : EEnv) (view : Bool) (sp a n : Nat) : EngOk (eReadPiece v view sp a n) := by
  refine EngOk.ite ((engOk_eLoc ..).bind fun _ => engOk_get fun x _ => (engOk_eStraddles ..).bind fun _ => ?_) (engOk_eReadRaw ..)
  split
  · exact EngOk.ite ((engOk_eMod fun _ h => fillObufs_memOk v _ _ _ h).bind fun _ => engOk_get fun _ _ => engOk_pure _) (engOk_pure _)
  · exact engOk_eFail _

theorem putViewSpan_memOk (v : EEnv) (f : Nat) {s : State} (a : Nat) (bs : List (Byte × Bool)) (h : s.memOk = true) :
    ∀ t, putViewSpan v f s a bs = some t → t.memOk = true := by
  induction f generalizing s a bs with
  | zero =>
    intro t ht
    cases ht
    exact h
  | succ f ih =>
    intro t ht
    unfold putViewSpan at ht
    split at ht
    · cases ht
      exact h
    · cases ht
    · refine ih _ _ ?_ t ht
      split <;> exact storeAs_memOk _ _ _ _ _ h

theorem engOk_eWritePiece (v : EEnv) (view : Bool) (sp a : Nat) (bs : List (Byte × Bool)) : EngOk (eWritePiece v view sp a bs) := by
  refine EngOk.ite ((engOk_eLoc ..).bind fun l => engOk_get fun x hx => ?_) (engOk_eWrite ..)
  split
  · rename_i t ht
    have hspan := putViewSpan_memOk v bs.length l.pos bs hx t ht
    refine engOk_eMod fun _ _ => ?_
    split
    · exact memOk_congr t _ rfl rfl hspan
    · exact hspan
  · exact engOk_eFail _

theorem engOk_eReadSpan (v : EEnv) (view : Bool) (sp f a n : Nat) : EngOk (eReadSpan v view sp f a n) := by
  induction f generalizing a n with
  | zero => exact engOk_pure _
  | succ f ih =>
    exact EngOk.ite (engOk_pure _) ((engOk_eReadPiece ..).bind fun _ => (ih ..).bind fun _ => engOk_pure _)

theorem engOk_eWriteSpan (v : EEnv) (view : Bool) (sp f a : Nat) (bs : List (Byte × Bool)) : EngOk (eWriteSpan v view sp f a bs) := by
  induction f generalizing a bs with
  | zero => exact engOk_pure _
  | succ f ih => exact EngOk.ite (engOk_pure _) ((engOk_eWritePiece ..).bind fun _ => ih ..)

theorem engOk_eRead (v : EEnv) (sp a n : Nat) : EngOk (eRead v sp a n) := engOk_eReadSpan ..

theorem engOk_eWriteAll (v : EEnv) (sp a : Nat) (bs : List (Byte × Bool)) : EngOk (eWriteAll v sp a bs) := engOk_eWriteSpan ..

theorem engOk_eTake (v : EEnv) (sp a n : Nat) : EngOk (eTake v sp a n) :=
  (engOk_eRead ..).bind fun _ => (engOk_eNeed ..).bind fun _ => engOk_pure _

theorem engOk_eResum (v : EEnv) (sp a : Nat) : EngOk (eResum v sp a) :=
  (engOk_eTake ..).bind fun _ => (engOk_eNum ..).bind fun _ => engOk_eWriteAll ..

/-! ## Tile operations (R213-R226, R236-R240) -/

theorem engOk_eGang (v : EEnv) : EngOk (eGang v) := engOk_get fun _ _ => engOk_pure _

theorem engOk_eBank (v : EEnv) (n : Nat) : EngOk (eBank v n) := (engOk_eGang v).bind fun _ => engOk_pure _

theorem engOk_eSetBank (v : EEnv) (n : Nat) (x : List W) : EngOk (eSetBank v n x) :=
  engOk_eMod fun s h => modGang_memOk s _ _ (fun _ hg => hg) h

theorem engOk_mmaCheck (v : EEnv) (q : ChEntry) (sparse : Bool) (acc : Nat) : EngOk (mmaCheck v q sparse acc) := by
  refine (engOk_eNeed ..).bind fun _ => (engOk_eGang v).bind fun _ => ?_
  iterate 6 refine (engOk_eNeed ..).bind fun _ => ?_
  exact engOk_eNeed ..

theorem engOk_readSumms (v : EEnv) (o : Side) (n : Nat) : EngOk (readSumms v o n) :=
  engOk_eMap (fun _ => (engOk_eTake ..).bind fun _ => engOk_pure _) _

theorem engOk_readLabels (v : EEnv) (o : Side) (n : Nat) (want : Nat → Bool) : EngOk (readLabels v o n want) :=
  engOk_eMap (fun _ => EngOk.ite (engOk_eNum ..) (engOk_pure _)) _

theorem engOk_stripPairs (v : EEnv) (q : ChEntry) : EngOk (stripPairs v q) := by
  refine (engOk_eGang v).bind fun g => ?_
  dsimp only
  split
  · exact engOk_pure _
  · exact (engOk_readSumms ..).bind fun _ => (engOk_readSumms ..).bind fun _ => (engOk_readLabels ..).bind fun _ =>
      (engOk_readLabels ..).bind fun _ => engOk_pure _

theorem engOk_eBits (v : EEnv) (view : Bool) (sp a len lo n : Nat) : EngOk (eBits v view sp a len lo n) :=
  (engOk_eReadSpan ..).bind fun _ => (engOk_eNeed ..).bind fun _ => engOk_pure _

theorem engOk_elCode (v : EEnv) (o : Side) (i p : Nat) : EngOk (elCode v o i p) :=
  EngOk.ite (EngOk.ite (engOk_eBits ..) (engOk_eBits ..))
    (EngOk.ite (EngOk.ite ((engOk_eMap (fun _ => engOk_eBits ..) _).bind fun _ => engOk_pure _) (engOk_eBits ..)) (engOk_eBits ..))

theorem engOk_fetchEl (v : EEnv) (o : Side) (kk i k p : Nat) : EngOk (fetchEl v o kk i k p) :=
  (engOk_elCode ..).bind fun _ => EngOk.ite ((engOk_eBits ..).bind fun _ => engOk_pure _) (engOk_pure _)

theorem engOk_keptIn (v : EEnv) (q : ChEntry) (sparse : Option Sparse) (j s : Nat) : EngOk (keptIn v q sparse j s) := by
  unfold keptIn
  dsimp only
  split
  · exact engOk_pure _
  · split
    · exact (engOk_eTake ..).bind fun _ => (engOk_eNeed ..).bind fun _ => engOk_pure _
    · exact (engOk_eTake ..).bind fun _ => engOk_pure _

theorem engOk_keptAll (v : EEnv) (q : ChEntry) (sparse : Option Sparse) (pres : List (BitVec 64)) (s : Nat) :
    EngOk (keptAll v q sparse pres s) := engOk_eMap (fun _ => EngOk.ite (engOk_keptIn ..) (engOk_pure _)) _

theorem engOk_fetchA (v : EEnv) (q : ChEntry) (pres : List (BitVec 64)) (cols : List (List (Nat × Nat))) (s : Nat) :
    EngOk (fetchA v q pres cols s) :=
  engOk_eMap (fun _ => engOk_eMap (fun _ => (engOk_fetchEl ..).bind fun _ => engOk_pure _) _) _

theorem engOk_fetchB (v : EEnv) (q : ChEntry) (pres : List (BitVec 64)) (cols : List (List (Nat × Nat)))
    (as : List (List (Nat × El))) : EngOk (fetchB v q pres cols as) :=
  engOk_eMap (fun _ => engOk_eMap (fun _ => (engOk_fetchEl ..).bind fun _ => engOk_pure _) _) _

theorem engOk_mmaStep (v : EEnv) (q : ChEntry) (sparse : Option Sparse) (acc : Nat) : EngOk (mmaStep v q sparse acc) := by
  refine (engOk_keptAll ..).bind fun cols => (engOk_fetchA ..).bind fun as => (engOk_fetchB ..).bind fun bs =>
    (engOk_eBank ..).bind fun bank => (engOk_eProg _).bind fun _ => EngOk.ite ?_ ?_
  · exact EngOk.ite ((engOk_eSetBank ..).bind fun _ => (engOk_eFlags _).bind fun _ => engOk_pure _) (engOk_pure _)
  · exact (engOk_eSetBank ..).bind fun _ => (engOk_eFlags _).bind fun _ => engOk_pure _

theorem engOk_mmaStart (v : EEnv) (q : ChEntry) (sparse : Option Sparse) (z : Bool) (acc : Nat) : EngOk (mmaStart v q sparse z acc) := by
  refine (engOk_mmaCheck ..).bind fun _ => (engOk_stripPairs ..).bind fun d => ?_
  have hend (n k : Nat) (r : ChEntry) : EngOk (do eRes n; eMod fun s => s.bump v.g.byreId 7 k; pure r) :=
    (engOk_eRes _).bind fun _ => (engOk_eMod (f := fun s => s.bump v.g.byreId 7 k) fun s h => memOk_congr s _ rfl rfl h).bind
      fun _ => engOk_pure _
  have hzero (n k : Nat) (r : ChEntry) : EngOk (do
      let bank ← eBank v acc
      eSetBank v acc (zeroTile q bank)
      eRes n
      eMod fun s => s.bump v.g.byreId 7 k
      pure r) := (engOk_eBank ..).bind fun _ => (engOk_eSetBank ..).bind fun _ => hend n k r
  refine EngOk.ite ((engOk_eEach (fun _ => (engOk_keptAll ..).bind fun _ => engOk_pure _) _).bind fun _ => ?_) ?_
  · exact EngOk.ite (hzero ..) (hend ..)
  · exact EngOk.ite (hzero ..) (hend ..)

theorem engOk_mmaUnit (v : EEnv) (q : ChEntry) (sparse : Option Sparse) (z : Bool) (acc : Nat) : EngOk (mmaUnit v q sparse z acc) := by
  have hstep (q' : ChEntry) : EngOk (do let r ← mmaStep v q' sparse acc; pure (r, decide (tileK q' ≤ 64 * (q'.steps + 1)))) :=
    (engOk_mmaStep ..).bind fun _ => engOk_pure _
  exact EngOk.ite ((engOk_mmaStart ..).bind fun _ => hstep _) ((engOk_pure _).bind fun _ => hstep _)

theorem engOk_moveCheck (q : ChEntry) (load : Bool) : EngOk (moveCheck q load) :=
  (engOk_eNeed ..).bind fun _ => (engOk_eNeed ..).bind fun _ => (engOk_eNeed ..).bind fun _ => engOk_eNeed ..

theorem engOk_storeRow (v : EEnv) (q : ChEntry) (acc i : Nat) : EngOk (storeRow v q acc i) :=
  (engOk_eBank ..).bind fun _ => (engOk_eWriteSpan ..).bind fun _ => (engOk_eFlags _).bind fun _ => (engOk_eProg _).bind fun _ =>
    engOk_eRes _

theorem engOk_loadRow (v : EEnv) (q : ChEntry) (acc i : Nat) : EngOk (loadRow v q acc i) :=
  (engOk_eReadSpan ..).bind fun _ => (engOk_eNeed ..).bind fun _ => (engOk_eBank ..).bind fun _ => (engOk_eSetBank ..).bind fun _ =>
    (engOk_eFlags _).bind fun _ => (engOk_eProg _).bind fun _ => engOk_eRes _

theorem engOk_moveUnit (v : EEnv) (q : ChEntry) (load : Bool) (acc : Nat) : EngOk (moveUnit v q load acc) := by
  refine (engOk_moveCheck ..).bind fun _ => (engOk_eGang v).bind fun _ => (engOk_eNeed ..).bind fun _ =>
    EngOk.bind (engOk_eFor (fun n => ?_) _ _) fun _ => engOk_pure _
  cases load
  · exact engOk_storeRow ..
  · exact engOk_loadRow ..

/-! ## The other units of the Churn (R221-R225, R244-R250) -/

theorem engOk_eachEl (v : EEnv) (acc : Nat) (f : Nat → W → W × Flags) : EngOk (eachEl v acc f) :=
  (engOk_eGang v).bind fun _ => (engOk_eNeed ..).bind fun _ => (engOk_eBank ..).bind fun _ => (engOk_eSetBank ..).bind fun _ =>
    engOk_eFlags _

theorem engOk_readBias (v : EEnv) (a : Option Nat) : EngOk (readBias v a) := by
  cases a with
  | none => exact engOk_pure _
  | some a => exact (engOk_eNeed ..).bind fun _ => (engOk_eTake ..).bind fun _ => engOk_pure _

theorem engOk_epiUnit (v : EEnv) (acc : Nat) (relu : Bool) (a : Option Nat) : EngOk (epiUnit v acc relu a) :=
  (engOk_eGang v).bind fun _ => (engOk_eNeed ..).bind fun _ => (engOk_readBias ..).bind fun _ => engOk_eachEl ..

theorem engOk_movaUnit (v : EEnv) (add : Bool) (dst src : Nat) : EngOk (movaUnit v add dst src) :=
  (engOk_eBank ..).bind fun _ => engOk_eachEl ..

theorem engOk_eChurn (v : EEnv) (f : Churn → Churn) : EngOk (eChurn v f) :=
  engOk_eMod fun s h => modGang_memOk s _ _ (fun _ hg => hg) h

theorem engOk_relldUnit (v : EEnv) (slot va sp : Nat) : EngOk (relldUnit v slot va sp) :=
  (engOk_eTake ..).bind fun _ => (engOk_eNeed ..).bind fun _ => engOk_eChurn ..

theorem engOk_lblsumUnit (v : EEnv) (q : ChEntry) (slot va sp n : Nat) : EngOk (lblsumUnit v q slot va sp n) := by
  refine (engOk_eGang v).bind fun g => (engOk_eNeed ..).bind fun _ => ?_
  split
  · exact engOk_eFail _
  · exact (engOk_eRes _).bind fun _ => EngOk.ite (engOk_pure _)
      ((engOk_eTake ..).bind fun _ => (engOk_eWriteAll ..).bind fun _ => (engOk_eProg _).bind fun _ => engOk_pure _)

theorem engOk_acceptUnit (v : EEnv) (lbase seq n nd : Nat) : EngOk (acceptUnit v lbase seq n nd) :=
  (engOk_eEach (fun _ => engOk_eWriteNum ..) _).bind fun _ =>
    (engOk_eEach (fun _ => (engOk_eNum ..).bind fun _ => EngOk.ite (engOk_eResum ..) (engOk_pure _)) _).bind fun _ => engOk_eRes _

theorem engOk_whole {m : EngM Unit} (q : ChEntry) (hm : EngOk m) : EngOk (whole q m) := hm.bind fun _ => engOk_pure _

theorem engOk_chUnit (v : EEnv) (q : ChEntry) : EngOk (chUnit v q) := by
  unfold chUnit
  split
  · exact engOk_mmaUnit ..
  · exact engOk_moveUnit ..
  · exact engOk_moveUnit ..
  · exact engOk_whole q (engOk_eachEl ..)
  · exact engOk_whole q (engOk_movaUnit ..)
  · exact engOk_whole q (engOk_eachEl ..)
  · exact engOk_whole q (engOk_epiUnit ..)
  · exact engOk_whole q (EngOk.ite (engOk_eChurn ..) (engOk_pure _))
  · exact engOk_whole q (engOk_pure _)
  · exact engOk_whole q (engOk_relldUnit ..)
  · exact engOk_lblsumUnit ..
  · exact engOk_whole q (EngOk.ite (engOk_acceptUnit ..) (engOk_eFail _))

/-! ## Execution and end of a Churn entry (R209, R226, R376) -/

theorem putEntry_memOk {s : State} (gi : Nat) (q : ChEntry) (h : s.memOk = true) : (putEntry s gi q).memOk = true :=
  modGang_memOk s gi _ (fun _ hg => hg) h

theorem runUnit_memOk {s : State} (gi : Nat) (g : Gang) (q : ChEntry) (halt : Option Nat) (h : s.memOk = true) :
    (stAfter (runUnit s gi g q halt)).s.memOk = true := (engOk_chUnit _ _).keeps ⟨s, q.prog, q.rcount, q.fl⟩ h

theorem endAtPage_memOk {s : State} (gi : Nat) (g : Gang) (q : ChEntry) (st : FState) (errc : Nat) (h : s.memOk = true) :
    (endAtPage s gi g q st errc).memOk = true := by
  have hunit := runUnit_memOk gi g q (some q.page) h
  unfold endAtPage
  split
  all_goals
    rename_i hrun
    rw [hrun] at hunit
    exact putEntry_memOk _ _ hunit

theorem parkEntry_memOk {s : State} (g : Gang) (gi : Nat) (q : ChEntry) (va : Nat) (write : Bool) (h : s.memOk = true) :
    (parkEntry s g gi q va write).memOk = true := putEntry_memOk _ _ (addReq_memOk _ _ _ _ _ _ _ _ h)

theorem stopEntry_memOk {s : State} (gi : Nat) (g : Gang) (q : ChEntry) (h : s.memOk = true) : (stopEntry s gi g q).memOk = true := by
  unfold stopEntry
  split
  · exact putEntry_memOk _ _ h
  · exact endAtPage_memOk _ _ _ _ _ (dropWaiter_memOk _ _ h)

theorem runEntry_memOk {s : State} (gi : Nat) (g : Gang) (q : ChEntry) (h : s.memOk = true) : (runEntry s gi g q).memOk = true := by
  have hunit := runUnit_memOk gi g q none h
  unfold runEntry
  split
  · exact stopEntry_memOk _ _ _ h
  split
  · exact endAtPage_memOk _ _ _ _ _ h
  split
  · exact h
  split
  · rename_i r fin x hrun
    rw [hrun] at hunit
    dsimp only
    split
    · exact modGang_memOk _ _ _ (fun _ hg => hg) (putEntry_memOk _ _ hunit)
    · exact putEntry_memOk _ _ hunit
  · exact parkEntry_memOk _ _ _ _ _ h
  · rename_i x hrun
    rw [hrun] at hunit
    exact putEntry_memOk _ _ hunit

theorem tagPlace_memOk {s : State} (l : Loc) (tag : Option (Nat × Bool)) (n : Nat) (h : s.memOk = true) :
    (tagPlace s l tag n).memOk = true := by
  unfold tagPlace
  split
  · exact tagLines_memOk _ _ _ _ _ _ h
  · exact h

theorem putBytes_memOk {s : State} (gi : Nat) (p : CPlace) (bs : List Byte) (h : s.memOk = true) : (putBytes s gi p bs).memOk = true := by
  unfold putBytes
  split
  · exact writeLoc_memOk _ _ _ _ (tagPlace_memOk _ _ _ h)
  · exact h

theorem putRecord_memOk {s : State} (gi : Nat) (p : CPlace) (prog errc : Nat) (h : s.memOk = true) :
    (putRecord s gi p prog errc).memOk = true := by
  unfold putRecord
  dsimp only
  split
  · exact dropCopies_memOk _ _ (putBytes_memOk _ _ _ h)
  · exact putBytes_memOk _ _ _ h

theorem arriveAt_memOk {s : State} (gi : Nat) (p : CPlace) (h : s.memOk = true) : (arriveAt s gi p).memOk = true := by
  unfold arriveAt
  split
  · exact arrive_memOk _ _ _ _ (tagPlace_memOk _ _ _ h)
  · exact h

theorem reportFut_memOk {s : State} (gi wave : Nat) (f : Option FR) (ser : W) (st : FState) (result : Nat) (fl : Flags)
    (h : s.memOk = true) : (reportFut s gi wave f ser st result fl).memOk = true := by
  unfold reportFut
  split
  · exact h
  · dsimp only
    split
    · exact finishFut_memOk _ _ _ _ _ _ _ h
    · exact modWave_memOk _ _ _ _ (finishFut_memOk _ _ _ _ _ _ _ h)

theorem reportEntry_memOk {s : State} (gi : Nat) (q : ChEntry) (r : ChRes) (t : Comp) (h : s.memOk = true) :
    (reportEntry s gi q r t).memOk = true := by
  refine arriveAt_memOk _ _ (reportFut_memOk _ _ _ _ _ _ _ ?_)
  split
  · exact modGang_memOk _ _ _ (fun _ hg => hg) (putRecord_memOk _ _ _ _ h)
  · exact putRecord_memOk _ _ _ _ h

theorem finishEntry_memOk {s : State} (gi : Nat) (g : Gang) (q : ChEntry) (r : ChRes) (h : s.memOk = true) :
    (finishEntry s gi g q r).memOk = true := by
  unfold finishEntry
  split
  · exact modGang_memOk _ _ _ (fun _ hg => hg) h
  dsimp only
  split
  · exact h
  split
  · exact parkEntry_memOk _ _ _ _ _ h
  · exact parkEntry_memOk _ _ _ _ _ h
  · exact modGang_memOk _ _ _ (fun _ hg => hg) (reportEntry_memOk _ _ _ _ h)

end Sys2Proof
end

section
/-! SUPPORT. Engine commands and tasks keep every memory canonical. -/

namespace Sys2Proof

open Sys2Proof.Machine Sys2Proof.Claims

/-! ## Units of the engines (R196-R206, R293) -/

theorem engOk_eWriteRuns (v : EEnv) (sp a : Nat) (rs : List (Nat × List (Byte × Bool))) : EngOk (eWriteRuns v sp a rs) := by
  induction rs with
  | nil => exact engOk_pure _
  | cons r rs ih => exact (engOk_eWriteAll ..).bind fun _ => ih

theorem engOk_freed (n : Nat) : EngOk (eMod fun s => { s with freeCtr := s.freeCtr + n }) :=
  engOk_eMod fun s h => memOk_congr s _ rfl rfl h

theorem engOk_copyUnit (v : EEnv) (dsp : Bool) (ssp dst src n : Nat) (pos : Pos) : EngOk (copyUnit v dsp ssp dst src n pos) :=
  (engOk_eRead ..).bind fun _ => (engOk_eWriteRuns ..).bind fun _ => (engOk_eRes _).bind fun _ =>
    EngOk.ite (EngOk.ite ((engOk_eWriteRuns ..).bind fun _ => (engOk_freed n).bind fun _ => engOk_pure _) (engOk_pure _)) (engOk_pure _)

theorem engOk_copytBytes (v : EEnv) (o : EngOp) (f p k : Nat) : EngOk (copytBytes v o f p k) := by
  induction f generalizing p k with
  | zero => exact engOk_pure _
  | succ f ih =>
    exact EngOk.ite (engOk_pure _) ((engOk_eReadSpan ..).bind fun _ => (engOk_eWriteSpan ..).bind fun _ => (engOk_eProg _).bind fun _ => ih ..)

theorem engOk_copytUnit (v : EEnv) (o : EngOp) (pos : Pos) : EngOk (copytUnit v o pos) :=
  (engOk_eNeed ..).bind fun _ => (engOk_eNeed ..).bind fun _ => (engOk_copytBytes ..).bind fun _ => (engOk_eProg _).bind fun _ =>
    (engOk_eRes _).bind fun _ => EngOk.ite (engOk_pure _)
      (EngOk.ite ((engOk_eEach (fun _ => engOk_eResum ..) _).bind fun _ => engOk_pure _) (engOk_pure _))

theorem engOk_binSet (v : EEnv) (a : Nat) : EngOk (binSet v a) :=
  (engOk_eNeed ..).bind fun _ => (engOk_eTake ..).bind fun _ => engOk_pure _

theorem engOk_binopenUnit (v : EEnv) (o : EngOp) : EngOk (binopenUnit v o) :=
  (engOk_eNeed ..).bind fun _ => (engOk_eNeed ..).bind fun _ => (engOk_eWriteAll ..).bind fun _ =>
    (engOk_eFor (fun _ => engOk_eWriteNum ..) _ _).bind fun _ => engOk_get fun _ _ => (engOk_eRes _).bind fun _ =>
      (engOk_eProg _).bind fun _ => (engOk_freed 2).bind fun _ => engOk_pure _

theorem engOk_eNow (v : EEnv) (a n : Nat) : EngOk (eNow v a n) := (engOk_eLoc ..).bind fun _ => engOk_get fun _ _ => engOk_pure _

theorem engOk_binOne (v : EEnv) (b : BinSet) (lbl : Bool) (x : Nat × W × W × D) : EngOk (binOne v b lbl x) :=
  EngOk.ite (engOk_pure _) ((engOk_eNow ..).bind fun _ => (engOk_eNeed ..).bind fun _ => EngOk.ite (engOk_pure _)
    ((engOk_eWriteAll ..).bind fun _ =>
      EngOk.ite ((engOk_eWriteAll ..).bind fun _ => (engOk_eWriteNum ..).bind fun _ => engOk_pure _)
        ((engOk_eWriteNum ..).bind fun _ => engOk_pure _)))

theorem engOk_binLanes (v : EEnv) (b : BinSet) (lbl : Bool) (xs : List (Nat × W × W × D)) : EngOk (binLanes v b lbl xs) := by
  induction xs with
  | nil => exact engOk_pure _
  | cons x xs ih => exact (engOk_binOne ..).bind fun _ => ih.bind fun _ => engOk_pure _

theorem engOk_binappUnit (v : EEnv) (lbl : Bool) (recs : List (Nat × W × W × D)) (bset : Nat) : EngOk (binappUnit v lbl recs bset) :=
  (engOk_binSet ..).bind fun _ => (engOk_eNeed ..).bind fun _ => (engOk_binLanes ..).bind fun _ => (engOk_eNeed ..).bind fun _ =>
    (engOk_eRes _).bind fun _ => engOk_pure _

theorem engOk_playOne (v : EEnv) (b : BinSet) (op st r j : Nat) : EngOk (playOne v b op st r j) :=
  (engOk_eNum ..).bind fun _ => (engOk_eNeed ..).bind fun _ =>
    EngOk.ite ((engOk_eRead ..).bind fun _ => (engOk_eWriteAll ..).bind fun _ => engOk_pure _)
      (EngOk.ite ((engOk_eRead ..).bind fun _ => (engOk_eWriteAll ..).bind fun _ => engOk_pure _)
        ((engOk_eNum ..).bind fun _ => (engOk_eNum ..).bind fun _ => (engOk_eFlags _).bind fun _ => (engOk_eWriteNum ..).bind
          fun _ => engOk_pure _))

theorem engOk_playAll (v : EEnv) (b : BinSet) (op st r n j : Nat) (ls : List Nat) : EngOk (playAll v b op st r n j ls) := by
  induction n generalizing j ls with
  | zero => exact engOk_pure _
  | succ n ih =>
    refine (engOk_playOne ..).bind fun x => ?_
    split
    · exact ih ..
    · exact ih ..

theorem engOk_nextRegion (v : EEnv) (b : BinSet) (f r : Nat) : EngOk (nextRegion v b f r) := by
  induction f generalizing r with
  | zero => exact engOk_pure _
  | succ f ih => exact (engOk_eNum ..).bind fun _ => EngOk.ite (engOk_pure _) (ih ..)

theorem engOk_binplayUnit (v : EEnv) (o : EngOp) (pos : Pos) : EngOk (binplayUnit v o pos) := by
  refine (engOk_binSet ..).bind fun _ => (engOk_eNeed ..).bind fun _ => (engOk_eNeed ..).bind fun _ => (engOk_eNeed ..).bind fun _ =>
    (engOk_nextRegion ..).bind fun x => ?_
  split
  · exact engOk_get fun _ _ => (engOk_eRes _).bind fun _ => (engOk_freed 1).bind fun _ => engOk_pure _
  · exact (engOk_eRead ..).bind fun _ => (engOk_eWriteAll ..).bind fun _ => (engOk_playAll ..).bind fun _ =>
      (engOk_eEach (fun _ => engOk_eResum ..) _).bind fun _ => (engOk_eRead ..).bind fun _ => (engOk_eWriteAll ..).bind fun _ =>
        EngOk.ite ((engOk_eWriteNum ..).bind fun _ => (engOk_eProg _).bind fun _ => engOk_pure _)
          ((engOk_eProg _).bind fun _ => engOk_pure _)

theorem engOk_streamAt (v : EEnv) (a n i prev : Nat) : EngOk (streamAt v a n i prev) :=
  EngOk.ite (engOk_pure _) ((engOk_eNum ..).bind fun _ => (engOk_eNeed ..).bind fun _ => engOk_pure _)

theorem engOk_windowOf (v : EEnv) (a n w f i prev : Nat) : EngOk (windowOf v a n w f i prev) := by
  induction f generalizing i prev with
  | zero => exact engOk_pure _
  | succ f ih =>
    refine (engOk_streamAt ..).bind fun x => ?_
    split
    · exact engOk_pure _
    · exact EngOk.ite (engOk_pure _) ((ih ..).bind fun _ => engOk_pure _)

theorem engOk_putEnts (v : EEnv) (out cap e : Nat) (xs : List (Nat × Nat × Nat)) : EngOk (putEnts v out cap e xs) := by
  induction xs generalizing e with
  | nil => exact engOk_pure _
  | cons x xs ih =>
    exact (engOk_eNeed ..).bind fun _ => (engOk_eWriteNum ..).bind fun _ => (engOk_eWriteNum ..).bind fun _ =>
      (engOk_eWriteNum ..).bind fun _ => (engOk_eProg _).bind fun _ => ih ..

theorem engOk_streamUnit (v : EEnv) (o : EngOp) (both : Bool) (pos : Pos) : EngOk (streamUnit v o both pos) := by
  refine (engOk_eNeed ..).bind fun _ => (engOk_streamAt ..).bind fun _ => (engOk_streamAt ..).bind fun _ => (engOk_eRes _).bind fun _ => ?_
  dsimp only
  split
  · exact engOk_pure _
  · exact (engOk_windowOf ..).bind fun _ => (engOk_windowOf ..).bind fun _ => (engOk_putEnts ..).bind fun _ => engOk_pure _

theorem engOk_topkUnit (v : EEnv) (o : EngOp) : EngOk (topkUnit v o) :=
  (engOk_eNeed ..).bind fun _ => (engOk_eNeed ..).bind fun _ => (engOk_eTake ..).bind fun _ => (engOk_eWriteAll ..).bind fun _ =>
    (engOk_eWriteAll ..).bind fun _ => (engOk_eProg _).bind fun _ => (engOk_eRes _).bind fun _ => engOk_pure _

theorem engOk_batchRows (v : EEnv) (inp nrows n i prev : Nat) : EngOk (batchRows v inp nrows n i prev) := by
  induction n generalizing i prev with
  | zero => exact engOk_pure _
  | succ n ih => exact (engOk_eNum ..).bind fun _ => (engOk_eNeed ..).bind fun _ => (ih ..).bind fun _ => engOk_pure _

theorem engOk_putRows (v : EEnv) (ptr i : Nat) (rs : List Nat) (last k n : Nat) : EngOk (putRows v ptr i rs last k n) :=
  (engOk_eFor (fun _ => (engOk_eLoc ..).bind fun _ => engOk_pure _) _ _).bind fun _ => engOk_eFor (fun _ => engOk_eWriteNum ..) _ _

theorem engOk_cvtBatch (v : EEnv) (o : EngOp) (i row next : Nat) : EngOk (cvtBatch v o i row next) := by
  have hmove (k : Nat) : EngOk (do
      let t ← eRead v 0 ((fieldAt o 16 8 + 12 * k + 4) % 2 ^ 64) 4
      eWriteAll v 0 ((fieldAt o 32 8 + 4 * k) % 2 ^ 64) t
      let x ← eRead v 0 ((fieldAt o 16 8 + 12 * k + 8) % 2 ^ 64) 4
      eWriteAll v 0 ((fieldAt o 40 8 + 4 * k) % 2 ^ 64) x) :=
    (engOk_eRead ..).bind fun _ => (engOk_eWriteAll ..).bind fun _ => (engOk_eRead ..).bind fun _ => engOk_eWriteAll ..
  refine (engOk_batchRows ..).bind fun _ => (engOk_eFor hmove _ _).bind fun _ => EngOk.ite ?_ ?_
  · exact (engOk_putRows ..).bind fun _ => (engOk_eProg _).bind fun _ => (engOk_eRes _).bind fun _ => engOk_pure _
  · exact (engOk_putRows ..).bind fun _ => (engOk_eProg _).bind fun _ => engOk_pure _

theorem engOk_cvtUnit (v : EEnv) (o : EngOp) (res : Bool) (pos : Pos) : EngOk (cvtUnit v o res pos) := by
  refine (engOk_eNeed ..).bind fun _ => ?_
  split
  · exact engOk_cvtBatch ..
  · exact EngOk.ite ((engOk_eProg _).bind fun _ => (engOk_eRes _).bind fun _ => EngOk.ite (engOk_pure _)
      ((engOk_eNum ..).bind fun _ => engOk_cvtBatch ..)) ((engOk_eWriteNum ..).bind fun _ => engOk_cvtBatch ..)

theorem engOk_sweepOne (v : EEnv) (a : Nat) : EngOk (sweepOne v a) :=
  (engOk_eNow ..).bind fun _ =>
    EngOk.ite ((engOk_eFlags _).bind fun _ => (engOk_ePut ..).bind fun _ =>
      (engOk_modify (f := fun x => { x with res := x.res + 1 }) fun _ => rfl).bind fun _ =>
        engOk_modify (f := fun x => { x with prog := x.prog + 1 }) fun _ => rfl)
      (engOk_modify (f := fun x => { x with prog := x.prog + 1 }) fun _ => rfl)

theorem engOk_sweepUnit (v : EEnv) (o : EngOp) (pos : Pos) : EngOk (sweepUnit v o pos) :=
  (engOk_eNeed ..).bind fun _ => (engOk_eFor (fun _ => engOk_sweepOne ..) _ _).bind fun _ => engOk_pure _

theorem dropRange_memOk {s : State} (die : Option Nat) (key n : Nat) (h : s.memOk = true) : (dropRange s die key n).memOk = true :=
  memOk_congr s _ rfl rfl h

theorem engOk_rinvPages (v : EEnv) (die : Option Nat) (f a n : Nat) : EngOk (rinvPages v die f a n) := by
  induction f generalizing a n with
  | zero => exact engOk_pure _
  | succ f ih =>
    exact EngOk.ite (engOk_pure _)
      ((engOk_eAddr ..).bind fun _ => (engOk_eMod fun _ h => dropRange_memOk _ _ _ h).bind fun _ => ih ..)

theorem engOk_rinvUnit (v : EEnv) (o : EngOp) : EngOk (rinvUnit v o) := (engOk_rinvPages ..).bind fun _ => engOk_pure _

theorem engOk_hayUnit (v : EEnv) (o : EngOp) (pos : Pos) : EngOk (hayUnit v o pos) := by
  refine (engOk_eNeed ..).bind fun _ => ?_
  dsimp only
  split
  · exact engOk_pure _
  · exact EngOk.ite (engOk_pure _) ((engOk_eRead ..).bind fun _ => (engOk_ePut ..).bind fun _ => EngOk.bind
      (engOk_modify (f := fun x => { x with prog := x.prog + _ / 128, res := (x.res + _ / 128) % 2 ^ 24 }) fun _ => rfl) fun _ =>
        engOk_pure _)

theorem engOk_engUnit (v : EEnv) (o : EngOp) (pos : Pos) : EngOk (engUnit v o pos) := by
  unfold engUnit
  split
  · exact engOk_copyUnit ..
  · exact engOk_binappUnit ..
  · refine EngOk.ite (engOk_eFail _) ?_
    split
    · exact engOk_copytUnit ..
    · exact engOk_binopenUnit ..
    · exact engOk_binplayUnit ..
    · exact engOk_streamUnit ..
    · exact engOk_streamUnit ..
    · exact engOk_topkUnit ..
    · exact engOk_cvtUnit ..
    · exact engOk_sweepUnit ..
    · exact engOk_rinvUnit ..
    · exact engOk_hayUnit ..
    · exact engOk_pure _
  · exact engOk_pure _

/-! ## Runs and completions (R192, R194, R206, R376) -/

theorem opUnit_memOk (gi : Nat) (g : Gang) (halt : Option Nat) {s : State} (o : EngOp) (h : s.memOk = true) :
    (stAfter (opUnit gi g halt s o)).s.memOk = true := (engOk_engUnit _ _ _).keeps ⟨s, o.prog, o.res, o.fl⟩ h

theorem engRun_memOk (gi : Nat) (g : Gang) (n : Nat) {s : State} (o : EngOp) (h : s.memOk = true) : (engRun gi g n s o).1.memOk = true := by
  induction n generalizing s o with
  | zero => exact h
  | succ n ih =>
    have hunit := opUnit_memOk gi g none o h
    unfold engRun
    split
    · rename_i hrun
      rwa [hrun] at hunit
    · rename_i hrun
      rw [hrun] at hunit
      exact ih _ hunit
    · exact h
    · rename_i hrun
      rwa [hrun] at hunit

theorem parkOp_memOk (a : OpAt) {s : State} (o : EngOp) (va : Nat) (write : Bool) (h : s.memOk = true) :
    (parkOp a s o va write).1.memOk = true := addReq_memOk _ _ _ _ _ _ _ _ h

theorem freePut_memOk (v : EEnv) {s : State} (a : Nat) (h : s.memOk = true) :
    (match translate s v.g ⟨true, false, v.priv⟩ (a % 2 ^ 64) 4 with
      | .ok k =>
        { s.writeLoc v.gi (.mem k) ((List.range 4).map fun i => Config.freeByte (s.freeCtr + i)) with freeCtr := s.freeCtr + 4 }
      | _ => s).memOk = true := by
  split
  · exact memOk_congr _ _ rfl rfl (writeLoc_memOk _ _ _ _ h)
  · exact h

theorem cvtFree_memOk {s : State} (v : EEnv) (o : EngOp) (prog : Nat) (h : s.memOk = true) : (cvtFree s v o prog).memOk = true := by
  unfold cvtFree
  dsimp only
  split
  · exact foldl_keeps (fun t : State => t.memOk = true) _ (fun _ _ ht => freePut_memOk v _ (freePut_memOk v _ ht)) _ _ h
  · exact h

theorem afterFail_memOk (a : OpAt) {s : State} (o : EngOp) (h : s.memOk = true) : (afterFail a s o).memOk = true := by
  unfold afterFail
  split
  · split
    · exact h
    · exact cvtFree_memOk _ _ _ h
  · exact h

theorem takeRan_memOk (a : OpAt) {r : State × EngOp × Ran} (h : r.1.memOk = true) : (takeRan a r).1.memOk = true := by
  unfold takeRan
  split
  · exact parkOp_memOk _ _ _ _ h
  · exact afterFail_memOk _ _ h
  · exact h

theorem endAtPark_memOk (a : OpAt) {s : State} (o : EngOp) (st : FState) (errc : Nat) (h : s.memOk = true) :
    (endAtPark a s o st errc).1.memOk = true := by
  have hunit := opUnit_memOk a.gi a.g (some o.page) o h
  unfold endAtPark
  dsimp only
  split
  all_goals
    rename_i hrun
    rwa [hrun] at hunit

theorem workOp_memOk (a : OpAt) {s : State} (o : EngOp) (h : s.memOk = true) : (workOp a s o).1.memOk = true := by
  unfold workOp
  split
  · exact h
  · split
    · exact afterFail_memOk _ _ (endAtPark_memOk _ _ _ _ h)
    · exact takeRan_memOk _ (engRun_memOk _ _ _ _ h)

theorem stopOp_memOk (a : OpAt) {s : State} (o : EngOp) (units : Nat) (h : s.memOk = true) : (stopOp a s o units).1.memOk = true := by
  have hrun := engRun_memOk a.gi a.g units o h
  unfold stopOp
  split
  · exact endAtPark_memOk _ _ _ _ (dropWaiter_memOk _ _ h)
  · split
    · split
      · rename_i hr
        rwa [hr] at hrun
      · rename_i hr
        rw [hr] at hrun
        exact endAtPark_memOk _ _ _ _ hrun
      · exact takeRan_memOk _ hrun
    · exact h

theorem hayDone_memOk {s : State} (v : EEnv) (o : EngOp) (h : s.memOk = true) : (hayDone s v o).memOk = true :=
  foldl_keeps (fun t : State => t.memOk = true) _ (fun _ _ ht => dropRange_memOk _ _ _ ht) _ _ h

theorem reportOp_memOk {s : State} (a : OpAt) (o : EngOp) (t : Comp) (st : FState) (errc : Nat) (h : s.memOk = true) :
    (reportOp s a o t st errc).memOk = true := by
  have hdone : (match o.kind with
      | .block 0xE2 _ => hayDone s (opEnv a.gi a.g s o none) o
      | _ => s : State).memOk = true := by
    split
    · exact hayDone_memOk _ _ h
    · exact h
  refine arriveAt_memOk _ _ (reportFut_memOk _ _ _ _ _ _ _ ?_)
  split
  · exact putRecord_memOk _ _ _ _ hdone
  · exact hdone

theorem endOp_memOk (a : OpAt) {s : State} (o : EngOp) (h : s.memOk = true) : (endOp a s o).1.memOk = true := by
  unfold endOp
  dsimp only
  split
  · exact h
  split
  · exact h
  split
  · exact parkOp_memOk _ o _ _ h
  · exact parkOp_memOk _ o _ _ h
  split
  · exact reportOp_memOk _ _ _ _ _ h
  split
  · exact reportOp_memOk _ _ _ _ _ h
  · exact reportOp_memOk _ _ _ _ _ h

/-! ## Tasks (R205, R328, R329) -/

theorem modTask_memOk {s : State} (die key : Nat) (f : Task → Task) (h : s.memOk = true) : (modTask s die key f).memOk = true :=
  modDie_memOk _ _ _ h

theorem taskWaits_memOk {s : State} (die : Nat) (t : Task) (va : Nat) (write : Bool) (h : s.memOk = true) :
    (taskWaits s die t va write).memOk = true := modTask_memOk _ _ _ (addReq_memOk _ _ _ _ _ _ _ _ h)

theorem enterTask_memOk {s : State} (die : Nat) (t : Task) (queue : Nat) (exts : List Extent) (fail : Option (Nat × Nat))
    (denied : Option Nat) (h : s.memOk = true) : (enterTask s die t queue exts fail denied).memOk = true :=
  modPend_memOk _ _ _ (modTask_memOk _ _ _ h)

theorem startGangTask_memOk {s : State} (die : Nat) (t : Task) (h : s.memOk = true) : (startGangTask s die t).memOk = true := by
  unfold startGangTask
  dsimp only
  split
  · exact modTask_memOk _ _ _ h
  split
  · split
    · exact enterTask_memOk _ _ _ _ _ _ h
    · exact taskWaits_memOk _ _ _ _ h
  · exact enterTask_memOk _ _ _ _ _ _ h
  · split
    · exact enterTask_memOk _ _ _ _ _ _ h
    · split
      · exact enterTask_memOk _ _ _ _ _ _ h
      · exact taskWaits_memOk _ _ _ _ h
      · exact enterTask_memOk _ _ _ _ _ _ h

theorem startCommand_memOk {s : State} (die : Nat) (t : Task) (h : s.memOk = true) : (startCommand s die t).memOk = true := by
  unfold startCommand
  dsimp only
  split
  · exact modTask_memOk _ _ _ h
  split
  · exact taskWaits_memOk _ _ _ _ h
  · exact modTask_memOk _ _ _ h
  · exact modTask_memOk _ _ _ (noteTag_memOk _ _ _ _ _ h)

theorem startSignal_memOk {s : State} (die : Nat) (t : Task) (h : s.memOk = true) : (startSignal s die t).memOk = true := by
  unfold startSignal
  split
  · exact modTask_memOk _ _ _ h
  split
  · split
    · exact modTask_memOk _ _ _ h
    · exact taskWaits_memOk _ _ _ _ h
  · exact modTask_memOk _ _ _ (arriveAt_memOk _ _ h)

theorem startTask_memOk {s : State} (die key : Nat) (h : s.memOk = true) : (startTask s die key).memOk = true := by
  unfold startTask
  split
  · exact h
  split
  · exact h
  split
  · exact startGangTask_memOk _ _ h
  split
  · exact startSignal_memOk _ _ h
  · exact startCommand_memOk _ _ h

theorem workTask_memOk (a : OpAt) {s : State} (o : EngOp) (h : s.memOk = true) : (workTask a s o).1.memOk = true := by
  unfold workTask
  generalize (if o.bsp = true then _ else _ : Nat) = key
  dsimp only
  split
  · exact h
  split
  · exact h
  split
  · exact h
  split
  · exact startTask_memOk _ _ (modDie_memOk _ _ _ h)
  · exact h

theorem countDown_memOk {s : State} (die ctx key : Nat) (h : s.memOk = true) : (countDown s die ctx key).memOk = true := by
  unfold countDown
  split
  · exact startTask_memOk _ _ (modTask_memOk _ _ _ h)
  · exact modDie_memOk _ _ _ h

theorem finishTask_memOk {s : State} (die : Nat) (t : Task) (h : s.memOk = true) : (finishTask s die t).memOk = true :=
  foldl_keeps (fun t : State => t.memOk = true) _ (fun _ _ ht => countDown_memOk _ _ _ ht) _ _ (modDie_memOk _ _ _ h)

theorem runCommand_memOk {s : State} (die : Nat) (t : Task) (o : EngOp) (h : s.memOk = true) : (runCommand s die t o).memOk = true := by
  have hend := endOp_memOk (dieOp t.ctx die t.key) (workOp (dieOp t.ctx die t.key) s o).2 (workOp_memOk (dieOp t.ctx die t.key) o h)
  unfold runCommand
  dsimp only
  split
  all_goals
    rename_i he
    rw [he] at hend
  · exact finishTask_memOk _ _ hend
  · exact modTask_memOk _ _ _ hend

/-! ## Operations of a gang -/

theorem keepOp_memOk {s : State} (gi id : Nat) (o : Option EngOp) (h : s.memOk = true) : (keepOp s gi id o).memOk = true :=
  modGang_memOk s gi _ (fun _ hg => hg) h

theorem advanceOp_memOk {s : State} (gi : Nat) (g : Gang) (o : EngOp) (h : s.memOk = true) : (advanceOp s gi g o).memOk = true := by
  refine keepOp_memOk _ _ _ (endOp_memOk _ _ ?_)
  split
  · exact workTask_memOk _ _ h
  · split
    · exact h
    · exact workOp_memOk _ _ h

end Sys2Proof
end

section
/-! SUPPORT. Acceptance, dealing, completion, pre-emption, fault service and system operations keep every memory canonical. -/

namespace Sys2Proof

open Sys2Proof.Machine Sys2Proof.Claims

/-! ## Silo refill (R332) -/

theorem refill_memOk {s : State} (gi t k : Nat) (h : s.memOk = true) : (refill s gi t k).memOk = true :=
  putHeader_memOk _ _ _ _ (modTrough_memOk _ _ _ h)

theorem refillAccess_memOk {s : State} (gi : Nat) (g : Gang) (t : Nat) (x : Trough) (h : s.memOk = true) :
    (refillAccess s gi g t x).memOk = true := by
  unfold refillAccess
  dsimp only
  split
  · exact refill_memOk _ _ _ (noteAccess_memOk _ _ _ _ _ h)
  · split
    · exact h
    · exact addReq_memOk _ _ _ _ _ _ _ _ h
  · exact siloEnds_memOk _ _ _ h

/-! ## Acceptance (R112, R113, R320) -/

theorem enterGrid_memOk {s : State} (ctx q : Nat) (r : Grid) (h : s.memOk = true) : (enterGrid s ctx q r).memOk = true :=
  memOk_congr s _ rfl rfl h

theorem tellAccepted_memOk {s : State} (p : Pend) (pos : Nat) (h : s.memOk = true) : (tellAccepted s p pos).memOk = true := by
  unfold tellAccepted
  split
  · split
    · exact finishFut_memOk _ _ _ _ _ _ _ h
    · exact h
  · exact h

theorem taskFault_memOk {s : State} (p : Pend) (id : Nat) (h : s.memOk = true) : (taskFault s p id).memOk = true := by
  unfold taskFault
  split
  · exact faultGrid_memOk _ _ _ h
  · exact h

theorem acceptOne_memOk {s : State} (queue : Nat) (t : Ctx) (l : LQueue) (p : Pend) (h : s.memOk = true) :
    (acceptOne s queue t l p).memOk = true := by
  unfold acceptOne
  dsimp only
  split
  · exact modPend_memOk _ _ _ (addReq_memOk _ _ _ _ _ _ _ _ h)
  · refine tellAccepted_memOk _ _ (taskFault_memOk _ _ ?_)
    split
    · exact modDie_memOk _ _ _ (enterGrid_memOk _ _ _ (modPend_memOk _ _ _ h))
    · exact modDie_memOk _ _ _ (enterGrid_memOk _ _ _ (modPend_memOk _ _ _ h))
    · exact enterGrid_memOk _ _ _ (modPend_memOk _ _ _ h)

/-! ## Placement and completion (R35, R36, R321-R325) -/

theorem placeGang_memOk {s : State} (r : Grid) (die byre n : Nat) (places : List (Nat × Nat)) (h : s.memOk = true) :
    (placeGang s r die byre n places).memOk = true := by
  unfold placeGang
  split
  · exact h
  · rename_i t _
    exact memOk_congr _ _ rfl rfl (addGang_memOk s (newGang s r t die byre n places) rfl h)

theorem tellParent_memOk {s : State} (k : GridKind) (ok : Bool) (h : s.memOk = true) : (tellParent s k ok).memOk = true := by
  unfold tellParent
  split
  · split
    · split
      · exact finishFut_memOk _ _ _ _ _ _ _ h
      · exact memOk_congr _ _ rfl rfl (finishFut_memOk _ _ _ _ _ _ _ h)
    · exact h
  · exact h

theorem completeGang_memOk {s : State} (gi : Nat) (g : Gang) (h : s.memOk = true) : (completeGang s gi g).memOk = true := by
  have hleft : ((s.keepViews g).modGang gi Gang.leave).memOk = true :=
    modGang_memOk _ _ _ (fun _ _ => rfl) (memOk_congr s _ rfl rfl h)
  unfold completeGang
  dsimp only
  split
  · exact tellParent_memOk _ _ (modGrid_memOk _ _ _ hleft)
  · exact modGrid_memOk _ _ _ hleft

theorem pagerDone_memOk {s : State} (die ctx : Nat) (h : s.memOk = true) : (pagerDone s die ctx).memOk = true := by
  unfold pagerDone
  split
  · exact h
  · exact resolveAll_memOk _ _ (modDie_memOk _ _ _ h)

theorem gridParks_memOk {s : State} (r : Grid) (vas : List Nat) (h : s.memOk = true) : (gridParks s r vas).memOk = true := by
  induction vas generalizing s with
  | nil => exact h
  | cons va vas ih => exact ih (modGrid_memOk _ _ _ (addReq_memOk _ _ _ _ _ _ _ _ h))

theorem dropGrid_memOk {s : State} (r : Grid) (h : s.memOk = true) : (dropGrid s r).memOk = true :=
  memOk_congr s _ rfl rfl h

theorem completeGrid_memOk {s : State} (r : Grid) (h : s.memOk = true) : (completeGrid s r).memOk = true := by
  have hwritten : ((gridWrites r).foldl (fun s w => putBytes s 0 (gridPlace s r w.1 w.2.length) w.2) s).memOk = true :=
    foldl_keeps (fun t : State => t.memOk = true) _ (fun _ _ ht => putBytes_memOk _ _ _ ht) _ _ h
  unfold completeGrid
  dsimp only
  generalize (gridWrites r).foldl _ s = t at hwritten ⊢
  have hdropped := tellParent_memOk r.kind false (dropGrid_memOk r (arriveAt_memOk 0 (gridBar t r) hwritten))
  split
  · exact pagerDone_memOk _ _ hdropped
  · exact hdropped

theorem endGrid_memOk {s : State} (r : Grid) (h : s.memOk = true) : (endGrid s r).memOk = true := by
  unfold endGrid
  dsimp only
  split
  · exact completeGrid_memOk _ h
  · exact gridParks_memOk _ _ h

/-! ## Fault requests (R303-R305, R319) -/

theorem wakeIdle_memOk {s : State} (gi wi : Nat) (k : Bool) (x : W) (h : s.memOk = true) : (wakeIdle s gi wi k x).memOk = true :=
  modWave_memOk _ _ _ _ h

theorem wakePosted_memOk {s : State} (die : Nat) (h : s.memOk = true) : (wakePosted s die).memOk = true := by
  refine foldl_keeps (fun t : State => t.memOk = true) _ (fun t x ht => ?_) _ _ h
  split
  · split
    · exact ht
    · split
      · split
        · exact wakeIdle_memOk _ _ _ _ ht
        · exact ht
      · exact ht
  · exact ht

theorem postEntry_memOk {s : State} (r : FReq) (h : s.memOk = true) : (postEntry s r).memOk = true :=
  arrive_memOk _ _ _ _ (writeLoc_memOk _ _ _ _ h)

theorem serve_memOk {s : State} (die : Nat) (r : FReq) (h : s.memOk = true) : (serve s die r).memOk = true := by
  unfold serve
  split
  · exact resolveReq_memOk _ _ h
  · rename_i t _
    split
    · exact resolveReq_memOk _ _ h
    · dsimp only
      split
      · rename_i k _
        refine modPend_memOk _ _ _ (modDie_memOk _ _ _ ?_)
        have hwritten := writeLoc_memOk _ 0 (.mem k) (reqEntry r)
          (noteTag_memOk s (blankGang 0 t.id die) true ((t.pghnd + 128 * die + 64) % 2 ^ 64) 32 h)
        generalize State.writeLoc _ _ _ _ = u at hwritten ⊢
        exact memOk_congr u _ rfl rfl hwritten
      · exact resolveReq_memOk _ _ h

/-! ## Pre-emption (R312-R315) -/

theorem openAreas_memOk {s : State} (gi : Nat) (g : Gang) (h : s.memOk = true) : (openAreas s gi g).memOk = true :=
  foldl_keeps (fun t : State => t.memOk = true) _ (fun _ _ ht => openArea_memOk _ _ _ _ _ ht) _ _ h

theorem writeMem_memOk {s : State} (a : Nat) (b : List Byte) (h : s.memOk = true) : ({ s with mem := s.mem.write a b } : State).memOk = true :=
  memOk_mem s _ (Memory.write_wf _ _ _ (memOk_wf s h)) rfl h

theorem putArea_memOk {s : State} (ctx a : Nat) (x : List Byte × List Nat) (h : s.memOk = true) : (putArea s ctx a x).memOk = true := by
  have hsealed := sealLines_memOk s ctx a 4096 h
  unfold putArea
  generalize sealLines s ctx a 4096 = t at hsealed ⊢
  exact memOk_congr { t with mem := t.mem.write a x.1 } _ rfl rfl (writeMem_memOk a x.1 hsealed)

theorem putImage_memOk {s : State} (t : Ctx) (gi : Nat) (g : Gang) (off : Nat) (h : s.memOk = true) : (putImage s t gi g off).memOk = true := by
  have hopen := openAreas_memOk gi g h
  unfold putImage
  dsimp only
  generalize openAreas s gi g = u at hopen ⊢
  have hsealed := sealLines_memOk u t.id (imageBase t + off) (imageBytes u g).length hopen
  generalize imageBytes u g = b at hsealed ⊢
  generalize sealLines u t.id (imageBase t + off) b.length = v at hsealed ⊢
  refine modCtx_memOk _ _ _ ?_
  exact memOk_congr { v with mem := v.mem.write (imageBase t + off) b } _ rfl rfl (writeMem_memOk _ _ hsealed)

theorem drainOp_memOk {s : State} (gi units id : Nat) (h : s.memOk = true) : (drainOp s gi units id).memOk = true := by
  unfold drainOp
  split
  · exact h
  split
  · exact h
  split
  · exact h
  rename_i g _ _ o _ _
  have hrun := engRun_memOk gi g units o h
  refine keepOp_memOk _ _ _ (endOp_memOk _ _ ?_)
  split
  · rename_i hr
    rwa [hr] at hrun
  · exact takeRan_memOk _ hrun

theorem tellSaved_memOk {s : State} (tell : Option (Nat × Nat)) (h : s.memOk = true) : (tellSaved s tell).memOk = true := by
  unfold tellSaved
  split
  · exact mapGangs_memOk s _ _ (fun _ hg => hg) h
  · exact h

theorem noRoom_memOk {s : State} (tell : Option (Nat × Nat)) (h : s.memOk = true) : (noRoom s tell).memOk = true := by
  unfold noRoom
  split
  · rw [memOk_iff] at h ⊢
    refine ⟨h.1, map_forall _ _ (fun g hg => ?_) _ h.2⟩
    split <;> exact hg
  · exact h

theorem saveGang_memOk {s : State} (gi units : Nat) (g : Gang) (tell : Option (Nat × Nat)) (h : s.memOk = true) :
    (saveGang s gi units g tell).memOk = true := by
  have hdrained : ((g.eops.map (·.id)).foldl (fun s id => drainOp s gi units id) s).memOk = true :=
    foldl_keeps (fun t : State => t.memOk = true) _ (fun _ _ ht => drainOp_memOk _ _ _ ht) _ _ h
  unfold saveGang
  dsimp only
  split
  · split
    · exact tellSaved_memOk _ (modGang_memOk _ _ _ (fun _ hg => hg) (putImage_memOk _ _ _ _ hdrained))
    · exact noRoom_memOk _ (modGang_memOk _ _ _ (fun _ hg => hg) hdrained)
  · exact hdrained

theorem shadowAdds_memOk {s : State} (ts : List TlbEnt) (n : TlbEnt → Nat) (h : s.memOk = true) :
    (ts.foldl (fun s t => shadowAdd s t.leaf (n t)) s).memOk = true :=
  foldl_keeps (fun t : State => t.memOk = true) _ (fun _ _ ht => shadowAdd_memOk _ _ _ ht) _ _ h

theorem coldTlb_memOk {s : State} (die byre ctx : Nat) (h : s.memOk = true) : (coldTlb s die byre ctx).memOk = true := by
  unfold coldTlb
  split
  · exact h
  · exact memOk_congr _ _ rfl rfl (shadowAdds_memOk _ (·.hits) h)

theorem restoreGang_memOk {s : State} (gi byre : Nat) (g : Gang) (t : Ctx) (x : SaveImg) (places : List (Nat × Nat))
    (h : s.memOk = true) : (restoreGang s gi byre g t x places).memOk = true := by
  have hput : ((places.zip x.areas).foldl (fun s p => putArea s t.id (dsAddr t g.die byre p.1.1 p.1.2).toNat p.2)
      (coldTlb s g.die byre g.ctx)).memOk = true :=
    foldl_keeps (fun t : State => t.memOk = true) _ (fun _ _ ht => putArea_memOk _ _ _ ht) _ _ (coldTlb_memOk _ _ _ h)
  unfold restoreGang
  dsimp only
  generalize (places.zip x.areas).foldl _ _ = u at hput ⊢
  refine modGang_memOk _ _ _ (fun _ hg => hg) ?_
  exact memOk_congr u _ rfl rfl hput

/-! ## System operations (R294, R299, R318) -/

theorem askSave_spad (me op : Nat) (g : Gang) : (askSave me op g).spad = g.spad := by
  unfold askSave
  split
  · rfl
  · split <;> rfl
  · rfl
  · rfl
  · rfl

theorem runTlbinv_memOk {s : State} (die : Nat) (sc : LScope) (va len ctx : Nat) (h : s.memOk = true) :
    (runTlbinv s die sc va len ctx).s.memOk = true := by
  unfold runTlbinv
  dsimp only
  split
  · exact h
  · exact memOk_congr _ _ rfl rfl (shadowAdds_memOk (s := s.took) _ (·.hits) (memOk_congr s _ rfl rfl h))

theorem runIcinv_memOk {s : State} (g : Gang) (pkg : Bool) (va len : Nat) (h : s.memOk = true) :
    (runIcinv s g pkg va len).s.memOk = true := by
  refine foldl_keeps (fun t : State => t.memOk = true) _ (fun t i ht => ?_) _ _ h
  split
  · exact memOk_congr t _ rfl rfl ht
  · exact ht

theorem runCtxsave_memOk {s : State} (gi : Nat) (g : Gang) (o : EngOp) (pkg : Bool) (ctx : Nat) (h : s.memOk = true) :
    (runCtxsave s gi g o pkg ctx).s.memOk = true := by
  unfold runCtxsave
  dsimp only
  split
  · exact keepOp_memOk _ _ _ (mapGangs_memOk s _ _ (fun x hx => (congrArg Memory.wf (askSave_spad _ _ x)).trans hx) h)
  · split <;> exact h

theorem runCtxload_memOk {s : State} (die : Nat) (pkg : Bool) (ctx : Nat) (h : s.memOk = true) :
    (runCtxload s die pkg ctx).s.memOk = true := mapGangs_memOk s _ _ (fun _ hg => hg) h

theorem runShset_memOk {s : State} (a : Nat) (h : s.memOk = true) : (runShset s a).s.memOk = true := by
  unfold runShset
  split
  · exact h
  · exact memOk_congr s _ rfl rfl h

theorem runShflush_memOk {s : State} (die : Nat) (pkg : Bool) (h : s.memOk = true) : (runShflush s die pkg).s.memOk = true :=
  memOk_congr _ _ rfl rfl (shadowAdds_memOk _ (·.hits) h)

theorem runSys_memOk {s : State} (gi : Nat) (g : Gang) (o : EngOp) (h : s.memOk = true) : (runSys s gi g o).s.memOk = true := by
  unfold runSys
  dsimp only
  split
  · split
    · exact h
    · exact runTlbinv_memOk _ _ _ _ _ h
  · exact runIcinv_memOk _ _ _ _ h
  · split
    · exact h
    · exact runCtxsave_memOk _ _ _ _ _ h
  · split
    · exact h
    · exact runCtxload_memOk _ _ _ h
  · exact runShset_memOk _ h
  · exact runShflush_memOk _ _ h
  · exact h

/-! ## Their events -/

theorem keeps_loadWriteback (gang wave op : Nat) (lanes : Mask) (stale : Bool) : Keeps (execLoadWriteback gang wave op lanes stale) := by
  refine keeps_next fun s h => ?_
  split
  · exact h
  split
  · exact h
  split
  · exact h
  split
  · exact h
  · exact writeback_memOk _ _ _ _ _ _ h

theorem keeps_storePerformed (gang wave op : Nat) : Keeps (execStorePerformed gang wave op) := by
  refine keeps_next fun s h => ?_
  split
  · exact h
  split
  · exact h
  split
  · exact h
  split
  · exact h
  split
  · split
    · exact modWave_memOk _ _ _ _ h
    · exact h
  split
  · exact performStore_memOk _ _ _ _ h
  · exact h

theorem keeps_siloRefill (gang trough : Nat) : Keeps (execSiloRefill gang trough) := by
  refine keeps_next fun s h => ?_
  split
  · exact h
  split
  · split
    · split
      · exact refillAccess_memOk _ _ _ _ h
      · exact h
    · exact h
  · exact h

theorem keeps_churnEntryExecute (gang : Nat) : Keeps (execChurnEntryExecute gang) := by
  refine keeps_next fun s h => ?_
  split
  · exact h
  split
  · exact h
  split
  · exact runEntry_memOk _ _ _ h
  · exact h

theorem keeps_churnEntryEnd (gang : Nat) : Keeps (execChurnEntryEnd gang) := by
  refine keeps_next fun s h => ?_
  split
  · exact h
  split
  · exact h
  split
  · exact finishEntry_memOk _ _ _ _ h
  · exact h

theorem keeps_launchAccept (ctx queue : Nat) : Keeps (execLaunchAccept ctx queue) := by
  refine keeps_next fun s h => ?_
  split
  · exact acceptOne_memOk _ _ _ _ h
  · exact h

theorem keeps_idlewDeadline (gang wave : Nat) (slot : Bool) : Keeps (execIdlewDeadline gang wave slot) := by
  refine keeps_next fun s h => ?_
  split
  · exact h
  split
  · exact h
  split
  · exact wakeIdle_memOk _ _ _ _ (memOk_congr s _ rfl rfl h)
  · exact h

theorem keeps_faultRequestPost (req : Nat) : Keeps (execFaultRequestPost req) := by
  refine keeps_next fun s h => ?_
  split
  · exact h
  split
  · exact h
  · exact wakePosted_memOk _ (postEntry_memOk _ (modDie_memOk _ _ _ (memOk_congr s _ rfl rfl h)))

theorem keeps_faultServiceDispatch (die : Nat) : Keeps (execFaultServiceDispatch die) := by
  refine keeps_next fun s h => ?_
  split
  · exact h
  split
  · exact serve_memOk _ _ h
  · exact h

theorem keeps_chunkDeal (grid die : Nat) : Keeps (execChunkDeal grid die) := by
  refine keeps_next fun s h => ?_
  split
  · split
    · exact memOk_congr s _ rfl rfl h
    · exact h
  · exact h

theorem keeps_gangPlace (grid die byre : Nat) : Keeps (execGangPlace grid die byre) := by
  refine keeps_next fun s h => ?_
  split
  · exact h
  split
  · split
    · exact h
    · exact placeGang_memOk _ _ _ _ _ h
  · exact h

theorem keeps_gangComplete (gang : Nat) : Keeps (execGangComplete gang) := by
  refine keeps_next fun s h => ?_
  split
  · exact h
  split
  · split
    · exact completeGang_memOk _ _ h
    · exact h
  · exact h

theorem keeps_gridComplete (grid : Nat) : Keeps (execGridComplete grid) := by
  refine keeps_next fun s h => ?_
  split
  · split
    · exact endGrid_memOk _ h
    · exact h
  · exact h

theorem keeps_taskFinish (die task : Nat) : Keeps (execTaskFinish die task) := by
  refine keeps_next fun s h => ?_
  split
  · exact h
  split
  · exact h
  split
  · exact startTask_memOk _ _ h
  split
  · exact runCommand_memOk _ _ _ h
  · exact finishTask_memOk _ _ h

theorem keeps_engineOpEnd (gang op : Nat) : Keeps (execEngineOpEnd gang op) := by
  refine keeps_next fun s h => ?_
  split
  · split
    · exact advanceOp_memOk _ _ _ h
    · exact h
  · exact h

theorem keeps_opCancelStop (gang op units : Nat) : Keeps (execOpCancelStop gang op units) := by
  refine keeps_next fun s h => ?_
  split
  · split
    · exact keepOp_memOk _ _ _ (endOp_memOk _ _ (stopOp_memOk _ _ _ h))
    · exact h
  · exact h

theorem keeps_preemptSave (gang units : Nat) : Keeps (execPreemptSave gang units) := by
  refine keeps_next fun s h => ?_
  split
  · exact h
  split
  · split
    · exact saveGang_memOk _ _ _ _ h
    · exact h
  · exact h

theorem keeps_gangRestore (gang byre : Nat) : Keeps (execGangRestore gang byre) := by
  refine keeps_next fun s h => ?_
  split
  · exact h
  split
  · exact h
  split
  · exact h
  split
  · split
    · split
      · exact restoreGang_memOk _ _ _ _ _ _ h
      · exact faultGrid_memOk _ _ _ h
    · exact faultGrid_memOk _ _ _ h
  · exact h

theorem keeps_schedulerPreempt (die gang : Nat) : Keeps (execSchedulerPreempt die gang) := by
  refine keeps_next fun s h => ?_
  split
  · exact h
  · dsimp only
    split
    · exact modGang_memOk _ _ _ (fun _ hg => hg) h
    · exact h

theorem keeps_stageReassign (gang wave stage : Nat) : Keeps (execStageReassign gang wave stage) := by
  refine keeps_next fun s h => ?_
  split
  · exact h
  split
  · exact h
  split
  · split
    · exact setWave_memOk _ _ _ _ h
    · exact h
  · exact h

theorem keeps_systemOperationEnd (gang op : Nat) : Keeps (execSystemOperationEnd gang op) := by
  refine keeps_next fun s h => ?_
  split
  · exact h
  split
  · exact h
  split
  · exact h
  split
  · exact h
  dsimp only
  split
  · exact reportFut_memOk _ _ _ _ _ _ _ (keepOp_memOk _ _ _ (runSys_memOk _ _ _ h))
  · exact runSys_memOk _ _ _ h

end Sys2Proof
end

section
/-! SUPPORT. The pod's, the host's and the clocks' events keep every memory canonical; so does every step. -/

namespace Sys2Proof

open Sys2Proof.Machine Sys2Proof.Claims

/-! ## Pod-wide grids (R335-R347) -/

theorem send_memOk {s : State} (ms : List Msg) (h : s.memOk = true) : (send s ms).memOk = true := memOk_congr s _ rfl rfl h

theorem dropMsg_memOk {s : State} (i : Nat) (h : s.memOk = true) : (dropMsg s i).memOk = true := memOk_congr s _ rfl rfl h

theorem answered_memOk {s : State} (num : Nat) (h : s.memOk = true) : (answered s num).memOk = true := memOk_congr s _ rfl rfl h

theorem dealtOut_memOk {s : State} (id : Nat) (h : s.memOk = true) : (dealtOut s id).memOk = true := by
  unfold dealtOut
  split
  · split
    · exact send_memOk _ h
    · exact h
  · exact h

theorem broadcast_memOk {s : State} (r : Grid) (h : s.memOk = true) : (broadcast s r).memOk = true :=
  dealtOut_memOk _ (send_memOk _ (modGrid_memOk _ _ _ h))

theorem answer_memOk {s : State} (r : Grid) (pkg : Nat) (h : s.memOk = true) : (answer s r pkg).memOk = true := by
  unfold answer
  split
  · exact send_memOk _ h
  · exact dealtOut_memOk _ (send_memOk _ (modGrid_memOk _ _ _ h))

theorem askChunk_memOk {s : State} (r : Grid) (h : s.memOk = true) : (askChunk s r).memOk = true := by
  unfold askChunk
  split
  · exact h
  split
  · split
    · exact h
    · exact answer_memOk _ _ h
  split
  · exact h
  · exact send_memOk _ h

theorem declineGrid_memOk {s : State} (num ctx queue prio : Nat) (bytes : List Byte) (step : W) (lo hi : Nat) (h : s.memOk = true) :
    (declineGrid s num ctx queue prio bytes step lo hi).memOk = true := memOk_congr s _ rfl rfl h

theorem recvGrid_memOk {s : State} (i num ctx queue prio : Nat) (bytes : List Byte) (step : W) (lo hi : Nat) (denied : Bool)
    (h : s.memOk = true) : (recvGrid s i num ctx queue prio bytes step lo hi denied).memOk = true := by
  unfold recvGrid
  split
  · exact modGrid_memOk _ _ _ (dropMsg_memOk _ h)
  split
  · exact declineGrid_memOk _ _ _ _ _ _ _ _ (dropMsg_memOk _ h)
  split
  · split
    · exact h
    · exact addReq_memOk _ _ _ _ _ _ _ _ h
  · exact h
  · exact memOk_congr s _ rfl rfl h

theorem takeGrid_memOk {s : State} (i : Nat) (h : s.memOk = true) : (takeGrid s i).memOk = true := by
  unfold takeGrid
  split
  · split
    · exact h
    split
    · exact dropMsg_memOk _ h
    · exact recvGrid_memOk _ _ _ _ _ _ _ _ _ _ h
  · exact h

theorem takeChunkMsg_memOk {s : State} (i : Nat) (h : s.memOk = true) : (takeChunkMsg s i).memOk = true := by
  unfold takeChunkMsg
  split
  · split
    · exact h
    split
    · exact dropMsg_memOk _ h
    split
    · exact modGrid_memOk _ _ _ (dropMsg_memOk _ h)
    · exact dropMsg_memOk _ h
  · exact h

theorem takeEnd_memOk {s : State} (i : Nat) (h : s.memOk = true) : (takeEnd s i).memOk = true := by
  unfold takeEnd
  split
  · split
    · exact h
    split
    · exact dropMsg_memOk _ h
    · dsimp only
      split
      · split
        · exact stopGrid_memOk _ _ _ (answered_memOk _ (modGrid_memOk _ _ _ (dropMsg_memOk _ h)))
        · exact answered_memOk _ (modGrid_memOk _ _ _ (dropMsg_memOk _ h))
      · exact modGrid_memOk _ _ _ (dropMsg_memOk _ h)
  · exact h

theorem ownReport_memOk {s : State} (r : Grid) (h : s.memOk = true) : (ownReport s r).memOk = true := by
  unfold ownReport
  dsimp only
  split <;> exact memOk_congr s _ rfl rfl h

theorem otherReport_memOk {s : State} (r : Grid) (pkg doneg cancg errg faults : Nat) (h : s.memOk = true) :
    (otherReport s r pkg doneg cancg errg faults).memOk = true := by
  unfold otherReport
  split
  · exact send_memOk _ (modGrid_memOk _ _ _ h)
  · exact h

theorem mergeGroup_memOk {s : State} (r : Grid) (group : Nat) (reps : List Rep) (h : s.memOk = true) :
    (mergeGroup s r group reps).memOk = true := by
  unfold mergeGroup
  dsimp only
  split <;> exact memOk_congr s _ rfl rfl h

theorem rootFault_memOk {s : State} (id pkg : Nat) (rep : FaultRep) (h : s.memOk = true) : (rootFault s id pkg rep).memOk = true :=
  modGrid_memOk _ _ _ (stopGrid_memOk _ _ _ h)

theorem takeFault_memOk {s : State} (i : Nat) (h : s.memOk = true) : (takeFault s i).memOk = true := by
  unfold takeFault
  split
  · split
    · split
      · exact rootFault_memOk _ _ _ (dropMsg_memOk _ h)
      split
      · exact modGrid_memOk _ _ _ (dropMsg_memOk _ h)
      · exact dropMsg_memOk _ h
    · exact dropMsg_memOk _ h
  · exact h

theorem tellCancel_memOk {s : State} (gang wave : Nat) (f : FR) (ser : W) (n : Nat) (h : s.memOk = true) :
    (tellCancel s gang wave f ser n).memOk = true := by
  unfold tellCancel
  split
  · exact finishFut_memOk _ _ _ _ _ _ _ h
  · exact h

theorem takeCancel_memOk {s : State} (i : Nat) (h : s.memOk = true) : (takeCancel s i).memOk = true := by
  unfold takeCancel
  split
  · dsimp only
    split
    · split
      · exact tellCancel_memOk _ _ _ _ _ (dropMsg_memOk _ h)
      · exact stopGrid_memOk _ _ _ (tellCancel_memOk _ _ _ _ _ (dropMsg_memOk _ h))
    · exact tellCancel_memOk _ _ _ _ _ (dropMsg_memOk _ h)
  · exact h

theorem otherCancel_memOk {s : State} (pkg ctx : Nat) (comp : D) (h : s.memOk = true) : (otherCancel s pkg ctx comp).memOk = true := by
  unfold otherCancel
  split
  · split
    · exact h
    · refine send_memOk _ ?_
      split
      · exact h
      · exact stopGrid_memOk _ _ _ h
  · exact h

theorem cancelAnswer_memOk {s : State} (i : Nat) (still : Bool) (h : s.memOk = true) : (cancelAnswer s i still).memOk = true := by
  unfold cancelAnswer
  split
  · exact tellCancel_memOk _ _ _ _ _ (dropMsg_memOk _ h)
  · exact h

theorem loseSplit_memOk {s : State} (gi wi : Nat) (x : Bool × Nat) (h : s.memOk = true) : (loseSplit s gi wi x).memOk = true := by
  unfold loseSplit
  split
  · exact h
  split
  · exact h
  split
  · exact trapDrained_memOk _ _ _ _ h
  · exact setWave_memOk _ _ _ _ h

theorem loseWave_memOk (ps : List Nat) {s : State} (at' : Nat × Nat) (h : s.memOk = true) : (loseWave ps s at').memOk = true := by
  unfold loseWave
  split
  · exact h
  · exact foldl_keeps (fun t : State => t.memOk = true) _ (fun _ _ ht => loseSplit_memOk _ _ _ ht) _ _ (setWave_memOk _ _ _ _ h)

theorem losePkgs_memOk {s : State} (ps : List Nat) (h : s.memOk = true) : (losePkgs s ps).memOk = true := by
  unfold losePkgs
  dsimp only
  split
  · exact h
  · exact foldl_keeps (fun t : State => t.memOk = true) _ (fun _ _ ht => loseWave_memOk _ _ ht) _ _ (memOk_congr s _ rfl rfl h)

theorem keeps_rootBroadcast (grid : Nat) : Keeps (execRootBroadcast grid) := by
  refine keeps_next fun s h => ?_
  split
  · split
    · exact broadcast_memOk _ h
    · exact h
  · exact h

theorem keeps_podChunkRequest (grid pkg : Nat) : Keeps (execPodChunkRequest grid pkg) := by
  refine keeps_next fun s h => ?_
  split
  · split
    · exact h
    split
    · exact askChunk_memOk _ h
    split
    · exact answer_memOk _ _ h
    · exact h
  · exact h

theorem keeps_gridMessage (m : GridMsg) : Keeps (execGridMessage m) := by
  refine keeps_next fun s h => ?_
  split
  · exact takeGrid_memOk _ h
  · split
    · exact takeGrid_memOk _ (send_memOk _ h)
    · exact h

theorem keeps_podChunk (m : ChunkMsg) : Keeps (execPodChunk m) := by
  refine keeps_next fun s h => ?_
  split
  · exact takeChunkMsg_memOk _ h
  · split
    · exact takeChunkMsg_memOk _ (send_memOk _ (answered_memOk _ h))
    · exact h

theorem keeps_endOfDeal (m : DealMsg) : Keeps (execEndOfDeal m) := by
  refine keeps_next fun s h => ?_
  split
  · exact takeEnd_memOk _ h
  · split
    · exact takeEnd_memOk _ (send_memOk _ h)
    · exact h

theorem keeps_packageReport (grid pkg doneg cancg errg faults : Nat) : Keeps (execPackageReport grid pkg doneg cancg errg faults) := by
  refine keeps_next fun s h => ?_
  split
  · split
    · split
      · exact ownReport_memOk _ h
      · exact h
    · exact otherReport_memOk _ _ _ _ _ _ h
  · exact h

theorem keeps_groupReport (grid group : Nat) : Keeps (execGroupReport grid group) := by
  refine keeps_next fun s h => ?_
  split
  · exact h
  · split
    · exact mergeGroup_memOk _ _ _ h
    · exact h

theorem keeps_podFaultReport (m : FaultMsg) : Keeps (execPodFaultReport m) := by
  refine keeps_next fun s h => ?_
  split
  · exact takeFault_memOk _ h
  · split
    · dsimp only
      split
      · exact takeFault_memOk _ (send_memOk _ h)
      · exact h
    · exact h

theorem keeps_podCancelRequest (m : CancelMsg) : Keeps (execPodCancelRequest m) := by
  refine keeps_next fun s h => ?_
  split
  · exact takeCancel_memOk _ h
  · split
    · exact h
    · exact otherCancel_memOk _ _ _ h
  · exact cancelAnswer_memOk _ _ h

theorem keeps_bexyarFlitRetry (retry : FlitRetry) : Keeps (execBexyarFlitRetry retry) := by
  refine keeps_next fun s h => ?_
  dsimp only
  split
  · exact memOk_congr s _ rfl rfl h
  · exact h

theorem keeps_bexyarPortDown (port : Nat) (unreachable : List Nat) : Keeps (execBexyarPortDown port unreachable) := by
  refine keeps_next fun s h => ?_
  split
  · exact losePkgs_memOk _ (memOk_congr s _ rfl rfl h)
  · exact h

theorem keeps_podReportTimeout (grid pkg : Nat) : Keeps (execPodReportTimeout grid pkg) := by
  refine keeps_next fun s h => ?_
  split
  · split
    · exact modGrid_memOk _ _ _ (rootFault_memOk _ _ _ h)
    · exact h
  · exact h

/-! ## The host (R349-R354) -/

theorem modHub_memOk {s : State} (f : Hub → Hub) (h : s.memOk = true) : (s.modHub f).memOk = true := memOk_congr s _ rfl rfl h

theorem placeService_memOk {s : State} (die : Nat) (h : s.memOk = true) : (placeService s die).memOk = true := by
  have hadded := addGang_memOk s (serviceGang s.ids die) rfl h
  unfold placeService
  generalize queueBytes = q
  generalize serviceBytes die = b
  generalize serviceGang s.ids die = g at hadded ⊢
  exact memOk_mem { s with gangs := s.gangs ++ [g] } _ (Memory.write_wf _ _ _ (Memory.write_wf _ _ _ (memOk_wf s h))) rfl hadded

theorem clearMemory_memOk {s : State} (h : s.memOk = true) : (clearMemory s).memOk = true :=
  memOk_mem s _ (Memory.filter_wf _ _ (memOk_wf s h)) rfl h

theorem stageEnd_memOk (m : List Nat) {s : State} (h : s.memOk = true) : (stageEnd m s).memOk = true := by
  unfold stageEnd
  dsimp only
  split
  · exact modHub_memOk _ (modHub_memOk _ (clearMemory_memOk h))
  · exact modHub_memOk _ (foldl_keeps (fun t : State => t.memOk = true) _ (fun _ _ ht => placeService_memOk _ ht) _ _ h)
  · exact memOk_congr s _ rfl rfl h
  · exact modHub_memOk _ h

theorem keeps_bringUp (what : BringUp) (m : List Nat) : Keeps (execBringUp what m) := by
  refine keeps_next fun s h => ?_
  split
  · rfl
  · split
    · exact modHub_memOk _ h
    · exact h
  · split
    · exact stageEnd_memOk _ h
    · exact h
  · split
    · exact modHub_memOk _ h
    · exact h

theorem keeps_launchPortReject (cmd : D) : Keeps (execLaunchPortReject cmd) := by
  refine keeps_next fun s h => ?_
  split
  · exact modHub_memOk _ h
  split
  · exact h
  · exact modHub_memOk _ h

theorem lpWrite_memOk {s : State} (code : Nat) (cmd : D) {run : State → State × Nat} (hrun : (run s).1.memOk = true) (h : s.memOk = true) :
    (lpWrite code cmd s run).memOk = true := by
  unfold lpWrite
  split
  · exact h
  split
  · exact modHub_memOk _ h
  · exact modHub_memOk _ hrun

theorem createCtx_memOk {s : State} (h : s.memOk = true) : (createCtx s).1.memOk = true := by
  have hread : (hubBytes s s.hub.lparg.toNat 256).1.memOk = true := tagLines_memOk _ _ _ _ _ _ h
  unfold createCtx
  dsimp only
  split
  · exact h
  split
  · exact hread
  split
  · exact hread
  · generalize hubBytes s s.hub.lparg.toNat 256 = r at hread ⊢
    exact memOk_congr r.1 _ rfl rfl hread

theorem startSteward_memOk {s : State} (ctx : Nat) (h : s.memOk = true) : (startSteward s ctx).1.memOk = true := by
  unfold startSteward
  split
  · exact h
  split
  · exact h
  dsimp only
  split
  · exact h
  split
  · split
    · exact h
    split
    · exact h
    · exact enterGrid_memOk _ _ _ h
  · exact h

theorem destroyCtx_memOk {s : State} (ctx : Nat) (h : s.memOk = true) : (destroyCtx s ctx).1.memOk = true := by
  unfold destroyCtx
  split
  · exact h
  · refine sweepReqs_memOk _ (foldl_keeps (fun t : State => t.memOk = true) _ (fun t d ht => ?_) _ _ ?_)
    · split
      · exact pagerDone_memOk _ _ ht
      · exact ht
    · generalize hstopped : List.foldl (fun s (r : Grid) => stopGrid s r.id false) _ _ = u
      have hu : u.memOk = true := by
        rw [← hstopped]
        exact foldl_keeps (fun t : State => t.memOk = true) _ (fun _ _ ht => stopGrid_memOk _ _ _ ht) _ _
          (modCtx_memOk _ _ _ (dropPends_memOk _ _ h))
      exact memOk_congr u _ rfl rfl hu

theorem took_memOk {s : State} (h : s.memOk = true) : s.took.memOk = true := memOk_congr s _ rfl rfl h

theorem attest_memOk {s : State} (h : s.memOk = true) : (attest s).1.memOk = true := by
  unfold attest
  extract_lets a
  split
  · exact h
  · exact took_memOk (writeLoc_memOk _ _ _ _ (tagLines_memOk _ _ _ _ _ _ (tagLines_memOk s 0 false false _ 128 h)))

theorem keeps_create (cmd : D) : Keeps (execCreate cmd) := keeps_next fun _ h => lpWrite_memOk _ _ (createCtx_memOk h) h

theorem keeps_startSteward (cmd : D) : Keeps (execStartSteward cmd) := keeps_next fun _ h => lpWrite_memOk _ _ (startSteward_memOk _ h) h

theorem keeps_destroy (cmd : D) : Keeps (execDestroy cmd) := keeps_next fun _ h => lpWrite_memOk _ _ (destroyCtx_memOk _ h) h

theorem keeps_attest (cmd : D) : Keeps (execAttest cmd) := keeps_next fun _ h => lpWrite_memOk _ _ (attest_memOk h) h

theorem keeps_launchPortCommandEnd : Keeps execLaunchPortCommandEnd := by
  refine keeps_next fun s h => ?_
  split
  · refine modHub_memOk _ ?_
    split
    · exact sweepReqs_memOk _ (memOk_congr s _ rfl rfl h)
    · exact h
  · exact h

theorem keeps_hstatWrite (v : W) : Keeps (execHstatWrite v) := keeps_next fun _ h => modHub_memOk _ h

theorem keeps_pcapWrite (v : W) : Keeps (execPcapWrite v) := keeps_next fun _ h => modHub_memOk _ h

theorem keeps_hubRegisterWrite (off : Nat) (v : D) : Keeps (execHubRegisterWrite off v) := by
  refine keeps_next fun s h => ?_
  split
  · exact modHub_memOk _ h
  · exact h

theorem keeps_hostRead (addr len : Nat) : Keeps (execHostRead addr len) := keeps_next fun s h => memOk_congr s _ rfl rfl h

theorem dropLine_memOk {s : State} (line : Nat) (h : s.memOk = true) : (dropLine s line).memOk = true := by
  unfold dropLine
  dsimp only
  split
  · rename_i t _
    generalize storedOf { s with llc := s.llc.filter (· != line) } t = b
    exact dropTag_memOk _ _ (memOk_mem s _ (Memory.write_wf _ _ _ (memOk_wf s h)) rfl h)
  · exact memOk_congr s _ rfl rfl h

theorem keeps_hostWrite (addr : Nat) (bytes : List Byte) : Keeps (execHostWrite addr bytes) := by
  refine keeps_next fun s h => ?_
  have hplain : ((List.range ((addr + (bytes.take (Config.sysBase - addr)).length + 127) / 128 - addr / 128)).foldl
      (fun s i => dropLine s (addr / 128 + i)) s).memOk = true :=
    foldl_keeps (fun t : State => t.memOk = true) _ (fun _ _ ht => dropLine_memOk _ ht) _ _ h
  split
  · exact hplain
  · exact storeAs_memOk _ _ _ _ _ hplain

/-! ## Power, clocks and errors (R278-R284, R299, R355) -/

theorem keeps_supplySag (die : Nat) : Keeps (execSupplySag die) := keeps_next fun _ h => modDie_memOk _ _ _ h

theorem keeps_supplyRecovery (die : Nat) : Keeps (execSupplyRecovery die) := keeps_next fun _ h => modDie_memOk _ _ _ h

theorem keeps_clockRestore (die : Nat) : Keeps (execClockRestore die) := keeps_next fun _ h => modDie_memOk _ _ _ h

theorem keeps_thermalThrottle (die : Nat) : Keeps (execThermalThrottle die) := by
  refine keeps_next fun s h => ?_
  split
  · exact modHub_memOk _ (modDie_memOk _ _ _ h)
  · exact h

theorem keeps_powerCapThrottle : Keeps execPowerCapThrottle := keeps_next fun s h => memOk_congr s _ rfl rfl h

theorem keeps_throttleRecovery (die : Nat) : Keeps (execThrottleRecovery die) :=
  keeps_next fun _ h => modHub_memOk _ (modDie_memOk _ _ _ h)

theorem keeps_thermalShutdown : Keeps execThermalShutdown :=
  keeps_next fun _ h =>
    foldl_keeps (fun t : State => t.memOk = true) _ (fun _ _ ht => faultGrid_memOk _ _ _ ht) _ _ (modHub_memOk _ h)

theorem keeps_thermalShutdownExit : Keeps execThermalShutdownExit := by
  refine keeps_next fun s h => ?_
  split
  · exact modHub_memOk _ h
  · exact h

theorem keeps_monitorRefresh (n : Nat) (value : BitVec 16) : Keeps (execMonitorRefresh n value) := keeps_next fun _ h => modHub_memOk _ h

theorem keeps_scratchpadScrub (gang word : Nat) : Keeps (execScratchpadScrub gang word) := keeps_next fun _ h => h

theorem keeps_patrolScrub (granule : Nat) : Keeps (execPatrolScrub granule) := keeps_next fun _ h => h

theorem keeps_hayloftRefresh (die : Nat) : Keeps (execHayloftRefresh die) := by
  refine keeps_next fun s h => ?_
  split
  · exact memOk_congr s _ rfl rfl h
  · exact h

theorem keeps_tlbHitCounterWrap (byre entry : Nat) : Keeps (execTlbHitCounterWrap byre entry) := by
  refine keeps_next fun s h => ?_
  split
  · split
    · exact h
    · rename_i t _ _
      have hcounted := shadowAdd_memOk s t.leaf 256 h
      generalize shadowAdd s t.leaf 256 = u at hcounted ⊢
      exact memOk_congr u _ rfl rfl hcounted
  · exact h

theorem keeps_memoryBitError (site : ErrSite) (uncorrectable : Bool) : Keeps (execMemoryBitError site uncorrectable) := by
  refine keeps_next fun s h => ?_
  split
  · split
    · dsimp only
      split
      · exact setBad_memOk _ _ _ _ h
      · exact h
    · exact h
  · dsimp only
    split
    · exact setBad_memOk _ _ _ _ h
    · exact h
  · exact memOk_congr s _ rfl rfl h

/-! ## Every step -/

/-- The meaning of an event keeps every memory canonical. -/
theorem keeps_event {i : Instr} (h : isEvent i = true) : Keeps (exec i) := by
  cases i
  all_goals cases h
  case engineOpEnd => exact keeps_engineOpEnd _ _
  case opCancelStop => exact keeps_opCancelStop _ _ _
  case churnEntryExecute => exact keeps_churnEntryExecute _
  case churnEntryEnd => exact keeps_churnEntryEnd _
  case systemOperationEnd => exact keeps_systemOperationEnd _ _
  case loadWriteback => exact keeps_loadWriteback _ _ _ _ _
  case storePerformed => exact keeps_storePerformed _ _ _
  case launchAccept => exact keeps_launchAccept _ _
  case chunkDeal => exact keeps_chunkDeal _ _
  case gangPlace => exact keeps_gangPlace _ _ _
  case gangRestore => exact keeps_gangRestore _ _
  case gangComplete => exact keeps_gangComplete _
  case gridComplete => exact keeps_gridComplete _
  case preemptSave => exact keeps_preemptSave _ _
  case taskFinish => exact keeps_taskFinish _ _
  case siloRefill => exact keeps_siloRefill _ _
  case faultRequestPost => exact keeps_faultRequestPost _
  case faultServiceDispatch => exact keeps_faultServiceDispatch _
  case rootBroadcast => exact keeps_rootBroadcast _
  case gridMessage => exact keeps_gridMessage _
  case podChunkRequest => exact keeps_podChunkRequest _ _
  case podChunk => exact keeps_podChunk _
  case endOfDeal => exact keeps_endOfDeal _
  case packageReport => exact keeps_packageReport _ _ _ _ _ _
  case groupReport => exact keeps_groupReport _ _
  case podFaultReport => exact keeps_podFaultReport _
  case podCancelRequest => exact keeps_podCancelRequest _
  case schedulerPreempt => exact keeps_schedulerPreempt _ _
  case stageReassign => exact keeps_stageReassign _ _ _
  case idlewDeadline => exact keeps_idlewDeadline _ _ _
  case bringUp => exact keeps_bringUp _ _
  case create => exact keeps_create _
  case startSteward => exact keeps_startSteward _
  case destroy => exact keeps_destroy _
  case attest => exact keeps_attest _
  case hstatWrite => exact keeps_hstatWrite _
  case pcapWrite => exact keeps_pcapWrite _
  case hubRegisterWrite => exact keeps_hubRegisterWrite _ _
  case hostRead => exact keeps_hostRead _ _
  case hostWrite => exact keeps_hostWrite _ _
  case supplySag => exact keeps_supplySag _
  case supplyRecovery => exact keeps_supplyRecovery _
  case clockRestore => exact keeps_clockRestore _
  case thermalThrottle => exact keeps_thermalThrottle _
  case powerCapThrottle => exact keeps_powerCapThrottle
  case thermalShutdown => exact keeps_thermalShutdown
  case thermalShutdownExit => exact keeps_thermalShutdownExit
  case monitorRefresh => exact keeps_monitorRefresh _ _
  case scratchpadScrub => exact keeps_scratchpadScrub 0 0
  case patrolScrub => exact keeps_patrolScrub 0
  case hayloftRefresh => exact keeps_hayloftRefresh _
  case tlbHitCounterWrap => exact keeps_tlbHitCounterWrap _ _
  case bexyarFlitRetry => exact keeps_bexyarFlitRetry _
  case bexyarPortDown => exact keeps_bexyarPortDown _ _
  case podReportTimeout => exact keeps_podReportTimeout _ _
  case launchPortCommandEnd => exact keeps_launchPortCommandEnd
  case launchPortReject => exact keeps_launchPortReject _
  case memoryBitError => exact keeps_memoryBitError _ _
  case throttleRecovery => exact keeps_throttleRecovery _

theorem keeps_exec (i : Instr) : Keeps (exec i) := by
  cases h : isEvent i
  · exact keeps_word h
  · exact keeps_event h

theorem issueWord_memOk {s t : State} (who : Cur) (stale : Bool) (h : s.memOk = true) (hn : issueWord s who stale = .next t) :
    t.memOk = true := by
  have hprep := prepare_ok who stale h
  unfold issueWord at hn
  split at hn
  · rename_i hp
    rw [hp] at hprep
    cases hn
    exact hprep
  · rename_i i u hp
    rw [hp] at hprep
    split at hn
    · rename_i v hexec
      cases hn
      exact finishIssue_memOk s who i (keeps_exec i u v hprep hexec)
    · cases hn
    · cases hn

/-- Settles O52: every instruction keeps the invariant, and so do the fetch before a word and the bookkeeping after it. -/
theorem memoryCanonicalStep : Obligations.MemoryCanonicalStep := by
  unfold Obligations.MemoryCanonicalStep
  intro s t h hn
  unfold step at hn
  split at hn
  · rename_i rest _
    have hrest : ({ s with agenda := rest } : State).memOk = true := memOk_congr s _ rfl rfl h
    split at hn
    · exact keeps_exec _ _ _ hrest hn
    · cases hn
      exact hrest
  · rename_i rest _
    exact issueWord_memOk (s := { s with agenda := rest }) _ _ (memOk_congr s _ rfl rfl h) hn
  · split at hn
    · exact keeps_exec _ _ _ h hn
    · split at hn
      · exact issueWord_memOk _ _ h hn
      · split at hn
        · exact keeps_exec _ _ _ h hn
        · cases hn
          exact h

end Sys2Proof
end

section
/-! SUPPORT. Acceptance, dealing and completion of gangs, grids and tasks, and the refill of a silo: `DispatchEventsComplete` (O56). -/

namespace Sys2Proof

open Sys2Proof.Machine Sys2Proof.Claims

/-! ## Acceptance and dealing (R320-R325) -/

/-- A launch whose record can be examined enters its queue, and its future is Done with the queue position. -/
theorem launchAccept_completes {s : State} {ctx q : Nat} {t : Ctx} {l : LQueue} {p : Pend} {stat : Nat} {bytes stab : List Byte}
    (hhead : acceptHead s ctx q = some (t, l, p)) (hkind : p.kind = .launched) (hdenied : p.denied = none)
    (hrec : examine s (blankGang 0 t.id p.die) .launched p.priv false p.recAddr.toNat = .record stat bytes stab) :
    exec (.launchAccept ctx q) s = .next (tellAccepted
      (enterGrid (modPend s t.id q fun ps => ps.drop 1) t.id q (newGrid s t q l p stat bytes stab)) p l.accepted) := by
  have haccept : acceptOne s q t l p = tellAccepted
      (enterGrid (modPend s t.id q fun ps => ps.drop 1) t.id q (newGrid s t q l p stat bytes stab)) p l.accepted := by
    cases p
    dsimp only at hkind hdenied hrec
    subst hkind hdenied
    unfold acceptOne
    simp only [Option.isSome_none]
    rw [hrec]
    rfl
  refine congrArg Host.Outcome.next ?_
  rw [hhead]
  exact haccept

theorem leastBy_mem {α : Type} (f : α → Nat) (xs : List α) (x : α) (h : leastBy f xs = some x) : x ∈ xs := by
  induction xs generalizing x with
  | nil => exact absurd h (by simp [leastBy])
  | cons y ys ih =>
    rw [leastBy] at h
    cases hrest : leastBy f ys with
    | none => simp [hrest] at h; simp [h]
    | some z =>
      rw [hrest] at h
      dsimp only at h
      split at h
      · exact List.mem_cons_of_mem _ (ih x (hrest.trans h))
      · simp [Option.some.inj h]

/-- The grid that a die is dealt from can be dealt from. -/
theorem dealPick_ok {s : State} {die : Nat} {r : Grid} (h : dealPick s die = some r) : r ∈ s.grids ∧ dealOk s die r = true :=
  List.mem_filter.mp (leastBy_mem _ _ _ h)

theorem chunkDeal_completes {s : State} {die : Nat} {r : Grid} (h : dealPick s die = some r) :
    exec (.chunkDeal r.id die) s = .next { s.modGrid r.id fun x => x.deal die with lastServed := r.ctx * 8 + r.queue } := by
  refine congrArg Host.Outcome.next ?_
  rw [h]
  simp

/-- Where a die is dealt a chunk: it holds no undealt gang, the grid is not over, and the shutdown bars nothing (R325, R355). -/
theorem dealOk_spec {s : State} {die : Nat} {r : Grid} (h : dealOk s die r = true) :
    r.over = false ∧ s.hub.thsd = false ∧ ∀ x ∈ s.grids, x.nextOn die = none := by
  simp only [dealOk, Bool.and_eq_true, Bool.not_eq_true', List.any_eq_false, Option.not_isSome_iff_eq_none] at h
  obtain ⟨⟨⟨⟨⟨⟨⟨hover, -⟩, -⟩, -⟩, -⟩, hheld⟩, hcool⟩, -⟩ := h
  exact ⟨hover, hcool, hheld⟩

/-- The chunk of a grid that its package deals alone (R325). -/
theorem deal_of_not_pod (r : Grid) (die : Nat) (h : r.scope ≠ .pod) :
    r.deal die = { r with
      started := true, next := r.next + chunkSize (r.total - r.next)
      chunks := r.chunks ++ [⟨die, r.next, r.next + chunkSize (r.total - r.next)⟩] } := by
  have hscope : (r.scope == .pod) = false := by simpa using h
  simp [Grid.deal, Grid.heldHere, hscope]

/-! ## Completion of a gang (R324) -/

/-- What the end of a gang counts in its grid. -/
def countGang (dead err : Bool) (r : Grid) : Grid :=
  { r with
    doneg := if dead then r.doneg else r.doneg + 1
    cancg := if dead then r.cancg + 1 else r.cancg
    errg := if err && !dead then min (r.errg + 1) (2 ^ 32 - 1) else r.errg }

/-- A gang that has left its Byre. -/
def GangGone (s : State) (gi : Nat) : Prop := ∃ h, s.gang? gi = some h ∧ h.st = .gone ∧ h.waves = [] ∧ h.spad = []

theorem modWave_left {s : State} {gi : Nat} (gj wj : Nat) (f : Wave → Wave) (h : GangGone s gi) : GangGone (s.modWave gj wj f) gi := by
  obtain ⟨g, hg, hst, hwaves, hspad⟩ := h
  by_cases hne : gi = gj
  · subst hne
    refine ⟨{ g with waves := modAt g.waves wj f }, ?_, hst, ?_, hspad⟩
    · rw [State.modWave, State.gang?_modGang, hg]
      rfl
    · rw [hwaves]
      rfl
  · exact ⟨g, (State.gang?_modGang_other s gj gi _ hne).trans hg, hst, hwaves, hspad⟩

theorem finishFut_left {s : State} {gi : Nat} (gj wj : Nat) (f : Option FR) (ser : W) (st : FState) (n : Nat) (h : GangGone s gi) :
    GangGone (s.finishFut gj wj f ser st n) gi := by
  cases f with
  | none => exact h
  | some f => exact modWave_left _ _ _ h

/-- The future of a `SPAWN` is no grid's and no gang's that has left. -/
theorem tellParent_keeps {s : State} (k : GridKind) (ok : Bool) :
    (tellParent s k ok).grids = s.grids ∧ ∀ gi, GangGone s gi → GangGone (tellParent s k ok) gi := by
  unfold tellParent
  split
  · split
    · split
      · exact ⟨rfl, fun _ h => finishFut_left _ _ _ _ _ _ h⟩
      · exact ⟨rfl, fun gi h => finishFut_left (s := s) _ _ _ _ _ _ h⟩
    · exact ⟨rfl, fun _ h => h⟩
  · exact ⟨rfl, fun _ h => h⟩

/-- A finished gang leaves, and its grid counts it. -/
theorem completeGang_spec {s : State} {gi : Nat} {g : Gang} {r : Grid} (hg : s.gang? gi = some g) (hr : s.grid? g.grid = some r) :
    GangGone (completeGang s gi g) gi ∧
      (completeGang s gi g).grid? g.grid = some (countGang (g.st == .killed || g.st == .dropped) g.err r) := by
  have hid : r.id = g.grid := by simpa using List.find?_some hr
  let u := ((s.keepViews g).modGang gi Gang.leave).modGrid g.grid (countGang (g.st == .killed || g.st == .dropped) g.err)
  have hleft : GangGone u gi := ⟨g.leave, (State.gang?_modGang _ gi _).trans (congrArg (Option.map Gang.leave) hg), rfl, rfl, rfl⟩
  have hgrid : u.grid? g.grid = some (countGang (g.st == .killed || g.st == .dropped) g.err r) := by
    refine (find?_map_keeps _ _ (fun x => ?_) s.grids).trans ((congrArg _ hr).trans ?_)
    · dsimp only
      split <;> rfl
    · simp [hid]
  obtain ⟨hgrids, hgone⟩ := tellParent_keeps (s := u) r.kind (!(g.st == .killed || g.st == .dropped) && !g.err)
  have hdone : completeGang s gi g = tellParent u r.kind (!(g.st == .killed || g.st == .dropped) && !g.err) := by
    unfold completeGang
    change (match u.grid? g.grid with | some r => _ | none => u) = _
    rw [hgrid]
    rfl
  rw [hdone]
  refine ⟨hgone gi hleft, ?_⟩
  rw [State.grid?, hgrids]
  exact hgrid

theorem gangComplete_completes {s : State} {gang gi : Nat} {g : Gang} (hat : GangAt s gang gi g) (hfin : g.finished = true) :
    exec (.gangComplete gang) s = .next (completeGang s gi g) := by
  obtain ⟨hidx, hg⟩ := hat
  refine congrArg Host.Outcome.next ?_
  rw [hidx]
  dsimp only
  rw [hg]
  simp only [hfin, if_true]

/-! ## Completion of a grid (R324, R344) -/

/-- No grid has the number. -/
def NoGrid (id : Nat) (s : State) : Prop := ∀ x ∈ s.grids, x.id ≠ id

theorem noGrid_iff (id : Nat) (s : State) : NoGrid id s ↔ s.grid? id = none := by
  simp [NoGrid, State.grid?]

theorem noGrid_congr {id : Nat} {s t : State} (h : t.grids = s.grids) (hs : NoGrid id s) : NoGrid id t := fun x hx => hs x (h ▸ hx)

theorem noGrid_mapIf {id : Nat} {s : State} (p : Grid → Bool) (f : Grid → Grid) (hf : ∀ x, (f x).id = x.id) (h : NoGrid id s) :
    ∀ x ∈ mapIf p f s.grids, x.id ≠ id := fun x hx => by
  obtain ⟨y, hy, rfl⟩ := List.mem_map.mp hx
  split
  · exact fun heq => h y hy ((hf y).symm.trans heq)
  · exact h y hy

theorem noGrid_faultGrid {id : Nat} {s : State} (n : Nat) (rep : FaultRep) (h : NoGrid id s) : NoGrid id (faultGrid s n rep) := by
  obtain ⟨ms, heq⟩ := faultGrid_eq s n rep
  rw [heq]
  refine noGrid_mapIf (s := stopGrid s (s.rootGrid 9 n) true) _ _ (fun x => rfl) fun x hx => ?_
  obtain ⟨y, hy, rfl⟩ := List.mem_map.mp hx
  dsimp only
  split <;> exact h y hy

/-- The denial of a request adds no grid. -/
theorem noGrid_freeWaiter {id : Nat} {s : State} (n page : Nat) (who : Waiter) (h : NoGrid id s) :
    NoGrid id (freeWaiter n page false s who) := by
  cases who <;> simp only [freeWaiter]
  case lanes g w => split <;> exact h
  case bar g w => split <;> exact h
  case silo g t =>
    split
    · simp only [Bool.false_eq_true, if_false]
      unfold siloDenied
      split
      · split
        · unfold siloEnds
          split
          · exact noGrid_faultGrid _ _ h
          · exact h
        · exact h
      · exact h
    · exact h
  case grid r =>
    refine noGrid_mapIf _ _ (fun x => ?_) h
    split <;> rfl
  case op | entry | task | accept => exact h
  case message => exact h

theorem noGrid_pagerDone {id : Nat} {s : State} (die ctx : Nat) (h : NoGrid id s) : NoGrid id (pagerDone s die ctx) := by
  unfold pagerDone
  split
  · exact h
  · refine foldl_keeps (NoGrid id) _ (fun t r ht => ?_) _ _ (noGrid_congr rfl h)
    exact foldl_keeps (NoGrid id) _ (fun u who hu => noGrid_freeWaiter _ _ _ hu) _ _ (noGrid_congr rfl ht)

/-- A completed grid is no more. -/
theorem completeGrid_noGrid (s : State) (r : Grid) : NoGrid r.id (completeGrid s r) := by
  have hdropped (u : State) : NoGrid r.id (dropGrid u r) := fun x hx => by
    simpa using (List.mem_filter.mp hx).2
  unfold completeGrid
  dsimp only
  generalize arriveAt _ _ _ = u
  have htold : NoGrid r.id (tellParent (dropGrid u r) r.kind false) :=
    noGrid_congr (tellParent_keeps r.kind false).1 (hdropped u)
  split
  · exact noGrid_pagerDone _ _ htold
  · exact htold

theorem parks_eq_none {p : CPlace} (h : ∀ va, p ≠ .park va) : p.parks = none := by
  cases p with
  | park va => exact absurd rfl (h va)
  | _ => rfl

theorem gridComplete_completes {s : State} {r : Grid} (hr : s.grid? r.id = some r) (hdone : s.gridDone r = true) (hwaits : r.waits = [])
    (hwrites : ∀ x ∈ gridWrites r, ∀ va, gridPlace s r x.1 x.2.length ≠ .park va) (hbar : ∀ va, gridBar s r ≠ .park va) :
    exec (.gridComplete r.id) s = .next (completeGrid s r) := by
  have hparks : ((gridWrites r).map (fun w => gridPlace s r w.1 w.2.length) ++ [gridBar s r]).filterMap CPlace.parks = [] := by
    rw [List.filterMap_eq_nil_iff]
    intro p hp
    rcases List.mem_append.mp hp with hp | hp
    · obtain ⟨x, hx, rfl⟩ := List.mem_map.mp hp
      exact parks_eq_none (hwrites x hx)
    · rw [List.mem_singleton.mp hp]
      exact parks_eq_none hbar
  refine congrArg Host.Outcome.next ?_
  rw [hr]
  simp only [hdone, hwaits, List.isEmpty_nil, Bool.and_true, if_true]
  unfold endGrid
  dsimp only
  rw [hparks]

/-! ## The tail of a launch record (R324) -/

/-- A field of a record that is a list of numbers: the number before it is skipped. -/
theorem recNat_natLe_append (k n : Nat) (b : List Byte) (off len : Nat) :
    recNat (natLe k n ++ b) (k + off) len = recNat b off len := by
  rw [recNat, recNat, ← List.drop_drop, List.drop_left' (natLe_length k n)]

theorem recNat_natLe_zero (k n : Nat) (b : List Byte) : recNat (natLe k n ++ b) 0 k = n % 2 ^ (8 * k) := by
  rw [recNat, List.drop_zero, List.take_left' (natLe_length k n), leNat_natLe]

theorem recTail_spec (r : Grid) :
    recNat (recTail r) 0 8 = r.doneAll % 2 ^ 64 ∧ recNat (recTail r) 8 8 = r.cancAll % 2 ^ 64 ∧
      recNat (recTail r) 16 4 = min (r.sum r.errg (·.errg)) (2 ^ 32 - 1) ∧ recNat (recTail r) 20 1 = r.stat % 256 := by
  simp only [recTail, List.append_assoc]
  refine ⟨recNat_natLe_zero 8 _ _, ?_, ?_, ?_⟩
  · rw [recNat_natLe_append 8 _ _ 0, recNat_natLe_zero]
  · rw [recNat_natLe_append 8 _ _ 8, recNat_natLe_append 8 _ _ 0, recNat_natLe_zero]
    omega
  · rw [recNat_natLe_append 8 _ _ 12, recNat_natLe_append 8 _ _ 4, recNat_natLe_append 4 _ _ 0, recNat_natLe_zero]
    omega

/-! ## Tasks and the silo (R328, R332) -/

theorem taskFinish_completes {s : State} {die key : Nat} {t : Task} (ht : taskAt s die key = some t) (hdue : t.due s = true) :
    (t.running = false → exec (.taskFinish die key) s = .next (startTask s die key)) ∧
      (t.running = true → t.op = none → exec (.taskFinish die key) s = .next (finishTask s die t)) := by
  refine ⟨fun hrun => congrArg Host.Outcome.next ?_, fun hrun hop => congrArg Host.Outcome.next ?_⟩ <;> rw [ht]
  · simp [hdue, hrun]
  · simp [hdue, hrun, hop]

theorem noteAccess_gangs (s : State) (g : Gang) (w : Want) (va n : Nat) : (noteAccess s g w va n).gangs = s.gangs := by
  have htlb : (noteTlb s g va n).gangs = s.gangs := by
    obtain ⟨m, tags, olds, llc, c, tlb, perf, heq, -⟩ := noteTlb_tlbNoted s g va n
    rw [heq]
  unfold noteAccess noteTag
  split
  · exact (tagLines_frame _ _ _ _ _ _).1.trans htlb
  · exact htlb

theorem siloRefill_completes {s : State} {gang gi : Nat} {g : Gang} {n : Nat} {x : Trough} {k : Nat} (hat : GangAt s gang gi g)
    (href : refills s g n = true) (hx : g.trough? n = some x)
    (hk : translate s g ⟨false, false, g.priv⟩ (siloVa g n x 0) 64 = .ok k) :
    let u := noteAccess s g ⟨false, false, g.priv⟩ (siloVa g n x 0) 64
    exec (.siloRefill gang n) s = .next (putHeader (modTrough u gi n fun y =>
      { y with silo := y.silo - 1, shead := (y.shead + 1) % siloQuota g, ring := y.ring ++ [readSlot u gi (.mem k)] }) gi n 0 0) := by
  obtain ⟨hidx, hg⟩ := hat
  intro u
  have hu : u.gang? gi = some g := (congrArg (·[gi]?) (noteAccess_gangs s g _ _ _)).trans hg
  have hrefill : refillAccess s gi g n x = refill u gi n k := by
    unfold refillAccess
    dsimp only
    rw [hk]
  refine congrArg Host.Outcome.next ?_
  rw [hidx]
  dsimp only
  rw [hg]
  dsimp only
  rw [hx]
  dsimp only
  rw [if_pos href, hrefill, refill, hu]
  rfl

/-- Settles O56, event by event. -/
theorem dispatchEventsComplete : Obligations.DispatchEventsComplete := by
  unfold Obligations.DispatchEventsComplete
  intro s
  refine ⟨fun _ _ _ _ _ _ _ _ hhead hkind hdenied hrec => launchAccept_completes hhead hkind hdenied hrec, ?_, ?_, ?_,
    recTail_spec, fun _ _ _ ht hdue => taskFinish_completes ht hdue,
    fun _ _ _ _ _ _ hat href hx hk => siloRefill_completes hat href hx hk⟩
  · intro r die hpick
    obtain ⟨hmem, hok⟩ := dealPick_ok hpick
    obtain ⟨hover, hcool, hheld⟩ := dealOk_spec hok
    exact ⟨chunkDeal_completes hpick, hmem, hover, hcool, hheld, deal_of_not_pod r die⟩
  · intro gang gi g r hat hfin hr
    obtain ⟨⟨h, hh, hst, hwaves, hspad⟩, hgrid⟩ := completeGang_spec hat.2 hr
    refine ⟨_, h, _, gangComplete_completes hat hfin, hh, hst, hwaves, hspad, hgrid, fun hdead => ?_, fun hlive => ?_⟩
    · have hkilled : (g.st == .killed || g.st == .dropped) = true := by simpa using hdead
      simp [countGang, hkilled]
    · have hkilled : (g.st == .killed || g.st == .dropped) = false := by simpa using hlive
      simp [countGang, hkilled]
  · intro r hr hdone hwaits hwrites hbar
    exact ⟨gridComplete_completes hr hdone hwaits hwrites hbar, (noGrid_iff _ _).mp (completeGrid_noGrid s r)⟩

end Sys2Proof
end

section
/-! SUPPORT. Pre-emption, restoration, fault requests and their service: `PreemptionAndFaultEvents` (O57). -/

namespace Sys2Proof

open Sys2Proof.Machine Sys2Proof.Claims

variable {s : State} {gang gi : Nat} {g : Gang}

/-! ## Pre-emption (R312-R314, R326) -/

theorem preemptSave_saves {tell : Option (Nat × Nat)} (units : Nat) (hat : GangAt s gang gi g) (hsave : g.canSave = true)
    (hst : g.st = .stopping tell) : exec (.preemptSave gang units) s = .next (saveGang s gi units g tell) := by
  obtain ⟨hidx, hg⟩ := hat
  refine congrArg Host.Outcome.next ?_
  rw [hidx]
  dsimp only
  rw [hg]
  dsimp only
  rw [if_pos hsave, hst]

/-- A gang that no operation keeps running is saved where its image finds room, else it goes on. -/
theorem saveGang_of_no_ops {t : Ctx} {tell : Option (Nat × Nat)} (units : Nat) (hg : s.gang? gi = some g) (hops : g.eops = [])
    (ht : s.ctx? g.ctx = some t) :
    (∀ off, imageRoom t (imageSize g) = some off →
      saveGang s gi units g tell = tellSaved ((putImage s t gi g off).modGang gi fun g => g.asSaved tell.isNone) tell) ∧
    (imageRoom t (imageSize g) = none → saveGang s gi units g tell = noRoom (s.modGang gi fun g => g.resumed) tell) := by
  refine ⟨fun off hroom => ?_, fun hroom => ?_⟩ <;>
    simp only [saveGang, hops, List.map_nil, List.foldl_nil, hg, ht, hroom]

theorem gangRestore_completes {t : Ctx} {byre : Nat} {places : List (Nat × Nat)} {x : SaveImg} (hat : GangAt s gang gi g)
    (hst : g.st = .saved true) (hcool : s.hub.thsd = false) (hfirst : outranked s g.die g.prio true = false)
    (hfits : fits s g.die byre g.foot = some places) (ht : s.ctx? g.ctx = some t)
    (hx : t.images.find? (fun x => x.gang == g.id) = some x) :
    exec (.gangRestore gang byre) s = .next
      (if imageOk s t x then restoreGang s gi byre g t x places else faultGrid s g.grid (imageFault g)) := by
  obtain ⟨hidx, hg⟩ := hat
  refine congrArg Host.Outcome.next ?_
  rw [hidx]
  dsimp only
  rw [hg]
  simp [hst, hcool, hfirst, hfits, ht, hx]

/-- The gang that the scheduler chose begins to stop, where none of the die stops for it already. -/
theorem schedulerPreempt_completes {die : Nat} {x : Waiting} (hat : GangAt s gang gi g)
    (hnone : ∀ h ∈ s.gangs, h.die = die → h.st ≠ .stopping none) (hx : x ∈ waitingOn s die)
    (hvictim : (victim s die x).map (·.id) = some gang) :
    exec (.schedulerPreempt die gang) s = .next (s.modGang gi fun g => { g with st := .stopping none }) := by
  have hbusy : (s.gangs.any fun g => g.die == die && (match g.st with | .stopping none => true | _ => false)) = false := by
    rw [List.any_eq_false]
    intro h hh hstops
    obtain ⟨hdie, hstop⟩ := Bool.and_eq_true_iff.mp hstops
    split at hstop
    · rename_i hst
      exact hnone h hh (by simpa using hdie) hst
    · cases hstop
  have hpicked : ((waitingOn s die).any fun x => ((victim s die x).map (·.id)) == some gang) = true :=
    List.any_eq_true.mpr ⟨x, hx, by simp [hvictim]⟩
  refine congrArg Host.Outcome.next ?_
  rw [hat.1]
  dsimp only
  rw [hpicked, Bool.and_true]
  exact if_pos (by rw [Bool.not_eq_true']; exact hbusy)

theorem stageReassign_completes {wi stage : Nat} {w : Wave} {x : Stage} (hat : GangAt s gang gi g) (hst : g.st = .running)
    (hw : g.wave? wi = some w) (hx : g.stages[stage]? = some x) (hmay : mayReassign g w = true)
    (hdraw : drawStage g w.stage = some stage) :
    exec (.stageReassign gang wi stage) s
      = .next (s.setWave gi wi { w with stage := stage, slot0 := { w.slot0 with pc := x.entry } }) := by
  obtain ⟨hidx, hg⟩ := hat
  refine congrArg Host.Outcome.next ?_
  rw [hidx]
  dsimp only
  rw [hg]
  simp [hw, hx, hst, hmay, hdraw]

/-! ## Fault requests and their service (R303-R305) -/

theorem faultRequestPost_completes {req : Nat} {r : FReq} {d : Die} (hr : s.reqs.find? (fun r => r.id == req) = some r)
    (hpost : canPost s r = true) (hd : s.die? r.die = some d) :
    let t : State := { s with
      reqs := mapIf (fun x => x.id == req) (fun x => { x with posted := true, seq := d.fseq }) s.reqs
      dies := modAt s.dies r.die fun d => { d with fseq := (d.fseq + 1) % 2 ^ 32 } }
    exec (.faultRequestPost req) s = .next (wakePosted
      (arrive (t.writeLoc 0 (.mem (Config.queueKey r.die + 32 * (d.fseq % 256))) (reqEntry { r with seq := d.fseq })) 0
        (.mem (Config.queueObj r.die)) 1) r.die) := by
  refine congrArg Host.Outcome.next ?_
  rw [hr]
  dsimp only
  rw [hpost, hd]
  rfl

theorem faultServiceDispatch_completes {die : Nat} {r : FReq} (hcool : s.hub.thsd = false) (hservice : s.hasService die = true)
    (hnext : nextReq s die = some r) : exec (.faultServiceDispatch die) s = .next (serve s die r) := by
  refine congrArg Host.Outcome.next ?_
  rw [hcool, hservice, hnext]
  rfl

/-- A request without a paging handler, and one of a handler's own gang, is denied. -/
theorem serve_denied {die : Nat} {r : FReq} (h : (∀ t, s.ctx? r.ctx = some t → t.pghnd = 0) ∨ fromPager s r = true) :
    serve s die r = resolveReq false s r := by
  unfold serve
  split
  · rfl
  · rename_i t ht
    have hdenied : (t.pghnd == 0 || fromPager s r) = true := by
      rcases h with hnone | hpager
      · simp [hnone t ht]
      · simp [hpager]
    rw [if_pos hdenied]

theorem idlewDeadline_completes {wi : Nat} {w : Wave} {k : Bool} {d : SR} {deadline : D} {p : Bool} (hat : GangAt s gang gi g)
    (hw : g.wave? wi = some w) (hidle : (w.slot k).st = .blocked (.idle d deadline p)) :
    exec (.idlewDeadline gang wi k) s = .next (({ s with timeNs := max s.timeNs deadline.toNat }).setWave gi wi
      (w.modSlot k fun x => { x with st := .blocked (.woken 0) })) := by
  obtain ⟨hidx, hg⟩ := hat
  have hwave : s.wave? gi wi = some w := by rw [State.wave?, hg]; exact hw
  have hidles : (w.slot k).idles = some (d, deadline, p) := by rw [Slot.idles, hidle]
  refine congrArg Host.Outcome.next ?_
  rw [hidx]
  dsimp only
  rw [hwave]
  dsimp only
  rw [hidles]
  exact modWave_eq_setWave _ _ _ _ g w hg hw

theorem tlbHitCounterWrap_completes {byre n : Nat} {t : TlbEnt} (ht : tlbAt s byre n = some t) (hhits : 256 ≤ t.hits) :
    exec (.tlbHitCounterWrap byre n) s = .next { shadowAdd s t.leaf 256 with
      tlb := mapIf (· == t) (fun x => { x with hits := x.hits - 256 }) (shadowAdd s t.leaf 256).tlb } := by
  refine congrArg Host.Outcome.next ?_
  rw [ht]
  exact if_neg (Nat.not_lt.mpr hhits)

end Sys2Proof
end

section
namespace Sys2Proof

open Sys2Proof.Machine Sys2Proof.Claims

/-- Settles O57, event by event. -/
theorem preemptionAndFaultEvents : Obligations.PreemptionAndFaultEvents := by
  unfold Obligations.PreemptionAndFaultEvents
  intro s
  refine ⟨fun gang gi g t units tell hat hsave hst hops ht => ?_,
    fun _ _ _ _ _ _ _ hat hst hcool hfirst hfits ht hx => gangRestore_completes hat hst hcool hfirst hfits ht hx,
    fun _ _ _ _ _ hat hnone hx hvictim => schedulerPreempt_completes hat hnone hx hvictim,
    fun _ _ _ _ _ _ _ hat hst hw hx hmay hdraw => stageReassign_completes hat hst hw hx hmay hdraw,
    fun _ _ _ hr hpost hd => faultRequestPost_completes hr hpost hd,
    fun _ _ hcool hservice hnext => ⟨faultServiceDispatch_completes hcool hservice hnext, serve_denied⟩,
    fun _ _ _ _ _ _ _ _ _ hat hw hidle => idlewDeadline_completes hat hw hidle,
    fun _ _ _ ht hhits => tlbHitCounterWrap_completes ht hhits⟩
  rw [preemptSave_saves units hat hsave hst]
  obtain ⟨hroom, hnone⟩ := saveGang_of_no_ops (tell := tell) units hat.2 hops ht
  exact ⟨fun off hoff => congrArg Host.Outcome.next (hroom off hoff), fun h => congrArg Host.Outcome.next (hnone h)⟩

end Sys2Proof
end

section
/-! SUPPORT. Pod-wide grids at their root and at a package, and the links: `PodEventsComplete` (O58). -/

namespace Sys2Proof

open Sys2Proof.Machine Sys2Proof.Claims

variable {s : State} {r : Grid}

/-! ## Dealing (R337-R340) -/

theorem rootBroadcast_completes (hr : s.grid? r.id = some r) (hpod : r.scope = .pod) (hroot : r.root = true)
    (hnew : r.started = false) (hover : r.over = false) (hcool : s.hub.thsd = false) (hfirst : rootEligible s r = true) :
    exec (.rootBroadcast r.id) s = .next (broadcast s r) := by
  refine congrArg Host.Outcome.next ?_
  rw [hr]
  simp [hpod, hroot, hnew, hover, hcool, hfirst]

/-- A request of another package is answered by the root. -/
theorem podChunkRequest_answered {pkg : Nat} (hr : s.grid? r.id = some r) (hpod : r.scope = .pod) (hpkg : pkg ≠ Config.pkg)
    (hroot : r.root = true) (hstarted : r.started = true) (hrun : ∃ p ∈ r.pkgs, p.pkg = pkg ∧ p.told = false ∧ p.reported = false) :
    exec (.podChunkRequest r.id pkg) s = .next (answer s r pkg) := by
  obtain ⟨p, hp, hname, htold, hreported⟩ := hrun
  have hrun : (r.pkgs.any fun p => p.pkg == pkg && !p.told && !p.reported) = true :=
    List.any_eq_true.mpr ⟨p, hp, by simp [hname, htold, hreported]⟩
  refine congrArg Host.Outcome.next ?_
  rw [hr]
  simp [hpod, hpkg, hroot, hstarted, hrun]

theorem answer_of_dealt (pkg : Nat) (h : r.over = true ∨ r.next = r.total) :
    answer s r pkg = { s with msgs := s.msgs ++ [.endDeal pkg r.num r.abort r.cancel] } :=
  if_pos (by simpa using h)

theorem mem_msgs_dealtOut {u : State} {m : Msg} (id : Nat) (h : m ∈ u.msgs) : m ∈ (dealtOut u id).msgs := by
  unfold dealtOut
  split
  · split
    · exact List.mem_append_left _ h
    · exact h
  · exact h

/-- The chunk with which the root answers (R339). -/
theorem answer_deals (pkg : Nat) (hover : r.over = false) (hleft : r.next < r.total) :
    .chunk pkg r.num r.next (r.next + podChunk (r.total - r.next) r.pkgs.length) ∈ (answer s r pkg).msgs := by
  have hdeals : ¬(r.over || r.next == r.total) = true := by simp [hover, Nat.ne_of_lt hleft]
  unfold answer
  rw [if_neg hdeals]
  exact mem_msgs_dealtOut _ (List.mem_append_right _ (List.mem_singleton.mpr rfl))

/-- This package asks for more of a grid of another root. -/
theorem podChunkRequest_asks (hr : s.grid? r.id = some r) (hpod : r.scope = .pod) (hroot : r.root = false)
    (hstarted : r.started = true) (hover : r.over = false) (hheld : r.heldHere < 320) (hcoming : chunkComing s r.num = false)
    (htold : r.told Config.pkg = false) :
    exec (.podChunkRequest r.id Config.pkg) s = .next { s with msgs := s.msgs ++ [.chunkReq r.num Config.pkg] } := by
  have hasks : askChunk s r = send s [.chunkReq r.num Config.pkg] := by
    simp [askChunk, hover, hstarted, Nat.not_le.mpr hheld, hcoming, hroot, htold]
  refine congrArg Host.Outcome.next ?_
  rw [hr]
  simp [hpod, hasks, send]

/-! ## What a package receives (R336, R337, R345, R346) -/

/-- A grid message of another root whose grid is not here yet is received. -/
theorem takeGrid_new {i num ctx q prio : Nat} {bytes : List Byte} {step : W} {lo hi : Nat} {x : Bool}
    (hmsg : s.msgs[i]? = some (.grid Config.pkg num ctx q prio bytes step lo hi x)) (horder : inOrder s i = true)
    (hroot : rootOf num ≠ Config.pkg) (hnew : s.numGrid num = none) :
    takeGrid s i = recvGrid s i num ctx q prio bytes step lo hi x := by
  simp only [takeGrid, hmsg, horder, hnew]
  simp [hroot]

/-- What a package makes of a grid that it does not know, by its context and the stage table (R336, R345). -/
theorem recvGrid_new {i num ctx q prio : Nat} {bytes : List Byte} {step : W} {lo hi : Nat} {x : Bool} (hnew : s.numGrid num = none) :
    (s.ctx? ctx = none →
      recvGrid s i num ctx q prio bytes step lo hi x = declineGrid (dropMsg s i) num ctx q prio bytes step lo hi) ∧
    (∀ t stab, s.ctx? ctx = some t → stageTab s ctx bytes x = .got stab →
      recvGrid s i num ctx q prio bytes step lo hi x = { dropMsg s i with
        grids := s.grids ++ [takeChunk (foreignGrid (dropMsg s i) t num q prio bytes stab step) lo hi], ids := s.ids + 1 }) ∧
    (∀ t va, s.ctx? ctx = some t → stageTab s ctx bytes x = .park va → s.msgWaits num = false →
      recvGrid s i num ctx q prio bytes step lo hi x = (addReq s 0 ctx va 4 1 0 (.message num)).1) := by
  refine ⟨fun hnone => ?_, fun t stab ht hstab => ?_, fun t va ht hpark hfree => ?_⟩
  · rw [recvGrid, hnew]
    dsimp only
    rw [hnone]
  · rw [recvGrid, hnew]
    dsimp only
    rw [ht]
    dsimp only
    rw [hstab]
    rfl
  · rw [recvGrid, hnew]
    dsimp only
    rw [ht]
    dsimp only
    rw [hpark]
    exact if_neg (by simp [hfree])

/-- A chunk that reaches a package of another root counts in what it has been given. -/
theorem takeChunk_total (hroot : r.root = false) (lo hi : Nat) : (takeChunk r lo hi).total = r.total + (hi - lo) := by
  unfold takeChunk
  split
  · omega
  · simp [hroot]

theorem takeChunk_chunks (lo hi : Nat) (h : r.over = true ∨ hi ≤ lo) : (takeChunk r lo hi).chunks = r.chunks := by
  unfold takeChunk
  split
  · rfl
  · simp [h.resolve_right (by assumption)]

/-- What a chunk leaves of a grid's record. -/
theorem takeChunk_frame (r : Grid) (lo hi : Nat) : ∃ cs n m, takeChunk r lo hi = { r with chunks := cs, total := n, next := m } := by
  unfold takeChunk
  split
  · exact ⟨_, _, _, rfl⟩
  · exact ⟨_, _, _, rfl⟩

/-- A grid that this package declines: its record, and the fault that tells the root. -/
theorem declineGrid_spec (u : State) (num ctx q prio : Nat) (bytes : List Byte) (step : W) (lo hi : Nat) :
    ∃ r, (declineGrid u num ctx q prio bytes step lo hi).grids = u.grids ++ [r] ∧
      (declineGrid u num ctx q prio bytes step lo hi).msgs = u.msgs ++ [.fault num Config.pkg (podFault Config.pkg 4)] ∧
      r.num = num ∧ r.root = false ∧ r.abort = true ∧ r.first = some (podFault Config.pkg 4) ∧ r.heldHere = 0 ∧
      r.total = hi - lo := by
  unfold declineGrid
  extract_lets t r₀ f r
  obtain ⟨cs, n, m, hframe⟩ := takeChunk_frame { r₀ with abort := true, stat := 2, faults := 1, first := some f, fmap := [Config.pkg] } lo hi
  have hchunks : r.chunks = [] := takeChunk_chunks lo hi (.inl (by simp [Grid.over]))
  have htotal : r.total = 0 + (hi - lo) := takeChunk_total rfl lo hi
  have hr : r = _ := hframe
  have hscope : r.scope = .pod := by rw [hr]; rfl
  refine ⟨r, rfl, rfl, ?_, ?_, ?_, ?_, ?_, htotal.trans (Nat.zero_add _)⟩
  · rw [hr]; rfl
  · rw [hr]; rfl
  · rw [hr]
  · rw [hr]
  · simp [Grid.heldHere, hscope, hchunks]

/-- A grid of another root as this package begins to dispatch it. -/
theorem foreignGrid_chunk (u : State) (t : Ctx) (num q prio : Nat) (bytes stab : List Byte) (step : W) (lo hi : Nat) :
    let r := takeChunk (foreignGrid u t num q prio bytes stab step) lo hi
    r.num = num ∧ r.root = false ∧ r.started = true ∧ r.step = step ∧ r.bytes = bytes ∧ r.prio = prio ∧ r.stab = stab ∧
      (lo < hi → r.heldHere = hi - lo ∧ r.total = hi - lo) := by
  intro r
  obtain ⟨cs, n, m, hframe⟩ := takeChunk_frame (foreignGrid u t num q prio bytes stab step) lo hi
  have hr : r = _ := hframe
  refine ⟨?_, ?_, ?_, ?_, ?_, ?_, ?_, fun hlt => ?_⟩
  case refine_8 =>
    have hsome : r = { foreignGrid u t num q prio bytes stab step with
        chunks := [⟨4, lo, hi⟩], total := 0 + (hi - lo), next := 0 + (hi - lo) } :=
      if_neg (Nat.not_le.mpr hlt)
    have hscope : (foreignGrid u t num q prio bytes stab step).scope = .pod := rfl
    refine ⟨?_, ?_⟩
    · simp [Grid.heldHere, hsome, hscope]
    · rw [hsome]; exact Nat.zero_add _
  all_goals rw [hr]; rfl

theorem podChunk_taken {i num lo hi : Nat} (hmsg : s.msgs[i]? = some (.chunk Config.pkg num lo hi)) (horder : inOrder s i = true)
    (hr : s.numGrid num = some r) :
    exec (.podChunk (.here i)) s = .next ((dropMsg s i).modGrid r.id fun r => takeChunk r lo hi) := by
  refine congrArg Host.Outcome.next ?_
  simp [takeChunkMsg, hmsg, horder, hr]

theorem endOfDeal_taken {i d num : Nat} {abort cancel : Bool} (hmsg : s.msgs[i]? = some (.endDeal d num abort cancel))
    (horder : inOrder s i = true) (hr : s.numGrid num = some r) :
    let t := (dropMsg s i).modGrid r.id fun r => modPkg r d fun x => { x with told := true }
    let u := { t with msgs := t.msgs.filter fun m => !m.asks num }
    exec (.endOfDeal (.here i)) s = .next
      (if d = Config.pkg ∧ r.root = false then (if abort = true ∨ cancel = true then stopGrid u r.id abort else u) else t) := by
  intro t u
  refine congrArg Host.Outcome.next ?_
  simp only [takeEnd, hmsg, horder, hr, Bool.not_true, Bool.false_eq_true, if_false, Bool.and_eq_true, beq_iff_eq,
    Bool.not_eq_true', Bool.or_eq_true]
  rfl

/-! ## What another package sends arrives as a message -/

theorem gridMessage_other {num ctx q prio : Nat} {bytes : List Byte} (step : W) (lo : Nat) {hi : Nat} (hroot : otherRoot s num = true)
    (hnew : s.numGrid num = none) (hnone : s.msgs.any (Msg.isGrid num) = false) (hq : q < 8) (hprio : prio < 8)
    (hlen : bytes.length = 96) (hhi : hi ≤ gridSize .launched bytes) :
    exec (.gridMessage (.other num ctx q prio bytes step lo hi)) s
      = exec (.gridMessage (.here s.msgs.length)) (send s [.grid Config.pkg num ctx q prio bytes step lo hi false]) :=
  congrArg Host.Outcome.next (if_pos (by simp only [hroot, hnew, hnone, hq, hprio, hlen, hhi]; rfl))

theorem podChunk_other {num lo hi : Nat} (hroot : otherRoot s num = true) (hr : s.numGrid num = some r)
    (hasked : s.msgs.any (Msg.asks num) = true) (hhi : hi ≤ gridSize .launched r.bytes) :
    let t := answered s num
    exec (.podChunk (.other num lo hi)) s
      = exec (.podChunk (.here t.msgs.length)) (send t [.chunk Config.pkg num lo hi]) :=
  congrArg Host.Outcome.next (if_pos (by simp [hroot, hr, hasked, hhi]))

theorem endOfDeal_other {num : Nat} (abort cancel : Bool) (hroot : otherRoot s num = true) (hknown : knownGrid s num = true) :
    exec (.endOfDeal (.other num abort cancel)) s
      = exec (.endOfDeal (.here s.msgs.length)) (send s [.endDeal Config.pkg num abort cancel]) :=
  congrArg Host.Outcome.next (if_pos (by simp [hroot, hknown]))

theorem podFaultReport_other {num pkg : Nat} {tc widx : W} {tpc tval : D} {gx gy gz src : Nat} (hr : s.numGrid num = some r)
    (hok : faultOk s r pkg src = true) :
    exec (.podFaultReport (.other num pkg tc widx tpc tval gx gy gz src)) s
      = exec (.podFaultReport (.here s.msgs.length)) (send s [.fault num pkg
          (if src = 4 then podFault pkg 4 else ⟨tc, widx, tpc, tval, gx, gy, gz, src⟩)]) := by
  refine congrArg Host.Outcome.next ?_
  dsimp only
  rw [hr]
  dsimp only
  rw [if_pos hok]
  simp only [beq_iff_eq]

/-! ## Reports (R343) -/

theorem packageReport_own (a b n d : Nat) (hr : s.grid? r.id = some r) (hmay : mayReport s r = true) :
    exec (.packageReport r.id Config.pkg a b n d) s = .next (ownReport s r) := by
  refine congrArg Host.Outcome.next ?_
  rw [hr]
  simp [hmay]

theorem ownReport_sent : .report r.num Config.pkg r.doneg (givenHere r - r.doneg) r.errg r.faults (ownFirst r) ∈ (ownReport s r).msgs := by
  unfold ownReport
  dsimp only
  split <;> exact List.mem_append_right _ (List.mem_singleton.mpr rfl)

theorem packageReport_other {pkg a b n d : Nat} (hr : s.grid? r.id = some r) (hpkg : pkg ≠ Config.pkg)
    (hok : reportOk s r pkg a b n d = true) :
    exec (.packageReport r.id pkg a b n d) s = .next (send (s.modGrid r.id fun r => modPkg r pkg fun x => { x with reported := true })
      [.report r.num pkg a b n d none]) := by
  refine congrArg Host.Outcome.next ?_
  rw [hr]
  simp [hpkg, otherReport, hok]

theorem groupReport_merges {group : Nat} (hr : s.grid? r.id = some r) (hready : groupReady s r group = true) :
    exec (.groupReport r.id group) s = .next (mergeGroup s r group (s.msgs.filterMap (repOf r.num group))) := by
  refine congrArg Host.Outcome.next ?_
  rw [hr]
  exact if_pos hready

/-! ## Faults and cancellation (R345, R346) -/

/-- What the end of a grid leaves of the packages in its record. -/
theorem stopGrid_pkgs (u : State) (root : Nat) (x y : Grid) (hx : u.grid? root = some x)
    (hy : (stopGrid u root true).grid? root = some y) : y.pkgs = x.pkgs ∧ y.fmap = x.fmap := by
  let turned (z : Grid) : Grid :=
    if !(u.descends root 9 z.id && !z.early && !z.abort && (true || !z.cancel)) then z
    else { z with
      abort := true, cancel := z.cancel || !true
      stat := if z.cancel then z.stat else if true then 2 else 3 }
  have hturned : (stopGrid u root true).grid? root = some (turned x) := by
    refine (find?_map_keeps _ turned (fun z => ?_) u.grids).trans (congrArg (Option.map turned) hx)
    simp only [turned]
    split <;> rfl
  obtain rfl : turned x = y := Option.some.inj (hturned.symm.trans hy)
  simp only [turned]
  split <;> exact ⟨rfl, rfl⟩

theorem mem_insertNat (n : Nat) (xs : List Nat) : n ∈ insertNat n xs := by
  induction xs with
  | nil => simp [insertNat]
  | cons x xs ih =>
    unfold insertNat
    split
    · simp
    · split
      · rename_i heq
        simp [(beq_iff_eq.mp heq)]
      · exact List.mem_cons_of_mem _ ih

/-- A fault of a package in the record of the grid at its root. -/
def countFault (pkg : Nat) (rep : FaultRep) (r : Grid) : Grid :=
  { modPkg r pkg fun x => { x with faults := x.faults + 1 } with
    first := match r.first with
      | some f => some f
      | none => some rep
    fmap := insertNat pkg r.fmap }

theorem rootFault_eq (u : State) (id pkg : Nat) (rep : FaultRep) :
    rootFault u id pkg rep = (stopGrid u id true).modGrid id (countFault pkg rep) := rfl

theorem countFault_first (pkg : Nat) (rep : FaultRep) (r : Grid) : (countFault pkg rep r).first = some (r.first.getD rep) := by
  unfold countFault
  dsimp only
  cases r.first <;> rfl

/-- The record that a change to the grid of a number leaves under that number. -/
theorem grid?_modGrid {u : State} {id : Nat} {x : Grid} (f : Grid → Grid) (hf : ∀ z, (f z).id = z.id) (hx : u.grid? id = some x) :
    (u.modGrid id f).grid? id = some (f x) := by
  have hid : x.id = id := by simpa using List.find?_some hx
  refine (find?_map_keeps _ _ (fun z => ?_) _).trans ((congrArg (Option.map _) hx).trans ?_)
  · split
    · exact congrArg (· == id) (hf z)
    · rfl
  · simp [hid]

/-- The first fault to reach the root stands and ends the grid. -/
theorem rootFault_grid? (u : State) (pkg : Nat) (rep : FaultRep) (hr : u.grid? r.id = some r) :
    ∃ r', (rootFault u r.id pkg rep).grid? r.id = some r' ∧ r'.first = some (r.first.getD rep) ∧ pkg ∈ r'.fmap ∧
      (r.early = false → r'.abort = true) ∧
      r'.pkgs = mapIf (fun x => x.pkg == pkg) (fun x => { x with faults := x.faults + 1 }) r.pkgs := by
  obtain ⟨x, hx, -, hfirst, hturn⟩ := stopGrid_grid? u r.id r hr
  obtain ⟨hpkgs, -⟩ := stopGrid_pkgs u r.id r x hr hx
  rw [rootFault_eq]
  exact ⟨_, grid?_modGrid (countFault pkg rep) (fun _ => rfl) hx,
    (countFault_first pkg rep x).trans (congrArg (fun f => some (Option.getD f rep)) hfirst), mem_insertNat _ _,
    fun hearly => (hturn hearly).1, congrArg _ hpkgs⟩

theorem takeFault_root {i num pkg : Nat} {rep : FaultRep} (hmsg : s.msgs[i]? = some (.fault num pkg rep))
    (hr : s.numGrid num = some r) (hroot : r.root = true) :
    exec (.podFaultReport (.here i)) s = .next (rootFault (dropMsg s i) r.id pkg rep) := by
  refine congrArg Host.Outcome.next ?_
  simp [takeFault, hmsg, hr, hroot]

/-- A grid whose number no other has is the one that its number finds. -/
theorem grid?_of_unique (hr : r ∈ s.grids) (hunique : ∀ x ∈ s.grids, x.id = r.id → x = r) : s.grid? r.id = some r := by
  cases hfind : s.grid? r.id with
  | none => exact absurd rfl (((noGrid_iff r.id s).mpr hfind) r hr)
  | some x => rw [hunique x (List.mem_of_find?_eq_some hfind) (by simpa using List.find?_some hfind)]

theorem dealing_of_not_over (h : r.over = false) : r.dealing.toNat = if r.next < r.total then 1 else 0 := by
  simp only [Grid.over, Bool.or_eq_false_iff] at h
  obtain ⟨⟨hearly, habort⟩, hcancel⟩ := h
  by_cases hleft : r.next < r.total <;> simp [Grid.dealing, hearly, habort, hcancel, hleft]

theorem podCancelRequest_here {i num gang wave gi : Nat} {f : FR} {ser : W} (hmsg : s.msgs[i]? = some (.cancel num gang wave f ser))
    (hr : s.numGrid num = some r) (hroot : r.root = true) (hover : r.over = false) (hgi : s.gangIdx gang = some gi) :
    exec (.podCancelRequest (.here i)) s = .next (stopGrid
      ((dropMsg s i).finishFut gi wave (some f) ser .done (if r.next < r.total then 1 else 0)) r.id false) := by
  have hidx : (dropMsg s i).gangIdx gang = some gi := hgi
  refine congrArg Host.Outcome.next ?_
  simp [takeCancel, hmsg, hr, hroot, hover, tellCancel, hidx, dealing_of_not_over hover]

theorem podCancelRequest_other {pkg ctx : Nat} {comp : D} (hpkg : pkg ≠ Config.pkg) (hr : namedGrid s ctx comp = some r)
    (hpod : r.scope = .pod) (hroot : r.root = true) (hover : r.over = false) (hp : ∃ p ∈ r.pkgs, p.pkg = pkg) :
    exec (.podCancelRequest (.other pkg ctx comp)) s = .next (send (stopGrid s r.id false)
      [.cancelled pkg ctx comp (if r.next < r.total then 1 else 0)]) := by
  have hin : (r.pkgs.any fun p => p.pkg == pkg) = true := by simpa using hp
  refine congrArg Host.Outcome.next ?_
  simp [hpkg, otherCancel, hr, hpod, hroot, hin, hover, dealing_of_not_over hover]

theorem podCancelRequest_answer {i ctx gang wave gi : Nat} {comp : D} {f : FR} {ser : W} (still : Bool)
    (hmsg : s.msgs[i]? = some (.cancelAt ctx comp gang wave f ser)) (hgi : s.gangIdx gang = some gi) :
    exec (.podCancelRequest (.answer i still)) s
      = .next ((dropMsg s i).finishFut gi wave (some f) ser .done (if still then 1 else 0)) := by
  have hidx : (dropMsg s i).gangIdx gang = some gi := hgi
  refine congrArg Host.Outcome.next ?_
  cases still <;> simp [cancelAnswer, hmsg, tellCancel, hidx]

/-! ## Links (R347) -/

/-- What a port counts after its count has been set. -/
theorem retriesOf_set (h : Hub) (port n p : Nat) :
    retriesOf { h with retries := (port, n) :: h.retries.filter fun x => x.1 != port } p = if p = port then n else retriesOf h p := by
  by_cases hp : p = port
  · simp [retriesOf, hp]
  · have hkept : (fun x : Nat × Nat => decide ((x.1 != port) = true ∧ (x.1 == p) = true)) = fun x => x.1 == p :=
      funext fun x => by by_cases hx : x.1 = p <;> simp [hx, hp]
    have hne : (port == p) = false := by simpa using fun heq => hp (Eq.symm heq)
    simp only [retriesOf, List.find?_cons, hne, List.find?_filter, if_neg hp, hkept]

theorem bexyarFlitRetry_completes {port : Nat} (ok : Bool) (hport : port < 32) (hup : port ∉ s.hub.ports)
    (hfew : retriesOf s.hub port < 16) :
    exec (.bexyarFlitRetry ⟨port, ok⟩) s = .next { s with hub := { s.hub with
      retries := (port, if ok then 0 else retriesOf s.hub port + 1) :: s.hub.retries.filter fun x => x.1 != port } } := by
  refine congrArg Host.Outcome.next ?_
  simp [portCount, hport, hup, hfew]

theorem bexyarPortDown_completes {port : Nat} (hport : port < 32) (hup : port ∉ s.hub.ports) (hmany : retriesOf s.hub port = 16)
    (hlinks : s.hub.ports.length < 31) :
    exec (.bexyarPortDown port []) s = .next { s with hub := { s.hub with ports := port :: s.hub.ports } } := by
  have hothers : ((port :: s.hub.ports).length == portCount) = false := by simp [portCount]; omega
  refine congrArg Host.Outcome.next ?_
  simp [portCount, hport, hup, hmany, losePkgs, Nat.ne_of_lt hlinks]

theorem podReportTimeout_completes {pkg : Nat} (hr : s.grid? r.id = some r) (hroot : r.root = true) (hstarted : r.started = true)
    (hdead : pkg ∈ s.hub.dead) (hwaits : ∃ p ∈ r.pkgs, p.pkg = pkg ∧ p.reported = false) :
    exec (.podReportTimeout r.id pkg) s = .next ((rootFault s r.id pkg (podFault pkg 3)).modGrid r.id fun r =>
      modPkg r pkg fun x => { x with reported := true }) := by
  have hwaits : (r.pkgs.any fun p => p.pkg == pkg && !p.reported) = true := by simpa using hwaits
  refine congrArg Host.Outcome.next ?_
  rw [hr]
  simp [hroot, hstarted, hdead, hwaits]

end Sys2Proof
end

section
namespace Sys2Proof

open Sys2Proof.Machine Sys2Proof.Claims

/-- The grid message of another root, by what its context and stage table give. -/
theorem gridMessage_here {s : State} {i d num ctx q prio : Nat} {bytes : List Byte} {step : W} {lo hi : Nat} {x : Bool}
    (hmsg : s.msgs[i]? = some (.grid d num ctx q prio bytes step lo hi x)) (horder : inOrder s i = true) (hd : d = Config.pkg)
    (hroot : rootOf num ≠ Config.pkg) (hnew : s.numGrid num = none) :
    (s.ctx? ctx = none →
      ∃ t r, exec (.gridMessage (.here i)) s = .next t ∧ t.grids = s.grids ++ [r] ∧
        t.msgs = (dropMsg s i).msgs ++ [.fault num Config.pkg (podFault Config.pkg 4)] ∧ r.num = num ∧ r.root = false ∧
        r.abort = true ∧ r.first = some (podFault Config.pkg 4) ∧ r.heldHere = 0 ∧ r.total = hi - lo) ∧
    (∀ t stab, s.ctx? ctx = some t → stageTab s ctx bytes x = .got stab →
      ∃ t r, exec (.gridMessage (.here i)) s = .next t ∧ t.grids = s.grids ++ [r] ∧ t.msgs = (dropMsg s i).msgs ∧
        r.num = num ∧ r.root = false ∧ r.started = true ∧ r.step = step ∧ r.bytes = bytes ∧ r.prio = prio ∧ r.stab = stab ∧
        (lo < hi → r.heldHere = hi - lo ∧ r.total = hi - lo)) ∧
    (∀ t va, s.ctx? ctx = some t → stageTab s ctx bytes x = .park va → s.msgWaits num = false →
      exec (.gridMessage (.here i)) s = .next (addReq s 0 ctx va 4 1 0 (.message num)).1) := by
  subst hd
  have htaken : exec (.gridMessage (.here i)) s = .next (recvGrid s i num ctx q prio bytes step lo hi x) :=
    congrArg Host.Outcome.next (takeGrid_new hmsg horder hroot hnew)
  obtain ⟨hdeclined, hreceived, hparked⟩ :=
    recvGrid_new (i := i) (ctx := ctx) (q := q) (prio := prio) (bytes := bytes) (step := step) (lo := lo) (hi := hi) (x := x) hnew
  rw [htaken]
  refine ⟨fun hnone => ?_, fun t stab ht hstab => ?_, fun t va ht hpark hfree => congrArg Host.Outcome.next (hparked t va ht hpark hfree)⟩
  · rw [hdeclined hnone]
    obtain ⟨r, hgrids, hmsgs, hrest⟩ := declineGrid_spec (dropMsg s i) num ctx q prio bytes step lo hi
    exact ⟨_, r, rfl, hgrids, hmsgs, hrest⟩
  · rw [hreceived t stab ht hstab]
    exact ⟨_, _, rfl, rfl, rfl, foreignGrid_chunk (dropMsg s i) t num q prio bytes stab step lo hi⟩

/-- Settles O58, event by event. -/
theorem podEventsComplete : Obligations.PodEventsComplete := by
  unfold Obligations.PodEventsComplete
  intro s
  refine ⟨fun r hr hpod hroot hnew hover hcool hfirst => rootBroadcast_completes hr hpod hroot hnew hover hcool hfirst,
    fun _ _ _ _ _ _ _ _ _ _ _ hmsg horder hd hroot hnew => gridMessage_here hmsg horder hd hroot hnew,
    fun num ctx q prio bytes step lo hi hroot =>
      ⟨fun hnew hnone hq hprio hlen hhi => gridMessage_other step lo hroot hnew hnone hq hprio hlen hhi,
        fun r hr hasked hhi => podChunk_other hroot hr hasked hhi,
        fun abort cancel hknown => endOfDeal_other abort cancel hroot hknown⟩,
    fun _ _ _ _ _ _ _ _ _ _ _ hr hok => podFaultReport_other hr hok,
    fun r pkg hr hpod hpkg hroot hstarted hrun => ⟨podChunkRequest_answered hr hpod hpkg hroot hstarted hrun,
      answer_of_dealt pkg, answer_deals pkg⟩,
    fun r hr hpod hroot hstarted hover hheld hcoming htold =>
      podChunkRequest_asks hr hpod hroot hstarted hover hheld hcoming htold,
    fun i d num lo hi r hmsg horder hd hr => podChunk_taken (hd ▸ hmsg) horder hr,
    fun i d num abort cancel r hmsg horder hr => endOfDeal_taken hmsg horder hr,
    fun r a b n d hr hmay => ⟨packageReport_own a b n d hr hmay, ownReport_sent⟩,
    fun r pkg a b n d hr hpkg hok => ⟨_, packageReport_other hr hpkg hok, rfl⟩,
    fun r group hr hready => groupReport_merges hr hready, ?_,
    fun i num gang wave f ser r hmsg hr hroot hover gi hgi => podCancelRequest_here hmsg hr hroot hover hgi,
    fun pkg ctx comp r hpkg hr hpod hroot hover hp => podCancelRequest_other hpkg hr hpod hroot hover hp,
    fun i still ctx comp gang wave f ser gi hmsg hgi => podCancelRequest_answer still hmsg hgi, ?_,
    fun port hport hup hmany hlinks => bexyarPortDown_completes hport hup hmany hlinks,
    fun r pkg hr hroot hstarted hdead hwaits => podReportTimeout_completes hr hroot hstarted hdead hwaits⟩
  · intro i num pkg rep r hmsg hr hroot hunique
    obtain ⟨r', hgrid, hrest⟩ := rootFault_grid? (dropMsg s i) pkg rep
      (grid?_of_unique (s := dropMsg s i) (List.mem_of_find?_eq_some hr) hunique)
    exact ⟨_, r', takeFault_root hmsg hr hroot, hgrid, hrest⟩
  · intro port ok hport hup hfew
    refine ⟨_, bexyarFlitRetry_completes ok hport hup hfew, ?_, fun p hp => ?_, rfl, rfl, rfl⟩
    · rw [retriesOf_set, if_pos rfl]
    · rw [retriesOf_set, if_neg hp]

end Sys2Proof
end

section
/-! SUPPORT. Loads of every form as they are performed: `LoadPerformed` (O23). -/

namespace Sys2Proof

open Sys2Proof.Machine Sys2Proof.Claims

/-! ## What a lane loads (R169, R170, R178) -/

/-- Without queued stores of the wave, a byte is as it stands. -/
theorem queuedByte_of_no_stores (w : Wave) (o : MemOp) (l : Loc) (x : Byte × Bool) (h : ∀ q ∈ w.ops, opBytes q = []) :
    queuedByte w o l x = x := by
  unfold queuedByte
  refine (List.foldl_ext _ (fun y _ => y) x fun y q hq => ?_).trans (List.foldl_fixed _)
  simp [h q (List.mem_of_mem_filter hq)]

section
variable {s u : State} {gi : Nat} {g : Gang} {w : Wave} {o : MemOp}

theorem loadBytes_of_no_stores (h : ∀ q ∈ w.ops, opBytes q = []) (l : Loc) (n : Nat) :
    bytesNat (loadBytes u gi g w o false l n) = u.numLoc gi l n ∧ bytesBad (loadBytes u gi g w o false l n) = u.rangeBad gi l n := by
  have hbyte (l : Loc) : loadByte u gi g w o false l = (u.getByte gi l, u.locBad gi l) := by
    rw [loadByte, queuedByte_of_no_stores w o l _ h]
    cases l <;> rfl
  refine ⟨?_, ?_⟩
  · simp only [bytesNat, loadBytes, List.map_map, State.numLoc, State.readLoc, Function.comp_def, hbyte]
  · simp only [bytesBad, loadBytes, List.any_map, State.rangeBad, Function.comp_def, hbyte]

/-- The flags that one lane of a load raises. -/
def laneFlags (u : State) (gi : Nat) (o : MemOp) (a : Acc) : Flags :=
  if o.kind = .dld then (stampedRead o.era (BitVec.ofNat 64 (u.numLoc gi a.loc 8))).2 else 0

theorem loadLane_eq_loaded (h : ∀ q ∈ w.ops, opBytes q = []) (a : Acc) :
    loadLane u gi g w o false a = ⟨a.lane, loaded u gi o a, laneFlags u gi o a⟩ := by
  unfold loadLane loaded laneFlags
  cases o.kind <;> simp [loadBytes_of_no_stores h, accLen]

/-- What the lanes of a load return. -/
def loadRets (u : State) (gi : Nat) (o : MemOp) : List LaneRet :=
  match o.kind with
  | .loadU _ => o.accs.flatMap fun a => (lanesOf o.left).map fun l => ⟨l, loaded u gi o a, 0⟩
  | _ => o.accs.map fun a => ⟨a.lane, loaded u gi o a, laneFlags u gi o a⟩

theorem loadRets_of_not_loadU (h : ∀ t, o.kind ≠ .loadU t) :
    loadRets u gi o = o.accs.map fun a => ⟨a.lane, loaded u gi o a, laneFlags u gi o a⟩ := by
  unfold loadRets
  split
  · rename_i t hkind
    exact absurd hkind (h t)
  · rfl

theorem accOf_of_not_loadU (h : ∀ t, o.kind ≠ .loadU t) (l : Nat) : accOf o l = o.accs.find? (·.lane == l) := by
  unfold accOf
  split
  · rename_i t hkind
    exact absurd hkind (h t)
  · rfl

theorem loadRets_of_loadU {t : LdTy} (h : o.kind = .loadU t) :
    loadRets u gi o = o.accs.flatMap fun a => (lanesOf o.left).map fun l => ⟨l, loaded u gi o a, 0⟩ := by
  unfold loadRets
  rw [h]

/-- A lane that is still to return finds the value of its access. -/
theorem find?_loadRets {l : Nat} {a : Acc} (hl : l < 96) (hleft : o.left.getLsbD l = true) (ha : accOf o l = some a) :
    ((loadRets u gi o).find? fun r => r.lane == l).map (·.els) = some (loaded u gi o a) := by
  by_cases hone : ∃ t, o.kind = .loadU t
  · obtain ⟨t, ht⟩ := hone
    have hhead : o.accs.head? = some a := by
      unfold accOf at ha
      rw [ht] at ha
      exact ha
    obtain ⟨as, has⟩ : ∃ as, o.accs = a :: as := by
      cases hacc : o.accs with
      | nil => rw [hacc] at hhead; cases hhead
      | cons b bs => rw [hacc] at hhead; cases hhead; exact ⟨bs, rfl⟩
    have hfind : ((lanesOf o.left).map fun l => (⟨l, loaded u gi o a, 0⟩ : LaneRet)).find? (fun r => r.lane == l)
        = some ⟨l, loaded u gi o a, 0⟩ := by
      rw [List.find?_map]
      have hlane : (lanesOf o.left).find? ((fun r : LaneRet => r.lane == l) ∘ fun l => ⟨l, loaded u gi o a, 0⟩) = some l := by
        cases hf : (lanesOf o.left).find? (fun x => x == l) with
        | none => exact absurd (beq_self_eq_true l) (by simpa using List.find?_eq_none.1 hf l ((mem_lanesOf _ _).2 ⟨hl, hleft⟩))
        | some x =>
          have hx : x = l := by simpa using List.find?_some hf
          exact hf.trans (congrArg some hx)
      rw [hlane]
      rfl
    rw [loadRets_of_loadU ht, has, List.flatMap_cons, List.find?_append, hfind]
    rfl
  · have hone : ∀ t, o.kind ≠ .loadU t := fun t ht => hone ⟨t, ht⟩
    rw [accOf_of_not_loadU hone] at ha
    rw [loadRets_of_not_loadU hone, List.find?_map]
    simp only [Function.comp_def, ha, Option.map_some]

/-- A lane that is not to return does not. -/
theorem lane_ne_of_mem_loadRets {l : Nat} {r : LaneRet} (hall : AllLeft o) (hleft : o.left.getLsbD l = false)
    (hr : r ∈ loadRets u gi o) : r.lane ≠ l := by
  rintro rfl
  have hin : o.left.getLsbD r.lane = true := by
    by_cases hone : ∃ t, o.kind = .loadU t
    · obtain ⟨t, ht⟩ := hone
      rw [loadRets_of_loadU ht] at hr
      obtain ⟨a, -, hr⟩ := List.mem_flatMap.1 hr
      obtain ⟨l, hl, rfl⟩ := List.mem_map.1 hr
      exact ((mem_lanesOf _ _).1 hl).2
    · rw [loadRets_of_not_loadU fun t ht => hone ⟨t, ht⟩] at hr
      obtain ⟨a, ha, rfl⟩ := List.mem_map.1 hr
      exact hall.resolve_left hone a ha
  rw [hleft] at hin
  cases hin

theorem foldl_flags_map {α : Type} (f : α → LaneRet) (xs : List α) (fl : Flags) :
    (xs.map f).foldl (fun z x => z ||| x.fl) fl = xs.foldl (fun z x => z ||| (f x).fl) fl := List.foldl_map ..

/-- The flags of the lanes together. -/
theorem loadRets_flags : (loadRets u gi o).foldl (fun f x => f ||| x.fl) 0 = loadedFlags u gi o := by
  have hnone (rs : List LaneRet) (hrs : ∀ r ∈ rs, r.fl = 0) : rs.foldl (fun f x => f ||| x.fl) 0 = 0 := by
    refine (List.foldl_ext _ (fun y _ => y) 0 fun y r hr => ?_).trans (List.foldl_fixed _)
    rw [hrs r hr]
    exact BitVec.or_zero
  by_cases hdld : o.kind = .dld
  · have hone (t : LdTy) : o.kind ≠ .loadU t := by simp [hdld]
    rw [loadRets_of_not_loadU hone, List.foldl_map, loadedFlags, if_pos hdld]
    simp only [laneFlags, if_pos hdld]
  · rw [loadedFlags, if_neg hdld]
    refine hnone _ fun r hr => ?_
    by_cases hone : ∃ t, o.kind = .loadU t
    · obtain ⟨t, ht⟩ := hone
      rw [loadRets_of_loadU ht] at hr
      obtain ⟨a, -, hr⟩ := List.mem_flatMap.1 hr
      obtain ⟨l, -, rfl⟩ := List.mem_map.1 hr
      rfl
    · rw [loadRets_of_not_loadU fun t ht => hone ⟨t, ht⟩] at hr
      obtain ⟨a, -, rfl⟩ := List.mem_map.1 hr
      exact if_neg hdld

/-! ## The access of a load (R265, R271 note 2) -/

/-- The machine once a load has read: its lines are noted and filled. -/
def afterLoad (s : State) (g : Gang) (o : MemOp) : State :=
  let u := noteAccs s g false (accLen o.kind) o.accs
  if o.kind == .value then u else fillLoad u g.byreId o.floor false (o.accs.map (·.loc))

theorem fillLoad_frame (s : State) (byre floor : Nat) (ls : List Loc) :
    (fillLoad s byre floor false ls).mem = s.mem ∧ (fillLoad s byre floor false ls).gangs = s.gangs ∧
      (fillLoad s byre floor false ls).memBad = s.memBad :=
  foldl_keeps (fun t : State => t.mem = s.mem ∧ t.gangs = s.gangs ∧ t.memBad = s.memBad) _
    (fun t _ ht => ⟨(fillLine_frame t byre _).1.trans ht.1, (fillLine_frame t byre _).2.trans ht.2.1,
      (fillLine_memBad t byre _).trans ht.2.2⟩) (linesIn ls) s ⟨rfl, rfl, rfl⟩

theorem afterLoad_frame (s : State) (g : Gang) (o : MemOp) :
    (afterLoad s g o).mem = (noteAccs s g false (accLen o.kind) o.accs).mem ∧ (afterLoad s g o).gangs = s.gangs ∧
      (afterLoad s g o).memBad = s.memBad := by
  obtain ⟨hgangs, hbad⟩ := noteAccs_frame s g false (accLen o.kind) o.accs
  unfold afterLoad
  dsimp only
  split
  · exact ⟨rfl, hgangs, hbad⟩
  · obtain ⟨hm, hg, hb⟩ := fillLoad_frame (noteAccs s g false (accLen o.kind) o.accs) g.byreId o.floor (o.accs.map (·.loc))
    exact ⟨hm, hg.trans hgangs, hb.trans hbad⟩

theorem access_load (hkind : isPlainLoad o.kind = true) (hall : AllLeft o) (hnone : ∀ q ∈ w.ops, opBytes q = []) :
    access s gi g w o o.left false
      = (afterLoad s g o, loadRets (noteAccs s g false (accLen o.kind) o.accs) gi o) := by
  by_cases hone : ∃ t, o.kind = .loadU t
  · obtain ⟨t, ht⟩ := hone
    simp only [access, afterLoad, loadRets, ht, Bool.false_and, loadLane_eq_loaded hnone, laneFlags]
    simp
  · have hleft : (o.accs.filter fun a => o.left.getLsbD a.lane) = o.accs := List.filter_eq_self.2 (hall.resolve_left hone)
    have hone : ∀ t, o.kind ≠ .loadU t := fun t ht => hone ⟨t, ht⟩
    rw [loadRets_of_not_loadU hone]
    unfold access afterLoad
    dsimp only
    rw [Bool.false_and, hleft]
    generalize hk : o.kind = k at hkind hone
    cases k with
    | loadU t => exact absurd rfl (hone t)
    | load | loadN | dld | value => simp [isPlainLoad, loadLane_eq_loaded hnone]
    | _ => cases hkind

theorem retLanes_allLanes (hkind : isPlainLoad o.kind = true) : retLanes o allLanes = o.left := by
  have hmask : o.left &&& allLanes = o.left := BitVec.and_allOnes
  unfold retLanes
  generalize o.kind = k at hkind
  cases k with
  | load | loadN => exact hmask
  | loadU | dld | value => rfl
  | _ => cases hkind

/-! ## The registers -/

theorem retReg_bad (old : VReg) (rs : List LaneRet) (k : Nat) {l : Nat} (hl : l < 96) :
    (retReg old rs k).bad.getLsbD l
      = match (rs.find? fun r => r.lane == l).bind fun r => r.els[k]? with
        | some v => v.2
        | none => old.bad.getLsbD l := by
  exact maskOf_getLsbD _ l hl

theorem retVec_frame (w : Wave) (rs : List LaneRet) (d n : Nat) : ∃ vs, retVec w rs d n = { w with vregs := vs } ∧
    vs.length = w.vregs.length := by
  induction n with
  | zero => exact ⟨_, rfl, rfl⟩
  | succ n ih =>
    obtain ⟨vs, heq, hlen⟩ := ih
    exact ⟨_, by rw [retVec, heq]; rfl, by rw [setAt_length]; exact hlen⟩

theorem retVec_vreg (w : Wave) (rs : List LaneRet) (d n k : Nat) (hk : k < n) (hlen : d + n ≤ w.vregs.length) :
    (retVec w rs d n).vreg (d + k) = retReg (w.vreg (d + k)) rs k := by
  induction n with
  | zero => omega
  | succ n ih =>
    obtain ⟨vs, heq, hvs⟩ := retVec_frame w rs d n
    by_cases hlast : k = n
    · subst hlast
      rw [retVec]
      refine vreg_setVreg _ _ _ ?_
      rw [heq]
      exact lt_of_lt_of_eq (by omega) hvs.symm
    · rw [retVec, vreg_setVreg_other _ _ _ _ (by omega)]
      exact ih (by omega) (by omega)

theorem retVec_vreg_other (w : Wave) (rs : List LaneRet) (d n m : Nat) (hm : m < d ∨ d + n ≤ m) :
    (retVec w rs d n).vreg m = w.vreg m := by
  induction n with
  | zero => rfl
  | succ n ih =>
    rw [retVec, vreg_setVreg_other _ _ _ _ (by omega)]
    exact ih (by omega)

theorem setSreg_frame (w : Wave) (k : Bool) (n : Nat) (x : W) (bad : Bool) :
    ∃ s0 s1 rs b, w.setSreg k n x bad = { w with slot0 := s0, slot1 := s1, sregs := rs, sbad := b } := by
  unfold Wave.setSreg
  split
  · cases k <;> exact ⟨_, _, _, _, rfl⟩
  · exact ⟨_, _, _, _, rfl⟩

theorem retScl_frame (w : Wave) (k : Bool) (d : Nat) (xs : List (W × Bool)) :
    ∃ s0 s1 rs b, retScl w k d xs = { w with slot0 := s0, slot1 := s1, sregs := rs, sbad := b } := by
  induction xs generalizing w d with
  | nil => exact ⟨_, _, _, _, rfl⟩
  | cons x xs ih =>
    obtain ⟨s0, s1, rs, b, hset⟩ := setSreg_frame w k d x.1 x.2
    obtain ⟨t0, t1, rs', b', hrest⟩ := ih (w.setSreg k d x.1 x.2) (d + 1)
    exact ⟨t0, t1, rs', b', by rw [retScl, hrest, hset]⟩

/-! ## The operation leaves (R259, R271) -/

/-- The floor of a lane that a raise reaches. -/
theorem le_floor_raise (w : Wave) (m : Mask) (n l : Nat) (hlen : w.floors.length = 96) (hl : l < 96) (hm : m.getLsbD l = true) :
    n ≤ (w.raise m n).floors.getD l 0 := by
  have hpair : (w.floors.zip laneList)[l]? = some (w.floors[l]'(by omega), l) :=
    List.getElem?_zip_eq_some.2 ⟨List.getElem?_eq_getElem _, laneList_get l hl⟩
  simp only [Wave.raise, List.getD_eq_getElem?_getD, List.getElem?_map, hpair, Option.map_some, hm, if_true, Option.getD_some]
  exact le_max_right _ _

theorem raise_floors_length (w : Wave) (m : Mask) (n : Nat) (hlen : w.floors.length = 96) : (w.raise m n).floors.length = 96 := by
  simp [Wave.raise, hlen, laneList]

/-- Later memory words of an acquire's lanes ignore the lines filled before it. -/
def floorLater (o : MemOp) (n : Nat) (os : List MemOp) : List MemOp :=
  mapIf (fun q => o.id < q.id && q.act &&& o.act != 0) (fun q => { q with floor := max q.floor n }) os

/-- The wave without an operation that has returned all its lanes, as an acquire then finds it. -/
theorem retOp_of_done {x : State} {v : Wave} {done : Mask} (hdone : o.left &&& ~~~done = 0) :
    ∃ p : Wave, p.ops = v.ops.filter (·.id != o.id) ∧ p.floors = v.floors ∧
      retOp x gi v o done = if !isAcq o then p else
        (x.acquired gi { p with ops := floorLater o (acqFloor x gi o) p.ops } o.act o.scope.toNat).raise o.act (acqFloor x gi o) := by
  unfold retOp
  dsimp only
  rw [if_neg (by simp [hdone])]
  refine ⟨_, ?_, ?_, rfl⟩
  · split <;> split <;> rfl
  · split <;> split <;> rfl

theorem map_floor_floorLater (n : Nat) (os : List MemOp) :
    (floorLater o n os).map (fun q => { q with floor := 0 }) = os.map fun q => { q with floor := 0 } := by
  simp only [floorLater, mapIf, List.map_map]
  refine List.map_congr_left fun q _ => ?_
  dsimp only [Function.comp_apply]
  split <;> rfl

/-- What is left of a wave's other operations once one has returned all its lanes; `v` is the wave with the registers written. -/
theorem retOp_left {x : State} {v : Wave} {done : Mask} (hops : v.ops = w.ops) (hfloors : v.floors = w.floors)
    (hgangs : x.gangs = s.gangs) (hdone : o.left &&& ~~~done = 0) : Left s gi x.fills w (retOp x gi v o done) o := by
  obtain ⟨p, hpops, hpfloors, hret⟩ := retOp_of_done (gi := gi) (x := x) (v := v) hdone
  rw [hops] at hpops
  rw [hfloors] at hpfloors
  cases hacq : isAcq o with
  | false =>
    rw [hacq] at hret
    have hret : retOp x gi v o done = p := hret
    rw [hret]
    refine ⟨congrArg _ hpops, fun _ => ⟨hpops, hpfloors⟩, fun h => absurd h (by simp [hacq])⟩
  | true =>
    rw [hacq] at hret
    have hat : x.floorAt gi 0 = s.floorAt gi 0 := by
      simp only [State.floorAt, State.viewAt, State.gang?, hgangs]
      rfl
    have hfloor : acqFloor x gi o = if isWide o = true then x.fills + 1 else s.floorAt gi 0 := by
      simp [acqFloor, hacq, hat]
    refine ⟨?_, fun h => absurd h (by simp [hacq]), fun _ hlen l hl hact => ?_⟩
    · rw [hret]
      exact (map_floor_floorLater _ p.ops).trans (congrArg _ hpops)
    · rw [hret, ← hfloor]
      refine le_floor_raise _ _ _ _ (raise_floors_length _ _ _ ?_) hl hact
      exact (congrArg List.length hpfloors).trans hlen

/-! ## Write-back of a load -/

/-- The wave once a load's lanes are written and the load has left. -/
def loadedWave (s : State) (gi : Nat) (g : Gang) (w : Wave) (o : MemOp) : Wave :=
  let rs := loadRets (noteAccs s g false (accLen o.kind) o.accs) gi o
  retOp (afterLoad s g o) gi ((retWrite w o rs).setFlags (rs.foldl (fun f x => f ||| x.fl) 0)) o o.left

/-- Lanes that return write registers only, and the mask views. -/
theorem retWrite_keeps (w : Wave) (o : MemOp) (rs : List LaneRet) :
    (retWrite w o rs).ops = w.ops ∧ (retWrite w o rs).floors = w.floors ∧ (retWrite w o rs).flags = w.flags ∧
      (retWrite w o rs).trap = w.trap ∧ (retWrite w o rs).bars = w.bars ∧ (retWrite w o rs).exited = w.exited := by
  unfold retWrite
  split
  · exact ⟨rfl, rfl, rfl, rfl, rfl, rfl⟩
  · rename_i d n _
    obtain ⟨vs, heq, -⟩ := retVec_frame w rs d.toNat n
    rw [heq]
    exact ⟨rfl, rfl, rfl, rfl, rfl, rfl⟩
  · split
    · rename_i d n _ _ r _
      obtain ⟨s0, s1, ws, b, heq⟩ := retScl_frame w o.slot d.toNat (r.els.take n)
      rw [heq]
      exact ⟨rfl, rfl, rfl, rfl, rfl, rfl⟩
    · exact ⟨rfl, rfl, rfl, rfl, rfl, rfl⟩

/-- What the write of a load's lanes leaves of the wave, by its registers and slots. -/
theorem loadedWave_spec (s : State) (gi : Nat) (g : Gang) (w : Wave) (o : MemOp) :
    let u := noteAccs s g false (accLen o.kind) o.accs
    let v := retWrite w o (loadRets u gi o)
    let w' := loadedWave s gi g w o
    w'.vregs = v.vregs ∧ w'.sregs = v.sregs ∧ w'.sbad = v.sbad ∧ w'.slot0 = v.slot0 ∧ w'.slot1 = v.slot1 ∧
      w'.flags = w.flags ||| loadedFlags u gi o ∧ w'.trap = w.trap ∧ w'.bars = w.bars ∧ w'.exited = w.exited ∧
      Left s gi (afterLoad s g o).fills w w' o := by
  intro u v w'
  have hw' : w' = retOp (afterLoad s g o) gi (v.setFlags ((loadRets u gi o).foldl (fun f x => f ||| x.fl) 0)) o o.left := rfl
  obtain ⟨hvops, hvfloors, hvflags, hvtrap, hvbars, hvexited⟩ := retWrite_keeps w o (loadRets u gi o)
  have hleft : Left s gi (afterLoad s g o).fills w w' o :=
    retOp_left hvops hvfloors (afterLoad_frame s g o).2.1 (by simp)
  obtain ⟨ops, pubs, seen, views, floors, hret⟩ :=
    retOp_frame (afterLoad s g o) gi (v.setFlags ((loadRets u gi o).foldl (fun f x => f ||| x.fl) 0)) o o.left
  refine ⟨?_, ?_, ?_, ?_, ?_, ?_, ?_, ?_, ?_, hleft⟩
  case refine_6 =>
    rw [hw', hret]
    exact congr (congrArg (· ||| ·) hvflags) loadRets_flags
  case refine_7 => rw [hw', hret]; exact hvtrap
  case refine_8 => rw [hw', hret]; exact hvbars
  case refine_9 => rw [hw', hret]; exact hvexited
  all_goals rw [hw', hret]; rfl

/-- A wave holds no byte of a scratchpad. -/
theorem setWave_spads (x : State) (gi wi : Nat) (v : Wave) : (x.setWave gi wi v).gangs.map (·.spad) = x.gangs.map (·.spad) := by
  refine List.ext_getElem? fun i => ?_
  change ((modAt x.gangs gi _).map (·.spad))[i]? = (x.gangs.map (·.spad))[i]?
  rw [List.getElem?_map, List.getElem?_map]
  by_cases hi : i = gi
  · subst hi
    rw [modAt_get, Option.map_map]
    rfl
  · rw [modAt_get_other _ _ _ _ hi]

/-- A load performed for all its lanes from memory: the machine before what a narrowed mask view or a waiting handler adds. -/
theorem loadWriteback_load {gang wi op : Nat} (hout : Outstanding s gang wi op gi g w o) (hkind : isPlainLoad o.kind = true)
    (hall : AllLeft o) (hnone : ∀ q ∈ w.ops, opBytes q = []) :
    let t := (afterLoad s g o).setWave gi wi (loadedWave s gi g w o)
    exec (.loadWriteback gang wi op allLanes false) s = .next (opDone (afterMask t gi wi o.slot (w.slot o.slot).act) gi wi) ∧
      t.wave? gi wi = some (loadedWave s gi g w o) ∧ t.mem = (noteAccs s g false (accLen o.kind) o.accs).mem ∧
      t.memBad = s.memBad ∧ t.gangs.map (·.spad) = s.gangs.map (·.spad) ∧ t.fills = (afterLoad s g o).fills := by
  intro t
  have ⟨_, hg, hw, _, _⟩ := hout
  have hwave : s.wave? gi wi = some w := by simp only [State.wave?, hg, hw]
  obtain ⟨hmem, hgangs, hbad⟩ := afterLoad_frame s g o
  have hafter : (afterLoad s g o).wave? gi wi = some w := (wave?_congr hgangs gi wi).trans hwave
  have hset : t.wave? gi wi = some (loadedWave s gi g w o) := State.setWave_wave? _ gi wi _ w hafter
  have hstore : isStoreKind o.kind = false := by
    generalize o.kind = k at hkind
    cases k with
    | load | loadU | loadN | dld | value => rfl
    | _ => cases hkind
  refine ⟨?_, hset, hmem, hbad, ?_, rfl⟩
  · rw [exec_loadWriteback_of_outstanding s gang wi op gi g w o allLanes false hout hstore]
    unfold writeback
    simp only [hg, hw, retLanes_allLanes hkind, access_load hkind hall hnone, hafter]
    refine congrArg (fun z => Host.Outcome.next (opDone z gi wi)) ?_
    change (if ((loadedWave s gi g w o).slot o.slot).act == (w.slot o.slot).act then t else _) = _
    split
    · rename_i hsame
      exact (afterMask_of_act_eq t gi wi o.slot _ _ hset (by rw [beq_iff_eq.mp hsame]; simp)).symm
    · rfl
  · rw [setWave_spads, hgangs]

/-- The vector registers that a load has written. -/
theorem loaded_vreg {d : VR} {n k l : Nat} (hdst : o.dst = .vec d n) (hregs : d.toNat + n ≤ w.vregs.length)
    (hlanes : ∀ k, k < n → (w.vreg (d.toNat + k)).lanes.length = 96) (hall : AllLeft o) (hl : l < 96) (hk : k < n) :
    let r := (retWrite w o (loadRets u gi o)).vreg (d.toNat + k)
    (∀ a x, o.left.getLsbD l = true → accOf o l = some a → (loaded u gi o a)[k]? = some x →
      r.lane l = x.1 ∧ r.bad.getLsbD l = x.2) ∧
    (o.left.getLsbD l = false →
      r.lane l = (w.vreg (d.toNat + k)).lane l ∧ r.bad.getLsbD l = (w.vreg (d.toNat + k)).bad.getLsbD l) := by
  have hreg : (retWrite w o (loadRets u gi o)).vreg (d.toNat + k) = retReg (w.vreg (d.toNat + k)) (loadRets u gi o) k := by
    rw [retWrite, hdst]
    exact retVec_vreg w _ d.toNat n k hk hregs
  intro r
  refine ⟨fun a x hleft ha hx => ?_, fun hleft => ?_⟩
  · obtain ⟨y, hy, hels⟩ := Option.map_eq_some_iff.1 (find?_loadRets (u := u) (gi := gi) hl hleft ha)
    have hel : (((loadRets u gi o).find? fun r => r.lane == l).bind fun r => r.els[k]?) = some x := by
      rw [hy, Option.bind_some, hels, hx]
    refine ⟨?_, ?_⟩
    · rw [show r = _ from hreg, retReg_lane _ _ _ _ (hlanes k hk) hl, hel]
    · rw [show r = _ from hreg, retReg_bad _ _ _ hl, hel]
  · have hnone : ((loadRets u gi o).find? fun r => r.lane == l) = none :=
      List.find?_eq_none.2 fun y hy => by simpa using lane_ne_of_mem_loadRets hall hleft hy
    refine ⟨?_, ?_⟩
    · rw [show r = _ from hreg, retReg_lane _ _ _ _ (hlanes k hk) hl, hnone]
      rfl
    · rw [show r = _ from hreg, retReg_bad _ _ _ hl, hnone]
      rfl

theorem loaded_vreg_other {d : VR} {n m : Nat} (hdst : o.dst = .vec d n) (hm : m < d.toNat ∨ d.toNat + n ≤ m) :
    (retWrite w o (loadRets u gi o)).vreg m = w.vreg m := by
  rw [retWrite, hdst]
  exact retVec_vreg_other w _ d.toNat n m hm

/-- A vector load leaves the scalar registers and the mask. -/
theorem retWrite_vec {d : VR} {n : Nat} (hdst : o.dst = .vec d n) (rs : List LaneRet) :
    (retWrite w o rs).sregs = w.sregs ∧ (retWrite w o rs).sbad = w.sbad ∧ (retWrite w o rs).slot0 = w.slot0 ∧
      (retWrite w o rs).slot1 = w.slot1 := by
  obtain ⟨vs, heq, -⟩ := retVec_frame w rs d.toNat n
  rw [retWrite, hdst]
  dsimp only
  rw [heq]
  exact ⟨rfl, rfl, rfl, rfl⟩

/-- A scalar load writes the elements of its one access. -/
theorem retWrite_scl {d : SR} {n : Nat} {a : Acc} (hdst : o.dst = .scl d n) (haccs : o.accs = [a]) (hone : ∀ t, o.kind ≠ .loadU t) :
    retWrite w o (loadRets u gi o) = retScl w o.slot d.toNat ((loaded u gi o a).take n) := by
  rw [retWrite, hdst, loadRets_of_not_loadU hone, haccs]
  rfl

end

end Sys2Proof
end

section
namespace Sys2Proof

open Sys2Proof.Machine Sys2Proof.Claims

/-- Settles O23: what the load returns is written, it leaves, and beside the registers nothing is changed. -/
theorem loadPerformed : Obligations.LoadPerformed := by
  unfold Obligations.LoadPerformed
  intro s gang wi op gi g w o hout hquiet hkind hall hnone u same
  obtain ⟨hvregs, hsregs, hsbad, hslot0, hslot1, hflags, htrap, hbars, hexited, hleft⟩ := loadedWave_spec s gi g w o
  obtain ⟨hexec, hwave, hmem, hbad, hspads, hfills⟩ := loadWriteback_load hout hkind hall hnone
  have hsame : same ((afterLoad s g o).setWave gi wi (loadedWave s gi g w o)) (loadedWave s gi g w o) :=
    ⟨hwave, hmem, hbad, hspads, hflags, hleft⟩
  refine ⟨noteAccs_of_enc_none s g false (accLen o.kind) o.accs, fun d n hdst _ hregs hlanes => ?vector,
    fun d n a hdst haccs hone => ?scalar⟩
  case vector =>
    obtain ⟨hws, hwb, hw0, hw1⟩ := retWrite_vec (w := w) hdst (loadRets u gi o)
    have hslot (k : Bool) : (loadedWave s gi g w o).slot k = w.slot k := by
      cases k
      · exact hslot0.trans hw0
      · exact hslot1.trans hw1
    have hmask : afterMask ((afterLoad s g o).setWave gi wi (loadedWave s gi g w o)) gi wi o.slot (w.slot o.slot).act
        = (afterLoad s g o).setWave gi wi (loadedWave s gi g w o) :=
      afterMask_of_act_eq _ gi wi o.slot _ _ hwave (by rw [hslot]; simp)
    have hcalm : Quiet (loadedWave s gi g w o) := ⟨hbars.trans hquiet.1, fun sv hsv => by
      rw [hexited]
      exact hquiet.2 sv (htrap.symm.trans hsv)⟩
    refine ⟨_, loadedWave s gi g w o, ?_, hsame, fun l k hl hk => ?_, fun m hm => ?_, hsregs.trans hws, hsbad.trans hwb,
      hslot0.trans hw0, hslot1.trans hw1⟩
    · rw [hexec, hmask, opDone_of_quiet _ gi wi _ hwave hcalm]
    · have hreg := loaded_vreg (u := u) (gi := gi) hdst hregs hlanes hall hl hk
      rw [Wave.vreg, hvregs]
      exact hreg
    · rw [Wave.vreg, hvregs]
      exact loaded_vreg_other hdst hm
  case scalar =>
    have hwrite := retWrite_scl (w := w) (u := u) (gi := gi) hdst haccs hone
    obtain ⟨s0, s1, ws, b, hframe⟩ := retScl_frame w o.slot d.toNat ((loaded u gi o a).take n)
    refine ⟨_, loadedWave s gi g w o, hexec, hsame, ?_, hsregs.trans (congrArg Wave.sregs hwrite),
      hsbad.trans (congrArg Wave.sbad hwrite), hslot0.trans (congrArg Wave.slot0 hwrite), hslot1.trans (congrArg Wave.slot1 hwrite)⟩
    exact hvregs.trans ((congrArg Wave.vregs hwrite).trans (by rw [hframe]))

end Sys2Proof
end

section
/-! SUPPORT. A store behind a `DADD` whose counter class no word of its kind has (R108, R169). -/

namespace Sys2Proof

open Sys2Proof.Machine Sys2Proof.Claims

/-- An outstanding operation of lane 0 on one word of device memory. -/
def heldOp (id : Nat) (kind : MemKind) (ctr : Ctr) : MemOp :=
  ⟨id, false, 1, kind, ctr, .none, [⟨0, .mem 0x20000, none, 0x20000, 1, 0, 0⟩], 1, 0, 0, 0, 0, 0, [], false⟩

/-- A `DADD` that counts in TRGCNT, and a store after it; neither is accepted. -/
def trailingStore : Wave := { freshWave with ops := [heldOp 0 .dadd .tr, heldOp 1 (.store 4) .st], opSeq := 2 }

/-- Which operations of the machine's only wave are accepted after a step. -/
def acceptedOps (o : Out) : List Bool :=
  match o with
  | .next t => ((t.wave? 0 0).map fun w => w.ops.map (·.accepted)).getD []
  | _ => []

/-- Refutes O24: its clause on acceptance has a store wait for the earlier stores of its wave and for a `DADD` that counts in
VLCNT; the model has it wait for every earlier `DADD` outside the scratchpad that is not accepted. In a state that holds a `DADD`
under the counter class of the trough words, the clause has the store accepted and the model leaves it. -/
theorem not_storePerformed : ¬ Obligations.StorePerformed := by
  unfold Obligations.StorePerformed
  rintro ⟨-, haccept, -⟩
  have hearlier : ∀ q ∈ trailingStore.ops, q.id < (heldOp 1 (.store 4) .st).id →
      (q.ctr = .st ∨ (q.kind = .dadd ∧ q.ctr = .vl)) → q.accepted = true := by
    decide
  have hexec := haccept (soleState trailingStore) 0 0 1 0 trailingStore (heldOp 1 (.store 4) .st) rfl rfl rfl rfl rfl rfl hearlier
  have hkept : acceptedOps (exec (.storePerformed 0 0 1) (soleState trailingStore)) = [false, false] := by decide +kernel
  rw [hexec] at hkept
  exact absurd hkept (by decide +kernel)

end Sys2Proof
end

section
/-! SUPPORT. A pattern of a format reads as an exact value that rounds back to it: `Fp32RoundsToItself` (O6). -/

namespace Sys2Proof

open Sys2Proof.Machine Sys2Proof.Claims

/-! ## The exponent of a number of whole units -/

theorem log2_mul_two_pow (k j : Nat) (hk : k ≠ 0) : Nat.log2 (k * 2 ^ j) = Nat.log2 k + j := by
  rw [Nat.log2_eq_iff (by positivity), pow_add, show Nat.log2 k + j + 1 = (Nat.log2 k + 1) + j by omega, pow_add _ _ j]
  exact ⟨Nat.mul_le_mul_right _ (Nat.log2_self_le hk), Nat.mul_lt_mul_of_pos_right Nat.lt_log2_self (by positivity)⟩

/-- Where the quotient of the leading powers does not exceed `n ÷ d`, it is the one sought. -/
theorem log2Quot_of_le (n d : Nat) (h : if (0 : Int) ≤ (n.log2 : Int) - d.log2 then d * 2 ^ ((n.log2 : Int) - d.log2).toNat ≤ n
    else d ≤ n * 2 ^ (-((n.log2 : Int) - d.log2)).toNat) : log2Quot n d = (n.log2 : Int) - d.log2 := if_pos h

/-- `k` units of 2^j. -/
theorem log2Quot_mul_pow (k j : Nat) (hk : k ≠ 0) : log2Quot (k * 2 ^ j) 1 = (Nat.log2 k : Int) + j := by
  have hone : Nat.log2 1 = 0 := by decide
  have hdiff : ((k * 2 ^ j).log2 : Int) - Nat.log2 1 = ((Nat.log2 k + j : Nat) : Int) := by
    rw [log2_mul_two_pow k j hk, hone]
    exact sub_zero _
  have hle : 2 ^ (Nat.log2 k + j) ≤ k * 2 ^ j := by
    rw [← log2_mul_two_pow k j hk]
    exact Nat.log2_self_le (by positivity)
  rw [log2Quot_of_le _ _ ?_, hdiff, Nat.cast_add]
  rw [hdiff, if_pos (Int.natCast_nonneg _), Int.toNat_natCast, one_mul]
  exact hle

/-- `k` units of 2^-j. -/
theorem log2Quot_pow (k j : Nat) (hk : k ≠ 0) : log2Quot k (2 ^ j) = (Nat.log2 k : Int) - j := by
  have hdiff : (k.log2 : Int) - (2 ^ j).log2 = (Nat.log2 k : Int) - j := by rw [Nat.log2_two_pow]
  rw [log2Quot_of_le _ _ ?_, hdiff]
  rw [hdiff]
  by_cases hj : j ≤ Nat.log2 k
  · have hexp : ((Nat.log2 k : Int) - j).toNat = Nat.log2 k - j := by omega
    rw [if_pos (by omega), hexp, ← pow_add, Nat.add_sub_cancel' hj]
    exact Nat.log2_self_le hk
  · have hexp : (-((Nat.log2 k : Int) - j)).toNat = j - Nat.log2 k := by omega
    rw [if_neg (by omega), hexp]
    calc 2 ^ j = 2 ^ Nat.log2 k * 2 ^ (j - Nat.log2 k) := by rw [← pow_add]; congr 1; omega
      _ ≤ _ := Nat.mul_le_mul_right _ (Nat.log2_self_le hk)

/-! ## Rounding of what a format holds exactly (R73) -/

/-- Where nothing is left over the magnitude stays, in every mode. -/
theorem roundUp_of_exact (rm : Rm) (s : Bool) (k b u : Nat) (hb : b ≠ 0) (hu : u < 2 ^ 16) : roundUp rm s k 0 b u = false := by
  cases rm with
  | rne => simp [roundUp, hb]
  | sr => simpa [roundUp] using hu
  | rz | ru | rd => simp [roundUp]

/-- The quotient of a signed number of units: its sign, its magnitude and its denominator. -/
theorem exPow2_units (s : Bool) (k : Nat) (e : Int) (hk : k ≠ 0) :
    ∃ n d, exPow2 (if s then -(k : Int) else k) e = .fin n d ∧ decide (n < 0) = s ∧ log2Quot n.natAbs d = (Nat.log2 k : Int) + e ∧
      ∃ b, b ≠ 0 ∧ scaleQuot n.natAbs d e = (k * b, b) := by
  have hne : ((if s then -(k : Int) else k) == 0) = false := by cases s <;> simp [hk]
  have habs : (if s then -(k : Int) else k).natAbs = k := by cases s <;> simp
  have hsign (b : Nat) (hb : b ≠ 0) : decide ((if s then -(k : Int) else k) * b < 0) = s := by
    have hpos : (0 : Int) < (k : Int) * b := by positivity
    cases s with
    | true => simpa using hpos
    | false => simpa using hpos.le
  unfold exPow2
  rw [hne]
  by_cases he : 0 ≤ e
  · obtain ⟨j, rfl⟩ := Int.eq_ofNat_of_zero_le he
    refine ⟨_, _, by rw [if_neg (by simp), if_pos he], ?_, ?_, 2 ^ j, by positivity, ?_⟩
    · simpa using hsign (2 ^ j) (by positivity)
    · rw [Int.natAbs_mul, habs]
      simpa [Int.natAbs_pow] using log2Quot_mul_pow k j hk
    · rw [scaleQuot, if_pos he, Int.natAbs_mul, habs, Int.toNat_natCast, one_mul, Int.natAbs_pow]
      rfl
  · obtain ⟨j, hj⟩ := Int.eq_ofNat_of_zero_le (show 0 ≤ -e by omega)
    refine ⟨_, _, by rw [if_neg (by simp), if_neg he], ?_, ?_, 2 ^ j, by positivity, ?_⟩
    · simpa using hsign 1 one_ne_zero
    · rw [habs, hj, Int.toNat_natCast, log2Quot_pow k j hk]
      omega
    · rw [scaleQuot, if_neg he, habs, hj, Int.toNat_natCast]

/-- A whole number `k` of units 2^e, where a unit is what a number of that size has in the format, keeps its magnitude. -/
theorem roundFP_exact (f : Fm) (rm : Rm) (sat : Bool) (u : Nat) (s : Bool) (k : Nat) (e : Int) (hu : u < 2 ^ 16) (hk : k ≠ 0)
    (hunit : max ((Nat.log2 k : Int) + e) f.emin = e + f.m)
    (hfit : (e + f.m - f.emin).toNat * 2 ^ f.m + k ≤ f.maxMag) :
    roundFP f rm sat u (exPow2 (if s then -(k : Int) else k) e) = ((e + f.m - f.emin).toNat * 2 ^ f.m + k + signCode f s, 0) := by
  obtain ⟨n, d, hval, hsign, hlog, b, hb, hscale⟩ := exPow2_units s k e hk
  have hquot : k * b / b = k := Nat.mul_div_cancel k (Nat.pos_of_ne_zero hb)
  have hrem : k * b % b = 0 := Nat.mul_mod_left k b
  rw [hval]
  unfold roundFP
  dsimp only
  rw [hlog, hunit, hsign, add_sub_cancel_right, hscale]
  dsimp only
  rw [hquot, hrem, roundUp_of_exact rm s k b u hb hu]
  simp [Nat.not_lt.mpr hfit, flagIf]

/-! ## FP32 (R70) -/

/-- A pattern is its sign and its magnitude. -/
theorem mag_add_signCode (f : Fm) (x : Nat) (hx : x < 2 * f.sign) : f.mag x + signCode f (f.neg x) = x := by
  have hdiv : x / f.sign < 2 := Nat.div_lt_of_lt_mul (by omega)
  have hsplit := Nat.div_add_mod x f.sign
  unfold Fm.mag Fm.neg signCode
  generalize x / f.sign = y at *
  obtain rfl | rfl : y = 0 ∨ y = 1 := by omega
  · simpa using hsplit
  · simp only [mul_one] at hsplit
    simp only [Nat.one_mod, beq_self_eq_true, if_true]
    omega

/-- A finite pattern other than a zero: its magnitude is `k` units of 2^e, which is where RoundFP puts it back. -/
theorem fp32_units (a : Nat) (ha : a ≠ 0) (hfin : a ≤ 0x7F7FFFFF) :
    let k : Nat := if a / 2 ^ 23 == 0 then a else a % 2 ^ 23 + 2 ^ 23
    let e : Int := (if a / 2 ^ 23 == 0 then 1 else ((a / 2 ^ 23 : Nat) : Int)) - 127 - 23
    k ≠ 0 ∧ max ((Nat.log2 k : Int) + e) (-126) = e + 23 ∧ (e + 23 - -126).toNat * 2 ^ 23 + k = a := by
  by_cases hsub : a / 2 ^ 23 = 0
  · have hsmall : a < 2 ^ 23 := by omega
    have hlog : Nat.log2 a < 23 := (Nat.log2_lt ha).2 hsmall
    simp only [hsub, beq_self_eq_true, if_true]
    exact ⟨ha, by omega, by norm_num⟩
  · have hlog : Nat.log2 (a % 2 ^ 23 + 2 ^ 23) = 23 := (Nat.log2_eq_iff (by omega)).2 (by omega)
    simp only [beq_iff_eq, hsub, if_false, hlog]
    exact ⟨by omega, by omega, by omega⟩

/-- Settles O6: a zero and an infinity read as themselves, and any other finite pattern as whole units of its exponent. -/
theorem fp32RoundsToItself : Obligations.Fp32RoundsToItself := by
  unfold Obligations.Fp32RoundsToItself
  intro rm u x hu hnan
  have hx : x.toNat % (2 * fmF32.sign) = x.toNat := Nat.mod_eq_of_lt x.isLt
  have hread : inFl .f32 x = (fmF32.val x.toNat, flagIf (fmF32.isSnan x.toNat) flNV) := by
    change (fmF32.val (x.toNat % (2 * fmF32.sign)), flagIf (fmF32.isSnan (x.toNat % (2 * fmF32.sign))) flNV) = _
    rw [hx]
  have hback : BitVec.ofNat 32 (fmF32.mag x.toNat + signCode fmF32 (fmF32.neg x.toNat)) = x := by
    rw [mag_add_signCode fmF32 x.toNat x.isLt, BitVec.ofNat_toNat, BitVec.setWidth_eq]
  rw [hread] at hnan ⊢
  have hnum : fmF32.isNan x.toNat = false := by
    cases h : fmF32.isNan x.toNat with
    | false => rfl
    | true => simp [Fm.val, h, Ex.isNan] at hnan
  refine ⟨by simp [Fm.isSnan, hnum, flagIf], ?_⟩
  have hmag : fmF32.mag x.toNat ≤ 0x7F800000 := by
    have hle : decide (0x7F800000 < fmF32.mag x.toNat) = false := hnum
    simpa using hle
  unfold roundFP32 Fm.val
  rw [hnum]
  generalize fmF32.mag x.toNat = a at hmag hback ⊢
  generalize fmF32.neg x.toNat = s at hback ⊢
  by_cases hinf : a = 0x7F800000
  · subst hinf
    exact congrArg (·, 0) hback
  by_cases hzero : a = 0
  · subst hzero
    rw [Nat.zero_add] at hback
    exact congrArg (·, 0) hback
  obtain ⟨hk, hunit, hsum⟩ := fp32_units a hzero (by omega)
  have hround := roundFP_exact fmF32 rm false u s _ _ hu hk hunit (hsum.le.trans (by change a ≤ 0x7F7FFFFF; omega))
  have hnotinf : (fmF32.inf == some a) = false := by
    simpa [fmF32] using fun h => hinf (Eq.symm h)
  have hnotzero : (a == 0) = false := by simpa using hzero
  simp only [Bool.false_eq_true, if_false, hnotinf, hnotzero]
  refine (congrArg (fun r : Nat × Flags => (BitVec.ofNat 32 r.1, r.2)) hround).trans ?_
  exact (congrArg (fun n => (BitVec.ofNat 32 (n + signCode fmF32 s), (0 : Flags))) hsum).trans (congrArg (·, 0) hback)

end Sys2Proof
end

section
/-! SUPPORT. What each part of the decoder accepts, as an equation of the field with the encoding of what it yields. -/

namespace Sys2Proof

open Sys2Proof.Machine Sys2Proof.Claims

/-! ## `MOD` (R61) -/

@[simp] theorem mod_eq_iff (m : BitVec 3) (n : Nat) (hn : n < 8) : m.toNat = n ↔ m = BitVec.ofNat 3 n := by
  constructor
  · rintro rfl; simp
  · rintro rfl; exact (BitVec.toNat_ofNat ..).trans (Nat.mod_eq_of_lt hn)

@[simp] theorem m01_iff (r : Raw) (b : Bool) : m01 r = .ok b ↔ r.mod = BitVec.ofNat 3 b.toNat := by
  rw [m01_ok_iff, mod_eq_iff _ _ (by cases b <;> decide)]

@[simp] theorem mIs_iff (n : Nat) (r : Raw) (u : Unit) (hn : n < 8) : mIs n r = .ok u ↔ r.mod = BitVec.ofNat 3 n := by
  rw [mIs_ok_iff, mod_eq_iff _ _ hn]

@[simp] theorem mTy_iff (ok : VTy → Bool) (r : Raw) (t : VTy) :
    mTy ok r = .ok t ↔ r.mod = BitVec.ofNat 3 t.code ∧ ok t = true := by
  rw [mTy_ok_iff, mod_eq_iff _ _ t.code_lt]

@[simp] theorem mBelow_iff (n : Nat) (r : Raw) (k : Nat) : mBelow n r = .ok k ↔ r.mod.toNat = k ∧ k < n := by
  unfold mBelow
  split
  · simp only [Except.ok.injEq]; omega
  · simp only [badMod, reduceCtorEq, false_iff]; omega

@[simp] theorem scondM_iff (r : Raw) (c : SCond) : scondM r = .ok c ↔ r.mod = BitVec.ofNat 3 c.code := by
  constructor
  · intro h
    unfold scondM at h
    split at h <;> cases h <;> exact (mod_eq_iff _ _ (by decide)).1 ‹_›
  · intro h
    unfold scondM
    rw [h]
    cases c <;> rfl

@[simp] theorem extM_iff (r : Raw) (m : ExtMode) : extM r = .ok m ↔ r.mod = BitVec.ofNat 3 m.code := by
  constructor
  · intro h
    unfold extM at h
    split at h <;> cases h <;> exact (mod_eq_iff _ _ (by decide)).1 ‹_›
  · intro h
    unfold extM
    rw [h]
    cases m <;> rfl

@[simp] theorem ldM_iff (r : Raw) (t : LdTy) : ldM r = .ok t ↔ r.mod = BitVec.ofNat 3 t.code := by
  constructor
  · intro h
    unfold ldM at h
    split at h <;> cases h <;> exact (mod_eq_iff _ _ (by decide)).1 ‹_›
  · intro h
    unfold ldM
    rw [h]
    cases t <;> rfl

@[simp] theorem stM_iff (r : Raw) (t : StTy) : stM r = .ok t ↔ r.mod = BitVec.ofNat 3 t.code := by
  constructor
  · intro h
    unfold stM at h
    split at h <;> cases h <;> exact (mod_eq_iff _ _ (by decide)).1 ‹_›
  · intro h
    unfold stM
    rw [h]
    cases t <;> rfl

@[simp] theorem aoppM_iff (r : Raw) (o : AOpP) : aoppM r = .ok o ↔ r.mod = BitVec.ofNat 3 o.code := by
  constructor
  · intro h
    unfold aoppM at h
    split at h <;> cases h <;> exact (mod_eq_iff _ _ (by decide)).1 ‹_›
  · intro h
    unfold aoppM
    rw [h]
    cases o <;> rfl

@[simp] theorem aopM_code (r : Raw) : BitVec.ofNat 3 (aopM r).code = r.mod := by
  have key : ∀ m : BitVec 3, BitVec.ofNat 3 (aopM ⟨0, m, false, 0, 0, 0, 0, 0⟩).code = m := by decide
  exact key r.mod

theorem aopM_of_mod (r : Raw) (o : AOp) (h : r.mod = BitVec.ofNat 3 o.code) : aopM r = o := by
  unfold aopM
  rw [h]
  cases o <;> rfl

@[simp] theorem lscopeM_iff (r : Raw) (c : LScope) : lscopeM 0 r.mod.toNat = some c ↔ r.mod = BitVec.ofNat 3 c.code := by
  have key : ∀ m : BitVec 3, (lscopeM 0 m.toNat = some .die ↔ m = 0) ∧ (lscopeM 0 m.toNat = some .pkg ↔ m = 1)
    ∧ (lscopeM 0 m.toNat = some .pod ↔ m = 2) := by decide
  obtain ⟨h0, h1, h2⟩ := key r.mod
  cases c
  · exact h0
  · exact h1
  · exact h2

theorem Dot4.code_lt (e : Dot4) : e.code < 8 := by cases e <;> decide
@[simp] theorem Dot4.ofCode_code (e : Dot4) : Dot4.ofCode e.code = some e := by cases e <;> rfl
theorem Dot4.code_ofCode (n : Nat) (e : Dot4) (h : Dot4.ofCode n = some e) : e.code = n := by
  unfold Dot4.ofCode at h; split at h <;> cases h <;> rfl

/-! ## Registers and sources (R53, R54) -/

@[simp] theorem dV_iff (r : Raw) (d : VR) : dV r = .ok d ↔ r.d = d.enc := dV_ok_iff ..
@[simp] theorem dVc_iff (ok : VR → Bool) (r : Raw) (d : VR) : dVc ok r = .ok d ↔ r.d = d.enc ∧ ok d = true := dVc_ok_iff ..
@[simp] theorem dS_iff (r : Raw) (d : SR) : dS r = .ok d ↔ r.d = d.enc := dS_ok_iff ..
@[simp] theorem dSc_iff (ok : SR → Bool) (r : Raw) (d : SR) : dSc ok r = .ok d ↔ r.d = d.enc ∧ ok d = true := dSc_ok_iff ..
@[simp] theorem dF_iff (r : Raw) (d : FR) : dF r = .ok d ↔ r.d = d.enc := dF_ok_iff ..
@[simp] theorem maskF_iff (f : BitVec 9) (code : Nat) (d : SR) : maskF f code = .ok d ↔ f = d.enc9 ∧ d.isMask = true :=
  maskF_ok_iff ..
@[simp] theorem chk_iff (ok : Bool) (f : Nat) (u : Unit) : chk ok f = .ok u ↔ ok = true := chk_ok_iff ..

@[simp] theorem aF_iff (cls : Src → Bool) (r : Raw) (s : Src) : aF cls r = .ok s ↔ r.a = s.enc ∧ cls s = true := srcF_ok_iff ..
@[simp] theorem bF_iff (cls : Src → Bool) (r : Raw) (s : Src) : bF cls r = .ok s ↔ r.b = s.enc ∧ cls s = true := srcF_ok_iff ..
@[simp] theorem cF_iff (cls : Src → Bool) (r : Raw) (s : Src) : cF cls r = .ok s ↔ r.c = s.enc ∧ cls s = true := srcF_ok_iff ..
@[simp] theorem nw0_iff (r : Raw) (u : Unit) : nw0 r = .ok u ↔ r.nw = false := by simp [nw0, chk_ok_iff]
@[simp] theorem dN_iff (r : Raw) (u : Unit) : dN r = .ok u ↔ r.d = 0 := by simp [dN, chk_ok_iff]
@[simp] theorem aN_iff (r : Raw) (u : Unit) : aN r = .ok u ↔ r.a = 0 := by simp [aN, chk_ok_iff]
@[simp] theorem bN_iff (r : Raw) (u : Unit) : bN r = .ok u ↔ r.b = 0 := by simp [bN, chk_ok_iff]
@[simp] theorem cN_iff (r : Raw) (u : Unit) : cN r = .ok u ↔ r.c = 0 := by simp [cN, chk_ok_iff]
@[simp] theorem xN_iff (r : Raw) (u : Unit) : xN r = .ok u ↔ r.x = 0 := by simp [xN, chk_ok_iff]

/-! ## `X` (R59, R60, R98, R144, R166, R188) -/

theorem x_eq_ofNat (x : BitVec 16) (n : Nat) (h : x.toNat = n) : x = BitVec.ofNat 16 n := by subst h; simp

theorem extract_eq_zero (x : BitVec 16) (s l : Nat) : x.extractLsb' s l = 0 ↔ x.toNat / 2 ^ s % 2 ^ l = 0 := by
  rw [← toNat_extract, ← BitVec.toNat_inj]
  rfl

@[simp] theorem fieldF_iff (r : Raw) (lo w : BitVec 5) : fieldF r = .ok (lo, w) ↔ r.x = fieldX lo w ∧ fieldFits lo w = true := by
  have hlo := lo.isLt; have hw := w.isLt; have hx := r.x.isLt
  simp only [fieldF]
  constructor
  · intro h
    split at h
    · rename_i hc
      simp only [Bool.and_eq_true, beq_iff_eq] at hc
      have hz := (extract_eq_zero _ _ _).1 hc.1
      cases h
      refine ⟨x_eq_ofNat _ _ ?_, hc.2⟩
      simp only [toNat_extract]
      norm_num only at *
      omega
    · cases h
  · rintro ⟨h, hf⟩
    have hn : r.x.toNat = lo.toNat + w.toNat * 32 := by
      rw [h, fieldX, BitVec.toNat_ofNat]; norm_num only at *; omega
    have h1 : r.x.extractLsb' 0 5 = lo := by
      apply BitVec.eq_of_toNat_eq; rw [toNat_extract]; norm_num only at *; omega
    have h2 : r.x.extractLsb' 5 5 = w := by
      apply BitVec.eq_of_toNat_eq; rw [toNat_extract]; norm_num only at *; omega
    have h3 : r.x.extractLsb' 10 6 = 0 := by rw [extract_eq_zero]; norm_num only at *; omega
    simp [h1, h2, h3, hf]

@[simp] theorem xmF_iff (hi : Nat) (ok : Xm → Bool) (r : Raw) (m : Xm) (hhi : hi < 256) :
    xmF hi ok r = .ok m ↔ r.x = m.enc hi ∧ ok m = true := xmF_ok_iff hi ok r m hhi

/-- The immediate of an address, with the class that its space gives the base (R166, R167). -/
def baseOk (c : BitVec 9) (a : Src) : Bool := if c.extractLsb' 7 2 == 1 then a.sz else a.sp

theorem baseOk_encC (i : I25) (a : Src) : baseOk i.encC a = i.base a := by
  cases i with
  | spad scale ord disp =>
    have h : (I25.spad scale ord disp).encC.extractLsb' 7 2 = 1 := by
      have h1 := scale.isLt; have h2 := disp.isLt
      have h3 : ord.toNat < 2 := by cases ord <;> decide
      apply BitVec.eq_of_toNat_eq
      show _ = 1
      simp only [toNat_extract, I25.encC, BitVec.toNat_ofNat]
      norm_num only at *
      omega
    simp [baseOk, h, I25.base]
  | glob hay scale col ord scope disp =>
    have h : (I25.glob hay scale col ord scope disp).encC.extractLsb' 7 2 ≠ 1 := by
      intro hc
      have h1 := scale.isLt; have h2 := col.isLt; have h3 := ord.isLt
      have hc := congrArg BitVec.toNat hc
      change _ = 1 at hc
      cases hay <;>
      · simp only [toNat_extract, I25.encC, BitVec.toNat_ofNat] at hc
        norm_num only at *
        simp only [Bool.false_eq_true, if_false, if_true] at hc
        omega
    rw [baseOk, if_neg (by rwa [beq_iff_eq])]
    rfl

@[simp] theorem mbF_iff (r : Raw) (a : Src) : mbF r = .ok a ↔ r.a = a.enc ∧ baseOk r.c a = true := by
  unfold mbF baseOk
  rw [aF_iff]
  split <;> rfl

@[simp] theorem i25F_iff (rule : MemRule) (r : Raw) (i : I25) :
    i25F rule r = .ok i ↔ r.c = i.encC ∧ r.x = i.encX ∧ i.ok rule = true := by
  unfold i25F
  constructor
  · intro h
    split at h
    · rename_i j hj
      split at h
      · cases h
        obtain ⟨hc, hx⟩ := I25.enc_dec _ _ _ hj
        exact ⟨hc.symm, hx.symm, ‹_›⟩
      · cases h
    · cases h
  · rintro ⟨hc, hx, ho⟩
    simp [hc, hx, ho]

@[simp] theorem bbF_iff (r : Raw) (b : Blk) :
    bbF r = .ok b ↔ r.a = b.base.enc ∧ b.ok = true ∧ r.x.getLsbD 15 = b.bsp ∧ r.x.extractLsb' 0 12 = b.disp := by
  unfold bbF
  constructor
  · intro h
    cases ha : aF (if r.x.getLsbD 15 then Src.sz else Src.sp) r with
    | error e => rw [ha] at h; cases h
    | ok a =>
      rw [ha] at h
      cases h
      obtain ⟨hr, hc⟩ := (aF_iff _ _ _).1 ha
      refine ⟨hr, ?_, rfl, rfl⟩
      simp only [Blk.ok]
      split at hc <;> simp_all
  · rintro ⟨hr, ho, hs, hd⟩
    have ha : aF (if r.x.getLsbD 15 then Src.sz else Src.sp) r = .ok b.base := by
      rw [aF_iff, hs]
      refine ⟨hr, ?_⟩
      simp only [Blk.ok] at ho
      split at ho <;> simp_all
    rw [ha, hs, hd]
    rfl

@[simp] theorem blkX_iff (slot : Bool) (r : Raw) (s : BitVec 2) :
    blkX slot r = .ok s ↔ r.x.getLsbD 12 = false ∧ r.x.extractLsb' 13 2 = s ∧ (slot = true ∨ s = 0) := by
  unfold blkX
  split
  · rename_i h
    simp only [Bool.or_eq_true, Bool.and_eq_true, Bool.not_eq_true', bne_iff_ne] at h
    simp only [reduceCtorEq, false_iff]
    rintro ⟨h12, rfl, hs⟩
    rcases h with h | ⟨h1, h2⟩
    · exact absurd h (by rw [h12]; decide)
    · rcases hs with hs | hs
      · simp [hs] at h1
      · exact h2 hs
  · rename_i h
    simp only [Bool.or_eq_true, Bool.and_eq_true, Bool.not_eq_true', bne_iff_ne, not_or, not_and, not_not,
      Bool.not_eq_true] at h
    simp only [Except.ok.injEq]
    constructor
    · rintro rfl
      exact ⟨h.1, rfl, by cases hs : slot <;> simp_all⟩
    · exact fun h => h.2.1

/-- `X` of a block form, put together from its parts. -/
theorem Blk.x_eq (x : BitVec 16) (b : Blk) (s : BitVec 2) (h15 : x.getLsbD 15 = b.bsp) (hs : x.extractLsb' 13 2 = s)
    (h12 : x.getLsbD 12 = false) (hd : x.extractLsb' 0 12 = b.disp) : b.x s = x := by
  have hx := x.isLt
  have b15 := bit_toNat x 15; have b12 := bit_toNat x 12
  have e13 := toNat_extract x 13 2; have e0 := toNat_extract x 0 12
  rw [h15] at b15; rw [h12, Bool.toNat_false] at b12; rw [hs] at e13; rw [hd] at e0
  refine (x_eq_ofNat _ _ ?_).symm
  norm_num only at *
  omega

@[simp] theorem accX_iff (r : Raw) (s : BitVec 2) : accX r = .ok s ↔ r.x = encAcc s 0 := by
  have hx := r.x.isLt; have hs := s.isLt
  have b15 := bit_toNat r.x 15
  have e13 := toNat_extract r.x 13 2
  unfold accX
  constructor
  · intro h
    split at h
    · cases h
    · rename_i hc
      simp only [Bool.or_eq_true, bne_iff_ne, not_or, Bool.not_eq_true, not_not, extract_eq_zero] at hc
      cases h
      rw [hc.1, Bool.toNat_false] at b15
      refine x_eq_ofNat _ _ ?_
      rw [e13]
      norm_num only at *
      omega
  · intro h
    have hn : r.x.toNat = s.toNat * 8192 := by rw [h, encAcc, BitVec.toNat_ofNat]; norm_num only at *; omega
    have h15 : r.x.getLsbD 15 = false := bool_eq_of_toNat (by rw [b15, Bool.toNat_false]; norm_num only at *; omega)
    have h0 : r.x.extractLsb' 0 13 = 0 := by rw [extract_eq_zero]; norm_num only at *; omega
    have h2 : r.x.extractLsb' 13 2 = s := BitVec.eq_of_toNat_eq (by rw [e13]; norm_num only at *; omega)
    rw [h15, h0, h2]
    rfl

theorem Member.mall_div (x : BitVec 16) : x.toNat / 32768 = (x.getLsbD 15).toNat := by
  have := x.isLt
  rw [bit_toNat]
  norm_num only at *
  omega

@[simp] theorem memberF_iff (r : Raw) (m : Member) :
    memberF r = .ok m ↔ r.x.toNat / 32768 = m.mall ∧ r.c = m.encC ∧ m.ok = true := by
  rw [Member.mall_div]
  unfold memberF
  cases h : r.x.getLsbD 15 <;> cases m <;>
    simp only [Bool.false_eq_true, if_false, if_true, Member.mall, Member.encC, Member.ok, Bool.toNat_false, Bool.toNat_true]
  · simp only [bind, Except.bind]; split <;> simp
  · simp only [bind, Except.bind]
    split
    · rename_i e he
      simp only [reduceCtorEq, false_iff]
      rintro ⟨-, hc⟩
      rw [(maskF_iff _ _ _).2 hc] at he
      cases he
    · rename_i c hc
      simp only [Except.ok.injEq, Member.triple.injEq, true_and, ← maskF_iff r.c 9, hc]
  · simp only [bind, Except.bind]
    split
    · rename_i e he
      simp only [reduceCtorEq, false_iff, true_and, and_true]
      exact fun hc => by rw [(cN_iff _ ()).2 hc] at he; cases he
    · rename_i u hu
      simp only [true_iff, true_and, and_true]
      exact (cN_iff _ _).1 hu
  · simp only [bind, Except.bind]; split <;> simp

theorem ite_ok_iff {α : Type} (c : Prop) [Decidable c] (a b : α) (e : Reject) :
    (if c then (.ok a : Dec α) else .error e) = .ok b ↔ c ∧ a = b := by
  by_cases hc : c <;> simp [hc]

@[simp] theorem laneXF_iff (useG useArg : Bool) (r : Raw) (g : BitVec 3) (k : BitVec 8) :
    laneXF useG useArg r = .ok (g, k) ↔ r.x.toNat % 32768 = g.toNat * 256 + k.toNat
      ∧ (if useG then segOk g else g == 0) = true ∧ (useArg || k == 0) = true := by
  have hg := g.isLt; have hk := k.isLt; have hx := r.x.isLt
  have e8 := toNat_extract r.x 8 3; have e0 := toNat_extract r.x 0 8
  unfold laneXF
  rw [ite_ok_iff, Bool.and_eq_true, Bool.and_eq_true, beq_iff_eq, extract_eq_zero, Prod.mk.injEq]
  constructor
  · rintro ⟨⟨⟨hz, h1⟩, h2⟩, rfl, rfl⟩
    refine ⟨?_, h1, h2⟩
    norm_num only at *
    omega
  · rintro ⟨hn, h1, h2⟩
    have h8 : r.x.extractLsb' 8 3 = g := BitVec.eq_of_toNat_eq (by rw [e8]; norm_num only at *; omega)
    have h0 : r.x.extractLsb' 0 8 = k := BitVec.eq_of_toNat_eq (by rw [e0]; norm_num only at *; omega)
    rw [h8, h0]
    refine ⟨⟨⟨?_, h1⟩, h2⟩, rfl, rfl⟩
    norm_num only at *
    omega

@[simp] theorem scanXF_iff (t : VTy) (scan : Bool) (r : Raw) (op : Cop) (e : Bool) (g : BitVec 3) (m : Xm) :
    scanXF t scan r = .ok (op, e, g, m) ↔
      r.x.toNat % 32768 = e.toNat * 16384 + op.code * 2048 + g.toNat * 256 + (m.sat.toNat * 8 + m.rm.code)
      ∧ (scan || !e) = true ∧ segOk g = true ∧ scanOk t op m = true := by
  have hg := g.isLt; have hx := r.x.isLt; have hm := m.rm.code_lt; have ho := op.code_lt
  have hs : m.sat.toNat < 2 := by cases m.sat <;> decide
  have he : e.toNat < 2 := by cases e <;> decide
  have e8 := toNat_extract r.x 8 3; have e11 := toNat_extract r.x 11 3
  have b3 := bit_toNat r.x 3; have b14 := bit_toNat r.x 14
  unfold scanXF
  constructor
  · intro h
    split at h
    · rename_i op' rm hop hrm
      have hcop := Cop.code_ofCode _ _ hop
      have hcrm := Rm.code_ofCode _ _ hrm
      simp only at h
      split at h
      · rename_i hc
        simp only [Bool.and_eq_true, beq_iff_eq, extract_eq_zero] at hc
        obtain ⟨⟨⟨h1, h2⟩, h3⟩, h4⟩ := hc
        cases h
        refine ⟨?_, h1, h2, h4⟩
        norm_num only at *
        omega
      · cases h
    · cases h
  · rintro ⟨hn, h1, h2, h3⟩
    have h11 : (r.x.extractLsb' 11 3).toNat = op.code := by rw [e11]; norm_num only at *; omega
    have h8 : r.x.toNat % 8 = m.rm.code := by omega
    have h83 : r.x.extractLsb' 8 3 = g := BitVec.eq_of_toNat_eq (by rw [e8]; norm_num only at *; omega)
    have hb3 : r.x.getLsbD 3 = m.sat := bool_eq_of_toNat (by rw [b3]; norm_num only at *; omega)
    have hb14 : r.x.getLsbD 14 = e := bool_eq_of_toNat (by rw [b14]; norm_num only at *; omega)
    have h44 : r.x.extractLsb' 4 4 = 0 := by rw [extract_eq_zero]; norm_num only at *; omega
    have h3' : scanOk t op ⟨m.sat, m.rm⟩ = true := h3
    simp only [h11, h8, Cop.ofCode_code, Rm.ofCode_code, h83, hb3, hb14, h44, h1, h2, h3', BEq.rfl, Bool.and_self, if_true]

/-- `X` of a cross-lane word, put together from its member bit and the rest (R144). -/
theorem laneX_eq (x : BitVec 16) (m : Member) (e : Bool) (cop g arg : Nat) (hm : x.toNat / 32768 = m.mall)
    (hl : x.toNat % 32768 = e.toNat * 16384 + cop * 2048 + g * 256 + arg) : laneX m e cop g arg = x := by
  refine (x_eq_ofNat _ _ ?_).symm
  omega

/-! ## What a decoder yields is well-formed and has the fields decoded -/

/-- `r` holds the fields of the well-formed instruction `i`. -/
def Encodes (r : Raw) (i : Instr) : Prop := fieldsOf i = some r ∧ i.wf = true

theorem mk_eq_iff (op mod : Nat) (nw : Bool) (d : BitVec 8) (a b c : BitVec 9) (x : BitVec 16) (r : Raw) :
    mk op mod nw d a b c x = r ↔ r.op.toNat = op % 256 ∧ r.mod = BitVec.ofNat 3 mod ∧ r.nw = nw ∧ r.d = d ∧ r.a = a
      ∧ r.b = b ∧ r.c = c ∧ r.x = x := by
  have hop (o : BitVec 8) : BitVec.ofNat 8 op = o ↔ o.toNat = op % 256 := by
    rw [← BitVec.toNat_inj, BitVec.toNat_ofNat, eq_comm]
  obtain ⟨⟩ := r
  simp only [mk, Raw.mk.injEq, hop]
  simp only [eq_comm]

end Sys2Proof
end

section
/-! SUPPORT. Encodings put together again from their parts, and what each field reader yields on encoded fields. -/

namespace Sys2Proof

open Sys2Proof.Machine Sys2Proof.Claims

/-! ## Encodings that are put together again -/

@[simp] theorem Xm.enc_rne (m : Xm) (hi : Nat) (h : m.rm = .rne) : Xm.enc ⟨m.sat, .rne⟩ hi = m.enc hi := by rw [← h]

@[simp] theorem Xm.enc_unsat (m : Xm) (hi : Nat) (h : m.sat = false) : Xm.enc ⟨false, m.rm⟩ hi = m.enc hi := by rw [← h]

@[simp] theorem Xm.enc_rm (m : Xm) (h : m.sat = false) : BitVec.ofNat 16 m.rm.code = m.enc 0 := by simp [Xm.enc, h]

@[simp] theorem alu_mod_reg (m : BitVec 3) (h1 : m[1] = false) (h2 : m[2] = false) : BitVec.ofNat 3 m[0].toNat = m := by
  revert m; decide

@[simp] theorem alu_mod_imm (m : BitVec 3) (h1 : m[1] = false) (h2 : m[2] = true) : BitVec.ofNat 3 (4 + m[0].toNat) = m := by
  revert m; decide

@[simp] theorem ofNat_toNat_mod {w : Nat} (x : BitVec w) (n : Nat) (h : x.toNat < n) : BitVec.ofNat w (x.toNat % n) = x := by
  rw [Nat.mod_eq_of_lt h, BitVec.ofNat_toNat, BitVec.setWidth_eq]

theorem Ty.code_lt_of_isFloat (t : Ty) (h : t.isFloat = true) : t.code < 8 := by revert h; cases t <;> decide

@[simp] theorem mClass_iff (r : Raw) (t : Ty) : mClass r = .ok t ↔ r.mod = BitVec.ofNat 3 t.code ∧ t.isFloat = true := by
  unfold mClass
  constructor
  · intro h
    split at h
    · rename_i t' ht
      split at h
      · cases h
        exact ⟨(mod_eq_iff _ _ (Ty.code_lt_of_isFloat _ ‹_›)).1 (Ty.code_ofCode _ _ ht).symm, ‹_›⟩
      · cases h
    · cases h
  · rintro ⟨h, ht⟩
    have hn := (mod_eq_iff _ _ (Ty.code_lt_of_isFloat t ht)).2 h
    simp only [hn, Ty.ofCode_code, ht, if_true]

/-- The 25 bits of a vector immediate are `C`:`X` (R123). -/
theorem vmovi_fields (c : BitVec 9) (x : BitVec 16) :
    c = BitVec.ofNat 9 ((BitVec.ofNat 25 (c.toNat * 65536 + x.toNat)).toNat / 65536)
      ∧ x = (BitVec.ofNat 25 (c.toNat * 65536 + x.toNat)).extractLsb' 0 16 := by
  have hc := c.isLt; have hx := x.isLt
  constructor <;> apply BitVec.eq_of_toNat_eq <;> simp only [toNat_extract, BitVec.toNat_ofNat] <;>
    norm_num only at * <;> omega

/-! ## Field shapes shared by several opcodes -/

theorem dec_bind_eq_ok {α β : Type} (y : Dec α) (f : α → Dec β) (z : β) :
    (y >>= f) = .ok z ↔ ∃ v, y = .ok v ∧ f v = .ok z := by
  cases y with
  | error e => simp [bind, Except.bind]
  | ok v => simp [bind, Except.bind]

@[simp] theorem mFl_iff (r : Raw) (t : VTy) : mFl r = .ok t ↔ r.mod = BitVec.ofNat 3 t.code ∧ t.isFloat = true := mTy_iff ..

@[simp] theorem vab_iff (r : Raw) (d : VR) (a b : Src) :
    vab r = .ok (d, a, b) ↔ r.d = d.enc ∧ (r.a = a.enc ∧ a.gv = true) ∧ (r.b = b.enc ∧ b.gv = true) ∧ r.c = 0 := by
  simp [vab, dec_bind_eq_ok, and_assoc]

@[simp] theorem vb_iff (cls : Src → Bool) (r : Raw) (d : VR) (b : Src) :
    vb cls r = .ok (d, b) ↔ r.d = d.enc ∧ r.a = 0 ∧ (r.b = b.enc ∧ cls b = true) ∧ r.c = 0 := by
  simp [vb, dec_bind_eq_ok, and_assoc]

@[simp] theorem vabc_iff (r : Raw) (d : VR) (a b z : Src) :
    vabc r = .ok (d, a, b, z) ↔
      r.d = d.enc ∧ (r.a = a.enc ∧ a.gv = true) ∧ (r.b = b.enc ∧ b.gv = true) ∧ r.c = z.enc ∧ z.gv = true := by
  simp [vabc, dec_bind_eq_ok, and_assoc]

/-! ## Codes in `X` -/

theorem bit_eq_iff (x : BitVec 16) (i : Nat) (v : Bool) : x.getLsbD i = v ↔ x.toNat / 2 ^ i % 2 = v.toNat := by
  rw [← bit_toNat]
  exact ⟨congrArg Bool.toNat, bool_eq_of_toNat⟩

/-- A code of `l` bits in `X` from bit 8, the rest of `X` zero. -/
theorem codeX_iff (x : BitVec 16) (k s l n : Nat) (hs : 8 + l = s) (hn : s + n = 16) (hk : k < 2 ^ l) :
    x = BitVec.ofNat 16 (k * 256) ↔ x.extractLsb' s n = 0 ∧ x.extractLsb' 0 8 = 0 ∧ (x.extractLsb' 8 l).toNat = k := by
  have hx := x.isLt
  have hl : l ≤ 8 := by omega
  obtain rfl : n = 8 - l := by omega
  subst hs
  rw [extract_eq_zero, extract_eq_zero, toNat_extract, ← BitVec.toNat_inj, BitVec.toNat_ofNat]
  interval_cases l <;> norm_num only at * <;> omega

theorem Xm.enc_hi (m : Xm) (k l : Nat) (hl : l ≤ 8) (hk : k < 2 ^ l) : ((m.enc k).extractLsb' 8 l).toNat = k := by
  have hm := m.rm.code_lt
  have hs : m.sat.toNat < 2 := by cases m.sat <;> decide
  rw [toNat_extract, Xm.enc, BitVec.toNat_ofNat]
  interval_cases l <;> norm_num only at * <;> omega

end Sys2Proof
end

section
/-! SUPPORT. What the scalar and control rows of the decoder yield is well-formed and has the fields decoded (R97-R101). -/

namespace Sys2Proof

open Sys2Proof.Machine Sys2Proof.Claims

/-! ## Rows 0x00 and 0x10 -/

theorem row0_encodes (lo : Nat) (r : Raw) (hlo : lo < 16) (hop : r.op.toNat = 0x00 + lo) : Yields (Encodes r) (row0 lo r) := by
  unfold row0
  split
  case h_16 =>
    obtain rfl : lo = 15 := by simp only [imp_false] at *; omega
    simp +contextual [Encodes, fieldsOf.eq_def, Instr.wf.eq_def, mk_eq_iff, hop]
  all_goals simp +contextual [alu, encAlu, Alu2.ok, Encodes, fieldsOf.eq_def, Instr.wf.eq_def, mk_eq_iff, hop]

theorem maskWord_encodes (r : Raw) (hop : r.op.toNat = 0x1D) : Yields (Encodes r) (maskWord r) := by
  unfold maskWord
  split
  case h_7 => exact yields_badMod
  all_goals
    rename_i hm
    replace hm := (mod_eq_iff _ _ (by decide)).1 hm
    simp +contextual [Encodes, fieldsOf.eq_def, Instr.wf.eq_def, mk_eq_iff, hop, hm, encMaskOp, MaskOp.ok, MaskOp.nwOk]

/-- The 32 bits of an immediate are `B`[6:0]:`C`:`X` (R98). -/
theorem imm32_fields (r : Raw) (h : r.b.toNat < 128) :
    r.b = BitVec.ofNat 9 ((r.i34.extractLsb' 0 32).toNat / 2 ^ 25) ∧ r.c = (r.i34.extractLsb' 0 32).extractLsb' 16 9
      ∧ r.x = (r.i34.extractLsb' 0 32).extractLsb' 0 16 := by
  have hb := r.b.isLt; have hc := r.c.isLt; have hx := r.x.isLt
  refine ⟨?_, ?_, ?_⟩ <;> apply BitVec.eq_of_toNat_eq <;>
    simp only [Raw.i34, toNat_extract, BitVec.toNat_ofNat] <;> norm_num only at * <;> omega

theorem smovi_encodes (r : Raw) (d : SR) (hop : r.op.toNat = 0x10) (hm : r.mod = 0) (hd : r.d = d.enc) (ha : r.a = 0)
    (hb : r.b.toNat < 128) : Encodes r (.smovi r.nw d (r.i34.extractLsb' 0 32)) := by
  obtain ⟨h1, h2, h3⟩ := imm32_fields r hb
  exact ⟨congrArg some ((mk_eq_iff ..).2 ⟨hop, hm, rfl, hd, ha, h1, h2, h3⟩), rfl⟩

theorem row1_encodes (lo : Nat) (r : Raw) (hop : r.op.toNat = 0x10 + lo) : Yields (Encodes r) (row1 lo r) := by
  unfold row1
  split
  case h_1 =>
    split
    case h_3 => exact yields_badMod
    all_goals
      rename_i hm
      replace hm := (mod_eq_iff _ _ (by decide)).1 hm
    case h_1 =>
      simp only [yields_bind, dS_iff, aN_iff, chk_iff, yields_ok, decide_eq_true_eq]
      exact fun d hd _ ha _ hb => smovi_encodes r d hop hm hd ha hb
    case h_2 =>
      simp +contextual [Encodes, fieldsOf.eq_def, Instr.wf.eq_def, mk_eq_iff, hop, hm, i34b_i34, i34c_i34, i34x_i34]
  case h_8 =>
    split
    case h_4 => exact yields_badMod
    all_goals
      rename_i hm
      replace hm := (mod_eq_iff _ _ (by decide)).1 hm
      simp +contextual [Encodes, fieldsOf.eq_def, Instr.wf.eq_def, mk_eq_iff, hop, hm]
  case h_9 =>
    split
    case h_1 =>
      rename_i hm
      replace hm := (mod_eq_iff _ _ (by decide)).1 hm
      simp +contextual [Encodes, fieldsOf.eq_def, Instr.wf.eq_def, mk_eq_iff, hop, hm, i34b_i34, i34c_i34, i34x_i34]
    case h_2 => simp +contextual [Encodes, fieldsOf.eq_def, Instr.wf.eq_def, mk_eq_iff, hop]
  case h_10 =>
    simp +contextual [Encodes, fieldsOf.eq_def, Instr.wf.eq_def, mk_eq_iff, hop]
    intros
    tauto
  case h_14 => exact maskWord_encodes r hop
  all_goals simp +contextual [s1, sab, Encodes, fieldsOf.eq_def, Instr.wf.eq_def, mk_eq_iff, hop]

/-! ## Row 0x20 -/

/-- The 18 bits of a branch's displacement are `B`:`C` (R104). -/
theorem brv_fields (b c : BitVec 9) :
    b = BitVec.ofNat 9 ((BitVec.ofNat 18 (b.toNat * 512 + c.toNat)).toNat / 512)
      ∧ c = BitVec.ofNat 9 ((BitVec.ofNat 18 (b.toNat * 512 + c.toNat)).toNat % 512) := by
  have hb := b.isLt; have hc := c.isLt
  constructor <;> apply BitVec.eq_of_toNat_eq <;> simp only [BitVec.toNat_ofNat] <;> norm_num only at * <;> omega

theorem brv_encodes (r : Raw) (n : Bool) (a : SR) (hop : r.op.toNat = 0x20) (hm : r.mod = BitVec.ofNat 3 n.toNat)
    (hn : r.nw = false) (hd : r.d = 0) (ha : r.a = a.enc9 ∧ a.isMask = true) :
    Encodes r (.brv n a (BitVec.ofNat 18 (r.b.toNat * 512 + r.c.toNat)) r.x) := by
  obtain ⟨h1, h2⟩ := brv_fields r.b r.c
  exact ⟨congrArg some ((mk_eq_iff ..).2 ⟨hop, hm, hn, hd, ha.1, h1, h2, rfl⟩), ha.2⟩

theorem row2_encodes (lo : Nat) (r : Raw) (hlo : lo < 16) (hop : r.op.toNat = 0x20 + lo) : Yields (Encodes r) (row2 lo r) := by
  unfold row2
  split
  case h_1 =>
    simp only [yields_bind, m01_iff, nw0_iff, dN_iff, maskF_iff, yields_ok]
    exact fun n hm _ hn _ hd a ha => brv_encodes r n a hop hm hn hd ha
  case h_2 => simp +contextual [Encodes, fieldsOf.eq_def, Instr.wf.eq_def, mk_eq_iff, hop, i34b_i34, i34c_i34, i34x_i34]
  case h_4 =>
    split
    case h_3 => exact yields_badMod
    all_goals
      rename_i hm
      replace hm := (mod_eq_iff _ _ (by decide)).1 hm
      simp +contextual [Encodes, fieldsOf.eq_def, Instr.wf.eq_def, mk_eq_iff, hop, hm, i34b_i34, i34c_i34, i34x_i34]
  case h_8 =>
    simp only [yields_bind, m01_iff]
    intro n
    cases n <;> simp +contextual [bare, Encodes, fieldsOf.eq_def, Instr.wf.eq_def, mk_eq_iff, hop]
  case h_9 =>
    dsimp only
    split
    case h_5 => exact yields_badMod
    all_goals
      rename_i hm
      replace hm := (mod_eq_iff _ _ (by decide)).1 hm
      simp +contextual [Encodes, fieldsOf.eq_def, Instr.wf.eq_def, mk_eq_iff, hop, hm]
  case h_12 =>
    split
    case h_2 => exact yields_badMod
    case h_1 sc hm =>
      replace hm := (lscopeM_iff _ _).1 hm
      simp +contextual [Encodes, fieldsOf.eq_def, Instr.wf.eq_def, mk_eq_iff, hop, hm]
  case h_16 =>
    obtain rfl : lo = 15 := by simp only [imp_false] at *; omega
    simp +contextual [bare, Encodes, fieldsOf.eq_def, Instr.wf.eq_def, mk_eq_iff, hop]
  all_goals simp +contextual [bare, target, Encodes, fieldsOf.eq_def, Instr.wf.eq_def, mk_eq_iff, hop]

end Sys2Proof
end

section
/-! SUPPORT. What the vector rows of the decoder yield is well-formed and has the fields decoded (R121-R137). -/

namespace Sys2Proof

open Sys2Proof.Machine Sys2Proof.Claims

/-! ## Codes in `X` -/

theorem VCond.code_lt (cc : VCond) : cc.code < 2 ^ 3 := by cases cc <;> decide
theorem HTy.code_lt (t : HTy) : t.code < 2 ^ 4 := by cases t <;> decide
theorem QTy.code_lt (t : QTy) : t.code < 2 ^ 4 := by cases t <;> decide

@[simp] theorem VCond.ofCode_code (cc : VCond) : VCond.ofCode cc.code = some cc := by cases cc <;> rfl
@[simp] theorem HTy.ofCode_code (t : HTy) : HTy.ofCode t.code = some t := by cases t <;> rfl
@[simp] theorem QTy.ofCode_code (t : QTy) : QTy.ofCode t.code = some t := by cases t <;> rfl

theorem VCond.code_ofCode (n : Nat) (cc : VCond) (h : VCond.ofCode n = some cc) : cc.code = n := by
  unfold VCond.ofCode at h; split at h <;> cases h <;> rfl
theorem HTy.code_ofCode (n : Nat) (t : HTy) (h : HTy.ofCode n = some t) : t.code = n := by
  unfold HTy.ofCode at h; split at h <;> cases h <;> rfl
theorem QTy.code_ofCode (n : Nat) (t : QTy) (h : QTy.ofCode n = some t) : t.code = n := by
  unfold QTy.ofCode at h; split at h <;> cases h <;> rfl

/-! ## Rows 0x30 and 0x40 -/

theorem row3_encodes (lo : Nat) (r : Raw) (hlo : lo < 16) (hop : r.op.toNat = 0x30 + lo) : Yields (Encodes r) (row3 lo r) := by
  unfold row3
  split
  case h_16 =>
    obtain rfl : lo = 15 := by simp only [imp_false] at *; omega
    simp +contextual [bit2, Encodes, fieldsOf.eq_def, Instr.wf.eq_def, mk_eq_iff, hop]
  all_goals
    simp +contextual [su2, arith2, minmax, absneg, bit2, Encodes, fieldsOf.eq_def, Instr.wf.eq_def, mk_eq_iff,
      hop]

theorem vmovi_wf (t : VTy) (b : BitVec 9) (x : BitVec 16) (nw : Bool) (d : VR)
    (h : ((t != .f16 && t != .bf16) || b == 0) = true) :
    (Instr.vmovi t nw d (BitVec.ofNat 25 (b.toNat * 65536 + x.toNat))).wf = true := by
  have hx := x.isLt
  simp only [Bool.or_eq_true, beq_iff_eq] at h
  simp only [Instr.wf.eq_def, Bool.or_eq_true, decide_eq_true_eq]
  exact h.imp_right fun hb => by rw [hb, BitVec.toNat_ofNat, show (0 : BitVec 9).toNat = 0 from rfl]; norm_num only at *; omega

theorem row4_encodes (lo : Nat) (r : Raw) (hop : r.op.toNat = 0x40 + lo) : Yields (Encodes r) (row4 lo r) := by
  unfold row4
  split
  case h_6 =>
    simp only [yields_bind, mTy_iff, nw0_iff, dSc_iff, aF_iff, bF_iff, cN_iff]
    intro t ht _ hnw d hd a ha b hb _ hc
    split
    case h_2 => exact yields_error _
    case h_1 cc hcc =>
      simp only [yields_bind, chk_iff, yields_ok, Bool.and_eq_true, beq_iff_eq]
      rintro _ ⟨⟨h11, h0⟩, hun⟩
      have hx := (codeX_iff r.x _ 11 3 5 rfl rfl cc.code_lt).2 ⟨h11, h0, (VCond.code_ofCode _ _ hcc).symm⟩
      refine ⟨congrArg some ((mk_eq_iff ..).2 ⟨hop, ht.1, hnw, hd.1, ha.1, hb.1, hc, hx⟩), ?_⟩
      simp [Instr.wf.eq_def, hd.2, ha.2, hb.2, hun]
  case h_8 =>
    simp only [yields_bind, mTy_iff, dV_iff, aN_iff, bN_iff, chk_iff, yields_ok]
    intro t ht d hd _ ha _ hb _ hc
    obtain ⟨h1, h2⟩ := vmovi_fields r.c r.x
    exact ⟨congrArg some ((mk_eq_iff ..).2 ⟨hop, ht.1, rfl, hd, ha, hb, h1, h2⟩), vmovi_wf t r.c r.x r.nw d hc⟩
  case h_9 =>
    split
    case h_2 => exact yields_badMod
    case h_1 e he =>
      have hm := (mod_eq_iff _ _ e.code_lt).1 (Dot4.code_ofCode _ _ he).symm
      cases e <;> simp +contextual [Dot4.isFloat, Encodes, fieldsOf.eq_def, Instr.wf.eq_def, mk_eq_iff, hop, hm]
  all_goals simp +contextual [su2, Encodes, fieldsOf.eq_def, Instr.wf.eq_def, mk_eq_iff, hop]

/-! ## Rows 0x50 and 0x60 -/

theorem row5_encodes (lo : Nat) (r : Raw) (hlo : lo < 16) (hop : r.op.toNat = 0x50 + lo) : Yields (Encodes r) (row5 lo r) := by
  unfold row5
  split
  case h_9 =>
    simp only [yields_bind, Prod.forall, mFl_iff, vab_iff]
    rintro t ⟨hm, ht⟩ d a b ⟨hd, ⟨ha, hag⟩, ⟨hb, hbg⟩, hc⟩
    split
    case h_4 => exact yields_error _
    all_goals
      rename_i hx
      exact (yields_ok _).2 ⟨congrArg some ((mk_eq_iff ..).2 ⟨hop, hm, rfl, hd, ha, hb, hc, x_eq_ofNat _ _ hx⟩),
        by simp [Instr.wf.eq_def, ht, hag, hbg]⟩
  case h_12 | h_13 =>
    simp only [seg1, yields_bind, mFl_iff, dV_iff, aF_iff, bN_iff, cN_iff, chk_iff, yields_ok, Bool.and_eq_true, beq_iff_eq]
    rintro t ⟨hm, ht⟩ d hd a ⟨ha, hag⟩ _ hb _ hc _ ⟨⟨h11, hg⟩, h0⟩
    have hx := (codeX_iff r.x _ 11 3 5 rfl rfl (BitVec.isLt _)).2 ⟨h11, h0, rfl⟩
    exact ⟨congrArg some ((mk_eq_iff ..).2 ⟨hop, hm, rfl, hd, ha, hb, hc, hx⟩), by simp [Instr.wf.eq_def, ht, hag, hg]⟩
  case h_14 =>
    simp only [yields_bind, mFl_iff, dV_iff, aF_iff, bN_iff, cN_iff, yields_ok]
    rintro t ⟨hm, ht⟩ d hd a ⟨ha, hag⟩ _ hb _ hc m hx
    have hg := (r.x.extractLsb' 8 3).isLt
    rw [xmF_iff _ _ _ _ (by omega)] at hx
    exact ⟨congrArg some ((mk_eq_iff ..).2 ⟨hop, hm, rfl, hd, ha, hb, hc, hx.1⟩), by simp [Instr.wf.eq_def, ht, hag, hx.2]⟩
  case h_16 =>
    obtain rfl : lo = 15 := by simp only [imp_false] at *; omega
    simp +contextual [float3, Encodes, fieldsOf.eq_def, Instr.wf.eq_def, mk_eq_iff, hop]
  all_goals
    simp +contextual [float3, float1, spf, Encodes, fieldsOf.eq_def, Instr.wf.eq_def, mk_eq_iff, hop]

theorem vcvtX_iff (x : BitVec 16) (dt st : Ty) (m : Xm) :
    x = BitVec.ofNat 16 (dt.code * 256 + st.code * 16 + m.sat.toNat * 8 + m.rm.code) ↔
      x.extractLsb' 12 4 = 0 ∧ (x.extractLsb' 8 4).toNat = dt.code ∧ (x.extractLsb' 4 4).toNat = st.code
        ∧ x.getLsbD 3 = m.sat ∧ x.toNat % 8 = m.rm.code := by
  have hx := x.isLt; have hd := dt.code_lt; have hs := st.code_lt; have hr := m.rm.code_lt
  have hm : m.sat.toNat < 2 := by cases m.sat <;> decide
  rw [extract_eq_zero, toNat_extract, toNat_extract, bit_eq_iff, ← BitVec.toNat_inj, BitVec.toNat_ofNat]
  norm_num only at *
  omega

theorem vcvt_encodes (r : Raw) (hop : r.op.toNat = 0x60) : Yields (Encodes r) (row6 0 r) := by
  show Yields _ (mIs 0 r >>= _)
  simp only [yields_bind, Prod.forall, mIs_iff _ _ _ (by decide : 0 < 8), vb_iff]
  rintro _ hm d b ⟨hd, ha, ⟨hb, hbc⟩, hc⟩
  split
  case h_2 => exact yields_error _
  case h_1 dt st rm hdt hst hrm =>
    simp only [yields_bind, chk_iff, yields_ok, Bool.and_eq_true, beq_iff_eq]
    rintro _ ⟨h12, hok⟩
    have hx := (vcvtX_iff r.x dt st ⟨r.x.getLsbD 3, rm⟩).2
      ⟨h12, (Ty.code_ofCode _ _ hdt).symm, (Ty.code_ofCode _ _ hst).symm, rfl, (Rm.code_ofCode _ _ hrm).symm⟩
    refine ⟨congrArg some ((mk_eq_iff ..).2 ⟨hop, hm, rfl, hd, ha, hb, hc, hx⟩), ?_⟩
    simp only [cvtCls, hst, Bool.and_eq_true] at hbc
    simp only [Instr.wf.eq_def, hbc.1, hok, Bool.or_comm, hbc.2, Bool.and_self]

theorem planeF_encodes (k : HTy → Bool → VR → Src → Instr) (r : Raw)
    (hk : ∀ h d b, r.mod = 0 → r.d = VR.enc d → r.a = 0 → r.b = Src.enc b → b.gv = true ∧ b.notK = true → r.c = 0 →
      r.x = BitVec.ofNat 16 (HTy.code h * 256) → Encodes r (k h r.nw d b)) : Yields (Encodes r) (planeF k r) := by
  unfold planeF
  simp only [yields_bind, Prod.forall, mIs_iff _ _ _ (by decide : 0 < 8), vb_iff]
  rintro _ hm d b ⟨hd, ha, ⟨hb, hbc⟩, hc⟩
  split
  case h_2 => exact yields_error _
  case h_1 h hh =>
    simp only [yields_bind, chk_iff, yields_ok, Bool.and_eq_true, beq_iff_eq]
    rintro _ ⟨h12, h0⟩
    exact hk h d b hm hd ha hb (Bool.and_eq_true_iff.1 hbc) hc
      ((codeX_iff r.x _ 12 4 4 rfl rfl h.code_lt).2 ⟨h12, h0, (HTy.code_ofCode _ _ hh).symm⟩)

theorem row6_encodes (lo : Nat) (r : Raw) (hlo : lo < 16) (hop : r.op.toNat = 0x60 + lo) : Yields (Encodes r) (row6 lo r) := by
  unfold row6
  split
  case h_1 => exact vcvt_encodes r hop
  case h_2 =>
    have hp : (r.x.getLsbD 8).toNat < 256 := by cases r.x.getLsbD 8 <;> decide
    dsimp only
    split
    case h_5 => exact yields_badMod
    all_goals
      rename_i hm
      replace hm := (mod_eq_iff _ _ (by decide)).1 hm
      simp only [yields_bind, Prod.forall, vab_iff, xmF_iff _ _ _ _ hp, xmF_iff 0 _ _ _ (by decide), yields_ok]
      rintro d a b ⟨hd, ⟨ha, hag⟩, ⟨hb, hbg⟩, hc⟩ m ⟨hx, -⟩
      exact ⟨congrArg some ((mk_eq_iff ..).2 ⟨hop, hm, rfl, hd, ha, hb, hc, hx⟩), Bool.and_eq_true_iff.2 ⟨hag, hbg⟩⟩
  case h_3 =>
    dsimp only
    split
    case h_5 => exact yields_badMod
    case h_1 hm | h_2 hm =>
      replace hm := (mod_eq_iff _ _ (by decide)).1 hm
      simp only [yields_bind, Prod.forall, vb_iff, chk_iff, yields_ok, Bool.and_eq_true, beq_iff_eq]
      rintro d b ⟨hd, ha, ⟨hb, hbg⟩, hc⟩ _ ⟨h9, h0⟩
      have hx := (codeX_iff r.x (r.x.getLsbD 8).toNat 9 1 7 rfl rfl (by cases r.x.getLsbD 8 <;> decide)).2
        ⟨h9, h0, by rw [bit_toNat, toNat_extract, pow_one]⟩
      exact ⟨congrArg some ((mk_eq_iff ..).2 ⟨hop, hm, rfl, hd, ha, hb, hc, hx⟩), hbg⟩
    case h_3 hm | h_4 hm =>
      replace hm := (mod_eq_iff _ _ (by decide)).1 hm
      simp only [yields_bind, Prod.forall, vb_iff, chk_iff, yields_ok, Bool.and_eq_true, beq_iff_eq]
      rintro d b ⟨hd, ha, ⟨hb, hbg⟩, hc⟩ _ ⟨h10, h0⟩
      have hx := (codeX_iff r.x _ 10 2 6 rfl rfl (BitVec.isLt _)).2 ⟨h10, h0, rfl⟩
      exact ⟨congrArg some ((mk_eq_iff ..).2 ⟨hop, hm, rfl, hd, ha, hb, hc, hx⟩), hbg⟩
  case h_4 =>
    simp only [yields_bind, Prod.forall, mIs_iff _ _ _ (by decide : 0 < 8), vab_iff]
    rintro _ hm d a b ⟨hd, ⟨ha, hag⟩, ⟨hb, hbg⟩, hc⟩
    split
    case h_2 => exact yields_error _
    case h_1 q hq =>
      simp only [yields_bind, xmF_iff _ _ _ _ (q.code_lt.trans (by decide)), yields_ok]
      rintro m ⟨hx, hok⟩
      refine ⟨congrArg some ((mk_eq_iff ..).2 ⟨hop, hm, rfl, hd, ha, hb, hc, hx⟩), ?_⟩
      cases q <;> simp_all [Instr.wf.eq_def, QTy.isLH]
  case h_5 =>
    simp only [yields_bind, mIs_iff _ _ _ (by decide : 0 < 8), dV_iff, aF_iff, bF_iff, cN_iff]
    rintro _ hm d hd a ⟨ha, hac⟩ b ⟨hb, hbg⟩ _ hc
    split
    case h_2 => exact yields_error _
    case h_1 q hq =>
      simp only [yields_bind, xmF_iff _ _ _ _ (q.code_lt.trans (by decide)), yields_ok, Bool.not_eq_true']
      rintro m ⟨hx, hok⟩
      refine ⟨congrArg some ((mk_eq_iff ..).2 ⟨hop, hm, rfl, hd, ha, hb, hc, by rw [hx, Xm.enc_unsat _ _ hok]⟩), ?_⟩
      cases q <;> simp_all [Instr.wf.eq_def, QTy.isLH, qCls]
  case h_6 | h_7 =>
    exact planeF_encodes _ r fun h d b hm hd ha hb hbc hc hx =>
      ⟨congrArg some ((mk_eq_iff ..).2 ⟨hop, hm, rfl, hd, ha, hb, hc, hx⟩), Bool.and_eq_true_iff.2 hbc⟩
  case h_8 =>
    simp only [yields_bind, Prod.forall, mIs_iff _ _ _ (by decide : 0 < 8), vb_iff]
    rintro _ hm d b ⟨hd, ha, ⟨hb, hbg⟩, hc⟩
    split
    case h_2 => exact yields_error _
    case h_1 q hq =>
      simp only [yields_bind, chk_iff, yields_ok, Bool.and_eq_true, beq_iff_eq]
      rintro _ ⟨h12, h0⟩
      have hx := (codeX_iff r.x _ 12 4 4 rfl rfl q.code_lt).2 ⟨h12, h0, (QTy.code_ofCode _ _ hq).symm⟩
      exact ⟨congrArg some ((mk_eq_iff ..).2 ⟨hop, hm, rfl, hd, ha, hb, hc, hx⟩), hbg⟩
  case h_16 =>
    obtain rfl : lo = 15 := by simp only [imp_false] at *; omega
    simp +contextual [spf, Encodes, fieldsOf.eq_def, Instr.wf.eq_def, mk_eq_iff, hop]
  all_goals simp +contextual [spf, Encodes, fieldsOf.eq_def, Instr.wf.eq_def, mk_eq_iff, hop]

end Sys2Proof
end

section
/-! SUPPORT. What the cross-lane row of the decoder yields is well-formed and has the fields decoded (R139-R152). -/

namespace Sys2Proof

open Sys2Proof.Machine Sys2Proof.Claims

/-- The member operand and the `X` of a cross-lane word without an operation, as their readers accept them (R139, R144). -/
theorem laneX_of_readers (r : Raw) (m : Member) (useG useArg : Bool) (g : BitVec 3) (k : BitVec 8) (hm : memberF r = .ok m)
    (hl : laneXF useG useArg r = .ok (g, k)) :
    r.c = m.encC ∧ m.ok = true ∧ r.x = laneX m false 0 g.toNat k.toNat ∧ (if useG then segOk g else g == 0) = true
      ∧ (useArg || k == 0) = true := by
  obtain ⟨hmall, hc, hok⟩ := (memberF_iff r m).1 hm
  obtain ⟨hx, hg, hk⟩ := (laneXF_iff useG useArg r g k).1 hl
  exact ⟨hc, hok, (laneX_eq r.x m false 0 _ _ hmall (by rw [hx]; simp)).symm, hg, hk⟩

/-- The same for a scan or a reduction (R144, R145, R152). -/
theorem scanX_of_readers (r : Raw) (m : Member) (t : VTy) (scan : Bool) (op : Cop) (e : Bool) (g : BitVec 3) (y : Xm)
    (hm : memberF r = .ok m) (hl : scanXF t scan r = .ok (op, e, g, y)) :
    r.c = m.encC ∧ m.ok = true ∧ r.x = laneX m e op.code g.toNat (y.sat.toNat * 8 + y.rm.code) ∧ (scan || !e) = true
      ∧ segOk g = true ∧ scanOk t op y = true := by
  obtain ⟨hmall, hc, hok⟩ := (memberF_iff r m).1 hm
  obtain ⟨hx, he, hg, hs⟩ := (scanXF_iff t scan r op e g y).1 hl
  exact ⟨hc, hok, (laneX_eq r.x m e _ _ _ hmall hx).symm, he, hg, hs⟩

/-- A butterfly's distance is `X`[6:0], with bit 7 clear (R145). -/
theorem bflyX (x : BitVec 16) (k : BitVec 8) (g : BitVec 3) (hx : x.toNat % 32768 = g.toNat * 256 + k.toNat)
    (h7 : x.getLsbD 7 = false) : k.toNat = (x.extractLsb' 0 7).toNat := by
  have hk := k.isLt; have hg := g.isLt
  have hb := bit_toNat x 7
  rw [h7, Bool.toNat_false] at hb
  rw [toNat_extract]
  norm_num only at *
  omega

theorem vbfly_encodes (r : Raw) (hop : r.op.toNat = 0x72) : Yields (Encodes r) (row7 2 r) := by
  have hx (m : Member) (p : BitVec 3 × BitVec 8) (hm : memberF r = .ok m) (hl : laneXF false true r = .ok p)
      (hj : (!r.x.getLsbD 7 && r.x.extractLsb' 0 7 != 0) = true) :
      r.c = m.encC ∧ r.x = laneX m false 0 0 (r.x.extractLsb' 0 7).toNat ∧ m.ok = true ∧ (r.x.extractLsb' 0 7 != 0) = true := by
    obtain ⟨hc, hok, hx, hg, -⟩ := laneX_of_readers r m _ _ p.1 p.2 hm hl
    simp only [Bool.and_eq_true, Bool.not_eq_true'] at hj
    have hk := bflyX r.x p.2 p.1 ((laneXF_iff ..).1 hl).1 hj.1
    simp only [Bool.false_eq_true, if_false, beq_iff_eq] at hg
    rw [hg, hk] at hx
    exact ⟨hc, hx, hok, hj.2⟩
  show Yields _ (match r.mod.toNat with | 0 => _ | 1 => _ | 2 => _ | _ => _)
  split
  case h_4 => exact yields_badMod
  all_goals
    rename_i hm
    replace hm := (mod_eq_iff _ _ (by decide)).1 hm
  case h_1 =>
    simp only [yields_bind, dV_iff, aF_iff, bN_iff, chk_iff, yields_ok]
    rintro d hd a ⟨ha, hag⟩ _ hb m hmem p hl _ hj
    obtain ⟨hc, hx, hok, hj⟩ := hx m p hmem hl hj
    exact ⟨congrArg some ((mk_eq_iff ..).2 ⟨hop, hm, rfl, hd, ha, hb, hc, hx⟩),
      by simp only [Instr.wf.eq_def, hag, hok, hj, Bool.and_self]⟩
  all_goals
    simp only [yields_bind, dV_iff, aF_iff, bF_iff, chk_iff, yields_ok]
    rintro d hd a ⟨ha, hag⟩ b ⟨hb, hbg⟩ m hmem p hl _ hj
    obtain ⟨hc, hx, hok, hj⟩ := hx m p hmem hl hj
    exact ⟨congrArg some ((mk_eq_iff ..).2 ⟨hop, hm, rfl, hd, ha, hb, hc, hx⟩),
      by simp only [Instr.wf.eq_def, hag, hbg, hok, hj, Bool.and_self]⟩

theorem vvote_encodes (r : Raw) (hop : r.op.toNat = 0x74) : Yields (Encodes r) (row7 4 r) := by
  show Yields _ (match r.mod.toNat with | 0 => _ | 1 => _ | 2 => _ | 3 => _ | _ => _)
  split
  case h_5 => exact yields_badMod
  all_goals
    rename_i hm
    replace hm := (mod_eq_iff _ _ (by decide)).1 hm
    simp only [yields_bind, nw0_iff, dSc_iff, aF_iff, bN_iff, yields_ok]
    rintro _ hnw d ⟨hd, hdc⟩ a ⟨ha, hag⟩ _ hb m hmem p hl
    obtain ⟨hc, hok, hx, hg, hk⟩ := laneX_of_readers r m _ _ p.1 p.2 hmem hl
    simp only [Bool.false_eq_true, if_false, Bool.false_or, beq_iff_eq] at hg hk
    rw [hg, hk] at hx
    exact ⟨congrArg some ((mk_eq_iff ..).2 ⟨hop, hm, hnw, hd, ha, hb, hc, hx⟩),
      by simp only [Instr.wf.eq_def, hag, hok, hdc, Bool.and_self]⟩

theorem xvec_encodes (r : Raw) (hop : r.op.toNat = 0x78) : Yields (Encodes r) (row7 8 r) := by
  show Yields _ (mIs 0 r >>= _)
  simp only [yields_bind, mIs_iff _ _ _ (by decide : 0 < 8), nw0_iff, dN_iff]
  rintro _ hm _ hnw _ hd
  split
  case h_2 => exact yields_error _
  case h_1 n hn =>
    simp only [yields_bind, chk_iff, bN_iff, cN_iff, xN_iff, yields_ok]
    rintro _ hev _ hb _ hc _ hx
    exact ⟨congrArg some ((mk_eq_iff ..).2 ⟨hop, hm, hnw, hd, (Src.enc_dec _ _ hn).symm, hb, hc, hx⟩), hev⟩

theorem row7_encodes (lo : Nat) (r : Raw) (hop : r.op.toNat = 0x70 + lo) : Yields (Encodes r) (row7 lo r) := by
  by_cases h2 : lo = 2
  · subst h2; exact vbfly_encodes r hop
  by_cases h4 : lo = 4
  · subst h4; exact vvote_encodes r hop
  by_cases h8 : lo = 8
  · subst h8; exact xvec_encodes r hop
  unfold row7
  split
  case h_3 | h_5 | h_9 => contradiction
  case h_2 =>
    split
    case h_3 => exact yields_badMod
    case h_1 hm =>
      replace hm := (mod_eq_iff _ _ (by decide)).1 hm
      simp only [yields_bind, dV_iff, aF_iff, bF_iff, yields_ok]
      rintro d hd a ⟨ha, hag⟩ b ⟨hb, hbg⟩ m hmem ⟨g, k⟩ hl
      obtain ⟨hc, hok, hx, hg, hk⟩ := laneX_of_readers r m _ _ g k hmem hl
      simp only [if_true, Bool.false_or, beq_iff_eq] at hg hk
      rw [hk] at hx
      exact ⟨congrArg some ((mk_eq_iff ..).2 ⟨hop, hm, rfl, hd, ha, hb, hc, hx⟩),
        by simp only [Instr.wf.eq_def, hag, hbg, hok, hg, Bool.and_self]⟩
    case h_2 hm =>
      replace hm := (mod_eq_iff _ _ (by decide)).1 hm
      simp only [yields_bind, dV_iff, aF_iff, bN_iff, yields_ok]
      rintro d hd a ⟨ha, hag⟩ _ hb m hmem ⟨g, k⟩ hl
      obtain ⟨hc, hok, hx, hg, -⟩ := laneX_of_readers r m _ _ g k hmem hl
      simp only [if_true] at hg
      exact ⟨congrArg some ((mk_eq_iff ..).2 ⟨hop, hm, rfl, hd, ha, hb, hc, hx⟩),
        by simp only [Instr.wf.eq_def, hag, hok, hg, Bool.and_self]⟩
  case h_1 =>
    simp only [yields_bind, m01_iff, dV_iff, aF_iff, bF_iff, yields_ok]
    rintro bt hm d hd a ⟨ha, hag⟩ b ⟨hb, hbg⟩ m hmem ⟨g, k⟩ hl
    obtain ⟨hc, hok, hx, hg, hk⟩ := laneX_of_readers r m _ _ g k hmem hl
    simp only [Bool.false_eq_true, if_false, Bool.false_or, beq_iff_eq] at hg hk
    rw [hg, hk] at hx
    exact ⟨congrArg some ((mk_eq_iff ..).2 ⟨hop, hm, rfl, hd, ha, hb, hc, hx⟩),
      by simp only [Instr.wf.eq_def, hag, hbg, hok, Bool.and_self]⟩
  case h_4 =>
    simp only [yields_bind, mIs_iff _ _ _ (by decide : 0 < 8), dV_iff, aF_iff, bF_iff, yields_ok]
    rintro _ hm d hd a ⟨ha, hag⟩ b ⟨hb, hbg⟩ m hmem ⟨g, k⟩ hl
    obtain ⟨hc, hok, hx, hg, hk⟩ := laneX_of_readers r m _ _ g k hmem hl
    simp only [if_true, Bool.false_or, beq_iff_eq] at hg hk
    rw [hk] at hx
    exact ⟨congrArg some ((mk_eq_iff ..).2 ⟨hop, hm, rfl, hd, ha, hb, hc, hx⟩),
      by simp only [Instr.wf.eq_def, hag, hbg, hok, hg, Bool.and_self]⟩
  case h_6 =>
    simp only [yields_bind, mTy_iff, dV_iff, aF_iff, bN_iff, yields_ok]
    rintro t ⟨hm, -⟩ d hd a ⟨ha, hag⟩ _ hb m hmem ⟨op, e, g, y⟩ hl
    obtain ⟨hc, hok, hx, -, hg, hs⟩ := scanX_of_readers r m t _ op e g y hmem hl
    exact ⟨congrArg some ((mk_eq_iff ..).2 ⟨hop, hm, rfl, hd, ha, hb, hc, hx⟩),
      by simp only [Instr.wf.eq_def, hag, hok, hg, hs, Bool.and_self]⟩
  case h_7 =>
    simp only [yields_bind, mTy_iff, dV_iff, aF_iff, bN_iff, yields_ok]
    rintro t ⟨hm, -⟩ d hd a ⟨ha, hag⟩ _ hb m hmem ⟨op, e, g, y⟩ hl
    obtain ⟨hc, hok, hx, he, hg, hs⟩ := scanX_of_readers r m t _ op e g y hmem hl
    obtain rfl : e = false := by simpa using he
    exact ⟨congrArg some ((mk_eq_iff ..).2 ⟨hop, hm, rfl, hd, ha, hb, hc, hx⟩),
      by simp only [Instr.wf.eq_def, hag, hok, hg, hs, Bool.and_self]⟩
  case h_8 =>
    simp only [yields_bind, mIs_iff _ _ _ (by decide : 0 < 8), dV_iff, aF_iff, maskF_iff, yields_ok]
    rintro _ hm d hd a ⟨ha, hag⟩ b ⟨hb, hbg⟩ m hmem ⟨g, k⟩ hl
    obtain ⟨hc, hok, hx, hg, hk⟩ := laneX_of_readers r m _ _ g k hmem hl
    simp only [if_true, Bool.false_or, beq_iff_eq] at hg hk
    rw [hk] at hx
    exact ⟨congrArg some ((mk_eq_iff ..).2 ⟨hop, hm, rfl, hd, ha, hb, hc, hx⟩),
      by simp only [Instr.wf.eq_def, hag, hbg, hok, hg, Bool.and_self]⟩
  case h_10 =>
    simp only [yields_bind, mIs_iff _ _ _ (by decide : 0 < 8), dV_iff, aF_iff, bN_iff, yields_ok]
    rintro _ hm d hd a ⟨ha, hag⟩ _ hb m hmem ⟨g, k⟩ hl
    obtain ⟨hc, hok, hx, hg, hk⟩ := laneX_of_readers r m _ _ g k hmem hl
    simp only [Bool.false_eq_true, if_false, Bool.false_or, beq_iff_eq] at hg hk
    rw [hg, hk] at hx
    exact ⟨congrArg some ((mk_eq_iff ..).2 ⟨hop, hm, rfl, hd, ha, hb, hc, hx⟩),
      by simp only [Instr.wf.eq_def, hag, hok, Bool.and_self]⟩
  case h_11 =>
    dsimp only
    split
    case h_3 => exact yields_badMod
    all_goals
      rename_i hm
      replace hm := (mod_eq_iff _ _ (by decide)).1 hm
      simp +contextual [Encodes, fieldsOf.eq_def, Instr.wf.eq_def, mk_eq_iff, hop, hm]
  case h_13 =>
    simp only [yields_bind, mIs_iff _ _ _ (by decide : 2 < 8), dV_iff, aF_iff, bN_iff, yields_ok]
    rintro _ hm d hd a ⟨ha, hag⟩ _ hb m hmem ⟨g, k⟩ hl
    obtain ⟨hc, hok, hx, hg, hk⟩ := laneX_of_readers r m _ _ g k hmem hl
    simp only [if_true, Bool.false_or, beq_iff_eq] at hg hk
    rw [hk] at hx
    exact ⟨congrArg some ((mk_eq_iff ..).2 ⟨hop, hm, rfl, hd, ha, hb, hc, hx⟩),
      by simp only [Instr.wf.eq_def, hag, hok, hg, Bool.and_self]⟩
  case h_14 =>
    simp only [yields_bind, mTy_iff, dV_iff, aF_iff, bF_iff, yields_ok]
    rintro t ⟨hm, -⟩ d hd a ⟨ha, hag⟩ b ⟨hb, hbg⟩ m hmem ⟨g, k⟩ hl
    obtain ⟨hc, hok, hx, hg, hk⟩ := laneX_of_readers r m _ _ g k hmem hl
    simp only [if_true, Bool.false_or, beq_iff_eq] at hg hk
    rw [hk] at hx
    exact ⟨congrArg some ((mk_eq_iff ..).2 ⟨hop, hm, rfl, hd, ha, hb, hc, hx⟩),
      by simp only [Instr.wf.eq_def, hag, hbg, hok, hg, Bool.and_self]⟩
  all_goals simp +contextual [Encodes, fieldsOf.eq_def, Instr.wf.eq_def, mk_eq_iff, hop]

end Sys2Proof
end

section
/-! SUPPORT. What the memory rows of the decoder yield is well-formed and has the fields decoded (R166-R178). -/

namespace Sys2Proof

open Sys2Proof.Machine Sys2Proof.Claims

/-! ## Memory words (R166, R167) -/

/-- The base of a memory operand and its immediate, as their readers accept them. -/
theorem base_of_readers (r : Raw) (a : Src) (rule : MemRule) (i : I25) (ha : r.a = a.enc ∧ baseOk r.c a = true)
    (hi : r.c = i.encC ∧ r.x = i.encX ∧ i.ok rule = true) : i.base a = true := by
  rw [← baseOk_encC, ← hi.1]
  exact ha.2

theorem memVF_encodes {rule : MemRule} {dOk : VR → Bool} {k : VR → Src → Src → I25 → Instr} {r : Raw} (op mod : Nat)
    (hop : r.op.toNat = op % 256) (hm : r.mod = BitVec.ofNat 3 mod)
    (hk : ∀ d a b i, fieldsOf (k d a b i) = some (encMem op mod d.enc a b i))
    (hw : ∀ d a b i, dOk d = true → memV rule a b i = true → (k d a b i).wf = true) :
    Yields (Encodes r) (memVF rule dOk k r) := by
  unfold memVF
  simp only [yields_bind, nw0_iff, dVc_iff, mbF_iff, bF_iff, i25F_iff, yields_ok]
  intro _ hnw d hd a ha b hb i hi
  refine ⟨(hk d a b i).trans (congrArg some ((mk_eq_iff ..).2 ⟨hop, hm, hnw, hd.1, ha.1, hb.1, hi.1, hi.2.1⟩)),
    hw d a b i hd.2 ?_⟩
  simp only [memV, base_of_readers r a rule i ha hi, hb.2, hi.2.2, Bool.and_self]

theorem memSF_encodes {rule : MemRule} {dOk : SR → Bool} {k : SR → Src → Src → I25 → Instr} {r : Raw} (op mod : Nat)
    (hop : r.op.toNat = op % 256) (hm : r.mod = BitVec.ofNat 3 mod)
    (hk : ∀ d a b i, fieldsOf (k d a b i) = some (encMem op mod d.enc a b i))
    (hw : ∀ d a b i, dOk d = true → memS rule a b i = true → (k d a b i).wf = true) :
    Yields (Encodes r) (memSF rule dOk k r) := by
  unfold memSF
  simp only [yields_bind, nw0_iff, dSc_iff, mbF_iff, bF_iff, i25F_iff, yields_ok]
  intro _ hnw d hd a ha b hb i hi
  refine ⟨(hk d a b i).trans (congrArg some ((mk_eq_iff ..).2 ⟨hop, hm, hnw, hd.1, ha.1, hb.1, hi.1, hi.2.1⟩)),
    hw d a b i hd.2 ?_⟩
  simp only [memS, base_of_readers r a rule i ha hi, hb.2, hi.2.2, Bool.and_self]

/-- The destination reader `dd` accepts the values with `ok`, and then `D` is their encoding. -/
theorem mem0F_encodes {α : Type} {rule : MemRule} {dd : Raw → Dec α} {k : α → Src → I25 → Instr} {r : Raw} (enc : α → BitVec 8)
    (ok : α → Prop) (hdd : ∀ v, dd r = .ok v → r.d = enc v ∧ ok v) (op : Nat) (hop : r.op.toNat = op % 256) (hm : r.mod = 0)
    (hk : ∀ d a i, fieldsOf (k d a i) = some (encMem0 op 0 (enc d) a i))
    (hw : ∀ d a i, ok d → mem0 rule a i = true → (k d a i).wf = true) : Yields (Encodes r) (mem0F rule dd k r) := by
  unfold mem0F
  simp only [yields_bind, nw0_iff, mbF_iff, bN_iff, i25F_iff, yields_ok]
  intro _ hnw d hd a ha _ hb i hi
  obtain ⟨hd, hok⟩ := hdd d hd
  refine ⟨(hk d a i).trans (congrArg some ((mk_eq_iff ..).2 ⟨hop, hm, hnw, hd, ha.1, hb, hi.1, hi.2.1⟩)), hw d a i hok ?_⟩
  simp only [mem0, base_of_readers r a rule i ha hi, hi.2.2, Bool.and_self]

theorem and_of_parts {p q : Bool} (hp : p = true) (hq : q = true) : (p && q) = true := Bool.and_eq_true_iff.2 ⟨hp, hq⟩

theorem row8_encodes (lo : Nat) (r : Raw) (hlo : lo < 16) (hop : r.op.toNat = 0x80 + lo) : Yields (Encodes r) (row8 lo r) := by
  unfold row8
  split
  case h_1 =>
    simp only [yields_bind, ldM_iff]
    exact fun t hm => memVF_encodes 0x80 _ hop hm (fun _ _ _ _ => rfl) fun _ _ _ _ _ h => h
  case h_2 =>
    simp only [yields_bind, stM_iff]
    exact fun t hm => memVF_encodes 0x81 _ hop hm (fun _ _ _ _ => rfl) fun _ _ _ _ _ h => h
  case h_3 =>
    simp only [yields_bind, mIs_iff _ _ _ (by decide : 0 < 8)]
    exact fun _ hm => memVF_encodes 0x82 0 hop hm (fun _ _ _ _ => rfl) fun _ _ _ _ => and_of_parts
  case h_4 =>
    simp only [yields_bind, mIs_iff _ _ _ (by decide : 0 < 8)]
    exact fun _ hm => memVF_encodes 0x83 0 hop hm (fun _ _ _ _ => rfl) fun _ _ _ _ => and_of_parts
  case h_5 =>
    simp only [yields_ite, yields_bind, ldM_iff, beq_iff_eq]
    exact ⟨fun hm => memSF_encodes 0x84 5 hop hm (fun _ _ _ _ => rfl) fun _ _ _ _ => and_of_parts,
      fun _ t hm => memSF_encodes 0x84 _ hop hm (fun _ _ _ _ => rfl) fun _ _ _ _ => and_of_parts⟩
  case h_6 =>
    simp only [yields_ite, yields_bind, stM_iff, beq_iff_eq]
    exact ⟨fun hm => memSF_encodes 0x85 3 hop hm (fun _ _ _ _ => rfl) fun _ _ _ _ => and_of_parts,
      fun _ t hm => memSF_encodes 0x85 _ hop hm (fun _ _ _ _ => rfl) fun _ _ _ _ => and_of_parts⟩
  case h_7 =>
    simp only [yields_bind, ldM_iff, nw0_iff, dV_iff, mbF_iff, bF_iff, i25F_iff, yields_ok]
    intro t hm _ hnw d hd a ha b hb i hi
    refine ⟨congrArg some ((mk_eq_iff ..).2 ⟨hop, hm, hnw, hd, ha.1, hb.1, hi.1, hi.2.1⟩), ?_⟩
    simp only [Instr.wf.eq_def, memS, base_of_readers r a _ i ha hi, hb.2, hi.2.2, Bool.and_self]
  case h_8 =>
    simp only [yields_bind, m01_iff, nw0_iff, dN_iff, mbF_iff, bF_iff, i25F_iff, yields_ok]
    intro l hm _ hnw _ hd a ha b hb i hi
    refine ⟨congrArg some ((mk_eq_iff ..).2 ⟨hop, hm, hnw, hd, ha.1, hb.1, hi.1, hi.2.1⟩), ?_⟩
    simp only [Instr.wf.eq_def, memV, base_of_readers r a _ i ha hi, hb.2, hi.2.2, Bool.and_self]
  case h_9 => exact memVF_encodes 0x88 _ hop (aopM_code r).symm (fun _ _ _ _ => rfl) fun _ _ _ _ _ h => h
  case h_10 =>
    simp only [yields_bind, mIs_iff _ _ _ (by decide : 0 < 8)]
    exact fun _ hm => memVF_encodes 0x89 0 hop hm (fun _ _ _ _ => rfl) fun _ _ _ _ => and_of_parts
  case h_11 =>
    simp only [yields_bind, aoppM_iff]
    exact fun _ hm => memVF_encodes 0x8A _ hop hm (fun _ _ _ _ => rfl) fun _ _ _ _ => and_of_parts
  case h_12 =>
    simp only [yields_bind, mIs_iff _ _ _ (by decide : 0 < 8)]
    exact fun _ hm => memVF_encodes 0x8B 0 hop hm (fun _ _ _ _ => rfl) fun _ _ _ _ => and_of_parts
  case h_13 => exact memSF_encodes 0x8C _ hop (aopM_code r).symm (fun _ _ _ _ => rfl) fun _ _ _ _ _ h => h
  case h_14 =>
    simp only [yields_bind, mIs_iff _ _ _ (by decide : 0 < 8)]
    exact fun _ hm => memSF_encodes 0x8D 0 hop hm (fun _ _ _ _ => rfl) fun _ _ _ _ => and_of_parts
  case h_15 =>
    simp only [yields_bind, mIs_iff _ _ _ (by decide : 0 < 8)]
    exact fun _ hm => mem0F_encodes VR.enc (fun _ => True) (fun d hd => ⟨(dV_iff r d).1 hd, trivial⟩) 0x8E hop hm
      (fun _ _ _ => rfl) fun _ _ _ _ h => h
  case h_16 =>
    obtain rfl : lo = 15 := by simp only [imp_false] at *; omega
    simp only [yields_bind, mIs_iff _ _ _ (by decide : 0 < 8)]
    exact fun _ hm => memVF_encodes 0x8F 0 hop hm (fun _ _ _ _ => rfl) fun _ _ _ _ => and_of_parts

theorem row9_encodes (lo : Nat) (r : Raw) (hop : r.op.toNat = 0x90 + lo) : Yields (Encodes r) (row9 lo r) := by
  unfold row9
  split
  case h_1 =>
    simp only [yields_bind, mIs_iff _ _ _ (by decide : 0 < 8)]
    exact fun _ hm => memVF_encodes 0x90 0 hop hm (fun _ _ _ _ => rfl) fun _ _ _ _ => and_of_parts
  case h_2 =>
    simp only [yields_bind, mIs_iff _ _ _ (by decide : 0 < 8)]
    exact fun _ hm => memVF_encodes 0x91 0 hop hm (fun _ _ _ _ => rfl) fun _ _ _ _ _ h => h
  case h_3 =>
    split
    case h_3 => exact yields_badMod
    all_goals
      rename_i hm
      replace hm := (mod_eq_iff _ _ (by decide)).1 hm
      exact memVF_encodes 0x92 _ hop hm (fun _ _ _ _ => rfl) fun _ _ _ _ _ h => h
  case h_5 =>
    simp only [yields_bind, mIs_iff _ _ _ (by decide : 0 < 8)]
    exact fun _ hm => memVF_encodes 0x94 0 hop hm (fun _ _ _ _ => rfl) fun _ _ _ _ => and_of_parts
  all_goals simp +contextual [Encodes, fieldsOf.eq_def, Instr.wf.eq_def, mk_eq_iff, hop]

end Sys2Proof
end

section
/-! SUPPORT. What the synchronisation, engine, tile, label and system rows of the decoder yield is well-formed and has the fields
decoded (R180-R216, R242-R246, R292, R317). -/

namespace Sys2Proof

open Sys2Proof.Machine Sys2Proof.Claims

/-! ## Row 0xA0 -/

theorem PClass.code_lt (p : PClass) : p.code < 8 := by cases p <;> decide
@[simp] theorem PClass.ofCode_code (p : PClass) : PClass.ofCode p.code = some p := by cases p <;> rfl
theorem PClass.code_ofCode (n : Nat) (p : PClass) (h : PClass.ofCode n = some p) : p.code = n := by
  unfold PClass.ofCode at h; split at h <;> cases h <;> rfl

/-- The two classes of an `XFENCE` (R180). -/
theorem xfenceX_iff (x : BitVec 16) (f t : PClass) :
    x = BitVec.ofNat 16 (t.code * 8 + f.code) ↔
      x.extractLsb' 6 10 = 0 ∧ (x.extractLsb' 0 3).toNat = f.code ∧ (x.extractLsb' 3 3).toNat = t.code := by
  have hx := x.isLt; have hf := f.code_lt; have ht := t.code_lt
  rw [extract_eq_zero, toNat_extract, toNat_extract, ← BitVec.toNat_inj, BitVec.toNat_ofNat]
  norm_num only at *
  omega

theorem xfence_encodes (r : Raw) (hop : r.op.toNat = 0xA1) : Yields (Encodes r) (rowA 1 r) := by
  show Yields _ (mBelow 6 r >>= _)
  simp only [yields_bind, mBelow_iff, nw0_iff, dN_iff, aN_iff, bN_iff, cN_iff]
  rintro _ ⟨rfl, h6⟩ _ hnw _ hd _ ha _ hb _ hc
  split
  case h_2 => exact yields_error _
  case h_1 f t hf ht =>
    simp only [yields_bind, chk_iff, yields_ok, beq_iff_eq]
    intro _ h610
    have hx := (xfenceX_iff r.x f t).2 ⟨h610, (PClass.code_ofCode _ _ hf).symm, (PClass.code_ofCode _ _ ht).symm⟩
    exact ⟨congrArg some ((mk_eq_iff ..).2 ⟨hop, by simp, hnw, hd, ha, hb, hc, hx⟩),
      decide_eq_true (Nat.le_of_lt_succ h6)⟩

theorem rowA_encodes (lo : Nat) (r : Raw) (hop : r.op.toNat = 0xA0 + lo) : Yields (Encodes r) (rowA lo r) := by
  unfold rowA
  split
  case h_2 => exact xfence_encodes r hop
  case h_4 =>
    simp only [yields_bind, mIs_iff _ _ _ (by decide : 0 < 8), nw0_iff, dS_iff, mbF_iff, bF_iff, i25F_iff, yields_ok]
    intro _ hm _ hnw d hd a ha b hb i hi
    refine ⟨congrArg some ((mk_eq_iff ..).2 ⟨hop, hm, hnw, hd, ha.1, hb.1, hi.1, hi.2.1⟩), ?_⟩
    simp only [Instr.wf.eq_def, base_of_readers r a _ i ha hi, hb.2, hi.2.2, Bool.and_self]
  case h_5 =>
    simp only [yields_bind, mIs_iff _ _ _ (by decide : 0 < 8), nw0_iff, dN_iff, mbF_iff, bF_iff, i25F_iff, yields_ok]
    intro _ hm _ hnw _ hd a ha b hb i hi
    refine ⟨congrArg some ((mk_eq_iff ..).2 ⟨hop, hm, hnw, hd, ha.1, hb.1, hi.1, hi.2.1⟩), ?_⟩
    simp only [Instr.wf.eq_def, base_of_readers r a _ i ha hi, hb.2, hi.2.2, Bool.and_self]
  case h_3 | h_7 =>
    simp only [yields_bind, mIs_iff _ _ _ (by decide : 0 < 8)]
    exact fun _ hm => mem0F_encodes SR.enc (fun d => d.isPair = true) (fun d hd => (dSc_iff _ r d).1 hd) _ hop hm
      (fun _ _ _ => rfl) fun _ _ _ => and_of_parts
  case h_6 =>
    simp only [yields_bind, mIs_iff _ _ _ (by decide : 0 < 8)]
    exact fun _ hm => mem0F_encodes (fun _ => 0) (fun _ => True) (fun d hd => ⟨(dN_iff r d).1 hd, trivial⟩) _ hop hm
      (fun _ _ _ => rfl) fun _ _ _ _ h => h
  case h_8 | h_9 =>
    simp only [yields_bind, mIs_iff _ _ _ (by decide : 0 < 8)]
    exact fun _ hm => mem0F_encodes VR.enc (fun _ => True) (fun d hd => ⟨(dV_iff r d).1 hd, trivial⟩) _ hop hm
      (fun _ _ _ => rfl) fun _ _ _ _ h => h
  case h_10 =>
    simp only [yields_bind, mIs_iff _ _ _ (by decide : 0 < 8)]
    exact fun _ hm => mem0F_encodes SR.enc (fun _ => True) (fun d hd => ⟨(dS_iff r d).1 hd, trivial⟩) _ hop hm
      (fun _ _ _ => rfl) fun _ _ _ _ h => h
  case h_1 =>
    simp +contextual [Encodes, fieldsOf.eq_def, Instr.wf.eq_def, mk_eq_iff, hop]
    omega
  all_goals simp +contextual [bare, Encodes, fieldsOf.eq_def, Instr.wf.eq_def, mk_eq_iff, hop]

/-! ## Block forms (R188, R210, R242) -/

/-- The block and the slot of a block form, as their readers accept them. -/
theorem blkX_of_readers (r : Raw) (b : Blk) (s : BitVec 2)
    (hb : r.a = b.base.enc ∧ b.ok = true ∧ r.x.getLsbD 15 = b.bsp ∧ r.x.extractLsb' 0 12 = b.disp)
    (h12 : r.x.getLsbD 12 = false) (h13 : r.x.extractLsb' 13 2 = s) : r.x = b.x s := by
  obtain ⟨-, -, h15, h0⟩ := hb
  exact (Blk.x_eq r.x b s h15 h13 h12 h0).symm

theorem tileF_encodes {k : FR → Blk → BitVec 2 → Instr} {r : Raw} (op mod : Nat) (hop : r.op.toNat = op % 256)
    (hm : r.mod = BitVec.ofNat 3 mod) (hk : ∀ d b s, fieldsOf (k d b s) = some (encBlk op mod d b s))
    (hw : ∀ d b s, b.ok = true → (k d b s).wf = true) : Yields (Encodes r) (tileF k r) := by
  unfold tileF
  simp only [yields_bind, nw0_iff, dF_iff, bbF_iff, bN_iff, cN_iff, blkX_iff, yields_ok]
  intro _ hnw d hd b hb _ hb0 _ hc s hs
  exact ⟨(hk d b s).trans (congrArg some ((mk_eq_iff ..).2
    ⟨hop, hm, hnw, hd, hb.1, hb0, hc, blkX_of_readers r b s hb hs.1 hs.2.1⟩)), hw d b s hb.2.1⟩

theorem blkF_encodes {k : FR → Blk → Instr} {r : Raw} (op mod : Nat) (hop : r.op.toNat = op % 256)
    (hm : r.mod = BitVec.ofNat 3 mod) (hk : ∀ d b, fieldsOf (k d b) = some (encBlk op mod d b 0))
    (hw : ∀ d b, b.ok = true → (k d b).wf = true) : Yields (Encodes r) (blkF k r) := by
  unfold blkF
  simp only [yields_bind, nw0_iff, dF_iff, bbF_iff, bN_iff, cN_iff, blkX_iff, yields_ok]
  intro _ hnw d hd b hb _ hb0 _ hc s hs
  obtain rfl : s = 0 := by simpa using hs.2.2
  exact ⟨(hk d b).trans (congrArg some ((mk_eq_iff ..).2
    ⟨hop, hm, hnw, hd, hb.1, hb0, hc, blkX_of_readers r b 0 hb hs.1 hs.2.1⟩)), hw d b hb.2.1⟩

/-! ## Row 0xB0 -/

/-- `X` of a `COPY` (R196). -/
theorem copyX_iff (x : BitVec 16) (dsp : Bool) (ssp : BitVec 2) (disp : BitVec 12) :
    x = BitVec.ofNat 16 (dsp.toNat * 16384 + ssp.toNat * 4096 + disp.toNat) ↔
      (x.extractLsb' 14 2).toNat = dsp.toNat ∧ x.extractLsb' 12 2 = ssp ∧ x.extractLsb' 0 12 = disp := by
  have hx := x.isLt; have hs := ssp.isLt; have hp := disp.isLt
  have hd : dsp.toNat < 2 := by cases dsp <;> decide
  rw [toNat_extract, ← BitVec.toNat_inj (y := ssp), ← BitVec.toNat_inj (y := disp), toNat_extract, toNat_extract,
    ← BitVec.toNat_inj, BitVec.toNat_ofNat]
  norm_num only at *
  omega

theorem copy_encodes (r : Raw) (hop : r.op.toNat = 0xB4) : Yields (Encodes r) (rowB 4 r) := by
  show Yields _ (mIs 0 r >>= _)
  simp only [yields_bind, mIs_iff _ _ _ (by decide : 0 < 8), nw0_iff, dF_iff, aF_iff, bF_iff, cF_iff, chk_iff, yields_ok,
    Bool.and_eq_true, decide_eq_true_eq]
  rintro _ hm _ hnw d hd a ⟨ha, hac⟩ b ⟨hb, hbc⟩ z ⟨hz, hzg⟩ _ ⟨hlt, h3⟩
  have hdsp : (r.x.extractLsb' 14 2).toNat = (r.x.extractLsb' 14 2 == 1).toNat := by
    generalize r.x.extractLsb' 14 2 = y at hlt
    revert y
    decide
  have hx := (copyX_iff r.x _ _ _).2 ⟨hdsp, rfl, rfl⟩
  exact ⟨congrArg some ((mk_eq_iff ..).2 ⟨hop, hm, hnw, hd, ha, hb, hz, hx⟩),
    and_of_parts (and_of_parts (and_of_parts hac hbc) hzg) h3⟩

theorem rowB_encodes (lo : Nat) (r : Raw) (hlo : lo < 16) (hop : r.op.toNat = 0xB0 + lo) : Yields (Encodes r) (rowB lo r) := by
  unfold rowB
  split
  case h_2 =>
    simp only [yields_bind, mIs_iff _ _ _ (by decide : 0 < 8)]
    exact fun _ hm => mem0F_encodes SR.enc (fun _ => True) (fun d hd => ⟨(dS_iff r d).1 hd, trivial⟩) _ hop hm
      (fun _ _ _ => rfl) fun _ _ _ _ h => h
  case h_4 =>
    simp only [yields_bind, mIs_iff _ _ _ (by decide : 0 < 8)]
    exact fun _ hm => mem0F_encodes FR.enc (fun _ => True) (fun d hd => ⟨(dF_iff r d).1 hd, trivial⟩) _ hop hm
      (fun _ _ _ => rfl) fun _ _ _ _ h => h
  case h_5 => exact copy_encodes r hop
  case h_13 =>
    simp only [yields_bind, m01_iff]
    rintro (_ | _) hm <;> exact blkF_encodes 0xBC _ hop hm (fun _ _ => rfl) fun _ _ h => h
  case h_16 =>
    obtain rfl : lo = 15 := by simp only [imp_false] at *; omega
    simp only [yields_bind, mIs_iff _ _ _ (by decide : 0 < 8)]
    exact fun _ hm => blkF_encodes 0xBF 0 hop hm (fun _ _ => rfl) fun _ _ h => h
  case h_6 | h_7 | h_9 | h_10 | h_11 | h_12 | h_14 | h_15 =>
    simp only [yields_bind, mIs_iff _ _ _ (by decide : 0 < 8)]
    exact fun _ hm => blkF_encodes _ 0 hop hm (fun _ _ => rfl) fun _ _ h => h
  all_goals simp +contextual [Encodes, fieldsOf.eq_def, Instr.wf.eq_def, mk_eq_iff, hop]

/-! ## Row 0xC0 -/

/-- `X` of a `CMOVA` (R210). -/
theorem cmovaX_iff (x : BitVec 16) (dst src : BitVec 2) :
    x = encAcc dst (src.toNat * 2048) ↔
      x.getLsbD 15 = false ∧ x.extractLsb' 0 11 = 0 ∧ x.extractLsb' 13 2 = dst ∧ x.extractLsb' 11 2 = src := by
  have hx := x.isLt; have hs := src.isLt; have hd := dst.isLt
  rw [bit_eq_iff, Bool.toNat_false, extract_eq_zero, ← BitVec.toNat_inj (y := dst), ← BitVec.toNat_inj (y := src), toNat_extract, toNat_extract,
    ← BitVec.toNat_inj, encAcc, BitVec.toNat_ofNat]
  norm_num only at *
  omega

/-- `X` of a `CSCALE` (R210). -/
theorem cscaleX_iff (x : BitVec 16) (acc : BitVec 2) (rm : Rm) :
    x = encAcc acc rm.code ↔
      x.getLsbD 15 = false ∧ x.extractLsb' 3 10 = 0 ∧ x.extractLsb' 13 2 = acc ∧ (x.extractLsb' 0 3).toNat = rm.code := by
  have hx := x.isLt; have hs := rm.code_lt; have hd := acc.isLt
  rw [bit_eq_iff, Bool.toNat_false, extract_eq_zero, ← BitVec.toNat_inj (y := acc), toNat_extract, toNat_extract, ← BitVec.toNat_inj, encAcc,
    BitVec.toNat_ofNat]
  norm_num only at *
  omega

/-- `X` of a `CSPEC` (R222). -/
theorem cspecX_iff (x : BitVec 16) (v0 v1 : Bool) (b0 b1 : BitVec 2) :
    x = BitVec.ofNat 16 (v0.toNat + 2 * b0.toNat + 8 * v1.toNat + 16 * b1.toNat) ↔
      x.extractLsb' 6 10 = 0 ∧ x.getLsbD 0 = v0 ∧ x.extractLsb' 1 2 = b0 ∧ x.getLsbD 3 = v1 ∧ x.extractLsb' 4 2 = b1 := by
  have hx := x.isLt; have h0 := b0.isLt; have h1 := b1.isLt
  have hv (v : Bool) : v.toNat < 2 := by cases v <;> decide
  have hv0 := hv v0; have hv1 := hv v1
  rw [bit_eq_iff, bit_eq_iff, extract_eq_zero, ← BitVec.toNat_inj (y := b0), ← BitVec.toNat_inj (y := b1), toNat_extract, toNat_extract,
    ← BitVec.toNat_inj, BitVec.toNat_ofNat]
  norm_num only at *
  omega

theorem cscale_encodes (r : Raw) (hop : r.op.toNat = 0xCE) : Yields (Encodes r) (rowC 14 r) := by
  show Yields _ (mIs 0 r >>= _)
  simp only [yields_bind, mIs_iff _ _ _ (by decide : 0 < 8), nw0_iff, dF_iff, aF_iff, bF_iff, cN_iff]
  rintro _ hm _ hnw d hd a ⟨ha, hag⟩ b ⟨hb, hbg⟩ _ hc
  split
  case h_2 => exact yields_error _
  case h_1 rm hrm =>
    simp only [yields_bind, chk_iff, yields_ok, Bool.and_eq_true, Bool.not_eq_true', beq_iff_eq]
    rintro _ ⟨⟨h15, h3⟩, hsr⟩
    have hx := (cscaleX_iff r.x _ rm).2 ⟨h15, h3, rfl, (Rm.code_ofCode _ _ hrm).symm⟩
    exact ⟨congrArg some ((mk_eq_iff ..).2 ⟨hop, hm, hnw, hd, ha, hb, hc, hx⟩), and_of_parts (and_of_parts hag hbg) hsr⟩

theorem rowC_encodes (lo : Nat) (r : Raw) (hlo : lo < 16) (hop : r.op.toNat = 0xC0 + lo) : Yields (Encodes r) (rowC lo r) := by
  unfold rowC
  split
  case h_1 =>
    simp only [yields_bind, m01_iff]
    exact fun z hm => tileF_encodes 0xC0 _ hop hm (fun _ _ _ => rfl) fun _ _ _ h => h
  case h_2 =>
    simp only [yields_bind, mBelow_iff]
    rintro _ ⟨rfl, h4⟩
    refine tileF_encodes 0xC1 _ hop ?_ (fun _ _ _ => rfl) fun _ _ _ h => h
    generalize r.mod = y at h4
    revert y
    decide
  case h_3 | h_4 | h_9 =>
    simp only [yields_bind, mIs_iff _ _ _ (by decide : 0 < 8)]
    exact fun _ hm => tileF_encodes _ 0 hop hm (fun _ _ _ => rfl) fun _ _ _ h => h
  case h_6 =>
    simp only [yields_bind, m01_iff, nw0_iff, dF_iff, aN_iff, bN_iff, cN_iff, chk_iff, yields_ok, Bool.and_eq_true,
      Bool.not_eq_true', beq_iff_eq]
    rintro add hm _ hnw d hd _ ha _ hb _ hc _ ⟨h15, h0⟩
    exact ⟨congrArg some ((mk_eq_iff ..).2 ⟨hop, hm, hnw, hd, ha, hb, hc, (cmovaX_iff r.x _ _).2 ⟨h15, h0, rfl, rfl⟩⟩), rfl⟩
  case h_7 =>
    simp only [yields_bind, mIs_iff _ _ _ (by decide : 0 < 8), dS_iff, aN_iff, bN_iff, cN_iff, chk_iff, yields_ok,
      Bool.and_eq_true (_ == _), beq_iff_eq]
    rintro _ hm d hd _ ha _ hb _ hc _ ⟨h6, hbanks⟩
    exact ⟨congrArg some ((mk_eq_iff ..).2
      ⟨hop, hm, rfl, hd, ha, hb, hc, (cspecX_iff r.x _ _ _ _).2 ⟨h6, rfl, rfl, rfl, rfl⟩⟩), hbanks⟩
  case h_10 =>
    simp only [yields_bind, mIs_iff _ _ _ (by decide : 0 < 8), nw0_iff, dF_iff, bbF_iff, bF_iff, cN_iff, blkX_iff, yields_ok]
    intro _ hm _ hnw d hd b hb n hn _ hc s hs
    exact ⟨congrArg some ((mk_eq_iff ..).2
      ⟨hop, hm, hnw, hd, hb.1, hn.1, hc, blkX_of_readers r b s hb hs.1 hs.2.1⟩), and_of_parts hb.2.1 hn.2⟩
  case h_15 => exact cscale_encodes r hop
  case h_16 =>
    obtain rfl : lo = 15 := by simp only [imp_false] at *; omega
    simp +contextual [Encodes, fieldsOf.eq_def, Instr.wf.eq_def, mk_eq_iff, hop]
  all_goals simp +contextual [Encodes, fieldsOf.eq_def, Instr.wf.eq_def, mk_eq_iff, hop]

/-! ## Rows 0xD0 and 0xE0 -/

theorem rowD_encodes (lo : Nat) (r : Raw) (hop : r.op.toNat = 0xD0 + lo) : Yields (Encodes r) (rowD lo r) := by
  unfold rowD
  split
  case h_1 =>
    split
    case h_3 => exact yields_badMod
    case h_1 hm =>
      replace hm := (mod_eq_iff _ _ (by decide)).1 hm
      exact memVF_encodes 0xD0 0 hop hm (fun _ _ _ _ => rfl) fun _ _ _ _ => and_of_parts
    case h_2 hm =>
      replace hm := (mod_eq_iff _ _ (by decide)).1 hm
      simp only [yields_bind, nw0_iff, dV_iff, bbF_iff, bF_iff, cN_iff, blkX_iff, yields_ok]
      intro _ hnw d hd b hb n hn _ hc s hs
      obtain rfl : s = 0 := by simpa using hs.2.2
      exact ⟨congrArg some ((mk_eq_iff ..).2
        ⟨hop, hm, hnw, hd, hb.1, hn.1, hc, blkX_of_readers r b 0 hb hs.1 hs.2.1⟩), and_of_parts hb.2.1 hn.2⟩
  case h_2 =>
    simp only [yields_bind, mIs_iff _ _ _ (by decide : 0 < 8)]
    exact fun _ hm => memVF_encodes 0xD1 0 hop hm (fun _ _ _ _ => rfl) fun _ _ _ _ => and_of_parts
  all_goals simp +contextual [Encodes, fieldsOf.eq_def, Instr.wf.eq_def, mk_eq_iff, hop]

theorem rowE_encodes (lo : Nat) (r : Raw) (hop : r.op.toNat = 0xE0 + lo) : Yields (Encodes r) (rowE lo r) := by
  unfold rowE
  split
  case h_3 =>
    simp only [yields_bind, mIs_iff _ _ _ (by decide : 0 < 8)]
    exact fun _ hm => blkF_encodes 0xE2 0 hop hm (fun _ _ => rfl) fun _ _ h => h
  case h_4 =>
    split
    case h_2 => exact yields_badMod
    case h_1 sc hm =>
      replace hm := (lscopeM_iff _ _).1 hm
      simp +contextual [Encodes, fieldsOf.eq_def, Instr.wf.eq_def, mk_eq_iff, hop, hm]
  case h_6 | h_12 =>
    simp only [yields_bind, m01_iff]
    rintro (_ | _) hm <;> simp +contextual [Encodes, fieldsOf.eq_def, Instr.wf.eq_def, mk_eq_iff, hop, hm]
  case h_11 =>
    split
    case h_4 => exact yields_badMod
    all_goals
      rename_i hm
      replace hm := (mod_eq_iff _ _ (by decide)).1 hm
      simp +contextual [Encodes, fieldsOf.eq_def, Instr.wf.eq_def, mk_eq_iff, hop, hm]
  all_goals simp +contextual [Encodes, fieldsOf.eq_def, Instr.wf.eq_def, mk_eq_iff, hop]

/-! ## The full form (R65, R67) -/

/-- Soundness of the decoder on a full-form word. -/
theorem decodeRaw_encodes (r : Raw) : Yields (Encodes r) (decodeRaw r) := by
  have hlo : r.op.toNat % 16 < 16 := Nat.mod_lt _ (by decide)
  have hop := (Nat.div_add_mod r.op.toNat 16).symm
  unfold decodeRaw
  split
  case h_16 => exact yields_badOp
  all_goals
    rename_i hrow
    rw [hrow] at hop
  case h_1 => exact row0_encodes _ r hlo hop
  case h_2 => exact row1_encodes _ r hop
  case h_3 => exact row2_encodes _ r hlo hop
  case h_4 => exact row3_encodes _ r hlo hop
  case h_5 => exact row4_encodes _ r hop
  case h_6 => exact row5_encodes _ r hlo hop
  case h_7 => exact row6_encodes _ r hlo hop
  case h_8 => exact row7_encodes _ r hop
  case h_9 => exact row8_encodes _ r hlo hop
  case h_10 => exact row9_encodes _ r hop
  case h_11 => exact rowA_encodes _ r hop
  case h_12 => exact rowB_encodes _ r hlo hop
  case h_13 => exact rowC_encodes _ r hlo hop
  case h_14 => exact rowD_encodes _ r hop
  case h_15 => exact rowE_encodes _ r hop

end Sys2Proof
end

section
/-! SUPPORT. What the decoder's field readers and shared field shapes answer on the fields of a well-formed instruction. -/

namespace Sys2Proof

open Sys2Proof.Machine Sys2Proof.Claims

/-! ## Field readers on encoded fields -/

section
variable {op : BitVec 8} {mod : BitVec 3} {nw : Bool} {d : BitVec 8} {a b c : BitVec 9} {x : BitVec 16}

@[simp] theorem mTy_code (ok : VTy → Bool) (t : VTy) (h : ok t = true) :
    mTy ok ⟨op, BitVec.ofNat 3 t.code, nw, d, a, b, c, x⟩ = .ok t := (mTy_iff ..).2 ⟨rfl, h⟩
@[simp] theorem m01_toNat (z : Bool) : m01 ⟨op, BitVec.ofNat 3 z.toNat, nw, d, a, b, c, x⟩ = .ok z := (m01_iff ..).2 rfl
@[simp] theorem mIs_same (n : Nat) (h : n < 8) : mIs n ⟨op, BitVec.ofNat 3 n, nw, d, a, b, c, x⟩ = .ok () := (mIs_iff _ _ _ h).2 rfl
@[simp] theorem mBelow_same (n : Nat) (h : mod.toNat < n) : mBelow n ⟨op, mod, nw, d, a, b, c, x⟩ = .ok mod.toNat :=
  (mBelow_iff ..).2 ⟨rfl, h⟩
@[simp] theorem scondM_code (t : SCond) : scondM ⟨op, BitVec.ofNat 3 t.code, nw, d, a, b, c, x⟩ = .ok t := (scondM_iff ..).2 rfl
@[simp] theorem extM_code (t : ExtMode) : extM ⟨op, BitVec.ofNat 3 t.code, nw, d, a, b, c, x⟩ = .ok t := (extM_iff ..).2 rfl
@[simp] theorem ldM_code (t : LdTy) : ldM ⟨op, BitVec.ofNat 3 t.code, nw, d, a, b, c, x⟩ = .ok t := (ldM_iff ..).2 rfl
@[simp] theorem stM_code (t : StTy) : stM ⟨op, BitVec.ofNat 3 t.code, nw, d, a, b, c, x⟩ = .ok t := (stM_iff ..).2 rfl
@[simp] theorem aoppM_code (t : AOpP) : aoppM ⟨op, BitVec.ofNat 3 t.code, nw, d, a, b, c, x⟩ = .ok t := (aoppM_iff ..).2 rfl
@[simp] theorem aopM_ofNat_code (t : AOp) : aopM ⟨op, BitVec.ofNat 3 t.code, nw, d, a, b, c, x⟩ = t := aopM_of_mod _ _ rfl

@[simp] theorem nw0_false : nw0 ⟨op, mod, false, d, a, b, c, x⟩ = .ok () := (nw0_iff ..).2 rfl
@[simp] theorem dN_zero : dN ⟨op, mod, nw, 0#8, a, b, c, x⟩ = .ok () := (dN_iff ..).2 rfl
@[simp] theorem aN_zero : aN ⟨op, mod, nw, d, 0#9, b, c, x⟩ = .ok () := (aN_iff ..).2 rfl
@[simp] theorem bN_zero : bN ⟨op, mod, nw, d, a, 0#9, c, x⟩ = .ok () := (bN_iff ..).2 rfl
@[simp] theorem cN_zero : cN ⟨op, mod, nw, d, a, b, 0#9, x⟩ = .ok () := (cN_iff ..).2 rfl
@[simp] theorem xN_zero : xN ⟨op, mod, nw, d, a, b, c, 0#16⟩ = .ok () := (xN_iff ..).2 rfl

@[simp] theorem dV_enc (d : VR) : dV ⟨op, mod, nw, d.enc, a, b, c, x⟩ = .ok d := (dV_iff ..).2 rfl
@[simp] theorem dVc_enc (ok : VR → Bool) (d : VR) (h : ok d = true) :
    dVc ok ⟨op, mod, nw, d.enc, a, b, c, x⟩ = .ok d := (dVc_iff ..).2 ⟨rfl, h⟩
@[simp] theorem dS_enc (d : SR) : dS ⟨op, mod, nw, d.enc, a, b, c, x⟩ = .ok d := (dS_iff ..).2 rfl
@[simp] theorem dSc_enc (ok : SR → Bool) (d : SR) (h : ok d = true) :
    dSc ok ⟨op, mod, nw, d.enc, a, b, c, x⟩ = .ok d := (dSc_iff ..).2 ⟨rfl, h⟩
@[simp] theorem dF_enc (d : FR) : dF ⟨op, mod, nw, d.enc, a, b, c, x⟩ = .ok d := (dF_iff ..).2 rfl
@[simp] theorem aF_enc (cls : Src → Bool) (s : Src) (h : cls s = true) :
    aF cls ⟨op, mod, nw, d, s.enc, b, c, x⟩ = .ok s := (aF_iff ..).2 ⟨rfl, h⟩
@[simp] theorem bF_enc (cls : Src → Bool) (s : Src) (h : cls s = true) :
    bF cls ⟨op, mod, nw, d, a, s.enc, c, x⟩ = .ok s := (bF_iff ..).2 ⟨rfl, h⟩
@[simp] theorem cF_enc (cls : Src → Bool) (s : Src) (h : cls s = true) :
    cF cls ⟨op, mod, nw, d, a, b, s.enc, x⟩ = .ok s := (cF_iff ..).2 ⟨rfl, h⟩
@[simp] theorem maskF_enc9 (code : Nat) (d : SR) (h : d.isMask = true) : maskF d.enc9 code = .ok d :=
  (maskF_iff ..).2 ⟨rfl, h⟩
@[simp] theorem mbF_enc (s : Src) (i : I25) (h : i.base s = true) :
    mbF ⟨op, mod, nw, d, s.enc, b, i.encC, x⟩ = .ok s := (mbF_iff ..).2 ⟨rfl, (baseOk_encC i s).trans h⟩
@[simp] theorem i25F_enc (rule : MemRule) (i : I25) (h : i.ok rule = true) :
    i25F rule ⟨op, mod, nw, d, a, b, i.encC, i.encX⟩ = .ok i := (i25F_iff ..).2 ⟨rfl, rfl, h⟩
@[simp] theorem xmF_enc (hi : Nat) (ok : Xm → Bool) (m : Xm) (hhi : hi < 256) (h : ok m = true) :
    xmF hi ok ⟨op, mod, nw, d, a, b, c, m.enc hi⟩ = .ok m := (xmF_iff _ _ _ _ hhi).2 ⟨rfl, h⟩
@[simp] theorem xmF_code (ok : Xm → Bool) (m : Rm) (h : ok ⟨false, m⟩ = true) :
    xmF 0 ok ⟨op, mod, nw, d, a, b, c, BitVec.ofNat 16 m.code⟩ = .ok ⟨false, m⟩ :=
  (xmF_iff _ _ _ _ (by decide)).2 ⟨by simp [Xm.enc], h⟩
@[simp] theorem fieldF_fieldX (lo w : BitVec 5) (h : fieldFits lo w = true) :
    fieldF ⟨op, mod, nw, d, a, b, c, fieldX lo w⟩ = .ok (lo, w) := (fieldF_iff ..).2 ⟨rfl, h⟩
@[simp] theorem accX_encAcc (s : BitVec 2) : accX ⟨op, mod, nw, d, a, b, c, encAcc s 0⟩ = .ok s := (accX_iff ..).2 rfl
@[simp] theorem m01_zero : m01 ⟨op, 0#3, nw, d, a, b, c, x⟩ = .ok false := rfl
@[simp] theorem m01_one : m01 ⟨op, 1#3, nw, d, a, b, c, x⟩ = .ok true := rfl
@[simp] theorem mClass_code (t : Ty) (h : t.isFloat = true) : mClass ⟨op, BitVec.ofNat 3 t.code, nw, d, a, b, c, x⟩ = .ok t :=
  (mClass_iff ..).2 ⟨rfl, h⟩
@[simp] theorem bbF_x (v : Blk) (s : BitVec 2) (h : v.ok = true) : bbF ⟨op, mod, nw, d, v.base.enc, b, c, v.x s⟩ = .ok v := by
  refine (bbF_iff ..).2 ⟨rfl, h, bool_eq_of_toNat ?_, BitVec.eq_of_toNat_eq ?_⟩ <;>
    · have h1 := s.isLt; have h2 := v.disp.isLt
      have h3 : v.bsp.toNat < 2 := by cases v.bsp <;> decide
      simp only [bit_toNat, toNat_extract, Blk.x, BitVec.toNat_ofNat]
      norm_num only at *
      omega
@[simp] theorem blkX_x (slot : Bool) (v : Blk) (s : BitVec 2) (h : slot = true ∨ s = 0) :
    blkX slot ⟨op, mod, nw, d, a, b, c, v.x s⟩ = .ok s := by
  refine (blkX_iff ..).2 ⟨bool_eq_of_toNat ?_, BitVec.eq_of_toNat_eq ?_, h⟩ <;>
    · have h1 := s.isLt; have h2 := v.disp.isLt
      have h3 : v.bsp.toNat < 2 := by cases v.bsp <;> decide
      simp only [bit_toNat, toNat_extract, Blk.x, BitVec.toNat_ofNat, Bool.toNat_false]
      norm_num only at *
      omega

/-! ## The `X` of a cross-lane word (R139, R144) -/

theorem laneX_toNat (m : Member) (e : Bool) (cop g k : Nat) (h : e.toNat * 16384 + cop * 2048 + g * 256 + k < 32768) :
    (laneX m e cop g k).toNat / 32768 = m.mall
      ∧ (laneX m e cop g k).toNat % 32768 = e.toNat * 16384 + cop * 2048 + g * 256 + k := by
  have hm : m.mall < 2 := by cases m <;> simp [Member.mall]
  simp only [laneX, BitVec.toNat_ofNat]
  norm_num only at *
  omega

@[simp] theorem memberF_laneX (m : Member) (e : Bool) (cop g k : Nat) (hm : m.ok = true) (hc : cop < 8) (hg : g < 8)
    (hk : k < 256) : memberF ⟨op, mod, nw, d, a, b, m.encC, laneX m e cop g k⟩ = .ok m := by
  have he : e.toNat < 2 := by cases e <;> decide
  exact (memberF_iff ..).2 ⟨(laneX_toNat m e cop g k (by omega)).1, rfl, hm⟩

@[simp] theorem laneXF_laneX (useG useArg : Bool) (m : Member) (g k : Nat) (hg : g < 8) (hk : k < 256)
    (h1 : (if useG then segOk (BitVec.ofNat 3 g) else BitVec.ofNat 3 g == 0) = true)
    (h2 : (useArg || BitVec.ofNat 8 k == 0) = true) :
    laneXF useG useArg ⟨op, mod, nw, d, a, b, c, laneX m false 0 g k⟩ = .ok (BitVec.ofNat 3 g, BitVec.ofNat 8 k) := by
  refine (laneXF_iff ..).2 ⟨?_, h1, h2⟩
  have h := (laneX_toNat m false 0 g k (by simp; omega)).2
  simp only [BitVec.toNat_ofNat]
  simp only [Bool.toNat_false] at h
  norm_num only at *
  omega

@[simp] theorem scanXF_laneX (t : VTy) (scan : Bool) (m : Member) (o : Cop) (e : Bool) (g : BitVec 3) (y : Xm)
    (he : (scan || !e) = true) (hg : segOk g = true) (hs : scanOk t o y = true) :
    scanXF t scan ⟨op, mod, nw, d, a, b, c, laneX m e o.code g.toNat (y.sat.toNat * 8 + y.rm.code)⟩ = .ok (o, e, g, y) := by
  have ho : o.code < 6 := by cases o <;> decide
  have hb := g.isLt; have hr := y.rm.code_lt
  have hy : y.sat.toNat < 2 := by cases y.sat <;> decide
  have hE : e.toNat < 2 := by cases e <;> decide
  exact (scanXF_iff ..).2 ⟨(laneX_toNat m e _ _ _ (by omega)).2, he, hg, hs⟩


end

/-- A field that has been accepted. -/
@[simp] theorem ok_bind {α β : Type} (a : α) (f : α → Dec β) : (Except.ok a >>= f) = f a := rfl


section
variable {op : BitVec 8} {mod : BitVec 3} {nw : Bool} {d : BitVec 8} {a b c : BitVec 9} {x : BitVec 16}

/-! ## Shared field shapes -/

@[simp] theorem mFl_code (t : VTy) (h : t.isFloat = true) : mFl ⟨op, BitVec.ofNat 3 t.code, nw, d, a, b, c, x⟩ = .ok t :=
  (mFl_iff ..).2 ⟨rfl, h⟩

@[simp] theorem vab_enc (d : VR) (s z : Src) (hs : s.gv = true) (hz : z.gv = true) :
    vab ⟨op, mod, nw, d.enc, s.enc, z.enc, 0#9, x⟩ = .ok (d, s, z) := (vab_iff ..).2 ⟨rfl, ⟨rfl, hs⟩, ⟨rfl, hz⟩, rfl⟩

@[simp] theorem vb_enc (cls : Src → Bool) (d : VR) (z : Src) (hz : cls z = true) :
    vb cls ⟨op, mod, nw, d.enc, 0#9, z.enc, 0#9, x⟩ = .ok (d, z) := (vb_iff ..).2 ⟨rfl, rfl, ⟨rfl, hz⟩, rfl⟩

@[simp] theorem vabc_enc (d : VR) (s z y : Src) (hs : s.gv = true) (hz : z.gv = true) (hy : y.gv = true) :
    vabc ⟨op, mod, nw, d.enc, s.enc, z.enc, y.enc, x⟩ = .ok (d, s, z, y) :=
  (vabc_iff ..).2 ⟨rfl, ⟨rfl, hs⟩, ⟨rfl, hz⟩, rfl, hy⟩

@[simp] theorem memVF_enc (rule : MemRule) (dOk : VR → Bool) (k : VR → Src → Src → I25 → Instr) (d : VR) (s z : Src) (i : I25)
    (hd : dOk d = true) (h : memV rule s z i = true) :
    memVF rule dOk k ⟨op, mod, false, d.enc, s.enc, z.enc, i.encC, i.encX⟩ = .ok (k d s z i) := by
  simp only [memV, Bool.and_eq_true] at h
  simp [memVF, hd, h]

@[simp] theorem memVF_anyV (rule : MemRule) (k : VR → Src → Src → I25 → Instr) (d : VR) (s z : Src) (i : I25)
    (h : memV rule s z i = true) :
    memVF rule anyV k ⟨op, mod, false, d.enc, s.enc, z.enc, i.encC, i.encX⟩ = .ok (k d s z i) :=
  memVF_enc rule anyV k d s z i rfl h

@[simp] theorem memSF_enc (rule : MemRule) (dOk : SR → Bool) (k : SR → Src → Src → I25 → Instr) (d : SR) (s z : Src) (i : I25)
    (hd : dOk d = true) (h : memS rule s z i = true) :
    memSF rule dOk k ⟨op, mod, false, d.enc, s.enc, z.enc, i.encC, i.encX⟩ = .ok (k d s z i) := by
  simp only [memS, Bool.and_eq_true] at h
  simp [memSF, hd, h]

@[simp] theorem mem0F_enc {α : Type} (rule : MemRule) (dd : Raw → Dec α) (k : α → Src → I25 → Instr) (v : α) (s : Src) (i : I25)
    (hd : dd ⟨op, mod, false, d, s.enc, 0#9, i.encC, i.encX⟩ = .ok v) (h : mem0 rule s i = true) :
    mem0F rule dd k ⟨op, mod, false, d, s.enc, 0#9, i.encC, i.encX⟩ = .ok (k v s i) := by
  simp only [mem0, Bool.and_eq_true] at h
  simp [mem0F, hd, h]

@[simp] theorem alu_encAlu (k : Bool → Bool → SR → Src → Alu2 → Instr) (op : Nat) (u nw : Bool) (d : SR) (s : Src) (z : Alu2)
    (hs : s.gs = true) (hz : z.ok = true) : alu k (encAlu op u nw d s z) = .ok (k u nw d s z) := by
  cases z <;> cases u <;> simp_all [alu, encAlu, mk, Alu2.ok]

@[simp] theorem encAlu_op (op : Nat) (u nw : Bool) (d : SR) (s : Src) (z : Alu2) :
    (encAlu op u nw d s z).op = BitVec.ofNat 8 op := by
  cases z <;> rfl

@[simp] theorem blkF_enc (k : FR → Blk → Instr) (v : FR) (w : Blk) (h : w.ok = true) :
    blkF k ⟨op, mod, false, v.enc, w.base.enc, 0#9, 0#9, w.x 0#2⟩ = .ok (k v w) := by
  simp [blkF, h]

@[simp] theorem tileF_enc (k : FR → Blk → BitVec 2 → Instr) (v : FR) (w : Blk) (s : BitVec 2) (h : w.ok = true) :
    tileF k ⟨op, mod, false, v.enc, w.base.enc, 0#9, 0#9, w.x s⟩ = .ok (k v w s) := by
  simp [tileF, h]
end

/-! ## Codes and immediates -/

@[simp] theorem chk_true (f : Nat) : chk true f = .ok () := rfl

@[simp] theorem lscopeM_code (t : LScope) : lscopeM 0 (t.code % 8) = some t := by cases t <;> rfl

@[simp] theorem Dot4.ofCode_code_mod (e : Dot4) : Dot4.ofCode (e.code % 8) = some e := by cases e <;> rfl

theorem Dot4.isFloat_eq (e : Dot4) : e.isFloat = (e == .e4m3 || e == .e5m2) := by cases e <;> rfl

theorem QTy.isLH_eq (q : QTy) : (!q.isLH) = (q != .l6 && q != .h4) := by cases q <;> rfl

@[simp] theorem toNat_lt_of_width {w : Nat} (x : BitVec w) (n : Nat) (h : 2 ^ w ≤ n) : x.toNat < n := x.isLt.trans_le h

@[simp] theorem toNat_mod_lt_of_width {w : Nat} (x : BitVec w) (m n : Nat) (h : 2 ^ w ≤ n) : x.toNat % m < n :=
  (Nat.mod_le _ _).trans_lt (x.isLt.trans_le h)

@[simp] theorem extract_setWidth {w v : Nat} (x : BitVec w) (h : w ≤ v) : (x.setWidth v).extractLsb' 0 w = x := by
  have := Nat.pow_le_pow_right (n := 2) (by decide) h
  apply BitVec.eq_of_toNat_eq
  rw [toNat_extract, BitVec.toNat_setWidth, Nat.mod_eq_of_lt (a := x.toNat) (by omega)]
  simp

end Sys2Proof
end

section
/-! SUPPORT. The decoder on the fields of the well-formed words whose immediates and `X` need an argument of their own. -/

namespace Sys2Proof

open Sys2Proof.Machine Sys2Proof.Claims

/-- The decoder answers `i` for the fields of `i`, if `i` is well-formed. -/
def Decodes (i : Instr) : Prop := ∀ r, Encodes r i → decodeRaw r = .ok i

theorem Decodes.of (i : Instr) (r : Raw) (hf : fieldsOf i = some r) (h : i.wf = true → decodeRaw r = .ok i) : Decodes i := by
  rintro t ⟨hr, hw⟩
  obtain rfl := Option.some.inj (hf.symm.trans hr)
  exact h hw

/-! ## Scalar and control words -/

theorem imm32_of_fields (imm : BitVec 32) (op : BitVec 8) (mod : BitVec 3) (nw : Bool) (d : BitVec 8) (a : BitVec 9) :
    (⟨op, mod, nw, d, a, BitVec.ofNat 9 (imm.toNat / 2 ^ 25), imm.extractLsb' 16 9, imm.extractLsb' 0 16⟩ : Raw).i34.extractLsb' 0 32
      = imm := by
  have h := imm.isLt
  apply BitVec.eq_of_toNat_eq
  simp only [Raw.i34, toNat_extract, BitVec.toNat_ofNat]
  norm_num only at *
  omega

theorem decodes_smovi (nw : Bool) (d : SR) (imm : BitVec 32) : Decodes (.smovi nw d imm) := by
  refine .of _ _ rfl fun _ => ?_
  have h : (BitVec.ofNat 9 (imm.toNat / 2 ^ 25)).toNat < 128 := by
    have := imm.isLt
    rw [BitVec.toNat_ofNat]
    norm_num only at *
    omega
  have hi := imm32_of_fields imm 16#8 0#3 nw d.enc 0#9
  generalize BitVec.ofNat 9 (imm.toNat / 2 ^ 25) = b at h hi
  simp [mk, decodeRaw, row1, h, hi]

theorem decodes_slea (z : Bool) (d : SR) (a b : Src) (sh : BitVec 2) : Decodes (.slea z d a b sh) := by
  refine .of _ _ rfl fun hw => ?_
  simp only [Instr.wf.eq_def, Bool.and_eq_true] at hw
  cases z <;> simp [mk, decodeRaw, row1, hw]

theorem decodes_saddp (d : SR) (a : Src) (b : AddP) : Decodes (.saddp d a b) := by
  cases b <;>
  · refine .of _ _ rfl fun hw => ?_
    simp only [Instr.wf.eq_def, Bool.and_eq_true] at hw
    simp [mk, decodeRaw, row1, hw]

theorem decodes_sext (m : ExtMode) (nw : Bool) (d : SR) (a : Src) : Decodes (.sext m nw d a) := by
  refine .of _ _ rfl fun hw => ?_
  simp only [Instr.wf.eq_def, Bool.and_eq_true, Bool.or_eq_true, Bool.not_eq_true'] at hw
  obtain ⟨ha, hwide | ⟨hp, hnw⟩⟩ := hw
  · simp [mk, decodeRaw, row1, ha, hwide]
  · simp [mk, decodeRaw, row1, ha, hp, hnw]

theorem decodes_smask (nw : Bool) (o : MaskOp) : Decodes (.smask nw o) := by
  cases o <;>
  · refine .of _ _ rfl fun hw => ?_
    simp only [Instr.wf.eq_def, MaskOp.ok, MaskOp.nwOk, Bool.and_eq_true, Bool.not_eq_true'] at hw
    simp [encMaskOp, mk, decodeRaw, row1, maskWord, hw]

theorem decodes_brv (n : Bool) (a : SR) (j : BitVec 18) (t : BitVec 16) : Decodes (.brv n a j t) := by
  refine .of _ _ rfl fun hw => ?_
  have hj : BitVec.ofNat 18 ((BitVec.ofNat 9 (j.toNat / 512)).toNat * 512 + (BitVec.ofNat 9 (j.toNat % 512)).toNat) = j := by
    have := j.isLt
    apply BitVec.eq_of_toNat_eq
    simp only [BitVec.toNat_ofNat]
    norm_num only at *
    omega
  generalize BitVec.ofNat 9 (j.toNat / 512) = b at hj
  generalize BitVec.ofNat 9 (j.toNat % 512) = z at hj
  simp only [Instr.wf.eq_def] at hw
  simp [mk, decodeRaw, row2, hw, hj]

theorem decodes_waitc (k : Ctr) (n : BitVec 6) : Decodes (.waitc k n) := by
  cases k <;>
  · refine .of _ _ rfl fun _ => ?_
    simp [mk, decodeRaw, row2]

/-! ## Vector words -/

theorem decodes_vcmp (t : VTy) (cc : VCond) (d : SR) (a b : Src) : Decodes (.vcmp t cc d a b) := by
  refine .of _ _ rfl fun hw => ?_
  simp only [Instr.wf.eq_def, Bool.and_eq_true] at hw
  generalize hx : BitVec.ofNat 16 (cc.code * 256) = x
  obtain ⟨h11, h0, h8⟩ := (codeX_iff x _ 11 3 5 rfl rfl cc.code_lt).1 hx.symm
  simp only [BitVec.extractLsb'_toNat, Nat.reducePow] at h8
  simp [mk, decodeRaw, row4, hw, h11, h0, h8]

theorem decodes_vmovi (t : VTy) (nw : Bool) (d : VR) (imm : BitVec 25) : Decodes (.vmovi t nw d imm) := by
  refine .of _ _ rfl fun hw => ?_
  simp only [Instr.wf.eq_def, Bool.or_eq_true, decide_eq_true_eq] at hw
  have hi : BitVec.ofNat 25 ((BitVec.ofNat 9 (imm.toNat / 65536)).toNat * 65536 + (imm.extractLsb' 0 16).toNat) = imm := by
    have := imm.isLt
    apply BitVec.eq_of_toNat_eq
    simp only [toNat_extract, BitVec.toNat_ofNat]
    norm_num only at *
    omega
  have hz : imm.toNat < 65536 → BitVec.ofNat 9 (imm.toNat / 65536) = 0 := fun h => by rw [Nat.div_eq_of_lt h]; rfl
  generalize BitVec.ofNat 9 (imm.toNat / 65536) = b at hi hz
  generalize imm.extractLsb' 0 16 = x at hi
  have hb : ((t != .f16 && t != .bf16) || b == 0) = true := by
    rw [Bool.or_eq_true, beq_iff_eq]
    exact hw.imp_right hz
  simp only [mk, BitVec.ofNat_eq_ofNat] at hb ⊢
  simp [decodeRaw, row4, hb, hi]

theorem decodes_vdot4 (e : Dot4) (nw : Bool) (d : VR) (a b c : Src) (m : Xm) : Decodes (.vdot4 e nw d a b c m) := by
  refine .of _ _ rfl fun hw => ?_
  simp only [Instr.wf.eq_def, ← Dot4.isFloat_eq, Bool.and_eq_true] at hw
  simp [mk, decodeRaw, row4, hw]

theorem decodes_vsgnj (t : VTy) (v : SgnVar) (nw : Bool) (d : VR) (a b : Src) : Decodes (.vsgnj t v nw d a b) := by
  refine .of _ _ rfl fun hw => ?_
  simp only [Instr.wf.eq_def, Bool.and_eq_true] at hw
  cases v <;> simp [SgnVar.code, mk, decodeRaw, row5, hw]

theorem seg1_of_fields (k : VTy → Bool → VR → Src → BitVec 3 → Instr) (op : BitVec 8) (t : VTy) (nw : Bool) (d : VR) (a : Src)
    (g : BitVec 3) (ht : t.isFloat = true) (ha : a.gv = true) (hg : segOk g = true) :
    seg1 k ⟨op, BitVec.ofNat 3 t.code, nw, d.enc, a.enc, 0#9, 0#9, BitVec.ofNat 16 (g.toNat * 256)⟩ = .ok (k t nw d a g) := by
  generalize hx : BitVec.ofNat 16 (g.toNat * 256) = x
  obtain ⟨h11, h0, h8⟩ := (codeX_iff x _ 11 3 5 rfl rfl g.isLt).1 hx.symm
  replace h8 : x.extractLsb' 8 3 = g := BitVec.eq_of_toNat_eq h8
  simp [seg1, ht, ha, h11, h0, h8, hg]

theorem decodes_vradd (t : VTy) (nw : Bool) (d : VR) (a : Src) (g : BitVec 3) (m : Xm) : Decodes (.vradd t nw d a g m) := by
  refine .of _ _ rfl fun hw => ?_
  simp only [Instr.wf.eq_def, Bool.and_eq_true] at hw
  have h8 : (m.enc g.toNat).extractLsb' 8 3 = g := BitVec.eq_of_toNat_eq (m.enc_hi g.toNat 3 (by decide) g.isLt)
  have hg := g.isLt
  simp [mk, decodeRaw, row5, mFl, hw, h8, (by omega : g.toNat < 256)]

theorem decodes_vcvt (dt st : Ty) (nw : Bool) (d : VR) (b : Src) (m : Xm) : Decodes (.vcvt dt st nw d b m) := by
  refine .of _ _ rfl fun hw => ?_
  simp only [Instr.wf.eq_def, Bool.and_eq_true] at hw
  obtain ⟨⟨hb, hk⟩, hok⟩ := hw
  generalize hx : BitVec.ofNat 16 (dt.code * 256 + st.code * 16 + m.sat.toNat * 8 + m.rm.code) = x
  obtain ⟨h12, h8, h4, h3, h0⟩ := (vcvtX_iff x dt st m).1 hx.symm
  have hcls (r : Raw) (hr : r.x = x) : cvtCls r b = true := by
    simp only [cvtCls, hr, h4, Ty.ofCode_code, hb, Bool.true_and]
    rwa [Bool.or_comm]
  simp only [BitVec.extractLsb'_toNat, Nat.reducePow] at h8 h4
  simp only [BitVec.getLsbD_eq_getElem (by decide : 3 < 16)] at h3
  simp [mk, decodeRaw, row6, hcls, h12, h8, h4, h3, h0, hok]

theorem decodes_vpack (f : PackTo) (nw : Bool) (d : VR) (a b : Src) (m : Xm) : Decodes (.vpack f nw d a b m) := by
  have hp (p : Bool) : (m.enc p.toNat).getLsbD 8 = p := by
    apply bool_eq_of_toNat
    have := m.enc_hi p.toNat 1 (by decide) (by cases p <;> decide)
    rwa [toNat_extract, pow_one, ← bit_toNat] at this
  have h2 (p : Bool) : p.toNat < 256 := by cases p <;> decide
  cases f <;>
  · refine .of _ _ rfl fun hw => ?_
    simp only [Instr.wf.eq_def, Bool.and_eq_true] at hw
    simp [-BitVec.getLsbD_eq_getElem, mk, decodeRaw, row6, hw, hp, h2]

theorem qX_of_codeX (q : QTy) (r : Raw) (h : (r.x.extractLsb' 8 4).toNat = q.code) : qX r = some q := by
  rw [qX, h, QTy.ofCode_code]

theorem decodes_vqnt (q : QTy) (nw : Bool) (d : VR) (a b : Src) (m : Xm) : Decodes (.vqnt q nw d a b m) := by
  refine .of _ _ rfl fun hw => ?_
  simp only [Instr.wf.eq_def, ← QTy.isLH_eq, Bool.and_eq_true] at hw
  have hq (r : Raw) (hr : r.x = m.enc q.code) : qX r = some q :=
    qX_of_codeX q r (by rw [hr, m.enc_hi _ _ (by decide) q.code_lt])
  simp [mk, decodeRaw, row6, hw, hq, q.code_lt.trans (by decide : 2 ^ 4 < 256)]

theorem decodes_vdqnt (q : QTy) (nw : Bool) (d : VR) (a b : Src) (rm : Rm) : Decodes (.vdqnt q nw d a b rm) := by
  refine .of _ _ rfl fun hw => ?_
  simp only [Instr.wf.eq_def, ← QTy.isLH_eq, Bool.and_eq_true] at hw
  have hq (r : Raw) (hr : r.x = Xm.enc ⟨false, rm⟩ q.code) : qX r = some q :=
    qX_of_codeX q r (by rw [hr, Xm.enc_hi _ _ _ (by decide) q.code_lt])
  have hcls (r : Raw) (hr : r.x = Xm.enc ⟨false, rm⟩ q.code) : qCls r a = true := by
    simp only [qCls, hq r hr, hw, Bool.and_self]
  simp [mk, decodeRaw, row6, hw, hq, hcls, q.code_lt.trans (by decide : 2 ^ 4 < 256)]

theorem planeF_of_fields (k : HTy → Bool → VR → Src → Instr) (op : BitVec 8) (h : HTy) (nw : Bool) (d : VR) (b : Src)
    (hb : b.gv = true) (hk : b.notK = true) :
    planeF k ⟨op, 0#3, nw, d.enc, 0#9, b.enc, 0#9, BitVec.ofNat 16 (h.code * 256)⟩ = .ok (k h nw d b) := by
  generalize hx : BitVec.ofNat 16 (h.code * 256) = x
  obtain ⟨h12, h0, h8⟩ := (codeX_iff x _ 12 4 4 rfl rfl h.code_lt).1 hx.symm
  simp only [BitVec.extractLsb'_toNat, Nat.reducePow] at h8
  simp [planeF, hb, hk, h12, h0, h8]

theorem decodes_vbscl (q : QTy) (nw : Bool) (d : VR) (b : Src) : Decodes (.vbscl q nw d b) := by
  refine .of _ _ rfl fun hw => ?_
  simp only [Instr.wf.eq_def] at hw
  generalize hx : BitVec.ofNat 16 (q.code * 256) = x
  obtain ⟨h12, h0, h8⟩ := (codeX_iff x _ 12 4 4 rfl rfl q.code_lt).1 hx.symm
  have hq (r : Raw) (hr : r.x = x) : qX r = some q := qX_of_codeX q r (by rw [hr, h8])
  simp [mk, decodeRaw, row6, hw, hq, h12, h0]

theorem decodes_vunpk (f : UnpkFrom) (nw : Bool) (d : VR) (b : Src) : Decodes (.vunpk f nw d b) := by
  cases f with
  | f16 e | bf16 e =>
    refine .of _ _ rfl fun hw => ?_
    simp only [Instr.wf.eq_def] at hw
    generalize hx : BitVec.ofNat 16 (e.toNat * 256) = x
    obtain ⟨h9, h0, h8⟩ := (codeX_iff x _ 9 1 7 rfl rfl (by cases e <;> decide)).1 hx.symm
    rw [toNat_extract, pow_one, ← bit_toNat] at h8
    replace h8 := bool_eq_of_toNat h8
    rw [BitVec.getLsbD_eq_getElem (by decide)] at h8
    simp [mk, decodeRaw, row6, hw, h9, h0, h8]
  | e4m3 e | e5m2 e =>
    refine .of _ _ rfl fun hw => ?_
    simp only [Instr.wf.eq_def] at hw
    generalize hx : BitVec.ofNat 16 (e.toNat * 256) = x
    obtain ⟨h10, h0, h8⟩ := (codeX_iff x _ 10 2 6 rfl rfl e.isLt).1 hx.symm
    replace h8 : x.extractLsb' 8 2 = e := BitVec.eq_of_toNat_eq h8
    simp [mk, decodeRaw, row6, hw, h10, h0, h8]

end Sys2Proof
end

section
/-! SUPPORT. The decoder on the fields of the well-formed cross-lane, memory, synchronisation, engine and system words whose `X`
or `MOD` needs an argument of its own. -/

namespace Sys2Proof

open Sys2Proof.Machine Sys2Proof.Claims

/-! ## Cross-lane words -/

theorem decodes_vbfly (f : Bfly) (nw : Bool) (d : VR) (a : Src) (j : BitVec 7) (m : Member) :
    Decodes (.vbfly f nw d a j m) := by
  have hx := (laneX_toNat m false 0 0 j.toNat (by simp)).2
  have hj : (laneX m false 0 0 j.toNat).extractLsb' 0 7 = j := by
    apply BitVec.eq_of_toNat_eq
    have := j.isLt
    rw [toNat_extract]
    simp only [Bool.toNat_false] at hx
    norm_num only at *
    omega
  have h7 : (laneX m false 0 0 j.toNat).getLsbD 7 = false := by
    have := j.isLt
    rw [bit_eq_iff, Bool.toNat_false]
    simp only [Bool.toNat_false] at hx
    norm_num only at *
    omega
  rw [BitVec.getLsbD_eq_getElem (by decide)] at h7
  cases f <;>
  · refine .of _ _ rfl fun hw => ?_
    simp only [Instr.wf.eq_def, Bool.and_eq_true, BitVec.ofNat_eq_ofNat] at hw
    simp [mk, decodeRaw, row7, hw, hj, h7]

theorem decodes_vvote (o : VoteOp) (d : SR) (a : Src) (m : Member) : Decodes (.vvote o d a m) := by
  cases o <;>
  · refine .of _ _ rfl fun hw => ?_
    simp [Instr.wf.eq_def] at hw
    simp [mk, decodeRaw, row7, hw]

theorem decodes_vscan (t : VTy) (o : Cop) (e : Bool) (g : BitVec 3) (y : Xm) (nw : Bool) (d : VR) (a : Src) (m : Member) :
    Decodes (.vscan t o e g y nw d a m) := by
  refine .of _ _ rfl fun hw => ?_
  simp only [Instr.wf.eq_def, Bool.and_eq_true] at hw
  have ho := o.code_lt
  have hy : y.sat.toNat * 8 + y.rm.code < 256 := by
    have := y.rm.code_lt
    have : y.sat.toNat < 2 := by cases y.sat <;> decide
    omega
  simp [mk, decodeRaw, row7, hw, ho, hy]

theorem decodes_vrdc (t : VTy) (o : Cop) (g : BitVec 3) (y : Xm) (nw : Bool) (d : VR) (a : Src) (m : Member) :
    Decodes (.vrdc t o g y nw d a m) := by
  refine .of _ _ rfl fun hw => ?_
  simp only [Instr.wf.eq_def, Bool.and_eq_true] at hw
  have ho := o.code_lt
  have hy : y.sat.toNat * 8 + y.rm.code < 256 := by
    have := y.rm.code_lt
    have : y.sat.toNat < 2 := by cases y.sat <;> decide
    omega
  simp [mk, decodeRaw, row7, hw, ho, hy]

theorem decodes_xvec (n : VR) : Decodes (.xvec n) := by
  refine .of _ _ rfl fun hw => ?_
  simp only [Instr.wf.eq_def] at hw
  simp [mk, decodeRaw, row7, hw]

theorem decodes_rng (f nw : Bool) (d : VR) : Decodes (.rng f nw d) := by
  cases f <;>
  · refine .of _ _ rfl fun hw => ?_
    simp [mk, decodeRaw, row7]

/-! ## Memory and synchronisation words -/

theorem decodes_sld (t : Option LdTy) (d : SR) (a b : Src) (i : I25) : Decodes (.sld t d a b i) := by
  cases t with
  | none =>
    refine .of _ _ rfl fun hw => ?_
    simp only [Instr.wf.eq_def, Bool.and_eq_true, Option.isSome_none, Bool.false_or] at hw
    simp [mk, encMem, decodeRaw, row8, hw]
  | some t =>
    refine .of _ _ rfl fun hw => ?_
    simp only [Instr.wf.eq_def, Bool.and_eq_true, Option.isSome_some, Bool.true_or] at hw
    have ht : BitVec.ofNat 3 t.code ≠ 5#3 := by cases t <;> decide
    simp [mk, encMem, decodeRaw, row8, hw, ht]

theorem decodes_sst (t : Option StTy) (d : SR) (a b : Src) (i : I25) : Decodes (.sst t d a b i) := by
  cases t with
  | none =>
    refine .of _ _ rfl fun hw => ?_
    simp only [Instr.wf.eq_def, Bool.and_eq_true, Option.isSome_none, Bool.false_or] at hw
    simp [mk, encMem, decodeRaw, row8, hw]
  | some t =>
    refine .of _ _ rfl fun hw => ?_
    simp only [Instr.wf.eq_def, Bool.and_eq_true, Option.isSome_some, Bool.true_or] at hw
    have ht : BitVec.ofNat 3 t.code ≠ 3#3 := by cases t <;> decide
    simp [mk, encMem, decodeRaw, row8, hw, ht]

theorem decodes_vldu (t : LdTy) (d : VR) (a b : Src) (i : I25) : Decodes (.vldu t d a b i) := by
  refine .of _ _ rfl fun hw => ?_
  simp only [Instr.wf.eq_def, memS, Bool.and_eq_true] at hw
  simp [mk, encMem, decodeRaw, row8, hw]

theorem decodes_vpref (t : Bool) (a b : Src) (i : I25) : Decodes (.vpref t a b i) := by
  refine .of _ _ rfl fun hw => ?_
  simp only [Instr.wf.eq_def, memV, Bool.and_eq_true] at hw
  simp [mk, encMem, decodeRaw, row8, hw]

theorem decodes_fence (sc : BitVec 3) (cols : BitVec 8) : Decodes (.fence sc cols) := by
  refine .of _ _ rfl fun hw => ?_
  simp only [Instr.wf.eq_def, decide_eq_true_eq] at hw
  simp [mk, decodeRaw, rowA, Nat.lt_succ_of_le hw]

theorem decodes_xfence (sc : BitVec 3) (f t : PClass) : Decodes (.xfence sc f t) := by
  refine .of _ _ rfl fun hw => ?_
  simp only [Instr.wf.eq_def, decide_eq_true_eq] at hw
  generalize hx : BitVec.ofNat 16 (t.code * 8 + f.code) = x
  obtain ⟨h6, h0, h3⟩ := (xfenceX_iff x f t).1 hx.symm
  simp only [BitVec.extractLsb'_toNat, Nat.reducePow, Nat.shiftRight_zero] at h0 h3
  simp [mk, decodeRaw, rowA, Nat.lt_succ_of_le hw, h6, h0, h3]

/-! ## Engine, tile and system words -/

theorem decodes_copy (d : FR) (dsp : Bool) (ssp : BitVec 2) (a b z : Src) (disp : BitVec 12) :
    Decodes (.copy d dsp ssp a b z disp) := by
  refine .of _ _ rfl fun hw => ?_
  simp only [Instr.wf.eq_def, Bool.and_eq_true, BitVec.ofNat_eq_ofNat] at hw
  obtain ⟨⟨⟨ha, hb⟩, hz⟩, h3⟩ := hw
  generalize hx : BitVec.ofNat 16 (dsp.toNat * 16384 + ssp.toNat * 4096 + disp.toNat) = x
  obtain ⟨h14, h12, h0⟩ := (copyX_iff x dsp ssp disp).1 hx.symm
  have hbit : ∀ (y : BitVec 2) (v : Bool), y.toNat = v.toNat → (y == 1#2) = v := by decide
  have hd := hbit _ _ h14
  have hlt : (x.extractLsb' 14 2).toNat < 2 := by rw [h14]; cases dsp <;> decide
  simp only [BitVec.extractLsb'_toNat, Nat.reducePow] at hlt
  simp [mk, decodeRaw, rowB, hd, hlt, h12, h0, ha, hb, hz, h3]

theorem decodes_cmmas (p : Sparse) (z : Bool) (d : FR) (b : Blk) (acc : BitVec 2) : Decodes (.cmmas p z d b acc) := by
  cases p <;> cases z <;>
  · refine .of _ _ rfl fun hw => ?_
    simp only [Instr.wf.eq_def] at hw
    simp [mk, encBlk, decodeRaw, rowC, hw]

theorem decodes_cmova (add : Bool) (d : FR) (dst src : BitVec 2) : Decodes (.cmova add d dst src) := by
  refine .of _ _ rfl fun hw => ?_
  generalize hx : encAcc dst (src.toNat * 2048) = x
  obtain ⟨h15, h0, h13, h11⟩ := (cmovaX_iff x dst src).1 hx.symm
  rw [BitVec.getLsbD_eq_getElem (by decide)] at h15
  simp [mk, decodeRaw, rowC, h15, h0, h13, h11]

theorem decodes_cspec (nw : Bool) (d : SR) (v0 : Bool) (b0 : BitVec 2) (v1 : Bool) (b1 : BitVec 2) :
    Decodes (.cspec nw d v0 b0 v1 b1) := by
  refine .of _ _ rfl fun hw => ?_
  simp only [Instr.wf.eq_def] at hw
  generalize hx : BitVec.ofNat 16 (v0.toNat + 2 * b0.toNat + 8 * v1.toNat + 16 * b1.toNat) = x
  obtain ⟨h6, hv0, hb0, hv1, hb1⟩ := (cspecX_iff x v0 v1 b0 b1).1 hx.symm
  rw [BitVec.getLsbD_eq_getElem (by decide)] at hv0 hv1
  simp [mk, decodeRaw, rowC, h6, hv0, hb0, hv1, hb1, hw]

theorem decodes_cscale (d : FR) (a b : Src) (acc : BitVec 2) (rm : Rm) : Decodes (.cscale d a b acc rm) := by
  refine .of _ _ rfl fun hw => ?_
  simp only [Instr.wf.eq_def, Bool.and_eq_true] at hw
  generalize hx : encAcc acc rm.code = x
  obtain ⟨h15, h3, h13, h0⟩ := (cscaleX_iff x acc rm).1 hx.symm
  rw [BitVec.getLsbD_eq_getElem (by decide)] at h15
  simp only [BitVec.extractLsb'_toNat, Nat.reducePow, Nat.shiftRight_zero] at h0
  simp [mk, decodeRaw, rowC, hw, h15, h3, h13, h0]

theorem decodes_shtblFlush (p : Bool) (d : FR) : Decodes (.shtblFlush p d) := by
  cases p <;>
  · refine .of _ _ rfl fun _ => ?_
    simp [mk, decodeRaw, rowE]

end Sys2Proof
end

section
/-! SUPPORT. The decoder on a full-form word (R65, R67): it answers an instruction exactly when that is well-formed and has the
fields of the word. -/

namespace Sys2Proof

open Sys2Proof.Machine Sys2Proof.Claims

/-- Completeness of the decoder on a full-form word, row by row. -/
theorem decodeRaw_of_encodes (i : Instr) (r : Raw) (h : Encodes r i) : decodeRaw r = .ok i := by
  cases i
  case sadd | ssub | smul | smulh | sdiv | srem | smin | smax | sand | sor | sxor | sandn | sshl | sshr |
      srot | smov =>
    refine Decodes.of _ _ rfl (fun hw => ?_) r h
    simp only [Instr.wf.eq_def, Bool.and_eq_true] at hw
    simp [mk, decodeRaw, row0, hw]
  case smovi => exact decodes_smovi _ _ _ r h
  case slea => exact decodes_slea _ _ _ _ _ r h
  case sext => exact decodes_sext _ _ _ _ r h
  case saddp => exact decodes_saddp _ _ _ r h
  case smask => exact decodes_smask _ _ r h
  case smoviP | scmp | ssel | sclz | spopc | sbfx | sbfi | sleaPc | scvt | sfadd | sfmul | scmpp =>
    refine Decodes.of _ _ rfl (fun hw => ?_) r h
    simp only [Instr.wf.eq_def, Bool.and_eq_true] at hw
    simp [mk, s1, sab, decodeRaw, row1, hw]
  case brv => exact decodes_brv _ _ _ _ r h
  case waitc => exact decodes_waitc _ _ r h
  case bra | join | call | callR | ret | exit | trap | eret | eretNext | yield | spawn | launch | cancel |
      stepadv | brx | nop =>
    refine Decodes.of _ _ rfl (fun hw => ?_) r h
    simp only [Instr.wf.eq_def, Bool.and_eq_true] at hw
    simp [mk, bare, target, decodeRaw, row2, hw]
  case vadd | vsub | vmul | vmulh | vmad | vmin | vmax | vabs | vneg | vand | vor | vxor | vandn | vshl |
      vshr | vrot =>
    refine Decodes.of _ _ rfl (fun hw => ?_) r h
    simp only [Instr.wf.eq_def, Bool.and_eq_true] at hw
    simp [mk, su2, arith2, minmax, absneg, bit2, decodeRaw, row3, hw]
  case vcmp => exact decodes_vcmp _ _ _ _ _ r h
  case vmovi => exact decodes_vmovi _ _ _ _ r h
  case vdot4 => exact decodes_vdot4 _ _ _ _ _ _ _ r h
  case vclz | vpopc | vbfx | vbfi | vsel | vmov | vsad | vavg | vdiv | vrem | vaddc | vclmp =>
    refine Decodes.of _ _ rfl (fun hw => ?_) r h
    simp only [Instr.wf.eq_def, Bool.and_eq_true] at hw
    simp [mk, su2, decodeRaw, row4, hw]
  case vsgnj => exact decodes_vsgnj _ _ _ _ _ _ r h
  case vradd => exact decodes_vradd _ _ _ _ _ _ r h
  case vfma | vfms | vfnma | vfdiv | vsqrt | vrint | vfrac | vclass | vscale | vexpo | vrmax | vrmin |
      vdot2 | vlerp =>
    refine Decodes.of _ _ rfl (fun hw => ?_) r h
    simp only [Instr.wf.eq_def, Bool.and_eq_true] at hw
    simp [mk, float3, float1, spf, seg1_of_fields, decodeRaw, row5, hw]
  case vcvt => exact decodes_vcvt _ _ _ _ _ _ r h
  case vqnt => exact decodes_vqnt _ _ _ _ _ _ r h
  case vdqnt => exact decodes_vdqnt _ _ _ _ _ _ r h
  case vbscl => exact decodes_vbscl _ _ _ _ r h
  case vpack => exact decodes_vpack _ _ _ _ _ _ r h
  case vunpk => exact decodes_vunpk _ _ _ _ r h
  case vplane | vunpl | vrcp | vrsq | vexp2 | vlog2 | vsin | vcos | vtanh | verf =>
    refine Decodes.of _ _ rfl (fun hw => ?_) r h
    simp only [Instr.wf.eq_def, Bool.and_eq_true] at hw
    simp [mk, spf, planeF_of_fields, decodeRaw, row6, hw]
  case vvote => exact decodes_vvote _ _ _ _ r h
  case vscan => exact decodes_vscan _ _ _ _ _ _ _ _ _ r h
  case vrdc => exact decodes_vrdc _ _ _ _ _ _ _ _ r h
  case xvec => exact decodes_xvec _ r h
  case rng => exact decodes_rng _ _ _ r h
  case vbfly => exact decodes_vbfly _ _ _ _ _ _ r h
  case vshfl | vbcast | vbcastI | vrotl | vcprs | vmatch | vgumb | vsmpl | vtopk | vbern =>
    refine Decodes.of _ _ rfl (fun hw => ?_) r h
    simp only [Instr.wf.eq_def, Bool.and_eq_true] at hw
    simp [mk, decodeRaw, row7, hw]
  case vldu => exact decodes_vldu _ _ _ _ _ r h
  case vpref => exact decodes_vpref _ _ _ _ r h
  case sld => exact decodes_sld _ _ _ _ _ r h
  case sst => exact decodes_sst _ _ _ _ _ r h
  case vld | vst | vldp | vstp | vatom | vcas | vatomp | vcasp | satom | scas | vapnd | vldw =>
    refine Decodes.of _ _ rfl (fun hw => ?_) r h
    simp only [Instr.wf.eq_def, Bool.and_eq_true] at hw
    simp [mk, encMem, encMem0, quadV, decodeRaw, row8, hw]
  case vstw | dld | dadd | daddA | smerge | dst | dstamp =>
    refine Decodes.of _ _ rfl (fun hw => ?_) r h
    simp only [Instr.wf.eq_def, Bool.and_eq_true] at hw
    simp [mk, encMem, quadV, decodeRaw, row9, hw]
  case fence => exact decodes_fence _ _ r h
  case xfence => exact decodes_xfence _ _ _ r h
  case bari | bara | barw | bar | barq | trgput | trgget | trgtry | htake | hpass =>
    refine Decodes.of _ _ rfl (fun hw => ?_) r h
    simp only [Instr.wf.eq_def, Bool.and_eq_true] at hw
    simp [mk, encMem, encMem0, bare, decodeRaw, rowA, hw]
  case copy => exact decodes_copy _ _ _ _ _ _ _ r h
  case ftest | fwait | fcancel | fsth | copyt | binopen | binapp | binplay | xsect | smergeu | topk |
      cvtcsr | cvtres | taskput | stsweep | rinv =>
    refine Decodes.of _ _ rfl (fun hw => ?_) r h
    simp only [Instr.wf.eq_def, Bool.and_eq_true] at hw
    simp [mk, encMem0, encBlk, decodeRaw, rowB, hw]
  case cmmas => exact decodes_cmmas _ _ _ _ _ r h
  case cmova => exact decodes_cmova _ _ _ _ r h
  case cspec => exact decodes_cspec _ _ _ _ _ _ r h
  case cscale => exact decodes_cscale _ _ _ _ _ r h
  case cmma | cstore | cload | czero | cresolve | relld | lblsum | draft | accept | crdv | cwrv | cepi =>
    refine Decodes.of _ _ rfl (fun hw => ?_) r h
    simp only [Instr.wf.eq_def, Bool.and_eq_true] at hw
    simp [mk, encBlk, decodeRaw, rowC, hw]
  case lblld | lblldAdm | lblst | cquery =>
    refine Decodes.of _ _ rfl (fun hw => ?_) r h
    simp only [Instr.wf.eq_def, Bool.and_eq_true] at hw
    simp [mk, encMem, decodeRaw, rowD, hw]
  case shtblFlush => exact decodes_shtblFlush _ _ r h
  case mfs | mts | hayfill | tlbinv | icinv | clkrdTime | clkrdCyc | perfrd | perfcfg | ctxsave | ctxload |
      shtblSet | fltresOk | fltresDeny | idlew =>
    refine Decodes.of _ _ rfl (fun hw => ?_) r h
    simp only [Instr.wf.eq_def, Bool.and_eq_true] at hw
    simp [mk, encBlk, decodeRaw, rowE, hw]
  all_goals exact nomatch h.1

theorem decodeRaw_iff (r : Raw) (i : Instr) : decodeRaw r = .ok i ↔ Encodes r i :=
  ⟨decodeRaw_encodes r i, decodeRaw_of_encodes i r⟩

end Sys2Proof
end

section
/-! SUPPORT. The decoder on a pair word (R62-R64): each half is read exactly when it is well-formed and has the bits of the half. -/

namespace Sys2Proof

open Sys2Proof.Machine Sys2Proof.Claims

/-! ## Codes -/

theorem PairOp.code_lt (p : PairOp) : p.code < 64 := by cases p <;> decide
@[simp] theorem PairOp.ofCode_code (p : PairOp) : PairOp.ofCode p.code = some p := by cases p <;> rfl
theorem PairOp.code_ofCode (n : Nat) (p : PairOp) (h : PairOp.ofCode n = some p) : p.code = n := by
  unfold PairOp.ofCode at h; split at h <;> cases h <;> rfl

/-! ## The bits of a half (R52) -/

/-- The field `B` of a half. -/
def Half.bField (h : Half) : BitVec 9 := h.b.elim 0 Src.enc

theorem Half.enc_eq (h : Half) : h.enc = h.pop.code * 2 ^ 25 + h.ty.code * 2 ^ 22 + h.nw.toNat * 2 ^ 21 + h.d.toNat * 2 ^ 13
    + h.bField.toNat * 16 + h.imm.toNat := by
  obtain ⟨p, t, nw, d, b, imm⟩ := h
  cases b <;> rfl

theorem Half.enc_lt (h : Half) : h.enc < 2 ^ 31 := by
  have h1 := h.pop.code_lt; have h2 := h.ty.code_lt; have h3 := h.d.isLt; have h4 := h.bField.isLt; have h5 := h.imm.isLt
  have h6 : h.nw.toNat < 2 := by cases h.nw <;> decide
  rw [Half.enc_eq]
  norm_num only at *
  omega

/-- A half has the bits `x` exactly when it has the fields of `x`. -/
theorem Half.enc_iff (h : Half) (x : BitVec 31) :
    x.toNat = h.enc ↔ (x.extractLsb' 25 6).toNat = h.pop.code ∧ (x.extractLsb' 22 3).toNat = h.ty.code ∧ x.getLsbD 21 = h.nw
      ∧ x.extractLsb' 13 8 = h.d ∧ x.extractLsb' 4 9 = h.bField ∧ x.extractLsb' 0 4 = h.imm := by
  have hx := x.isLt
  have h1 := h.pop.code_lt; have h2 := h.ty.code_lt; have h3 := h.d.isLt; have h4 := h.bField.isLt; have h5 := h.imm.isLt
  have h6 : h.nw.toNat < 2 := by cases h.nw <;> decide
  have hb : x.getLsbD 21 = h.nw ↔ x.toNat / 2 ^ 21 % 2 = h.nw.toNat := by
    rw [← bit_toNat]; exact ⟨congrArg Bool.toNat, bool_eq_of_toNat⟩
  rw [Half.enc_eq, hb, ← BitVec.toNat_inj (y := h.d), ← BitVec.toNat_inj (y := h.bField), ← BitVec.toNat_inj (y := h.imm)]
  simp only [toNat_extract]
  norm_num only at *
  omega

/-! ## The checks on a half (R67) -/

theorem halfPop_iff (x : BitVec 31) (k : Bool) (p : PairOp) : halfPop x k = .ok p ↔ (x.extractLsb' 25 6).toNat = p.code := by
  unfold halfPop
  constructor
  · intro h
    split at h
    · cases h; exact (PairOp.code_ofCode _ _ ‹_›).symm
    · cases h
  · intro h
    simp only [h, PairOp.ofCode_code]

theorem halfTy_iff (p : PairOp) (x : BitVec 31) (k : Bool) (t : VTy) :
    halfTy p x k = .ok t ↔ (x.extractLsb' 22 3).toNat = t.code ∧ p.tyOk t = true := by
  unfold halfTy
  constructor
  · intro h
    split at h
    · split at h
      · cases h; exact ⟨(VTy.code_ofCode _ _ ‹_›).symm, ‹_›⟩
      · cases h
    · cases h
  · rintro ⟨h, ht⟩
    simp only [h, VTy.ofCode_code, ht, if_true]

theorem chkH_iff (ok : Bool) (f : Nat) (k : Bool) (u : Unit) : chkH ok f k = .ok u ↔ ok = true := by
  cases ok <;> simp [chkH]

theorem halfFields_iff (p : PairOp) (t : VTy) (x : BitVec 31) (k : Bool) (h : Half) :
    halfFields p t x k = .ok h ↔ (h.pop = p ∧ h.ty = t ∧ x.getLsbD 21 = h.nw ∧ x.extractLsb' 13 8 = h.d
      ∧ x.extractLsb' 4 9 = h.bField ∧ x.extractLsb' 0 4 = h.imm) ∧ h.nwOk = true ∧ h.dOk = true ∧ h.bOk = true := by
  unfold halfFields
  simp only [dec_bind_eq_ok, chkH_iff]
  constructor
  · rintro ⟨_, hnw, _, hd, h⟩
    split at h
    · rename_i hB
      split at h
      · rename_i b hb
        obtain ⟨_, hcls, h⟩ := (dec_bind_eq_ok ..).1 h
        cases h
        exact ⟨⟨rfl, rfl, rfl, rfl, (Src.enc_dec _ _ hb).symm, rfl⟩, hnw, hd, and_of_parts hB ((chkH_iff ..).1 hcls)⟩
      · cases h
    · rename_i hB
      obtain ⟨_, hz, h⟩ := (dec_bind_eq_ok ..).1 h
      cases h
      refine ⟨⟨rfl, rfl, rfl, rfl, beq_iff_eq.1 ((chkH_iff ..).1 hz), rfl⟩, hnw, hd, ?_⟩
      simp only [Half.bOk, hB, Bool.not_false]
  · obtain ⟨pop, ty, nw, d, b, imm⟩ := h
    rintro ⟨⟨rfl, rfl, rfl, rfl, hb, rfl⟩, hnw, hd, hbOk⟩
    refine ⟨(), hnw, (), hd, ?_⟩
    cases b with
    | none =>
      simp only [Half.bOk, Bool.not_eq_true'] at hbOk
      have hz : (x.extractLsb' 4 9 == 0) = true := beq_iff_eq.2 hb
      rw [hbOk, if_neg (by decide), hz]
      rfl
    | some b =>
      simp only [Half.bOk, Bool.and_eq_true] at hbOk
      have hdec : Src.dec (x.extractLsb' 4 9) = some b := hb ▸ Src.dec_enc b
      simp only [hbOk.1, if_true, hdec, hbOk.2, chkH]
      rfl

/-! ## Pair words (R62, R67) -/

/-- The halves of a pair word are well-formed and stand in it. -/
structure PairEncodes (w : D) (h0 h1 : Half) : Prop where
  enc0 : (pairHalf0 w).toNat = h0.enc
  enc1 : (pairHalf1 w).toNat = h1.enc
  wf : (Instr.pairWord h0 h1).wf = true

theorem Half.wf_iff (h : Half) :
    h.wf = true ↔ h.pop.tyOk h.ty = true ∧ (h.nwOk = true ∧ h.dOk = true ∧ h.bOk = true) ∧ h.immOk = true := by
  simp only [Half.wf, Bool.and_eq_true, and_assoc]

theorem pairWord_wf_iff (h0 h1 : Half) :
    (Instr.pairWord h0 h1).wf = true ↔ h0.wf = true ∧ h1.wf = true ∧ pairRules h0 h1 = true := by
  simp only [Instr.wf.eq_def, Bool.and_eq_true, and_assoc]

/-- Soundness of the decoder on a pair word. -/
theorem decodePair_encodes (w : D) (i : Instr) (h : decodePair w = .ok i) : ∃ h0 h1, i = .pairWord h0 h1 ∧ PairEncodes w h0 h1 := by
  unfold decodePair at h
  simp only [dec_bind_eq_ok, halfPop_iff, halfTy_iff, halfFields_iff, chkH_iff] at h
  obtain ⟨p0, hp0, p1, hp1, t0, ⟨ht0, hty0⟩, t1, ⟨ht1, hty1⟩, h0, ⟨⟨rfl, rfl, hf0⟩, hok0⟩, h1, ⟨⟨rfl, rfl, hf1⟩, hok1⟩,
    _, hrules, _, himm0, _, himm1, h⟩ := h
  refine ⟨h0, h1, (Except.ok.inj h).symm, (h0.enc_iff _).2 ⟨hp0, ht0, hf0⟩, (h1.enc_iff _).2 ⟨hp1, ht1, hf1⟩, ?_⟩
  exact (pairWord_wf_iff h0 h1).2 ⟨h0.wf_iff.2 ⟨hty0, hok0, himm0⟩, h1.wf_iff.2 ⟨hty1, hok1, himm1⟩, hrules⟩

/-- Completeness of the decoder on a pair word. -/
theorem decodePair_of_encodes (w : D) (h0 h1 : Half) (h : PairEncodes w h0 h1) : decodePair w = .ok (.pairWord h0 h1) := by
  obtain ⟨he0, he1, hw⟩ := h
  obtain ⟨hp0, ht0, hf0⟩ := (h0.enc_iff _).1 he0
  obtain ⟨hp1, ht1, hf1⟩ := (h1.enc_iff _).1 he1
  obtain ⟨hw0, hw1, hrules⟩ := (pairWord_wf_iff h0 h1).1 hw
  obtain ⟨hty0, hok0, himm0⟩ := h0.wf_iff.1 hw0
  obtain ⟨hty1, hok1, himm1⟩ := h1.wf_iff.1 hw1
  unfold decodePair
  simp only [dec_bind_eq_ok, halfPop_iff, halfTy_iff, halfFields_iff, chkH_iff]
  exact ⟨h0.pop, hp0, h1.pop, hp1, h0.ty, ⟨ht0, hty0⟩, h1.ty, ⟨ht1, hty1⟩, h0, ⟨⟨rfl, rfl, hf0⟩, hok0⟩,
    h1, ⟨⟨rfl, rfl, hf1⟩, hok1⟩, (), hrules, (), himm0, (), himm1, rfl⟩

/-! ## The word of a pair (R52) -/

theorem toNat_pairWord (h0 h1 : Half) :
    (BitVec.ofNat 64 (2 ^ 63 + h0.enc * 2 ^ 31 + h1.enc)).toNat = 2 ^ 63 + h0.enc * 2 ^ 31 + h1.enc := by
  have e0 := h0.enc_lt; have e1 := h1.enc_lt
  rw [BitVec.toNat_ofNat]
  norm_num only at *
  omega

/-- A word is the word of two halves exactly when its tag says so and they stand in it. -/
theorem eq_pairWord_iff (w : D) (h0 h1 : Half) : w = BitVec.ofNat 64 (2 ^ 63 + h0.enc * 2 ^ 31 + h1.enc) ↔
    w.getLsbD 63 = true ∧ w.getLsbD 62 = false ∧ (pairHalf0 w).toNat = h0.enc ∧ (pairHalf1 w).toNat = h1.enc := by
  have hw := w.isLt
  have e0 := h0.enc_lt; have e1 := h1.enc_lt
  have hb (i : Nat) (v : Bool) : w.getLsbD i = v ↔ w.toNat / 2 ^ i % 2 = v.toNat := by
    rw [← bit_toNat]; exact ⟨congrArg Bool.toNat, bool_eq_of_toNat⟩
  rw [← BitVec.toNat_inj, toNat_pairWord, hb, hb, pairHalf0, pairHalf1, toNat_extract, toNat_extract, Bool.toNat_true,
    Bool.toNat_false]
  norm_num only at *
  omega

end Sys2Proof
end

section
/-! The decoder and the encoder are inverse to each other on well-formed instructions (R50-R64). -/

namespace Sys2Proof

open Sys2Proof.Machine Sys2Proof.Claims

theorem encode_full (i : Instr) (r : Raw) (h : fieldsOf i = some r) : encode i = some r.toWord := by
  unfold encode
  split
  · cases h
  · rw [h]; rfl

theorem encode_eq_some (i : Instr) (x : D) (h : encode i = some x) :
    (∃ r, fieldsOf i = some r ∧ r.toWord = x)
      ∨ ∃ h0 h1, i = .pairWord h0 h1 ∧ x = BitVec.ofNat 64 (2 ^ 63 + h0.enc * 2 ^ 31 + h1.enc) := by
  unfold encode at h
  split at h
  · exact .inr ⟨_, _, rfl, (Option.some.inj h).symm⟩
  · exact .inl (Option.map_eq_some_iff.1 h)

theorem decodeWord_of_encode (i : Instr) (x : D) (hw : i.wf = true) (he : encode i = some x) : decodeWord x = .ok i := by
  rcases encode_eq_some i x he with ⟨r, hf, rfl⟩ | ⟨h0, h1, rfl, hx⟩
  · rw [decodeWord_full _ r.toWord_bit63, Raw.ofWord_toWord]
    exact (decodeRaw_iff r i).2 ⟨hf, hw⟩
  · obtain ⟨h63, h62, he0, he1⟩ := (eq_pairWord_iff x h0 h1).1 hx
    rw [decodeWord_pair x h63 h62]
    exact decodePair_of_encodes x h0 h1 ⟨he0, he1, hw⟩

theorem encode_of_decodeWord (i : Instr) (x : D) (h : decodeWord x = .ok i) : i.wf = true ∧ encode i = some x := by
  cases h63 : x.getLsbD 63 with
  | false =>
    rw [decodeWord_full x h63] at h
    obtain ⟨hf, hw⟩ := (decodeRaw_iff _ i).1 h
    exact ⟨hw, (encode_full i _ hf).trans (congrArg some (Raw.toWord_ofWord x h63))⟩
  | true =>
    cases h62 : x.getLsbD 62 with
    | false =>
      rw [decodeWord_pair x h63 h62] at h
      obtain ⟨h0, h1, rfl, he0, he1, hw⟩ := decodePair_encodes x i h
      exact ⟨hw, congrArg some ((eq_pairWord_iff x h0 h1).2 ⟨h63, h62, he0, he1⟩).symm⟩
    | true =>
      rw [decodeWord_third_form x h63 h62] at h
      cases h

/-- Settles O48: a full-form word by what each row of the decoder accepts, a pair word by the fields of its halves. -/
theorem encodingRoundTrip : Obligations.EncodingRoundTrip := by
  unfold Obligations.EncodingRoundTrip
  exact ⟨decodeWord_of_encode, encode_of_decodeWord⟩

end Sys2Proof
end
